-- ==== Sys2Proof/Word.lean ====
section
/-! DEFINITION. The bit-vector types the manual gives the machine's contents. -/

namespace Sys2Proof

/-- One byte of memory (R5). -/
abbrev Byte := BitVec 8

/-- A 64-bit value: a scalar, mask or bundle-address register, or an address (R70). -/
abbrev Word := BitVec 64

/-- A 32-bit word of a bundle (R326). -/
abbrev Code := BitVec 32

/-- A vector register (R70). -/
abbrev Vec := BitVec 2048

/-- A tile register, 128 lanes of 16 bytes (R70). -/
abbrev Tile := BitVec 16384

/-- A handle register (R72). -/
abbrev Handle := BitVec 128

/-- A 64-byte block: a tensor descriptor, a continuation record, a job control block. -/
abbrev Block64 := BitVec 512

end Sys2Proof
end

