-- ==== Sys2Proof/Syntax.lean ====
section
/-! DEFINITION. The instructions: one constructor for every row of spec/opcode_table.json.
Slot words come first, class by class (R348), then the events that have no encoding
(95_what_each_step_holds). Register numbers are Fin, immediates keep the width they have under
a header (R331). -/

namespace Sys2Proof

/-- Condition codes of CMP and CMPI (R337). -/
inductive Cond where
  | eq | ne | lt | le | gt | ge
  deriving DecidableEq, Repr

/-- Types of LD and ST (R340). -/
inductive STy where
  | i8 | i16 | i32 | i64 | n8 | n16 | n32 | n64
  deriving DecidableEq, Repr

/-- Type codes of vector words (R342). -/
inductive VTy where
  | i8 | i16 | i32 | i64 | n8 | n16 | n32 | n64
  | f64 | f32 | f16 | bf16 | e4m3 | e5m2 | e3m2 | e2m3 | e2m1 | mi8
  deriving DecidableEq, Repr

/-- Formats of VFMA (R341). -/
inductive FTy where
  | f64 | f32 | f16 | bf16
  deriving DecidableEq, Repr

/-- The rounding override of a vector word (R91): 0 is FPCTL.RM. -/
inductive Rnd where
  | dyn | rne | rtz | rup | rdn | rna
  deriving DecidableEq, Repr

/-- What a vector word's header extension carries (R341). -/
structure VMod where
  msk : Fin 8
  rnd : Rnd
  deriving DecidableEq, Repr

/-- Scope codes (R48). -/
inductive Scope where
  | ctx | core | row | die | pkg | part | sys
  deriving DecidableEq, Repr

/-- The matrix format codes (R120). -/
inductive MFmt where
  | e2m1 | e3m2 | e2m3 | e4m3 | e5m2 | mi8 | i8 | i16 | bf16 | f16 | f32 | f64 | i32
  deriving DecidableEq, Repr

/-- Accumulator formats (R121). -/
inductive AFmt where
  | f32 | f64 | i32
  deriving DecidableEq, Repr

/-- A memory operand of LD, ST, LDV, STV, LDT, STT and SQLD, with its immediate in units of the
access size (R316, R340, R410). -/
inductive Addr where
  | scr (x : Fin 32) (imm : BitVec 13)
  | buf (x : Fin 32) (imm : BitVec 13)
  | hnd (n : Fin 16) (x : Fin 32) (imm : BitVec 9)
  deriving DecidableEq, Repr

/-- A register of MOV: file s or b (R336). -/
inductive MovReg where
  | s (n : Fin 32)
  | b (n : Fin 8)
  deriving DecidableEq, Repr

/-- AMO operations (R355). -/
inductive AmoOp where
  | add | and | or | xor | min | max | swap
  deriving DecidableEq, Repr

/-- AMO types (R355). -/
inductive AmoTy where
  | i64 | n64 | i32 | n32 | f64 | f32
  deriving DecidableEq, Repr

/-- CAS sizes (R355). -/
inductive CasSz where
  | d64 | w32 | pair
  deriving DecidableEq, Repr

/-- Directions of CPY2D (R366). -/
inductive Cpy2dDir where
  | scrScr | scrMem | memScr
  deriving DecidableEq, Repr

/-- What CUTB reads (R204). -/
inductive CutSel where
  | bounds | elements | counts
  deriving DecidableEq, Repr

/-- Operations of VRED and VSCAN (R430). -/
inductive RedOp where
  | add | min | max
  deriving DecidableEq, Repr

/-- System registers (R77). -/
inductive SysReg where
  | fpctl | fpflg | nbv | cls | safebnd | tvec | epc | ecause | einfo | edelay
  | ctxid | coreid | launchp | jcbp | strict | cycle
  deriving DecidableEq, Repr

/-- A register of XMIT or IMSEL: a tile or a vector (R230). -/
inductive XReg where
  | t (n : Fin 16)
  | v (n : Fin 32)
  deriving DecidableEq, Repr

/-- A register that a word can wait for (R10, R333). -/
inductive RegName where
  | s (n : Fin 32) | p (n : Fin 16) | b (n : Fin 8) | v (n : Fin 32) | m (n : Fin 8)
  | t (n : Fin 16) | h (n : Fin 16) | o (n : Fin 8) | f (n : Fin 8) | q (n : Fin 8)
  | k (n : Fin 4)
  deriving DecidableEq, Repr

/-- A post as it reaches a coordinator (R237): the posting package, its descriptor (R235) and the
member list that the descriptor names. -/
structure Post where
  pkg  : Nat
  desc : Block64
  members : List Nat
  deriving DecidableEq, Repr

/-- What comes from another package about a barrier object above the package (R233): a child object's arrival on
its way up, with the position of the child one level below, or a flip on its way down the spike. -/
inductive Spike where
  | arrive (vf level child tgt : Nat) (x : Bool)
  | flip (vf level pos : Nat)
  deriving DecidableEq, Repr

/-- Whence a barrier's arrival comes: from a context of the core, or from another package. -/
inductive BarSource where
  | ctx (i : Fin 4)
  | spike (k : Spike)
  deriving DecidableEq, Repr

/-- What the host writes to a command window: bytes, and whether they arrive in ROD (R259, R261). -/
structure WinWrite where
  bytes : List Byte
  rod : Bool
  deriving DecidableEq, Repr

/-- A direction of a die-to-die link (R219). -/
inductive LinkDir where
  | toHub (link : Nat)
  | fromHub (link : Nat)
  deriving DecidableEq, Repr

/-- One constructor per row of the opcode table. -/
inductive Instr where
  -- class 001, SCL
  | add (d a b : Fin 32)
  | sub (d a b : Fin 32)
  | mul (d a b : Fin 32)
  | mulh (d a b : Fin 32) (u : Bool)
  | div (d a b : Fin 32) (u : Bool)
  | rem (d a b : Fin 32) (u : Bool)
  | and (d a b : Fin 32)
  | or (d a b : Fin 32)
  | xor (d a b : Fin 32)
  | andn (d a b : Fin 32)
  | shl (d a b : Fin 32)
  | shr (d a b : Fin 32)
  | sra (d a b : Fin 32)
  | min (d a b : Fin 32) (u : Bool)
  | max (d a b : Fin 32) (u : Bool)
  | clz (d a : Fin 32)
  | popc (d a : Fin 32)
  | addi (d a : Fin 32) (imm : BitVec 18)
  | li (d : Fin 32) (imm : BitVec 22)
  | lih (d : Fin 32) (imm : BitVec 22)
  | mov (d a : MovReg)
  | sel (d : Fin 32) (p : Fin 16) (a b : Fin 32)
  | cmp (p : Fin 16) (a b : Fin 32) (cc : Cond) (u : Bool)
  | cmpi (p : Fin 16) (a : Fin 32) (cc : Cond) (u : Bool) (imm : BitVec 15)
  | plog (d a b : Fin 16) (fn : BitVec 4)
  | br (neg : Bool) (p : Fin 16) (disp : BitVec 23)
  | btree (t0 t1 t2 t3 : Fin 16) (shape : Fin 14) (base : Fin 4) (neg : BitVec 4)
  | jmp (disp : BitVec 28)
  | call (l : Fin 8) (disp : BitVec 25)
  | ret (b : Fin 8)
  | setb (b : Fin 8) (disp : BitVec 25)
  | loop (c : Fin 32) (fin : BitVec 23)
  | lpstg (c : Fin 32) (ns : Fin 8) (fin : BitVec 20)
  | bksel (d a t : Fin 32)
  | nop (n : BitVec 6)
  -- class 010, MEM
  | ld (d : Fin 32) (ty : STy) (a : Addr)
  | st (v : Fin 32) (ty : STy) (a : Addr)
  | ldv (v : Fin 32) (a : Addr)
  | stv (v : Fin 32) (a : Addr)
  | ldt (t : Fin 16) (a : Addr)
  | stt (t : Fin 16) (a : Addr)
  | ldtx (t : Fin 16) (p : Fin 32) (buf : Bool) (x : Fin 32) (sz : Fin 4) (imm : BitVec 11)
  | lde (em : Bool) (d : Fin 32) (buf : Bool) (x : Fin 32) (imm : BitVec 16)
  | ste (v : Fin 32) (buf : Bool) (x : Fin 32) (imm : BitVec 16)
  | feset (full : Bool) (l : Fin 32) (x : Fin 32) (imm : BitVec 16)
  | sqld (a : Addr)
  | trans (h : Fin 16) (a : Fin 32)
  | htest (hi : Bool) (d : Fin 32) (h : Fin 16)
  | orbldD (o : Fin 8) (x : Fin 32) (imm : BitVec 19)
  | orbldTile (t : Fin 16) (o : Fin 8) (a b : Fin 32)
  | orbstScalar (o : Fin 8) (a b v : Fin 32)
  | orbstTile (chk : Bool) (o : Fin 8) (t : Fin 16) (a b : Fin 32)
  | orbofs (d : Fin 32) (o : Fin 8) (a b : Fin 32)
  | orbx (o : Fin 8) (x : Fin 32) (imm : BitVec 20)
  | amo (op : AmoOp) (ty : AmoTy) (d v x : Fin 32) (h : Fin 16)
  | cas (sz : CasSz) (d v x : Fin 32) (h : Fin 16)
  | fence (sc : Bool) (scope : Scope) (pred succ : BitVec 8)
  | drain (scope : Scope)
  | publish (d : Fin 32)
  | bgive (b t : Fin 32)
  | btake (b : Fin 32)
  -- class 011, VEC
  | vadd (d a b : Fin 32) (ty : VTy) (mo : VMod)
  | vsub (d a b : Fin 32) (ty : VTy) (mo : VMod)
  | vmul (d a b : Fin 32) (ty : VTy) (mo : VMod)
  | vfma (d a b c : Fin 32) (ft : FTy) (mo : VMod)
  | vdiv (d a b : Fin 32) (ty : VTy) (mo : VMod)
  | vsqrt (d a : Fin 32) (ty : VTy) (mo : VMod)
  | vrcp (d a : Fin 32) (ty : VTy) (mo : VMod)
  | vrsq (d a : Fin 32) (ty : VTy) (mo : VMod)
  | vexp2 (d a : Fin 32) (ty : VTy) (mo : VMod)
  | vlog2 (d a : Fin 32) (ty : VTy) (mo : VMod)
  | vmin (d a b : Fin 32) (ty : VTy) (mo : VMod)
  | vmax (d a b : Fin 32) (ty : VTy) (mo : VMod)
  | vabs (d a : Fin 32) (ty : VTy) (mo : VMod)
  | vneg (d a : Fin 32) (ty : VTy) (mo : VMod)
  | vclamp (d a b : Fin 32) (ty : VTy) (mo : VMod)
  | vcmp (d : Fin 8) (a b : Fin 32) (ty : VTy) (cc : Fin 4) (mo : VMod)
  | vsel (d a b : Fin 32) (ty : VTy) (mo : VMod)
  | vmlog (d a b : Fin 8) (fn : Fin 4)
  | vand (d a b : Fin 32) (ty : VTy) (mo : VMod)
  | vor (d a b : Fin 32) (ty : VTy) (mo : VMod)
  | vxor (d a b : Fin 32) (ty : VTy) (mo : VMod)
  | vshl (d a b : Fin 32) (ty : VTy) (mo : VMod)
  | vshr (d a b : Fin 32) (ty : VTy) (mo : VMod)
  | vsra (d a b : Fin 32) (ty : VTy) (mo : VMod)
  | vcvt (d a : Fin 32) (src dst : VTy) (q : Fin 4) (mo : VMod)
  | vqnt (d a b : Fin 32) (ty : VTy) (q : Fin 4) (mo : VMod)
  | vdeq (d a b : Fin 32) (ty : VTy) (q : Fin 4) (mo : VMod)
  | vscan (d a b : Fin 32) (ty : VTy) (op : RedOp) (mo : VMod)
  | vred (d a b : Fin 32) (ty : VTy) (op : RedOp) (mo : VMod)
  | vperm (d a b : Fin 32) (ty : VTy) (mo : VMod)
  | vbcast (d a b : Fin 32) (ty : VTy) (mo : VMod)
  | vsplat (d a : Fin 32) (ty : VTy) (mo : VMod)
  | vext (d a b : Fin 32) (ty : VTy)
  | vins (d a b : Fin 32) (ty : VTy)
  | vmov (d a : Fin 32) (ty : VTy) (mo : VMod)
  | viota (d : Fin 32) (ty : VTy) (mo : VMod)
  | vwadd (d a b : Fin 32) (ty : VTy) (q : Fin 4) (mo : VMod)
  | vwmul (d a b : Fin 32) (ty : VTy) (q : Fin 4) (mo : VMod)
  | vwmac (d a b : Fin 32) (ty : VTy) (q : Fin 4) (mo : VMod)
  -- class 100, MTX
  | mown
  | mrel
  | mcfg (a b : MFmt) (acc : AFmt) (mx sat : Bool)
  | mcfgOrb (oa ob oc : Option (Fin 8)) (mul : Bool)
  | mmask (a b c : Fin 32)
  | mpush (t : Fin 16)
  | mshift (k n1 : Fin 128)
  | mbeat (fold pop : Bool) (t : Option (Fin 16)) (x : Fin 32) (imm : BitVec 16)
  | mscale
  | macc (row col : Fin 512)
  | maccReg (x : Fin 32)
  | mzero (row col : Fin 512)
  | mzeroReg (x : Fin 32)
  | mdrain (fmt : MFmt) (t : Fin 16) (row : Fin 512)
  | mdrainReg (fmt : MFmt) (t : Fin 16) (x : Fin 32)
  -- class 101, ASY
  | cpy (lg : Fin 16) (x : Fin 32) (di : BitVec 10) (si : BitVec 9)
  | cpyToMemory (lg : Fin 16) (h : Fin 16) (x : Fin 32) (si : BitVec 15)
  | cpyFromMemory (lg : Fin 16) (h : Fin 16) (x : Fin 32) (si : BitVec 15)
  | cpy2d (dir : Cpy2dDir) (h : Fin 16) (a b g : Fin 32)
  | cplid (c l x : Fin 32) (lg : Fin 16) (imm : BitVec 9)
  | acopy (inward : Bool) (a x : Fin 32) (imm : BitVec 17)
  | gath (sz : Fin 4) (h : Fin 16) (x : Fin 32) (ii di : BitVec 4) (n1 : BitVec 9)
  | scat (sz : Fin 4) (h : Fin 16) (x : Fin 32) (ii di : BitVec 4) (n1 : BitVec 9)
  | fopen (t : Bool) (sz : Fin 4) (f : Fin 8) (x : Fin 32) (imm : BitVec 11)
  | fadv (sz : Fin 4) (f : Fin 8) (c v : Fin 32)
  | fend (d : Fin 16) (f : Fin 8)
  | fpos (d : Fin 32) (f : Fin 8)
  | fclose (f : Fin 8)
  | sopen (q : Fin 8) (a l k : Fin 32)
  | snext (d : Fin 32) (q : Fin 8)
  | stend (d : Fin 16) (q : Fin 8)
  | sclose (q : Fin 8)
  | cut (o : Bool) (d : Fin 16) (k : Fin 4) (a : Fin 32)
  | cutp (o : Bool) (d : Fin 16) (p k : Fin 4) (a : Fin 32)
  | cutb (sel : CutSel) (a b : Fin 32) (k : Fin 4)
  | cqpop (d : Fin 16) (x : Fin 32) (imm : BitVec 13)
  | cqrpl (drop : Bool) (x : Fin 32) (imm : BitVec 16)
  | xmit (west : Bool) (r : XReg) (cyc : BitVec 21)
  | imsel (west : Bool) (r : XReg) (cyc : BitVec 21)
  -- class 110, SYS
  | wait (s : Bool) (ld st cp tl : BitVec 5)
  | bar (x s : Bool) (scope : Scope)
  | bara (scope : Scope)
  | barw (s : Bool) (scope : Scope)
  | phase (x : Fin 32) (imm : BitVec 17)
  | spawn (r : Fin 32)
  | yield
  | susp (w : Fin 32)
  | exit
  | jcbadd (j a : Fin 32)
  | prio (c : BitVec 2)
  | trap (code : BitVec 16)
  | eret
  | mfs (d : Fin 32) (r : SysReg)
  | mts (s : Fin 32) (r : SysReg)
  | cpost (d : Fin 32) (h : Fin 16) (x : Fin 32) (imm : BitVec 14)
  | cwait (d t : Fin 32)
  | lninit (x : Fin 32) (imm : BitVec 17)
  | lnext (p : Fin 16) (d : Fin 32)
  | dgst (x : Fin 32) (imm : BitVec 17)
  -- events of a core: operations in flight are named by their core and number
  | transWrite (core : Nat) (ctx : Fin 4) (h : Fin 16) (val : Handle)
  | atomicPerform (core op : Nat)
  | publishAck (core : Nat) (ctx : Fin 4) (d : Fin 32)
  | groupReady (core id : Nat)
  | mbeatAFold (core id : Nat)
  | foldRetire (core id : Nat)
  | mdrainRetire (core : Nat) (ctx : Fin 4) (t : Fin 16) (val : Tile) (flags : BitVec 7)
  | asyncRetire (core op : Nat)
  | elementServe (die tag : Nat)
  | gatherRetire (die tag : Nat)
  | walkerRetire (core op : Nat)
  | replayPerform (die seq : Nat)
  | transferCycleAct (core : Nat) (ctx : Fin 4)
  | barrierArrival (core : Nat) (from_ : BarSource)
  | suspension (core : Nat) (ctx : Fin 4)
  | loadWriteback (core op : Nat)
  | storePerform (core op : Nat)
  | feRemoteServe (core op : Nat)
  | packetFetch (core : Nat) (ctx : Fin 4)
  -- events at a function's command window and memory regions
  | start (vf : Nat) (val : Word)
  | launchChecksEnd (vf : Nat)
  | veraddr (vf : Nat) (val : Word)
  | preemptRequest (vf : Nat)
  | preemptWithdraw (vf : Nat)
  | attestationReport (vf : Nat) (val : Word)
  | commandWindowWrite (vf : Nat) (offset : Nat) (w : WinWrite)
  | rmaRead (vf region : Nat) (addr len : Nat)
  | rmaWrite (vf region : Nat) (addr : Nat) (bytes : List Byte)
  | send (port : Nat) (bytes : List Byte)
  | virtualFunctionCreate (part : Nat) (pkgs vfs : List Nat) (cores : List (Nat × Nat))
      (ranges : List (Nat × Nat × Nat))
  -- events of jobs and of the pass
  | jobCompletion (vf : Nat)
  | instanceComplete (vf level inst : Nat)
  | passTake (core : Nat) (ctx : Fin 4)
  | passSpill (row : Nat)
  | passReturn (row : Nat)
  | passEntryAged (core : Nat) (ctx : Fin 4)
  | agingPromotion (core : Nat) (ctx : Fin 4)
  | preemptionRequest (core : Nat) (ctx : Fin 4)
  | safePointTaken (core : Nat) (ctx : Fin 4)
  | forcedPreemption (core : Nat) (ctx : Fin 4)
  | forcedPreemptionSave (core : Nat) (ctx : Fin 4)
  | preemptRecordRelease (core : Nat) (rec : Word)
  | shootdown (vf : Nat) (va : Word) (len : Nat)
  -- events of collectives
  | collectivePostReceive (post : Post)
  | reservationGrant (group gseq : BitVec 32) (rank : Nat)
  | rankRequest (group gseq : BitVec 32)
  | startTicket (group gseq : BitVec 32) (rank : Nat)
  | collectiveStart (slot : Nat)
  | collectiveComplete (slot : Nat) (others : List (Nat × List Byte))
  -- events of the packet fabric
  | packetRoute (router : Nat)
  | routerArmed (router : Nat)
  | spoonCapture (router : Nat)
  | sinkLaneMove (router : Nat)
  | spoonReturn (router : Nat)
  | linkRetry (dir : LinkDir)
  | linkFailure (link : Nat)
  | routerError (router : Nat)
  -- events of power, reset and the sideband
  | powerLimitFailure (block : Nat)
  | thermalLimit (block : Nat)
  | packageReset (disabled : List Nat) (harvested : List Nat)
  | sidebandRefresh (draws temps : List Nat)
  -- further events of a core
  | expectRaise (core : Nat) (ctx : Fin 4)
  | bkselTableRead (core : Nat) (ctx : Fin 4)
  | destinationReady (core : Nat) (ctx : Fin 4) (reg : RegName)
  | remoteBufferAccess (core op : Nat)
  | preemptionRequestWithdrawal (core : Nat) (ctx : Fin 4)
  | blockCooled (block : Nat)
  | powerCeilingLimiting (block : Nat)
  deriving DecidableEq, Repr

end Sys2Proof
end

