-- ==== Sys2Proof/Machine/Legal.lean ====
section
/-! DEFINITION. Which operand combinations the manual allows in a word: the checks that a decoder
makes beyond the fields' codes (R349). -/

namespace Sys2Proof

/-- The integer types of a vector word (R423). -/
def VTy.isInt : VTy → Bool
  | .i8 | .i16 | .i32 | .i64 | .n8 | .n16 | .n32 | .n64 => true
  | _ => false

/-- The floating types of arithmetic vector words (R423). -/
def VTy.isFloat : VTy → Bool
  | .f64 | .f32 | .f16 | .bf16 => true
  | _ => false

/-- The signed types, for sign extension and comparisons (R424: mi8 among them). -/
def VTy.isSigned : VTy → Bool
  | .i8 | .i16 | .i32 | .i64 | .mi8 => true
  | _ => false

/-- Element width in bits (R419); the packed formats by the bits of a code (R82). -/
def VTy.width : VTy → Nat
  | .i8 | .n8 | .e4m3 | .e5m2 | .mi8 => 8
  | .i16 | .n16 | .f16 | .bf16 => 16
  | .i32 | .n32 | .f32 => 32
  | .i64 | .n64 | .f64 => 64
  | .e3m2 | .e2m3 => 6
  | .e2m1 => 4

/-- Types that VBCAST, VSPLAT, VEXT and VINS take (R419). -/
def VTy.isWhole : VTy → Bool
  | .e3m2 | .e2m3 | .e2m1 => false
  | _ => true

/-- Types that VCVT takes on either side (R426). -/
def VTy.isCvt (t : VTy) : Bool :=
  t.isInt || t.isFloat || t == .e4m3 || t == .e5m2

/-- Element formats of VQNT and VDEQ (R427). -/
def VTy.isMx : VTy → Bool
  | .e4m3 | .e5m2 | .e3m2 | .e2m3 | .e2m1 | .mi8 => true
  | _ => false

/-- Types of VCMP (R425). -/
def VTy.isCmp : VTy → Bool
  | .i32 | .n32 | .f32 | .i64 | .n64 | .f64 => true
  | _ => false

/-- The narrow types of the widening words (R431). -/
def VTy.isNarrow : VTy → Bool
  | .i8 | .n8 | .i16 | .n16 | .f16 | .bf16 => true
  | _ => false

/-- The ratio of two element widths (R426). -/
def VTy.ratio (a b : VTy) : Nat :=
  if a.width ≤ b.width then b.width / a.width else a.width / b.width

/-- A word that does not round takes no rounding override (R341, R420). -/
def VMod.noRnd (m : VMod) : Bool := m.rnd == .dyn

/-- The formats for which MX may be selected (R108). -/
def MFmt.mayMx : MFmt → Bool
  | .e2m1 | .e3m2 | .e2m3 | .e4m3 | .e5m2 | .mi8 => true
  | _ => false

/-- The MX bit is 1 for mi8 and 0 for a format that R108 excludes from MX (R121). -/
def mxLegal (a b : MFmt) (mx : Bool) : Bool :=
  if mx then a.mayMx && b.mayMx else a != .mi8 && b != .mi8

/-- MTS is illegal for the registers that R77 marks read-only. -/
def SysReg.writable : SysReg → Bool
  | .fpctl | .fpflg | .safebnd | .tvec | .epc | .ecause | .einfo | .edelay => true
  | _ => false

/-- Every combination of operands that some word of the instruction can hold; an event has no
word and no such rule. -/
def legal : Instr → Bool
  | .amo op ty _ _ _ _ =>
      !((ty == .f64 || ty == .f32) && (op == .and || op == .or || op == .xor))
  | .cas sz d v _ _ => sz != .pair || (d.val % 2 == 0 && v.val % 2 == 0)
  | .fence sc _ p q => !sc || (p == 0xFF#8 && q == 0xFF#8)
  | .vadd _ _ _ t m | .vsub _ _ _ t m | .vmul _ _ _ t m =>
      t.isFloat || (t.isInt && m.noRnd)
  | .vdiv _ _ _ t _ => t.isFloat
  | .vsqrt _ _ t _ | .vrcp _ _ t _ | .vrsq _ _ t _ | .vexp2 _ _ t _ | .vlog2 _ _ t _ => t.isFloat
  | .vmin _ _ _ t m | .vmax _ _ _ t m | .vclamp _ _ _ t m =>
      (t.isInt || t.isFloat) && m.noRnd
  | .vabs _ _ t m | .vneg _ _ t m => (t.isInt || t.isFloat) && m.noRnd
  | .vcmp _ _ _ t _ m => t.isCmp && m.noRnd
  | .vsel _ _ _ _ m | .vperm _ _ _ _ m | .vand _ _ _ _ m | .vor _ _ _ _ m | .vxor _ _ _ _ m
  | .vmov _ _ _ m => m.noRnd
  | .vshl _ _ _ t m | .vshr _ _ _ t m | .vsra _ _ _ t m => t.isInt && m.noRnd
  | .vcvt _ _ src dst q m =>
      src.isCvt && dst.isCvt && src != dst && src.ratio dst ≤ 4 && q.val < src.ratio dst
        && (!(src.isInt && dst.isInt) || m.noRnd)
  | .vqnt _ _ _ t _ m => t.isMx && m.msk == 0
  | .vdeq _ _ _ t _ _ => t.isMx
  | .vscan _ _ _ t op m | .vred _ _ _ t op m =>
      (t.isInt && m.noRnd) || (t.isFloat && (op == .add || m.noRnd))
  | .vbcast _ _ _ t m => t.isWhole && m.noRnd
  | .vsplat _ _ t m => t.isWhole && m.noRnd
  | .vext _ _ _ t | .vins _ _ _ t => t.isWhole
  | .viota _ t m => t.isInt && m.noRnd
  | .vwadd _ _ _ t q m | .vwmul _ _ _ t q m | .vwmac _ _ _ t q m =>
      t.isNarrow && (t.width == 8 || q.val < 2) && (t.isFloat || m.noRnd)
  | .mcfg a b acc mx sat =>
      a != .i32 && b != .i32 && mxLegal a b mx && (!sat || acc == .i32)
  | .mshift k n1 => decide (k.val ≤ n1.val)
  | .cpy2d dir h _ _ _ => dir != .scrScr || h == 0
  | .cut o _ _ a => o || a == 0
  | .cutp o _ _ _ a => o || a == 0
  | .bar x _ scope => scope != .ctx && (!x || scope == .row)
  | .bara scope | .barw _ scope => scope != .ctx
  | .mts _ r => r.writable
  | _ => true

end Sys2Proof
end

