-- ==== Sys2Proof/WellFormed.lean ====
section
/-! DEFINITION. Well-formed instructions: those that some word encodes (R349), and every event. -/

namespace Sys2Proof

/-- A term of Instr that the encoding can hold. -/
def Instr.wf (i : Instr) : Bool := legal i

/-- The slot words, as against the events, which have no encoding. -/
def Instr.isWord : Instr → Bool
  | .transWrite .. | .atomicPerform .. | .publishAck .. | .groupReady .. | .mbeatAFold ..
  | .foldRetire .. | .mdrainRetire .. | .asyncRetire .. | .elementServe .. | .gatherRetire ..
  | .walkerRetire .. | .replayPerform .. | .transferCycleAct .. | .barrierArrival ..
  | .suspension .. | .loadWriteback .. | .storePerform .. | .feRemoteServe .. | .packetFetch ..
  | .start .. | .launchChecksEnd .. | .veraddr .. | .preemptRequest .. | .preemptWithdraw ..
  | .attestationReport .. | .commandWindowWrite .. | .rmaRead .. | .rmaWrite .. | .send ..
  | .virtualFunctionCreate .. | .jobCompletion .. | .instanceComplete .. | .passTake ..
  | .passSpill .. | .passReturn .. | .passEntryAged .. | .agingPromotion ..
  | .preemptionRequest .. | .safePointTaken .. | .forcedPreemption .. | .forcedPreemptionSave ..
  | .preemptRecordRelease .. | .shootdown .. | .collectivePostReceive .. | .reservationGrant ..
  | .rankRequest .. | .startTicket .. | .collectiveStart .. | .collectiveComplete ..
  | .packetRoute .. | .routerArmed .. | .spoonCapture .. | .sinkLaneMove .. | .spoonReturn ..
  | .linkRetry .. | .linkFailure .. | .routerError .. | .powerLimitFailure .. | .thermalLimit ..
  | .packageReset .. | .sidebandRefresh .. | .expectRaise .. | .bkselTableRead ..
  | .destinationReady .. | .remoteBufferAccess .. | .preemptionRequestWithdrawal ..
  | .blockCooled .. | .powerCeilingLimiting .. => false
  | _ => true

end Sys2Proof
end

