-- ==== Sys2Proof/Decode.lean ====
section
/-! DEFINITION. Decoding a slot word with its header extension, total and rejecting by name, and
the encoder. The encoding tables are R336 to R345 and the rules they name; opcodes are R348. -/

namespace Sys2Proof

/-- Why a slot word does not decode (R346): not a slot word at all, an unassigned position
(ILL_SLOT), or a value no form of the instruction uses (ILL_MOD). -/
inductive DecErr where
  | notSlot
  | illSlot
  | illMod
  deriving DecidableEq, Repr

/-- The header extension group of a word, none when no header covers it (R331). -/
abbrev Ext := Option (BitVec 6)

/-- Bits [lo+len-1 : lo] of a word (R4). -/
def fld (w : Code) (lo len : Nat) : BitVec len := w.extractLsb' lo len

/-- A bit of a word. -/
def bitAt (w : Code) (i : Nat) : Bool := w.getLsbD i

/-- A field marked zero holds zero. -/
def zeroFld (w : Code) (lo len : Nat) : Bool := fld w lo len == 0#len

def reg5 (w : Code) (lo : Nat) : Fin 32 := (fld w lo 5).toFin
def reg4 (w : Code) (lo : Nat) : Fin 16 := (fld w lo 4).toFin
def reg3 (w : Code) (lo : Nat) : Fin 8 := (fld w lo 3).toFin
def reg2 (w : Code) (lo : Nat) : Fin 4 := (fld w lo 2).toFin

/-- A word whose format takes no extension: a group of zero is none, another traps ILL_MOD
(R331). -/
def noExt (e : Ext) : Bool := e == none || e == some 0#6

/-- A signed immediate: the group supplies the bits above the word's; with no header the word's
own immediate is sign-extended (R331). -/
def sImm {n : Nat} (e : Ext) (i : BitVec n) : BitVec (6 + n) :=
  match e with
  | none => i.signExtend (6 + n)
  | some g => g ++ i

/-- An unsigned immediate (R331, R375). -/
def uImm {n : Nat} (e : Ext) (i : BitVec n) : BitVec (6 + n) :=
  match e with
  | none => i.zeroExtend (6 + n)
  | some g => g ++ i

/-- The instruction if a check passes and its operands are legal, else ILL_MOD (R349). -/
def need (c : Bool) (i : Instr) : Except DecErr Instr :=
  if c && legal i then .ok i else .error .illMod

/-- The same for an instruction one of whose codes may be reserved. -/
def needSome (c : Bool) (i : Option Instr) : Except DecErr Instr :=
  match i with
  | none => .error .illMod
  | some i => need c i

def condOf : BitVec 3 → Option Cond
  | 0 => some .eq | 1 => some .ne | 2 => some .lt | 3 => some .le | 4 => some .gt | 5 => some .ge
  | _ => none

def condCode : Cond → BitVec 3
  | .eq => 0 | .ne => 1 | .lt => 2 | .le => 3 | .gt => 4 | .ge => 5

def styOf : BitVec 3 → STy
  | 0 => .i8 | 1 => .i16 | 2 => .i32 | 3 => .i64 | 4 => .n8 | 5 => .n16 | 6 => .n32 | _ => .n64

def styCode : STy → BitVec 3
  | .i8 => 0 | .i16 => 1 | .i32 => 2 | .i64 => 3 | .n8 => 4 | .n16 => 5 | .n32 => 6 | .n64 => 7

def vtyOf : BitVec 5 → Option VTy
  | 0 => some .i8 | 1 => some .i16 | 2 => some .i32 | 3 => some .i64
  | 4 => some .n8 | 5 => some .n16 | 6 => some .n32 | 7 => some .n64
  | 8 => some .f64 | 9 => some .f32 | 10 => some .f16 | 11 => some .bf16
  | 12 => some .e4m3 | 13 => some .e5m2 | 14 => some .e3m2 | 15 => some .e2m3
  | 16 => some .e2m1 | 17 => some .mi8 | _ => none

def vtyCode : VTy → BitVec 5
  | .i8 => 0 | .i16 => 1 | .i32 => 2 | .i64 => 3 | .n8 => 4 | .n16 => 5 | .n32 => 6 | .n64 => 7
  | .f64 => 8 | .f32 => 9 | .f16 => 10 | .bf16 => 11 | .e4m3 => 12 | .e5m2 => 13 | .e3m2 => 14
  | .e2m3 => 15 | .e2m1 => 16 | .mi8 => 17

def ftyOf : BitVec 2 → FTy
  | 0 => .f64 | 1 => .f32 | 2 => .f16 | _ => .bf16

def ftyCode : FTy → BitVec 2
  | .f64 => 0 | .f32 => 1 | .f16 => 2 | .bf16 => 3

def rndOf : BitVec 3 → Option Rnd
  | 0 => some .dyn | 1 => some .rne | 2 => some .rtz | 3 => some .rup | 4 => some .rdn
  | 5 => some .rna | _ => none

def rndCode : Rnd → BitVec 3
  | .dyn => 0 | .rne => 1 | .rtz => 2 | .rup => 3 | .rdn => 4 | .rna => 5

def scopeOf : BitVec 3 → Option Scope
  | 0 => some .ctx | 1 => some .core | 2 => some .row | 3 => some .die | 4 => some .pkg
  | 5 => some .part | 6 => some .sys | _ => none

def scopeCode : Scope → BitVec 3
  | .ctx => 0 | .core => 1 | .row => 2 | .die => 3 | .pkg => 4 | .part => 5 | .sys => 6

def mfmtOf : BitVec 4 → Option MFmt
  | 0 => some .e2m1 | 1 => some .e3m2 | 2 => some .e2m3 | 3 => some .e4m3 | 4 => some .e5m2
  | 5 => some .mi8 | 6 => some .i8 | 7 => some .i16 | 8 => some .bf16 | 9 => some .f16
  | 10 => some .f32 | 11 => some .f64 | 12 => some .i32 | _ => none

def mfmtCode : MFmt → BitVec 4
  | .e2m1 => 0 | .e3m2 => 1 | .e2m3 => 2 | .e4m3 => 3 | .e5m2 => 4 | .mi8 => 5 | .i8 => 6
  | .i16 => 7 | .bf16 => 8 | .f16 => 9 | .f32 => 10 | .f64 => 11 | .i32 => 12

def afmtOf : BitVec 2 → Option AFmt
  | 0 => some .f32 | 1 => some .f64 | 2 => some .i32 | _ => none

def afmtCode : AFmt → BitVec 2
  | .f32 => 0 | .f64 => 1 | .i32 => 2

def amoOpOf : BitVec 3 → Option AmoOp
  | 0 => some .add | 1 => some .and | 2 => some .or | 3 => some .xor | 4 => some .min
  | 5 => some .max | 6 => some .swap | _ => none

def amoOpCode : AmoOp → BitVec 3
  | .add => 0 | .and => 1 | .or => 2 | .xor => 3 | .min => 4 | .max => 5 | .swap => 6

/-- AMO's extension carries TY in [2:0] and zero in [5:3]; with no extension TY is 0 (R355). -/
def amoTyOf (e : Ext) : Option AmoTy :=
  match e.getD 0#6 with
  | 0 => some .i64 | 1 => some .n64 | 2 => some .i32 | 3 => some .n32 | 4 => some .f64
  | 5 => some .f32 | _ => none

def amoTyCode : AmoTy → BitVec 6
  | .i64 => 0 | .n64 => 1 | .i32 => 2 | .n32 => 3 | .f64 => 4 | .f32 => 5

def casSzOf : BitVec 3 → Option CasSz
  | 0 => some .d64 | 1 => some .w32 | 2 => some .pair | _ => none

def casSzCode : CasSz → BitVec 3
  | .d64 => 0 | .w32 => 1 | .pair => 2

def cpy2dDirOf : BitVec 2 → Option Cpy2dDir
  | 0 => some .scrScr | 1 => some .scrMem | 2 => some .memScr | _ => none

def cpy2dDirCode : Cpy2dDir → BitVec 2
  | .scrScr => 0 | .scrMem => 1 | .memScr => 2

def cutSelOf : BitVec 2 → Option CutSel
  | 0 => some .bounds | 1 => some .elements | 2 => some .counts | _ => none

def cutSelCode : CutSel → BitVec 2
  | .bounds => 0 | .elements => 1 | .counts => 2

def redOpOf : BitVec 2 → Option RedOp
  | 0 => some .add | 1 => some .min | 2 => some .max | _ => none

def redOpCode : RedOp → BitVec 2
  | .add => 0 | .min => 1 | .max => 2

/-- The system register numbers of R77. -/
def sysRegOf : BitVec 6 → Option SysReg
  | 0 => some .fpctl | 1 => some .fpflg | 2 => some .nbv | 3 => some .cls | 4 => some .safebnd
  | 5 => some .tvec | 6 => some .epc | 7 => some .ecause | 8 => some .einfo | 9 => some .edelay
  | 10 => some .ctxid | 11 => some .coreid | 12 => some .launchp | 13 => some .jcbp
  | 14 => some .strict | 15 => some .cycle | _ => none

def sysRegCode : SysReg → BitVec 6
  | .fpctl => 0 | .fpflg => 1 | .nbv => 2 | .cls => 3 | .safebnd => 4 | .tvec => 5 | .epc => 6
  | .ecause => 7 | .einfo => 8 | .edelay => 9 | .ctxid => 10 | .coreid => 11 | .launchp => 12
  | .jcbp => 13 | .strict => 14 | .cycle => 15

/-- The address forms of R340, with AM in [13:12], X in [11:7] and N, IMM below. -/
def addrOf (w : Code) (e : Ext) : Option Addr :=
  match fld w 12 2 with
  | 0 => some (.scr (reg5 w 7) (uImm e (fld w 0 7)))
  | 1 => some (.buf (reg5 w 7) (uImm e (fld w 0 7)))
  | 2 => some (.hnd (reg4 w 3) (reg5 w 7) (uImm e (fld w 0 3)))
  | _ => none

/-- The vector extension: MSK in [5:3], RND in [2:0] (R341). -/
def vmodOf (e : Ext) : Option VMod :=
  let g := e.getD 0#6
  (rndOf (g.extractLsb' 0 3)).map fun r => ⟨(g.extractLsb' 3 3).toFin, r⟩

def triScl (w : Code) (e : Ext) (f : Fin 32 → Fin 32 → Fin 32 → Instr) : Except DecErr Instr :=
  need (noExt e && zeroFld w 0 7) (f (reg5 w 17) (reg5 w 12) (reg5 w 7))

def triSclU (w : Code) (e : Ext) (f : Fin 32 → Fin 32 → Fin 32 → Bool → Instr) :
    Except DecErr Instr :=
  need (noExt e && zeroFld w 0 6) (f (reg5 w 17) (reg5 w 12) (reg5 w 7) (bitAt w 6))

/-- A register of MOV; a b register holds zeros in its high bits (R392). -/
def movRegOf (isB : Bool) (r : Fin 32) : Option MovReg :=
  if isB then
    if h : r.val < 8 then some (.b ⟨r.val, h⟩) else none
  else some (.s r)

/-- BTREE's shape, 14 and 15 reserved (R338). -/
def shapeOf (s : BitVec 4) : Option (Fin 14) :=
  if h : s.toNat < 14 then some ⟨s.toNat, h⟩ else none

/-- Class 001 (R336, R348). -/
def decodeScl (op : Nat) (w : Code) (e : Ext) : Except DecErr Instr :=
  match op with
  | 0x00 => triScl w e .add
  | 0x01 => triScl w e .sub
  | 0x02 => triScl w e .mul
  | 0x03 => triSclU w e .mulh
  | 0x04 => triSclU w e .div
  | 0x05 => triSclU w e .rem
  | 0x06 => triScl w e .and
  | 0x07 => triScl w e .or
  | 0x08 => triScl w e .xor
  | 0x09 => triScl w e .andn
  | 0x0A => triScl w e .shl
  | 0x0B => triScl w e .shr
  | 0x0C => triScl w e .sra
  | 0x0D => triSclU w e .min
  | 0x0E => triSclU w e .max
  | 0x0F => need (noExt e && zeroFld w 0 12) (.clz (reg5 w 17) (reg5 w 12))
  | 0x10 => need (noExt e && zeroFld w 0 12) (.popc (reg5 w 17) (reg5 w 12))
  | 0x11 => need true (.addi (reg5 w 17) (reg5 w 12) (sImm e (fld w 0 12)))
  | 0x12 => need (zeroFld w 16 1) (.li (reg5 w 17) (sImm e (fld w 0 16)))
  | 0x13 => need (zeroFld w 16 1) (.lih (reg5 w 17) (uImm e (fld w 0 16)))
  | 0x14 =>
      match movRegOf (bitAt w 21) (reg5 w 16), movRegOf (bitAt w 15) (reg5 w 10) with
      | some d, some a => need (noExt e && zeroFld w 0 10) (.mov d a)
      | _, _ => .error .illMod
  | 0x15 => need (noExt e && zeroFld w 0 3) (.sel (reg5 w 17) (reg4 w 13) (reg5 w 8) (reg5 w 3))
  | 0x16 =>
      needSome (noExt e && zeroFld w 0 4)
        ((condOf (fld w 5 3)).map fun c => .cmp (reg4 w 18) (reg5 w 13) (reg5 w 8) c (bitAt w 4))
  | 0x17 =>
      needSome true
        ((condOf (fld w 10 3)).map fun c =>
          .cmpi (reg4 w 18) (reg5 w 13) c (bitAt w 9) (sImm e (fld w 0 9)))
  | 0x18 => need (noExt e && zeroFld w 0 6) (.plog (reg4 w 18) (reg4 w 14) (reg4 w 10) (fld w 6 4))
  | 0x20 => need true (.br (bitAt w 21) (reg4 w 17) (sImm e (fld w 0 17)))
  | 0x21 =>
      needSome ((e.getD 0#6).extractLsb' 4 2 == 0#2)
        ((shapeOf (fld w 2 4)).map fun sh =>
          .btree (reg4 w 18) (reg4 w 14) (reg4 w 10) (reg4 w 6) sh (reg2 w 0)
            ((e.getD 0#6).extractLsb' 0 4))
  | 0x22 => need true (.jmp (sImm e (fld w 0 22)))
  | 0x23 => need true (.call (reg3 w 19) (sImm e (fld w 0 19)))
  | 0x24 => need (noExt e && zeroFld w 0 19) (.ret (reg3 w 19))
  | 0x25 => need true (.setb (reg3 w 19) (sImm e (fld w 0 19)))
  | 0x26 => need true (.loop (reg5 w 17) (sImm e (fld w 0 17)))
  | 0x27 => need true (.lpstg (reg5 w 17) (reg3 w 14) (sImm e (fld w 0 14)))
  | 0x28 => triScl w e .bksel
  | 0x3F => need (noExt e && zeroFld w 6 16) (.nop (fld w 0 6))
  | _ => .error .illSlot

/-- Class 010 (R340, R175, R139, R192, R355, R410). -/
def decodeMem (op : Nat) (w : Code) (e : Ext) : Except DecErr Instr :=
  match op with
  | 0x00 => needSome true ((addrOf w e).map fun a => .ld (reg5 w 17) (styOf (fld w 14 3)) a)
  | 0x01 => needSome true ((addrOf w e).map fun a => .st (reg5 w 17) (styOf (fld w 14 3)) a)
  | 0x02 => needSome (zeroFld w 14 3) ((addrOf w e).map fun a => .ldv (reg5 w 17) a)
  | 0x03 => needSome (zeroFld w 14 3) ((addrOf w e).map fun a => .stv (reg5 w 17) a)
  | 0x04 => needSome (zeroFld w 14 3 && zeroFld w 21 1) ((addrOf w e).map fun a => .ldt (reg4 w 17) a)
  | 0x05 => needSome (zeroFld w 14 3 && zeroFld w 21 1) ((addrOf w e).map fun a => .stt (reg4 w 17) a)
  | 0x06 =>
      need true (.ldtx (reg4 w 18) (reg5 w 13) (bitAt w 12) (reg5 w 7) (reg2 w 5) (uImm e (fld w 0 5)))
  | 0x07 =>
      need true (.lde (bitAt w 21) (reg5 w 16) (bitAt w 15) (reg5 w 10) (uImm e (fld w 0 10)))
  | 0x08 => need (zeroFld w 21 1) (.ste (reg5 w 16) (bitAt w 15) (reg5 w 10) (uImm e (fld w 0 10)))
  | 0x09 => need (zeroFld w 15 1) (.feset (bitAt w 21) (reg5 w 16) (reg5 w 10) (uImm e (fld w 0 10)))
  | 0x0A => needSome (zeroFld w 14 8) ((addrOf w e).map .sqld)
  | 0x0B => need (noExt e && zeroFld w 0 13) (.trans (reg4 w 18) (reg5 w 13))
  | 0x0C => need (noExt e && zeroFld w 0 12) (.htest (bitAt w 21) (reg5 w 16) (reg4 w 12))
  | 0x0D =>
      if bitAt w 21 then need true (.orbldD (reg3 w 18) (reg5 w 13) (uImm e (fld w 0 13)))
      else need (noExt e && zeroFld w 0 4) (.orbldTile (reg4 w 17) (reg3 w 14) (reg5 w 9) (reg5 w 4))
  | 0x0E =>
      if bitAt w 21 then
        need (noExt e && zeroFld w 0 3)
          (.orbstTile (bitAt w 20) (reg3 w 17) (reg4 w 13) (reg5 w 8) (reg5 w 3))
      else need (noExt e && zeroFld w 0 3) (.orbstScalar (reg3 w 18) (reg5 w 13) (reg5 w 8) (reg5 w 3))
  | 0x0F => need (noExt e && zeroFld w 0 4) (.orbofs (reg5 w 17) (reg3 w 14) (reg5 w 9) (reg5 w 4))
  | 0x10 => need true (.orbx (reg3 w 19) (reg5 w 14) (uImm e (fld w 0 14)))
  | 0x11 =>
      match amoOpOf (fld w 0 3), amoTyOf e with
      | some op, some ty => need true (.amo op ty (reg5 w 17) (reg5 w 12) (reg5 w 7) (reg4 w 3))
      | _, _ => .error .illMod
  | 0x12 =>
      needSome (noExt e)
        ((casSzOf (fld w 0 3)).map fun z => .cas z (reg5 w 17) (reg5 w 12) (reg5 w 7) (reg4 w 3))
  | 0x13 =>
      needSome (noExt e && zeroFld w 0 2)
        ((scopeOf (fld w 18 3)).map fun sc => .fence (bitAt w 21) sc (fld w 10 8) (fld w 2 8))
  | 0x14 => needSome (noExt e && zeroFld w 0 19) ((scopeOf (fld w 19 3)).map .drain)
  | 0x15 => need (noExt e && zeroFld w 0 17) (.publish (reg5 w 17))
  | 0x16 => need (noExt e && zeroFld w 0 12) (.bgive (reg5 w 17) (reg5 w 12))
  | 0x17 => need (noExt e && zeroFld w 0 17) (.btake (reg5 w 17))
  | _ => .error .illSlot

/-- A vector word of three registers and a type (R341). -/
def vec3 (w : Code) (e : Ext) (f : Fin 32 → Fin 32 → Fin 32 → VTy → VMod → Instr) :
    Except DecErr Instr :=
  match vtyOf (fld w 2 5), vmodOf e with
  | some t, some m => need (zeroFld w 0 2) (f (reg5 w 17) (reg5 w 12) (reg5 w 7) t m)
  | _, _ => .error .illMod

/-- A vector word of one source (R422). -/
def vec2 (w : Code) (e : Ext) (f : Fin 32 → Fin 32 → VTy → VMod → Instr) : Except DecErr Instr :=
  match vtyOf (fld w 2 5), vmodOf e with
  | some t, some m => need (zeroFld w 0 2 && zeroFld w 7 5) (f (reg5 w 17) (reg5 w 12) t m)
  | _, _ => .error .illMod

/-- A vector word with a quarter in SUB (R427, R431). -/
def vec3q (w : Code) (e : Ext) (f : Fin 32 → Fin 32 → Fin 32 → VTy → Fin 4 → VMod → Instr) :
    Except DecErr Instr :=
  match vtyOf (fld w 2 5), vmodOf e with
  | some t, some m => need true (f (reg5 w 17) (reg5 w 12) (reg5 w 7) t (reg2 w 0) m)
  | _, _ => .error .illMod

/-- VRED and VSCAN (R430). -/
def vecRed (w : Code) (e : Ext) (f : Fin 32 → Fin 32 → Fin 32 → VTy → RedOp → VMod → Instr) :
    Except DecErr Instr :=
  match vtyOf (fld w 2 5), redOpOf (fld w 0 2), vmodOf e with
  | some t, some o, some m => need true (f (reg5 w 17) (reg5 w 12) (reg5 w 7) t o m)
  | _, _, _ => .error .illMod

/-- VEXT and VINS, whose MSK must be 0 and which do not round (R424). -/
def vecElt (w : Code) (e : Ext) (f : Fin 32 → Fin 32 → Fin 32 → VTy → Instr) :
    Except DecErr Instr :=
  match vtyOf (fld w 2 5) with
  | some t => need (noExt e && zeroFld w 0 2) (f (reg5 w 17) (reg5 w 12) (reg5 w 7) t)
  | none => .error .illMod

/-- Class 011 (R341, R422 to R431). -/
def decodeVec (op : Nat) (w : Code) (e : Ext) : Except DecErr Instr :=
  match op with
  | 0x00 => vec3 w e .vadd
  | 0x01 => vec3 w e .vsub
  | 0x02 => vec3 w e .vmul
  | 0x03 =>
      needSome true ((vmodOf e).map fun m =>
        .vfma (reg5 w 17) (reg5 w 12) (reg5 w 7) (reg5 w 2) (ftyOf (fld w 0 2)) m)
  | 0x04 => vec3 w e .vdiv
  | 0x05 => vec2 w e .vsqrt
  | 0x06 => vec2 w e .vrcp
  | 0x07 => vec2 w e .vrsq
  | 0x08 => vec2 w e .vexp2
  | 0x09 => vec2 w e .vlog2
  | 0x0A => vec3 w e .vmin
  | 0x0B => vec3 w e .vmax
  | 0x0C => vec2 w e .vabs
  | 0x0D => vec2 w e .vneg
  | 0x0E => vec3 w e .vclamp
  | 0x0F =>
      match vtyOf (fld w 2 5), vmodOf e with
      | some t, some m =>
          need (zeroFld w 20 2) (.vcmp (reg3 w 17) (reg5 w 12) (reg5 w 7) t (reg2 w 0) m)
      | _, _ => .error .illMod
  | 0x10 => vec3 w e .vsel
  | 0x11 =>
      need (noExt e && zeroFld w 20 2 && zeroFld w 15 2 && zeroFld w 10 2 && zeroFld w 2 5)
        (.vmlog (reg3 w 17) (reg3 w 12) (reg3 w 7) (reg2 w 0))
  | 0x12 => vec3 w e .vand
  | 0x13 => vec3 w e .vor
  | 0x14 => vec3 w e .vxor
  | 0x15 => vec3 w e .vshl
  | 0x16 => vec3 w e .vshr
  | 0x17 => vec3 w e .vsra
  | 0x18 =>
      match vtyOf (fld w 2 5), vtyOf (fld w 7 5), vmodOf e with
      | some dst, some src, some m => need true (.vcvt (reg5 w 17) (reg5 w 12) src dst (reg2 w 0) m)
      | _, _, _ => .error .illMod
  | 0x19 => vec3q w e .vqnt
  | 0x1A => vec3q w e .vdeq
  | 0x1B => vecRed w e .vscan
  | 0x1C => vecRed w e .vred
  | 0x1D => vec3 w e .vperm
  | 0x1E => vec3 w e .vbcast
  | 0x1F => vec2 w e .vsplat
  | 0x20 => vecElt w e .vext
  | 0x21 => vecElt w e .vins
  | 0x22 => vec2 w e .vmov
  | 0x23 =>
      match vtyOf (fld w 2 5), vmodOf e with
      | some t, some m => need (zeroFld w 0 2 && zeroFld w 7 10) (.viota (reg5 w 17) t m)
      | _, _ => .error .illMod
  | 0x24 => vec3q w e .vwadd
  | 0x25 => vec3q w e .vwmul
  | 0x26 => vec3q w e .vwmac
  | _ => .error .illSlot

/-- A binding of MCFG.orb; a register field with its enable clear is zero (R121). -/
def bindOf (en : Bool) (r : Fin 8) : Option (Fin 8) := if en then some r else none

/-- Class 100 (R119, R121). -/
def decodeMtx (op : Nat) (w : Code) (e : Ext) : Except DecErr Instr :=
  match op with
  | 0x00 => need (noExt e && zeroFld w 0 22) .mown
  | 0x01 => need (noExt e && zeroFld w 0 22) .mrel
  | 0x02 =>
      if bitAt w 21 then
        need (noExt e && zeroFld w 0 8 && (bitAt w 20 || zeroFld w 17 3)
            && (bitAt w 16 || zeroFld w 13 3) && (bitAt w 12 || zeroFld w 9 3))
          (.mcfgOrb (bindOf (bitAt w 20) (reg3 w 17)) (bindOf (bitAt w 16) (reg3 w 13))
            (bindOf (bitAt w 12) (reg3 w 9)) (bitAt w 8))
      else
        match mfmtOf (fld w 17 4), mfmtOf (fld w 13 4), afmtOf (fld w 11 2) with
        | some a, some b, some c =>
            need (noExt e && zeroFld w 0 9) (.mcfg a b c (bitAt w 10) (bitAt w 9))
        | _, _, _ => .error .illMod
  | 0x03 => need (noExt e && zeroFld w 0 7) (.mmask (reg5 w 17) (reg5 w 12) (reg5 w 7))
  | 0x04 => need (noExt e && zeroFld w 0 18) (.mpush (reg4 w 18))
  | 0x05 => need (noExt e && zeroFld w 0 8) (.mshift (fld w 15 7).toFin (fld w 8 7).toFin)
  | 0x06 =>
      need (bitAt w 19 || zeroFld w 15 4)
        (.mbeat (bitAt w 21) (bitAt w 20) (if bitAt w 19 then some (reg4 w 15) else none)
          (reg5 w 10) (uImm e (fld w 0 10)))
  | 0x07 => need (noExt e && zeroFld w 0 22) .mscale
  | 0x08 =>
      if bitAt w 21 then need (noExt e && zeroFld w 0 16) (.maccReg (reg5 w 16))
      else need (noExt e && zeroFld w 0 3) (.macc (fld w 12 9).toFin (fld w 3 9).toFin)
  | 0x09 =>
      if bitAt w 21 then need (noExt e && zeroFld w 0 16) (.mzeroReg (reg5 w 16))
      else need (noExt e && zeroFld w 0 3) (.mzero (fld w 12 9).toFin (fld w 3 9).toFin)
  | 0x0A =>
      match mfmtOf (fld w 18 4) with
      | none => .error .illMod
      | some f =>
          if bitAt w 13 then need (noExt e && zeroFld w 0 8) (.mdrainReg f (reg4 w 14) (reg5 w 8))
          else need (noExt e && zeroFld w 0 4) (.mdrain f (reg4 w 14) (fld w 4 9).toFin)
  | _ => .error .illSlot

/-- The register of XMIT and IMSEL: a tile field has its top bit zero (R242). -/
def xregOf (v : Bool) (r : Fin 32) : Option XReg :=
  if v then some (.v r)
  else if h : r.val < 16 then some (.t ⟨r.val, h⟩) else none

/-- Class 101 (R343, R351, R366, R216, R242). -/
def decodeAsy (op : Nat) (w : Code) (e : Ext) : Except DecErr Instr :=
  match op with
  | 0x00 =>
      let g := e.getD 0#6
      need true (.cpy (reg4 w 18) (reg5 w 13) (g.extractLsb' 3 3 ++ fld w 6 7)
        (g.extractLsb' 0 3 ++ fld w 0 6))
  | 0x01 => need true (.cpyToMemory (reg4 w 18) (reg4 w 14) (reg5 w 9) (uImm e (fld w 0 9)))
  | 0x02 => need true (.cpyFromMemory (reg4 w 18) (reg4 w 14) (reg5 w 9) (uImm e (fld w 0 9)))
  | 0x03 =>
      needSome (noExt e && zeroFld w 0 1)
        ((cpy2dDirOf (fld w 20 2)).map fun d =>
          .cpy2d d (reg4 w 16) (reg5 w 11) (reg5 w 6) (reg5 w 1))
  | 0x04 =>
      need true (.cplid (reg5 w 17) (reg5 w 12) (reg5 w 7) (reg4 w 3) (uImm e (fld w 0 3)))
  | 0x05 => need true (.acopy (bitAt w 21) (reg5 w 16) (reg5 w 11) (uImm e (fld w 0 11)))
  | 0x08 =>
      need true (.gath (reg2 w 20) (reg4 w 16) (reg5 w 11) (fld w 7 4) (fld w 3 4) (uImm e (fld w 0 3)))
  | 0x09 =>
      need true (.scat (reg2 w 20) (reg4 w 16) (reg5 w 11) (fld w 7 4) (fld w 3 4) (uImm e (fld w 0 3)))
  | 0x0A => need (noExt e) (.fopen (bitAt w 21) (reg2 w 19) (reg3 w 16) (reg5 w 11) (fld w 0 11))
  | 0x0B => need (noExt e && zeroFld w 0 7) (.fadv (reg2 w 20) (reg3 w 17) (reg5 w 12) (reg5 w 7))
  | 0x0C => need (noExt e && zeroFld w 0 15) (.fend (reg4 w 18) (reg3 w 15))
  | 0x0D => need (noExt e && zeroFld w 0 14) (.fpos (reg5 w 17) (reg3 w 14))
  | 0x0E => need (noExt e && zeroFld w 0 19) (.fclose (reg3 w 19))
  | 0x0F => need (noExt e && zeroFld w 0 4) (.sopen (reg3 w 19) (reg5 w 14) (reg5 w 9) (reg5 w 4))
  | 0x10 => need (noExt e && zeroFld w 0 14) (.snext (reg5 w 17) (reg3 w 14))
  | 0x11 => need (noExt e && zeroFld w 0 15) (.stend (reg4 w 18) (reg3 w 15))
  | 0x12 => need (noExt e && zeroFld w 0 19) (.sclose (reg3 w 19))
  | 0x13 => need (noExt e && zeroFld w 0 10) (.cut (bitAt w 21) (reg4 w 17) (reg2 w 15) (reg5 w 10))
  | 0x14 =>
      need (noExt e && zeroFld w 0 8)
        (.cutp (bitAt w 21) (reg4 w 17) (reg2 w 15) (reg2 w 13) (reg5 w 8))
  | 0x15 =>
      needSome (noExt e && zeroFld w 0 8)
        ((cutSelOf (fld w 20 2)).map fun s => .cutb s (reg5 w 15) (reg5 w 10) (reg2 w 8))
  | 0x16 => need (noExt e) (.cqpop (reg4 w 18) (reg5 w 13) (fld w 0 13))
  | 0x17 => need (noExt e) (.cqrpl (bitAt w 21) (reg5 w 16) (fld w 0 16))
  | 0x18 =>
      needSome true ((xregOf (bitAt w 20) (reg5 w 15)).map fun r =>
        .xmit (bitAt w 21) r (uImm e (fld w 0 15)))
  | 0x19 =>
      needSome true ((xregOf (bitAt w 20) (reg5 w 15)).map fun r =>
        .imsel (bitAt w 21) r (uImm e (fld w 0 15)))
  | _ => .error .illSlot

/-- Class 110 (R344, R175, R242, R373, R380, R407, R414). -/
def decodeSys (op : Nat) (w : Code) (e : Ext) : Except DecErr Instr :=
  match op with
  | 0x00 =>
      need (noExt e && zeroFld w 0 1)
        (.wait (bitAt w 21) (fld w 16 5) (fld w 11 5) (fld w 6 5) (fld w 1 5))
  | 0x01 =>
      needSome (noExt e && zeroFld w 0 17)
        ((scopeOf (fld w 17 3)).map fun sc => .bar (bitAt w 21) (bitAt w 20) sc)
  | 0x02 => needSome (noExt e && zeroFld w 0 17 && zeroFld w 20 2) ((scopeOf (fld w 17 3)).map .bara)
  | 0x03 =>
      needSome (noExt e && zeroFld w 0 17 && zeroFld w 21 1)
        ((scopeOf (fld w 17 3)).map fun sc => .barw (bitAt w 20) sc)
  | 0x04 => need (noExt e) (.phase (reg5 w 17) (fld w 0 17))
  | 0x05 => need (noExt e && zeroFld w 0 17) (.spawn (reg5 w 17))
  | 0x06 => need (noExt e && zeroFld w 0 22) .yield
  | 0x07 => need (noExt e && zeroFld w 0 17) (.susp (reg5 w 17))
  | 0x08 => need (noExt e && zeroFld w 0 22) .exit
  | 0x09 => need (noExt e && zeroFld w 0 12) (.jcbadd (reg5 w 17) (reg5 w 12))
  | 0x0A => need (noExt e && zeroFld w 2 20) (.prio (fld w 0 2))
  | 0x0B => need (noExt e && zeroFld w 16 6) (.trap (fld w 0 16))
  | 0x0C => need (noExt e && zeroFld w 0 22) .eret
  | 0x0D => needSome (noExt e && zeroFld w 0 11) ((sysRegOf (fld w 11 6)).map (.mfs (reg5 w 17)))
  | 0x0E => needSome (noExt e && zeroFld w 0 11) ((sysRegOf (fld w 11 6)).map (.mts (reg5 w 17)))
  | 0x0F => need true (.cpost (reg5 w 17) (reg4 w 13) (reg5 w 8) (uImm e (fld w 0 8)))
  | 0x10 => need (noExt e && zeroFld w 0 12) (.cwait (reg5 w 17) (reg5 w 12))
  | 0x11 => need (noExt e) (.lninit (reg5 w 17) (fld w 0 17))
  | 0x12 => need (noExt e && zeroFld w 0 13) (.lnext (reg4 w 18) (reg5 w 13))
  | 0x13 => need (noExt e) (.dgst (reg5 w 17) (fld w 0 17))
  | _ => .error .illSlot

/-- The class of a word, bits [30:28] (R326). -/
def classOf (w : Code) : Nat := (fld w 28 3).toNat

/-- Judging one slot word in the order of R346, with the extension group that covers it. The S bit
frames the bundle and plays no part. -/
def decodeWord (e : Ext) (w : Code) : Except DecErr Instr :=
  let op := (fld w 22 6).toNat
  match classOf w with
  | 1 => decodeScl op w e
  | 2 => decodeMem op w e
  | 3 => decodeVec op w e
  | 4 => decodeMtx op w e
  | 5 => decodeAsy op w e
  | 6 => decodeSys op w e
  | 7 => .error .illSlot
  | _ => .error .notSlot

/-- The decoder on a word whose bits the host numbers as the opcode table does. Every row is one
32-bit word; bits above nbits are zero. -/
def decodeTableWord (nbits w : Nat) : Option Instr :=
  match decodeWord none (BitVec.ofNat 32 (w % 2 ^ nbits)) with
  | .ok i => some i
  | .error _ => none

/-- A word with the extension group that goes with it. -/
structure Enc where
  ext  : Ext
  word : Code
  deriving DecidableEq, Repr

/-- A slot word with S clear (R326). -/
def wordOf (cls : BitVec 3) (op : BitVec 6) (opnd : BitVec 22) : Code := 0#1 ++ cls ++ op ++ opnd

def b5 (r : Fin 32) : BitVec 5 := .ofFin r
def b4 (r : Fin 16) : BitVec 4 := .ofFin r
def b3 (r : Fin 8) : BitVec 3 := .ofFin r
def b2 (r : Fin 4) : BitVec 2 := .ofFin r
def b1 (b : Bool) : BitVec 1 := .ofBool b

/-- The low n bits of an immediate, which the word holds. -/
def lowBits {m : Nat} (n : Nat) (i : BitVec m) : BitVec n := i.extractLsb' 0 n

/-- The six bits above them, which the group holds (R331). -/
def extBits {m : Nat} (n : Nat) (i : BitVec m) : Ext := some (i.extractLsb' n 6)

def encTri (op : BitVec 6) (d a b : Fin 32) (u : Bool) : Enc :=
  ⟨none, wordOf 1 op (b5 d ++ b5 a ++ b5 b ++ b1 u ++ 0#6)⟩

def encAddr (op : BitVec 6) (hi : BitVec 8) (a : Addr) : Enc :=
  match a with
  | .scr x i => ⟨extBits 7 i, wordOf 2 op (hi ++ 0#2 ++ b5 x ++ lowBits 7 i)⟩
  | .buf x i => ⟨extBits 7 i, wordOf 2 op (hi ++ 1#2 ++ b5 x ++ lowBits 7 i)⟩
  | .hnd n x i => ⟨extBits 3 i, wordOf 2 op (hi ++ 2#2 ++ b5 x ++ b4 n ++ lowBits 3 i)⟩

def encMod (m : VMod) : Ext := some (b3 m.msk ++ rndCode m.rnd)

def encVec (op : BitVec 6) (d a b : BitVec 5) (t : VTy) (sub : BitVec 2) (m : VMod) : Enc :=
  ⟨encMod m, wordOf 3 op (d ++ a ++ b ++ vtyCode t ++ sub)⟩

def encMov (r : MovReg) : BitVec 6 :=
  match r with
  | .s n => 0#1 ++ b5 n
  | .b n => 1#1 ++ 0#2 ++ b3 n

def encBind (r : Option (Fin 8)) : BitVec 4 :=
  match r with
  | none => 0#4
  | some r => 1#1 ++ b3 r

def encX (r : XReg) : BitVec 6 :=
  match r with
  | .t n => 0#2 ++ b4 n
  | .v n => 1#1 ++ b5 n

def encGath (op : BitVec 6) (sz : Fin 4) (h : Fin 16) (x : Fin 32) (ii di : BitVec 4)
    (n1 : BitVec 9) : Enc :=
  ⟨extBits 3 n1, wordOf 5 op (b2 sz ++ b4 h ++ b5 x ++ ii ++ di ++ lowBits 3 n1)⟩

/-- The word of an instruction, with its group where its format takes one; none for an event,
which has no encoding. -/
def encode : Instr → Option Enc
  | .add d a b => some (encTri 0x00 d a b false)
  | .sub d a b => some (encTri 0x01 d a b false)
  | .mul d a b => some (encTri 0x02 d a b false)
  | .mulh d a b u => some (encTri 0x03 d a b u)
  | .div d a b u => some (encTri 0x04 d a b u)
  | .rem d a b u => some (encTri 0x05 d a b u)
  | .and d a b => some (encTri 0x06 d a b false)
  | .or d a b => some (encTri 0x07 d a b false)
  | .xor d a b => some (encTri 0x08 d a b false)
  | .andn d a b => some (encTri 0x09 d a b false)
  | .shl d a b => some (encTri 0x0A d a b false)
  | .shr d a b => some (encTri 0x0B d a b false)
  | .sra d a b => some (encTri 0x0C d a b false)
  | .min d a b u => some (encTri 0x0D d a b u)
  | .max d a b u => some (encTri 0x0E d a b u)
  | .clz d a => some (encTri 0x0F d a 0 false)
  | .popc d a => some (encTri 0x10 d a 0 false)
  | .addi d a i => some ⟨extBits 12 i, wordOf 1 0x11 (b5 d ++ b5 a ++ lowBits 12 i)⟩
  | .li d i => some ⟨extBits 16 i, wordOf 1 0x12 (b5 d ++ 0#1 ++ lowBits 16 i)⟩
  | .lih d i => some ⟨extBits 16 i, wordOf 1 0x13 (b5 d ++ 0#1 ++ lowBits 16 i)⟩
  | .mov d a => some ⟨none, wordOf 1 0x14 (encMov d ++ encMov a ++ 0#10)⟩
  | .sel d p a b => some ⟨none, wordOf 1 0x15 (b5 d ++ b4 p ++ b5 a ++ b5 b ++ 0#3)⟩
  | .cmp p a b c u => some ⟨none, wordOf 1 0x16 (b4 p ++ b5 a ++ b5 b ++ condCode c ++ b1 u ++ 0#4)⟩
  | .cmpi p a c u i =>
      some ⟨extBits 9 i, wordOf 1 0x17 (b4 p ++ b5 a ++ condCode c ++ b1 u ++ lowBits 9 i)⟩
  | .plog d a b f => some ⟨none, wordOf 1 0x18 (b4 d ++ b4 a ++ b4 b ++ f ++ 0#6)⟩
  | .br n p i => some ⟨extBits 17 i, wordOf 1 0x20 (b1 n ++ b4 p ++ lowBits 17 i)⟩
  | .btree t0 t1 t2 t3 sh k n =>
      some ⟨some (0#2 ++ n), wordOf 1 0x21 (b4 t0 ++ b4 t1 ++ b4 t2 ++ b4 t3
        ++ BitVec.ofNat 4 sh.val ++ b2 k)⟩
  | .jmp i => some ⟨extBits 22 i, wordOf 1 0x22 (lowBits 22 i)⟩
  | .call l i => some ⟨extBits 19 i, wordOf 1 0x23 (b3 l ++ lowBits 19 i)⟩
  | .ret b => some ⟨none, wordOf 1 0x24 (b3 b ++ 0#19)⟩
  | .setb b i => some ⟨extBits 19 i, wordOf 1 0x25 (b3 b ++ lowBits 19 i)⟩
  | .loop c i => some ⟨extBits 17 i, wordOf 1 0x26 (b5 c ++ lowBits 17 i)⟩
  | .lpstg c n i => some ⟨extBits 14 i, wordOf 1 0x27 (b5 c ++ b3 n ++ lowBits 14 i)⟩
  | .bksel d a t => some (encTri 0x28 d a t false)
  | .nop n => some ⟨none, wordOf 1 0x3F (0#16 ++ n)⟩
  | .ld d t a => some (encAddr 0x00 (b5 d ++ styCode t) a)
  | .st v t a => some (encAddr 0x01 (b5 v ++ styCode t) a)
  | .ldv v a => some (encAddr 0x02 (b5 v ++ 0#3) a)
  | .stv v a => some (encAddr 0x03 (b5 v ++ 0#3) a)
  | .ldt t a => some (encAddr 0x04 (0#1 ++ b4 t ++ 0#3) a)
  | .stt t a => some (encAddr 0x05 (0#1 ++ b4 t ++ 0#3) a)
  | .ldtx t p m x z i =>
      some ⟨extBits 5 i, wordOf 2 0x06 (b4 t ++ b5 p ++ b1 m ++ b5 x ++ b2 z ++ lowBits 5 i)⟩
  | .lde em d m x i =>
      some ⟨extBits 10 i, wordOf 2 0x07 (b1 em ++ b5 d ++ b1 m ++ b5 x ++ lowBits 10 i)⟩
  | .ste v m x i => some ⟨extBits 10 i, wordOf 2 0x08 (0#1 ++ b5 v ++ b1 m ++ b5 x ++ lowBits 10 i)⟩
  | .feset f l x i =>
      some ⟨extBits 10 i, wordOf 2 0x09 (b1 f ++ b5 l ++ 0#1 ++ b5 x ++ lowBits 10 i)⟩
  | .sqld a => some (encAddr 0x0A 0#8 a)
  | .trans h a => some ⟨none, wordOf 2 0x0B (b4 h ++ b5 a ++ 0#13)⟩
  | .htest hi d h => some ⟨none, wordOf 2 0x0C (b1 hi ++ b5 d ++ b4 h ++ 0#12)⟩
  | .orbldD o x i => some ⟨extBits 13 i, wordOf 2 0x0D (1#1 ++ b3 o ++ b5 x ++ lowBits 13 i)⟩
  | .orbldTile t o a b => some ⟨none, wordOf 2 0x0D (0#1 ++ b4 t ++ b3 o ++ b5 a ++ b5 b ++ 0#4)⟩
  | .orbstScalar o a b v =>
      some ⟨none, wordOf 2 0x0E (0#1 ++ b3 o ++ b5 a ++ b5 b ++ b5 v ++ 0#3)⟩
  | .orbstTile c o t a b =>
      some ⟨none, wordOf 2 0x0E (1#1 ++ b1 c ++ b3 o ++ b4 t ++ b5 a ++ b5 b ++ 0#3)⟩
  | .orbofs d o a b => some ⟨none, wordOf 2 0x0F (b5 d ++ b3 o ++ b5 a ++ b5 b ++ 0#4)⟩
  | .orbx o x i => some ⟨extBits 14 i, wordOf 2 0x10 (b3 o ++ b5 x ++ lowBits 14 i)⟩
  | .amo op ty d v x h =>
      some ⟨some (amoTyCode ty), wordOf 2 0x11 (b5 d ++ b5 v ++ b5 x ++ b4 h ++ amoOpCode op)⟩
  | .cas z d v x h => some ⟨none, wordOf 2 0x12 (b5 d ++ b5 v ++ b5 x ++ b4 h ++ casSzCode z)⟩
  | .fence sc s p q => some ⟨none, wordOf 2 0x13 (b1 sc ++ scopeCode s ++ p ++ q ++ 0#2)⟩
  | .drain s => some ⟨none, wordOf 2 0x14 (scopeCode s ++ 0#19)⟩
  | .publish d => some ⟨none, wordOf 2 0x15 (b5 d ++ 0#17)⟩
  | .bgive b t => some ⟨none, wordOf 2 0x16 (b5 b ++ b5 t ++ 0#12)⟩
  | .btake b => some ⟨none, wordOf 2 0x17 (b5 b ++ 0#17)⟩
  | .vadd d a b t m => some (encVec 0x00 (b5 d) (b5 a) (b5 b) t 0 m)
  | .vsub d a b t m => some (encVec 0x01 (b5 d) (b5 a) (b5 b) t 0 m)
  | .vmul d a b t m => some (encVec 0x02 (b5 d) (b5 a) (b5 b) t 0 m)
  | .vfma d a b c f m =>
      some ⟨encMod m, wordOf 3 0x03 (b5 d ++ b5 a ++ b5 b ++ b5 c ++ ftyCode f)⟩
  | .vdiv d a b t m => some (encVec 0x04 (b5 d) (b5 a) (b5 b) t 0 m)
  | .vsqrt d a t m => some (encVec 0x05 (b5 d) (b5 a) 0 t 0 m)
  | .vrcp d a t m => some (encVec 0x06 (b5 d) (b5 a) 0 t 0 m)
  | .vrsq d a t m => some (encVec 0x07 (b5 d) (b5 a) 0 t 0 m)
  | .vexp2 d a t m => some (encVec 0x08 (b5 d) (b5 a) 0 t 0 m)
  | .vlog2 d a t m => some (encVec 0x09 (b5 d) (b5 a) 0 t 0 m)
  | .vmin d a b t m => some (encVec 0x0A (b5 d) (b5 a) (b5 b) t 0 m)
  | .vmax d a b t m => some (encVec 0x0B (b5 d) (b5 a) (b5 b) t 0 m)
  | .vabs d a t m => some (encVec 0x0C (b5 d) (b5 a) 0 t 0 m)
  | .vneg d a t m => some (encVec 0x0D (b5 d) (b5 a) 0 t 0 m)
  | .vclamp d a b t m => some (encVec 0x0E (b5 d) (b5 a) (b5 b) t 0 m)
  | .vcmp d a b t c m => some (encVec 0x0F (0#2 ++ b3 d) (b5 a) (b5 b) t (b2 c) m)
  | .vsel d a b t m => some (encVec 0x10 (b5 d) (b5 a) (b5 b) t 0 m)
  | .vmlog d a b f =>
      some ⟨none, wordOf 3 0x11 (0#2 ++ b3 d ++ 0#2 ++ b3 a ++ 0#2 ++ b3 b ++ 0#5 ++ b2 f)⟩
  | .vand d a b t m => some (encVec 0x12 (b5 d) (b5 a) (b5 b) t 0 m)
  | .vor d a b t m => some (encVec 0x13 (b5 d) (b5 a) (b5 b) t 0 m)
  | .vxor d a b t m => some (encVec 0x14 (b5 d) (b5 a) (b5 b) t 0 m)
  | .vshl d a b t m => some (encVec 0x15 (b5 d) (b5 a) (b5 b) t 0 m)
  | .vshr d a b t m => some (encVec 0x16 (b5 d) (b5 a) (b5 b) t 0 m)
  | .vsra d a b t m => some (encVec 0x17 (b5 d) (b5 a) (b5 b) t 0 m)
  | .vcvt d a src dst q m => some (encVec 0x18 (b5 d) (b5 a) (vtyCode src) dst (b2 q) m)
  | .vqnt d a b t q m => some (encVec 0x19 (b5 d) (b5 a) (b5 b) t (b2 q) m)
  | .vdeq d a b t q m => some (encVec 0x1A (b5 d) (b5 a) (b5 b) t (b2 q) m)
  | .vscan d a b t o m => some (encVec 0x1B (b5 d) (b5 a) (b5 b) t (redOpCode o) m)
  | .vred d a b t o m => some (encVec 0x1C (b5 d) (b5 a) (b5 b) t (redOpCode o) m)
  | .vperm d a b t m => some (encVec 0x1D (b5 d) (b5 a) (b5 b) t 0 m)
  | .vbcast d a b t m => some (encVec 0x1E (b5 d) (b5 a) (b5 b) t 0 m)
  | .vsplat d a t m => some (encVec 0x1F (b5 d) (b5 a) 0 t 0 m)
  | .vext d a b t => some ⟨none, wordOf 3 0x20 (b5 d ++ b5 a ++ b5 b ++ vtyCode t ++ 0#2)⟩
  | .vins d a b t => some ⟨none, wordOf 3 0x21 (b5 d ++ b5 a ++ b5 b ++ vtyCode t ++ 0#2)⟩
  | .vmov d a t m => some (encVec 0x22 (b5 d) (b5 a) 0 t 0 m)
  | .viota d t m => some (encVec 0x23 (b5 d) 0 0 t 0 m)
  | .vwadd d a b t q m => some (encVec 0x24 (b5 d) (b5 a) (b5 b) t (b2 q) m)
  | .vwmul d a b t q m => some (encVec 0x25 (b5 d) (b5 a) (b5 b) t (b2 q) m)
  | .vwmac d a b t q m => some (encVec 0x26 (b5 d) (b5 a) (b5 b) t (b2 q) m)
  | .mown => some ⟨none, wordOf 4 0x00 0⟩
  | .mrel => some ⟨none, wordOf 4 0x01 0⟩
  | .mcfg a b c x s =>
      some ⟨none, wordOf 4 0x02 (0#1 ++ mfmtCode a ++ mfmtCode b ++ afmtCode c ++ b1 x ++ b1 s ++ 0#9)⟩
  | .mcfgOrb a b c u =>
      some ⟨none, wordOf 4 0x02 (1#1 ++ encBind a ++ encBind b ++ encBind c ++ b1 u ++ 0#8)⟩
  | .mmask a b c => some ⟨none, wordOf 4 0x03 (b5 a ++ b5 b ++ b5 c ++ 0#7)⟩
  | .mpush t => some ⟨none, wordOf 4 0x04 (b4 t ++ 0#18)⟩
  | .mshift k n => some ⟨none, wordOf 4 0x05 (BitVec.ofFin (w := 7) k ++ BitVec.ofFin (w := 7) n ++ 0#8)⟩
  | .mbeat f p t x i =>
      some ⟨extBits 10 i, wordOf 4 0x06 (b1 f ++ b1 p ++ b1 t.isSome ++ b4 (t.getD 0) ++ b5 x
        ++ lowBits 10 i)⟩
  | .mscale => some ⟨none, wordOf 4 0x07 0⟩
  | .macc r c => some ⟨none, wordOf 4 0x08 (0#1 ++ BitVec.ofFin (w := 9) r ++ BitVec.ofFin (w := 9) c ++ 0#3)⟩
  | .maccReg x => some ⟨none, wordOf 4 0x08 (1#1 ++ b5 x ++ 0#16)⟩
  | .mzero r c => some ⟨none, wordOf 4 0x09 (0#1 ++ BitVec.ofFin (w := 9) r ++ BitVec.ofFin (w := 9) c ++ 0#3)⟩
  | .mzeroReg x => some ⟨none, wordOf 4 0x09 (1#1 ++ b5 x ++ 0#16)⟩
  | .mdrain f t r => some ⟨none, wordOf 4 0x0A (mfmtCode f ++ b4 t ++ 0#1 ++ BitVec.ofFin (w := 9) r ++ 0#4)⟩
  | .mdrainReg f t x => some ⟨none, wordOf 4 0x0A (mfmtCode f ++ b4 t ++ 1#1 ++ b5 x ++ 0#8)⟩
  | .cpy l x di si =>
      some ⟨some (di.extractLsb' 7 3 ++ si.extractLsb' 6 3),
        wordOf 5 0x00 (b4 l ++ b5 x ++ lowBits 7 di ++ lowBits 6 si)⟩
  | .cpyToMemory l h x i =>
      some ⟨extBits 9 i, wordOf 5 0x01 (b4 l ++ b4 h ++ b5 x ++ lowBits 9 i)⟩
  | .cpyFromMemory l h x i =>
      some ⟨extBits 9 i, wordOf 5 0x02 (b4 l ++ b4 h ++ b5 x ++ lowBits 9 i)⟩
  | .cpy2d d h a b g =>
      some ⟨none, wordOf 5 0x03 (cpy2dDirCode d ++ b4 h ++ b5 a ++ b5 b ++ b5 g ++ 0#1)⟩
  | .cplid c l x g i =>
      some ⟨extBits 3 i, wordOf 5 0x04 (b5 c ++ b5 l ++ b5 x ++ b4 g ++ lowBits 3 i)⟩
  | .acopy d a x i => some ⟨extBits 11 i, wordOf 5 0x05 (b1 d ++ b5 a ++ b5 x ++ lowBits 11 i)⟩
  | .gath z h x ii di n => some (encGath 0x08 z h x ii di n)
  | .scat z h x ii di n => some (encGath 0x09 z h x ii di n)
  | .fopen t z f x i => some ⟨none, wordOf 5 0x0A (b1 t ++ b2 z ++ b3 f ++ b5 x ++ i)⟩
  | .fadv z f c v => some ⟨none, wordOf 5 0x0B (b2 z ++ b3 f ++ b5 c ++ b5 v ++ 0#7)⟩
  | .fend d f => some ⟨none, wordOf 5 0x0C (b4 d ++ b3 f ++ 0#15)⟩
  | .fpos d f => some ⟨none, wordOf 5 0x0D (b5 d ++ b3 f ++ 0#14)⟩
  | .fclose f => some ⟨none, wordOf 5 0x0E (b3 f ++ 0#19)⟩
  | .sopen q a l k => some ⟨none, wordOf 5 0x0F (b3 q ++ b5 a ++ b5 l ++ b5 k ++ 0#4)⟩
  | .snext d q => some ⟨none, wordOf 5 0x10 (b5 d ++ b3 q ++ 0#14)⟩
  | .stend d q => some ⟨none, wordOf 5 0x11 (b4 d ++ b3 q ++ 0#15)⟩
  | .sclose q => some ⟨none, wordOf 5 0x12 (b3 q ++ 0#19)⟩
  | .cut o d k a => some ⟨none, wordOf 5 0x13 (b1 o ++ b4 d ++ b2 k ++ b5 a ++ 0#10)⟩
  | .cutp o d p k a => some ⟨none, wordOf 5 0x14 (b1 o ++ b4 d ++ b2 p ++ b2 k ++ b5 a ++ 0#8)⟩
  | .cutb s a b k => some ⟨none, wordOf 5 0x15 (cutSelCode s ++ b5 a ++ b5 b ++ b2 k ++ 0#8)⟩
  | .cqpop d x i => some ⟨none, wordOf 5 0x16 (b4 d ++ b5 x ++ i)⟩
  | .cqrpl z x i => some ⟨none, wordOf 5 0x17 (b1 z ++ b5 x ++ i)⟩
  | .xmit d r c => some ⟨extBits 15 c, wordOf 5 0x18 (b1 d ++ encX r ++ lowBits 15 c)⟩
  | .imsel d r c => some ⟨extBits 15 c, wordOf 5 0x19 (b1 d ++ encX r ++ lowBits 15 c)⟩
  | .wait s ld st cp tl => some ⟨none, wordOf 6 0x00 (b1 s ++ ld ++ st ++ cp ++ tl ++ 0#1)⟩
  | .bar x s sc => some ⟨none, wordOf 6 0x01 (b1 x ++ b1 s ++ scopeCode sc ++ 0#17)⟩
  | .bara sc => some ⟨none, wordOf 6 0x02 (0#2 ++ scopeCode sc ++ 0#17)⟩
  | .barw s sc => some ⟨none, wordOf 6 0x03 (0#1 ++ b1 s ++ scopeCode sc ++ 0#17)⟩
  | .phase x i => some ⟨none, wordOf 6 0x04 (b5 x ++ i)⟩
  | .spawn r => some ⟨none, wordOf 6 0x05 (b5 r ++ 0#17)⟩
  | .yield => some ⟨none, wordOf 6 0x06 0⟩
  | .susp w => some ⟨none, wordOf 6 0x07 (b5 w ++ 0#17)⟩
  | .exit => some ⟨none, wordOf 6 0x08 0⟩
  | .jcbadd j a => some ⟨none, wordOf 6 0x09 (b5 j ++ b5 a ++ 0#12)⟩
  | .prio c => some ⟨none, wordOf 6 0x0A (0#20 ++ c)⟩
  | .trap c => some ⟨none, wordOf 6 0x0B (0#6 ++ c)⟩
  | .eret => some ⟨none, wordOf 6 0x0C 0⟩
  | .mfs d r => some ⟨none, wordOf 6 0x0D (b5 d ++ sysRegCode r ++ 0#11)⟩
  | .mts d r => some ⟨none, wordOf 6 0x0E (b5 d ++ sysRegCode r ++ 0#11)⟩
  | .cpost d h x i => some ⟨extBits 8 i, wordOf 6 0x0F (b5 d ++ b4 h ++ b5 x ++ lowBits 8 i)⟩
  | .cwait d t => some ⟨none, wordOf 6 0x10 (b5 d ++ b5 t ++ 0#12)⟩
  | .lninit x i => some ⟨none, wordOf 6 0x11 (b5 x ++ i)⟩
  | .lnext p d => some ⟨none, wordOf 6 0x12 (b4 p ++ b5 d ++ 0#13)⟩
  | .dgst x i => some ⟨none, wordOf 6 0x13 (b5 x ++ i)⟩
  | _ => none

end Sys2Proof
end

