-- ==== Sys2Proof/Config.lean ====
section
/-! DEFINITION. What one implementation fixes, and the free values: constants with no body, of
which nothing can be proved. -/

namespace Sys2Proof.Config

/-- The 2,420 signature bytes of an attestation report over a SHA3-256 digest (R267): the key is
not given, so the bytes are free (log 10, DESIGN CHOICE). -/
opaque signature : BitVec 256 → List Byte

/-- SHA3-256 of the service firmware image (R267): the image is not given (log 10, DESIGN CHOICE). -/
opaque firmwareHash : BitVec 256

/-- Part and serial number as the sideband carries them (R269): not given (log 10, DESIGN CHOICE). -/
opaque serialNumber : Nat

/-- The bundle after a delay bundle whose packet cannot be fetched (R249 computes it from words that
are not there; log 12, DESIGN CHOICE). -/
opaque unfetchedNext : Word → Word

/-- A count of 2^32 or more that a 32-bit field of a walker or cutter register should hold (R74, R75,
R197, R203 state none; log 16, DESIGN CHOICE). -/
opaque wideCount : Nat → BitVec 32

/-- The address of a barrier object in the wait object of a record: function, level and position (R35,
R232 give no address; log 18, DESIGN CHOICE). -/
opaque barrierObject : Nat → Nat → Nat → BitVec 56

/-- Where the record and the save area of a task lie that a launch installed and that suspends for the
first time: function and a number (R35, R55 give no place; log 19, DESIGN CHOICE). -/
opaque recordPlace : Nat → Nat → Word × Word

/-- The place that a task started by SPAWN takes where a rule asks for its logical index, which it does
not have (R36, R180, R381; log 20, DESIGN CHOICE). -/
opaque spawnedIndex : Nat → Nat

/-- The bundle that made the transfer of a delay bundle at which a task resumes, for MISALIGN_ENTRY's
EINFO: no record holds it (R243, R257; log 22, DESIGN CHOICE). -/
opaque lostSource : Word → Word

/-- SHA3-256 of the harvest map, from the disabled slices and the harvested routers (R267): the map's
encoding is not given (log 10, DESIGN CHOICE). -/
opaque harvestHash : List Nat → List Nat → BitVec 256

/-- VALUE of a journal entry of kind 3, by its sequence number (R263 names no value; log 24, DESIGN CHOICE). -/
opaque resetEntryValue : Nat → Word

/-- The output port of a router's detour table that replaces one which leads to a harvested neighbour, by
router, replaced port and destination router: the service firmware's choice (R226; log 27, DESIGN CHOICE). -/
opaque detourPort : Nat → Nat → Nat → Nat

/-- Whether a limiter withholds a cycle's issue from a block that it limits (R34 names no cycles; log 28, DESIGN CHOICE). -/
opaque withheld : Nat → Nat → Bool

/-- The latency, in cycles, of the remote operation of a number, where State.delays names none (R162, R183; log 6, DESIGN CHOICE). -/
opaque remoteDelay : Nat → Nat

/-- Whether a limiter at a block on its way, or the recovery that holds the spoon, puts an operation off by a cycle:
operation and cycle (R34 and R225 name no cycles; log 28, DESIGN CHOICE). -/
opaque putsOff : Nat → Nat → Bool

/-- Cycles, taken modulo 200, after which the spoon that no router holds passes a router, counted from a cycle (R223 gives
200 as the most; log 71, DESIGN CHOICE). -/
opaque spoonPasses : Nat → Nat → Nat

/-- Replies for which an endpoint has space (R221 gives no number; log 71, DESIGN CHOICE). -/
opaque replySpace : Nat

/-- The granule at which the service function's tables name the reserve of a die's reserving slice (R164, R266: the
address map of R163 has none; log 75, DESIGN CHOICE). -/
opaque reserveGranule : Nat → Nat

/-- Whether the verification of the firmware image succeeds at a package reset, by the number of the reset (R267:
image, key and rollback count are not given; log 75, DESIGN CHOICE). -/
opaque bootVerifies : Nat → Bool

/-- The frame that the service firmware takes for a page whose copy-on-write it resolves, where State.frames names
none: function and page address (R157; log 57, DESIGN CHOICE). -/
opaque cowFrame : Nat → Nat → Nat

/-- Whether a package number names a package that can be reached (R161, R209: the system's packages are outside the
model; log 101, DESIGN CHOICE). -/
opaque packageReachable : Nat → Bool

/-- Whether a remote endpoint refuses a gather or scatter element, by its place and cycle (R209; log 101, DESIGN
CHOICE). -/
opaque remoteRefuses : Nat → Nat → Bool

/-- The top table and the home table of the service function, which the trivet sets up (R266; log 75, DESIGN
CHOICE). -/
opaque serviceRoot : Word
opaque serviceHomes : Word

/-- Cycles that the checks of a launch take, by the cycle of its START (R54 gives none; log 6, DESIGN CHOICE). -/
opaque launchDelay : Nat → Nat

/-- Cycles that a start ticket takes down the spike, whose links keep their order (R237; log 6, DESIGN CHOICE). -/
opaque spikeDelay : Nat

/-- Cycles from a partition reset's requests to the end of its tasks, by the cycle in which it comes (R65, R268 give none;
log 114, DESIGN CHOICE). -/
opaque resetDelay : Nat → Nat

/-- Default of the blocked-output threshold BLKT at reset (R222). -/
def blktReset : BitVec 16 := 2048#16

end Sys2Proof.Config
end

