-- ==== Sys2Proof/Machine/State.lean ====
section
/-! DEFINITION. The state of the machine as plain data: a package, with the cores that are in use
listed by package core number (R19). INVENTORY.md lists every piece with its rule. -/

namespace Sys2Proof.Machine

/-- Reasons for which the machine stops. -/
inductive Fault where
  /-- A handle names a physical address that R163 gives to nothing: raised by an access through
  such a handle, which no launch can make. Safe: the hardware's behaviour is not stated. -/
  | unmappedPhysical (pa : Nat)
  deriving DecidableEq, Repr

/-- Reasons for which a step has no meaning. -/
inductive Refusal where
  /-- The instruction of this mnemonic has no meaning in the model: raised by exec's arm. Safe. -/
  | notModelled (mnemonic : String)
  deriving DecidableEq, Repr

/-- Trap causes (R243). -/
inductive Cause where
  | illSlot | illMod | illBundle | classOrder | dupWrite | misalignEntry | delayBranch | fetchFault
  | handleStale | leaseBreach | bufOwner | phaseOverlap | phaseEscape | scaleImbalance | symBreak
  | orbitRange | mtxNotOwned | atomicRoute | fibreMalformed | bkselRange | jcbLate | intDiv0
  | fpTrap | xferLate | swTrap
  deriving DecidableEq, Repr

/-- Sparse contents: addresses strictly rising, no entry equal to what an unlisted address reads
as, which is zero (log 2, DESIGN CHOICE). -/
abbrev Cells (w : Nat) := List (Nat × BitVec w)

/-- A fibre register (R74); its reserved bits are always zero. -/
structure Fibre where
  vbase : Word := 0
  cbase : Word := 0
  pos : Word := 0
  len : BitVec 32 := 0
  isOpen : Bool := false
  atEnd : Bool := false
  malformed : Bool := false
  trapping : Bool := false
  csr : Bool := false
  deriving DecidableEq, Repr

/-- A stream register (R74). -/
structure Stream where
  sbase : Word := 0
  spos : Word := 0
  slen : Word := 0
  chunk : BitVec 32 := 0
  isOpen : Bool := false
  atEnd : Bool := false
  deriving DecidableEq, Repr

/-- A cutter state register (R75). -/
structure Cutter where
  tdesc : Word := 0
  cur : Word := 0
  lo : Word := 0
  hi : Word := 0
  cnt : BitVec 32 := 0
  bud : BitVec 32 := 0
  elem : BitVec 32 := 0
  isOpen : Bool := false
  empty : Bool := false
  split : Bool := false
  eend : BitVec 32 := 0
  deriving DecidableEq, Repr

/-- The register files of a context (R70) and the system registers that it reads and writes
(R77). -/
structure Regs where
  s : Vector Word 32 := Vector.replicate 32 0
  p : Vector Bool 16 := Vector.replicate 16 false
  b : Vector Word 8 := Vector.replicate 8 0
  v : Vector Vec 32 := Vector.replicate 32 0
  m : Vector Word 8 := Vector.replicate 8 0
  t : Vector Tile 16 := Vector.replicate 16 0
  h : Vector Handle 16 := Vector.replicate 16 0
  o : Vector Block64 8 := Vector.replicate 8 0
  f : Vector Fibre 8 := Vector.replicate 8 {}
  q : Vector Stream 8 := Vector.replicate 8 {}
  k : Vector Cutter 4 := Vector.replicate 4 {}
  fpctl : BitVec 16 := 0
  fpflg : BitVec 7 := 0
  cls : BitVec 2 := 0
  safebnd : BitVec 32 := 0xFFFFFFFF#32
  tvec : Word := 0
  epc : Word := 0
  ecause : BitVec 8 := 0
  einfo : Word := 0
  edelay : Word := 0
  deriving DecidableEq, Repr

/-- A barrier object's name: the function whose launch made it, the level and the position of its
level instance (R14, R232). -/
structure BarKey where
  vf : Nat
  level : Nat
  pos : Nat
  deriving DecidableEq, Repr

/-- What a context waits for once its bundle has issued. -/
inductive Wait where
  /-- nothing -/
  | none
  /-- counter bounds (R174); suspend when the word had .s -/
  | counters (ld st cp tl : BitVec 5)
  /-- a read or reply that a retirement check needs (R245) -/
  | reply
  /-- the acceptance of an arrival by BAR (R233) -/
  | arrival (sc : Scope) (x s : Bool)
  /-- the flip of a barrier episode (R234) -/
  | flip (key : BarKey) (epoch : Nat)
  /-- a phase cycle, for XMIT and IMSEL (R230) -/
  | transfer (recv west : Bool) (r : XReg) (n : Nat)
  /-- a suspension, until the counters are zero (R41) -/
  | suspend (wobj : Word)
  /-- a wait object, in place, for a holder of the array or of an open phase (R416, R398) -/
  | inPlace (wobj : Word)
  /-- the end of the task: by EXIT, or by a trap whose cause byte is given (R370, R248) -/
  | exiting (cause : Option (BitVec 8))
  /-- forced pre-emption: outstanding loads are being written (R255) -/
  | saving
  deriving DecidableEq, Repr

/-- Why a bundle that has not executed waits, where an order among waiters is stated (R110,
R171). -/
inductive ParkWhy where
  | fullEmpty (store em : Bool) (core word : Nat)
  | mown
  | other
  deriving DecidableEq, Repr

structure Park where
  why : ParkWhy
  since : Nat
  deriving DecidableEq, Repr

/-- A FENCE, DRAIN or PUBLISH still in force (R188 to R191): the operations and BARA arrivals it waits for and the
kinds it holds back; sc holds back every bundle, drain every access; pub names PUBLISH's destination, and holds until
the host's acknowledgement (R401). -/
structure Fence where
  ops : List Nat
  succ : BitVec 8
  sc : Bool
  drain : Bool
  pub : Option (Fin 32)
  deriving DecidableEq, Repr

/-- An arrival by BARA that is neither counted nor refused (R233, R234): its number among the operations, its target
level, EINFO of a refusal. -/
structure Bara where
  id : Nat
  tgt : Nat
  info : Word
  deriving DecidableEq, Repr

/-- Loop state (R382 to R384): kind 0 none, 1 LOOP, 2 LPSTG. -/
structure LoopSt where
  kind : Nat := 0
  lstart : Word := 0
  lend : Word := 0
  lrem : Word := 0
  ltrip : Word := 0
  lns : Nat := 0
  deriving DecidableEq, Repr

/-- An open sequencer nest (R381): the declaration as read, its offset, and the descriptor of its
output register as it stood. -/
structure SeqSt where
  blk : Nat
  pos : Nat
  fin : Nat
  decl : Block64
  odesc : Block64
  deriving DecidableEq, Repr

/-- A control transfer whose delay bundle comes next (R249, R359). -/
structure Delay where
  target : Word
  taken : Bool
  src : Word
  deriving DecidableEq, Repr

/-- A window of the accumulator store with what passes in it (R111, R117). -/
structure Window where
  row0 : Nat
  col0 : Nat
  rows : Nat
  cols : Nat
  padM : Option Nat
  padN : Option Nat
  deriving DecidableEq, Repr

/-- A pending group of the array (R112): its operands, from which every cell's sum is formed. -/
structure Group where
  id : Nat
  /-- none in flight; once ready, the FPCTL under which its own MBEAT.a folds it (R112, R386) -/
  ready : Option (BitVec 16)
  a : Tile
  b : BitVec 8192
  af : MFmt
  bf : MFmt
  mx : Bool
  rowScale : BitVec 1024
  colScale : BitVec 512
  daz : Bool
  /-- K lanes below this count are passed (R117) -/
  lanes : Nat
  /-- K position counter at the beat, and the K padding extent -/
  kpos : Nat
  padK : Option Nat
  /-- the multiplicity source of MCFG.orb.mul: kind is ASYM, axes, extent (R150) -/
  mul : Option (Bool × Nat × Nat)
  /-- MBEAT.a: the window into which the group folds at ready -/
  auto : Option Window
  deriving DecidableEq, Repr

/-- A fold that is not yet visible (R113): what its cells held before, its flags, and the trap enables under which it
has rounded. -/
structure FoldRec where
  id : Nat
  vis : Nat
  old : List (Nat × BitVec 32)
  flags : BitVec 7
  ten : BitVec 7
  deriving DecidableEq, Repr

/-- Frozen events of the shadow result buffer (R252, R253): offsets from t0. -/
structure Shadow where
  t0 : Nat
  events : List (Nat × Instr)
  deriving DecidableEq, Repr

/-- The matrix array (R109 to R118). -/
structure Arr where
  owner : Option (Fin 4) := none
  af : MFmt := .bf16
  bf : MFmt := .bf16
  acc : AFmt := .f32
  mx : Bool := false
  sat : Bool := false
  oa : Option Block64 := none
  ob : Option Block64 := none
  oc : Option Block64 := none
  mul : Bool := false
  latches : Tile := 0
  pending : List Group := []
  winRow : Nat := 0
  winCol : Nat := 0
  rows : Nat := 128
  cols : Nat := 64
  lanes : Nat := 32
  padM : Option Nat := none
  padN : Option Nat := none
  padK : Option Nat := none
  kpos : Nat := 0
  rowScale : BitVec 1024 := BitVec.ofNat 1024 (127 * ((2 ^ 1024 - 1) / 255))
  colScale : BitVec 512 := BitVec.ofNat 512 (127 * ((2 ^ 512 - 1) / 255))
  /-- the scale queue, oldest first: a reserved place holds none (R118, R411) -/
  queue : List (Nat × Option (BitVec 1536)) := []
  /-- the first cycle in which the next beat, push, shift or pop can issue (R115) -/
  free : Nat := 0
  folds : List FoldRec := []
  /-- MDRAINs not yet retired: the tile that each writes, and the trap enables of its issue -/
  drains : List (Fin 16 × BitVec 7) := []
  /-- the first cycle in which a MOWN acquires the array, after a release (R393) -/
  opens : Nat := 0
  shadow : Option Shadow := none
  deriving DecidableEq, Repr

/-- What a bundle that turns out not to have executed has to find again (R245, R256): the number of its first
operation, its issue cycle, and what its words change besides registers; the array and its events as they stood. -/
structure Undo where
  first : Nat
  cycle : Nat
  sb : List (RegName × Option Nat)
  phase : Option (List Word)
  dgst : Option (List Word)
  seq : Option SeqSt
  loop : LoopSt
  acc : Cells 32
  arr : Arr
  events : List (Nat × Instr)
  /-- FPFLG and the tiles that outstanding MDRAINs write, before the array's events of the issue cycle -/
  fpflg : BitVec 7
  tiles : List (Fin 16 × Tile)
  /-- flags of an FP_TRAP that had landed from the array -/
  landFp : Option (BitVec 7)
  deriving DecidableEq, Repr

/-- A retirement check of the running bundle that has failed: the class of its word, the trap. -/
structure Failed where
  cls : Nat
  cause : Cause
  info : Word
  deriving DecidableEq, Repr

/-- A word of a bundle as decoded: its index in the bundle, the word itself, its instruction. -/
structure Slot where
  ix : Nat
  code : Code
  instr : Instr
  deriving DecidableEq, Repr

/-- A valid leaf entry (R160), with the package that its HOME names (R161); slot is where the entry, or the first of
sixteen, stands in its table, and fppn its frame's number in pages of 4 KiB. -/
structure Leaf where
  slot : Nat
  fppn : BitVec 40
  psz : BitVec 2
  w : Bool
  x : Bool
  cow : Bool
  lcv : BitVec 2
  acl : BitVec 4
  home : BitVec 17
  deriving DecidableEq, Repr

/-- A context (R35). -/
structure Ctx where
  /-- the context holds a task -/
  task : Bool := false
  vf : Nat := 0
  regs : Regs := {}
  /-- the registers as they stood before the running bundle (R10); none between bundles -/
  snap : Option Regs := none
  launchp : Word := 0
  jcbp : Word := 0
  level : Nat := 0
  logical : Nat := 0
  strict : Bool := false
  spwn : Bool := false
  pin : Bool := false
  pincore : Nat := 0
  /-- the record from which the task was last taken, 0 if none (R408) -/
  recp : Word := 0
  savep : Word := 0
  parent : Word := 0
  pc : Word := 0
  /-- the bundle whose transfer led to pc; none in sequence (R251, R332) -/
  via : Option Word := none
  /-- pc names a delay bundle, whose transfer this is -/
  delay : Option Delay := none
  /-- the transfer that the running bundle has made: target, and whether taken -/
  xfer : Option (Word × Bool) := none
  /-- a LOOP or LPSTG that skips its body goes on here, in sequence (R382) -/
  skip : Option Word := none
  /-- ERET has returned in the running bundle: address, and a pending delay target -/
  back : Option (Word × Option Word) := none
  loop : LoopSt := {}
  seq : Option SeqSt := none
  /-- entries of the open phase (R177) -/
  phase : Option (List Word) := none
  /-- entries of the DGST list in force (R180) -/
  dgst : Option (List Word) := none
  ld : Nat := 0
  st : Nat := 0
  cp : Nat := 0
  tl : Nat := 0
  wait : Wait := .none
  /-- no bundle issues before this cycle: NOP (R395) -/
  holdTil : Nat := 0
  /-- nothing issues before this cycle: FESET (R172) -/
  fesetTil : Nat := 0
  park : Option Park := none
  /-- registers awaiting a write: the cycle from which they are ready, none until an event -/
  sb : List (RegName × Option Nat) := []
  fences : List Fence := []
  /-- arrivals by BARA not yet accepted, oldest first -/
  bara : List Bara := []
  /-- a pre-emption request is pending (R65) -/
  preq : Bool := false
  /-- cycle of the last honoured safe point (R66) -/
  safeAt : Nat := 0
  /-- a safe point was honoured and its delay bundle is still to come (R65) -/
  safeDue : Bool := false
  /-- cycle of a marked bundle with a transfer, whose delay bundle decides whether it is honoured (R65, R66) -/
  safeTry : Option Nat := none
  /-- cycle of the last issue, from which aging counts (R61) -/
  lastIssue : Nat := 0
  /-- the context has become ready for its next issue at class 3 by aging (R61) -/
  aged : Bool := false
  /-- flags of an FP_TRAP that landed from the array (R95) -/
  landFp : Option (BitVec 7) := none
  /-- EINFOs of refused BARA arrivals that landed, oldest first (R233) -/
  landBar : List Word := []
  /-- BKSEL's operands while its table is read: destination, dimension, table, bundle address -/
  bksel : Option (Fin 32 × Word × Word × Word) := none
  /-- a pending JCBADD or SPAWN: JCB, amount, and the record to place -/
  raise : Option (Word × Word × Option Word) := none
  /-- the aligned packet last fetched (R251): its address and its sixteen words -/
  packet : Option (Word × List Code) := none
  /-- the fetch of pc's packet has failed, with this REASON (R251) -/
  badFetch : Option (BitVec 2) := none
  /-- words of the running bundle still to execute while a check is pending (R245) -/
  deferred : Option (List Slot) := none
  /-- words of the running bundle whose retirement check is outstanding, with their index (R245) -/
  checks : List (Nat × Code) := []
  /-- the failed check of the lowest class among those that have returned (R246) -/
  failed : Option Failed := none
  /-- what a trap of a pending check restores (R245) -/
  undo : Option Undo := none
  /-- what the running bundle found at its issue: its first operation, and what it puts back where it counts as not
  executed (R10, R256) -/
  entry : Option Undo := none
  /-- the array as the holder's last bundle that has issued left it, from which forced pre-emption counts (R253) -/
  last : Option Undo := none
  /-- the same of the bundle before the running one -/
  prior : Option Undo := none
  /-- a check that comes with its effect has passed: the running bundle has executed, and traps no more (R245) -/
  sure : Bool := false
  /-- flags that the array has retired in the issue cycle of the running bundle (R80, R390) -/
  landed : BitVec 7 := 0
  /-- translations of pages that a shootdown has changed since the context issued a request to a pantry or its EXIT
  (R159) -/
  old : List (Nat × Leaf) := []
  /-- handles written by TRANS since the running bundle issued whose pages a shootdown has changed: page and length
  (R159) -/
  shot : List (Nat × Nat) := []
  /-- a suspension asked for by the running bundle, taken after its delay bundle (R43): the wait
  object -/
  suspending : Option Word := none
  /-- the barrier and episode of a suspension asked for by BAR.s or BARW.s (R234) -/
  suspendBar : Option (BarKey × Nat) := none
  /-- the bundle whose live-mask entry a suspension uses (R41, R42) -/
  suspendAt : Word := 0
  /-- parked in place under forced pre-emption, whatever else it waits for (R255, R398) -/
  frozen : Bool := false
  /-- ERET or the end of a forced pre-emption: the next bundle's issue replays the shadow buffer
  (R254, R255) -/
  replay : Bool := false
  /-- the model's: the word being judged, with its index in the bundle, for EINFO (R243) -/
  word : Nat × Code := (0, 0)
  /-- a padding extent that BKSEL sets when its bundle ends: axis and extent (R69, R245) -/
  pad : Option (Nat × Nat) := none
  deriving DecidableEq, Repr

/-- A place that holds a byte: package memory and the remote window by global address, a core's
scratchpad, a core's lid. -/
inductive Loc where
  | mem (a : Nat)
  | scr (core off : Nat)
  | lid (core a : Nat)
  deriving DecidableEq, Repr

/-- A byte an operation will deliver: known at issue, or read at its place when it performs. -/
inductive Src where
  | known (b : Byte)
  | place (l : Loc)
  deriving DecidableEq, Repr

/-- Where a load's bytes go (R375, R378, R411). -/
inductive LoadTo where
  | s (d : Fin 32) (ty : STy)
  | v (d : Fin 32)
  | t (d : Fin 16)
  | tx (d : Fin 16) (sz : Fin 4)
  | scale (slot : Nat)
  deriving DecidableEq, Repr

/-- A counter of R76. -/
inductive Ctr where
  | ld | st | cp | tl
  deriving DecidableEq, Repr

/-- A range-scoreboard entry (R173): scratchpad bytes lo up to, not including, hi. -/
structure Rng where
  lo : Nat
  hi : Nat
  wr : Bool
  deriving DecidableEq, Repr

/-- How far a remote LDE or STE has come (R377): on its way, waiting at its controller since a cycle, or served,
with what it read. -/
inductive FeStage where
  | sent
  | waits (since : Nat)
  | served (v : Word)
  deriving DecidableEq, Repr

/-- What an operation in flight does when it performs. -/
inductive OpWhat where
  /-- a load whose register is already written (local); only its retirement is due -/
  | settled
  | load (dst : LoadTo) (src : List Src)
  /-- a store in the store queue (R186) -/
  | store (ga : Nat) (bytes : List Byte)
  /-- a store to another core's buffer (R185) -/
  | bufStore (core off : Nat) (bytes : List Byte)
  | amo (op : AmoOp) (ty : AmoTy) (d : Fin 32) (ga : Nat) (v : Word)
  | cas (sz : CasSz) (d : Fin 32) (ga : Nat) (c v : BitVec 128)
  /-- LDE or STE at another core's controller (R377) -/
  | fullEmpty (store em : Bool) (core off : Nat) (d : Fin 32) (v : Word) (stage : FeStage)
  | copy (moves : List (Src × Loc))
  | cellsIn (cells : List (Nat × BitVec 32))
  /-- a gather or scatter, served by the die's fabric interface under its tag -/
  | elements (tag : Nat)
  | fopen (t : Bool) (sz : Fin 4) (f : Fin 8) (vbase cbase aux : Word) (csr : Bool)
  | fadv (sz : Fin 4) (f : Fin 8) (c v : Fin 32)
  | snext (d : Fin 32) (q : Fin 8)
  | cut (opn : Bool) (d : Fin 16) (k : Fin 4) (a : Word)
  | cutp (opn : Bool) (d : Fin 16) (p k : Fin 4) (a : Word)
  /-- the descriptor that CPOST reads in strict mode, checked when it is there (R240, R245): destination, bytes, place -/
  | post (d : Fin 32) (src : List Src) (at_ : Nat)
  /-- ORBLD.d's descriptor, checked when it retires (R140) -/
  | descr (o : Fin 8) (d : Block64)
  deriving DecidableEq, Repr

/-- An operation in flight. -/
structure Op where
  id : Nat
  ctx : Fin 4
  /-- fence kinds (R188) -/
  kinds : BitVec 8
  ctr : Option Ctr
  /-- range-scoreboard entries, held to retirement (R173) -/
  ranges : List Rng
  /-- destinations, scoreboarded until it retires (R10) -/
  lock : List RegName
  what : OpWhat
  /-- translations of pages that a shootdown has changed since it issued: the operation performs against these
  (R159) -/
  old : List (Nat × Leaf) := []
  deriving DecidableEq, Repr

/-- A write to the own scratchpad that is held: behind an asynchronous operation of its bundle whose
destination (ops, until each retires) or source (till, a cycle) it meets (R182), or while a check of its bundle is
pending (R245). mark sets or clears full/empty bits with it: the first word, their number, and whether to full. -/
structure Held where
  ops : List Nat
  /-- the store's own number -/
  store : Nat
  ctx : Fin 4
  bytes : List (Nat × Byte)
  mark : Option (Nat × Nat × Bool)
  till : Nat
  check : Bool
  deriving DecidableEq, Repr

/-- An entry of a pass (R44, R45). -/
structure PassEnt where
  recp : Word
  vf : Nat
  /-- the place of the task in its launch (R51) -/
  logical : Nat
  spwn : Bool
  cls : Nat
  pin : Option Nat
  since : Nat
  deriving DecidableEq, Repr

/-- A forced pre-emption's record that waits for operations to retire (R255), and the object that it
waits for after that. -/
structure Released where
  ent : PassEnt
  wobj : Word
  bar : Option (BarKey × Nat)
  ops : List Nat
  deriving DecidableEq, Repr

/-- A core (R29). -/
structure Core where
  ctxs : Vector Ctx 4 := Vector.replicate 4 {}
  vf : Option Nat := none
  scr : Cells 8 := []
  /-- full/empty bits by word number: 1 is full (R170) -/
  fe : Cells 1 := []
  /-- the lid by column · 2^18 + slice offset (R107) -/
  lid : Cells 8 := []
  /-- the accumulator store by row · 512 + column (R111) -/
  acc : Cells 32 := []
  arr : Arr := {}
  ops : List Op := []
  held : List Held := []
  released : List Released := []
  /-- the instruction cache: function, packet address and words of the packets last fetched, newest first, at most
  2,048 of 64 bytes (R29) -/
  icache : List (Nat × Word × List Code) := []
  /-- the orbit address unit is busy up to this cycle (R396) -/
  orbFree : Nat := 0
  /-- a tile ORBST holds the scratchpad port up to this cycle (R145) -/
  portFree : Nat := 0
  /-- the round-robin pointers rr[0..3] (R62) -/
  rr : Vector (Fin 4) 4 := Vector.replicate 4 3
  deriving DecidableEq, Repr

/-- Who has a buffer (R166): a core strip holds it, or it is in transit to one. -/
inductive Hold where
  | held (strip : Nat)
  | transit (strip : Nat)
  deriving DecidableEq, Repr

/-- A suspended task whose record waits for its object (R41, R44): the core on which it last ran, the
wait object, and for a barrier its key and episode. -/
structure Sleeper where
  core : Nat
  ent : PassEnt
  wobj : Word
  bar : Option (BarKey × Nat)
  deriving DecidableEq, Repr

/-- A transfer phase of a row (R228): its cycle 0, its launch and the tasks that arrived, by logical index, whose
contexts are its phase contexts (R229). -/
structure TransferPhase where
  start : Nat
  vf : Nat
  members : List Nat
  deriving DecidableEq, Repr

/-- An operand that XMIT put on a skewer: the stage and cycle of its start (R230). -/
structure Shot where
  west : Bool
  pos : Nat
  cycle : Nat
  data : Tile
  deriving DecidableEq, Repr

/-- A row of a die, with its skewers, its pass and its buffers' holders. -/
structure Row where
  holds : List (Nat × Hold) := []
  pass : List PassEnt := []
  phase : Option TransferPhase := none
  shots : List Shot := []
  deriving DecidableEq, Repr

/-- A colander entry (R210) with its marks: popped, and a replay that waits (drop or not). -/
structure ColEnt where
  seq : BitVec 32
  va : Word
  pos : Nat
  tag : BitVec 32
  vf : Nat
  core : Nat
  ctx : Fin 4
  scat : Bool
  sz : Fin 4
  code : Nat
  popped : Bool
  /-- a replay that CQRPL has asked for: its number, and whether the element is dropped -/
  replay : Option (Nat × Bool)
  deriving DecidableEq, Repr

/-- A gather or scatter in a die's fabric interface (R206, R305). -/
structure GatherOp where
  tag : BitVec 32
  core : Nat
  ctx : Fin 4
  op : Nat
  vf : Nat
  scat : Bool
  sz : Fin 4
  base : Word
  idx : List Word
  data : List Byte
  dst : Nat
  next : Nat
  parked : Nat
  /-- elements that have performed, with the places that they wrote (R207) -/
  wrote : List (Nat × Nat)
  /-- elements that wait for a place in the colander, with their codes, oldest first (R213) -/
  stalled : List (Nat × Nat)
  deriving DecidableEq, Repr

/-- A die's shared blocks (R30). -/
structure Die where
  colander : List ColEnt := []
  tagCount : BitVec 32 := 0
  seqCount : BitVec 32 := 0
  gathers : List GatherOp := []
  /-- the first cycle in which the fabric interface can serve its next element (R305) -/
  serveFree : Nat := 0
  spilled : List (Nat × PassEnt) := []
  deriving DecidableEq, Repr

/-- A barrier object (R232); arrivals name the members that arrived in this episode. -/
structure Barrier where
  key : BarKey
  count : Nat
  who : List Nat := []
  tgt : Nat := 0
  xf : Bool := false
  epoch : Nat := 0
  deriving DecidableEq, Repr

/-- A level of a launch (R48). -/
structure Level where
  count : Nat
  scope : Nat
  domain : Nat
  deriving DecidableEq, Repr

/-- A lease entry (R157). -/
structure Lease where
  start : Nat
  len : Nat
  w : Bool
  x : Bool
  deriving DecidableEq, Repr

/-- The running job of a function, as its launch record and start vector gave it (R47, R53). -/
structure Job where
  lrec : Word
  jcb : Word
  levels : List Level
  leases : List Lease
  /-- the lease translation store: the page at each address, from launch to completion (R155, R157) -/
  lts : List (Nat × Leaf)
  livep : Word
  liven : Nat
  imgbase : Word
  strict : Bool
  /-- package core numbers of the cores used, in order of logical index -/
  place : List Nat
  /-- tasks started by SPAWN so far -/
  spawned : Nat
  /-- members ended, by level and position of their level instance (R52) -/
  ended : List ((Nat × Nat) × Nat)
  /-- task hashes by logical index (R180) -/
  hashes : List (Nat × BitVec 256)
  /-- some task ended by an unrecoverable trap -/
  broken : Bool
  /-- DONE has become equal to EXPECT: the pantry completes the job (R58) -/
  finishing : Bool
  deriving DecidableEq, Repr

/-- A virtual function (R50, R260): its command window (R261), version counter, journal and job. -/
structure Vf where
  part : Nat := 0
  /-- the packages of its partition, ascending, and its cores in this package -/
  pkgs : List Nat := []
  cores : List Nat := []
  allot : List (Nat × Nat) := []
  start : Word := 0
  lstat : BitVec 8 := 0
  jdone : Word := 0
  veraddr : Word := 0
  ptroot : Word := 0
  homet : Word := 0
  preempt : Bool := false
  rstcnt : BitVec 32 := 0
  jseq : Word := 0
  /-- accepted writes of the window that wait behind a START whose checks run, oldest first (R263) -/
  waiting : List (Nat × List Word) := []
  attaddr : Word := 0
  attnonce : BitVec 256 := 0
  /-- the version counter's value (R401) -/
  version : Word := 0
  /-- the journal ring, newest first, at most 4,096 entries (R263) -/
  journal : List Block64 := []
  job : Option Job := none
  deriving DecidableEq, Repr

/-- How far a posted collective has come (R237); ticketed is one that waits for its start. -/
inductive CStage where
  | posted | ticketed | started | done
  deriving DecidableEq, Repr

/-- An entry of the posted-collective table (R238). -/
structure CSlot where
  serial : BitVec 32
  vf : Nat
  desc : Block64
  descAt : Nat
  members : List Nat
  stage : CStage
  rank : Option Nat
  err : Nat
  /-- no task of its job will wait on it: freed at completion (R370) -/
  orphan : Bool
  deriving DecidableEq, Repr

/-- What a coordinator holds of one collective (R237). -/
structure Coord where
  group : BitVec 32
  gseq : BitVec 32
  posts : List Post
  grants : List Nat
  deriving DecidableEq, Repr

/-- An endpoint of the packet fabric (R218, R226): a core, a package slice, a die's pantry, fabric interface or
colander, which attach to every working row-7 slice-strip router, and what lies behind the hub: the cellar's controllers
and the ports (R23, R27). -/
inductive Endpoint where
  | core (n : Nat)
  | slice (n : Nat)
  | pantry (die : Nat)
  | fabricIf (die : Nat)
  | colander (die : Nat)
  | cellar
  | hub
  deriving DecidableEq, Repr

/-- A packet (R218): a header flit and 0 to 4 data flits, its source and its destination; a request, with the data flits
of its reply, or a reply (R221). -/
structure Packet where
  id : Nat
  src : Endpoint
  dst : Endpoint
  data : Fin 5
  reply : Option (Fin 5)
  suspect : Bool
  deriving DecidableEq, Repr

/-- Router states of R224. -/
inductive RState where
  | normal | armed | draining
  deriving DecidableEq, Repr

/-- A router: die · 128 + row · 16 + position, or 512 for the hub switch (R218 to R224). Input
buffers are listed as port, buffer and packet; the sink lane as output port and packet. -/
structure Router where
  st : RState := .normal
  timer : Nat := 0
  inbufs : List ((Nat × Nat) × Packet) := []
  /-- outputs on which a packet's flits are crossing, one a cycle, each with the cycle in which it is free again (R23) -/
  busy : List (Nat × Nat) := []
  sink : List (Nat × Packet) := []
  /-- packets that it has moved into the sink lane since it took the spoon, and the cycle of the last move -/
  moved : List Nat := []
  sunk : Option Nat := none
  deriving DecidableEq, Repr

/-- A die-to-die link, die · 4 + strip (R219): retries in a row of the flit that crosses it now, to the hub and
from it, and the cycles of the last of them. -/
structure Link where
  working : Bool := true
  up : Nat := 0
  down : Nat := 0
  upAt : Option Nat := none
  downAt : Option Nat := none
  deriving DecidableEq, Repr

/-- The sideband record (R269). -/
structure Sideband where
  part : String := ""
  serial : Nat := 0
  draws : List Nat := []
  temps : List Nat := []
  booted : Bool := true
  deriving DecidableEq, Repr

/-- An answer to a host access (R260, R261): refused, or the bytes read. -/
inductive HostReply where
  | refused
  | done
  | bytes (b : List Byte)
  deriving DecidableEq, Repr

/-- What the trivet has loaded when it starts a die's service firmware: the core, where its strand begins, the bytes that
stand in memory, and the service function's top table and home table (R266). -/
structure Firmware where
  core : Nat
  pc : Word
  bytes : List (Nat × List Byte)
  root : Word
  homes : Word
  deriving DecidableEq, Repr

/-- The machine. -/
structure State where
  /-- CYCLE: cycles since package reset (R77) -/
  cycle : Nat := 0
  /-- package number within the system (R79) -/
  pkg : BitVec 17 := 0
  /-- the model's: the core and context whose word is being executed (log 4, DESIGN CHOICE) -/
  cur : Nat := 0
  cix : Fin 4 := 0
  /-- the model's: cores yet to issue in this cycle (log 4, DESIGN CHOICE) -/
  todo : List Nat := []
  /-- the model's: events with the cycle in which each is due, in order (log 5, DESIGN CHOICE) -/
  agenda : List (Nat × Instr) := []
  /-- the model's: latencies of the next remote operations, free values (log 6, DESIGN CHOICE) -/
  delays : List Nat := []
  /-- the model's: placements that the service firmware will choose, free values (R51, log 11, DESIGN CHOICE) -/
  places : List (List Nat) := []
  /-- the model's: the `.data scr` bytes of the images that the loader has for a function's next launches, in order, free
  values (R12, log 81, DESIGN CHOICE) -/
  images : List (Nat × List Byte) := []
  /-- the model's: frames that the service firmware will choose when it resolves copy-on-write, free values (R157,
  log 57, DESIGN CHOICE) -/
  frames : List Nat := []
  /-- the model's: number of the next operation in flight (log 5, DESIGN CHOICE) -/
  nextOp : Nat := 0
  cores : List (Nat × Core) := []
  rows : List (Nat × Row) := []
  dies : List (Nat × Die) := []
  bars : List Barrier := []
  sleepers : List Sleeper := []
  vfs : List (Nat × Vf) := []
  /-- HBM and cellar by physical address, the remote window by 2^52·(package + 1) + address -/
  mem : Cells 8 := []
  /-- host memory by host address (R191, R267) -/
  hostMem : Cells 8 := []
  /-- disabled slices and harvested routers (R21, R226) -/
  disabled : List Nat := []
  harvested : List Nat := []
  routers : List (Nat × Router) := []
  links : List (Nat × Link) := []
  /-- the model's: strands of the service firmware that begin, free values (R266, R307; log 75, DESIGN CHOICE) -/
  strands : List Firmware := []
  /-- the model's: packets that endpoints offer to their routers, in order (R221; log 71, DESIGN CHOICE) -/
  offers : List (Nat × Packet) := []
  /-- requests that have been sent and whose replies have not come, for which their sources keep space (R221) -/
  awaited : List Packet := []
  /-- the model's: operations below this number have offered their requests, and the number of the next packet (log 71,
  DESIGN CHOICE) -/
  offered : Nat := 0
  nextPacket : Nat := 0
  /-- the router that holds the recovery token (R223) -/
  spoon : Option Nat := none
  /-- the blocked-output threshold (R222) -/
  blkt : BitVec 16 := Config.blktReset
  /-- the model's: settings of BLKT that the service firmware will make, with their cycles, in order, free values (R222;
  log 108, DESIGN CHOICE) -/
  blkts : List (Nat × BitVec 16) := []
  /-- partition resets under way: the cycle by which each ends the tasks of its functions, and those (R65, R268) -/
  resets : List (Nat × List Nat) := []
  /-- the posted-collective table and its serial count (R238) -/
  colTab : List (Nat × CSlot) := []
  colSerial : BitVec 32 := 0
  coords : List Coord := []
  /-- the head coordinator's count of ranks (R237) -/
  headRank : Nat := 0
  /-- blocks that a power limiter holds back, and blocks past their junction limit (R33, R34) -/
  limited : List Nat := []
  hot : List Nat := []
  sideband : Sideband := {}
  /-- the ports are up and the command windows open; not so after a failed boot (R267) -/
  up : Bool := true
  /-- the model's: package resets so far, by which a boot's verification is a free value (log 75, DESIGN CHOICE) -/
  boots : Nat := 0
  /-- the model's: answers to the host, oldest first (log 8, DESIGN CHOICE) -/
  hostReplies : List HostReply := []
  deriving DecidableEq, Repr

/-- The service function, which has neither window nor endpoint, as the trivet sets it up (R266; log 75, DESIGN
CHOICE). -/
def Vf.service : Vf := { ptroot := Config.serviceRoot, homet := Config.serviceHomes }

/-- A core in whose context 3 the service firmware runs. The model gives its image no steps: the events of what it does
stand for it (R266; log 75, DESIGN CHOICE). -/
def Core.service : Core :=
  { ctxs := (Vector.replicate 4 {}).set 3 { task := true, vf := 64, frozen := true } }

/-- The machine right after package reset and boot (R266, R267, R77): the service firmware runs on each die; no other
function, no other task, every register and count at its reset value; values the manual gives none for are those of
log 2 and log 3, DESIGN CHOICE. -/
def State.reset : State :=
  { cores := [84, 180, 276, 372].map fun n => (n, Core.service)
    vfs := [(64, Vf.service)] }

end Sys2Proof.Machine
end

