-- ==== Sys2Proof/Machine/Ops.lean ====
section
/-! DEFINITION. The named operations over state: sparse maps and memory, register access,
counters, the scoreboard, the agenda of events, operations in flight, taking a trap and returning
from one. -/

namespace Sys2Proof.Machine

/-! ### Sparse maps -/

/-- The entry of a key. -/
def aget {α : Type} : List (Nat × α) → Nat → Option α
  | [], _ => none
  | (k, v) :: t, a => if k = a then some v else aget t a

/-- The map with the entry of a key replaced or added, keys rising. -/
def aset {α : Type} : List (Nat × α) → Nat → α → List (Nat × α)
  | [], a, v => [(a, v)]
  | (k, w) :: t, a, v =>
      if k = a then (a, v) :: t else if a < k then (a, v) :: (k, w) :: t else (k, w) :: aset t a v

/-- The map without a key. -/
def adel {α : Type} (l : List (Nat × α)) (a : Nat) : List (Nat × α) := l.filter (·.1 != a)

/-! ### Memory -/

/-- What a cell holds; an unlisted address reads zero (log 2, DESIGN CHOICE). -/
def cget {w : Nat} : Cells w → Nat → BitVec w
  | [], _ => 0#w
  | (k, v) :: t, a => if k = a then v else if a < k then 0#w else cget t a

/-- A cell written, in canonical form. -/
def cset {w : Nat} : Cells w → Nat → BitVec w → Cells w
  | [], a, v => if v = 0#w then [] else [(a, v)]
  | (k, u) :: t, a, v =>
      if k = a then (if v = 0#w then t else (a, v) :: t)
      else if a < k then (if v = 0#w then (k, u) :: t else (a, v) :: (k, u) :: t)
      else (k, u) :: cset t a v

/-- The canonical form above a bound: addresses strictly rising, no entry zero. -/
def cellsFrom {w : Nat} : Nat → Cells w → Bool
  | _, [] => true
  | n, (k, v) :: t => decide (n ≤ k) && v != 0#w && cellsFrom (k + 1) t

/-- The canonical form of a memory. -/
def Memory.wf {w : Nat} (c : Cells w) : Bool := cellsFrom 0 c

/-- n cells from an address. -/
def cgetN {w : Nat} (c : Cells w) (a : Nat) : Nat → List (BitVec w)
  | 0 => []
  | n + 1 => cget c a :: cgetN c (a + 1) n

/-- Cells written one after another from an address. -/
def csetN {w : Nat} (c : Cells w) (a : Nat) : List (BitVec w) → Cells w
  | [] => c
  | v :: t => csetN (cset c a v) (a + 1) t

/-- The value of little-endian bytes (R5). -/
def leVal : List Byte → Nat
  | [] => 0
  | b :: t => b.toNat + 256 * leVal t

/-- The n low bytes of a value, little-endian (R5). -/
def leBytes (n v : Nat) : List Byte :=
  match n with
  | 0 => []
  | n + 1 => BitVec.ofNat 8 v :: leBytes n (v / 256)

/-! ### Parts of the package -/

/-- The die of a core (R19). -/
def dieOf (core : Nat) : Nat := core / 96

/-- The row of a core within the package: 8·die + row (R19). -/
def rowOf (core : Nat) : Nat := core / 12

/-- The core strip of a core (R19). -/
def stripOf (core : Nat) : Nat := core % 12

/-- The strip position of a core strip (R18). -/
def posOf : Nat → Nat
  | 0 => 0 | 1 => 1 | 2 => 3 | 3 => 4 | 4 => 5 | 5 => 7 | 6 => 8 | 7 => 10 | 8 => 11 | 9 => 12
  | 10 => 14 | _ => 15

def State.core (s : State) (n : Nat) : Core := (aget s.cores n).getD {}

def State.setCore (s : State) (n : Nat) (c : Core) : State :=
  { s with cores := aset s.cores n c }

def State.modCore (s : State) (n : Nat) (f : Core → Core) : State := s.setCore n (f (s.core n))

def State.ctx (s : State) (n : Nat) (i : Fin 4) : Ctx := (s.core n).ctxs[i]

def Core.setCtx (c : Core) (i : Fin 4) (x : Ctx) : Core := { c with ctxs := c.ctxs.set i x }

def State.modCtx (s : State) (n : Nat) (i : Fin 4) (f : Ctx → Ctx) : State :=
  s.modCore n fun c => c.setCtx i (f c.ctxs[i])

def State.row (s : State) (r : Nat) : Row := (aget s.rows r).getD {}

def State.modRow (s : State) (r : Nat) (f : Row → Row) : State :=
  { s with rows := aset s.rows r (f (s.row r)) }

def State.die (s : State) (d : Nat) : Die := (aget s.dies d).getD {}

def State.modDie (s : State) (d : Nat) (f : Die → Die) : State :=
  { s with dies := aset s.dies d (f (s.die d)) }

def State.vf (s : State) (v : Nat) : Option Vf := aget s.vfs v

def State.modVf (s : State) (v : Nat) (f : Vf → Vf) : State :=
  match aget s.vfs v with
  | none => s
  | some x => { s with vfs := aset s.vfs v (f x) }

/-- The executing core. -/
def State.myCore (s : State) : Core := s.core s.cur

def State.modMyCore (s : State) (f : Core → Core) : State := s.modCore s.cur f

/-- The executing context. -/
def State.me (s : State) : Ctx := s.ctx s.cur s.cix

def State.modMe (s : State) (f : Ctx → Ctx) : State := s.modCtx s.cur s.cix f

/-- The contexts of a core. -/
def allCtx : List (Fin 4) := [0, 1, 2, 3]

/-! ### Registers -/

/-- The registers that a word reads: as they stood before its bundle (R10, R80). -/
def Ctx.src (c : Ctx) : Regs := c.snap.getD c.regs

/-- s0 reads 0 (R70). -/
def Regs.rs (r : Regs) (a : Fin 32) : Word := if a = 0 then 0 else r.s[a]

/-- p0 reads true (R70). -/
def Regs.rp (r : Regs) (a : Fin 16) : Bool := a == 0 || r.p[a]

/-- Writes to s0 are discarded (R70). -/
def Regs.ws (r : Regs) (d : Fin 32) (v : Word) : Regs :=
  if d = 0 then r else { r with s := r.s.set d v }

/-- Writes to p0 are discarded (R70). -/
def Regs.wp (r : Regs) (d : Fin 16) (v : Bool) : Regs :=
  if d = 0 then r else { r with p := r.p.set d v }

def Regs.wb (r : Regs) (d : Fin 8) (v : Word) : Regs := { r with b := r.b.set d v }
def Regs.wv (r : Regs) (d : Fin 32) (v : Vec) : Regs := { r with v := r.v.set d v }
def Regs.wm (r : Regs) (d : Fin 8) (v : Word) : Regs := { r with m := r.m.set d v }
def Regs.wt (r : Regs) (d : Fin 16) (v : Tile) : Regs := { r with t := r.t.set d v }
def Regs.wh (r : Regs) (d : Fin 16) (v : Handle) : Regs := { r with h := r.h.set d v }
def Regs.wo (r : Regs) (d : Fin 8) (v : Block64) : Regs := { r with o := r.o.set d v }
def Regs.wf (r : Regs) (d : Fin 8) (v : Fibre) : Regs := { r with f := r.f.set d v }
def Regs.wq (r : Regs) (d : Fin 8) (v : Stream) : Regs := { r with q := r.q.set d v }
def Regs.wk (r : Regs) (d : Fin 4) (v : Cutter) : Regs := { r with k := r.k.set d v }
def Regs.orFlags (r : Regs) (f : BitVec 7) : Regs := { r with fpflg := r.fpflg ||| f }

/-- Bytes of a page of a size (R160). -/
def pageBytes (psize : Nat) : Nat :=
  match psize with
  | 0 => 2 ^ 12 | 1 => 2 ^ 16 | 2 => 2 ^ 21 | _ => 2 ^ 30

/-- Two byte ranges share a byte. -/
def overlap (a b c d : Nat) : Bool := decide (max a c < min b d)

def Handle.field (h : Handle) (lo n : Nat) : Nat := (h.extractLsb' lo n).toNat
def Handle.valid (h : Handle) : Bool := h.getLsbD 32
def Handle.canW (h : Handle) : Bool := h.getLsbD 35
def Handle.psize (h : Handle) : Nat := Handle.field h 42 2
def Handle.lc (h : Handle) : Nat := Handle.field h 40 2
def Handle.aclass (h : Handle) : BitVec 4 := h.extractLsb' 36 4
/-- The virtual address of the handle's page. -/
def Handle.va (h : Handle) : Nat := Handle.field h 84 44 * 4096

/-- The handle register with V cleared (R159). -/
def Handle.clear (h : Handle) : Handle := h &&& ~~~(BitVec.ofNat 128 (2 ^ 32))

/-- A handle's page shares a byte with a range. -/
def Handle.meets (h : Handle) (va len : Nat) : Bool :=
  overlap (Handle.va h) (Handle.va h + pageBytes (Handle.psize h)) va (va + len)

/-- Handles of pages that a shootdown has changed are valid no longer (R159). -/
def Regs.dropHandles (r : Regs) (va len : Nat) : Regs :=
  { r with h := r.h.map fun h => if Handle.meets h va len then Handle.clear h else h }

/-- What the executing word reads. -/
def State.src (s : State) : Regs := s.me.src
def State.rs (s : State) (a : Fin 32) : Word := s.src.rs a
def State.rp (s : State) (a : Fin 16) : Bool := s.src.rp a

/-- A write by the executing word, at once: the scoreboard holds readers until it is ready. -/
def State.wr (s : State) (f : Regs → Regs) : State :=
  s.modMe fun c => { c with regs := f c.regs }

/-- A write by an earlier operation that lands between bundles or while one is held (R245): the
image that a held bundle reads takes it too, since that bundle names none of its registers. -/
def Ctx.land (c : Ctx) (f : Regs → Regs) : Ctx :=
  { c with regs := f c.regs, snap := c.snap.map f }

/-- An operation of the running bundle, which a pending check of that bundle may yet undo (R245). -/
def Ctx.holding (c : Ctx) (id : Nat) : Bool := c.undo.any fun u => decide (u.first ≤ id)

/-- An operation of the running bundle, whose words read the registers as they stood before it (R10). -/
def Ctx.running (c : Ctx) (id : Nat) : Bool := c.entry.any fun u => decide (u.first ≤ id)

/-- A write by an operation: one of the running bundle's own leaves the image that the bundle's words read (R10). -/
def Ctx.landOp (c : Ctx) (id : Nat) (f : Regs → Regs) : Ctx :=
  if c.running id then { c with regs := f c.regs } else c.land f

/-- A write by an event of the array: while a check is pending, a trap would freeze the event, and while a WAIT has not
executed, forced pre-emption would (R253, R256). -/
def Ctx.landArr (c : Ctx) (f : Regs → Regs) : Ctx :=
  if c.undo.isSome || (match c.wait with | .counters .. => true | _ => false) then { c with regs := f c.regs }
  else c.land f

/-! ### Counters, scoreboard, agenda -/

def Ctx.ctr (c : Ctx) : Ctr → Nat
  | .ld => c.ld | .st => c.st | .cp => c.cp | .tl => c.tl

def Ctx.setCtr (c : Ctx) (k : Ctr) (n : Nat) : Ctx :=
  match k with
  | .ld => { c with ld := n } | .st => { c with st := n }
  | .cp => { c with cp := n } | .tl => { c with tl := n }

/-- A counter rises when its operation issues (R76). -/
def Ctx.count (c : Ctx) (k : Ctr) : Ctx := c.setCtr k (c.ctr k + 1)

/-- A counter falls when its operation retires (R76). -/
def Ctx.uncount (c : Ctx) (k : Ctr) : Ctx := c.setCtr k (c.ctr k - 1)

/-- All four counters are zero. -/
def Ctx.idle4 (c : Ctx) : Bool := c.ld == 0 && c.st == 0 && c.cp == 0 && c.tl == 0

/-- A register is marked as awaiting a write: ready in a cycle, or at an event (R10). -/
def Ctx.lock (c : Ctx) (r : RegName) (t : Option Nat) : Ctx := { c with sb := (r, t) :: c.sb }

/-- A register no longer awaits a write. -/
def Ctx.unlock (c : Ctx) (r : RegName) : Ctx := { c with sb := c.sb.filter (·.1 != r) }

/-- A register awaits a write in a cycle (R10). -/
def Ctx.locked (c : Ctx) (cyc : Nat) (r : RegName) : Bool :=
  c.sb.any fun (x, t) => x == r && (match t with | none => true | some n => decide (cyc < n))

/-- An event added to the agenda behind those due no later. -/
def insertDue (due : Nat) (e : Instr) : List (Nat × Instr) → List (Nat × Instr)
  | [] => [(due, e)]
  | (d, x) :: t => if d ≤ due then (d, x) :: insertDue due e t else (due, e) :: (d, x) :: t

def State.schedule (s : State) (due : Nat) (e : Instr) : State :=
  { s with agenda := insertDue due e s.agenda }

/-- A register of the executing context is ready n cycles after issue (R10, R353, R421). A write
that is ready in the next cycle needs no mark, since no bundle of the context issues before. -/
def State.readyIn (s : State) (r : RegName) (n : Nat) : State :=
  (s.modMe fun c => c.lock r (some (s.cycle + n))).schedule (s.cycle + n)
    (.destinationReady s.cur s.cix r)

/-- A free latency, from State.delays or else of the next operation's number, at least 1, and within a bound (R162;
log 6, DESIGN CHOICE). What puts an operation off beyond it is State.postpone's. -/
def State.latency (s : State) (bound : Option Nat) : Nat :=
  let d := max 1 (s.delays.headD (Config.remoteDelay s.nextOp))
  match bound with
  | none => d
  | some b => min d b

def State.dropDelay (s : State) : State := { s with delays := s.delays.tail }

/-! ### Operations in flight -/

/-- The operation of a number. -/
def Core.op (c : Core) (id : Nat) : Option Op := c.ops.find? (·.id == id)

/-- A context issues an operation: its counter rises and its destinations are awaited (R10, R76). -/
def Ctx.issued (c : Ctx) (ctr : Option Ctr) (lock : List RegName) : Ctx :=
  { (match ctr with | none => c | some k => c.count k) with sb := (lock.reverse.map fun r => (r, none)) ++ c.sb }

/-- An operation issued by the executing context: counted, its destinations marked, and its
event due. The number of the operation is s.nextOp. -/
def State.issueOp (s : State) (ctr : Option Ctr) (kinds : BitVec 8) (ranges : List Rng)
    (lock : List RegName) (what : OpWhat) (due : Nat) (ev : Nat → Instr) : State :=
  let op : Op := { id := s.nextOp, ctx := s.cix, kinds, ctr, ranges, lock, what }
  let t := s.modMyCore fun c => Core.setCtx { c with ops := c.ops ++ [op] } s.cix (c.ctxs[s.cix].issued ctr lock)
  { (t.schedule due (ev s.nextOp)) with nextOp := s.nextOp + 1 }

/-- The hub's counter write for a PUBLISH whose drain is done is on its way (R191). -/
def State.askHub (s : State) (core : Nat) (ctx : Fin 4) (d : Fin 32) : State :=
  (s.schedule (s.cycle + s.latency none) (.publishAck core ctx d)).dropDelay

/-- Fences of a context once an operation has performed: those that waited for it alone are over, but for a PUBLISH,
which waits for its acknowledgement (R188, R401). -/
def Ctx.fencesLeft (c : Ctx) (id : Nat) : List Fence :=
  (c.fences.map fun f => { f with ops := f.ops.filter (· != id) }).filter fun f => !f.ops.isEmpty || f.pub.isSome

/-- Destinations of the PUBLISHes that waited for an operation alone. -/
def Ctx.published (c : Ctx) (id : Nat) : List (Fin 32) :=
  c.fences.filterMap fun f => if f.ops.contains id && f.ops.all (· == id) then f.pub else none

/-- A context's operation retires: its counter falls and its destinations are free; fences that waited for it
alone are over (R76, R188). -/
def Ctx.retired (c : Ctx) (op : Op) : Ctx :=
  { (match op.ctr with | none => c | some k => c.uncount k) with
      sb := c.sb.filter fun x => !op.lock.contains x.1
      fences := c.fencesLeft op.id }

/-- An operation retires, and leaves the core's list, and with it the range scoreboard and the fences that
wait for it (R76, R173, R188). A PUBLISH that waited for it alone goes to the hub (R191). -/
def State.retireOp (s : State) (core : Nat) (op : Op) : State :=
  let t := s.modCore core fun c =>
    Core.setCtx { c with ops := c.ops.filter (·.id != op.id) } op.ctx (c.ctxs[op.ctx].retired op)
  ((s.ctx core op.ctx).published op.id).foldl (fun s d => s.askHub core op.ctx d) t

/-- What is not in the core's list, an arrival by BARA, has performed. -/
def State.fencePast (s : State) (core : Nat) (ix : Fin 4) (id : Nat) : State :=
  ((s.ctx core ix).published id).foldl (fun s d => s.askHub core ix d)
    (s.modCtx core ix fun c => { c with fences := c.fencesLeft id })

/-- A range conflicts with an entry of the range scoreboard (R173). -/
def Rng.hits (r : Rng) (lo hi : Nat) (wr : Bool) : Bool :=
  (r.wr || wr) && overlap r.lo r.hi lo hi

/-- A later part of a FESET's work, which its context alone waits for (R172). -/
def Held.sweeps (h : Held) : Bool := !h.check && h.ops.isEmpty && h.bytes.isEmpty

/-- A held write acts as a write entry on its bytes and its full/empty words (R182). -/
def Held.hits (h : Held) (lo hi : Nat) : Bool :=
  (h.bytes.any fun b => decide (lo ≤ b.1) && decide (b.1 < hi))
    || (!h.sweeps && h.mark.any fun m => overlap (8 * m.1) (8 * m.1 + 8 * m.2.1) lo hi)

/-- Some operation in flight, or a held write (R182), conflicts. -/
def Core.conflict (c : Core) (lo hi : Nat) (wr : Bool) : Bool :=
  (c.ops.any fun o => o.ranges.any fun r => r.hits lo hi wr) || c.held.any fun h => h.hits lo hi

/-- An operation whose effect a pending check of its bundle holds back (R245). -/
def State.opHeld (s : State) (core : Nat) (op : Op) : Bool := (s.ctx core op.ctx).holding op.id

/-- A held write can perform. -/
def Held.free (h : Held) (now : Nat) : Bool := h.ops.isEmpty && !h.check && decide (h.till ≤ now)

/-- A held write performs. -/
def Core.putHeld (c : Core) (h : Held) : Core :=
  { c with
    scr := h.bytes.foldl (fun m b => cset m b.1 b.2) c.scr
    fe := match h.mark with
      | some (w, n, full) => csetN c.fe w (List.replicate n (if full then 1 else 0))
      | none => c.fe }

/-- Held writes that nothing holds any longer perform, oldest first (R182, R245). -/
def Core.performHeld (c : Core) (now : Nat) : Core :=
  (c.held.filter (·.free now)).foldl Core.putHeld { c with held := c.held.filter fun h => !h.free now }

/-- What a bundle or a forced pre-emption may find again, changed. -/
def Ctx.mapUndo (c : Ctx) (f : Undo → Undo) : Ctx :=
  { c with undo := c.undo.map f, entry := c.entry.map f, last := c.last.map f, prior := c.prior.map f }

/-- A change of the array that is no event of it, and that a trap of a pending check or a forced pre-emption leaves as
it is (R245, R253). -/
def Core.mapArr (c : Core) (f : Arr → Arr) : Core :=
  { c with
    arr := f c.arr
    ctxs := c.ctxs.map fun x => x.mapUndo fun u => { u with arr := f u.arr } }

/-! ### Bytes at their places -/

def State.getLoc (s : State) : Loc → Byte
  | .mem a => cget s.mem a
  | .scr n o => cget (s.core n).scr o
  | .lid n a => cget (s.core n).lid a

def State.putLoc (s : State) (l : Loc) (b : Byte) : State :=
  match l with
  | .mem a => { s with mem := cset s.mem a b }
  | .scr n o => s.modCore n fun c => { c with scr := cset c.scr o b }
  | .lid n a => s.modCore n fun c => { c with lid := cset c.lid a b }

def State.getSrc (s : State) : Src → Byte
  | .known b => b
  | .place l => s.getLoc l

def State.memBytes (s : State) (a n : Nat) : List Byte := cgetN s.mem a n
def State.putMem (s : State) (a : Nat) (b : List Byte) : State := { s with mem := csetN s.mem a b }
def State.scrBytes (s : State) (core o n : Nat) : List Byte := cgetN (s.core core).scr o n
def State.putScr (s : State) (core o : Nat) (b : List Byte) : State :=
  s.modCore core fun c => { c with scr := csetN c.scr o b }

/-- A 64-bit little-endian word of memory. -/
def State.mem64 (s : State) (a : Nat) : Word := BitVec.ofNat 64 (leVal (s.memBytes a 8))
def State.putMem64 (s : State) (a : Nat) (v : Word) : State := s.putMem a (leBytes 8 v.toNat)
/-- A 64-bit word of a scratchpad. -/
def State.scr64 (s : State) (core o : Nat) : Word := BitVec.ofNat 64 (leVal (s.scrBytes core o 8))

/-! ### Bundle addresses -/

/-- The packet that holds an address (R327). -/
def packetOf (a : Word) : Word := a &&& ~~~(63 : Word)

/-- The index of an address's word in its packet. -/
def wordIx (a : Word) : Nat := (a.toNat % 64) / 4

def Code.starts (w : Code) : Bool := w.getLsbD 31

/-- The class field (R326). -/
def Code.cls (w : Code) : Nat := (w.extractLsb' 28 3).toNat

/-- Words of a bundle after its first: up to a word with S = 1, a PAD, or the packet's end
(R327). -/
def bundleTail : List Code → List Code
  | [] => []
  | w :: t => if w = 0#32 || Code.starts w then [] else w :: bundleTail t

/-- bundle_at (R327), in the words of its packet. -/
def bundleIn (pkt : List Code) (a : Word) : List Code :=
  match pkt.drop (wordIx a) with
  | [] => []
  | w :: t => w :: bundleTail t

/-- next_in_sequence (R327), in the words of the bundle's packet. -/
def nextIn (pkt : List Code) (a : Word) (n : Nat) : Word :=
  match pkt[wordIx a + n]? with
  | some w => if Code.starts w then a + BitVec.ofNat 64 (4 * n) else packetOf a + 64
  | none => packetOf a + 64

/-- The packet that a context has fetched for an address. -/
def Ctx.pktOf (c : Ctx) (a : Word) : Option (List Code) :=
  match c.packet with
  | some (p, ws) => if p = packetOf a then some ws else none
  | none => none

/-- The bundle after the one at an address. Where its packet cannot be fetched the words are not
there to be read, and the address is a free value (log 12, DESIGN CHOICE). -/
def Ctx.after (c : Ctx) (a : Word) : Word :=
  match c.pktOf a with
  | some ws => nextIn ws a (bundleIn ws a).length
  | none => Config.unfetchedNext a &&& ~~~(3 : Word)

/-- The resolved target of a delay bundle at pc (R249). -/
def Ctx.resolved (c : Ctx) (d : Delay) : Word := if d.taken then d.target else c.after c.pc

/-! ### Traps -/

def Cause.code : Cause → BitVec 8
  | .illSlot => 1 | .illMod => 2 | .illBundle => 3 | .classOrder => 4 | .dupWrite => 5
  | .misalignEntry => 6 | .delayBranch => 7 | .fetchFault => 8 | .handleStale => 9
  | .leaseBreach => 10 | .bufOwner => 11 | .phaseOverlap => 12 | .phaseEscape => 13
  | .scaleImbalance => 14 | .symBreak => 15 | .orbitRange => 16 | .mtxNotOwned => 17
  | .atomicRoute => 18 | .fibreMalformed => 19 | .bkselRange => 20 | .jcbLate => 21
  | .intDiv0 => 22 | .fpTrap => 23 | .xferLate => 24 | .swTrap => 25

/-- PHASE_ESCAPE's reason in EINFO [35:32] (R178). -/
def escapeReason (info : Word) : Nat := (info.toNat >>> 32) % 16

/-- Causes whose trap ends the task (R243). -/
def Cause.fatal (c : Cause) (info : Word) : Bool :=
  c == .leaseBreach || (c == .phaseEscape && escapeReason info == 3)

/-- The events of the array of a core, which the shadow buffer can hold (R252). -/
def isArrayEvent (core : Nat) : Instr → Bool
  | .groupReady k _ | .mbeatAFold k _ | .foldRetire k _ | .mdrainRetire k _ _ _ _ => k == core
  | _ => false

/-- capture_shadow (R253). An array event of cycle t stands in the agenda at t + 1, so that words
of cycle t see it as not yet performed. -/
def State.captureShadow (s : State) (core t0 : Nat) : State :=
  let caught := s.agenda.filter fun (d, e) => isArrayEvent core e && decide (t0 < d)
  if caught.isEmpty then s
  else
    let s := { s with agenda := s.agenda.filter fun (d, e) =>
                        !(isArrayEvent core e && decide (t0 < d)) }
    s.modCore core fun c =>
      { c with arr := { c.arr with
          shadow := some ⟨t0, caught.map fun (d, e) => (d - t0, e)⟩ } }

/-- The end of a task by a trap starts (R248): it then ends as EXIT would. -/
def Ctx.startEnd (c : Ctx) (cause : Option (BitVec 8)) : Ctx :=
  { c with wait := .exiting cause, park := none, delay := none, xfer := none, back := none,
           skip := none, pad := none, bksel := none, raise := none, snap := none, deferred := none,
           checks := [], failed := none, undo := none, entry := none, last := none, prior := none, sure := false
           landed := 0, shot := [], suspending := none, suspendBar := none }

/-- The operation that an event performs or retires. -/
def eventOp (core : Nat) : Instr → Option Nat
  | .loadWriteback k o | .storePerform k o | .asyncRetire k o | .walkerRetire k o | .atomicPerform k o
  | .feRemoteServe k o | .remoteBufferAccess k o => if k = core then some o else none
  | _ => none

/-- Events without which a check of the running bundle cannot end: they go with a bundle that traps. -/
def isCheckEvent (core : Nat) (ix : Fin 4) : Instr → Bool
  | .bkselTableRead k i | .expectRaise k i => k == core && i == ix
  | _ => false

/-- Events of operations, gathers and TRANS words of a context that go with them: ids are operations, tags gathers,
and a handle that was awaited before keeps its write. -/
def goesWith (core : Nat) (ix : Fin 4) (ids tags : List Nat) (sb : List (RegName × Option Nat)) (e : Instr) : Bool :=
  ((eventOp core e).any ids.contains) || match e with
    | .transWrite k i h _ => k == core && i == ix && !sb.any fun x => x.1 == .h h
    | .elementServe d t | .gatherRetire d t => d == dieOf core && tags.contains t
    | _ => false

/-- MDRAINs among events of the array: the tiles that they write. -/
def drainTiles (l : List (Nat × Instr)) : List (Fin 16) :=
  l.filterMap fun e => match e.2 with
    | .mdrainRetire _ _ t _ _ => some t
    | _ => none

/-- The executing context holds the array. -/
def State.holdsArr (s : State) : Bool := s.myCore.arr.owner == some s.cix

/-- What a bundle of the executing context that turns out not to have executed has to find again, as it stands before
the array's events of its issue cycle (R245, R253, R256). -/
def State.takeUndo (s : State) : Undo :=
  let c := s.me
  let k := s.myCore
  let evs := if s.holdsArr then s.agenda.filter fun e => isArrayEvent s.cur e.2 else []
  { first := s.nextOp, cycle := s.cycle, sb := c.sb, phase := c.phase, dgst := c.dgst, seq := c.seq, loop := c.loop
    acc := k.acc, arr := k.arr, events := evs, fpflg := c.regs.fpflg
    tiles := (drainTiles evs).map fun t => (t, c.regs.t[t]), landFp := c.landFp }

/-- Operations of the executing context from a number on. -/
def State.opsSince (s : State) (first : Nat) : List Op :=
  s.myCore.ops.filter fun o => o.ctx == s.cix && decide (first ≤ o.id)

/-- Counters without some operations (R245). -/
def Ctx.withoutOps (c : Ctx) (l : List Op) : Ctx :=
  l.foldl (fun c o => match o.ctr with
    | none => c
    | some k => c.uncount k) c

/-- Tiles that MDRAINs are to write are awaited again. -/
def Ctx.relock (c : Ctx) (ts : List (Fin 16)) : Ctx :=
  { c with sb := ((ts.filter fun t => !c.sb.contains (.t t, none)).map fun t => (.t t, none)) ++ c.sb }

/-- The array of the executing context's core, its store and its events as they stood: events since then have not
happened (R247, R253). -/
def State.undoArray (s : State) (u : Undo) : State :=
  let s := s.modMyCore fun c => { c with arr := u.arr, acc := u.acc }
  let s := s.modMe fun c => { c.relock (drainTiles u.events) with landFp := u.landFp }
  u.events.foldl (fun s e => s.schedule e.1 e.2)
    { s with agenda := s.agenda.filter fun e => !isArrayEvent s.cur e.2 }

/-- The image of the registers without what the array's events have landed in it since (R247, R253). -/
def Undo.image (u : Undo) (r : Regs) : Regs :=
  u.tiles.foldl (fun r x => r.wt x.1 x.2) { r with fpflg := u.fpflg }

/-- Held writes no longer wait for operations that are gone. -/
def Core.unhold (c : Core) (gone : List Nat) (now : Nat) : Core :=
  if gone.isEmpty then c
  else
    let left (h : Held) : Held := { h with ops := h.ops.filter fun i => !gone.contains i }
    Core.performHeld { c with held := c.held.map left } now

/-- The executing context's running bundle has had no effect (R245, R256): its operations that are still in flight, its
held writes and what else its words have changed go; its registers are still in the image. -/
def State.withdraw (s : State) (u : Undo) : State :=
  let gone := s.opsSince u.first
  let ids := gone.map (·.id)
  let mine (g : GatherOp) : Bool := g.core == s.cur && ids.contains g.op
  let tags := ((s.die (dieOf s.cur)).gathers.filter mine).map (·.tag.toNat)
  let s := { s with agenda := s.agenda.filter fun e => !goesWith s.cur s.cix ids tags u.sb e.2 }
  let s := if tags.isEmpty then s else s.modDie (dieOf s.cur) fun d =>
    { d with gathers := d.gathers.filter fun g => !mine g }
  (s.modMyCore fun c =>
    Core.unhold { c with
      ops := c.ops.filter fun o => !(o.ctx == s.cix && ids.contains o.id)
      held := c.held.filter fun h => !(h.ctx == s.cix && decide (u.first ≤ h.store)) } ids s.cycle).modMe fun c =>
    { c.withoutOps gone with
      sb := c.sb.filter fun x => u.sb.contains x || (drainTiles u.events).any fun t => x.1 == .t t
      phase := u.phase, dgst := u.dgst, seq := u.seq, loop := u.loop
      undo := none, entry := none }

/-- The running bundle has had no effect, the array's events since its issue included (R245, R253, R256). -/
def State.rollback (s : State) (u : Undo) : State :=
  (if s.holdsArr then s.undoArray u else s).withdraw u

/-- The registers as they stood before the running bundle, with the shootdowns since (R159, R245). -/
def Ctx.before (c : Ctx) : Regs := c.shot.foldl (fun r x => r.dropHandles x.1 x.2) c.src

/-- take_trap (R247), for the executing context, whose pc names the bundle that traps. A bundle
that has executed words while a check was pending is rolled back (R245), and t0 is its issue cycle; its arithmetic's
flags are ORed all the same (R95). -/
def State.takeTrap (s : State) (cause : Cause) (info : Word) (flags : BitVec 7 := 0) : State :=
  let c := s.me
  let r := (c.undo.elim c.before fun u => u.image c.before).orFlags flags
  let t0 := c.undo.elim s.cycle (·.cycle)
  let s := { s with agenda := s.agenda.filter fun e => !isCheckEvent s.cur s.cix e.2 }
  let s := match c.undo, c.entry with
    | some u, _ => s.rollback u
    | none, some u => s.withdraw u
    | none, none => s
  let act := r.ecause.getLsbD 7
  if act || r.tvec == 0 || cause.fatal info then
    s.modMe fun c =>
      { c with regs := r }.startEnd (some (if act then 0x80 ||| cause.code else cause.code))
  else
    let s := if s.holdsArr then s.captureShadow s.cur t0 else s
    s.modMe fun c =>
      let edelay := match c.delay with
        | none => 0
        | some d => c.resolved d + 1
      { c with
          regs := { r with epc := c.pc, edelay := edelay, ecause := 0x80 + cause.code,
                           einfo := info }
          snap := none, deferred := none, checks := [], failed := none, suspending := none, suspendBar := none
          entry := none, last := none, prior := none, sure := false, landed := 0, shot := [], replay := false
          pc := r.tvec &&& ~~~(3 : Word), via := some c.pc, delay := none, xfer := none
          back := none, skip := none, pad := none, bksel := none, raise := none, packet := none
          badFetch := none, safeDue := false, wait := .none, holdTil := 0, park := none }

/-- eret (R250), before the replay of the shadow buffer, which waits for the resumed bundle to
issue: execution goes to EPC, where a pending target makes the bundle a delay bundle. -/
def State.eret (s : State) : State :=
  let r := s.src
  s.modMe fun c =>
    { c with
        regs := { c.regs with ecause := c.regs.ecause &&& 0x7F }
        replay := true
        back := some (r.epc, if r.edelay.getLsbD 0 then some (r.edelay - 1) else none) }

/-- Layout W of EINFO (R243). -/
def layoutW (ix : Nat) (w : Code) (reason : Nat := 0) : Word :=
  BitVec.ofNat 64 (reason * 2 ^ 40 + ix % 16 * 2 ^ 32 + w.toNat)

/-! ### The outcome of an issue check -/

/-- What the issue stage finds of a word: it goes, it waits, or it traps. -/
inductive Verdict where
  | go
  | wait (why : ParkWhy)
  | trap (c : Cause) (info : Word)
  /-- FP_TRAP, with the flags that are ORed all the same (R95) -/
  | fp (flags : BitVec 7)
  /-- a trap of PHASE after its wait, which leaves the earlier phase closed (R177) -/
  | phase (c : Cause) (info : Word)
  | stop (f : Fault)
  deriving DecidableEq, Repr

/-- The first verdict that is not go. -/
def Verdict.and (a : Verdict) (b : Verdict) : Verdict :=
  match a with
  | .go => b
  | _ => a

/-- A trap when a condition holds. -/
def trapIf (b : Bool) (c : Cause) (info : Word) : Verdict := if b then .trap c info else .go

/-- A wait when a condition holds. -/
def waitIf (b : Bool) (w : ParkWhy := .other) : Verdict := if b then .wait w else .go

/-- The trap of an ILL_MOD found at issue, with layout W of the word being judged. -/
def State.illMod (s : State) : Verdict :=
  .trap .illMod (layoutW s.me.word.1 s.me.word.2)

def State.illModIf (s : State) (b : Bool) : Verdict := if b then s.illMod else .go

/-- The executing context waits; its bundle has not executed. -/
def Ctx.parkFor (c : Ctx) (why : ParkWhy) (cyc : Nat) : Ctx :=
  match c.park with
  | some p => if p.why = why then c else { c with park := some ⟨why, cyc⟩ }
  | none => { c with park := some ⟨why, cyc⟩ }

/-- The open phase is closed, and stays so where a trap takes back what the bundle has begun (R177). -/
def Ctx.shut (c : Ctx) : Ctx :=
  let f (u : Undo) : Undo := { u with phase := none }
  { c with phase := none, undo := c.undo.map f, entry := c.entry.map f }

/-- What a verdict other than go leads to. -/
def State.settle (s : State) : Verdict → Host.Outcome State Fault Refusal
  | .go => .next s
  | .wait w => .next (s.modMe fun c => c.parkFor w s.cycle)
  | .trap c i => .next (s.takeTrap c i)
  | .fp f => .next (s.takeTrap .fpTrap (f.setWidth 64) f)
  | .phase c i => .next ((s.modMe Ctx.shut).takeTrap c i)
  | .stop f => .fault f

/-- A word's meaning: its issue check, then its effect. Within a bundle that the issue stage has
judged whole on the state before it, the check is not made again (R10, R246). -/
def State.guard (s : State) (v : Verdict) (k : State → State) : Host.Outcome State Fault Refusal :=
  if s.me.snap.isSome then .next (k s)
  else match v with
    | .go => .next (k s)
    | v => s.settle v

end Sys2Proof.Machine
end

