-- ==== Sys2Proof/Machine/Barrier.lean ====
section
/-! DEFINITION. Levels and barrier objects (R14, R48, R51, R232 to R234), and the effective class of
a context, with inheritance at barriers (R59 to R61). -/

namespace Sys2Proof.Machine

/-! ### Instances of levels -/

def State.levels (s : State) (vf : Nat) : List Level :=
  match s.vf vf with
  | some f => f.job.elim [] (·.levels)
  | none => []

/-- Product of the counts of levels. -/
def units (ls : List Level) : Nat := ls.foldl (fun p l => p * l.count) 1

/-- The position of the level-l instance that holds the task of a logical index (R51). -/
def posAt (ls : List Level) (i l : Nat) : Nat := i / units (ls.drop (l + 1))

/-- The level of the objects at which tasks arrive: one above the innermost; none where the tasks
are instances of LEVEL0 (R232, R233). -/
def parentLevel (ls : List Level) : Option Nat := if ls.length < 2 then none else some (ls.length - 2)

/-- DOMAIN code of a scope (R48, R233). -/
def scopeDomain : Scope → Option Nat
  | .core => some 4 | .row => some 3 | .die => some 2 | .pkg => some 1 | .part => some 0
  | _ => none

/-- The target level of a scope (R233). -/
def targetLevel (ls : List Level) (sc : Scope) : Option Nat :=
  match sc with
  | .sys => if ls.isEmpty then none else some 0
  | sc => match scopeDomain sc with
    | some d => ls.findIdx? fun l => l.domain == d
    | none => none

/-- A launch has a level bound to the row domain (R228). -/
def hasRowLevel (ls : List Level) : Bool := ls.any fun l => l.domain == 3

/-! ### Where tasks run -/

/-- Contexts that a core runs for launches: context 3 of core strip 0 of row 7 of a die is the service firmware's
(R49, R266). -/
def coreRoom (core : Nat) : Nat := if core % 96 = 84 then 3 else 4

/-- Tasks that the context levels divide among the contexts of a container: the product of their counts (R49). -/
def ctxCount (ls : List Level) : Nat := units (ls.filter (·.domain == 5))

/-- Core and context of each task on some cores, in order of logical index, where each n tasks divide the contexts of
one container, from its first core on: the first left of them are to come (R13, R49; log 49, DEDUCED). -/
def spotsOf (n : Nat) : Nat → List Nat → List (Nat × Nat)
  | _, [] => []
  | left, c :: t =>
      ((List.range (min left (coreRoom c))).map fun k => (c, k))
        ++ spotsOf n (if left ≤ coreRoom c then n else left - coreRoom c) t

/-- Core and context in which the task of each logical index starts. -/
def taskSpots (ls : List Level) (place : List Nat) : List (Nat × Nat) := spotsOf (ctxCount ls) (ctxCount ls) place

/-- Logical indexes of the members of an object's instance. -/
def instanceTasks (ls : List Level) (k : BarKey) : List Nat :=
  let m := units (ls.drop (k.level + 1))
  (List.range m).map (k.pos * m + ·)

/-- The row of this package in which the task of a logical index runs: a task that suspends goes on in its row (R44). -/
def State.taskRow (s : State) (vf i : Nat) : Option Nat :=
  ((s.vf vf).bind (·.job)).bind fun j => ((taskSpots j.levels j.place)[i]?).bind fun x =>
    if x.1 < 384 then some (rowOf x.1) else none

/-! ### Barrier objects -/

/-- An object as it stands; one that no arrival has reached yet has only its count. -/
def State.bar (s : State) (k : BarKey) : Barrier :=
  match s.bars.find? fun b => b.key = k with
  | some b => b
  | none => { key := k, count := ((s.levels k.vf)[k.level + 1]?).elim 1 (·.count) }

def putBar (b : Barrier) : List Barrier → List Barrier
  | [] => [b]
  | x :: t => if x.key = b.key then b :: t else x :: putBar b t

def State.setBar (s : State) (b : Barrier) : State := { s with bars := putBar b s.bars }

/-- The object of a level on the path of a task. -/
def barOn (vf : Nat) (ls : List Level) (i l : Nat) : BarKey := ⟨vf, l, posAt ls i l⟩

/-- flip(o), with the objects below it whose arrivals it took (R233). -/
def State.flip (s : State) (vf : Nat) (ls : List Level) : Nat → Nat → Nat → State
  | 0, _, _ => s
  | n + 1, l, p =>
      let b := s.bar ⟨vf, l, p⟩
      let s := s.setBar { b with who := [], xf := false, epoch := b.epoch + 1 }
      if l + 2 < ls.length then b.who.foldl (fun s c => s.flip vf ls n (l + 1) c) s else s

/-- count(o) at level l on the path of task i, upward while an object is complete (R233); n bounds
the levels left. -/
def State.countUp (s : State) (vf : Nat) (ls : List Level) (i tgt : Nat) (x : Bool) :
    Nat → Nat → State × Bool
  | 0, _ => (s, false)
  | n + 1, l =>
      let b := s.bar (barOn vf ls i l)
      let b := if b.who.isEmpty then { b with tgt := tgt, xf := x } else b
      let b := { b with who := b.who ++ [posAt ls i (l + 1)] }
      let s := s.setBar b
      if b.who.length = b.count then
        if l = tgt then (s.flip vf ls ls.length l b.key.pos, true)
        else s.countUp vf ls i tgt x n (l - 1)
      else (s, false)

/-- Every object on the path agrees with an arrival, and its own has not counted the task (R233,
R234). -/
def State.arrivalOk (s : State) (vf : Nat) (ls : List Level) (i tgt par : Nat) (x : Bool) : Bool :=
  !(s.bar (barOn vf ls i par)).who.contains i
    && (List.range (par + 1 - tgt)).all fun k =>
      let b := s.bar (barOn vf ls i (par - k))
      b.who.isEmpty || (b.tgt == tgt && b.xf == x)

/-- arrive (R233): none where the arrival is refused; else the state after it, and whether the target
object flipped. -/
def State.arrive (s : State) (vf i tgt : Nat) (x : Bool) : Option (State × Bool) :=
  let ls := s.levels vf
  match parentLevel ls with
  | none => none
  | some par =>
      if s.arrivalOk vf ls i tgt par x then some (s.countUp vf ls i tgt x (par + 1) par) else none

/-- A level whose objects lie above the package, in the hub of the partition's head (R232). -/
def aboveLevel (ls : List Level) (l : Nat) : Bool :=
  (ls[l]?).any (fun v => v.domain == 0) && decide (l + 1 < ls.length)

/-- This package is the head of a function's partition. -/
def State.headOf (s : State) (vf : Nat) : Bool := (s.vf vf).any fun v => v.pkgs.head? == some s.pkg.toNat

/-- What comes over the packet fabric from another package about an object above the package (R233): at the head, the
arrival of a child object of another package; elsewhere, the flip of an object at which the package has arrived. The
sending package has checked the path, so an arrival that disagrees does not come. -/
def State.spike (s : State) (k : Spike) : State :=
  match k with
  | .arrive vf l child tgt x =>
      let ls := s.levels vf
      let i := child * units (ls.drop (l + 2))
      let b := s.bar (barOn vf ls i l)
      if aboveLevel ls l && s.headOf vf && decide (tgt ≤ l) && decide (child < units (ls.take (l + 2)))
          && !b.who.contains child && (b.who.isEmpty || (b.tgt == tgt && b.xf == x)) then
        (s.countUp vf ls i tgt x (l + 1) l).1
      else s
  | .flip vf l pos =>
      let ls := s.levels vf
      if aboveLevel ls l && !s.headOf vf && !(s.bar ⟨vf, l, pos⟩).who.isEmpty then s.flip vf ls ls.length l pos else s

/-! ### Effective class -/

/-- The greatest of a list of classes. -/
def topClass (l : List Nat) : Nat := l.foldl max 0

/-- A context's class, apart from inheritance (R59, R61). -/
def Ctx.ownClass (c : Ctx) : Nat := if c.aged then 3 else c.regs.cls.toNat

/-- The object and episode at which a context waits. -/
def Ctx.waitsAt (c : Ctx) : Option (BarKey × Nat) :=
  match c.wait with
  | .flip k e => some (k, e)
  | _ => none

/-- Classes of the contexts that wait at an object (R60). A waiting context has arrived, so it
inherits from no barrier itself. -/
def State.waitClasses (s : State) (k : BarKey) : List Nat :=
  s.cores.flatMap fun (_, c) => c.ctxs.toList.filterMap fun x =>
    match x.waitsAt with
    | some (k', e) => if k' = k ∧ e = (s.bar k).epoch then some x.ownClass else none
    | none => none

/-- The class that the task of a logical index inherits: it has not arrived, and someone waits at an
object on its path (R60). -/
def State.inherited (s : State) (vf i : Nat) : Nat :=
  let ls := s.levels vf
  match parentLevel ls with
  | none => 0
  | some par =>
      if (s.bar (barOn vf ls i par)).who.contains i then 0
      else topClass ((List.range (par + 1)).flatMap fun l => s.waitClasses (barOn vf ls i l))

/-- The effective class of a context (R59). -/
def State.effClass (s : State) (core : Nat) (ix : Fin 4) : Nat :=
  let c := s.ctx core ix
  max c.ownClass (if c.spwn then 0 else s.inherited c.vf c.logical)

end Sys2Proof.Machine
end

