-- ==== Sys2Proof/Machine/Float.lean ====
section
/-! DEFINITION. Number formats, the one rounding helper, conversions and the correctly rounded
functions (R82 to R97, R102, R103). Values are exact: a mantissa and a power of two. -/

namespace Sys2Proof.Machine

/-! ### Flags and modes -/

abbrev Flags := BitVec 7

/-- The flags of FPFLG (R78). -/
def NV : Flags := 1
def DZ : Flags := 2
def OF : Flags := 4
def UF : Flags := 8
def NX : Flags := 16
def IOVF : Flags := 32
def SSAT : Flags := 64

/-- The mode in FPCTL.RM, which never holds a reserved value (R91). -/
def rmOf (fpctl : BitVec 16) : Rnd :=
  match (fpctl.extractLsb' 0 3).toNat with
  | 0 => .rne | 1 => .rtz | 2 => .rup | 3 => .rdn | _ => .rna

/-- What a rounding depends on: the mode in force, FTZ and DAZ (R78, R92). -/
structure Env where
  rm : Rnd
  ftz : Bool
  daz : Bool
  deriving DecidableEq, Repr

def envOf (fpctl : BitVec 16) (ov : Rnd) : Env :=
  ⟨if ov = .dyn then rmOf fpctl else ov, fpctl.getLsbD 3, fpctl.getLsbD 4⟩

/-! ### Formats -/

/-- What the codes of the highest exponent mean (R82). -/
inductive Top where
  | ieee | e4m3 | none
  deriving DecidableEq, Repr

/-- A floating-point format (R82); flush tells whether DAZ and FTZ act on it (R92). -/
structure Fmt where
  w : Nat
  m : Nat
  bias : Nat
  top : Top
  flush : Bool
  deriving DecidableEq, Repr

def fF64 : Fmt := ⟨64, 52, 1023, .ieee, true⟩
def fF32 : Fmt := ⟨32, 23, 127, .ieee, true⟩
def fF16 : Fmt := ⟨16, 10, 15, .ieee, true⟩
def fBf16 : Fmt := ⟨16, 7, 127, .ieee, true⟩
def fE5m2 : Fmt := ⟨8, 2, 15, .ieee, false⟩
def fE4m3 : Fmt := ⟨8, 3, 7, .e4m3, false⟩
def fE3m2 : Fmt := ⟨6, 2, 3, .none, false⟩
def fE2m3 : Fmt := ⟨6, 3, 1, .none, false⟩
def fE2m1 : Fmt := ⟨4, 1, 1, .none, false⟩

namespace Fmt

/-- The exponent field with all bits set. -/
def eTop (f : Fmt) : Nat := 2 ^ (f.w - 1 - f.m) - 1
def signBit (f : Fmt) : Nat := 2 ^ (f.w - 1)
def emin (f : Fmt) : Int := 1 - (f.bias : Int)
/-- The code of the largest finite magnitude. -/
def maxCode (f : Fmt) : Nat :=
  match f.top with
  | .ieee => f.eTop * 2 ^ f.m - 1
  | .e4m3 => f.signBit - 2
  | .none => f.signBit - 1
def infCode (f : Fmt) : Nat := f.eTop * 2 ^ f.m
/-- The canonical NaN (R89). -/
def nanCode (f : Fmt) : Nat :=
  match f.top with
  | .ieee => f.eTop * 2 ^ f.m + 2 ^ (f.m - 1)
  | _ => f.signBit - 1
def signed (f : Fmt) (neg : Bool) (code : Nat) : Nat := if neg then f.signBit + code else code

end Fmt

/-- A value (R82): a NaN, an infinity, or mant·2^exp with its sign. -/
inductive FV where
  | nan (neg quiet : Bool) (pay : Nat)
  | inf (neg : Bool)
  | fin (neg : Bool) (mant : Nat) (exp : Int)
  deriving DecidableEq, Repr

def FV.isNan : FV → Bool
  | .nan .. => true
  | _ => false
def FV.isSig : FV → Bool
  | .nan _ q _ => !q
  | _ => false
def FV.isZero : FV → Bool
  | .fin _ m _ => m == 0
  | _ => false
def FV.neg : FV → Bool
  | .nan n _ _ | .inf n | .fin n _ _ => n
def FV.flip : FV → FV
  | .nan n q p => .nan n q p
  | .inf n => .inf !n
  | .fin n m e => .fin (!n) m e

/-- The value of a code; with DAZ a subnormal of a flushable format reads as zero (R82, R92). -/
def Fmt.val (f : Fmt) (daz : Bool) (code : Nat) : FV :=
  let neg := decide (code / f.signBit % 2 = 1)
  let e := code % f.signBit / 2 ^ f.m
  let m := code % 2 ^ f.m
  if f.top = .ieee ∧ e = f.eTop then
    if m = 0 then .inf neg else .nan neg (decide (2 ^ (f.m - 1) ≤ m)) m
  else if f.top = .e4m3 ∧ code % f.signBit = f.signBit - 1 then .nan neg true 0
  else if e = 0 then
    .fin neg (if daz && f.flush then 0 else m) (f.emin - f.m)
  else .fin neg (2 ^ f.m + m) ((e : Int) - f.bias - f.m)

/-! ### Rounding -/

/-- Whether a remainder rounds a magnitude up: lo is what was cut off of 2·half, sticky says that
a non-zero part below it was cut off too (R91). -/
def roundsUp (rm : Rnd) (neg odd : Bool) (lo half : Nat) (sticky : Bool) : Bool :=
  let nz := lo != 0 || sticky
  match rm with
  | .rne | .dyn => decide (half < lo) || (lo == half && (sticky || odd))
  | .rna => decide (half ≤ lo) && nz
  | .rtz => false
  | .rup => nz && !neg
  | .rdn => nz && neg

/-- overflow_value (R93), as a magnitude code. -/
def overflowCode (f : Fmt) (neg : Bool) (rm : Rnd) : Nat :=
  if f.top ≠ .ieee then f.maxCode
  else match rm with
    | .rtz => f.maxCode
    | .rup => if neg then f.maxCode else f.infCode
    | .rdn => if neg then f.infCode else f.maxCode
    | _ => f.infCode

/-- The code of n·2^qe, for n up to 2^(m+1), where n below 2^m is a subnormal at emin. -/
def packMag (f : Fmt) (n : Nat) (qe : Int) : Nat :=
  if n < 2 ^ f.m then n
  else
    let (n, qe) := if n = 2 ^ (f.m + 1) then (2 ^ f.m, qe + 1) else (n, qe)
    (qe + f.m + f.bias).toNat * 2 ^ f.m + (n - 2 ^ f.m)

/-- round_to (R93) of ±mant·2^exp; with sticky, of a magnitude strictly between mant and mant + 1
times 2^exp, where mant then has at least two bits more than the precision. -/
def roundTo (f : Fmt) (env : Env) (neg : Bool) (mant : Nat) (exp : Int) (sticky : Bool := false) :
    Nat × Flags :=
  if mant = 0 then (f.signed neg 0, 0)
  else
    let lg := exp + (Nat.log2 mant : Int)
    if f.flush && env.ftz && decide (lg < f.emin) then (f.signed neg 0, UF ||| NX)
    else
      let qe := max lg f.emin - f.m
      let sh := (qe - exp).toNat
      let n := if exp ≤ qe then mant >>> sh else mant <<< (exp - qe).toNat
      let lo := if exp ≤ qe then mant % 2 ^ sh else 0
      let half := 2 ^ sh / 2
      let up := if sh = 0 then (lo != 0 || sticky) && (env.rm == .rup && !neg || env.rm == .rdn && neg)
                else roundsUp env.rm neg (n % 2 == 1) lo half sticky
      let code := packMag f (if up then n + 1 else n) qe
      let nx := lo != 0 || sticky
      let fl := (if nx then NX else 0) ||| (if nx && decide (lg < f.emin) then UF else 0)
      if f.maxCode < code then
        (f.signed neg (overflowCode f neg env.rm), fl ||| OF ||| NX)
      else (f.signed neg code, fl)

/-- A zero sum: the common sign of two zeros, else +0, or −0 under RDN (R94). -/
def zeroSum (env : Env) (aZero bZero aNeg bNeg : Bool) : Bool :=
  if aZero && bZero && aNeg == bNeg then aNeg else env.rm == .rdn

def sgn (neg : Bool) (m : Nat) : Int := if neg then -(m : Int) else m

/-- An exact sum of two finite values as sign, mantissa and exponent, zero signed by R94. -/
def addExact (env : Env) (an : Bool) (am : Nat) (ae : Int) (bn : Bool) (bm : Nat) (be : Int) :
    Bool × Nat × Int :=
  let e := min ae be
  let v := sgn an (am <<< (ae - e).toNat) + sgn bn (bm <<< (be - e).toNat)
  if v = 0 then (zeroSum env (am == 0) (bm == 0) an bn, 0, e) else (decide (v < 0), v.natAbs, e)

/-! ### Operations on codes -/

/-- A NaN operand's code with its quiet bit set (R83, R102). -/
def Fmt.quiet (f : Fmt) (code : Nat) : Nat :=
  if f.top = .ieee then code ||| 2 ^ (f.m - 1) else code

/-- The first NaN among the operands, quieted, and NV when any is signalling (R102). -/
def firstNan (f : Fmt) (ops : List Nat) : Option (Nat × Flags) :=
  let vs := ops.map (f.val false)
  let fl := if vs.any FV.isSig then NV else 0
  match ops.find? fun c => (f.val false c).isNan with
  | some c => some (f.quiet c, fl)
  | none => none

def invalid (f : Fmt) : Nat × Flags := (f.nanCode, NV)

/-- The sum of two values that are not NaNs, rounded once. -/
def addVal (f : Fmt) (env : Env) (a b : FV) : Nat × Flags :=
  match a, b with
  | .inf n, .inf k => if n = k then (f.signed n f.infCode, 0) else invalid f
  | .inf n, _ => (f.signed n f.infCode, 0)
  | _, .inf n => (f.signed n f.infCode, 0)
  | .fin an am ae, .fin bn bm be =>
      let (n, m, e) := addExact env an am ae bn bm be
      roundTo f env n m e
  | _, _ => invalid f

def fpAdd (f : Fmt) (env : Env) (a b : Nat) : Nat × Flags :=
  match firstNan f [a, b] with
  | some r => r
  | none => addVal f env (f.val env.daz a) (f.val env.daz b)

def fpSub (f : Fmt) (env : Env) (a b : Nat) : Nat × Flags :=
  match firstNan f [a, b] with
  | some r => r
  | none => addVal f env (f.val env.daz a) (f.val env.daz b).flip

/-- The exact product of two values that are not NaNs; none for 0 × ∞. -/
def mulVal (a b : FV) : Option FV :=
  let n := a.neg != b.neg
  match a, b with
  | .fin _ am ae, .fin _ bm be => some (.fin n (am * bm) (ae + be))
  | .fin _ am _, _ => if am = 0 then none else some (.inf n)
  | _, .fin _ bm _ => if bm = 0 then none else some (.inf n)
  | _, _ => some (.inf n)

/-- A value that is not a NaN, rounded into a format. -/
def roundVal (f : Fmt) (env : Env) : FV → Nat × Flags
  | .fin n m e => roundTo f env n m e
  | .inf n => (f.signed n f.infCode, 0)
  | .nan .. => (f.nanCode, 0)

def fpMul (f : Fmt) (env : Env) (a b : Nat) : Nat × Flags :=
  match firstNan f [a, b] with
  | some r => r
  | none =>
    match mulVal (f.val env.daz a) (f.val env.daz b) with
    | none => invalid f
    | some v => roundVal f env v

/-- a·b + c with one rounding (R429). -/
def fpFma (f : Fmt) (env : Env) (a b c : Nat) : Nat × Flags :=
  match firstNan f [a, b, c] with
  | some r => r
  | none =>
    match mulVal (f.val env.daz a) (f.val env.daz b) with
    | none => invalid f
    | some v => addVal f env v (f.val env.daz c)

/-- The order of two values that are not NaNs, as an integer key; −0 below +0 (R102). -/
def FV.lt (a b : FV) : Bool :=
  match a, b with
  | .inf n, .inf k => n && !k
  | .inf n, _ => n
  | _, .inf n => !n
  | .fin an am ae, .fin bn bm be =>
      let e := min ae be
      let x := sgn an (am <<< (ae - e).toNat)
      let y := sgn bn (bm <<< (be - e).toNat)
      decide (x < y) || (am == 0 && bm == 0 && an && !bn)
  | _, _ => false

/-- Equality of two values that are not NaNs, −0 equal to +0 (R102). -/
def FV.eqv (a b : FV) : Bool :=
  (a.isZero && b.isZero) || (!a.lt b && !b.lt a)

/-- An operand as DAZ reads it (R92). -/
def Fmt.read (f : Fmt) (env : Env) (code : Nat) : Nat :=
  if (f.val env.daz code).isZero then f.signed (f.val false code).neg 0 else code

/-- minimumNumber and maximumNumber (R102). A subnormal result is returned as it is, whatever FTZ says, since nothing
is rounded (R92; log 87, DEDUCED). -/
def fpMinMax (f : Fmt) (env : Env) (isMax : Bool) (a b : Nat) : Nat × Flags :=
  let x := f.val env.daz a
  let y := f.val env.daz b
  let fl := if x.isSig || y.isSig then NV else 0
  if x.isNan && y.isNan then (f.quiet a, fl)
  else if x.isNan then (f.read env b, fl)
  else if y.isNan then (f.read env a, fl)
  else if (if isMax then x.lt y else y.lt x) then (f.read env b, fl) else (f.read env a, fl)

/-- A comparison of VCMP, by condition group: 0 eq, 1 ne, 2 lt, 3 le (R102, R425). -/
def fpCmp (f : Fmt) (env : Env) (cc : Fin 4) (a b : Nat) : Bool × Flags :=
  let x := f.val env.daz a
  let y := f.val env.daz b
  if x.isNan || y.isNan then
    (cc == 1, if x.isSig || y.isSig || cc == 2 || cc == 3 then NV else 0)
  else
    let eq := x.eqv y
    (match cc with
      | 0 => eq
      | 1 => !eq
      | 2 => x.lt y && !eq
      | 3 => x.lt y || eq, 0)

/-! ### Correctly rounded functions (R103) -/

/-- floor(√n) by Newton's iteration from above. -/
def isqrtGo (n : Nat) : Nat → Nat → Nat
  | 0, x => x
  | k + 1, x =>
      let y := (x + n / x) / 2
      if y < x then isqrtGo n k y else x

def isqrt (n : Nat) : Nat := if n = 0 then 0 else isqrtGo n 4096 (2 ^ (Nat.log2 n / 2 + 1))

/-- Bits kept by the functions below: two more than any precision needs. -/
def Fmt.keep (f : Fmt) : Nat := f.m + 5

/-- n / d with sticky: at least keep bits. -/
def quot (k n d : Nat) : Nat × Nat × Bool :=
  let sh := k + Nat.log2 d + 1 - Nat.log2 n
  ((n <<< sh) / d, sh, (n <<< sh) % d != 0)

def fpDiv (f : Fmt) (env : Env) (a b : Nat) : Nat × Flags :=
  match firstNan f [a, b] with
  | some r => r
  | none =>
    let x := f.val env.daz a
    let y := f.val env.daz b
    let n := x.neg != y.neg
    match x, y with
    | .fin _ xm xe, .fin _ ym ye =>
        if ym = 0 then if xm = 0 then invalid f else (f.signed n f.infCode, DZ)
        else if xm = 0 then (f.signed n 0, 0)
        else
          let (q, sh, st) := quot f.keep xm ym
          roundTo f env n q (xe - ye - sh) st
    | .inf _, .fin .. => (f.signed n f.infCode, 0)
    | .fin .., .inf _ => (f.signed n 0, 0)
    | _, _ => invalid f

/-- A mantissa with an even exponent. -/
def evenExp (m : Nat) (e : Int) : Nat × Int := if e % 2 = 0 then (m, e) else (2 * m, e - 1)

def fpSqrt (f : Fmt) (env : Env) (a : Nat) : Nat × Flags :=
  match firstNan f [a] with
  | some r => r
  | none =>
    match f.val env.daz a with
    | .fin n m e =>
        if m = 0 then (f.signed n 0, 0)
        else if n then invalid f
        else
          let (m, e) := evenExp m e
          let s := m <<< (2 * f.keep)
          let r := isqrt s
          roundTo f env false r (e / 2 - f.keep) (r * r != s)
    | .inf n => if n then invalid f else (f.infCode, 0)
    | _ => invalid f

def fpRcp (f : Fmt) (env : Env) (a : Nat) : Nat × Flags :=
  match firstNan f [a] with
  | some r => r
  | none =>
    match f.val env.daz a with
    | .fin n m e =>
        if m = 0 then (f.signed n f.infCode, DZ)
        else
          let (q, sh, st) := quot f.keep 1 m
          roundTo f env n q (-e - sh) st
    | .inf n => (f.signed n 0, 0)
    | _ => invalid f

def fpRsq (f : Fmt) (env : Env) (a : Nat) : Nat × Flags :=
  match firstNan f [a] with
  | some r => r
  | none =>
    match f.val env.daz a with
    | .fin n m e =>
        if m = 0 then (f.signed n f.infCode, DZ)
        else if n then invalid f
        else
          let (m, e) := evenExp m e
          let k := f.keep + Nat.log2 m
          let t := 2 ^ (2 * k)
          let r := isqrt (t / m)
          roundTo f env false r (-(e / 2) - k) (r * r * m != t)
    | .inf n => if n then invalid f else (0, 0)
    | _ => invalid f

/-- Bounds of 2^frac in units of 2^−w, where frac is the low bits of a fraction below 1, bit by
bit from the top: each bit multiplies by a repeated square root of 2. -/
def exp2Go (w frac : Nat) : Nat → Nat → Nat → Nat → Nat → Nat × Nat
  | 0, _, _, lo, hi => (lo, hi)
  | k + 1, rl, rh, lo, hi =>
      let rl := isqrt (rl <<< w)
      let rh := isqrt (rh <<< w) + 1
      if frac.testBit k then exp2Go w frac k rl rh ((lo * rl) >>> w) (((hi * rh) >>> w) + 1)
      else exp2Go w frac k rl rh lo hi

/-- floor(2^(frac/2^b)·2^k): the working precision grows until both bounds agree. -/
def exp2Floor (frac b k : Nat) : Nat → Nat → Nat
  | 0, _ => 0
  | n + 1, w =>
      let (lo, hi) := exp2Go w frac b (2 <<< w) (2 <<< w) (1 <<< w) (1 <<< w)
      if lo >>> (w - k) = hi >>> (w - k) then lo >>> (w - k) else exp2Floor frac b k n (2 * w)

def fpExp2 (f : Fmt) (env : Env) (a : Nat) : Nat × Flags :=
  match firstNan f [a] with
  | some r => r
  | none =>
    match f.val env.daz a with
    | .inf n => if n then (0, 0) else (f.infCode, 0)
    | .fin n m e =>
        let k := f.keep
        if m = 0 then roundTo f env false 1 0
        else if e + Nat.log2 m < -(k + 3 : Int) then
          if n then roundTo f env false (2 ^ k - 1) (-k) true else roundTo f env false (2 ^ k) (-k) true
        else if e + Nat.log2 m > 12 then
          if n then roundTo f env false (2 ^ k) (-8192) true else roundTo f env false (2 ^ k) 8192 true
        else if 0 ≤ e then roundTo f env false 1 (sgn n (m <<< e.toNat))
        else
          let b := (-e).toNat
          let v := sgn n m
          let i := v.fdiv (2 ^ b)
          let frac := (v.fmod (2 ^ b)).toNat
          if frac = 0 then roundTo f env false 1 i
          else roundTo f env false (exp2Floor frac b k 8 (2 * k + 32)) (i - k) true
    | _ => invalid f

/-- Fraction bits of log2 y for bounds lo and hi of y in [1, 2) in units of 2^−w: repeated
squaring. None where the bounds leave a bit open. -/
def log2Go (w : Nat) : Nat → Nat → Nat → Nat → Option Nat
  | 0, _, _, acc => some acc
  | k + 1, lo, hi, acc =>
      let lo := (lo * lo) >>> w
      let hi := ((hi * hi) >>> w) + 1
      if 2 <<< w ≤ lo then log2Go w k (lo / 2) (hi / 2 + 1) (2 * acc + 1)
      else if hi < 2 <<< w then log2Go w k lo hi (2 * acc)
      else none

/-- The first k fraction bits of log2 of y/2^b in (1, 2). -/
def log2Frac (y b k : Nat) : Nat → Nat → Nat
  | 0, _ => 0
  | n + 1, w =>
      let z := y <<< (w - b)
      match log2Go w k z z 0 with
      | some r => r
      | none => log2Frac y b k n (2 * w)

def fpLog2 (f : Fmt) (env : Env) (a : Nat) : Nat × Flags :=
  match firstNan f [a] with
  | some r => r
  | none =>
    match f.val env.daz a with
    | .inf n => if n then invalid f else (f.infCode, 0)
    | .fin n m e =>
        if m = 0 then (f.signed true f.infCode, DZ)
        else if n then invalid f
        else
          let b := Nat.log2 m
          let i := e + b
          if m = 2 ^ b then
            if i = 0 then (0, 0) else roundTo f env (decide (i < 0)) i.natAbs 0
          else
            let k := 2 * f.m + 10
            let v := i * 2 ^ k + (log2Frac m b k 8 (3 * k + b + 16) : Int)
            if 0 ≤ v then roundTo f env false v.toNat (-k) true
            else roundTo f env true (v.natAbs - 1) (-k) true
    | _ => invalid f

/-! ### Conversions (R96) -/

/-- A number rounded to an integer in a mode, and whether it is inexact. -/
def toInt (rm : Rnd) (neg : Bool) (m : Nat) (e : Int) : Int × Bool :=
  if 0 ≤ e then (sgn neg (m <<< e.toNat), false)
  else
    let sh := (-e).toNat
    let n := m >>> sh
    let lo := m % 2 ^ sh
    let up := roundsUp rm neg (n % 2 == 1) lo (2 ^ sh / 2) false
    (sgn neg (if up then n + 1 else n), lo != 0)

/-- An integer's code in w bits. -/
def intCode (w : Nat) (v : Int) : Nat := (v % (2 ^ w : Int)).toNat

/-- The least and greatest integer of a type (R90). -/
def intRange (w : Nat) (sg : Bool) : Int × Int :=
  if sg then (-(2 ^ (w - 1) : Int), 2 ^ (w - 1) - 1) else (0, 2 ^ w - 1)

def fpToInt (w : Nat) (sg : Bool) (env : Env) (v : FV) : Nat × Flags :=
  let (lo, hi) := intRange w sg
  match v with
  | .nan .. => (0, NV)
  | .inf n => (intCode w (if n then lo else hi), NV)
  | .fin n m e =>
      let (x, nx) := toInt env.rm n m e
      if x < lo then (intCode w lo, NV)
      else if hi < x then (intCode w hi, NV)
      else (intCode w x, if nx then NX else 0)

/-- A NaN carried from one format to another, its payload at the top of the target's (R96). -/
def nanTo (src dst : Fmt) (neg : Bool) (pay : Nat) : Nat :=
  match dst.top with
  | .none => 0
  | .e4m3 => dst.signed neg (dst.signBit - 1)
  | .ieee =>
      let p := if src.top = .ieee then pay else 0
      let p := if src.m ≤ dst.m then p * 2 ^ (dst.m - src.m) else p / 2 ^ (src.m - dst.m)
      dst.signed neg (dst.infCode + (p ||| 2 ^ (dst.m - 1)))

/-- float to float (R96). -/
def fpToFp (src dst : Fmt) (env : Env) (code : Nat) : Nat × Flags :=
  match src.val env.daz code with
  | .fin n m e => roundTo dst env n m e
  | .inf n =>
      if dst.top = .ieee then (dst.signed n dst.infCode, 0) else (dst.signed n dst.maxCode, NV)
  | .nan n q p => (nanTo src dst n p, if !q || dst.top = .none then NV else 0)

/-- integer to float (R96). -/
def intToFp (dst : Fmt) (env : Env) (v : Int) (e : Int := 0) : Nat × Flags :=
  roundTo dst env (decide (v < 0)) v.natAbs e

/-- The integer in the low w bits of a code. -/
def codeInt (w : Nat) (sg : Bool) (c : Nat) : Int :=
  let u := c % 2 ^ w
  if sg && decide (2 ^ (w - 1) ≤ u) then (u : Int) - 2 ^ w else u

/-! ### MX blocks (R85, R97) -/

/-- What an MX element format is: a float, or MXINT8. -/
inductive MxFmt where
  | flt (f : Fmt)
  | int8
  deriving DecidableEq, Repr

def MxFmt.width : MxFmt → Nat
  | .flt f => f.w
  | .int8 => 8

/-- emax(fmt) of R97. -/
def MxFmt.emax : MxFmt → Int
  | .flt f => if f = fE5m2 then 15 else if f = fE4m3 then 8 else if f = fE3m2 then 4 else 2
  | .int8 => 0

/-- The value of an element (R85). -/
def MxFmt.val (x : MxFmt) (code : Nat) : FV :=
  match x with
  | .flt f => f.val false code
  | .int8 => let k := codeInt 8 true code; .fin (decide (k < 0)) k.natAbs (-6)

/-- One element of mx_quantise: x / 2^e rounded (R97). -/
def mxElem (x : MxFmt) (env : Env) (neg : Bool) (m : Nat) (e : Int) : Nat × Flags :=
  match x with
  | .flt f =>
      let (c, fl) := roundTo f env neg m e
      if fl &&& OF ≠ 0 then (f.signed neg f.maxCode, NX) else (c, fl)
  | .int8 =>
      let (k, nx) := toInt env.rm neg m (e + 6)
      if k < -128 then (intCode 8 (-128), NX)
      else if 127 < k then (127, NX)
      else (intCode 8 k, if nx then NX else 0)

/-- floor(log2 |x|) of a finite non-zero value. -/
def FV.log2 : FV → Option Int
  | .fin _ m e => if m = 0 then none else some (e + Nat.log2 m)
  | _ => none

/-- mx_quantise (R97) of 32 binary32 codes: the scale, the element codes and the flags. -/
def mxQuantise (x : MxFmt) (env : Env) (xs : List Nat) : Nat × List Nat × Flags :=
  let vs := xs.map (fF32.val env.daz)
  if vs.any fun v => match v with | .fin .. => false | _ => true then
    (0xFF, xs.map fun _ => 0, NV)
  else
    let top := vs.foldl (fun acc v => match v.log2, acc with
      | some l, some k => some (max l k)
      | some l, none => some l
      | none, k => k) (none : Option Int)
    let e0 : Int := match top with | none => -127 | some l => l - x.emax
    let e : Int := max (-127) (min 127 e0)
    let sat := if e ≠ e0 then SSAT else 0
    let r := vs.map fun v => match v with
      | .fin n m k => mxElem x env n m (k - e)
      | _ => (0, 0)
    ((e + 127).toNat, r.map (·.1), r.foldl (fun f q => f ||| q.2) sat)

/-- VDEQ's row of R96: an element with its scale, in binary32. -/
def mxDequant (x : MxFmt) (env : Env) (scale code : Nat) : Nat × Flags :=
  if scale = 0xFF then (fF32.nanCode, 0)
  else match x.val code with
    | .nan .. => (fF32.nanCode, 0)
    | .inf n => (fF32.signed n fF32.infCode, 0)
    | .fin n m e => roundTo fF32 env n m (e + scale - 127)

end Sys2Proof.Machine
end

