-- ==== Sys2Proof/Machine/Translate.lean ====
section
/-! DEFINITION. Pages and physical addresses (R160 to R165, R265), leases (R157), and virtual memory
as the lease translation store and the host's regions reach it. -/

namespace Sys2Proof.Machine

/-! ### Physical addresses -/

/-- Active package slices, ascending (R21, R164). -/
def State.slices (s : State) : List Nat := (List.range 48).filter fun n => !s.disabled.contains n

/-- The reserving slice of a die: its lowest active slice (R164). -/
def State.isReserving (s : State) (n : Nat) : Bool :=
  !s.disabled.contains n
    && (List.range 12).all fun k => decide (n ≤ n / 12 * 12 + k) || s.disabled.contains (n / 12 * 12 + k)

/-- Usable granules of a reserving slice (R164). -/
def cmin : Nat := 2 ^ 23 - 16384

/-- hbm_place (R164). -/
def State.hbmPlace (s : State) (pa : Nat) : Nat × Nat :=
  let a := s.slices
  let g := pa / 4096
  let (sl, ix) :=
    if g < a.length * cmin then (a.getD (g % a.length) 0, g / a.length)
    else
      let b := a.filter fun n => !s.isReserving n
      let t := g - a.length * cmin
      (b.getD (t % b.length) 0, cmin + t / b.length)
  (sl, ix * 4096 + pa % 4096)

/-- The HBM top (R164). -/
def State.hbmTop (s : State) : Nat :=
  let n := s.slices.length
  (n * cmin + (n - 4) * (2 ^ 23 - cmin)) * 4096

def cellarBase : Nat := 0x1000_0000_0000
def cellarTop : Nat := 0x1400_0000_0000
def remoteBase : Nat := 0x8_0000_0000_0000

def State.isHbm (s : State) (pa : Nat) : Bool := decide (pa < s.hbmTop)
def isCellar (pa : Nat) : Bool := decide (cellarBase ≤ pa) && decide (pa < cellarTop)
/-- The remote window (R163). -/
def isRemote (pa : Nat) : Bool := decide (remoteBase ≤ pa)

/-- The reserve of a die's reserving slice, 16,384 granules, as the service function's tables name it (R164, R266;
log 75, DESIGN CHOICE). -/
def State.isReserve (s : State) (die pa : Nat) : Bool :=
  let g := Config.reserveGranule die
  decide (g * 4096 ≤ pa) && decide (pa < (g + 16384) * 4096) && !s.isHbm pa && !isCellar pa && !isRemote pa

/-- A physical address that the map gives to something (R163), or one of a die's reserve. -/
def State.paValid (s : State) (pa : Nat) : Bool :=
  s.isHbm pa || isCellar pa || isRemote pa || [0, 1, 2, 3].any fun d => s.isReserve d pa

/-- The home die of an address (R163, R187). -/
def State.homeDie (s : State) (pa : Nat) : Nat :=
  if s.isHbm pa then (s.hbmPlace pa).1 / 12 else if isCellar pa then pa / 4096 % 4
  else ([1, 2, 3].find? fun d => s.isReserve d pa).getD 0

/-- The place of a byte: its physical address, and in the remote window its package with it. -/
def globalAddr (pkg pa : Nat) : Nat := if isRemote pa then 2 ^ 52 * (pkg + 1) + pa else pa

/-! ### Pages -/

/-- A range lies in a function's allotment (R265): each 2 MiB piece of it in one of the ranges. -/
def inAllot (al : List (Nat × Nat)) (lo len : Nat) : Bool :=
  let covered (a : Nat) : Bool := al.any fun r => decide (r.1 ≤ a) && decide (a < r.1 + r.2)
  decide (0 < len) && (List.range ((lo + len - 1) / 2 ^ 21 - lo / 2 ^ 21 + 1)).all fun k =>
    covered (max lo ((lo / 2 ^ 21 + k) * 2 ^ 21))

/-- Index bits of a table level (R265): shift and count of entries. -/
def levelShift : Nat → Nat
  | 0 => 48 | 1 => 39 | 2 => 30 | 3 => 21 | _ => 12
def levelCount : Nat → Nat
  | 0 => 256 | _ => 512

/-- A page size that a leaf at a level may have (R265). -/
def leafSizeOk (level psize : Nat) : Bool :=
  match level with
  | 2 => psize == 3
  | 3 => psize == 2
  | 4 => psize == 0 || psize == 1
  | _ => false

def bitsOf (e : Word) (lo n : Nat) : Nat := (e.extractLsb' lo n).toNat

/-- The first byte of a leaf's frame, and its other fields as numbers (R160). -/
def Leaf.frame (l : Leaf) : Nat := l.fppn.toNat * 4096
def Leaf.psize (l : Leaf) : Nat := l.psz.toNat
def Leaf.lc (l : Leaf) : Nat := l.lcv.toNat
def Leaf.aclass (l : Leaf) : Nat := l.acl.toNat
def Leaf.hpkg (l : Leaf) : Nat := l.home.toNat

/-- The package that a HOME index names; entry 0 is the package itself. The home table lies in the allotment (R161,
R265). -/
def State.homePkg (s : State) (al : List (Nat × Nat)) (homet home : Nat) : Option (BitVec 17) :=
  if home = 0 then some s.pkg
  else if inAllot al homet 8192 then some (.ofNat 17 (leVal (s.memBytes (homet + 4 * home) 4)))
  else none

/-- Atomics that the path to a frame carries, of an entry's ACLASS: none of floating point to the cellar, and beyond the
package, which the package cannot tell from host memory, AMOs and CAS of 64 bits at most (R165, R241). -/
def aclassAt (frame : Nat) (acl : BitVec 4) : BitVec 4 :=
  if isRemote frame then acl &&& 0x3 else if isCellar frame then acl &&& 0xB else acl

/-- A leaf entry checked (R160, R265). -/
def State.leafOf (s : State) (al : List (Nat × Nat)) (homet slot level : Nat) (e : Word) :
    Option Leaf :=
  let ps := bitsOf e 51 2
  let frame := bitsOf e 11 40 * 4096
  let size := pageBytes ps
  let first := if ps = 1 then slot / 128 * 128 else slot
  let twins := ps != 1 || (List.range 16).all fun k => s.mem64 (first + 8 * k) == e
  let placed := isRemote frame || (s.paValid frame && s.paValid (frame + size - 1)
    && inAllot al frame size)
  if leafSizeOk level ps && frame % size == 0 && twins && placed then
    (s.homePkg al homet (bitsOf e 0 11)).map fun home =>
      { slot := first, fppn := e.extractLsb' 11 40, psz := e.extractLsb' 51 2, w := e.getLsbD 61, x := e.getLsbD 60
        cow := e.getLsbD 59, lcv := e.extractLsb' 57 2, home
        acl := aclassAt frame (e.extractLsb' 53 4) }
  else none

/-- The walk from a table down the remaining levels (R265). -/
def State.walkFrom (s : State) (al : List (Nat × Nat)) (homet va : Nat) :
    List Nat → Nat → Option Leaf
  | [], _ => none
  | lv :: rest, table =>
      let slot := table + 8 * (va / 2 ^ levelShift lv % levelCount lv)
      let e := s.mem64 slot
      if !inAllot al table 4096 || !e.getLsbD 63 then none
      else if e.getLsbD 62 then s.leafOf al homet slot lv e
      else if bitsOf e 51 11 == 0 && bitsOf e 0 11 == 0 then
        s.walkFrom al homet va rest (bitsOf e 11 40 * 4096)
      else none

/-- The entry's X bit of an address whose leaf is reached, valid or not; true where the walk reaches none (R251). -/
def State.entryX (s : State) (va : Nat) : List Nat → Nat → Bool
  | [], _ => true
  | lv :: rest, table =>
      let e := s.mem64 (table + 8 * (va / 2 ^ levelShift lv % levelCount lv))
      if e.getLsbD 63 && e.getLsbD 62 then e.getLsbD 60
      else if e.getLsbD 63 then s.entryX va rest (bitsOf e 11 40 * 4096)
      else true

/-- What a function's tables may map: its allotment, and for the service function, which has none, what the trivet maps
there, any address (R265, R266; log 75, DESIGN CHOICE). -/
def allotOf (vf : Nat) (f : Vf) : List (Nat × Nat) := if vf = 64 then [(0, 2 ^ 52)] else f.allot

/-- The valid leaf of an address in a function's tables; none where the page is not valid. -/
def State.walk (s : State) (vf va : Nat) : Option Leaf :=
  match s.vf vf with
  | none => none
  | some f =>
      if va < 2 ^ 56 then s.walkFrom (allotOf vf f) f.homet.toNat va [0, 1, 2, 3, 4] f.ptroot.toNat
      else none

/-- A leaf whose frame can be reached: in the remote window its HOME names another package, which can be reached
(R161, R209; log 101, DESIGN CHOICE). -/
def Leaf.reachable (l : Leaf) (pkg : Nat) : Bool :=
  !isRemote l.frame || (l.hpkg != pkg && Config.packageReachable l.hpkg)

/-- The place of a virtual byte under its leaf. -/
def Leaf.place (l : Leaf) (va : Nat) : Nat := globalAddr l.hpkg (l.frame + va % pageBytes l.psize)

/-! ### Leases -/

/-- Lease entries that hold an address: every page of the service function counts as leased with
W and X as its tables say (R266). -/
def State.leasesAt (s : State) (vf va : Nat) : List Lease :=
  if vf = 64 then [⟨0, 2 ^ 56, true, true⟩]
  else match s.vf vf with
    | some f => (f.job.elim [] (·.leases)).filter fun l => decide (l.start ≤ va) && decide (va < l.start + l.len)
    | none => []

/-- An address lies in a lease of the running job (R157). -/
def State.leased (s : State) (vf va : Nat) : Bool := !(s.leasesAt vf va).isEmpty
/-- Writes are leased where some entry that holds the address has W (R155, R157; log 112, DESIGN CHOICE). -/
def State.leasedW (s : State) (vf va : Nat) : Bool := (s.leasesAt vf va).any (·.w)
def State.leasedX (s : State) (vf va : Nat) : Bool := (s.leasesAt vf va).any (·.x)

/-! ### The lease translation store (R155, R157) -/

/-- The page of a list that holds an address. -/
def pageIn (l : List (Nat × Leaf)) (va : Nat) : Option Leaf :=
  (l.find? fun p => decide (p.1 ≤ va) && decide (va < p.1 + pageBytes p.2.psize)).map (·.2)

/-- The pages of a range, walked one after another; none where one is not valid or cannot be reached. -/
def State.pagesOf (s : State) (vf hi : Nat) : Nat → Nat → Option (List (Nat × Leaf))
  | 0, _ => some []
  | n + 1, va =>
      if hi ≤ va then some []
      else match s.walk vf va with
        | none => none
        | some l =>
            let base := va / pageBytes l.psize * pageBytes l.psize
            if l.reachable s.pkg.toNat then (s.pagesOf vf hi n (base + pageBytes l.psize)).map ((base, l) :: ·)
            else none

/-- The translations that a function's running job holds. -/
def State.lts (s : State) (vf : Nat) : List (Nat × Leaf) :=
  ((s.vf vf).bind (·.job)).elim [] (·.lts)

/-- The state in which translations that a shootdown has taken away stand before those that the job holds (R159). -/
def State.under (s : State) (vf : Nat) (old : List (Nat × Leaf)) : State :=
  if old.isEmpty then s
  else s.modVf vf fun v => { v with job := v.job.map fun j => { j with lts := old ++ j.lts } }

/-- An address translated: a leased page as the lease translation store holds it, any other through the tables
(R155, R265). -/
def State.xlate (s : State) (vf va : Nat) : Option Leaf :=
  if vf != 64 && s.leased vf va then pageIn (s.lts vf) va else s.walk vf va

/-! ### Virtual bytes -/

/-- The place of a virtual byte under a translation, where its page is valid and can be reached. -/
def placeBy (tr : Nat → Option Leaf) (pkg va : Nat) : Option Nat :=
  match tr va with
  | some l => if l.reachable pkg then some (l.place va) else none
  | none => none

/-- The places of n virtual bytes; each 4 KiB is translated once. -/
def placesGo (tr : Nat → Option Leaf) (pkg : Nat) : Nat → Nat → Option Nat → Option (List Nat)
  | 0, _, _ => some []
  | n + 1, va, base =>
      let b := if va % 4096 = 0 then placeBy tr pkg va else base
      match b with
      | none => none
      | some p => (placesGo tr pkg n (va + 1) (some (p + 1))).map (p :: ·)

def placesBy (tr : Nat → Option Leaf) (pkg va n : Nat) : Option (List Nat) :=
  placesGo tr pkg n va (placeBy tr pkg va)

def State.vplace (s : State) (vf va : Nat) : Option Nat := placeBy (s.xlate vf) s.pkg.toNat va

def State.vplaces (s : State) (vf va n : Nat) : Option (List Nat) := placesBy (s.xlate vf) s.pkg.toNat va n

/-- n virtual bytes, where every page is valid. -/
def State.vread (s : State) (vf va n : Nat) : Option (List Byte) :=
  (s.vplaces vf va n).map fun ps => ps.map fun p => cget s.mem p

/-- Bytes put at places, one after another. -/
def State.putPlaces (s : State) (ps : List Nat) (b : List Byte) : State :=
  { s with mem := (ps.zip b).foldl (fun m x => cset m x.1 x.2) s.mem }

/-- Virtual bytes written, where every page is valid. -/
def State.vwrite (s : State) (vf va : Nat) (b : List Byte) : Option State :=
  (s.vplaces vf va b.length).map fun ps => s.putPlaces ps b

/-- A write to a page that the leases keep mapped; where it is not mapped nothing is written. -/
def State.vput (s : State) (vf va : Nat) (b : List Byte) : State := (s.vwrite vf va b).getD s

def State.vread64 (s : State) (vf va : Nat) : Word :=
  BitVec.ofNat 64 (((s.vread vf va 8).map leVal).getD 0)

/-! ### Handles -/

/-- The latency class that TRANS gives (R162). -/
def State.lcOf (s : State) (core : Nat) (l : Leaf) : Nat :=
  if isRemote l.frame || l.lc == 0 then 0
  else
    let loc := if isCellar l.frame then 3
      else if l.psize == 0 && s.homeDie l.frame == dieOf core then 1 else 2
    max l.lc loc

/-- The bound of a latency class (R162). -/
def lcBound : Nat → Option Nat
  | 1 => some 600 | 2 => some 900 | 3 => some 2400 | _ => none

/-- The handle that TRANS writes for an address (R155, R72). -/
def State.handleOf (s : State) (core vf va : Nat) (l : Leaf) : Handle :=
  let vpn := va / pageBytes l.psize * (pageBytes l.psize / 4096)
  let b (x : Bool) (k : Nat) : Nat := if x then 2 ^ k else 0
  BitVec.ofNat 128 (vpn % 2 ^ 44 * 2 ^ 84 + l.frame / 4096 % 2 ^ 40 * 2 ^ 44 + l.psize * 2 ^ 42
    + s.lcOf core l * 2 ^ 40 + l.aclass * 2 ^ 36 + b (l.w && s.leasedW vf va) 35 + b l.x 34 + b l.cow 33
    + b true 32 + l.hpkg * 2 ^ 15 + (if isRemote l.frame then 0 else s.homeDie l.frame) * 2 ^ 13)

/-- The physical address of a byte offset of the handle's page. -/
def Handle.pa (h : Handle) (off : Nat) : Nat := Handle.field h 44 40 * 4096 + off
/-- The place of a byte offset of the handle's page. -/
def Handle.place (h : Handle) (off : Nat) : Nat := globalAddr (Handle.field h 15 17) (Handle.pa h off)

/-- HANDLE_STALE's EINFO (R159). -/
def staleInfo (n : Fin 16) (h : Handle) : Word := BitVec.ofNat 64 (Handle.va h + n.val)

/-- LEASE_BREACH's EINFO (R158). -/
def breachInfo (reason : Nat) (va : Nat) : Word := BitVec.ofNat 64 (reason * 2 ^ 56 + va % 2 ^ 56)

end Sys2Proof.Machine
end

