-- ==== Sys2Proof/Machine/Operands.lean ====
section
/-! DEFINITION. Operand forms: the address forms of memory words (R152 to R154, R316), the checks of
an access at issue (R154, R158, R166, R178), and how bytes are read and stored there. -/

namespace Sys2Proof.Machine

/-! ### Buffers -/

/-- Who has a buffer of a row; none listed is held by its home core (R166). -/
def State.holdOf (s : State) (row strip buf : Nat) : Hold :=
  (aget (s.row row).holds (strip * 64 + buf)).getD (.held strip)

/-- A core holds a buffer of a strip of its row (R166). -/
def State.holds (s : State) (core strip buf : Nat) : Bool :=
  s.holdOf (rowOf core) strip buf == .held (stripOf core)

def State.setHold (s : State) (row strip buf : Nat) (h : Hold) : State :=
  s.modRow row fun r => { r with holds := aset r.holds (strip * 64 + buf) h }

/-- BUF_OWNER's EINFO (R169). -/
def ownerInfo (reason strip buf : Nat) : Word :=
  BitVec.ofNat 64 (reason * 2 ^ 10 + strip % 16 * 2 ^ 6 + buf % 64)

/-- The strip and buffer of a buffer handle (R166). -/
def bufStrip (h : Word) : Nat := bitsOf h 6 4
def bufNum (h : Word) : Nat := bitsOf h 0 6
/-- A handle with reserved bits set, or a strip of 12 or above (R166, R167). -/
def bufBad (h : Word) : Bool := bitsOf h 10 54 != 0 || decide (12 ≤ bufStrip h)

/-- BUF_OWNER reason 0 for the first buffer of an own range that the core does not hold (R166). -/
def State.ownHeld (s : State) (lo len : Nat) : Verdict :=
  if len = 0 then .go
  else
    let bs := (List.range ((lo + len - 1) / 65536 - lo / 65536 + 1)).map (lo / 65536 + ·)
    match bs.find? fun b => !s.holds s.cur (stripOf s.cur) b with
    | some b => .trap .bufOwner (ownerInfo 0 (stripOf s.cur) b)
    | none => .go

/-! ### Declared sets (R176 to R178) -/

def pStart (e : Word) : Nat := bitsOf e 0 22
def pLen (e : Word) : Nat := bitsOf e 23 23
def pStrip (e : Word) : Nat := bitsOf e 46 4
def pBuf (e : Word) : Nat := bitsOf e 50 6
def pDir (e : Word) : Bool := e.getLsbD 61
def pEng (e : Word) : Nat := bitsOf e 62 2

/-- The space an entry names: none for the core's own scratchpad, which entries for buffers of its
own strip name too, at their own offsets; and its range there (R177). -/
def entrySpace (strip : Nat) (e : Word) : Option (Nat × Nat) × Nat × Nat :=
  if pStrip e = 15 then (none, pStart e, pStart e + pLen e)
  else if pStrip e = strip then
    (none, pBuf e * 65536 + pStart e, pBuf e * 65536 + pStart e + pLen e)
  else (some (pStrip e, pBuf e), pStart e, pStart e + pLen e)

/-- The first position from pos below hi that no range covers. -/
def firstOut (rs : List (Nat × Nat)) (hi : Nat) : Nat → Nat → Option Nat
  | 0, _ => none
  | n + 1, pos =>
      if hi ≤ pos then none
      else match rs.find? fun r => decide (r.1 ≤ pos) && decide (pos < r.2) with
        | some r => firstOut rs hi n r.2
        | none => some pos

/-- PHASE_ESCAPE's EINFO (R178). -/
def escapeInfo (reason eng : Nat) (wr : Bool) (strip buf off : Nat) : Word :=
  BitVec.ofNat 64 (buf * 2 ^ 36 + reason * 2 ^ 32 + eng * 2 ^ 30 + (if wr then 2 ^ 29 else 0)
    + strip * 2 ^ 25 + off % 2 ^ 22)

/-- The check of R178 on len bytes from lo of the own scratchpad (sp none) or of a buffer. -/
def State.escape (s : State) (eng : Nat) (wr : Bool) (sp : Option (Nat × Nat)) (lo len : Nat) :
    Verdict :=
  let c := s.me
  let strip := stripOf s.cur
  let (st, bf) := sp.getD (15, 0)
  if !c.strict || len == 0 then .go
  else match c.phase with
    | none => .trap .phaseEscape (escapeInfo 1 eng wr st bf 0)
    | some es =>
        let (space, base) := match sp with
          | some (a, b) => if a = strip then (none, b * 65536) else (sp, 0)
          | none => (none, 0)
        let rs := (es.filter fun e => pEng e == eng && pDir e == wr).filterMap fun e =>
          let (k, a, b) := entrySpace strip e
          if k = space then some (a, b) else none
        match firstOut rs (base + lo + len) (es.length + 1) (base + lo) with
        | some p => .trap .phaseEscape (escapeInfo 0 eng wr st bf (p - base))
        | none => .go

/-- Engines of R176. -/
def engLsu : Nat := 0
def engMtx : Nat := 1
def engCpy : Nat := 2
def engGth : Nat := 3

/-- An own scratchpad range: holding, then the declared set. -/
def State.ownOk (s : State) (eng : Nat) (wr : Bool) (lo len : Nat) : Verdict :=
  (s.ownHeld lo len).and (s.escape eng wr none lo len)

/-- A range that passes the scratchpad's 4 MiB end. -/
def pastScr (lo len : Nat) : Bool := decide (2 ^ 22 < lo + len)

/-! ### Address forms -/

def alignDown (a n : Nat) : Nat := a / n * n

/-- Offset of a [scr + sX + imm] operand (R153). -/
def State.scrOff (s : State) (x : Fin 32) (imm size : Nat) : Nat :=
  alignDown ((s.rs x).toNat + imm) size % 2 ^ 22

/-- Where an operand lies: the own scratchpad, another core's, or a handle's page. -/
inductive Place where
  | here (off : Nat)
  | there (core off : Nat)
  | mem (n : Fin 16) (off : Nat)
  deriving DecidableEq, Repr

/-- The core of a strip of the executing core's row. -/
def State.rowCore (s : State) (strip : Nat) : Nat := rowOf s.cur * 12 + strip

/-- Where a [buf sX + imm] operand lies (R153, R166). -/
def State.bufPlace (s : State) (x : Fin 32) (imm size : Nat) : Place :=
  let h := s.rs x
  let off := bufNum h * 65536 + alignDown imm size % 65536
  if bufStrip h = stripOf s.cur then .here off else .there (s.rowCore (bufStrip h)) off

def State.hreg (s : State) (n : Fin 16) : Handle := s.src.h[n]

/-- Offset within its page of a [hN + sX + imm] operand (R154). -/
def State.pageOff (s : State) (n : Fin 16) (x : Fin 32) (imm size : Nat) : Nat :=
  alignDown (((s.rs x).toNat + imm) % pageBytes (Handle.psize (s.hreg n))) size

/-- The place of a memory operand whose access is size bytes; immediates count unit bytes. -/
def State.place (s : State) (a : Addr) (unit size : Nat) : Place :=
  match a with
  | .scr x i => .here (s.scrOff x (i.toNat * unit) size)
  | .buf x i => s.bufPlace x (i.toNat * unit) size
  | .hnd n x i => .mem n (s.pageOff n x (i.toNat * unit) size)

/-- The checks of a handle access at issue (R154, R158); a frame that names nothing stops the
machine. -/
def State.handleOk (s : State) (n : Fin 16) (off : Nat) (wr : Bool) : Verdict :=
  let h := s.hreg n
  if !Handle.valid h then .trap .handleStale (staleInfo n h)
  else if wr && !Handle.canW h then .trap .leaseBreach (breachInfo 1 (Handle.va h + off))
  else if !s.paValid (Handle.pa h off) then .stop (.unmappedPhysical (Handle.pa h off))
  else .go

/-- The checks of a buffer operand: its handle, holding, the declared set (R166, R169, R178). -/
def State.bufOk (s : State) (x : Fin 32) (off len eng : Nat) (wr : Bool) : Verdict :=
  let h := s.rs x
  if bufBad h then .trap .bufOwner (ownerInfo 2 (bufStrip h) (bufNum h))
  else if !s.holds s.cur (bufStrip h) (bufNum h) then
    .trap .bufOwner (ownerInfo 0 (bufStrip h) (bufNum h))
  else s.escape eng wr (some (bufStrip h, bufNum h)) off len

/-- The issue checks of a load or store of size bytes (R376, R413). -/
def State.accessOk (s : State) (a : Addr) (unit size : Nat) (wr : Bool) : Verdict :=
  match a with
  | .scr x i => s.ownOk engLsu wr (s.scrOff x (i.toNat * unit) size) size
  | .buf x i => s.bufOk x (alignDown (i.toNat * unit) size % 65536) size engLsu wr
  | .hnd n x i => s.handleOk n (s.pageOff n x (i.toNat * unit) size) wr

/-! ### Reading and storing -/

/-- The youngest queued store of the core that holds a byte (R186). -/
def queued (ops : List Op) (ga : Nat) : Option Byte :=
  ops.foldl (fun acc o => match o.what with
    | .store a bs => if a ≤ ga then (match bs[ga - a]? with | some b => some b | none => acc) else acc
    | _ => acc) none

/-- Where the bytes of a load from a handle come from: the store queue as it stands at issue, or
the target (R186). A store that a pending check holds back has not been made yet (R245). -/
def State.memSrc (s : State) (ga n : Nat) : List Src :=
  let ops := s.myCore.ops.filter fun o => !s.opHeld s.cur o
  (List.range n).map fun k => match queued ops (ga + k) with
    | some b => .known b
    | none => .place (.mem (ga + k))

/-- The same for a load from another core's buffer. -/
def bufSrc (core off n : Nat) : List Src := (List.range n).map fun k => .place (.scr core (off + k))

/-- A value of w bits from little-endian bytes. -/
def ofLe (w : Nat) (b : List Byte) : BitVec w := BitVec.ofNat w (leVal b)

/-- The little-endian bytes of a value. -/
def toLe {w : Nat} (v : BitVec w) : List Byte := leBytes (w / 8) v.toNat

def stySize : STy → Nat
  | .i8 | .n8 => 1 | .i16 | .n16 => 2 | .i32 | .n32 => 4 | .i64 | .n64 => 8

/-- The value that a scalar load writes: sign-extended for TY 0 to 3, else zero-extended (R375). -/
def styExtend (t : STy) (v : Nat) : Word :=
  match t with
  | .i8 => (BitVec.ofNat 8 v).signExtend 64
  | .i16 => (BitVec.ofNat 16 v).signExtend 64
  | .i32 => (BitVec.ofNat 32 v).signExtend 64
  | .n8 => BitVec.ofNat 64 (v % 2 ^ 8)
  | .n16 => BitVec.ofNat 64 (v % 2 ^ 16)
  | .n32 => BitVec.ofNat 64 (v % 2 ^ 32)
  | .i64 | .n64 => BitVec.ofNat 64 v

/-- Fence kinds by their bit (R188). -/
def kLd : BitVec 8 := 1
def kSt : BitVec 8 := 2
def kCr : BitVec 8 := 4
def kCw : BitVec 8 := 8
def kMr : BitVec 8 := 16
def kMw : BitVec 8 := 32
def kGr : BitVec 8 := 64
def kGw : BitVec 8 := 128

/-- LDTX's value from its lines of 128 elements of z bytes: element c of lane i is element i of
line c (R378). -/
def ldtxTile (z : Nat) (bytes : List Byte) : Tile :=
  let b := bytes.toArray
  let el (i c : Nat) : List Byte := (List.range z).map fun k => b.getD (c * 128 * z + z * i + k) 0
  ofLe 16384 ((List.range 128).flatMap fun i => (List.range (16 / z)).flatMap fun c => el i c)

/-- The scale queue with a reserved place filled (R411). -/
def fillScale (q : List (Nat × Option (BitVec 1536))) (slot : Nat) (b : List Byte) :
    List (Nat × Option (BitVec 1536)) :=
  q.map fun (k, v) => if k = slot then (k, some (ofLe 1536 b)) else (k, v)

/-- A load's bytes written to their destination by operation id (R375, R378, R411). -/
def State.writeLoad (s : State) (core : Nat) (ctx : Fin 4) (id : Nat) (dst : LoadTo) (b : List Byte) : State :=
  match dst with
  | .s d ty => s.modCtx core ctx fun c => c.landOp id fun r => r.ws d (styExtend ty (leVal b))
  | .v d => s.modCtx core ctx fun c => c.landOp id fun r => r.wv d (ofLe 2048 b)
  | .t d => s.modCtx core ctx fun c => c.landOp id fun r => r.wt d (ofLe 16384 b)
  | .tx d sz => s.modCtx core ctx fun c => c.landOp id fun r => r.wt d (ldtxTile (2 ^ sz.val) b)
  | .scale slot => s.modCore core fun c => c.mapArr fun a => { a with queue := fillScale a.queue slot b }

/-- The register that a load's destination locks. -/
def LoadTo.locks : LoadTo → List RegName
  | .s d _ => if d = 0 then [] else [.s d]
  | .v d => [.v d]
  | .t d | .tx d _ => [.t d]
  | .scale _ => []

/-- Written at issue, held by the scoreboard until its writeback (R10): a local load. -/
def State.writeLoadNow (s : State) (dst : LoadTo) (b : List Byte) : State :=
  match dst with
  | .s d ty => s.wr fun r => r.ws d (styExtend ty (leVal b))
  | .v d => s.wr fun r => r.wv d (ofLe 2048 b)
  | .t d => s.wr fun r => r.wt d (ofLe 16384 b)
  | .tx d sz => s.wr fun r => r.wt d (ldtxTile (2 ^ sz.val) b)
  | .scale slot => s.modMyCore fun c =>
      { c with arr := { c.arr with queue := fillScale c.arr.queue slot b } }

/-- A local load: it reads in its issue cycle and retires lat cycles later (R376, R181). -/
def State.loadHere (s : State) (dst : LoadTo) (b : List Byte) (lat : Nat) : State :=
  (s.writeLoadNow dst b).issueOp (some .ld) kLd [] dst.locks .settled (s.cycle + lat)
    (.loadWriteback s.cur)

/-- A load whose bytes arrive later (R183, R376): from memory, or from another core's buffer, where
REMOTE_BUFFER_ACCESS serves it. -/
def State.loadFar (s : State) (dst : LoadTo) (src : List Src) (due : Nat) (buf : Bool) : State :=
  (s.issueOp (some .ld) kLd [] dst.locks (.load dst src) due
    (if buf then .remoteBufferAccess s.cur else .loadWriteback s.cur)).dropDelay

/-- A load of n bytes at a place. -/
def State.loadAt (s : State) (p : Place) (dst : LoadTo) (n lat : Nat) : State :=
  match p with
  | .here off => s.loadHere dst (s.scrBytes s.cur off n) lat
  | .there core off => s.loadFar dst (bufSrc core off n) (s.cycle + s.latency none) true
  | .mem h off =>
      let hd := s.hreg h
      s.loadFar dst (s.memSrc (Handle.place hd off) n) (s.cycle + s.latency (lcBound (Handle.lc hd))) false

/-- Bytes that the executing word writes to its own scratchpad, with a full/empty bit. Where they meet the destination
of an operation in flight, which is then of its own bundle, they are held until that has retired; where they meet a
source, until the next cycle, since the operation has read at its issue (R182, log 9, DESIGN CHOICE); and while a check
of its bundle is pending, until that has passed (R245, log 94, DESIGN CHOICE). -/
def State.writeCells (s : State) (bs : List (Nat × Byte)) (mark : Option (Nat × Nat × Bool)) : State :=
  let meets (wr : Bool) (o : Op) : Bool :=
    o.ranges.any fun r => r.wr == wr && bs.any fun b => decide (r.lo ≤ b.1) && decide (b.1 < r.hi)
  let h : Held :=
    { ops := (s.myCore.ops.filter (meets true)).map (·.id), store := s.nextOp, ctx := s.cix, bytes := bs, mark
      till := if s.myCore.ops.any (meets false) then s.cycle + 1 else s.cycle, check := s.me.undo.isSome }
  s.modMyCore fun c => if h.free s.cycle then c.putHeld h else { c with held := c.held ++ [h] }

/-- The same of consecutive bytes. -/
def State.writeHere (s : State) (off : Nat) (b : List Byte) (mark : Option (Nat × Nat × Bool)) : State :=
  s.writeCells (b.zipIdx.map fun (v, k) => (off + k, v)) mark

/-- A local store, which may mark its word full. -/
def State.storeHere (s : State) (off : Nat) (b : List Byte) (full : Option Nat) : State :=
  s.writeHere off b (full.map fun w => (w, 1, true))

/-- A store of bytes at a place (R412, R413): st counts it until it performs. -/
def State.storeAt (s : State) (p : Place) (b : List Byte) : State :=
  match p with
  | .here off =>
      (s.storeHere off b none).issueOp (some .st) kSt [] [] .settled (s.cycle + 1) (.storePerform s.cur)
  | .there core off =>
      (s.issueOp (some .st) kSt [] [] (.bufStore core off b) (s.cycle + s.latency none)
        (.remoteBufferAccess s.cur)).dropDelay
  | .mem h off =>
      let hd := s.hreg h
      (s.issueOp (some .st) kSt [] [] (.store (Handle.place hd off) b)
        (s.cycle + s.latency (lcBound (Handle.lc hd))) (.storePerform s.cur)).dropDelay

end Sys2Proof.Machine
end

