-- ==== Sys2Proof/Machine/Flags.lean ====
section
/-! DEFINITION. Flags and conditions: the condition codes of scalar compares (R337), what the flags a
word raises lead to (R95), and the predicates a loop stage sees (R384). -/

namespace Sys2Proof.Machine

/-- A condition on two 64-bit values, unsigned or signed (R337, R362). -/
def condHolds (cc : Cond) (u : Bool) (a b : Word) : Bool :=
  match cc with
  | .eq => a == b
  | .ne => a != b
  | .lt => if u then a.ult b else a.slt b
  | .le => if u then a.ule b else a.sle b
  | .gt => if u then b.ult a else b.slt a
  | .ge => if u then b.ule a else b.sle a

/-- The trap enables in FPFLG's order (R78). -/
def tenOf (fpctl : BitVec 16) : BitVec 7 := fpctl.extractLsb' 8 7

/-- A word that raises an enabled flag traps FP_TRAP (R95). -/
def State.fpOk (s : State) (fl : Flags) : Verdict :=
  if fl &&& tenOf s.src.fpctl ≠ 0 then .fp fl else .go

/-- Flags that the executing word raises are ORed into FPFLG (R95). -/
def State.raise (s : State) (fl : Flags) : State := s.wr fun r => r.orFlags fl

/-- Flags that a fold or an MDRAIN retires into the holder; an enabled one makes FP_TRAP pending at
its next bundle (R95, R116). The TEN is that of the FPCTL under which the fold or the MDRAIN rounds (R80; log 82,
DEDUCED); of several retirements before that bundle, RAISED is the OR of those that carry an enabled flag (R95; log 83,
DEDUCED). -/
def Ctx.landFlags (c : Ctx) (fl : Flags) (ten : BitVec 7) : Ctx :=
  let c := c.landArr fun r => r.orFlags fl
  if fl &&& ten ≠ 0 then { c with landFp := some (c.landFp.getD 0 ||| fl) } else c

/-- A context holds a task that arrived at the BAR.x of a transfer phase: a phase context (R229). -/
def TransferPhase.holds (p : TransferPhase) (c : Ctx) : Bool :=
  c.task && !c.spwn && c.vf == p.vf && p.members.contains c.logical

/-- A context is a phase context of a transfer phase of its row (R229). -/
def State.phaseCtx (s : State) (core : Nat) (ix : Fin 4) : Bool :=
  (s.row (rowOf core)).phase.any fun p => p.holds (s.ctx core ix)

/-- The executing context is one. -/
def State.inTransfer (s : State) : Bool := s.phaseCtx s.cur s.cix

/-- R229 for a VEC or MTX word: ILL_MOD in a phase context, and a stall in another context of a core
that has one. -/
def State.transferOk (s : State) : Verdict :=
  if s.inTransfer then s.illMod else waitIf (allCtx.any fun i => s.phaseCtx s.cur i)

/-- The predicate of stage s in kernel pass j of n stages and c iterations (R384). -/
def stagePred (n c j st : Nat) : Bool := decide (st < n) && decide (st ≤ j) && decide (j - st < c)

/-- p8 to p15 at the start of a kernel pass. -/
def Regs.setStages (r : Regs) (f : Nat → Bool) : Regs :=
  [0, 1, 2, 3, 4, 5, 6, 7].foldl (fun r k => r.wp (Fin.ofNat 16 (8 + k)) (f k)) r

end Sys2Proof.Machine
end

