-- ==== Sys2Proof/Machine/Scalar.lean ====
section
/-! DEFINITION. The scalar arithmetic words of class SCL (R353, R354, R362, R379, R392, R399, R405). -/

namespace Sys2Proof.Machine

abbrev Res := Host.Outcome State Fault Refusal

/-- A scalar result, ready lat cycles after issue (R353). -/
def State.putS (s : State) (d : Fin 32) (v : Word) (lat : Nat := 1) : State :=
  let t := s.wr fun r => r.ws d v
  if lat ≤ 1 ∨ d = 0 then t else t.readyIn (.s d) lat

/-- A predicate result, ready in the next cycle (R362). -/
def State.putP (s : State) (d : Fin 16) (v : Bool) : State := s.wr fun r => r.wp d v

/-- The signed value of a register. -/
def toI (u : Bool) (v : Word) : Int := if u then (v.toNat : Int) else v.toInt

/-- ADD (R353). -/
def execAdd (d a b : Fin 32) (s : State) : Res := .next (s.putS d (s.rs a + s.rs b))

/-- SUB (R353). -/
def execSub (d a b : Fin 32) (s : State) : Res := .next (s.putS d (s.rs a - s.rs b))

/-- MUL (R353). -/
def execMul (d a b : Fin 32) (s : State) : Res := .next (s.putS d (s.rs a * s.rs b) 3)

/-- MULH: bits [127:64] of the exact product (R353). -/
def mulHigh (u : Bool) (a b : Word) : Word := BitVec.ofInt 64 ((toI u a * toI u b) / 2 ^ 64)

def execMulh (d a b : Fin 32) (u : Bool) (s : State) : Res :=
  .next (s.putS d (mulHigh u (s.rs a) (s.rs b)) 3)

/-- DIV and REM trap INT_DIV0 on a zero divisor (R353). -/
def State.divOk (s : State) (b : Fin 32) : Verdict := trapIf (s.rs b == 0) .intDiv0 0

/-- a ÷ b truncated toward 0 (R353). -/
def divTrunc (u : Bool) (a b : Word) : Word := BitVec.ofInt 64 ((toI u a).tdiv (toI u b))
def remTrunc (u : Bool) (a b : Word) : Word := BitVec.ofInt 64 ((toI u a).tmod (toI u b))

/-- DIV (R353). -/
def execDiv (d a b : Fin 32) (u : Bool) (s : State) : Res :=
  s.guard (s.divOk b) fun s => s.putS d (divTrunc u (s.rs a) (s.rs b)) 24

/-- REM (R353). -/
def execRem (d a b : Fin 32) (u : Bool) (s : State) : Res :=
  s.guard (s.divOk b) fun s => s.putS d (remTrunc u (s.rs a) (s.rs b)) 24

def execAnd (d a b : Fin 32) (s : State) : Res := .next (s.putS d (s.rs a &&& s.rs b))
def execOr (d a b : Fin 32) (s : State) : Res := .next (s.putS d (s.rs a ||| s.rs b))
def execXor (d a b : Fin 32) (s : State) : Res := .next (s.putS d (s.rs a ^^^ s.rs b))
def execAndn (d a b : Fin 32) (s : State) : Res := .next (s.putS d (s.rs a &&& ~~~(s.rs b)))

/-- Shifts take their count modulo 64 (R353). -/
def execShl (d a b : Fin 32) (s : State) : Res :=
  .next (s.putS d (s.rs a <<< ((s.rs b).toNat % 64)))
def execShr (d a b : Fin 32) (s : State) : Res :=
  .next (s.putS d (s.rs a >>> ((s.rs b).toNat % 64)))
def execSra (d a b : Fin 32) (s : State) : Res :=
  .next (s.putS d ((s.rs a).sshiftRight ((s.rs b).toNat % 64)))

/-- MIN and MAX, signed or unsigned (R353). -/
def execMin (d a b : Fin 32) (u : Bool) (s : State) : Res :=
  .next (s.putS d (if condHolds .le u (s.rs a) (s.rs b) then s.rs a else s.rs b))
def execMax (d a b : Fin 32) (u : Bool) (s : State) : Res :=
  .next (s.putS d (if condHolds .le u (s.rs a) (s.rs b) then s.rs b else s.rs a))

/-- Leading zero bits, 0 to 64 (R353). -/
def clz (v : Word) : Nat := if v = 0 then 64 else 63 - Nat.log2 v.toNat

/-- Set bits, 0 to 64 (R353). -/
def popc (v : Word) : Nat := ((List.range 64).filter fun i => v.getLsbD i).length

def execClz (d a : Fin 32) (s : State) : Res := .next (s.putS d (BitVec.ofNat 64 (clz (s.rs a))))
def execPopc (d a : Fin 32) (s : State) : Res := .next (s.putS d (BitVec.ofNat 64 (popc (s.rs a))))

/-- ADDI (R354). -/
def execAddi (d a : Fin 32) (imm : BitVec 18) (s : State) : Res :=
  .next (s.putS d (s.rs a + imm.signExtend 64))

/-- LI (R379). -/
def execLi (d : Fin 32) (imm : BitVec 22) (s : State) : Res := .next (s.putS d (imm.signExtend 64))

/-- LIH (R379). -/
def execLih (d : Fin 32) (imm : BitVec 22) (s : State) : Res :=
  .next (s.putS d ((s.rs d <<< 22) + imm.zeroExtend 64))

/-- The value of a MOV operand (R392). -/
def State.movVal (s : State) : MovReg → Word
  | .s n => s.rs n
  | .b n => s.src.b[n]

/-- MOV (R392). -/
def execMov (d a : MovReg) (s : State) : Res :=
  match d with
  | .s n => .next (s.putS n (s.movVal a))
  | .b n => .next (s.wr fun r => r.wb n (s.movVal a))

/-- SEL (R405). -/
def execSel (d : Fin 32) (p : Fin 16) (a b : Fin 32) (s : State) : Res :=
  .next (s.putS d (if s.rp p then s.rs a else s.rs b))

/-- CMP (R362). -/
def execCmp (p : Fin 16) (a b : Fin 32) (cc : Cond) (u : Bool) (s : State) : Res :=
  .next (s.putP p (condHolds cc u (s.rs a) (s.rs b)))

/-- CMPI (R362). -/
def execCmpi (p : Fin 16) (a : Fin 32) (cc : Cond) (u : Bool) (imm : BitVec 15) (s : State) : Res :=
  .next (s.putP p (condHolds cc u (s.rs a) (imm.signExtend 64)))

/-- PLOG: bit 2·pA + pB of FN (R399). -/
def execPlog (d a b : Fin 16) (fn : BitVec 4) (s : State) : Res :=
  .next (s.putP d (fn.getLsbD (2 * (s.rp a).toNat + (s.rp b).toNat)))

end Sys2Proof.Machine
end

