-- ==== Sys2Proof/Machine/Control.lean ====
section
/-! DEFINITION. Control transfers, loops, BKSEL and NOP (R68, R69, R335 to R339, R358 to R361, R374,
R382 to R384, R395, R402, R406), and what happens when a bundle has executed. -/

namespace Sys2Proof.Machine

/-! ### Transfers -/

/-- A displacement's target (R335). -/
def State.dispTo {n : Nat} (s : State) (disp : BitVec n) : Word :=
  s.me.pc + (disp.signExtend 64 <<< 2)

/-- The running bundle transfers, or decides not to: its delay bundle comes next either way
(R359). -/
def State.transfer (s : State) (target : Word) (taken : Bool) : State :=
  s.modMe fun c => { c with xfer := some (target, taken) }

/-- BR (R360). -/
def execBr (neg : Bool) (p : Fin 16) (disp : BitVec 23) (s : State) : Res :=
  .next (s.transfer (s.dispTo disp) (s.rp p != neg))

/-- A branch tree (R338). -/
inductive BTree where
  | leaf
  | node (l r : BTree)
  deriving DecidableEq, Repr

def BTree.inner : BTree → Nat
  | .leaf => 0
  | .node l r => l.inner + r.inner + 1

def btX : BTree := .leaf
def bt1 : BTree := .node btX btX
def bt2a : BTree := .node btX bt1
def bt2b : BTree := .node bt1 btX
def bt3a : BTree := .node btX bt2a
def bt3b : BTree := .node btX bt2b
def bt3c : BTree := .node bt1 bt1
def bt3d : BTree := .node bt2a btX
def bt3e : BTree := .node bt2b btX

/-- The tree of a shape (R338). -/
def shapeTree : Fin 14 → BTree
  | 0 => .node btX bt3a | 1 => .node btX bt3b | 2 => .node btX bt3c | 3 => .node btX bt3d
  | 4 => .node btX bt3e | 5 => .node bt1 bt2a | 6 => .node bt1 bt2b | 7 => .node bt2a bt1
  | 8 => .node bt2b bt1 | 9 => .node bt3a btX | 10 => .node bt3b btX | 11 => .node bt3c btX
  | 12 => .node bt3d btX | 13 => .node bt3e btX

/-- btree_leaf (R339): i is the node's preorder index, k the number of its leftmost leaf. -/
def BTree.walk (test : Nat → Bool) : BTree → Nat → Nat → Nat
  | .leaf, _, k => k
  | .node l r, i, k =>
      if test i then l.walk test (i + 1) k else r.walk test (i + 1 + l.inner) (k + l.inner + 1)

/-- The leaf that a BTREE chooses (R339). -/
def State.btLeaf (s : State) (t0 t1 t2 t3 : Fin 16) (shape : Fin 14) (neg : BitVec 4) : Nat :=
  (shapeTree shape).walk (fun i => s.rp ([t0, t1, t2, t3].getD i 0) != neg.getLsbD i) 0 0

/-- BTREE (R339). -/
def execBtree (t0 t1 t2 t3 : Fin 16) (shape : Fin 14) (base : Fin 4) (neg : BitVec 4) (s : State) :
    Res :=
  .next (s.transfer (s.src.b[Fin.ofNat 8 (base.val + s.btLeaf t0 t1 t2 t3 shape neg)]) true)

/-- JMP (R374). -/
def execJmp (disp : BitVec 28) (s : State) : Res := .next (s.transfer (s.dispTo disp) true)

/-- The sixteen words of a packet, as its bytes stand. -/
def packetWords (b : List Byte) : List Code :=
  (List.range 16).map fun k => ofLe 32 ((b.drop (4 * k)).take 4)

/-- The words of the packet of an address: as fetched, or as memory holds them. -/
def State.codeAt (s : State) (a : Word) : Option (List Code) :=
  match s.me.pktOf a with
  | some ws => some ws
  | none => (s.vread s.me.vf (packetOf a).toNat 64).map packetWords

/-- next_in_sequence after the bundle at an address (R327). -/
def State.nextAfter (s : State) (a : Word) : Word :=
  match s.codeAt a with
  | some ws => nextIn ws a (bundleIn ws a).length
  | none => Config.unfetchedNext a &&& ~~~(3 : Word)

/-- CALL: b[L] takes the address after the delay bundle (R361). -/
def execCall (l : Fin 8) (disp : BitVec 25) (s : State) : Res :=
  let ret := s.nextAfter (s.nextAfter s.me.pc)
  .next ((s.wr fun r => r.wb l ret).transfer (s.dispTo disp) true)

/-- RET (R402). -/
def execRet (b : Fin 8) (s : State) : Res := .next (s.transfer s.src.b[b] true)

/-- SETB (R406). -/
def execSetb (b : Fin 8) (disp : BitVec 25) (s : State) : Res :=
  .next (s.wr fun r => r.wb b (s.dispTo disp))

/-! ### Loops -/

/-- The word at an address starts a bundle. -/
def State.startsAt (s : State) (a : Word) : Bool :=
  match s.codeAt a with
  | some ws => Code.starts (ws.getD (wordIx a) 0)
  | none => false

/-- The checks of LOOP and LPSTG at issue (R382, R384). -/
def State.loopOk {n : Nat} (s : State) (fin : BitVec n) (tooBig : Bool) : Verdict :=
  s.illModIf (s.me.loop.kind != 0 || decide (fin.toInt ≤ 0)
    || decide ((s.dispTo fin).toNat < (s.nextAfter s.me.pc).toNat) || !s.startsAt (s.dispTo fin)
    || tooBig)

/-- The pass predicates of an LPSTG loop with lrem passes left (R384). -/
def LoopSt.stages (l : LoopSt) (r : Regs) : Regs :=
  if l.kind = 2 then
    r.setStages (stagePred (l.lns + 1) l.ltrip.toNat (l.ltrip.toNat + l.lns - l.lrem.toNat))
  else r

/-- The loop ends: an LPSTG loop clears p8 to p15 (R384). -/
def Ctx.endLoop (c : Ctx) : Ctx :=
  { c with
      regs := if c.loop.kind = 2 then c.regs.setStages fun _ => false else c.regs
      loop := {} }

/-- A loop of c passes starts, or is skipped (R382, R384). -/
def State.startLoop (s : State) (kind : Nat) (c : Word) (lns : Nat) (lend : Word) : State :=
  if c = 0 then s.modMe fun x => { x with skip := some (s.nextAfter lend) }
  else
    let l : LoopSt := { kind, lstart := s.nextAfter s.me.pc, lend, lrem := c + BitVec.ofNat 64 lns,
                        ltrip := if kind = 2 then c else 0, lns }
    s.modMe fun x => { x with loop := l, regs := l.stages x.regs }

/-- LOOP (R382). -/
def execLoop (c : Fin 32) (fin : BitVec 23) (s : State) : Res :=
  s.guard (s.loopOk fin false) fun s => s.startLoop 1 (s.rs c) 0 (s.dispTo fin)

/-- LPSTG (R384). -/
def execLpstg (c : Fin 32) (ns : Fin 8) (fin : BitVec 20) (s : State) : Res :=
  s.guard (s.loopOk fin (decide (2 ^ 63 ≤ (s.rs c).toNat))) fun s =>
    s.startLoop 2 (s.rs c) ns.val (s.dispTo fin)

/-- NOP: the context issues its next bundle no earlier than n cycles later (R395). -/
def execNop (n : BitVec 6) (s : State) : Res :=
  .next (s.modMe fun c => { c with holdTil := max c.holdTil (s.cycle + n.toNat + 1) })

/-! ### BKSEL -/

/-- MTX_NOTOWNED's EINFO (R243). -/
def State.ownerOf (s : State) : Word :=
  match s.myCore.arr.owner with
  | none => 4
  | some o => BitVec.ofNat 64 o.val

def bkselOff (t : Word) : Nat := alignDown (t.toNat % 2 ^ 22) 8

/-- BKSEL issues: its table is read 8 cycles later (R358). -/
def execBksel (d a t : Fin 32) (s : State) : Res :=
  s.guard (s.ownHeld (bkselOff (s.rs t)) 8) fun s =>
    (s.modMe fun c =>
      { c with bksel := some (d, s.rs a, s.rs t, c.pc), wait := .reply, checks := c.checks ++ [c.word] }).schedule
        (s.cycle + 8) (.bkselTableRead s.cur s.cix)

/-- What a bucket table says of a dimension (R68, R69). -/
inductive Bucket where
  | bad
  | above
  | pick (b : Nat) (sched : Word) (axis : Nat)
  deriving DecidableEq, Repr

/-- A word of a bucket table; offsets wrap (R153). -/
def State.tableWord (s : State) (o k : Nat) : Word := s.scr64 s.cur ((o + 8 * k) % 2 ^ 22)

def State.bucket (s : State) (o : Nat) (d : Nat) : Bucket :=
  let h := s.tableWord o 0
  let n := bitsOf h 0 8
  let es := (List.range n).map fun k => (s.tableWord o (1 + 2 * k), s.tableWord o (2 + 2 * k))
  let sizes := es.map fun e => bitsOf e.1 0 32
  if n == 0 || decide (16 < n) || bitsOf h 10 54 != 0 || es.any (fun e => bitsOf e.1 32 32 != 0)
      || (sizes.zip sizes.tail).any (fun p => decide (p.2 ≤ p.1)) then .bad
  else match es.find? fun e => decide (d ≤ bitsOf e.1 0 32) with
    | some e => .pick (bitsOf e.1 0 32) e.2 (bitsOf h 8 2)
    | none => .above

/-- The running bundle's pending check passes or traps: its other words execute next, or if there
are none the bundle ends (R245). -/
def State.endWait (s : State) : State := s.modMe fun c => { c with wait := .none }

/-! ### The end of a bundle -/

/-- An exposed event is still in the array's pipeline (R65, R116). -/
def Core.piped (c : Core) : Bool :=
  c.arr.pending.any (fun g => g.ready.isNone || g.auto.isSome) || !c.arr.folds.isEmpty
    || !c.arr.drains.isEmpty

/-- The header of the bundle at pc marks a safe point (R329). -/
def Ctx.marked (c : Ctx) : Bool :=
  match c.pktOf c.pc with
  | some ws => match ws[wordIx c.pc]? with
    | some w => w.extractLsb' 28 3 == 0#3 && w.getLsbD 27
    | none => false
  | none => false

/-- An address lies outside the active loop's body. -/
def LoopSt.outside (l : LoopSt) (a : Word) : Bool := a.ult l.lstart || l.lend.ult a

/-- pc and loop state after the bundle at pc has executed (R327, R249, R359, R382). -/
def Ctx.advance (c : Ctx) : Ctx :=
  let a := c.pc
  let nxt := c.after a
  match c.back, c.xfer, c.delay with
  | some (t, pend), _, _ =>
      { c with pc := t, via := some a, delay := pend.map fun g => ⟨g, true, a⟩ }
  | none, some (t, taken), _ => { c with pc := nxt, via := none, delay := some ⟨t, taken, a⟩ }
  | none, none, some d =>
      let c := if d.taken && c.loop.kind != 0 && !c.regs.ecause.getLsbD 7 && c.loop.outside d.target then
          c.endLoop else c
      if d.taken then { c with pc := d.target, via := some d.src, delay := none }
      else { c with pc := nxt, via := none, delay := none }
  | none, none, none =>
      if c.loop.kind != 0 && a == c.loop.lend && !c.regs.ecause.getLsbD 7 then
        if 1 < c.loop.lrem.toNat then
          let l := { c.loop with lrem := c.loop.lrem - 1 }
          { c with pc := l.lstart, via := none, loop := l, regs := l.stages c.regs }
        else { c.endLoop with pc := nxt, via := none }
      else { c with pc := c.skip.getD nxt, via := none }

/-- The padding that BKSEL's bundle sets (R69). -/
def Arr.setPad (a : Arr) (axis d : Nat) : Arr :=
  match axis with
  | 0 => { a with padM := some d }
  | 1 => { a with padN := some d }
  | _ => { a with padK := some d, kpos := 0 }

/-- The checks of the executing context's bundle have passed: its operations and held writes perform (R245). -/
def State.commit (s : State) : State :=
  if s.me.undo.isNone then s
  else (s.modMe fun c => { c with undo := none }).modMyCore fun c =>
    Core.performHeld { c with held := c.held.map fun h => if h.ctx = s.cix then { h with check := false } else h } s.cycle

/-- Safe-point state after a bundle (R65, R66): n is the context as it goes on, ok the condition on the pipeline. A
marked bundle with a transfer is judged again after its delay bundle. -/
def Ctx.safeAfter (c n : Ctx) (ok : Bool) (cyc : Nat) : Ctx :=
  let here := c.delay.isNone && c.marked && ok
  { n with
      safeDue := if c.delay.isSome then c.safeDue && ok else here
      suspendAt := if here && c.suspending.isNone then c.pc else n.suspendAt
      safeTry := if here && n.delay.isSome then some cyc else none
      safeAt := match c.delay, c.safeTry with
        | some _, some t => if ok then t else c.safeAt
        | some _, none => c.safeAt
        | none, _ => if here && n.delay.isNone then cyc else c.safeAt }

/-- The executing context's bundle has executed: pc moves on, a padding that BKSEL selected is set, after what its
MMASK has done (R117; log 91, DEDUCED), a safe point is judged (R65), a
suspension asked for is taken once no delay bundle is to come (R43), and the packet held is kept
while execution stays in it (log 13, DESIGN CHOICE). -/
def State.finishBundle (s : State) : State :=
  let s := s.commit
  let s := match s.me.pad with
    | some (axis, d) => s.modMyCore fun k => k.mapArr fun a => a.setPad axis d
    | none => s
  let ok := !s.myCore.piped
  s.modMe fun c =>
    let n := c.advance
    let wait := match n.wait, n.suspending, n.delay with
      | .exiting k, _, _ => .exiting k
      | _, some w, none => .suspend w
      | w, _, _ => w
    c.safeAfter { n with
        snap := none, deferred := none, xfer := none, back := none, skip := none, pad := none
        park := none, checks := [], failed := none, entry := none, sure := false, landed := 0, shot := []
        wait := wait
        suspending := if n.delay.isSome then n.suspending else none
        packet := if packetOf n.pc = packetOf c.pc && n.via.isNone then c.packet else none
        badFetch := none } ok s.cycle

/-- What the running bundle waited for has come: its other words come next, or the bundle has
executed. -/
def State.goOn (s : State) : State :=
  let s := s.endWait
  match s.me.deferred with
  | some (_ :: _) => s
  | _ => s.finishBundle

/-- Outstanding checks without the one of a class. -/
def dropCheck (cls : Nat) : List (Nat × Code) → List (Nat × Code)
  | [] => []
  | x :: t => if Code.cls x.2 = cls then t else x :: dropCheck cls t

/-- The check word of a class, for layout W (R243). -/
def Ctx.checkInfo (c : Ctx) (cls : Nat) : Word :=
  match c.checks.find? fun x => Code.cls x.2 == cls with
  | some x => layoutW x.1 x.2
  | none => layoutW c.word.1 c.word.2

/-- The failure to report of two: the one whose word comes first in class order (R246). -/
def worse (cls : Nat) (bad : Option (Cause × Word)) (f : Option Failed) : Option Failed :=
  match bad, f with
  | none, f => f
  | some (k, i), none => some ⟨cls, k, i⟩
  | some (k, i), some g => if cls < g.cls then some ⟨cls, k, i⟩ else some g

/-- A check of the running bundle has returned, passed or failed. Once all have, the first failure in class order is
the bundle's trap, or the bundle goes on (R245, R246). -/
def State.checkDone (s : State) (cls : Nat) (bad : Option (Cause × Word)) : State :=
  let f := worse cls bad s.me.failed
  let left := dropCheck cls s.me.checks
  let s := s.modMe fun c => { c with checks := left, failed := f }
  match left, f with
  | _ :: _, _ => s
  | [], some f => (s.modMe fun c => { c with failed := none }).takeTrap f.cause f.info
  | [], none => if s.me.wait = .reply then s.goOn else s

/-- BKSEL's table read ends (R358, R69). Holding is judged on the bytes that the header's n asks for, before n is; a
table that is bad comes before the array that is not held (log 86, DEDUCED). -/
def execBkselTableRead (core : Nat) (ctx : Fin 4) (s : State) : Res :=
  match (s.ctx core ctx).bksel with
  | none => .next s
  | some (d, dim, t, _) =>
      let s := { s with cur := core, cix := ctx }
      let o := bkselOff t
      match s.ownHeld o (min (8 + 16 * bitsOf (s.tableWord o 0) 0 8) (2 ^ 22 - o)) with
      | .trap c i => .next (s.checkDone 1 (some (c, i)))
      | _ =>
      match s.bucket o dim.toNat with
      | .bad => .next (s.checkDone 1 (some (.bkselRange, 1)))
      | .above => .next (s.checkDone 1 (some (.bkselRange, 0)))
      | .pick b sched axis =>
          if axis < 3 && !s.holdsArr then .next (s.checkDone 1 (some (.mtxNotOwned, s.ownerOf)))
          else
            let s := s.putS d (BitVec.ofNat 64 b - dim)
            let s := (s.transfer sched true).modMe fun c =>
              { c with bksel := none, pad := if axis < 3 then some (axis, dim.toNat) else none }
            .next (s.checkDone 1 none)

end Sys2Proof.Machine
end

