-- ==== Sys2Proof/Machine/Memory.lean ====
section
/-! DEFINITION. Memory words of class MEM but for the orbit words (R152 to R175, R181 to R192,
R355 to R357, R375 to R378, R401, R410 to R413, R417), and the events that complete them. -/

namespace Sys2Proof.Machine

/-! ### Loads and stores -/

/-- LD (R375, R376). -/
def execLd (d : Fin 32) (ty : STy) (a : Addr) (s : State) : Res :=
  s.guard (s.accessOk a (stySize ty) (stySize ty) false) fun s =>
    s.loadAt (s.place a (stySize ty) (stySize ty)) (.s d ty) (stySize ty) 3

/-- LDV (R375). -/
def execLdv (d : Fin 32) (a : Addr) (s : State) : Res :=
  s.guard (s.accessOk a 256 256 false) fun s => s.loadAt (s.place a 256 256) (.v d) 256 4

/-- LDT (R375). -/
def execLdt (d : Fin 16) (a : Addr) (s : State) : Res :=
  s.guard (s.accessOk a 2048 2048 false) fun s => s.loadAt (s.place a 2048 2048) (.t d) 2048 6

/-- ST (R412). -/
def execSt (v : Fin 32) (ty : STy) (a : Addr) (s : State) : Res :=
  s.guard (s.accessOk a (stySize ty) (stySize ty) true) fun s =>
    s.storeAt (s.place a (stySize ty) (stySize ty)) (leBytes (stySize ty) (s.rs v).toNat)

/-- STV (R412). -/
def execStv (v : Fin 32) (a : Addr) (s : State) : Res :=
  s.guard (s.accessOk a 256 256 true) fun s => s.storeAt (s.place a 256 256) (toLe s.src.v[v])

/-- STT (R412). -/
def execStt (t : Fin 16) (a : Addr) (s : State) : Res :=
  s.guard (s.accessOk a 2048 2048 true) fun s => s.storeAt (s.place a 2048 2048) (toLe s.src.t[t])

/-! ### LDTX (R378) -/

/-- Line starts of an LDTX. -/
def ldtxLines (z a pitch : Nat) : List Nat := (List.range (16 / z)).map fun c => a + c * pitch

/-- LDTX's address: within the scratchpad, or within the buffer. -/
def State.ldtxAt (s : State) (buf : Bool) (x : Fin 32) (imm : Nat) : Nat :=
  if buf then imm % 65536 else ((s.rs x).toNat + imm) % 2 ^ 22

/-- A verdict over several ranges, in order. -/
def allOk (l : List Nat) (f : Nat → Verdict) : Verdict := l.foldl (fun v k => v.and (f k)) .go

def State.ldtxOk (s : State) (p : Fin 32) (buf : Bool) (x : Fin 32) (z imm : Nat) : Verdict :=
  let a := s.ldtxAt buf x imm
  let pitch := (s.rs p).toNat
  let n := 128 * z
  let top := if buf then 65536 else 2 ^ 22
  let ls := ldtxLines z a pitch
  (trapIf (buf && bufBad (s.rs x)) .bufOwner (ownerInfo 2 (bufStrip (s.rs x)) (bufNum (s.rs x)))).and
  ((s.illModIf (a % n != 0 || pitch % n != 0 || ls.any fun l => decide (top < l + n))).and
    (allOk ls fun l => if buf then s.bufOk x l n engLsu false else s.ownOk engLsu false l n))

/-- LDTX (R378). -/
def execLdtx (t : Fin 16) (p : Fin 32) (buf : Bool) (x : Fin 32) (sz : Fin 4) (imm : BitVec 11)
    (s : State) : Res :=
  let z := 2 ^ sz.val
  s.guard (s.ldtxOk p buf x z (imm.toNat * 512)) fun s =>
    let ls := ldtxLines z (s.ldtxAt buf x (imm.toNat * 512)) (s.rs p).toNat
    let h := s.rs x
    if buf then
      let o := bufNum h * 65536
      if bufStrip h = stripOf s.cur then
        s.loadHere (.tx t sz) (ls.flatMap fun l => s.scrBytes s.cur (o + l) (128 * z)) 12
      else s.loadFar (.tx t sz) (ls.flatMap fun l => bufSrc (s.rowCore (bufStrip h)) (o + l) (128 * z))
        (s.cycle + s.latency none) true
    else s.loadHere (.tx t sz) (ls.flatMap fun l => s.scrBytes s.cur l (128 * z)) 12

/-! ### Full/empty words (R170 to R172, R377) -/

/-- The controller of a word and its offset, for a [scr] or [buf] operand of LDE and STE. -/
def State.fePlace (s : State) (buf : Bool) (x : Fin 32) (imm : BitVec 16) : Nat × Nat :=
  if buf then
    match s.bufPlace x (imm.toNat * 8) 8 with
    | .there core off => (core, off)
    | .here off => (s.cur, off)
    | .mem _ off => (s.cur, off)
  else (s.cur, s.scrOff x (imm.toNat * 8) 8)

def State.feFull (s : State) (core off : Nat) : Bool := cget (s.core core).fe (off / 8) == 1#1

def State.setFull (s : State) (core off : Nat) (full : Bool) : State :=
  s.modCore core fun c => { c with fe := cset c.fe (off / 8) (if full then 1 else 0) }

/-- Since when LDEs, LDE.ems or STEs wait at a word: contexts of its core that are not parked under forced
pre-emption, and requests that have reached its controller (R171, R377). -/
def State.feWaiting (s : State) (core off : Nat) (store em : Bool) : List (Nat × Nat × Nat) :=
  let here := allCtx.filterMap fun i =>
    let c := s.ctx core i
    match c.park with
    | some p => if p.why = .fullEmpty store em core (off / 8) ∧ c.frozen = false then some (p.since, core, i.val) else none
    | none => none
  let far := s.cores.flatMap fun (k, c) => c.ops.filterMap fun o => match o.what with
    | .fullEmpty st e n w _ _ (.waits t) =>
        if st = store ∧ e = em ∧ n = core ∧ w / 8 = off / 8 then some (t, k, 4 + o.id) else none
    | _ => none
  here ++ far

/-- The request of (core, number), waiting since a cycle, is the oldest of its kind (R171). -/
def oldest (l : List (Nat × Nat × Nat)) (since core who : Nat) : Bool :=
  l.all fun (t, k, w) => decide (since < t) || (t == since && (decide (core < k) || (k == core && decide (who ≤ w))))

/-- Since when the executing context waits for a reason. -/
def State.since (s : State) (why : ParkWhy) : Nat :=
  match s.me.park with
  | some p => if p.why = why then p.since else s.cycle
  | none => s.cycle

/-- A held write of the word's core has yet to change its bit (R182, R245). -/
def Core.markHeld (c : Core) (off : Nat) : Bool :=
  c.held.any fun h => !h.sweeps && h.mark.any fun m => decide (m.1 ≤ off / 8) && decide (off / 8 < m.1 + m.2.1)

/-- Whether an LDE, plain or .em, or an STE is served at its word now: STEs and LDE.ems oldest first, and an LDE.em
once every plain LDE has been released (R171). -/
def State.feServed (s : State) (core off : Nat) (store em : Bool) (since owner who : Nat) : Bool :=
  s.feFull core off != store && !(s.core core).markHeld off
    && (!em || (oldest (s.feWaiting core off store true) since owner who
      && (store || (s.feWaiting core off false false).isEmpty)))

/-- The checks of a full/empty operand. -/
def State.feOperand (s : State) (buf : Bool) (x : Fin 32) (imm : BitVec 16) (wr : Bool) : Verdict :=
  if buf then s.bufOk x (alignDown (imm.toNat * 8) 8 % 65536) 8 engLsu wr
  else s.ownOk engLsu wr (s.scrOff x (imm.toNat * 8) 8) 8

/-- An LDE or STE waits at a word of the own scratchpad; a remote one waits at its controller. -/
def State.feOk (s : State) (buf : Bool) (x : Fin 32) (imm : BitVec 16) (store em : Bool) : Verdict :=
  let (core, off) := s.fePlace buf x imm
  let why := ParkWhy.fullEmpty store em core (off / 8)
  (s.feOperand buf x imm store).and
    (waitIf (core == s.cur && !s.feServed core off store em (s.since why) s.cur s.cix.val) why)

/-- A remote request: its context issues nothing more until the reply. While the context is parked for the word its
bundle has not executed, though checks of it may have come first (R171, R377; log 53, DEDUCED). -/
def State.feRequest (s : State) (store em : Bool) (core off : Nat) (d : Fin 32) (v : Word) : State :=
  ((s.issueOp (some (if store then .st else .ld)) (if store then kSt else kLd) [] []
    (.fullEmpty store em core off d v .sent) (s.cycle + s.latency none) (.feRemoteServe s.cur)).dropDelay).modMe
      fun c => { c with
        wait := .reply, park := some ⟨.fullEmpty store em core (off / 8), s.cycle⟩ }

/-- LDE (R171, R377). -/
def execLde (em : Bool) (d : Fin 32) (buf : Bool) (x : Fin 32) (imm : BitVec 16) (s : State) : Res :=
  s.guard (s.feOk buf x imm false em) fun s =>
    let (core, off) := s.fePlace buf x imm
    if core = s.cur then
      let b := s.scrBytes core off 8
      let s := if em then s.writeHere off [] (some (off / 8, 1, false)) else s
      s.loadHere (.s d .i64) b 3
    else s.feRequest false em core off d 0

/-- STE (R171, R377). -/
def execSte (v : Fin 32) (buf : Bool) (x : Fin 32) (imm : BitVec 16) (s : State) : Res :=
  s.guard (s.feOk buf x imm true true) fun s =>
    let (core, off) := s.fePlace buf x imm
    if core = s.cur then
      (s.storeHere off (leBytes 8 (s.rs v).toNat) (some (off / 8))).issueOp (some .st) kSt [] []
        .settled (s.cycle + 1) (.storePerform s.cur)
    else s.feRequest true true core off 0 (s.rs v)

def State.setOp (s : State) (core : Nat) (op : Op) : State :=
  s.modCore core fun c => { c with ops := c.ops.map fun o => if o.id = op.id then op else o }

/-- The word that a context is parked for has served it: unless checks are pending, its bundle has issued by that (R171,
R245; log 53, DEDUCED). -/
def Ctx.served (c : Ctx) : Ctx := { c with park := none, sure := c.sure || c.undo.isNone }

/-- A remote LDE is served, or waits (R171, R377): what it reads goes back in the reply. -/
def State.feLoad (s : State) (core : Nat) (op : Op) (em : Bool) (home off : Nat) (d : Fin 32) (since : Nat) : State :=
  if s.feServed home off false em since core (4 + op.id) then
    let v := s.scr64 home off
    let s := if em then s.setFull home off false else s
    (((s.setOp core { op with what := .fullEmpty false em home off d 0 (.served v) }).modCtx core op.ctx
      Ctx.served).schedule (s.cycle + s.latency none) (.feRemoteServe core op.id)).dropDelay
  else (s.setOp core { op with what := .fullEmpty false em home off d 0 (.waits since) }).schedule (s.cycle + 1)
    (.feRemoteServe core op.id)

/-- A remote STE is served at the end of a cycle, after its word's LDEs, or waits for another; st falls when the
controller has written the word (R171, R377). -/
def State.feStore (s : State) (core : Nat) (op : Op) (home off : Nat) (v : Word) (since : Nat) : State :=
  if s.feServed home off true true since core (4 + op.id) then
    let s := (s.putScr home off (leBytes 8 v.toNat)).setFull home off true
    (((s.setOp core { op with kinds := 0, ctr := none, what := .fullEmpty true true home off 0 v (.served v) }).modCtx
      core op.ctx fun c =>
        { (match op.ctr with | none => c | some k => c.uncount k).served with fences := c.fencesLeft op.id }).schedule (s.cycle + s.latency none)
      (.feRemoteServe core op.id)).dropDelay
  else s

/-- FE_REMOTE_SERVE: a request reaches its word's controller, is served there, and its reply returns, after which the
context goes on and an LDE writes its register 3 cycles later (R171, R377). -/
def execFeRemoteServe (core id : Nat) (s : State) : Res :=
  match (s.core core).op id with
  | some op =>
    match op.what with
    | .fullEmpty false em home off d _ .sent => .next (s.feLoad core op em home off d s.cycle)
    | .fullEmpty false em home off d _ (.waits t) => .next (s.feLoad core op em home off d t)
    | .fullEmpty true em home off d v .sent =>
        .next (s.setOp core { op with what := .fullEmpty true em home off d v (.waits s.cycle) })
    | .fullEmpty true _ home off _ v (.waits t) => .next (s.feStore core op home off v t)
    | .fullEmpty false _ _ _ d _ (.served v) =>
        let dst := LoadTo.s d .i64
        let s := s.setOp core { op with lock := dst.locks, what := .load dst (.known <$> leBytes 8 v.toNat) }
        let s := (s.modCtx core op.ctx fun c => { c with sb := (dst.locks.map fun r => (r, none)) ++ c.sb }).schedule
          (s.cycle + 3) (.loadWriteback core id)
        .next ({ s with cur := core, cix := op.ctx }).goOn
    | .fullEmpty true _ _ _ _ _ (.served _) => .next ({ s.retireOp core op with cur := core, cix := op.ctx }).goOn
    | _ => .next s
  | none => .next s

/-- Remote STEs that wait at their words are looked at when a cycle ends, after the LDEs of the cycle (R171). -/
def State.feEnd (s : State) : List (Nat × Instr) :=
  s.cores.flatMap fun (k, c) => c.ops.filterMap fun o => match o.what with
    | .fullEmpty true _ _ _ _ _ (.waits _) => some (s.cycle, .feRemoteServe k o.id)
    | _ => none

def fesetLen (l : Word) : Nat := l.toNat / 8 * 8

/-- FESET's checks (R172). -/
def State.fesetOk (s : State) (l x : Fin 32) (imm : BitVec 16) : Verdict :=
  let o := s.scrOff x (imm.toNat * 8) 8
  let n := fesetLen (s.rs l)
  (s.illModIf (pastScr o n)).and (s.ownOk engLsu true o n)

/-- What a FESET sets, 4,096 words a cycle, from a first word on: each cycle's part, with the cycle (R172). -/
def sweepParts (w n cyc : Nat) : List (Nat × Nat × Nat) :=
  (List.range ((n + 4095) / 4096)).map fun k => (w + 4096 * k, min 4096 (n - 4096 * k), cyc + k)

/-- The work of a FESET that issues now: the first part is set in this cycle, each other in its own (R172). -/
def State.sweepFe (s : State) (w n : Nat) (full : Bool) : State :=
  let h (p : Nat × Nat × Nat) : Held :=
    { ops := [], store := s.nextOp, ctx := s.cix, bytes := [], mark := some (p.1, p.2.1, full), till := p.2.2, check := false }
  let t := (sweepParts w n s.cycle).foldl (fun s p => s.modMyCore fun c =>
    if (h p).free s.cycle then c.putHeld (h p) else { c with held := c.held ++ [h p] }) s
  { t with nextOp := s.nextOp + 1 }

/-- FESET: its context issues nothing further until it has finished (R172). -/
def execFeset (full : Bool) (l x : Fin 32) (imm : BitVec 16) (s : State) : Res :=
  s.guard (s.fesetOk l x imm) fun s =>
    let o := s.scrOff x (imm.toNat * 8) 8
    let n := fesetLen (s.rs l) / 8
    (s.sweepFe (o / 8) n full).modMe fun c => { c with fesetTil := max c.fesetTil (s.cycle + (n + 4095) / 4096) }

/-! ### SQLD (R118, R410, R411) -/

/-- The last byte of an operand's range passes its space's end (R410). -/
def State.pastEnd (s : State) (p : Place) (a : Addr) (n : Nat) : Bool :=
  match p, a with
  | .mem h off, _ => decide (pageBytes (Handle.psize (s.hreg h)) < off + n)
  | .here off, .buf .. => decide (65536 < off % 65536 + n)
  | .there _ off, _ => decide (65536 < off % 65536 + n)
  | .here off, _ => pastScr off n

def State.sqldOk (s : State) (a : Addr) : Verdict :=
  let p := s.place a 64 64
  let past := s.illModIf (s.pastEnd p a 192)
  (trapIf (!s.holdsArr) .mtxNotOwned s.ownerOf).and (match a with
    | .hnd n x i => (s.handleOk n (s.pageOff n x (i.toNat * 64) 64) false).and past
    | .scr x i => past.and (s.ownOk engLsu false (s.scrOff x (i.toNat * 64) 64) 192)
    | .buf x i => past.and (s.bufOk x (alignDown (i.toNat * 64) 64 % 65536) 192 engLsu false)) |>.and
    (waitIf (decide (64 ≤ s.myCore.arr.queue.length)))

/-- SQLD reserves the youngest place of the scale queue; its bytes fill it when they arrive, a
local SQLD's being those of its issue cycle (R411). -/
def execSqld (a : Addr) (s : State) : Res :=
  s.guard (s.sqldOk a) fun s =>
    let slot := s.nextOp
    let src := match s.place a 64 64 with
      | .here off => (s.scrBytes s.cur off 192).map Src.known
      | .there core off => bufSrc core off 192
      | .mem h off => s.memSrc (Handle.place (s.hreg h) off) 192
    let bound := match a with
      | .hnd n _ _ => lcBound (Handle.lc (s.hreg n))
      | _ => none
    let s' := s.modMyCore fun c => { c with arr := { c.arr with queue := c.arr.queue ++ [(slot, none)] } }
    s'.loadFar (.scale slot) src (s.cycle + s.latency bound)
      (match s.place a 64 64 with | .there .. => true | _ => false)

/-! ### Handles (R155, R156, R159, R372, R417) -/

/-- LEASE_BREACH of an address outside the task's leases (R155). -/
def State.leaseOk (s : State) (va : Nat) : Verdict :=
  trapIf (decide (2 ^ 56 ≤ va) || !s.leased s.me.vf va) .leaseBreach (breachInfo 0 va)

/-- The handle that a TRANS at this moment will write. Where the page of the lease is not mapped, as
between a shootdown and a remap, it is written with V = 0 (log 14, DEDUCED). -/
def State.transVal (s : State) (core vf va : Nat) : Handle :=
  match s.xlate vf va with
  | some l => s.handleOf core vf va l
  | none => BitVec.ofNat 128 (va / 4096 % 2 ^ 44 * 2 ^ 84)

/-- TRANS (R155). -/
def execTrans (h : Fin 16) (a : Fin 32) (s : State) : Res :=
  s.guard (s.leaseOk (s.rs a).toNat) fun s =>
    (s.modMe fun c => c.lock (.h h) none).schedule (s.cycle + 24)
      (.transWrite s.cur s.cix h (s.transVal s.cur s.me.vf (s.rs a).toNat))

/-- TRANS_WRITE (R417): one of the running bundle's own, whose check is pending, leaves the image that a trap
restores (R245). -/
def execTransWrite (core : Nat) (ctx : Fin 4) (h : Fin 16) (v : Handle) (s : State) : Res :=
  .next (s.modCtx core ctx fun c =>
    let own := c.entry.any fun u => !u.sb.any fun x => x.1 == .h h
    (if own then { c with regs := c.regs.wh h v } else c.land fun r => r.wh h v).unlock (.h h))

/-- HTEST (R156). -/
def execHtest (hi : Bool) (d : Fin 32) (h : Fin 16) (s : State) : Res :=
  .next (s.putS d (if hi then (s.hreg h).extractLsb' 64 64 else (s.hreg h).extractLsb' 0 64))

/-- Handles of a context cleared by a shootdown. A bundle that waits with none of its words executed finds them cleared;
one that has executed words keeps what it has read, and finds them cleared where it traps (R159, R245). -/
def Ctx.shoot (c : Ctx) (va len : Nat) : Ctx :=
  let c := { c with regs := c.regs.dropHandles va len }
  if c.snap.isNone then c
  else if c.undo.isSome || c.sure then { c with shot := c.shot ++ [(va, len)] }
  else { c with snap := c.snap.map fun r => r.dropHandles va len }

/-- A pending TRANS_WRITE into a page that is shot down writes V = 0 (R417). -/
def shootEvent (s : State) (vf va len : Nat) : Nat × Instr → Nat × Instr
  | (t, .transWrite k i h v) =>
      if (s.ctx k i).task && (s.ctx k i).vf == vf && Handle.meets v va len then
        (t, .transWrite k i h (Handle.clear v))
      else (t, .transWrite k i h v)
  | e => e

/-- Translations of a list whose pages share a byte with a range. -/
def pagesMeeting (l : List (Nat × Leaf)) (va len : Nat) : List (Nat × Leaf) :=
  l.filter fun p => overlap p.1 (p.1 + pageBytes p.2.psize) va (va + len)

/-- The lease translation store after a shootdown of a range: its pages there are walked again, one that is not valid
any longer has no translation until the next shootdown (R155, R157, R159; log 14, DEDUCED). -/
def State.retranslate (s : State) (vf va len : Nat) (l : List (Nat × Leaf)) : List (Nat × Leaf) :=
  let gone := pagesMeeting l va len
  let fresh := gone.flatMap fun p =>
    (s.pagesOf vf (p.1 + pageBytes p.2.psize) (pageBytes p.2.psize / 4096) p.1).getD []
  (l.filter fun p => !gone.contains p) ++ fresh.filter fun p =>
    !(l.filter fun q => !gone.contains q).any fun q => q.1 == p.1

/-- An operation in flight keeps the translations that a shootdown takes away: it performs against the old frame
(R159). -/
def Op.keep (o : Op) (old : List (Nat × Leaf)) : Op := { o with old := o.old ++ old }

/-- A shootdown of a range is not complete while an operation, a request to a pantry or an EXIT that issued before it
has not performed (R159). -/
def State.shooting (s : State) (vf va len : Nat) : Bool :=
  s.cores.any fun (_, c) =>
    (c.ops.any fun o => (c.ctxs[o.ctx]).vf == vf && !(pagesMeeting o.old va len).isEmpty)
      || c.ctxs.toList.any fun x => x.task && x.vf == vf && !(pagesMeeting x.old va len).isEmpty

/-- A context that has asked a pantry for something, or has issued EXIT, and still writes to its job control block. -/
def Ctx.posts (c : Ctx) : Bool := c.raise.isSome || (match c.wait with | .exiting _ => true | _ => false)

/-- It keeps the translations that a shootdown takes away (R159). -/
def Ctx.keep (c : Ctx) (old : List (Nat × Leaf)) : Ctx := if c.posts then { c with old := c.old ++ old } else c

/-- A core after a shootdown: handles of the function's tasks are cleared, and their operations keep what they have. -/
def Core.shoot (c : Core) (vf va len : Nat) (old : List (Nat × Leaf)) : Core :=
  { c with
    ops := c.ops.map fun o => if (c.ctxs[o.ctx]).task && (c.ctxs[o.ctx]).vf == vf then o.keep old else o
    ctxs := c.ctxs.map fun x => if x.task && x.vf == vf then (x.shoot va len).keep old else x }

/-- SHOOTDOWN, at one cycle boundary of every core (R159). -/
def execShootdown (vf : Nat) (va : Word) (len : Nat) (s : State) : Res :=
  let old := pagesMeeting (s.lts vf) va.toNat len
  let t : State := { s with
    agenda := s.agenda.map (shootEvent s vf va.toNat len)
    cores := s.cores.map fun (k, c) => (k, c.shoot vf va.toNat len old) }
  .next (t.modVf vf fun v =>
    { v with job := v.job.map fun j => { j with lts := s.retranslate vf va.toNat len j.lts } })

/-! ### Atomics (R187, R241, R355 to R357) -/

def amoSize : AmoTy → Nat
  | .i64 | .n64 | .f64 => 8
  | .i32 | .n32 | .f32 => 4

def amoFloat : AmoTy → Bool
  | .f64 | .f32 => true
  | _ => false

def casSize : CasSz → Nat
  | .d64 => 8 | .w32 => 4 | .pair => 16

/-- The bit of ACLASS that an AMO needs (R160, R357): swap counts as integer. -/
def amoClass (op : AmoOp) (ty : AmoTy) : Nat := if amoFloat ty && op != .swap then 2 else 0
def casClass : CasSz → Nat
  | .pair => 3
  | _ => 1

/-- ATOMIC_ROUTE's EINFO (R241). -/
def routeInfo (bit va : Nat) : Word := BitVec.ofNat 64 (bit * 2 ^ 56 + va % 2 ^ 56)

/-- The checks of an atomic at issue, in order (R357). PHASE_ESCAPE of a floating-point AMO in strict mode, which no
engine of R176 makes, holds 0 in ENG, DIR and STRIP (R179; log 110, DESIGN CHOICE). -/
def State.atomicOk (s : State) (h : Fin 16) (off cls : Nat) : Verdict :=
  let hd := s.hreg h
  (trapIf (!Handle.valid hd) .handleStale (staleInfo h hd)).and
  ((trapIf (!Handle.canW hd) .leaseBreach (breachInfo 1 (Handle.va hd + off))).and
  ((trapIf (s.me.strict && cls == 2) .phaseEscape (escapeInfo 2 0 false 0 0 0)).and
  ((trapIf (!(Handle.aclass hd).getLsbD cls) .atomicRoute (routeInfo cls (Handle.va hd + off))).and
    (s.handleOk h off true))))

/-- An integer AMO on w bits (R356). -/
def amoInt (op : AmoOp) (sg : Bool) {w : Nat} (old v : BitVec w) : BitVec w :=
  let le := if sg then old.sle v else old.ule v
  match op with
  | .add => old + v
  | .and => old &&& v
  | .or => old ||| v
  | .xor => old ^^^ v
  | .min => if le then old else v
  | .max => if le then v else old
  | .swap => v

/-- A floating-point AMO: RNE, DAZ and FTZ off, no flag (R356). -/
def amoFp (op : AmoOp) (f : Fmt) (old v : Nat) : Nat :=
  let env : Env := ⟨.rne, false, false⟩
  match op with
  | .add => (fpAdd f env old v).1
  | .min => (fpMinMax f env false old v).1
  | .max => (fpMinMax f env true old v).1
  | _ => v

/-- The new value of the location, and what s[D] receives (R356). -/
def amoNew (op : AmoOp) (ty : AmoTy) (old : Nat) (v : Word) : Nat × Word :=
  match ty with
  | .i64 => ((amoInt op true (BitVec.ofNat 64 old) v).toNat, BitVec.ofNat 64 old)
  | .n64 => ((amoInt op false (BitVec.ofNat 64 old) v).toNat, BitVec.ofNat 64 old)
  | .i32 => ((amoInt op true (BitVec.ofNat 32 old) (v.extractLsb' 0 32)).toNat,
      (BitVec.ofNat 32 old).signExtend 64)
  | .n32 => ((amoInt op false (BitVec.ofNat 32 old) (v.extractLsb' 0 32)).toNat, BitVec.ofNat 64 old)
  | .f64 => (amoFp op fF64 old v.toNat, BitVec.ofNat 64 old)
  | .f32 => (amoFp op fF32 old (v.toNat % 2 ^ 32), BitVec.ofNat 64 old)

def sLock (d : Fin 32) : List RegName := if d = 0 then [] else [.s d]

/-- AMO (R355 to R357). -/
def execAmo (op : AmoOp) (ty : AmoTy) (d v x : Fin 32) (h : Fin 16) (s : State) : Res :=
  s.guard (s.atomicOk h (s.pageOff h x 0 (amoSize ty)) (amoClass op ty)) fun s =>
    let hd := s.hreg h
    (s.issueOp (some .st) (kLd ||| kSt) [] (sLock d)
      (.amo op ty d (Handle.place hd (s.pageOff h x 0 (amoSize ty))) (s.rs v))
      (s.cycle + s.latency (lcBound (Handle.lc hd))) (.atomicPerform s.cur)).dropDelay

/-- CAS (R355 to R357). -/
def execCas (sz : CasSz) (d v x : Fin 32) (h : Fin 16) (s : State) : Res :=
  s.guard (s.atomicOk h (s.pageOff h x 0 (casSize sz)) (casClass sz)) fun s =>
    let hd := s.hreg h
    let two (r : Fin 32) : BitVec 128 := if sz = .pair then s.rs (r + 1) ++ s.rs r else (s.rs r).zeroExtend 128
    (s.issueOp (some .st) (kLd ||| kSt) [] (sLock d ++ if sz = .pair then sLock (d + 1) else [])
      (.cas sz d (Handle.place hd (s.pageOff h x 0 (casSize sz))) (two d) (two v))
      (s.cycle + s.latency (lcBound (Handle.lc hd))) (.atomicPerform s.cur)).dropDelay

/-- The 64-byte lines that an operation writes, first and last, if it is a store or an atomic. -/
def Op.lines (o : Op) : Option (Nat × Nat) :=
  match o.what with
  | .store a b => some (a / 64, (a + b.length - 1) / 64)
  | .amo _ ty _ a _ => some (a / 64, (a + amoSize ty - 1) / 64)
  | .cas sz _ a _ _ => some (a / 64, (a + casSize sz - 1) / 64)
  | _ => none

/-- An earlier store or atomic of the core to one of its lines is still in flight: the port has not
sent this one (R186). -/
def Core.behind (c : Core) (o : Op) : Bool :=
  match o.lines with
  | none => false
  | some (a, b) => c.ops.any fun p => decide (p.id < o.id) && (match p.lines with
      | some (x, y) => decide (x ≤ b) && decide (a ≤ y)
      | none => false)

/-- ATOMIC_PERFORM: the pantry of the line's home die acts in one step (R187, R356), once no check of the bundle is
pending (R245). -/
def execAtomicPerform (core id : Nat) (s : State) : Res :=
  match (s.core core).op id with
  | some op =>
    if (s.core core).behind op || s.opHeld core op then .next (s.schedule (s.cycle + 1) (.atomicPerform core id))
    else match op.what with
    | .amo o ty d a v =>
        let (new, back) := amoNew o ty (leVal (s.memBytes a (amoSize ty))) v
        let s := s.putMem a (leBytes (amoSize ty) new)
        .next ((s.modCtx core op.ctx fun c => c.landOp id fun r => r.ws d back).retireOp core op)
    | .cas sz d a c v =>
        let n := casSize sz
        let old := leVal (s.memBytes a n)
        let s := if old = c.toNat % 2 ^ (8 * n) then s.putMem a (leBytes n v.toNat) else s
        let put (r : Regs) : Regs :=
          let r := r.ws d (BitVec.ofNat 64 old)
          if sz = .pair then r.ws (d + 1) (BitVec.ofNat 64 (old / 2 ^ 64)) else r
        .next ((s.modCtx core op.ctx fun c => c.landOp id put).retireOp core op)
    | _ => .next s
  | none => .next s

/-! ### Fences (R188 to R191, R401) -/

/-- Operations of the executing context that have not performed at a scope, of the given kinds. -/
def State.unperformed (s : State) (sc : Scope) (kinds : BitVec 8) : List Nat :=
  (s.myCore.ops.filter fun o => o.ctx == s.cix && o.kinds &&& kinds != 0 && (match o.what with
    | .settled => s.myCore.held.any (·.store == o.id)
    | .store .. => !(sc == .ctx || sc == .core)
    | _ => true)).map (·.id)

/-- The same of every kind, with arrivals by BARA, which access pantry objects (R183, R189, R190, R232). -/
def State.outstanding (s : State) (sc : Scope) : List Nat := s.unperformed sc 0xFF ++ s.me.bara.map (·.id)

/-- A fence is in force while an operation that it waits for has not performed. -/
def State.fenceOn (s : State) (ops : List Nat) (succ : BitVec 8) (sc drain : Bool) : State :=
  if ops.isEmpty then s
  else s.modMe fun c => { c with fences := c.fences ++ [⟨ops, succ, sc, drain, none⟩] }

/-- FENCE (R188, R189). -/
def execFence (sc : Bool) (scope : Scope) (pred succ : BitVec 8) (s : State) : Res :=
  .next (if sc then s.fenceOn (s.outstanding scope) 0xFF true false
    else if pred == 0 || succ == 0 then s
    else s.fenceOn (s.unperformed scope pred) succ false false)

/-- DRAIN (R190). -/
def execDrain (scope : Scope) (s : State) : Res :=
  .next (s.fenceOn (s.outstanding scope) 0xFF false true)

/-- PUBLISH: a drain at .sys, then the hub; words that touch memory wait until the host has acknowledged (R191,
R401). -/
def execPublish (d : Fin 32) (s : State) : Res :=
  let ops := s.outstanding .sys
  let s := s.modMe fun c =>
    { (if d = 0 then c else c.lock (.s d) none) with fences := c.fences ++ [⟨ops, 0xFF, false, true, some d⟩] }
  .next (if ops.isEmpty then s.askHub s.cur s.cix d else s)

/-- The fence of an acknowledged PUBLISH, the first that waits for nothing else, is over. -/
def dropPublish : List Fence → List Fence
  | [] => []
  | f :: t => if f.pub.isSome && f.ops.isEmpty then t else f :: dropPublish t

/-- PUBLISH_ACK: the hub raises the function's counter, the host endpoint acknowledges the new value
at VERADDR, if it is not 0, and sD is written (R401). -/
def execPublishAck (core : Nat) (ctx : Fin 4) (d : Fin 32) (s : State) : Res :=
  let vf := (s.ctx core ctx).vf
  let v := ((s.vf vf).elim 0 (·.version)) + 1
  let at_ := ((s.vf vf).elim 0 (·.veraddr)).toNat
  let s := s.modVf vf fun f => { f with version := v }
  let s := if at_ = 0 then s else { s with hostMem := csetN s.hostMem at_ (leBytes 8 v.toNat) }
  .next (s.modCtx core ctx fun c =>
    { (c.land fun r => r.ws d v).unlock (.s d) with fences := dropPublish c.fences })

end Sys2Proof.Machine
end

