-- ==== Sys2Proof/Machine/Orbit.lean ====
section
/-! DEFINITION. Symmetric tensors: descriptors, canonical representatives, packed storage and the
orbit words of class MEM (R130 to R147, R396, R397). -/

namespace Sys2Proof.Machine

/-! ### Descriptors (R130 to R132) -/

/-- A generator (R131): kind 0 SYM, 1 ASYM, 2 CIRC, 3 REFL; its axes ascend. -/
structure Gen where
  kind : Nat
  neg : Bool
  axes : List Nat
  deriving DecidableEq, Repr

/-- The fields of a descriptor (R130). -/
structure Desc where
  base : Nat
  rank : Nat
  fmt : Nat
  ext : List Nat
  gens : List Gen
  deriving DecidableEq, Repr

/-- Bits of a block. -/
def blk (d : Block64) (lo n : Nat) : Nat := (d.extractLsb' lo n).toNat

/-- A generator word (R131). -/
def genOf (w : Nat) : Gen :=
  ⟨w / 2 ^ 30 % 4, w.testBit 29, (List.range 6).filter fun a => w.testBit a⟩

/-- A descriptor register as fields. -/
def descOf (d : Block64) : Desc :=
  { base := blk d 0 32, rank := blk d 32 8, fmt := blk d 40 8
    ext := (List.range (min (blk d 32 8) 6)).map fun n => blk d (64 + 32 * n) 32
    gens := (List.range (min (blk d 48 8) 3)).map fun n => genOf (blk d (256 + 32 * n) 32) }

/-- Element size of a format code that a descriptor may name (R130). -/
def fmtSize (c : Nat) : Option Nat :=
  match c with
  | 3 | 4 | 6 => some 1
  | 7 | 8 | 9 => some 2
  | 10 | 12 => some 4
  | 11 => some 8
  | _ => none

def Desc.size (d : Desc) : Nat := (fmtSize d.fmt).getD 1

/-- Elements of a 16-byte lane (R135). -/
def Desc.perLane (d : Desc) : Nat := 16 / d.size

/-- A format whose sign is a bit (R136): not the integers. -/
def fmtFloat (c : Nat) : Bool := !(c == 6 || c == 7 || c == 12)

/-- The extent of an axis. -/
def Desc.extent (d : Desc) (a : Nat) : Nat := d.ext.getD a 0

/-- A binomial coefficient, 0 when c < m (R134). -/
def binom (c m : Nat) : Nat :=
  ((List.range m).foldl (fun p i => p * (c - i)) 1) / ((List.range m).foldl (fun p i => p * (i + 1)) 1)

/-- colex_rank (R134). -/
def colexRank (strict : Bool) (a : List Nat) : Nat :=
  (a.zipIdx).foldl (fun r (v, i) => r + binom (if strict then v else v + i) (i + 1)) 0

/-- Factor count of a generator (R134). -/
def Desc.genCount (d : Desc) (g : Gen) : Nat :=
  let n := d.extent (g.axes.headD 0)
  let k := g.axes.length
  match g.kind with
  | 0 => binom (n + k - 1) k
  | 1 => binom n k
  | 2 => n
  | _ => (n + 1) / 2

/-- The generator that names an axis. -/
def Desc.genAt (d : Desc) (a : Nat) : Option Gen := d.gens.find? fun g => g.axes.contains a

/-- The packed factors in order: each axis or generator with its count (R134). -/
def Desc.counts (d : Desc) : List Nat :=
  (List.range d.rank).filterMap fun a => match d.genAt a with
    | none => some (d.extent a)
    | some g => if g.axes.headD 0 = a then some (d.genCount g) else none

/-- The packed count P (R134). -/
def Desc.packed (d : Desc) : Nat := d.counts.foldl (· * ·) 1

/-- A generator's own rules (R131, R132). -/
def Desc.genOk (d : Desc) (w : Nat) : Bool :=
  let g := genOf w
  let k := g.axes.length
  let n := d.extent (g.axes.headD 0)
  w / 64 % 2 ^ 23 == 0
    && (g.kind == 3 || !g.neg)
    && (match g.kind with
        | 0 | 1 => decide (2 ≤ k)
        | 2 => k == 2
        | _ => k == 1)
    && g.axes.all (fun a => decide (a < d.rank))
    && g.axes.all (fun a => d.extent a == n)
    && (g.kind != 1 || decide (k ≤ n))

/-- No axis lies in two generators (R132). -/
def disjointAxes : List Gen → Bool
  | [] => true
  | g :: t => (t.all fun h => g.axes.all fun a => !h.axes.contains a) && disjointAxes t

/-- A descriptor of non-zero rank is well formed (R130, R132). -/
def descOk (b : Block64) : Bool :=
  let d := descOf b
  let ngen := blk b 48 8
  let word (n : Nat) : Nat := blk b (256 + 32 * n) 32
  decide (1 ≤ d.rank) && decide (d.rank ≤ 6)
    && (fmtSize d.fmt).isSome
    && decide (ngen ≤ 3)
    && blk b 56 8 == 0 && blk b 352 160 == 0
    && (List.range 6).all (fun n =>
        if n < d.rank then decide (1 ≤ blk b (64 + 32 * n) 32) && decide (blk b (64 + 32 * n) 32 ≤ 2097152)
        else blk b (64 + 32 * n) 32 == 0)
    && (List.range 3).all (fun n => if n < ngen then d.genOk (word n) else word n == 0)
    && disjointAxes d.gens
    && decide ((d.gens.filter fun g => g.kind == 2).length ≤ 1)
    && d.base % d.size == 0
    && decide (d.packed < 2 ^ 32)
    && decide (d.base + d.packed * d.size ≤ 2 ^ 22)

/-! ### Representatives (R133, R134) -/

/-- A value placed in an ascending list. -/
def insertUp (x : Nat) : List Nat → List Nat
  | [] => [x]
  | y :: t => if x ≤ y then x :: y :: t else y :: insertUp x t

def sortUp : List Nat → List Nat
  | [] => []
  | x :: t => insertUp x (sortUp t)

/-- Pairs out of order: their parity is that of the sorting permutation. -/
def inversions : List Nat → Nat
  | [] => 0
  | x :: t => (t.filter fun y => decide (y < x)).length + inversions t

def fact (n : Nat) : Nat := (List.range n).foldl (fun p i => p * (i + 1)) 1

/-- Some value occurs twice. -/
def hasTwin : List Nat → Bool
  | [] => false
  | x :: t => t.contains x || hasTwin t

/-- Orderings of a list of values: k! over the factorials of their counts (R133). -/
def orderings (v : List Nat) : Nat :=
  fact v.length / (v.eraseDups.foldl (fun p x => p * fact (v.count x)) 1)

/-- Values put on axes of a tuple. -/
def putAxes (idx : List Nat) : List Nat → List Nat → List Nat
  | a :: as, v :: vs => putAxes (idx.set a v) as vs
  | _, _ => idx

/-- A generator's row of R133. -/
structure GenMap where
  rep : List Nat
  neg : Bool
  size : Nat
  zero : Bool
  value : Nat
  deriving DecidableEq, Repr

def Desc.mapGen (d : Desc) (g : Gen) (idx : List Nat) : GenMap :=
  let vs := g.axes.map fun a => idx.getD a 0
  let n := d.extent (g.axes.headD 0)
  let x := vs.headD 0
  match g.kind with
  | 0 => ⟨putAxes idx g.axes (sortUp vs), false, orderings vs, false, colexRank false (sortUp vs)⟩
  | 1 => ⟨putAxes idx g.axes (sortUp vs), inversions vs % 2 == 1, orderings vs, hasTwin vs,
      colexRank true (sortUp vs)⟩
  | 2 =>
      let v := (vs.getD 1 0 + n - x) % n
      ⟨putAxes idx g.axes [0, v], false, n, false, v⟩
  | _ =>
      let r := min x (n - 1 - x)
      let mid := x == n - 1 - x
      ⟨putAxes idx g.axes [r], g.neg && decide (n - 1 - x < x), if mid then 1 else 2, g.neg && mid, r⟩

/-- What orbit_rep gives (R134): the representative, its sign, multiplicity and packed offset. -/
structure Rep where
  rep : List Nat
  sign : Int
  mult : Nat
  off : Nat
  deriving DecidableEq, Repr

/-- orbit_rep (R134). -/
def Desc.orbitRep (d : Desc) (idx : List Nat) : Rep :=
  let ms := d.gens.map fun g => (g, d.mapGen g idx)
  let rep := ms.foldl (fun r (g, m) => putAxes r g.axes (g.axes.map fun a => m.rep.getD a 0)) idx
  let zero := ms.any fun m => m.2.zero
  let neg := ms.foldl (fun b m => b != m.2.neg) false
  let value (a : Nat) : Option (Nat × Nat) :=
    match ms.find? fun m => m.1.axes.contains a with
    | none => some (d.extent a, idx.getD a 0)
    | some (g, m) => if g.axes.headD 0 = a then some (d.genCount g, m.value) else none
  let off := ((List.range d.rank).filterMap value).foldl (fun o f => o * f.1 + f.2) 0
  { rep, sign := if zero then 0 else if neg then -1 else 1
    mult := ms.foldl (fun p m => p * m.2.size) 1, off := if zero then 0 else off }

/-! ### Elements and tuples (R136, R137) -/

/-- neg_elem (R136). -/
def negElem (fmt w v : Nat) : Nat :=
  if fmtFloat fmt then v ^^^ 2 ^ (w - 1) else (2 ^ w - v) % 2 ^ w

/-- A zero of a format: ±0 or 0 (R144). -/
def zeroElem (fmt w v : Nat) : Bool := if fmtFloat fmt then v % 2 ^ (w - 1) == 0 else v == 0

/-- The index tuple of two scalar registers (R137). -/
def State.tuple (s : State) (d : Desc) (a b : Fin 32) : List Nat :=
  let f (v : Word) : List Nat := [bitsOf v 0 21, bitsOf v 21 21, bitsOf v 42 21]
  (f (s.rs a) ++ f (s.rs b)).take d.rank

def Desc.inside (d : Desc) (t : List Nat) : Bool := (t.zip d.ext).all fun (x, n) => decide (x < n)

/-- The tuple of a tile position: lane row, element c (R137); none outside the window. -/
def Desc.posTuple (d : Desc) (orig : List Nat) (r c : Nat) : Option (List Nat) :=
  let k := d.rank
  if k = 1 then (if r = 0 then some [orig.headD 0 + c] else none)
  else some ((orig.set (k - 2) (orig.getD (k - 2) 0 + r)).set (k - 1) (orig.getD (k - 1) 0 + c))

/-- The window's positions in row-major order. -/
def Desc.positions (d : Desc) : List (Nat × Nat) :=
  (List.range 128).flatMap fun r => (List.range d.perLane).map fun c => (r, c)

/-- The position of a tuple in the window (R145). -/
def Desc.posOf (d : Desc) (orig t : List Nat) : Option (Nat × Nat) :=
  let k := d.rank
  let r := if k = 1 then 0 else t.getD (k - 2) 0 - orig.getD (k - 2) 0
  let c := t.getD (k - 1) 0 - orig.getD (k - 1) 0
  if d.posTuple orig r c = some t && decide (r < 128) && decide (c < d.perLane) then some (r, c) else none

/-- The scratchpad byte of a packed offset (R136). -/
def Desc.at (d : Desc) (off : Nat) : Nat := d.base + off * d.size

/-- An element of packed storage. -/
def State.packedElem (s : State) (d : Desc) (off : Nat) : Nat :=
  leVal (s.scrBytes s.cur (d.at off) d.size)

/-- An element of a tile. -/
def Desc.tileElem (d : Desc) (t : Tile) (r c : Nat) : Nat :=
  (t.extractLsb' (128 * r + 8 * d.size * c) (8 * d.size)).toNat

/-! ### Checks -/

/-- ORBIT_RANGE's and SYM_BREAK's EINFO (R146). -/
def orbitInfo (reason axis : Nat) : Word := BitVec.ofNat 64 (axis % 16 * 16 + reason % 16)
def symInfo (kind row col : Nat) : Word := BitVec.ofNat 64 (row * 2 ^ 9 + col * 2 ^ 4 + kind)

def State.oreg (s : State) (o : Fin 8) : Block64 := s.src.o[o]

/-- ORBIT_RANGE reason 2: a register that describes no tensor (R73). -/
def State.orbitOk (s : State) (o : Fin 8) : Verdict :=
  trapIf ((descOf (s.oreg o)).rank == 0) .orbitRange (orbitInfo 2 0)

/-- ORBIT_RANGE reason 3; of several axes out of range it names the lowest (R141, R144; log 92, DEDUCED). -/
def Desc.rangeOk (d : Desc) (t : List Nat) : Verdict :=
  match (t.zip d.ext).findIdx? fun (x, n) => decide (n ≤ x) with
  | some a => .trap .orbitRange (orbitInfo 3 a)
  | none => .go

/-- The verdict of the lowest place that does not go. -/
def firstBad (l : List Nat) (f : Nat → Verdict) : Verdict :=
  ((l.foldl (fun (acc : Option (Nat × Verdict)) p =>
    match acc with
    | some (q, v) => if q ≤ p then some (q, v) else match f p with
        | .go => some (q, v)
        | v' => some (p, v')
    | none => match f p with
        | .go => none
        | v' => some (p, v')) none).map (·.2)).getD .go

/-- Elements read and written: all must be held, then declared (R147, R396). The reads are reported before the writes,
and of an instruction's elements the lowest address (log 107, DESIGN CHOICE). -/
def State.elemsOk (s : State) (eng size : Nat) (rd wr : List Nat) : Verdict :=
  (firstBad (rd ++ wr) fun p => s.ownHeld p size).and
    ((firstBad rd fun p => s.escape eng false none p size).and
      (firstBad wr fun p => s.escape eng true none p size))

/-- The orbit unit starts an instruction and is busy for n cycles (R135, R396). -/
def State.useUnit (s : State) (n : Nat) : State :=
  s.modMyCore fun c => { c with orbFree := s.cycle + max 1 n }

/-! ### ORBLD.d (R140) -/

/-- Offset of a descriptor or destination operand: 64 bytes, within the scratchpad. -/
def State.orbOff (s : State) (x : Fin 32) (imm : Nat) : Nat := s.scrOff x (imm * 64) 64

/-- ORBLD.d: the descriptor is read at issue, and checked when it retires 12 cycles later, until
when the rest of its bundle is held (R135, R140, R245, R396). -/
def execOrbldD (o : Fin 8) (x : Fin 32) (imm : BitVec 19) (s : State) : Res :=
  s.guard (s.ownOk engLsu false (s.orbOff x imm.toNat) 64) fun s =>
    let d := ofLe 512 (s.scrBytes s.cur (s.orbOff x imm.toNat) 64)
    ((s.useUnit 1).issueOp (some .ld) kLd [] [.o o] (.descr o d) (s.cycle + 12)
      (.loadWriteback s.cur)).modMe fun c => { c with wait := .reply, checks := c.checks ++ [c.word] }

/-! ### ORBOFS (R141) -/

def signCode (sg : Int) : Nat := if sg = 1 then 1 else if sg = -1 then 3 else 0

def State.orbofsOk (s : State) (o : Fin 8) (a b : Fin 32) : Verdict :=
  let d := descOf (s.oreg o)
  (s.orbitOk o).and (d.rangeOk (s.tuple d a b))

def execOrbofs (d : Fin 32) (o : Fin 8) (a b : Fin 32) (s : State) : Res :=
  s.guard (s.orbofsOk o a b) fun s =>
    let ds := descOf (s.oreg o)
    let r := ds.orbitRep (s.tuple ds a b)
    (s.useUnit 1).putS d
      (BitVec.ofNat 64 (r.mult % 2 ^ 30 * 2 ^ 34 + signCode r.sign * 2 ^ 32 + r.off)) 3

/-! ### ORBLD, tile form (R142) -/

/-- The window's positions inside the extents that are not structural zeros: position, sign and
packed place. -/
def Desc.window (d : Desc) (orig : List Nat) : List ((Nat × Nat) × Rep) :=
  d.positions.filterMap fun (r, c) => match d.posTuple orig r c with
    | some t => if d.inside t then some ((r, c), d.orbitRep t) else none
    | none => none

def State.orbldReads (s : State) (d : Desc) (a b : Fin 32) : List Nat :=
  (d.window (s.tuple d a b)).filterMap fun (_, r) => if r.sign = 0 then none else some (d.at r.off)

def State.orbldOk (s : State) (o : Fin 8) (a b : Fin 32) : Verdict :=
  let d := descOf (s.oreg o)
  (s.orbitOk o).and (s.elemsOk engLsu d.size (s.orbldReads d a b) [])

/-- An element as R142 reads it. -/
def State.orbitElem (s : State) (d : Desc) (r : Rep) : Nat :=
  if r.sign = 0 then 0
  else
    let v := s.packedElem d r.off
    if r.sign = -1 then negElem d.fmt (8 * d.size) v else v

/-- The tile that ORBLD writes. -/
def State.orbldTile (s : State) (d : Desc) (a b : Fin 32) : Tile :=
  BitVec.ofNat 16384 ((d.window (s.tuple d a b)).foldl
    (fun acc (p, r) => acc + s.orbitElem d r * 2 ^ (128 * p.1 + 8 * d.size * p.2)) 0)

def execOrbldTile (t : Fin 16) (o : Fin 8) (a b : Fin 32) (s : State) : Res :=
  s.guard (s.orbldOk o a b) fun s =>
    let d := descOf (s.oreg o)
    let n := 8 * d.perLane
    ((s.useUnit n).wr fun r => r.wt t (s.orbldTile d a b)).issueOp (some .ld) kLd [] [.t t] .settled
      (s.cycle + 12 + n) (.loadWriteback s.cur)

/-! ### ORBST (R144, R145) -/

/-- The bytes of an element at a packed place. -/
def Desc.elemBytes (d : Desc) (off v : Nat) : List (Nat × Byte) :=
  (leBytes d.size v).zipIdx.map fun (b, k) => (d.at off + k, b)

def State.orbstVal (s : State) (d : Desc) (v : Fin 32) : Nat := (s.rs v).toNat % 2 ^ (8 * d.size)

def State.orbstScalarOk (s : State) (o : Fin 8) (a b v : Fin 32) : Verdict :=
  let d := descOf (s.oreg o)
  let r := d.orbitRep (s.tuple d a b)
  (s.orbitOk o).and ((d.rangeOk (s.tuple d a b)).and
    (if r.sign = 0 then
      trapIf (!zeroElem d.fmt (8 * d.size) (s.orbstVal d v)) .symBreak (symInfo 0 0 0)
    else s.ownOk engLsu true (d.at r.off) d.size))

/-- Scalar ORBST (R144). -/
def execOrbstScalar (o : Fin 8) (a b v : Fin 32) (s : State) : Res :=
  s.guard (s.orbstScalarOk o a b v) fun s =>
    let d := descOf (s.oreg o)
    let r := d.orbitRep (s.tuple d a b)
    let x := s.orbstVal d v
    let y := if r.sign = -1 then negElem d.fmt (8 * d.size) x else x
    let s' := if r.sign = 0 then s else s.writeCells (d.elemBytes r.off y) none
    (s'.useUnit 1).issueOp (some .st) kSt [] [] .settled (s.cycle + 1) (.storePerform s.cur)

/-- A position is canonical: its tuple is its own representative, of sign not 0 (R145). -/
def Desc.canonical (d : Desc) (orig : List Nat) (p : (Nat × Nat) × Rep) : Bool :=
  p.2.sign != 0 && d.posTuple orig p.1.1 p.1.2 == some p.2.rep

/-- Packed places that a tile ORBST writes, and those whose stored value .chk reads (R145). -/
def State.orbstWrites (s : State) (d : Desc) (a b : Fin 32) : List ((Nat × Nat) × Rep) :=
  (d.window (s.tuple d a b)).filter (d.canonical (s.tuple d a b))

def State.orbstReads (s : State) (d : Desc) (chk : Bool) (a b : Fin 32) : List Nat :=
  let orig := s.tuple d a b
  if chk then (d.window orig).filterMap fun p =>
    if p.2.sign = 0 ∨ d.canonical orig p = true ∨ (d.posOf orig p.2.rep).isSome then none
    else some (d.at p.2.off)
  else []

/-- One comparison of .chk (R145). -/
def State.chkOk (s : State) (d : Desc) (orig : List Nat) (t : Tile) (p : (Nat × Nat) × Rep) : Bool :=
  let w := 8 * d.size
  let v := d.tileElem t p.1.1 p.1.2
  if p.2.sign = 0 then zeroElem d.fmt w v
  else
    let e := match d.posOf orig p.2.rep with
      | some (r, c) => d.tileElem t r c
      | none => s.packedElem d p.2.off
    let x := if p.2.sign = -1 then negElem d.fmt w e else e
    v == x || (fmtFloat d.fmt && zeroElem d.fmt w v && zeroElem d.fmt w x)

/-- The checks of .chk: SYM_BREAK at the first mismatch (R145, R146). -/
def State.chkTile (s : State) (d : Desc) (orig : List Nat) (t : Tile) : Verdict :=
  match (d.window orig).find? fun p => !d.canonical orig p && !s.chkOk d orig t p with
  | some p => .trap .symBreak (symInfo 1 p.1.1 p.1.2)
  | none => .go

def State.orbstTileOk (s : State) (chk : Bool) (o : Fin 8) (t : Fin 16) (a b : Fin 32) : Verdict :=
  let d := descOf (s.oreg o)
  let orig := s.tuple d a b
  (s.orbitOk o).and ((s.elemsOk engLsu d.size (s.orbstReads d chk a b)
      ((s.orbstWrites d a b).map fun p => d.at p.2.off)).and
    (if chk then s.chkTile d orig s.src.t[t] else .go))

/-- Tile ORBST (R145): its checks and writes are one access, and the scratchpad port is held for
2·ceil(128·E / 16) + 12 cycles (R396). -/
def execOrbstTile (chk : Bool) (o : Fin 8) (t : Fin 16) (a b : Fin 32) (s : State) : Res :=
  s.guard (s.orbstTileOk chk o t a b) fun s =>
    let d := descOf (s.oreg o)
    let tile := s.src.t[t]
    let n := 8 * d.perLane
    let bs := (s.orbstWrites d a b).flatMap fun p =>
      d.elemBytes p.2.off (d.tileElem tile p.1.1 p.1.2)
    let s' := (s.writeCells bs none).modMyCore fun c => { c with portFree := s.cycle + 2 * n + 12 }
    (s'.useUnit n).issueOp (some .st) kSt [] [] .settled (s.cycle + 2 * n + 12) (.storePerform s.cur)

/-! ### ORBX (R143, R397) -/

/-- The tuples of a tensor in row-major order, last axis fastest. -/
def allTuples : List Nat → List (List Nat)
  | [] => [[]]
  | n :: t => (List.range n).flatMap fun x => (allTuples t).map (x :: ·)

/-- Elements of the whole tensor, and bytes of its general storage. -/
def Desc.total (d : Desc) : Nat := d.ext.foldl (· * ·) 1

/-- ORBX's destination: not aligned (R143). -/
def State.orbxDst (s : State) (x : Fin 32) (imm : BitVec 20) : Nat :=
  ((s.rs x).toNat + 64 * imm.toNat) % 2 ^ 22

/-- Packed places that ORBX reads. -/
def Desc.allReads (d : Desc) : List Nat :=
  ((allTuples d.ext).map d.orbitRep).filterMap fun r =>
    if r.sign = 0 then none else some (d.at r.off)

/-- ORBX's checks: reason 4 comes before reason 5 (R143; log 93, DEDUCED). -/
def State.orbxOk (s : State) (o : Fin 8) (x : Fin 32) (imm : BitVec 20) : Verdict :=
  let d := descOf (s.oreg o)
  let dst := s.orbxDst x imm
  let n := d.total * d.size
  (s.orbitOk o).and
  ((trapIf (pastScr dst n) .orbitRange (orbitInfo 4 0)).and
  ((trapIf (overlap dst (dst + n) d.base (d.base + d.packed * d.size)) .orbitRange (orbitInfo 5 0)).and
  ((firstBad d.allReads fun p => s.ownHeld p d.size).and
  ((s.ownHeld dst n).and
  ((firstBad d.allReads fun p => s.escape engCpy false none p d.size).and
    (s.escape engCpy true none dst n))))))

/-- ORBX: every packed value as it stands at issue, written by retirement (R397). -/
def execOrbx (o : Fin 8) (x : Fin 32) (imm : BitVec 20) (s : State) : Res :=
  s.guard (s.orbxOk o x imm) fun s =>
    let d := descOf (s.oreg o)
    let dst := s.orbxDst x imm
    let bytes := (allTuples d.ext).flatMap fun t => leBytes d.size (s.orbitElem d (d.orbitRep t))
    let n := (d.total + 15) / 16
    (s.useUnit n).issueOp (some .tl) (kCr ||| kCw) [⟨dst, dst + bytes.length, true⟩] []
      (.copy (bytes.zipIdx.map fun (b, k) => (.known b, .scr s.cur (dst + k)))) (s.cycle + 12 + n)
      (.asyncRetire s.cur)

end Sys2Proof.Machine
end

