-- ==== Sys2Proof/Machine/Vector.lean ====
section
/-! DEFINITION. The vector words (R419 to R431), over the number formats of Float. -/

namespace Sys2Proof.Machine

/-! ### Elements (R419) -/

/-- Element e of w bits. -/
def velem (w : Nat) (v : Vec) (e : Nat) : Nat := (v.extractLsb' (w * e) w).toNat

/-- Elements of w bits packed from the lowest. -/
def packElems (w : Nat) (l : List Nat) : Nat := l.foldr (fun x acc => x % 2 ^ w + acc * 2 ^ w) 0

def vjoin (w : Nat) (l : List Nat) : Vec := BitVec.ofNat 2048 (packElems w l)

/-- Elements of a vector. -/
def vcount (w : Nat) : Nat := 2048 / w

/-- Element e is enabled under a mask field (R341, R419). -/
def Regs.on (r : Regs) (msk : Fin 8) (w e : Nat) : Bool :=
  msk == 0 || r.m[msk].getLsbD (w * e / 32)

/-- A destination of w-bit elements: enabled ones are computed, others keep what vD held. -/
def Regs.vmap (r : Regs) (w : Nat) (msk : Fin 8) (d : Fin 32) (f : Nat → Nat × Flags) :
    Vec × Flags :=
  let l := (List.range (vcount w)).map fun e =>
    if r.on msk w e then f e else (velem w r.v[d] e, 0)
  (vjoin w (l.map (·.1)), l.foldl (fun a x => a ||| x.2) 0)

/-- The format of a floating type; binary64 for the others, which no rounding word takes. -/
def fmtOf : VTy → Fmt
  | .f32 => fF32 | .f16 => fF16 | .bf16 => fBf16 | .e4m3 => fE4m3 | .e5m2 => fE5m2
  | .e3m2 => fE3m2 | .e2m3 => fE2m3 | .e2m1 => fE2m1
  | _ => fF64

def ftyOf : FTy → Fmt
  | .f64 => fF64 | .f32 => fF32 | .f16 => fF16 | .bf16 => fBf16

/-- The MX element format of a type (R427). -/
def mxOf : VTy → MxFmt
  | .mi8 => .int8
  | t => .flt (fmtOf t)

def State.env (s : State) (m : VMod) : Env := envOf s.src.fpctl m.rnd

/-- A vector word's checks and its destination: R229, FP_TRAP, then vD and the flags (R420, R421). -/
def State.vecWord (s : State) (d : Fin 32) (r : Vec × Flags) (lat : Nat) : Res :=
  s.guard (s.transferOk.and (s.fpOk r.2)) fun s =>
    ((s.wr fun x => x.wv d r.1).raise r.2).readyIn (.v d) lat

/-- The same for a mask destination. -/
def State.maskWord (s : State) (d : Fin 8) (v : Word) (fl : Flags) (lat : Nat) : Res :=
  s.guard (s.transferOk.and (s.fpOk fl)) fun s =>
    ((s.wr fun x => x.wm d v).raise fl).readyIn (.m d) lat

/-! ### Two-source elementwise words (R423) -/

/-- Two operands on integers, wrapping; signed values for the types i. -/
def intElem (w : Nat) (sg : Bool) (op : Int → Int → Int) (a b : Nat) : Nat × Flags :=
  (intCode w (op (codeInt w sg a) (codeInt w sg b)), 0)

/-- A two-source word on elements of one type. -/
def State.two (s : State) (d a b : Fin 32) (ty : VTy) (m : VMod) (lat : Nat)
    (f : Nat → Nat → Nat × Flags) : Res :=
  let w := ty.width
  let r := s.src
  s.vecWord d (r.vmap w m.msk d fun e => f (velem w r.v[a] e) (velem w r.v[b] e)) lat

/-- A two-source word with an integer and a floating meaning. -/
def State.arith (s : State) (d a b : Fin 32) (ty : VTy) (m : VMod) (ilat flat : Nat)
    (i : Int → Int → Int) (f : Fmt → Env → Nat → Nat → Nat × Flags) : Res :=
  if ty.isInt then s.two d a b ty m ilat (intElem ty.width ty.isSigned i)
  else s.two d a b ty m flat (f (fmtOf ty) (s.env m))

def execVadd (d a b : Fin 32) (ty : VTy) (mo : VMod) (s : State) : Res :=
  s.arith d a b ty mo 2 4 (· + ·) fpAdd
def execVsub (d a b : Fin 32) (ty : VTy) (mo : VMod) (s : State) : Res :=
  s.arith d a b ty mo 2 4 (· - ·) fpSub
def execVmul (d a b : Fin 32) (ty : VTy) (mo : VMod) (s : State) : Res :=
  s.arith d a b ty mo 3 4 (· * ·) fpMul
def execVmin (d a b : Fin 32) (ty : VTy) (mo : VMod) (s : State) : Res :=
  s.arith d a b ty mo 2 4 (fun x y => min x y) fun f e => fpMinMax f e false
def execVmax (d a b : Fin 32) (ty : VTy) (mo : VMod) (s : State) : Res :=
  s.arith d a b ty mo 2 4 (fun x y => max x y) fun f e => fpMinMax f e true

/-- Ready times of VDIV and VSQRT, and of the other functions of R103 (R421). -/
def divLat (ty : VTy) : Nat := if ty.width = 64 then 24 else 12
def fnLat (ty : VTy) : Nat := if ty.width = 64 then 20 else 10

def execVdiv (d a b : Fin 32) (ty : VTy) (mo : VMod) (s : State) : Res :=
  s.two d a b ty mo (divLat ty) (fpDiv (fmtOf ty) (s.env mo))

/-- max(d, a), then min with b (R423). -/
def clampElem (ty : VTy) (env : Env) (d a b : Nat) : Nat × Flags :=
  if ty.isInt then
    intElem ty.width ty.isSigned (fun x y => min x y)
      (intElem ty.width ty.isSigned (fun x y => max x y) d a).1 b
  else
    let x := fpMinMax (fmtOf ty) env true d a
    let y := fpMinMax (fmtOf ty) env false x.1 b
    (y.1, x.2 ||| y.2)

def execVclamp (d a b : Fin 32) (ty : VTy) (mo : VMod) (s : State) : Res :=
  let w := ty.width
  let r := s.src
  s.vecWord d (r.vmap w mo.msk d fun e =>
    clampElem ty (s.env mo) (velem w r.v[d] e) (velem w r.v[a] e) (velem w r.v[b] e))
    (if ty.isInt then 2 else 4)

/-- VAND, VOR, VXOR: bitwise; TY does not change the effect, so a mask lets through whole lanes (R419, R423). -/
def State.bitwise (s : State) (d a b : Fin 32) (_ty : VTy) (m : VMod) (f : Nat → Nat → Nat) : Res :=
  let r := s.src
  s.vecWord d (r.vmap 32 m.msk d fun e => (f (velem 32 r.v[a] e) (velem 32 r.v[b] e), 0)) 2

def execVand (d a b : Fin 32) (ty : VTy) (mo : VMod) (s : State) : Res :=
  s.bitwise d a b ty mo (· &&& ·)
def execVor (d a b : Fin 32) (ty : VTy) (mo : VMod) (s : State) : Res :=
  s.bitwise d a b ty mo (· ||| ·)
def execVxor (d a b : Fin 32) (ty : VTy) (mo : VMod) (s : State) : Res :=
  s.bitwise d a b ty mo (· ^^^ ·)

/-- Shifts take their count modulo w (R423). -/
def execVshl (d a b : Fin 32) (ty : VTy) (mo : VMod) (s : State) : Res :=
  s.two d a b ty mo 2 fun x y => (x * 2 ^ (y % ty.width) % 2 ^ ty.width, 0)
def execVshr (d a b : Fin 32) (ty : VTy) (mo : VMod) (s : State) : Res :=
  s.two d a b ty mo 2 fun x y => (x / 2 ^ (y % ty.width), 0)
def execVsra (d a b : Fin 32) (ty : VTy) (mo : VMod) (s : State) : Res :=
  s.two d a b ty mo 2 fun x y =>
    (intCode ty.width (codeInt ty.width true x / 2 ^ (y % ty.width)), 0)

/-! ### One-source elementwise words (R422) -/

def State.one (s : State) (d a : Fin 32) (ty : VTy) (m : VMod) (lat : Nat) (f : Nat → Nat × Flags) :
    Res :=
  let w := ty.width
  let r := s.src
  s.vecWord d (r.vmap w m.msk d fun e => f (velem w r.v[a] e)) lat

def execVabs (d a : Fin 32) (ty : VTy) (mo : VMod) (s : State) : Res :=
  s.one d a ty mo 2 fun x =>
    (if ty.isInt then intCode ty.width (codeInt ty.width ty.isSigned x).natAbs
     else x % 2 ^ (ty.width - 1), 0)

def execVneg (d a : Fin 32) (ty : VTy) (mo : VMod) (s : State) : Res :=
  s.one d a ty mo 2 fun x =>
    (if ty.isInt then intCode ty.width (-(x : Int)) else x ^^^ 2 ^ (ty.width - 1), 0)

/-- VMOV passes bits, lane by lane: TY does not change the effect (R419, R422). -/
def execVmov (d a : Fin 32) (_ty : VTy) (mo : VMod) (s : State) : Res :=
  let r := s.src
  s.vecWord d (r.vmap 32 mo.msk d fun e => (velem 32 r.v[a] e, 0)) 2

def execVsqrt (d a : Fin 32) (ty : VTy) (mo : VMod) (s : State) : Res :=
  s.one d a ty mo (divLat ty) (fpSqrt (fmtOf ty) (s.env mo))
def execVrcp (d a : Fin 32) (ty : VTy) (mo : VMod) (s : State) : Res :=
  s.one d a ty mo (fnLat ty) (fpRcp (fmtOf ty) (s.env mo))
def execVrsq (d a : Fin 32) (ty : VTy) (mo : VMod) (s : State) : Res :=
  s.one d a ty mo (fnLat ty) (fpRsq (fmtOf ty) (s.env mo))
def execVexp2 (d a : Fin 32) (ty : VTy) (mo : VMod) (s : State) : Res :=
  s.one d a ty mo (fnLat ty) (fpExp2 (fmtOf ty) (s.env mo))
def execVlog2 (d a : Fin 32) (ty : VTy) (mo : VMod) (s : State) : Res :=
  s.one d a ty mo (fnLat ty) (fpLog2 (fmtOf ty) (s.env mo))

/-- VFMA (R429). -/
def execVfma (d a b c : Fin 32) (ft : FTy) (mo : VMod) (s : State) : Res :=
  let f := ftyOf ft
  let r := s.src
  s.vecWord d (r.vmap f.w mo.msk d fun e =>
    fpFma f (s.env mo) (velem f.w r.v[a] e) (velem f.w r.v[b] e) (velem f.w r.v[c] e)) 4

/-! ### Moving elements (R424) -/

/-- j := s[B] mod n. -/
def State.velemIx (s : State) (b : Fin 32) (ty : VTy) : Nat := (s.rs b).toNat % vcount ty.width

def execVbcast (d a b : Fin 32) (ty : VTy) (mo : VMod) (s : State) : Res :=
  let x := velem ty.width s.src.v[a] (s.velemIx b ty)
  s.vecWord d (s.src.vmap ty.width mo.msk d fun _ => (x, 0)) 2

def execVsplat (d a : Fin 32) (ty : VTy) (mo : VMod) (s : State) : Res :=
  let x := (s.rs a).toNat % 2 ^ ty.width
  s.vecWord d (s.src.vmap ty.width mo.msk d fun _ => (x, 0)) 2

def execVext (d a b : Fin 32) (ty : VTy) (s : State) : Res :=
  s.guard s.transferOk fun s =>
    s.putS d (BitVec.ofInt 64 (codeInt ty.width ty.isSigned (velem ty.width s.src.v[a] (s.velemIx b ty)))) 2

def execVins (d a b : Fin 32) (ty : VTy) (s : State) : Res :=
  let j := s.velemIx b ty
  let x := (s.rs a).toNat % 2 ^ ty.width
  let w := ty.width
  s.vecWord d (s.src.vmap w 0 d fun e => (if e = j then x else velem w s.src.v[d] e, 0)) 2

def execViota (d : Fin 32) (ty : VTy) (mo : VMod) (s : State) : Res :=
  let w := ty.width
  let below (e : Nat) : Nat := ((List.range e).filter fun k => s.src.on mo.msk w k).length
  s.vecWord d (s.src.vmap w mo.msk d fun e => (below e % 2 ^ w, 0)) 2

def execVperm (d a b : Fin 32) (_ty : VTy) (mo : VMod) (s : State) : Res :=
  let r := s.src
  s.vecWord d (r.vmap 32 mo.msk d fun i => (velem 32 r.v[a] (velem 32 r.v[b] i % 64), 0)) 3

def execVsel (d a b : Fin 32) (_ty : VTy) (mo : VMod) (s : State) : Res :=
  let r := s.src
  s.vecWord d (r.vmap 32 0 d fun i =>
    (velem 32 (if r.on mo.msk 32 i then r.v[a] else r.v[b]) i, 0)) 2

/-! ### Masks (R425) -/

/-- A comparison of two elements. -/
def cmpElem (ty : VTy) (env : Env) (cc : Fin 4) (a b : Nat) : Bool × Flags :=
  if ty.isInt then
    let x := codeInt ty.width ty.isSigned a
    let y := codeInt ty.width ty.isSigned b
    (match cc with
      | 0 => decide (x = y)
      | 1 => decide (x ≠ y)
      | 2 => decide (x < y)
      | 3 => decide (x ≤ y), 0)
  else fpCmp (fmtOf ty) env cc a b

/-- VCMP (R425). -/
def execVcmp (d : Fin 8) (a b : Fin 32) (ty : VTy) (cc : Fin 4) (mo : VMod) (s : State) : Res :=
  let r := s.src
  let w := ty.width
  let l := (List.range 64).map fun k =>
    let e := 32 * k / w
    if r.on mo.msk w e then cmpElem ty (s.env mo) cc (velem w r.v[a] e) (velem w r.v[b] e)
    else (r.m[d].getLsbD k, 0)
  s.maskWord d (BitVec.ofNat 64 (packElems 1 (l.map fun x => x.1.toNat)))
    (l.foldl (fun f x => f ||| x.2) 0) (if ty.isInt then 2 else 4)

/-- VMLOG (R425). -/
def execVmlog (d a b : Fin 8) (fn : Fin 4) (s : State) : Res :=
  let x := s.src.m[a]
  let y := s.src.m[b]
  s.maskWord d (match fn with
    | 0 => x &&& y
    | 1 => x ||| y
    | 2 => x ^^^ y
    | 3 => x &&& ~~~y) 0 2

/-! ### Conversions (R426 to R428) -/

/-- cvt() (R96, R426). -/
def cvtElem (src dst : VTy) (env : Env) (c : Nat) : Nat × Flags :=
  match src.isInt, dst.isInt with
  | true, true => (intCode dst.width (codeInt src.width src.isSigned c), 0)
  | true, false => intToFp (fmtOf dst) env (codeInt src.width src.isSigned c)
  | false, true => fpToInt dst.width dst.isSigned env ((fmtOf src).val env.daz c)
  | false, false => fpToFp (fmtOf src) (fmtOf dst) env c

def execVcvt (d a : Fin 32) (src dst : VTy) (q : Fin 4) (mo : VMod) (s : State) : Res :=
  let r := s.src
  let nS := vcount src.width
  let nD := vcount dst.width
  s.vecWord d (r.vmap dst.width mo.msk d fun e =>
    if nD ≤ nS then cvtElem src dst (s.env mo) (velem src.width r.v[a] (q.val * nD + e))
    else if q.val * nS ≤ e ∧ e < q.val * nS + nS then
      cvtElem src dst (s.env mo) (velem src.width r.v[a] (e - q.val * nS))
    else (velem dst.width r.v[d] e, 0)) 4

/-- Bits that 64 packed elements take (R427). -/
def mxBits (ty : VTy) : Nat := 64 * (mxOf ty).width

/-- VQNT (R427). -/
def execVqnt (d a b : Fin 32) (ty : VTy) (q : Fin 4) (mo : VMod) (s : State) : Res :=
  let r := s.src
  let xs := (List.range 64).map fun k => velem 32 r.v[a] k
  let (s0, e0, f0) := mxQuantise (mxOf ty) (s.env mo) (xs.take 32)
  let (s1, e1, f1) := mxQuantise (mxOf ty) (s.env mo) (xs.drop 32)
  let p := packElems (mxOf ty).width (e0 ++ e1)
  let n := mxBits ty
  let keep (e : Nat) : Bool := decide (8 * e < q.val * n) || decide (q.val * n + n ≤ 8 * e)
  let v := r.vmap 8 0 d fun e =>
    (if keep e then velem 8 r.v[d] e else p / 2 ^ (8 * e - q.val * n) % 256, 0)
  s.guard (s.transferOk.and (s.fpOk (f0 ||| f1))) fun s =>
    (((s.wr fun x => x.wv d v.1).raise (f0 ||| f1)).readyIn (.v d) 8).putS b
      (BitVec.ofNat 64 (s0 + 256 * s1)) 8

/-- VDEQ (R428). -/
def execVdeq (d a b : Fin 32) (ty : VTy) (q : Fin 4) (mo : VMod) (s : State) : Res :=
  let r := s.src
  let w := (mxOf ty).width
  let sc (i : Nat) : Nat := bitsOf (s.rs b) (if i < 32 then 0 else 8) 8
  s.vecWord d (r.vmap 32 mo.msk d fun i =>
    mxDequant (mxOf ty) (s.env mo) (sc i) (r.v[a].extractLsb' (q.val * mxBits ty + w * i) w).toNat) 4

/-! ### Reductions and scans (R430) -/

/-- One step: acc is the first operand. A float minimum or maximum steps as VMIN and VMAX do, where a number wins over a
NaN (R102, R430; log 106, DESIGN CHOICE). -/
def redStep (op : RedOp) (ty : VTy) (env : Env) (acc x : Nat) : Nat × Flags :=
  if ty.isInt then
    match op with
    | .add => intElem ty.width ty.isSigned (· + ·) acc x
    | .min => intElem ty.width ty.isSigned (fun a b => min a b) acc x
    | .max => intElem ty.width ty.isSigned (fun a b => max a b) acc x
  else
    match op with
    | .add => fpAdd (fmtOf ty) env acc x
    | .min => fpMinMax (fmtOf ty) env false acc x
    | .max => fpMinMax (fmtOf ty) env true acc x

/-- Values after each element, in order: a disabled one adds nothing. -/
def scanGo (step : Nat → Nat → Nat × Flags) : Nat → Flags → List (Bool × Nat) →
    List Nat × Nat × Flags
  | acc, fl, [] => ([], acc, fl)
  | acc, fl, (on, x) :: t =>
      let (a, f) := if on then step acc x else (acc, 0)
      let (l, r) := scanGo step a (fl ||| f) t
      (a :: l, r)

def State.redInputs (s : State) (a : Fin 32) (ty : VTy) (m : VMod) : List (Bool × Nat) :=
  (List.range (vcount ty.width)).map fun e => (s.src.on m.msk ty.width e, velem ty.width s.src.v[a] e)

def redLat (ty : VTy) : Nat := if ty.isInt then 8 else 16

def execVred (d a b : Fin 32) (ty : VTy) (op : RedOp) (mo : VMod) (s : State) : Res :=
  let w := ty.width
  let (_, acc, fl) := scanGo (redStep op ty (s.env mo)) (velem w s.src.v[b] 0) 0 (s.redInputs a ty mo)
  s.vecWord d (BitVec.ofNat 2048 acc, fl) (redLat ty)

def execVscan (d a b : Fin 32) (ty : VTy) (op : RedOp) (mo : VMod) (s : State) : Res :=
  let w := ty.width
  let (l, _, fl) := scanGo (redStep op ty (s.env mo)) (velem w s.src.v[b] (vcount w - 1)) 0
    (s.redInputs a ty mo)
  let v := s.src.vmap w mo.msk d fun e => (l.getD e 0, 0)
  s.vecWord d (v.1, fl) (redLat ty)

/-! ### Widening words (R431) -/

/-- widen(): exact; DAZ acts on the narrow float (R96, R431). -/
def widen (ty : VTy) (env : Env) (c : Nat) : Nat × Flags :=
  if ty.isInt then (intCode 32 (codeInt ty.width ty.isSigned c), 0)
  else fpToFp (fmtOf ty) fF32 { env with ftz := false } c

/-- A widening word: f takes lane i of vA, the widened elements, and lane i of vD. -/
def State.widening (s : State) (d a b : Fin 32) (ty : VTy) (q : Fin 4) (m : VMod)
    (useX : Bool) (f : Nat → Nat → Nat → Nat → Nat × Flags) : Res :=
  let r := s.src
  let w := ty.width
  s.vecWord d (r.vmap 32 m.msk d fun i =>
    let x := if useX then widen ty (s.env m) (velem w r.v[a] (64 * q.val + i)) else (0, 0)
    let y := widen ty (s.env m) (velem w r.v[b] (64 * q.val + i))
    let z := f (velem 32 r.v[a] i) x.1 y.1 (velem 32 r.v[d] i)
    (z.1, x.2 ||| y.2 ||| z.2)) 4

def execVwadd (d a b : Fin 32) (ty : VTy) (q : Fin 4) (mo : VMod) (s : State) : Res :=
  s.widening d a b ty q mo false fun a _ y _ =>
    if ty.isInt then intElem 32 true (· + ·) a y else fpAdd fF32 (s.env mo) a y

def execVwmul (d a b : Fin 32) (ty : VTy) (q : Fin 4) (mo : VMod) (s : State) : Res :=
  s.widening d a b ty q mo true fun _ x y _ =>
    if ty.isInt then intElem 32 true (· * ·) x y else fpMul fF32 (s.env mo) x y

def execVwmac (d a b : Fin 32) (ty : VTy) (q : Fin 4) (mo : VMod) (s : State) : Res :=
  s.widening d a b ty q mo true fun _ x y d =>
    if ty.isInt then (intCode 32 (codeInt 32 true d + codeInt 32 true x * codeInt 32 true y), 0)
    else fpFma fF32 (s.env mo) x y d

end Sys2Proof.Machine
end

