-- ==== Sys2Proof/Machine/Matrix.lean ====
section
/-! DEFINITION. The matrix array: group sums and folds (R98 to R101), its words and their events
(R105 to R128, R385 to R394), MCFG.orb (R148 to R150), and the shadow result buffer's replay
(R252 to R254). -/

namespace Sys2Proof.Machine

/-! ### Operand formats -/

/-- Elements of a group (R98, R105). -/
def groupSize : MFmt → Nat
  | .e2m1 => 32
  | .e4m3 | .e5m2 | .e3m2 | .e2m3 | .i8 | .mi8 => 16
  | .bf16 | .f16 | .i16 => 8
  | .f32 | .i32 => 4
  | .f64 => 2

/-- Cycles of a beat (R105). -/
def beatLen : MFmt → Nat
  | .f32 => 2 | .f64 => 4 | _ => 1

/-- Bits of an element (R106). -/
def elemBits : MFmt → Nat
  | .e2m1 => 4 | .e3m2 | .e2m3 => 6
  | .e4m3 | .e5m2 | .i8 | .mi8 => 8
  | .bf16 | .f16 | .i16 => 16
  | .f32 | .i32 => 32 | .f64 => 64

def mfmtFloat : MFmt → Option Fmt
  | .e2m1 => some fE2m1 | .e3m2 => some fE3m2 | .e2m3 => some fE2m3 | .e4m3 => some fE4m3
  | .e5m2 => some fE5m2 | .bf16 => some fBf16 | .f16 => some fF16 | .f32 => some fF32
  | .f64 => some fF64
  | _ => none

/-- The value of an element (R82, R85, R90); DAZ acts on the IEEE formats (R92). -/
def elemVal (f : MFmt) (daz : Bool) (code : Nat) : FV :=
  match mfmtFloat f with
  | some g => g.val daz code
  | none =>
      let k := codeInt (elemBits f) true code
      .fin (decide (k < 0)) k.natAbs (if f = .mi8 then -6 else 0)

/-- c(fmt) of the group adder; none where the sum is exact (R99). -/
def adderC : MFmt → Option Nat
  | .e4m3 | .e5m2 | .e3m2 | .e2m3 => some 12
  | .e2m1 => some 15
  | .bf16 => some 20
  | .f16 => some 25
  | _ => none

/-- A and B formats and accumulators that MCFG accepts (R108). -/
def pairOk (a b : MFmt) (acc : AFmt) : Bool :=
  let small (f : MFmt) : Bool := f == .e4m3 || f == .e5m2 || f == .e3m2 || f == .e2m3
  match acc with
  | .f32 => (small a && small b)
      || (a == b && (a == .e2m1 || a == .mi8 || a == .bf16 || a == .f16 || a == .f32))
  | .f64 => a == b && (a == .f32 || a == .f64)
  | .i32 => a == b && (a == .i8 || a == .i16)

/-! ### Group sums (R98) -/

/-- A group sum: a NaN, an infinity, a zero (cancelled or not), or a value. -/
inductive GSum where
  | nan
  | inf (neg : Bool)
  | zero (cancelled : Bool)
  | val (neg : Bool) (m : Nat) (e : Int)
  deriving DecidableEq, Repr

/-- Element k of a 16-byte lane (R106). -/
def laneElem (f : MFmt) (lane : BitVec 128) (k : Nat) : Nat :=
  (lane.extractLsb' (elemBits f * k) (elemBits f)).toNat

/-- The greatest c with binom(c, m) ≤ r, for colex unranking (R134). -/
def colexTop (m r : Nat) : Nat :=
  (List.range 34).reverse.foldl (fun c b => if binom (c + 2 ^ b) m ≤ r then c + 2 ^ b else c) 0

/-- The strict tuple of a colex rank, from its last value down. -/
def colexGo : Nat → Nat → List Nat
  | 0, _ => []
  | m + 1, r => let c := colexTop (m + 1) r; c :: colexGo m (r - binom c (m + 1))

/-- The multiplicity of the orbit at a K position (R133, R150). -/
def multAt (asym : Bool) (k p : Nat) : Nat :=
  let a := (colexGo k p).reverse
  if asym then fact k else orderings (a.zipIdx.map fun (c, i) => c - i)

/-- One term: its factors, its value with scales and multiplicity, and whether it is 0 × ∞. -/
structure Term where
  a : FV
  b : FV
  v : Option FV
  deriving DecidableEq, Repr

def termOf (a b : FV) (mult : Nat) (sc : Int) : Term :=
  ⟨a, b, (mulVal a b).map fun v => match v with
    | .fin n m e => .fin n (m * mult) (e + sc)
    | v => v⟩

/-- The terms of cell (i, j): K lanes neither masked nor padding (R98, R117). -/
def Group.terms (g : Group) (i j : Nat) : List Term :=
  let la := g.a.extractLsb' (128 * i) 128
  let lb := g.b.extractLsb' (128 * j) 128
  let sc : Int := if g.mx then
      (g.rowScale.extractLsb' (8 * i) 8).toNat + (g.colScale.extractLsb' (8 * j) 8).toNat - 254
    else 0
  ((List.range (min g.lanes (groupSize g.af))).filter fun k => match g.padK with
      | some d => decide (g.kpos + k < d)
      | none => true).map fun k =>
    termOf (elemVal g.af g.daz (laneElem g.af la k)) (elemVal g.bf g.daz (laneElem g.bf lb k))
      (match g.mul with
        | some (asym, n, _) => multAt asym n (g.kpos + k)
        | none => 1) sc

/-- An MX cell has a scale 0xFF (R85). -/
def Group.nanScale (g : Group) (i j : Nat) : Bool :=
  g.mx && ((g.rowScale.extractLsb' (8 * i) 8) == 0xFF#8 || (g.colScale.extractLsb' (8 * j) 8) == 0xFF#8)

/-- Non-zero finite terms as sign, mantissa, exponent. -/
def nonZero (ts : List Term) : List (Bool × Nat × Int) :=
  ts.filterMap fun t => match t.v with
    | some (.fin n m e) => if m = 0 then none else some (n, m, e)
    | _ => none

/-- A term in units of 2^we, truncated toward zero, and whether bits were lost. -/
def truncTerm (we : Int) (t : Bool × Nat × Int) : Int × Bool :=
  let (n, m, e) := t
  if we ≤ e then (sgn n (m <<< (e - we).toNat), false)
  else
    let sh := (we - e).toNat
    (sgn n (m >>> sh), m % 2 ^ sh != 0)

/-- The sum of non-zero terms (R98): exact, or truncated at 2^(E − c). -/
def sumTerms (c : Option Nat) (nz : List (Bool × Nat × Int)) : GSum × Flags :=
  match nz with
  | [] => (.zero false, 0)
  | t :: ts =>
      let lg (x : Bool × Nat × Int) : Int := x.2.2 + Nat.log2 x.2.1
      let we := match c with
        | some c => ts.foldl (fun m x => max m (lg x)) (lg t) - c
        | none => ts.foldl (fun m x => min m x.2.2) t.2.2
      let r := nz.map (truncTerm we)
      let v : Int := r.foldl (fun s x => s + x.1) 0
      let fl := if r.any (·.2) then NX else 0
      if v = 0 then (.zero true, fl) else (.val (decide (v < 0)) v.natAbs we, fl)

/-- group_sum (R98) of cell (i, j), with its flags. -/
def Group.sum (g : Group) (i j : Nat) : GSum × Flags :=
  let ts := g.terms i j
  let sig := ts.any fun t => t.a.isSig || t.b.isSig
  let nan := ts.any fun t => t.a.isNan || t.b.isNan
  let bad := ts.any fun t => !t.a.isNan && !t.b.isNan && t.v.isNone
  let infs := ts.filterMap fun t => match t.v with
    | some (.inf n) => some n
    | _ => none
  if nan || bad || (!ts.isEmpty && g.nanScale i j) then (.nan, if sig || bad then NV else 0)
  else match infs with
    | n :: t => if t.all (· == n) then (.inf n, 0) else (.nan, NV)
    | [] => sumTerms (adderC g.af) (nonZero ts)

/-! ### Folds (R100) -/

def accFmt : AFmt → Fmt
  | .f64 => fF64
  | _ => fF32

/-- fold (R100) of one sum into a cell's code. The NV of an invalid group is among the group's own
flags; a signalling NaN that the cell holds raises NV (R102). -/
def foldSum (acc : AFmt) (sat : Bool) (env : Env) (code : Nat) (x : GSum) : Nat × Flags :=
  match acc with
  | .i32 =>
      let d : Int := match x with
        | .val n m e => sgn n (m <<< e.toNat)
        | _ => 0
      let z := codeInt 32 true code + d
      let (lo, hi) := intRange 32 true
      if z < lo ∨ hi < z then
        (intCode 32 (if sat then (if z < lo then lo else hi) else z), IOVF)
      else (intCode 32 z, 0)
  | acc =>
      let f := accFmt acc
      match f.val env.daz code, x with
      | .nan _ quiet _, _ => (f.nanCode, if quiet then 0 else NV)
      | _, .nan => (f.nanCode, 0)
      | .inf n, .inf k => if n = k then (f.signed n f.infCode, 0) else (f.nanCode, NV)
      | .inf n, _ => (f.signed n f.infCode, 0)
      | _, .inf n => (f.signed n f.infCode, 0)
      | .fin n m e, .val k p q =>
          let (sg, v, ex) := addExact env n m e k p q
          roundTo f env sg v ex
      | .fin n m e, .zero c =>
          let (sg, v, ex) := addExact env n m e (c && env.rm == .rdn) 0 e
          roundTo f env sg v ex

/-! ### Windows (R111, R117) -/

/-- Array cells that a fold into a window writes: neither masked nor padding. -/
def Window.passed (w : Window) (acc : AFmt) : List (Nat × Nat) :=
  let c0 := if acc = .f64 then w.col0 / 2 * 2 else w.col0
  let rs := (List.range w.rows).filter fun i => match w.padM with
    | some d => decide (w.row0 + i < d)
    | none => true
  let cs := (List.range w.cols).filter fun j => match w.padN with
    | some d => decide (c0 + j < d)
    | none => true
  rs.flatMap fun i => cs.map fun j => (i, j)

/-- The store cells of array cell (i, j), by row · 512 + column: the low half first. -/
def Window.cells (w : Window) (acc : AFmt) (ij : Nat × Nat) : List Nat :=
  let r := (w.row0 + ij.1) % 512 * 512
  match acc with
  | .f64 =>
      let c0 := w.col0 / 2 * 2
      [r + (c0 + 2 * ij.2) % 512, r + (c0 + 2 * ij.2 + 1) % 512]
  | _ => [r + (w.col0 + ij.2) % 512]

def Window.all (w : Window) (acc : AFmt) : List Nat := (w.passed acc).flatMap (w.cells acc)

/-- The code in store cells, low half first. -/
def accCode (m : Cells 32) (cs : List Nat) : Nat :=
  cs.foldr (fun c v => (cget m c).toNat + 2 ^ 32 * v) 0

/-- A code put into store cells. -/
def putCode (m : Cells 32) : List Nat → Nat → Cells 32
  | [], _ => m
  | c :: t, v => putCode (cset m c (BitVec.ofNat 32 v)) t (v / 2 ^ 32)

/-- Groups folded into one cell, oldest first (R100). -/
def foldCell (acc : AFmt) (sat : Bool) (env : Env) (gs : List Group) (ij : Nat × Nat) (code : Nat) :
    Nat × Flags :=
  gs.foldl (fun (v, fl) g =>
    let (x, gf) := g.sum ij.1 ij.2
    let (v', ff) := foldSum acc sat env v x
    (v', fl ||| gf ||| ff)) (code, 0)

/-- Every cell of a window folded: the store after, and the flags (R100, R116). -/
def foldWindow (acc : AFmt) (sat : Bool) (env : Env) (gs : List Group) (w : Window) (m : Cells 32) :
    Cells 32 × Flags :=
  (w.passed acc).foldl (fun (m, fl) ij =>
    let cs := w.cells acc ij
    let (v, f) := foldCell acc sat env gs ij (accCode m cs)
    (putCode m cs v, fl ||| f)) (m, 0)

/-- A fold's record while it is not yet visible, and its FOLD_RETIRE (R113, R116): the fold performs
in cycle f, under trap enables that decide whether its flags trap. -/
def State.recordFold (s : State) (core f : Nat) (acc' : Cells 32) (cells : List Nat) (fl : Flags) (ten : BitVec 7) :
    State :=
  let id := s.nextOp
  let old := (s.core core).acc
  let s' := (s.modCore core fun c =>
    { c with
      acc := acc'
      arr := { c.arr with folds := c.arr.folds ++ [⟨id, f + 6, cells.map fun a => (a, cget old a), fl, ten⟩] } }).schedule
        (f + 7) (.foldRetire core id)
  { s' with nextOp := id + 1 }

/-- The ready groups folded into a window in cycle f under an FPCTL, and removed (R113). -/
def State.foldReady (s : State) (core f : Nat) (fpctl : BitVec 16) (w : Window) : State :=
  let a := (s.core core).arr
  let gs := a.pending.filter (·.ready.isSome)
  if gs.isEmpty then s
  else
    let s := s.modCore core fun c =>
      { c with arr := { c.arr with pending := c.arr.pending.filter (·.ready.isNone) } }
    let (m, fl) := foldWindow a.acc a.sat (envOf fpctl .dyn) gs w (s.core core).acc
    s.recordFold core f m (w.all a.acc) fl (tenOf fpctl)

/-- What an accumulator cell shows in a cycle: folds less than 6 cycles old are not seen (R113). -/
def Core.seen (c : Core) (cyc cell : Nat) : BitVec 32 :=
  match (c.arr.folds.filter fun f => decide (cyc < f.vis)).findSome? fun f =>
      (f.old.find? fun x => x.1 == cell).map (·.2) with
  | some v => v
  | none => cget c.acc cell

/-! ### Ownership and stalls -/

/-- What every MTX word but MOWN checks first (R385). -/
def State.mtxOk (s : State) : Verdict :=
  (trapIf (!s.holdsArr) .mtxNotOwned s.ownerOf).and
    (s.transferOk.and (s.illModIf s.myCore.arr.shadow.isSome))

/-- Cells that an outstanding ACOPY writes (R115). -/
def Core.acopyCells (c : Core) : List Nat :=
  c.ops.flatMap fun o => match o.what with
    | .cellsIn cs => cs.map (·.1)
    | _ => []

def meets (a b : List Nat) : Bool := a.any fun x => b.contains x

/-- The window of a fold under the masks and padding that stand (R117). -/
def Arr.window (a : Arr) (row0 col0 : Nat) : Window :=
  ⟨row0, col0, a.rows, a.cols, a.padM, a.padN⟩

/-- A fold into a window waits for an ACOPY that writes its cells (R115). -/
def State.foldOk (s : State) (w : Window) : Verdict :=
  waitIf (!s.myCore.acopyCells.isEmpty && meets (w.all s.myCore.arr.acc) s.myCore.acopyCells)

def State.modArr (s : State) (f : Arr → Arr) : State :=
  s.modMyCore fun c => { c with arr := f c.arr }

/-! ### MOWN and MREL (R109, R110, R393) -/

/-- Contexts parked for the array that come before one that has waited since a cycle: higher class
first, then oldest; of two that parked in one cycle the lower context goes first. One that forced pre-emption has frozen
is parked for the array no longer: its MOWN is issued again (R110, R256; log 89, DEDUCED). -/
def State.mownBefore (s : State) : Bool :=
  let mine := (s.effClass s.cur s.cix, s.since .mown)
  allCtx.any fun i =>
    i != s.cix && (match (s.ctx s.cur i).park with
      | some p => p.why == .mown && (decide (mine.1 < s.effClass s.cur i)
          || (s.effClass s.cur i == mine.1 && (decide (p.since < mine.2) || (p.since == mine.2 && decide (i < s.cix)))))
      | none => false)

def State.mownOk (s : State) : Verdict :=
  s.transferOk.and ((s.illModIf (s.holdsArr && s.myCore.arr.shadow.isSome)).and
    (waitIf (!s.holdsArr && (s.myCore.arr.owner.isSome || decide (s.cycle < s.myCore.arr.opens) || s.mownBefore)) .mown))

/-- MOWN: every item of R109 takes its value; the holder's MOWN has no effect (R110). -/
def execMown (s : State) : Res :=
  s.guard s.mownOk fun s =>
    if s.holdsArr then s
    else s.modArr fun a => { ({} : Arr) with owner := some s.cix, free := a.free }

/-- The array is freed in a cycle (R110): unfolded groups, their flags and the scale queue go; a parked MOWN acquires
it in the next (R393). -/
def Arr.release (a : Arr) (cyc : Nat) : Arr :=
  { a with owner := none, pending := [], queue := [], shadow := none, opens := cyc + 1 }

/-- An SQLD of a context is outstanding (R118, R411). -/
def Core.sqldOut (c : Core) (ix : Fin 4) : Bool :=
  c.ops.any fun o => o.ctx == ix && (match o.what with | .load (.scale _) _ => true | _ => false)

/-- MREL waits until the exposed pipeline is empty and the holder's SQLDs have retired (R110, R411). -/
def State.mrelOk (s : State) : Verdict := s.mtxOk.and (waitIf (s.myCore.piped || s.myCore.sqldOut s.cix))

/-- MREL (R110, R393). -/
def execMrel (s : State) : Res :=
  s.guard s.mrelOk fun s => s.modArr fun a => a.release s.cycle

/-! ### MCFG (R108, R122, R388) -/

/-- A destination format that an accumulator can drain to (R128). -/
def drainOk (acc : AFmt) (f : MFmt) : Bool :=
  match acc with
  | .f32 => f == .f32 || f == .bf16 || f == .f16 || f == .e4m3 || f == .e5m2
  | .f64 => f == .f64 || f == .f32
  | .i32 => f == .i32 || f == .i16 || f == .i8

/-- A format of R120 by its code. -/
def mfmtOfCode (c : Nat) : MFmt :=
  match c with
  | 0 => .e2m1 | 1 => .e3m2 | 2 => .e2m3 | 3 => .e4m3 | 4 => .e5m2 | 5 => .mi8 | 6 => .i8
  | 7 => .i16 | 8 => .bf16 | 9 => .f16 | 10 => .f32 | 11 => .f64 | _ => .i32

/-- ORBIT_RANGE reason 7 for an output binding (R149). -/
def outOk (acc : AFmt) (oc : Option Block64) : Verdict :=
  match oc with
  | some d => trapIf (!drainOk acc (mfmtOfCode (descOf d).fmt)) .orbitRange (orbitInfo 7 0)
  | none => .go

/-- The contracted axes of two bound descriptors (R150): kind, axes and extent of the matching
generators. -/
def mulMatch (a b : Option Block64) : Option (Bool × Nat × Nat) :=
  match a, b with
  | some a, some b =>
      let da := descOf a
      let db := descOf b
      match da.genAt (da.rank - 1), db.genAt 0 with
      | some g, some h =>
          let c := g.axes.length
          let n := da.extent (da.rank - 1)
          if g.kind < 2 && h.kind == g.kind && h.axes.length == c
              && g.axes == (List.range c).map (fun k => da.rank - c + k)
              && h.axes == List.range c && n == db.extent 0 then
            some (g.kind == 1, c, n)
          else none
      | _, _ => none
  | _, _ => none

/-- ORBIT_RANGE reason 6 (R150). -/
def mulOk (mul : Bool) (a b : Option Block64) : Verdict :=
  trapIf (mul && (mulMatch a b).isNone) .orbitRange (orbitInfo 6 0)

/-- What MCFG with F = 0 finds: an illegal pair of formats comes before an output binding that the accumulator cannot
drain to, as MCFG with F = 1 checks reason 7 last (R108, R388; log 109, DESIGN CHOICE). -/
def State.mcfgOk (s : State) (a b : MFmt) (acc : AFmt) : Verdict :=
  let r := s.myCore.arr
  s.mtxOk.and ((waitIf s.myCore.piped).and ((s.illModIf (!pairOk a b acc)).and
    ((outOk acc r.oc).and (mulOk r.mul r.oa r.ob))))

/-- MCFG with F = 0 (R122, R388). -/
def execMcfg (a b : MFmt) (acc : AFmt) (mx sat : Bool) (s : State) : Res :=
  s.guard (s.mcfgOk a b acc) fun s =>
    s.modArr fun r => { r with af := a, bf := b, acc, mx, sat, pending := [], kpos := 0 }

/-- The proven output group (R148): kind over axes (0, 1). -/
def provenKind (same : Bool) (a b : Option Block64) : Option Nat :=
  let circ (d : Block64) : Option Nat :=
    let x := descOf d
    if x.rank == 2 && x.extent 0 == x.extent 1 && x.gens.any (fun g => g.kind == 2 && g.axes == [0, 1]) then
      some (x.extent 0)
    else none
  match a, b with
  | some a, some b =>
      if same then some 0
      else match circ a, circ b with
        | some m, some n => if m = n then some 2 else none
        | _, _ => none
  | _, _ => none

/-- SYM_BREAK kind 2 for an output declaration that is not proven (R148). -/
def provenOk (same : Bool) (a b c : Option Block64) : Verdict :=
  match c with
  | some d =>
      trapIf ((descOf d).gens.any fun g => !(some g.kind == provenKind same a b && g.axes == [0, 1]))
        .symBreak (symInfo 2 0 0)
  | none => .go

def State.bound (s : State) (o : Option (Fin 8)) : Option Block64 := o.map s.oreg

def State.boundOk (s : State) (o : Option (Fin 8)) : Verdict :=
  match o with
  | some o => s.orbitOk o
  | none => .go

def State.mcfgOrbOk (s : State) (oa ob oc : Option (Fin 8)) (mul : Bool) : Verdict :=
  s.mtxOk.and ((waitIf s.myCore.piped).and ((s.boundOk oa).and ((s.boundOk ob).and ((s.boundOk oc).and
    ((mulOk mul (s.bound oa) (s.bound ob)).and
      ((provenOk (oa == ob) (s.bound oa) (s.bound ob) (s.bound oc)).and
        (outOk s.myCore.arr.acc (s.bound oc))))))))

/-- MCFG with F = 1: the descriptors are copied (R122, R388). -/
def execMcfgOrb (oa ob oc : Option (Fin 8)) (mul : Bool) (s : State) : Res :=
  s.guard (s.mcfgOrbOk oa ob oc mul) fun s =>
    s.modArr fun r =>
      { r with oa := s.bound oa, ob := s.bound ob, oc := s.bound oc, mul, pending := [], kpos := 0 }

/-! ### Masks and latches (R117, R123, R124, R126, R391, R394) -/

/-- MMASK: a count above its limit passes everything (R117, R391). -/
def execMmask (a b c : Fin 32) (s : State) : Res :=
  s.guard s.mtxOk fun s =>
    s.modArr fun r =>
      { r with rows := min 128 (s.rs a).toNat, cols := min 64 (s.rs b).toNat, lanes := (s.rs c).toNat
               padM := none, padN := none, padK := none }

/-- Latches loaded from a tile: a masked row takes zeros (R123). -/
def Arr.push (a : Arr) (t : Tile) : Arr :=
  { a with latches := BitVec.ofNat 16384 (t.toNat % 2 ^ (128 * min 128 a.rows)) }

/-- The array waits for a beat that still occupies it (R115). -/
def State.arrFree (s : State) : Verdict := waitIf (decide (s.cycle < s.myCore.arr.free))

def execMpush (t : Fin 16) (s : State) : Res :=
  s.guard (s.mtxOk.and s.arrFree) fun s =>
    s.modArr fun a => { a.push s.src.t[t] with free := s.cycle + 1 }

/-- The first n latches rotated by k (R124). -/
def rotate (t : Tile) (k n : Nat) : Tile :=
  let lane (i : Nat) : Nat := (t.extractLsb' (128 * i) 128).toNat
  BitVec.ofNat 16384 ((List.range 128).foldr (fun i v =>
    (if i < n then lane ((i + n - k) % n) else lane i) + 2 ^ 128 * v) 0)

def execMshift (k n1 : Fin 128) (s : State) : Res :=
  s.guard (s.mtxOk.and s.arrFree) fun s =>
    s.modArr fun a => { a with latches := rotate a.latches k.val (n1.val + 1), free := s.cycle + 1 }

/-- The pop of R118: it waits for an SQLD of the holder on its way, and traps where there is none. -/
def State.popOk (s : State) : Verdict :=
  match s.myCore.arr.queue with
  | [] => if s.myCore.sqldOut s.cix then .wait .other else .trap .scaleImbalance 0
  | (_, none) :: _ => .wait .other
  | (_, some _) :: _ => .go

/-- The oldest entry goes into the scale latches (R118). -/
def Arr.pop (a : Arr) : Arr :=
  match a.queue with
  | (_, some e) :: t =>
      { a with queue := t, rowScale := e.extractLsb' 0 1024, colScale := e.extractLsb' 1024 512 }
  | _ => a

def execMscale (s : State) : Res :=
  s.guard (s.mtxOk.and (s.arrFree.and s.popOk)) fun s =>
    s.modArr fun a => { a.pop with free := s.cycle + 1 }

/-! ### MBEAT (R107, R112, R114, R125, R387) -/

/-- The 16 bytes of every column at a lid address (R107). -/
def State.lidRead (s : State) (l : Nat) : BitVec 8192 :=
  ofLe 8192 ((List.range 64).flatMap fun j => cgetN s.myCore.lid (j * 2 ^ 18 + l / 16 * 16) 16)

def State.lidAddr (s : State) (x : Fin 32) (imm : BitVec 16) : Nat :=
  ((s.rs x).toNat + 16 * imm.toNat) % 2 ^ 18

/-- The beat folds at ready: .a, or a pending list that holds 8 groups (R112). -/
def State.autoFold (s : State) (fold : Bool) : Bool := fold || decide (8 ≤ s.myCore.arr.pending.length)

def State.mbeatOk (s : State) (fold pop : Bool) : Verdict :=
  let a := s.myCore.arr
  s.mtxOk.and (s.arrFree.and ((if pop then s.popOk else .go).and
    (if s.autoFold fold then s.foldOk (a.window a.winRow a.winCol) else .go)))

/-- A beat: its group is queued and ready at c + B + 2; with .a it folds in that cycle, after its issue stage, into
the window that WIN holds now (R112; log 65, DEDUCED). DAZ is that of the beat's issue (log 90, DEDUCED). An event of the
array in a cycle stands one cycle later in the agenda. -/
def State.beat (s : State) (fold : Bool) (l : Nat) : State :=
  let a := s.myCore.arr
  let id := s.nextOp
  let auto := if s.autoFold fold then some (a.window a.winRow a.winCol) else none
  let g : Group :=
    { id, ready := none, a := a.latches, b := s.lidRead l, af := a.af, bf := a.bf, mx := a.mx
      rowScale := a.rowScale, colScale := a.colScale, daz := s.src.fpctl.getLsbD 4
      lanes := a.lanes, kpos := a.kpos, padK := a.padK
      mul := if a.mul then mulMatch a.oa a.ob else none, auto }
  let b := beatLen a.af
  let r := s.cycle + b + 2
  let s := (s.modArr fun a =>
    { a with pending := a.pending ++ [g], free := s.cycle + b, kpos := a.kpos + groupSize a.af }).schedule (r + 1)
      (.groupReady s.cur id)
  let s := if auto.isSome then s.schedule (r + 1) (.mbeatAFold s.cur id) else s
  { s with nextOp := id + 1 }

/-- MBEAT: pop, push, beat (R125). -/
def execMbeat (fold pop : Bool) (t : Option (Fin 16)) (x : Fin 32) (imm : BitVec 16) (s : State) : Res :=
  s.guard (s.mbeatOk fold pop) fun s =>
    let s' := if pop then s.modArr Arr.pop else s
    let s' := match t with
      | some t => s'.modArr fun a => a.push s.src.t[t]
      | none => s'
    s'.beat fold (s.lidAddr x imm)

/-- GROUP_READY: the group can be folded from this cycle on (R112). -/
def execGroupReady (core id : Nat) (s : State) : Res :=
  let c := s.core core
  if c.arr.pending.any fun g => g.id == id && g.ready.isNone then
    let fp := match c.arr.owner with
      | some o => c.ctxs[o].regs.fpctl
      | none => 0
    .next (s.modCore core fun c => { c with arr := { c.arr with
      pending := c.arr.pending.map fun g => if g.id = id then { g with ready := some fp } else g } })
  else .next s

/-- MBEAT_A_FOLD: at its ready cycle, the one before this event's, the group and every older one
fold into its window under the FPCTL of that cycle (R112, R386). A MACC of that cycle has folded
them first. -/
def execMbeatAFold (core id : Nat) (s : State) : Res :=
  match (s.core core).arr.pending.find? fun g => g.id == id with
  | some g =>
    match g.ready, g.auto with
    | some fp, some w => .next (s.foldReady core (s.cycle - 1) fp w)
    | _, _ => .next s
  | none => .next s

/-- FOLD_RETIRE: the fold is visible and its flags land (R113, R116). -/
def execFoldRetire (core id : Nat) (s : State) : Res :=
  match (s.core core).arr.folds.find? fun f => f.id == id with
  | some f =>
    let s := s.modCore core fun c =>
      { c with arr := { c.arr with folds := c.arr.folds.filter fun x => x.id != id } }
    .next (match (s.core core).arr.owner with
      | some o => s.modCtx core o fun c => c.landFlags f.flags f.ten
      | none => s)
  | none => .next s

/-! ### MACC and MZERO (R113, R127, R386) -/

/-- The window of the register form (R121). -/
def State.winReg (s : State) (x : Fin 32) : Nat × Nat := (bitsOf (s.rs x) 0 9, bitsOf (s.rs x) 16 9)

/-- MZERO always writes its window. -/
def State.mzeroOk (s : State) (row col : Nat) : Verdict :=
  s.mtxOk.and (s.foldOk (s.myCore.arr.window row col))

/-- A MACC that finds no ready group folds nothing, and waits for no ACOPY (R115, R386). -/
def State.maccOk (s : State) (row col : Nat) : Verdict :=
  s.mtxOk.and (if s.myCore.arr.pending.any (·.ready.isSome) then s.foldOk (s.myCore.arr.window row col) else .go)

def Arr.setWin (a : Arr) (row col : Nat) : Arr := { a with winRow := row, winCol := col }

/-- MACC folds the ready groups at its issue, and sets WIN. -/
def State.macc (s : State) (row col : Nat) : State :=
  (s.modArr fun a => a.setWin row col).foldReady s.cur s.cycle s.src.fpctl
    (s.myCore.arr.window row col)

def execMacc (row col : Fin 512) (s : State) : Res :=
  s.guard (s.maccOk row.val col.val) fun s => s.macc row.val col.val

def execMaccReg (x : Fin 32) (s : State) : Res :=
  s.guard (s.maccOk (s.winReg x).1 (s.winReg x).2) fun s => s.macc (s.winReg x).1 (s.winReg x).2

/-- MZERO writes zero bits to the passed cells of its window, and sets WIN. -/
def State.mzero (s : State) (row col : Nat) : State :=
  let a := s.myCore.arr
  let cells := (a.window row col).all a.acc
  (s.modArr fun a => a.setWin row col).recordFold s.cur s.cycle
    (cells.foldl (fun m c => cset m c 0) s.myCore.acc) cells 0 0

def execMzero (row col : Fin 512) (s : State) : Res :=
  s.guard (s.mzeroOk row.val col.val) fun s => s.mzero row.val col.val

def execMzeroReg (x : Fin 32) (s : State) : Res :=
  s.guard (s.mzeroOk (s.winReg x).1 (s.winReg x).2) fun s => s.mzero (s.winReg x).1 (s.winReg x).2

/-! ### MDRAIN (R128, R389) -/

/-- One value converted to the destination format (R96, R128). -/
def drainVal (acc : AFmt) (f : MFmt) (env : Env) (code : Nat) : Nat × Flags :=
  match acc with
  | .i32 =>
      if f = .i32 then (code, 0)
      else
        let v := codeInt 32 true code
        let (lo, hi) := intRange (elemBits f) true
        (intCode (elemBits f) (max lo (min hi v)), if v < lo ∨ hi < v then IOVF else 0)
  | acc =>
      match mfmtFloat f with
      | some g => if g = accFmt acc then (code, 0) else fpToFp (accFmt acc) g env code
      | none => (code, 0)

/-- The store cells of value v of a row. -/
def drainCells (acc : AFmt) (row v : Nat) : List Nat :=
  match acc with
  | .f64 => [row * 512 + 2 * v, row * 512 + 2 * v + 1]
  | _ => [row * 512 + v]

def drainCount : AFmt → Nat
  | .f64 => 256
  | _ => 512

/-- The tile that MDRAIN will write, and its flags. -/
def State.drainTile (s : State) (f : MFmt) (row : Nat) : Tile × Flags :=
  let a := s.myCore.arr
  let env := envOf s.src.fpctl .dyn
  let vs := (List.range (drainCount a.acc)).map fun v =>
    drainVal a.acc f env ((drainCells a.acc row v).foldr
      (fun c x => (s.myCore.seen s.cycle c).toNat + 2 ^ 32 * x) 0)
  (BitVec.ofNat 16384 (packElems (elemBits f) (vs.map (·.1))), vs.foldl (fun fl x => fl ||| x.2) 0)

def State.mdrainOk (s : State) (f : MFmt) (row : Nat) : Verdict :=
  s.mtxOk.and ((s.illModIf (!drainOk s.myCore.arr.acc f)).and
    (waitIf (meets ((List.range 512).map fun c => row * 512 + c) s.myCore.acopyCells)))

/-- MDRAIN: the row as it is visible now, written 4 cycles later, when its reader may issue (R113, R271, R389). -/
def State.mdrain (s : State) (f : MFmt) (t : Fin 16) (row : Nat) : State :=
  let (v, fl) := s.drainTile f row
  let s' := s.modArr fun a => { a with drains := a.drains ++ [(t, tenOf s.src.fpctl)] }
  (s'.modMe fun c => c.lock (.t t) none).schedule (s.cycle + 5) (.mdrainRetire s.cur s.cix t v fl)

def execMdrain (f : MFmt) (t : Fin 16) (row : Fin 512) (s : State) : Res :=
  s.guard (s.mdrainOk f row.val) fun s => s.mdrain f t row.val

def execMdrainReg (f : MFmt) (t : Fin 16) (x : Fin 32) (s : State) : Res :=
  s.guard (s.mdrainOk f (bitsOf (s.rs x) 0 9)) fun s => s.mdrain f t (bitsOf (s.rs x) 0 9)

/-- MDRAIN_RETIRE (R113, R116). -/
def execMdrainRetire (core : Nat) (ctx : Fin 4) (t : Fin 16) (v : Tile) (fl : BitVec 7) (s : State) :
    Res :=
  match (s.core core).arr.drains.find? fun x => x.1 == t with
  | none => .next s
  | some (_, ten) =>
    let s := s.modCore core fun c => { c with arr := { c.arr with drains := c.arr.drains.filter fun x => x.1 != t } }
    .next (s.modCtx core ctx fun c =>
      ((c.landArr fun r => r.wt t v).unlock (.t t)).landFlags fl ten)

/-! ### The array's events in their own cycle -/

/-- An event of a core's array as it performs. -/
def State.arrayEvent (s : State) : Instr → State
  | .groupReady k i => match execGroupReady k i s with | .next t => t | _ => s
  | .mbeatAFold k i => match execMbeatAFold k i s with | .next t => t | _ => s
  | .foldRetire k i => match execFoldRetire k i s with | .next t => t | _ => s
  | .mdrainRetire k x t v fl => match execMdrainRetire k x t v fl s with | .next t => t | _ => s
  | _ => s

/-- An event that the words of the present cycle find performed: what stands in the agenda at the next cycle, but for
MBEAT.a folds (R112, R113). -/
def State.isNow (s : State) (core : Nat) (e : Nat × Instr) : Bool :=
  e.1 == s.cycle + 1 && (match e.2 with
    | .groupReady k _ | .foldRetire k _ | .mdrainRetire k _ _ _ _ => k == core
    | _ => false)

/-- The array of a core with the events of the present cycle performed: what a bundle of its holder that issues now
finds. A bundle that traps finds them frozen instead (R253). -/
def State.arrayNow (s : State) (core : Nat) : State :=
  (s.agenda.filter (s.isNow core)).foldl (fun s e => s.arrayEvent e.2)
    { s with agenda := s.agenda.filter fun e => !s.isNow core e }

/-! ### The shadow result buffer -/

/-- replay_shadow(t1) (R254): every frozen event is due at its offset from t1 again. -/
def State.replayShadow (s : State) (core t1 : Nat) : State :=
  match (s.core core).arr.shadow with
  | none => s
  | some sh =>
      let move (n : Nat) : Nat := if sh.t0 ≤ n then t1 + (n - sh.t0) else n
      let fp := match (s.core core).arr.owner with
        | some o => (s.ctx core o).regs.fpctl
        | none => 0
      let s := s.modCore core fun c => { c with arr := { c.arr with
        shadow := none
        free := move c.arr.free
        pending := c.arr.pending.map fun g => { g with ready := g.ready.map fun _ => fp }
        folds := c.arr.folds.map fun f => { f with vis := move f.vis } } }
      sh.events.foldl (fun s (k, e) => s.schedule (t1 + k) e) s

/-- The events of a core's array that stand in the agenda up to a cycle perform, each in its own cycle. -/
def State.arrayUpTo (s : State) (core n : Nat) : State :=
  let mine (e : Nat × Instr) : Bool := isArrayEvent core e.2 && decide (e.1 ≤ n)
  { ((s.agenda.filter mine).foldl (fun s e => State.arrayEvent { s with cycle := e.1 } e.2)
      { s with agenda := s.agenda.filter fun e => !mine e }) with cycle := s.cycle }

/-- The array of the executing context, its holder, as its last bundle that has issued left it: what its events have
done after that cycle is undone, and they are due again (R253). -/
def State.rewind (s : State) (u : Undo) : State :=
  ((s.undoArray u).modMe fun c => { c with regs := u.image c.regs, snap := c.snap.map u.image }).arrayUpTo s.cur (u.cycle + 1)

/-- The array of a core with all that is on its way come: a bundle that could issue then, but cannot yet, stalls on
the array alone. -/
def State.drained (s : State) (core : Nat) : State :=
  let n := (s.agenda.map (·.1)).foldl max 0 + 8
  ((s.arrayUpTo core n).arrayUpTo core n).modCore core fun c =>
    { c with arr := { c.arr with free := 0 }, ctxs := c.ctxs.map fun x => { x with landFp := none } }

end Sys2Proof.Machine
end

