-- ==== Sys2Proof/Machine/Strict.lean ====
section
/-! DEFINITION. Strict mode: PHASE (R176, R177, R398), DGST (R180, R368), and the loop sequencer's
LNINIT and LNEXT (R67, R151, R380, R381). -/

namespace Sys2Proof.Machine

/-! ### Phase and digest blocks (R176) -/

/-- Words of a block at an own scratchpad offset. -/
def State.blockWords (s : State) (o n : Nat) : List Word :=
  (List.range n).map fun k => s.scr64 s.cur ((o + 8 * k) % 2 ^ 22)

/-- The entry count of a block, where its header keeps to R176 and it lies in the scratchpad. -/
def State.blockCount (s : State) (o : Nat) : Option Nat :=
  let h := s.scr64 s.cur o
  if bitsOf h 8 56 != 0 || decide (64 < bitsOf h 0 8) || pastScr o (8 + 8 * bitsOf h 0 8) then none
  else some (bitsOf h 0 8)

/-- The entries of a block. -/
def State.blockEntries (s : State) (o : Nat) : List Word :=
  s.blockWords (o + 8) ((s.blockCount o).getD 0)

/-- An entry that sets a reserved bit, names a reserved strip or leaves its space (R176). -/
def entryBad (e : Word) : Bool :=
  let st := pStrip e
  bitsOf e 56 5 != 0 || e.getLsbD 22 || (decide (12 ≤ st) && st != 15) || (st == 15 && pBuf e != 0)
    || pLen e == 0 || decide (2 ^ 22 < pLen e)
    || decide ((if st = 15 then 2 ^ 22 else 65536) < pStart e + pLen e)

/-- More than 8 entries of one engine and direction (R177). -/
def crowded (es : List Word) : Bool :=
  es.any fun e => decide (8 < (es.filter fun x => bitsOf x 61 3 == bitsOf e 61 3).length)

/-- BUF_OWNER and ILL_MOD of a block, given a further test of its entries. -/
def State.blockOk (s : State) (o : Nat) (bad : List Word → Bool) : Verdict :=
  (s.ownHeld o 8).and (match s.blockCount o with
    | none => s.illMod
    | some n => (s.ownHeld o (8 + 8 * n)).and
        (s.illModIf (let es := s.blockEntries o; es.any entryBad || bad es)))

/-- Two entries name a common byte, and one of them writes (R177). -/
def entriesOverlap (strip : Nat) (a b : Word) : Bool :=
  let (sa, la, ha) := entrySpace strip a
  let (sb, lb, hb) := entrySpace strip b
  sa == sb && overlap la ha lb hb && (pDir a || pDir b)

/-- The first overlapping pair, in entry order: entry i with later own entries of other engines, then
with entries of other contexts, which 0x3F stands for (R177). -/
def firstOverlap (strip : Nat) (own others : List Word) : Option (Nat × Nat) :=
  own.zipIdx.findSome? fun (a, i) =>
    match (own.zipIdx.drop (i + 1)).find? fun (b, _) => pEng a != pEng b && entriesOverlap strip a b with
    | some (_, j) => some (i, j)
    | none => if others.any (entriesOverlap strip a) then some (i, 0x3F) else none

/-- Entries of the open phases of the core's other contexts. -/
def State.otherPhases (s : State) : List Word :=
  (allCtx.filter fun i => i != s.cix && (s.ctx s.cur i).task).flatMap fun i =>
    (s.ctx s.cur i).phase.getD []

/-- A trap taken after PHASE's wait leaves the earlier phase closed (R177). -/
def Verdict.late : Verdict → Verdict
  | .trap c i => .phase c i
  | v => v

def State.phaseOff (s : State) (x : Fin 32) (imm : BitVec 17) : Nat := s.scrOff x (imm.toNat * 8) 8

/-- PHASE's traps before its wait, its wait for zero counters, and its traps after it (R177, R398). -/
def State.phaseOk (s : State) (x : Fin 32) (imm : BitVec 17) : Verdict :=
  let o := s.phaseOff x imm
  (s.illModIf !s.me.strict).and ((waitIf !s.me.idle4).and
    ((s.blockOk o crowded).and (match firstOverlap (stripOf s.cur) (s.blockEntries o) s.otherPhases with
      | some (i, j) => .trap .phaseOverlap (BitVec.ofNat 64 (i * 256 + j))
      | none => .go)).late)

/-- PHASE: the entries are copied into the context (R398). -/
def execPhase (x : Fin 32) (imm : BitVec 17) (s : State) : Res :=
  s.guard (s.phaseOk x imm) fun s =>
    let es := s.blockEntries (s.phaseOff x imm)
    s.modMe fun c => { c with phase := if es.isEmpty then none else some es }

def State.dgstOk (s : State) (x : Fin 32) (imm : BitVec 17) : Verdict :=
  (s.illModIf !s.me.strict).and (s.blockOk (s.phaseOff x imm) fun es => es.any fun e => pStrip e != 15)

/-- DGST: a block with no entry withdraws the list (R180, R368). -/
def execDgst (x : Fin 32) (imm : BitVec 17) (s : State) : Res :=
  s.guard (s.dgstOk x imm) fun s =>
    let es := s.blockEntries (s.phaseOff x imm)
    s.modMe fun c => { c with dgst := if es.isEmpty then none else some es }

/-! ### The loop sequencer -/

/-- A tile loop nest (R67, R151, R380): kind of output filter is 0 none, 1 SYM, 2 CIRC. -/
structure Nest where
  perm : List Nat
  trips : List Nat
  oe : Bool
  orow : Nat
  ocol : Nat
  tm : Nat
  tn : Nat
  kind : Nat
  deriving DecidableEq, Repr

def declNl (d : Block64) : Nat := blk d 0 8
def declOe (d : Block64) : Bool := d.getLsbD 16
def declOreg (d : Block64) : Fin 8 := Fin.ofNat 8 (blk d 17 3)
def declPerm (d : Block64) : List Nat := (List.range (declNl d)).map fun p => blk d (32 + 8 * p) 8
def declTrips (d : Block64) : List Nat := (List.range (declNl d)).map fun j => blk d (128 + 32 * j) 32

/-- A block that keeps to the table of R380, for a launch of n levels. -/
def declOk (n : Nat) (d : Block64) : Bool :=
  let nl := declNl d
  let oe := declOe d
  decide (1 ≤ nl) && decide (nl ≤ 6) && decide (blk d 8 8 < n) && blk d 20 4 == 0
    && (if oe then blk d 27 1 == 0 && blk d 31 1 == 0 && decide (blk d 24 3 < nl) && decide (blk d 28 3 < nl)
          && decide (1 ≤ blk d 320 32) && decide (1 ≤ blk d 352 32)
        else blk d 24 8 == 0 && blk d 320 64 == 0)
    && (List.range nl).all (fun j => (declPerm d).contains j)
    && (List.range 6).all (fun p => decide (p < nl) || (blk d (32 + 8 * p) 8 == 0 && blk d (128 + 32 * p) 32 == 0))
    && blk d 80 48 == 0 && blk d 384 128 == 0

/-- The filter of an output descriptor; none for a generator that R381 does not admit. -/
def outFilter (o : Block64) : Option Nat :=
  match (descOf o).gens with
  | [] => some 0
  | [g] => if g.axes = [0, 1] then (match g.kind with | 0 => some 1 | 2 => some 2 | _ => none) else none
  | _ => none

def nestOf (d o : Block64) : Nest :=
  { perm := declPerm d, trips := declTrips d, oe := declOe d, orow := blk d 24 3, ocol := blk d 28 3
    tm := blk d 320 32, tn := blk d 352 32, kind := (outFilter o).getD 0 }

def Nest.trip (n : Nest) (j : Nat) : Nat := n.trips.getD j 0

/-- The test of R151. -/
def Nest.passes (n : Nest) (a b : Nat) : Bool :=
  match n.kind with
  | 1 => decide (a * n.tm ≤ (b + 1) * n.tn - 1)
  | 2 => a == 0
  | _ => true

/-- Tiles of output row a. -/
def Nest.inRow (n : Nest) (a : Nat) : Nat :=
  let b := n.trip n.ocol
  match n.kind with
  | 1 => b - a * n.tm / n.tn
  | 2 => if a = 0 then b else 0
  | _ => b

/-- Tiles of output column b. -/
def Nest.inCol (n : Nest) (b : Nat) : Nat :=
  let a := n.trip n.orow
  match n.kind with
  | 1 => min a (((b + 1) * n.tn - 1) / n.tm + 1)
  | 2 => min a 1
  | _ => a

def sumTo (k : Nat) (f : Nat → Nat) : Nat := (List.range k).foldl (fun t i => t + f i) 0

/-- Pairs (a, b) that pass, with some of them fixed. -/
def Nest.pairs (n : Nest) (a b : Option Nat) : Nat :=
  match a, b with
  | some a, some b => if n.passes a b then 1 else 0
  | some a, none => n.inRow a
  | none, some b => n.inCol b
  | none, none =>
      if n.orow = n.ocol then sumTo (n.trip n.orow) fun i => if n.passes i i then 1 else 0
      else sumTo (n.trip n.orow) n.inRow

/-- Tiles of the nest in which some loops have given indices. -/
def Nest.tiles (n : Nest) (fixed : List (Nat × Nat)) : Nat :=
  let free (j : Nat) : Bool := (fixed.lookup j).isNone && !(n.oe && (j == n.orow || j == n.ocol))
  let others := (n.perm.filter free).foldl (fun p j => p * n.trip j) 1
  if n.oe then others * n.pairs (fixed.lookup n.orow) (fixed.lookup n.ocol) else others

/-- The index of loop j at which a rank falls, from v on, with the rank left there. -/
def Nest.digit (n : Nest) (fixed : List (Nat × Nat)) (j : Nat) : Nat → Nat → Nat → Nat × Nat
  | 0, v, r => (v, r)
  | k + 1, v, r =>
      let c := n.tiles ((j, v) :: fixed)
      if r < c then (v, r) else n.digit fixed j k (v + 1) (r - c)

/-- Indices of the tile of a rank, in the nest's order (R67). -/
def Nest.decode (n : Nest) : List Nat → List (Nat × Nat) → Nat → List (Nat × Nat)
  | [], fixed, _ => fixed
  | j :: t, fixed, r =>
      if n.oe && (j == n.orow || j == n.ocol) then
        let (v, r) := n.digit fixed j (n.trip j) 0 r
        n.decode t ((j, v) :: fixed) r
      else
        let c := n.tiles ((j, 0) :: fixed)
        n.decode t ((j, r / c) :: fixed) (r % c)

/-- Position of a combination among all, tiles or not. -/
def Nest.ordinal (n : Nest) (ix : List (Nat × Nat)) : Nat :=
  n.perm.foldl (fun t j => t * n.trip j + (ix.lookup j).getD 0) 0

/-- The level instance's tasks share the nest: their number, and the task's place among them (R381). A
task started by SPAWN has no logical index, and its place is a free value (log 20, DESIGN CHOICE). -/
def State.nestShare (s : State) (lvl : Nat) : Nat × Nat :=
  let c := s.me
  let n := units ((s.levels c.vf).drop (lvl + 1))
  (n, (if c.spwn then Config.spawnedIndex c.logical else c.logical) % n)

def State.declAt (s : State) (o : Nat) : Block64 := ofLe 512 (s.scrBytes s.cur o 64)

def State.lninitOff (s : State) (x : Fin 32) (imm : BitVec 17) : Nat := s.scrOff x (imm.toNat * 8) 64

/-- LNINIT's traps (R381): its block's, an output register's, and T at or above 2^63. -/
def State.lninitOk (s : State) (x : Fin 32) (imm : BitVec 17) : Verdict :=
  let o := s.lninitOff x imm
  let d := s.declAt o
  let out := s.oreg (declOreg d)
  (s.illModIf !s.me.strict).and ((s.ownHeld o 64).and
    (if !declOk (s.levels s.me.vf).length d then s.illMod
    else if !declOe d then s.illModIf (decide (2 ^ 63 ≤ (nestOf d out).tiles []))
    else (s.orbitOk (declOreg d)).and
      (if (outFilter out).isNone then s.illMod
      else s.illModIf (decide (2 ^ 63 ≤ (nestOf d out).tiles [])))))

/-- LNINIT (R381). -/
def execLninit (x : Fin 32) (imm : BitVec 17) (s : State) : Res :=
  s.guard (s.lninitOk x imm) fun s =>
    let o := s.lninitOff x imm
    let d := s.declAt o
    let out := s.oreg (declOreg d)
    let t := (nestOf d out).tiles []
    let (n, i) := s.nestShare (blk d 8 8)
    s.modMe fun c =>
      { c with seq := some { blk := o, pos := t * i / n, fin := t * (i + 1) / n, decl := d, odesc := out } }

/-- ILL_MOD of LNEXT that is judged at decode: no nest, or destinations past s31 (R381). -/
def Ctx.lnextBad (c : Ctx) (d : Fin 32) : Bool :=
  match c.seq with
  | none => true
  | some q => decide (32 < d.val + declNl q.decl)

def State.lnextOk (s : State) (d : Fin 32) : Verdict :=
  s.illModIf (!s.me.strict || s.me.lnextBad d)

/-- LNEXT (R381): ready 2 cycles after issue, and 1 more for each combination passed. -/
def execLnext (p : Fin 16) (d : Fin 32) (s : State) : Res :=
  s.guard (s.lnextOk d) fun s =>
    match s.me.seq with
    | none => s
    | some q =>
      let mark (s : State) (n : Nat) : State := if p = 0 then s else s.readyIn (.p p) n
      if q.pos < q.fin then
        let n := nestOf q.decl q.odesc
        let ix := n.decode n.perm [] q.pos
        let passed := if q.pos = 0 then n.ordinal ix
          else n.ordinal ix - (n.ordinal (n.decode n.perm [] (q.pos - 1)) + 1)
        let s := (List.range (declNl q.decl)).foldl (fun s j =>
          s.putS (Fin.ofNat 32 (d.val + j)) (BitVec.ofNat 64 ((ix.lookup j).getD 0)) (2 + passed)) s
        mark ((s.putP p true).modMe fun c => { c with seq := some { q with pos := q.pos + 1 } }) (2 + passed)
      else mark (s.putP p false) 2

end Sys2Proof.Machine
end

