-- ==== Sys2Proof/Machine/System.lean ====
section
/-! DEFINITION. System words: WAIT (R174, R432), the barrier words and their arrivals (R228, R233,
R234), suspension points (R40, R414 to R416, R433), EXIT (R370), PRIO (R400), TRAP (R418), ERET
(R250), MFS and MTS (R77 to R80, R390); and transfers on the skewers (R228 to R231). -/

namespace Sys2Proof.Machine

/-- A context that parks in place at a suspension point: it holds the array, or has a phase open (R41,
R398). -/
def State.staysAt (s : State) (core : Nat) (ix : Fin 4) : Bool :=
  (s.core core).arr.owner == some ix || (s.ctx core ix).phase.isSome

/-- The executing context stays in place. -/
def State.stays (s : State) : Bool := s.staysAt s.cur s.cix

/-! ### WAIT -/

/-- Every counter is at or below its bound; 31 is no bound (R174). -/
def Ctx.within (c : Ctx) (ld st cp tl : BitVec 5) : Bool :=
  let ok (n : Nat) (b : BitVec 5) : Bool := b == 31 || decide (n ≤ b.toNat)
  ok c.ld ld && ok c.st st && ok c.cp cp && ok c.tl tl

/-- WAIT: the last word of its bundle to execute (R432). -/
def execWait (sus : Bool) (ld st cp tl : BitVec 5) (s : State) : Res :=
  .next (if s.me.within ld st cp tl then s
    else if sus && !s.stays then s.modMe fun c => { c with suspending := some 0, suspendAt := c.pc }
    else s.modMe fun c => { c with wait := .counters ld st cp tl })

/-! ### Barriers -/

/-- The target level of a barrier word, where the task may arrive at it (R233). -/
def State.barTarget (s : State) (sc : Scope) : Option Nat :=
  let ls := s.levels s.me.vf
  match targetLevel ls sc, parentLevel ls with
  | some t, some p => if !s.me.spwn && decide (t ≤ p) then some t else none
  | _, _ => none

def State.barOk (s : State) (sc : Scope) : Verdict := s.illModIf (s.barTarget sc).isNone

/-- The executing task's arrival is already counted in the current episode of its object (R234). -/
def State.arrived (s : State) : Bool :=
  match parentLevel (s.levels s.me.vf) with
  | some p => (s.bar (barOn s.me.vf (s.levels s.me.vf) s.me.logical p)).who.contains s.me.logical
  | none => false

/-- A second arrival in one episode traps at issue where the first is counted by then (R234, log 34, DEDUCED). -/
def State.arriveOk (s : State) (sc : Scope) : Verdict := (s.barOk sc).and (s.illModIf s.arrived)

/-- BAR.x in a transfer phase of its own launch (R228). -/
def State.barXOk (s : State) (x : Bool) : Verdict :=
  s.illModIf (x && (match (s.row (rowOf s.cur)).phase with
    | some p => p.vf == s.me.vf
    | none => false))

/-- An arrival of the executing context is on its way to the pantry (R233). -/
def State.sendArrival (s : State) : State :=
  (s.schedule (s.cycle + s.latency none) (.barrierArrival s.cur (.ctx s.cix))).dropDelay

/-- BAR: the context issues nothing further until its arrival is accepted or refused (R233, R245). -/
def execBar (x sus : Bool) (sc : Scope) (s : State) : Res :=
  s.guard ((s.arriveOk sc).and (s.barXOk x)) fun s =>
    (s.modMe fun c => { c with wait := .arrival sc x sus, checks := c.checks ++ [c.word] }).sendArrival

/-- EINFO of a refused BARA arrival: layout W with bit 62 (R233). -/
def State.baraInfo (s : State) : Word := layoutW s.me.word.1 s.me.word.2 ||| 0x4000000000000000

/-- BARA: arrives and goes on (R234). -/
def execBara (sc : Scope) (s : State) : Res :=
  s.guard (s.arriveOk sc) fun s =>
    match s.barTarget sc with
    | none => s
    | some t => { (s.modMe fun c => { c with bara := c.bara ++ [⟨s.nextOp, t, s.baraInfo⟩] }).sendArrival with
        nextOp := s.nextOp + 1 }

/-- The episode of a target level in which the executing task has arrived, if it has not flipped. -/
def State.unflipped (s : State) (t : Nat) : Option (BarKey × Nat) :=
  let c := s.me
  let ls := s.levels c.vf
  match parentLevel ls with
  | none => none
  | some p =>
      let b := s.bar (barOn c.vf ls c.logical p)
      let k := barOn c.vf ls c.logical t
      if !c.spwn && b.who.contains c.logical && b.tgt == t then some (k, (s.bar k).epoch) else none

/-- The wait object of a barrier (R35). -/
def BarKey.wobj (k : BarKey) : Word :=
  (Config.barrierObject k.vf k.level k.pos).setWidth 64 ||| 0x1000000000000000

/-- BARW waits for an earlier BARA to be accepted or refused, which says where it has arrived. -/
def State.barwOk (s : State) (sc : Scope) : Verdict :=
  (s.barOk sc).and (waitIf !s.me.bara.isEmpty)

/-- BARW: waits for the flip of its last arrival's episode (R234). -/
def execBarw (sus : Bool) (sc : Scope) (s : State) : Res :=
  s.guard (s.barwOk sc) fun s =>
    match (s.barTarget sc).bind s.unflipped with
    | none => s
    | some (k, e) =>
        if sus && !s.stays then
          s.modMe fun c => { c with suspending := some k.wobj, suspendBar := some (k, e), suspendAt := c.pc }
        else s.modMe fun c => { c with wait := .flip k e }

/-- The rows in which members of an object's instance run. -/
def State.rowsAt (s : State) (k : BarKey) : List Nat :=
  ((instanceTasks (s.levels k.vf) k).filterMap (s.taskRow k.vf)).eraseDups

/-- A flip at scope .row enters a transfer phase, whose phase contexts are those of the tasks that arrived, or ends the
one its launch is in (R228, R229). -/
def State.flipRows (s : State) (k : BarKey) (x : Bool) : State :=
  if targetLevel (s.levels k.vf) .row = some k.level then
    let ms := instanceTasks (s.levels k.vf) k
    (s.rowsAt k).foldl (fun t r => t.modRow r fun w =>
      if x then { w with phase := some ⟨s.cycle, k.vf, ms.filter fun i => s.taskRow k.vf i == some r⟩ }
      else match w.phase with
        | some p => if p.vf = k.vf then { w with phase := none, shots := [] } else w
        | none => w) s
  else s

/-- Gathers and scatters of a context that have not retired, of those that issued before a number (R214). -/
def State.gathering (s : State) (core : Nat) (ix : Fin 4) (before : Option Nat) : Bool :=
  (s.core core).ops.any fun o => o.ctx == ix && before.all (fun n => decide (o.id < n))
    && (match o.what with | .elements _ => true | _ => false)

/-- What comes of an arrival of the executing context. -/
inductive Arrival where
  /-- not counted yet: gathers are outstanding, or the row's skewers are another phase's -/
  | later
  | refuse
  | counted (s : State)

/-- An arrival at a target level (R233), with the transfer phase of its flip (R228). -/
def State.arriveNow (s : State) (t : Nat) (x : Bool) (before : Option Nat) : Arrival :=
  let c := s.me
  let k := barOn c.vf (s.levels c.vf) c.logical t
  if s.gathering s.cur s.cix before then .later
  else match s.arrive c.vf c.logical t x with
    | none => .refuse
    | some (s', flipped) =>
        if flipped && x && (s.rowsAt k).any fun r => (s.row r).phase.isSome then .later
        else if flipped then .counted (s'.flipRows k x) else .counted s'

/-- The oldest arrival by BARA of the executing context is decided: what waits for it goes on. -/
def State.baraDone (s : State) (b : Bara) : State :=
  (s.modMe fun c => { c with bara := c.bara.tail }).fencePast s.cur s.cix b.id

/-- A BAR whose arrival counts waits as BARW does, once the other words of its bundle have executed. -/
def State.barCounted (s : State) (sc : Scope) (sus : Bool) : State :=
  let w := (s.me.checks.find? fun x => Code.cls x.2 == 6).getD s.me.word
  s.modMe fun c =>
    { c with wait := .none, checks := dropCheck 6 c.checks, sure := true
             deferred := some (c.deferred.getD [] ++ [⟨w.1, w.2, .barw sus sc⟩]) }

/-- BARRIER_ARRIVAL: the oldest arrival of a context is counted or refused (R233, R214); or an arrival or a flip comes
from another package. -/
def execBarrierArrival (core : Nat) (src : BarSource) (s : State) : Res :=
  match src with
  | .spike k => .next (s.spike k)
  | .ctx ix =>
  let s0 := s
  let s := { s with cur := core, cix := ix }
  let again : State := s.schedule (s.cycle + 1) (.barrierArrival core (.ctx ix))
  match s.me.bara, s.me.wait with
  | b :: _, _ =>
      match s.arriveNow b.tgt false (some b.id) with
      | .later => .next again
      | .refuse => .next ((s.modMe fun c => { c with landBar := c.landBar ++ [b.info] }).baraDone b)
      | .counted s => .next (s.baraDone b)
  | [], .arrival sc x sus =>
      match s.barTarget sc with
      | none => .next (s.takeTrap .illMod (s.me.checkInfo 6))
      | some t =>
        match s.arriveNow t x (s.me.entry.map (·.first)) with
        | .later => .next again
        | .refuse => .next (s.takeTrap .illMod (s.me.checkInfo 6))
        | .counted s => .next (s.barCounted sc sus)
  | _, _ => .next s0

/-! ### Suspension points, EXIT, PRIO, TRAP, ERET -/

/-- YIELD: a suspension point; for a context that stays in place, nop 1 (R433). -/
def execYield (s : State) : Res :=
  .next (if s.stays then s else s.modMe fun c => { c with suspending := some 0, suspendAt := c.pc })

/-- The entry that a posting tag names, bits [39:0] (R238). -/
def State.tagged (s : State) (tag : Nat) : Option CSlot :=
  match aget s.colTab (tag / 2 ^ 32) with
  | some e => if e.serial.toNat = tag % 2 ^ 32 then some e else none
  | none => none

/-- SUSP's checks of its wait object (R414). -/
def State.suspOk (s : State) (w : Fin 32) : Verdict :=
  let v := s.rs w
  let a := bitsOf v 0 56
  if bitsOf v 56 4 != 0 then s.illMod
  else match bitsOf v 60 4 with
    | 2 => (s.illModIf (decide (2 ^ 22 ≤ a))).and (s.ownHeld (alignDown a 8) 8)
    | 3 => s.illModIf (decide (2 ^ 40 ≤ a) || (s.tagged a).isNone)
    | 4 => (s.illModIf (a % 64 != 0)).and ((s.leaseOk (BitVec.ofNat 64 a).toNat).and
        (s.illModIf (BitVec.ofNat 64 a == s.me.jcbp)))
    | _ => s.illMod

/-- The wait object that SUSP registers: a full/empty word's address is aligned down to 8. -/
def suspWobj (v : Word) : Word := if bitsOf v 60 4 = 2 then v &&& ~~~(7 : Word) else v

/-- SUSP (R415). -/
def execSusp (w : Fin 32) (s : State) : Res :=
  s.guard (s.suspOk w) fun s =>
    s.modMe fun c => { c with suspending := some (suspWobj (s.rs w)), suspendAt := c.pc }

/-- EXIT: the task ends once its counters are zero (R370). -/
def execExit (s : State) : Res :=
  .next (s.modMe fun c => { c with wait := .exiting none, suspending := none })

/-- PRIO (R400). -/
def execPrio (n : BitVec 2) (s : State) : Res := .next (s.wr fun r => { r with cls := n })

/-- TRAP always traps SWTRAP (R418). -/
def execTrap (code : BitVec 16) (s : State) : Res :=
  s.guard (.trap .swTrap (code.setWidth 64)) id

/-- ERET outside a handler traps ILL_MOD (R250). -/
def execEret (s : State) : Res :=
  s.guard (s.illModIf !(s.src.ecause.getLsbD 7)) State.eret

/-! ### MFS and MTS (R77 to R80, R390) -/

/-- COREID (R79). -/
def State.coreId (s : State) : Word :=
  BitVec.ofNat 64 (s.pkg.toNat * 2 ^ 32 + s.cur % 512 * 2 ^ 16 + s.cur / 96 % 4 * 2 ^ 7
    + s.cur / 12 % 8 * 2 ^ 4 + s.cur % 12)

/-- What MFS reads: bits above a register's width are 0. -/
def State.sysReg (s : State) (r : SysReg) : Word :=
  let g := s.src
  let c := s.me
  match r with
  | .fpctl => g.fpctl.setWidth 64
  | .fpflg => g.fpflg.setWidth 64
  | .nbv => 1
  | .cls => g.cls.setWidth 64
  | .safebnd => g.safebnd.setWidth 64
  | .tvec => g.tvec
  | .epc => g.epc
  | .ecause => g.ecause.setWidth 64
  | .einfo => g.einfo
  | .edelay => g.edelay
  | .ctxid => BitVec.ofNat 64 s.cix.val
  | .coreid => s.coreId
  | .launchp => c.launchp
  | .jcbp => c.jcbp
  | .strict => BitVec.ofNat 64 ((if c.strict then 1 else 0) + (if c.phase.isSome then 2 else 0))
  | .cycle => BitVec.ofNat 64 s.cycle

/-- MFS. -/
def execMfs (d : Fin 32) (r : SysReg) (s : State) : Res := .next (s.putS d (s.sysReg r))

/-- A value that sets a bit above the width, a reserved field, or a reserved rounding mode (R77,
R78); a read-only register takes none. -/
def mtsBad (r : SysReg) (v : Word) : Bool :=
  match r with
  | .fpctl => decide (2 ^ 16 ≤ v.toNat) || v &&& 0x80E0 != 0 || decide (4 < bitsOf v 0 3)
  | .fpflg => decide (2 ^ 7 ≤ v.toNat)
  | .safebnd => decide (2 ^ 32 ≤ v.toNat)
  | .ecause => decide (2 ^ 8 ≤ v.toNat)
  | .tvec | .epc | .einfo | .edelay => false
  | _ => true

/-- A system register written; TVEC [1:0] read 0, and flags that the array has retired in this cycle are ORed into a
value of FPFLG (R80). -/
def Regs.setSys (g : Regs) (r : SysReg) (v : Word) (landed : BitVec 7) : Regs :=
  match r with
  | .fpctl => { g with fpctl := v.setWidth 16 }
  | .fpflg => { g with fpflg := v.setWidth 7 ||| landed }
  | .safebnd => { g with safebnd := v.setWidth 32 }
  | .ecause => { g with ecause := v.setWidth 8 }
  | .tvec => { g with tvec := v &&& ~~~(3 : Word) }
  | .epc => { g with epc := v }
  | .einfo => { g with einfo := v }
  | .edelay => { g with edelay := v }
  | _ => g

/-- MTS. -/
def execMts (a : Fin 32) (r : SysReg) (s : State) : Res :=
  s.guard (s.illModIf (mtsBad r (s.rs a))) fun s => s.wr fun g => g.setSys r (s.rs a) s.me.landed

/-! ### Skewers (R22, R228 to R231) -/

/-- The phase cycle of the executing context's row, in a transfer phase. -/
def State.phaseCycle (s : State) : Nat :=
  match (s.row (rowOf s.cur)).phase with
  | some p => s.cycle - p.start
  | none => 0

def xregName : XReg → RegName
  | .t n => .t n
  | .v n => .v n

/-- ILL_MOD outside a phase context (R229), XFER_LATE after cycle n (R231). -/
def State.xferOk (s : State) (n : Nat) : Verdict :=
  (s.illModIf !s.inTransfer).and
    (trapIf (decide (n < s.phaseCycle)) .xferLate (BitVec.ofNat 64 (s.phaseCycle % 2 ^ 21)))

/-- XFER_LATE as well for a source register that is not ready in cycle n (R231). -/
def State.xmitOk (s : State) (r : XReg) (n : Nat) : Verdict :=
  (s.xferOk n).and (trapIf (decide (n ≤ s.phaseCycle) && s.me.locked s.cycle (xregName r)) .xferLate
    (BitVec.ofNat 64 (s.phaseCycle % 2 ^ 21)))

/-- A transfer parks until its phase cycle; an IMSEL copies at the end of it (R230), once every XMIT
of that cycle has acted. -/
def State.parkTransfer (s : State) (recv west : Bool) (r : XReg) (n : Nat) : State :=
  (s.modMe fun c => { c with wait := .transfer recv west r n }).schedule
    (s.cycle + (n - s.phaseCycle) + if recv then 1 else 0) (.transferCycleAct s.cur s.cix)

/-- XMIT (R230). -/
def execXmit (west : Bool) (r : XReg) (n : BitVec 21) (s : State) : Res :=
  s.guard (s.xmitOk r n.toNat) fun s => s.parkTransfer false west r n.toNat

/-- IMSEL (R230). -/
def execImsel (west : Bool) (r : XReg) (n : BitVec 21) (s : State) : Res :=
  s.guard (s.xferOk n.toNat) fun s => s.parkTransfer true west r n.toNat

/-- An operand stands in a stage in a cycle: it moves one stage a cycle (R22, R230). -/
def Shot.at (o : Shot) (west : Bool) (pos cyc : Nat) : Bool :=
  o.west == west && (if west then decide (pos ≤ o.pos) && o.cycle + (o.pos - pos) == cyc
    else decide (o.pos ≤ pos) && o.cycle + (pos - o.pos) == cyc)

/-- What a stage holds: of the operands that reach it, the one put on last, nearest to it; else zero
(R230). -/
def stageOf (shots : List Shot) (west : Bool) (pos cyc : Nat) : Tile :=
  let near (o : Shot) : Nat := if west then o.pos - pos else pos - o.pos
  let best := (shots.filter fun o => o.at west pos cyc).foldl (fun b o => match b with
    | none => some o
    | some p => if near o ≤ near p then some o else some p) (none : Option Shot)
  match best with
  | some o => o.data
  | none => 0

/-- An operand as it stands on a skewer: a vector has zeros above it (R230). -/
def Regs.xreg (g : Regs) (r : XReg) : Tile :=
  match r with
  | .t n => g.t[n]
  | .v n => (g.v[n]).setWidth 16384

def Regs.wx (g : Regs) (r : XReg) (v : Tile) : Regs :=
  match r with
  | .t n => g.wt n v
  | .v n => g.wv n (v.setWidth 2048)

/-- TRANSFER_CYCLE_ACT: XMIT puts its operand on, IMSEL copies its stage as it stood in cycle n (R230).
Where the phase has ended meanwhile every stage reads zero. -/
def execTransferCycleAct (core : Nat) (ix : Fin 4) (s : State) : Res :=
  let s0 := s
  let s := { s with cur := core, cix := ix }
  let row := rowOf core
  let pos := posOf (stripOf core)
  match s.me.wait with
  | .transfer recv west r _ =>
      if recv then
        let v := stageOf (s.row row).shots west pos (s.cycle - 1)
        .next (s.wr fun g => g.wx r v).goOn
      else if s.inTransfer then
        let o : Shot := ⟨west, pos, s.cycle, s.src.xreg r⟩
        .next (s.modRow row fun w =>
          { w with shots := (w.shots.filter fun x => decide (s.cycle ≤ x.cycle + 16)) ++ [o] }).goOn
      else .next s.goOn
  | _ => .next s0

end Sys2Proof.Machine
end

