-- ==== Sys2Proof/Machine/Async.lean ====
section
/-! DEFINITION. Asynchronous operations: copies (R343, R351, R352, R363 to R367), gathers and scatters
with the colander (R206 to R214), and the events that perform them. -/

namespace Sys2Proof.Machine

/-! ### Copies -/

/-- The range scoreboard has places for n more entries (R173). -/
def State.rangesOk (s : State) (n : Nat) : Verdict :=
  waitIf (decide (16 < (s.myCore.ops.foldl (fun k o => k + o.ranges.length) 0) + n))

/-- An asynchronous copy: its local bytes are read at issue, and it writes when it retires (R182). -/
def State.issueCopy (s : State) (kinds : BitVec 8) (ranges : List Rng) (what : OpWhat) : State :=
  (s.issueOp (some .cp) kinds ranges [] what (s.cycle + s.latency none) (.asyncRetire s.cur)).dropDelay

/-- Sources: bytes of the own scratchpad as they stand. -/
def State.scrSrc (s : State) (o n : Nat) : List Src := (s.scrBytes s.cur o n).map Src.known

/-- Bytes moved to consecutive places of the own scratchpad. -/
def State.toScr (s : State) (o : Nat) (src : List Src) : List (Src × Loc) :=
  src.zipIdx.map fun (x, k) => (x, .scr s.cur (o + k))

def toMem (a : Nat) (src : List Src) : List (Src × Loc) :=
  src.zipIdx.map fun (x, k) => (x, .mem (a + k))

/-- A scratchpad operand of CPY or CPLID (R363, R364). -/
def State.cpyOff (s : State) (lg : Fin 16) (x : Fin 32) (i : Nat) : Nat :=
  s.scrOff x (i * 2 ^ lg.val) (2 ^ lg.val)

/-- Both sides' checks of a copy (R364): held buffers, then the declared set. -/
def State.copyOk (s : State) (rd wr : Option (Nat × Nat)) : Verdict :=
  let held (r : Option (Nat × Nat)) : Verdict := r.elim .go fun p => s.ownHeld p.1 p.2
  (held rd).and ((held wr).and
    ((rd.elim .go fun p => s.escape engCpy false none p.1 p.2).and
      (wr.elim .go fun p => s.escape engCpy true none p.1 p.2)))

/-- CPY, scratchpad to scratchpad (R364). -/
def execCpy (lg : Fin 16) (x : Fin 32) (di : BitVec 10) (si : BitVec 9) (s : State) : Res :=
  let n := 2 ^ lg.val
  let d := s.cpyOff lg x di.toNat
  let o := s.cpyOff lg x si.toNat
  s.guard ((s.copyOk (some (o, n)) (some (d, n))).and (s.rangesOk 2)) fun s =>
    s.issueCopy (kCr ||| kCw) [⟨o, o + n, false⟩, ⟨d, d + n, true⟩] (.copy (s.toScr d (s.scrSrc o n)))

/-- The checks of a copy's memory side (R364): ILL_MOD for a length above the page, then the
handle. -/
def State.cpyMemOk (s : State) (h : Fin 16) (off n : Nat) (wr : Bool) : Verdict :=
  (s.illModIf (decide (pageBytes (Handle.psize (s.hreg h)) < n))).and (s.handleOk h off wr)

/-- CPY, scratchpad to memory. -/
def execCpyToMemory (lg : Fin 16) (h : Fin 16) (x : Fin 32) (si : BitVec 15) (s : State) : Res :=
  let n := 2 ^ lg.val
  let o := s.cpyOff lg x si.toNat
  let off := s.pageOff h x 0 n
  s.guard ((s.cpyMemOk h off n true).and ((s.copyOk (some (o, n)) none).and (s.rangesOk 1))) fun s =>
    s.issueCopy (kCr ||| kCw) [⟨o, o + n, false⟩]
      (.copy (toMem (Handle.place (s.hreg h) off) (s.scrSrc o n)))

/-- Sources in memory: the target, never the store queue (R365). -/
def memPlaces (a n : Nat) : List Src := (List.range n).map fun k => .place (.mem (a + k))

/-- CPY, memory to scratchpad. -/
def execCpyFromMemory (lg : Fin 16) (h : Fin 16) (x : Fin 32) (si : BitVec 15) (s : State) : Res :=
  let n := 2 ^ lg.val
  let d := s.cpyOff lg x si.toNat
  let off := s.pageOff h x 0 n
  s.guard ((s.cpyMemOk h off n false).and ((s.copyOk none (some (d, n))).and (s.rangesOk 1))) fun s =>
    s.issueCopy (kCr ||| kCw) [⟨d, d + n, true⟩]
      (.copy (s.toScr d (memPlaces (Handle.place (s.hreg h) off) n)))

/-! ### CPY2D (R366, R367) -/

/-- The geometry register. -/
structure Geo where
  sp : Nat
  dp : Nat
  rows : Nat
  w : Nat
  deriving DecidableEq, Repr

def geoOf (g : Word) : Geo := ⟨bitsOf g 48 16, bitsOf g 32 16, bitsOf g 16 16, bitsOf g 0 16⟩

/-- Bytes from a side's first to last byte; 0 when nothing is copied. -/
def Geo.span (g : Geo) (pitch : Nat) : Nat :=
  if g.rows = 0 ∨ g.w = 0 then 0 else (g.rows - 1) * pitch + g.w

/-- Offsets of the bytes copied, row by row, from a side's start. -/
def Geo.offs (g : Geo) (start pitch : Nat) : List Nat :=
  (List.range g.rows).flatMap fun r => (List.range g.w).map fun k => start + r * pitch + k

/-- A scratchpad side is checked row by row (R367: strict mode checks only the bytes copied). -/
def State.sideOk (s : State) (g : Geo) (start pitch : Nat) (wr : Bool) : Verdict :=
  if g.w = 0 then .go
  else allOk ((List.range g.rows).map fun r => start + r * pitch) fun o => s.escape engCpy wr none o g.w

def State.sideHeld (s : State) (g : Geo) (start pitch : Nat) : Verdict :=
  if g.w = 0 then .go
  else allOk ((List.range g.rows).map fun r => start + r * pitch) fun o => s.ownHeld o g.w

def State.scrStart (s : State) (x : Fin 32) : Nat := (s.rs x).toNat % 2 ^ 22
def State.pageStart (s : State) (h : Fin 16) (x : Fin 32) : Nat :=
  (s.rs x).toNat % pageBytes (Handle.psize (s.hreg h))

def State.cpy2dOk (s : State) (dir : Cpy2dDir) (h : Fin 16) (a b g : Fin 32) : Verdict :=
  let ge := geoOf (s.rs g)
  let top := pageBytes (Handle.psize (s.hreg h))
  let scr (x : Fin 32) (p : Nat) : Bool := pastScr (s.scrStart x) (ge.span p)
  let mem (x : Fin 32) (p : Nat) : Bool := decide (top < s.pageStart h x + ge.span p)
  let rd := (s.scrStart b, ge.sp)
  let wr := (s.scrStart a, ge.dp)
  match dir with
  | .scrScr =>
      (s.illModIf (scr a ge.dp || scr b ge.sp)).and
      ((s.sideHeld ge rd.1 rd.2).and ((s.sideHeld ge wr.1 wr.2).and
      ((s.sideOk ge rd.1 rd.2 false).and ((s.sideOk ge wr.1 wr.2 true).and (s.rangesOk 2)))))
  | .scrMem =>
      (s.illModIf (mem a ge.dp || scr b ge.sp)).and
      ((s.handleOk h (s.pageStart h a) true).and
      ((s.sideHeld ge rd.1 rd.2).and ((s.sideOk ge rd.1 rd.2 false).and (s.rangesOk 1))))
  | .memScr =>
      (s.illModIf (scr a ge.dp || mem b ge.sp)).and
      ((s.handleOk h (s.pageStart h b) false).and
      ((s.sideHeld ge wr.1 wr.2).and ((s.sideOk ge wr.1 wr.2 true).and (s.rangesOk 1))))

/-- CPY2D (R367). -/
def execCpy2d (dir : Cpy2dDir) (h : Fin 16) (a b g : Fin 32) (s : State) : Res :=
  s.guard (s.cpy2dOk dir h a b g) fun s =>
    let ge := geoOf (s.rs g)
    let hd := s.hreg h
    let scrs := (ge.offs (s.scrStart b) ge.sp).map fun o => Src.known (s.getLoc (.scr s.cur o))
    let scrd := (ge.offs (s.scrStart a) ge.dp).map fun o => Loc.scr s.cur o
    let rd : Rng := ⟨s.scrStart b, s.scrStart b + ge.span ge.sp, false⟩
    let wr : Rng := ⟨s.scrStart a, s.scrStart a + ge.span ge.dp, true⟩
    if ge.w = 0 ∨ ge.rows = 0 then s
    else match dir with
      | .scrScr => s.issueCopy (kCr ||| kCw) [rd, wr] (.copy (scrs.zip scrd))
      | .scrMem => s.issueCopy (kCr ||| kCw) [rd]
          (.copy (scrs.zip ((ge.offs (s.pageStart h a) ge.dp).map fun o => Loc.mem (Handle.place hd o))))
      | .memScr => s.issueCopy (kCr ||| kCw) [wr]
          (.copy (((ge.offs (s.pageStart h b) ge.sp).map fun o => Src.place (.mem (Handle.place hd o))).zip scrd))

/-! ### CPLID (R363) -/

def State.cplidOk (s : State) (c x : Fin 32) (lg : Fin 16) (imm : BitVec 9) : Verdict :=
  (s.illModIf (decide (63 < (s.rs c).toNat))).and
    ((s.copyOk (some (s.cpyOff lg x imm.toNat, 2 ^ lg.val)) none).and (s.rangesOk 1))

def execCplid (c l x : Fin 32) (lg : Fin 16) (imm : BitVec 9) (s : State) : Res :=
  s.guard (s.cplidOk c x lg imm) fun s =>
    let n := 2 ^ lg.val
    let o := s.cpyOff lg x imm.toNat
    let a := (s.rs c).toNat * 2 ^ 18 + alignDown ((s.rs l).toNat % 2 ^ 18) n
    s.issueCopy (kCr ||| kCw) [⟨o, o + n, false⟩]
      (.copy ((s.scrSrc o n).zipIdx.map fun (b, k) => (b, Loc.lid s.cur (a + k))))

/-! ### ACOPY (R351, R352) -/

structure AWin where
  nc : Nat
  nr : Nat
  col : Nat
  row : Nat
  deriving DecidableEq, Repr

def awinOf (v : Word) : AWin := ⟨bitsOf v 48 10, bitsOf v 32 10, bitsOf v 16 9, bitsOf v 0 9⟩

/-- Reserved bits, and counts outside 1 to 512 (R351). -/
def awinBad (v : Word) : Bool :=
  let w := awinOf v
  bitsOf v 58 6 != 0 || bitsOf v 42 6 != 0 || bitsOf v 25 7 != 0 || bitsOf v 9 7 != 0
    || w.nc == 0 || decide (512 < w.nc) || w.nr == 0 || decide (512 < w.nr)

/-- Store cells of the window, row by row. -/
def AWin.cells (w : AWin) : List Nat :=
  (List.range w.nr).flatMap fun r => (List.range w.nc).map fun c =>
    (w.row + r) % 512 * 512 + (w.col + c) % 512

def State.acopyOff (s : State) (x : Fin 32) (imm : BitVec 17) : Nat := s.scrOff x (imm.toNat * 256) 4

/-- A fold into some of the cells is still to perform, or younger than 6 cycles, and an ACOPY waits for it: one that
reads cells for every such fold, one that writes them for those that the shadow buffer has frozen (R115, R253). -/
def State.foldsInto (s : State) (inward : Bool) (cells : List Nat) : Bool :=
  let a := s.myCore.arr
  let waits (e : Instr) : Bool := !inward || a.shadow.any fun sh => sh.events.any fun x => x.2 == e
  (a.folds.any fun f => waits (.foldRetire s.cur f.id) && meets (f.old.map (·.1)) cells)
    || a.pending.any fun g => match g.auto with
      | some w => waits (.mbeatAFold s.cur g.id) && meets (w.all a.acc) cells
      | none => false

def State.acopyOk (s : State) (inward : Bool) (a x : Fin 32) (imm : BitVec 17) : Verdict :=
  let v := s.rs a
  let w := awinOf v
  let o := s.acopyOff x imm
  let n := 4 * w.nr * w.nc
  (trapIf (!s.holdsArr) .mtxNotOwned s.ownerOf).and
  ((s.illModIf (awinBad v || pastScr o n)).and
  ((s.ownHeld o n).and ((s.escape engMtx (!inward) none o n).and
  ((s.rangesOk 1).and (waitIf (s.foldsInto inward w.cells || meets w.cells s.myCore.acopyCells))))))

/-- ACOPY: bits only; .out takes the cells as they stand, .in the scratchpad as it stands. -/
def execAcopy (inward : Bool) (a x : Fin 32) (imm : BitVec 17) (s : State) : Res :=
  s.guard (s.acopyOk inward a x imm) fun s =>
    let w := awinOf (s.rs a)
    let o := s.acopyOff x imm
    let n := 4 * w.nr * w.nc
    if inward then
      s.issueCopy kMr [⟨o, o + n, false⟩] (.cellsIn (w.cells.zipIdx.map fun (c, k) =>
        (c, ofLe 32 (s.scrBytes s.cur (o + 4 * k) 4))))
    else
      s.issueCopy kMw [⟨o, o + n, true⟩] (.copy (s.toScr o
        ((w.cells.flatMap fun c => toLe (cget s.myCore.acc c)).map Src.known)))

/-! ### Retirement of local asynchronous operations -/

/-- Writes held behind an operation perform once it has retired, where nothing else holds them (R182). -/
def State.releaseHeld (s : State) (core id : Nat) : State :=
  s.modCore core fun c => Core.performHeld
    { c with held := c.held.map fun h => { h with ops := h.ops.filter (· != id) } } s.cycle

/-- A copy's moves: every source is read before any destination is written (R364, R367). -/
def State.doMoves (s : State) (ms : List (Src × Loc)) : State :=
  (ms.map fun m => (m.2, s.getSrc m.1)).foldl (fun s m => s.putLoc m.1 m.2) s

/-- ACOPY.in's cells, which stand from now on over what folds not yet visible replaced, and whatever a pending check
leads to (R245). -/
def Core.putCells (c : Core) (cs : List (Nat × BitVec 32)) : Core :=
  let put (m : Cells 32) : Cells 32 := cs.foldl (fun m x => cset m x.1 x.2) m
  let c := c.mapArr fun a => { a with folds := a.folds.map fun f =>
    { f with old := f.old.filter fun x => !(cs.any fun y => y.1 == x.1) } }
  { c with
    acc := put c.acc
    ctxs := c.ctxs.map fun x => x.mapUndo fun u => { u with acc := put u.acc } }

/-- ASYNC_RETIRE: a copy, ACOPY or ORBX writes its last byte and retires (R173, R182), once no check of its bundle is
pending (R245). -/
def execAsyncRetire (core id : Nat) (s : State) : Res :=
  match (s.core core).op id with
  | some op =>
    if s.opHeld core op then .next (s.schedule (s.cycle + 1) (.asyncRetire core id))
    else match op.what with
    | .copy ms => .next (((s.doMoves ms).retireOp core op).releaseHeld core id)
    | .cellsIn cs => .next (((s.modCore core fun c => c.putCells cs).retireOp core op).releaseHeld core id)
    | _ => .next s
  | none => .next s

/-! ### Gather and scatter (R206 to R208) -/

/-- List and data ranges, in bytes. -/
def State.gathOffs (s : State) (x : Fin 32) (ii di : BitVec 4) : Nat × Nat :=
  (((s.rs x).toNat + 256 * ii.toNat) % 2 ^ 22, ((s.rs x).toNat + 256 * di.toNat) % 2 ^ 22)

def State.gathOk (s : State) (scat : Bool) (sz : Fin 4) (h : Fin 16) (x : Fin 32) (ii di : BitVec 4)
    (n1 : BitVec 9) : Verdict :=
  let (l, d) := s.gathOffs x ii di
  let n := n1.toNat + 1
  let z := 2 ^ sz.val
  let hd := s.hreg h
  (trapIf (!Handle.valid hd) .handleStale (staleInfo h hd)).and
  ((trapIf (scat && !Handle.canW hd) .leaseBreach (breachInfo 1 (Handle.va hd))).and
  ((s.illModIf (pastScr l (8 * n) || pastScr d (z * n))).and
  ((s.ownHeld l (8 * n)).and ((s.ownHeld d (z * n)).and
  ((s.escape engGth false none l (8 * n)).and ((s.escape engGth (!scat) none d (z * n)).and
  ((s.rangesOk 2).and (waitIf (decide (4096 ≤ (s.die (dieOf s.cur)).colander.length))))))))))

/-- A gather or scatter issues: it takes a tag, its list and data as they stand, and its elements are
served one by one. -/
def State.gatherIssue (s : State) (scat : Bool) (sz : Fin 4) (h : Fin 16) (x : Fin 32)
    (ii di : BitVec 4) (n1 : BitVec 9) : State :=
  let (l, d) := s.gathOffs x ii di
  let n := n1.toNat + 1
  let z := 2 ^ sz.val
  let dn := dieOf s.cur
  let tag := (s.die dn).tagCount
  let g : GatherOp :=
    { tag, core := s.cur, ctx := s.cix, op := s.nextOp, vf := s.me.vf, scat, sz
      base := BitVec.ofNat 64 (Handle.va (s.hreg h))
      idx := (List.range n).map fun e => s.scr64 s.cur (l + 8 * e)
      data := if scat then s.scrBytes s.cur d (z * n) else []
      dst := d, next := 0, parked := 0, wrote := [], stalled := [] }
  let s := s.modDie dn fun k => { k with tagCount := k.tagCount + 1, gathers := k.gathers ++ [g] }
  (s.issueOp (some .tl) (kGr ||| kGw)
    [⟨l, l + 8 * n, false⟩, ⟨d, d + z * n, !scat⟩] [] (.elements tag.toNat) (s.cycle + s.latency none)
    fun _ => .elementServe dn tag.toNat).dropDelay

/-- GATH (R206). -/
def execGath (sz : Fin 4) (h : Fin 16) (x : Fin 32) (ii di : BitVec 4) (n1 : BitVec 9) (s : State) : Res :=
  s.guard (s.gathOk false sz h x ii di n1) fun s => s.gatherIssue false sz h x ii di n1

/-- SCAT (R206). -/
def execScat (sz : Fin 4) (h : Fin 16) (x : Fin 32) (ii di : BitVec 4) (n1 : BitVec 9) (s : State) : Res :=
  s.guard (s.gathOk true sz h x ii di n1) fun s => s.gatherIssue true sz h x ii di n1

/-- The fault code of an element, or its place (R209). -/
def State.elementPlace (s : State) (g : GatherOp) (va : Nat) : Nat ⊕ Nat :=
  if 2 ^ 56 ≤ va then .inl 3
  else match s.walk g.vf va with
    | none => .inl 1
    | some l =>
        if g.scat && !l.w then .inl 2
        else if !l.reachable s.pkg.toNat then .inl 4
        else if isRemote l.frame && Config.remoteRefuses (l.place va) s.cycle then .inl 4
        else .inr (l.place va)

/-- Element e's address (R206): exact, and cut to 64 bits where an entry holds it. -/
def GatherOp.va (g : GatherOp) (e : Nat) : Nat :=
  g.base.toNat + (g.idx.getD e 0).toNat * 2 ^ g.sz.val

/-- An element performed: a gather writes its position, a scatter its target (R206, R207). -/
def State.elementDo (s : State) (g : GatherOp) (e a : Nat) : State :=
  let z := 2 ^ g.sz.val
  if g.scat then s.putMem a ((g.data.drop (e * z)).take z)
  else s.putScr g.core (g.dst + e * z) (s.memBytes a z)

/-- A later element of the operation has written where element e would: of duplicates the higher index stands,
also where a replay performs the lower one after it (R207, R212). -/
def GatherOp.overtaken (g : GatherOp) (e a : Nat) : Bool := g.wrote.any fun x => decide (e < x.1) && x.2 == a

/-- A scatter's element has written at a place (R207). -/
def GatherOp.wroteAt (g : GatherOp) (e a : Nat) : GatherOp := if g.scat then { g with wrote := g.wrote ++ [(e, a)] } else g

/-- An element is parked with a new SEQ (R209, R210). -/
def Die.park (k : Die) (g : GatherOp) (e va code : Nat) : Die :=
  { k with
    seqCount := k.seqCount + 1
    colander := k.colander ++ [{ seq := k.seqCount, va := BitVec.ofNat 64 va, pos := e, tag := g.tag,
                                 vf := g.vf, core := g.core, ctx := g.ctx, scat := g.scat, sz := g.sz,
                                 code, popped := false, replay := none }] }

def Die.gather (k : Die) (tag : Nat) : Option GatherOp := k.gathers.find? fun g => g.tag.toNat == tag

def Die.putGather (k : Die) (g : GatherOp) : Die :=
  { k with gathers := k.gathers.map fun x => if x.tag = g.tag then g else x }

/-- Every element of a gather is done. -/
def GatherOp.done (g : GatherOp) : Bool := decide (g.idx.length ≤ g.next) && g.parked == 0 && g.stalled.isEmpty

/-- The next event of a gather: its next element, or one that waits for a place, or its retirement. -/
def State.gatherGoesOn (s : State) (dn : Nat) (g : GatherOp) : State :=
  if g.next < g.idx.length || !g.stalled.isEmpty then s.schedule (s.cycle + 1) (.elementServe dn g.tag.toNat)
  else if g.parked = 0 then s.schedule (s.cycle + 1) (.gatherRetire dn g.tag.toNat)
  else s

/-- A gather waits while a check of its bundle is pending (R245; log 94, DESIGN CHOICE). -/
def State.gatherHeld (s : State) (g : GatherOp) : Bool := (s.ctx g.core g.ctx).holding g.op

/-- The colander has a place (R213). -/
def Die.room (k : Die) : Bool := decide (k.colander.length < 4096)

/-- A gather's oldest element that waits for a place parks, where there is one (R213). -/
def State.unstall (s : State) (dn : Nat) (g : GatherOp) : State × GatherOp :=
  match g.stalled with
  | [] => (s, g)
  | (e, code) :: t =>
      if (s.die dn).room then
        let g' := { g with stalled := t, parked := g.parked + 1 }
        (s.modDie dn fun k => (k.park g e (g.va e) code).putGather g', g')
      else (s, g)

/-- A gather's next element as it is served: performed, parked, or with no place to park stalled with the fault that its
translation has met, behind those that have waited longer; other elements go on (R209, R213, R305). -/
def State.serveNext (s : State) (dn : Nat) (g : GatherOp) : State × GatherOp :=
  match s.elementPlace g (g.va g.next) with
  | .inl code =>
      if (s.die dn).room && (s.die dn).gathers.all (·.stalled.isEmpty) then
        let g' := { g with next := g.next + 1, parked := g.parked + 1 }
        (s.modDie dn fun k => (k.park g g.next (g.va g.next) code).putGather g', g')
      else
        let g' := { g with next := g.next + 1, stalled := g.stalled ++ [(g.next, code)] }
        (s.modDie dn fun k => k.putGather g', g')
  | .inr a =>
      let g' := { g.wroteAt g.next a with next := g.next + 1 }
      ((s.elementDo g g.next a).modDie dn fun k => k.putGather g', g')

/-- ELEMENT_SERVE: at most one element of a die is translated in a cycle (R206, R209, R305). -/
def execElementServe (dn tag : Nat) (s : State) : Res :=
  match (s.die dn).gather tag with
  | some g =>
    if s.gatherHeld g then .next (s.schedule (s.cycle + 1) (.elementServe dn tag))
    else if g.done then .next s
    else
      let (s, g) := s.unstall dn g
      if g.idx.length ≤ g.next then .next (s.gatherGoesOn dn g)
      else if s.cycle < (s.die dn).serveFree then .next (s.schedule (s.cycle + 1) (.elementServe dn tag))
      else
        let (s, g) := s.serveNext dn g
        .next ((s.modDie dn fun k => { k with serveFree := s.cycle + 1 }).gatherGoesOn dn g)
  | none => .next s

/-- GATHER_RETIRE: the operation retires, its ranges and its place in the interface are free (R208). -/
def execGatherRetire (dn tag : Nat) (s : State) : Res :=
  match (s.die dn).gather tag with
  | some g =>
    match (s.core g.core).op g.op with
    | some op =>
        if g.done then
          let s := s.modDie dn fun k => { k with gathers := k.gathers.filter fun x => x.tag.toNat != tag }
          .next ((s.retireOp g.core op).releaseHeld g.core g.op)
        else .next s
    | none => .next s
  | none => .next s

/-! ### The colander (R210 to R213) -/

/-- A colander entry's bytes (R210). -/
def ColEnt.bytes (e : ColEnt) : List Byte :=
  let svc := e.vf == 64
  let mid := (if svc then 0 else e.vf) * 2 ^ 26 + e.core * 2 ^ 17 + e.ctx.val * 2 ^ 15
    + (if e.scat then 2 ^ 14 else 0) + e.sz.val * 2 ^ 12 + (if svc then 2 ^ 11 else 0) + e.code
  leBytes 8 e.va.toNat ++ leBytes 4 e.pos ++ leBytes 4 e.tag.toNat ++ leBytes 4 mid
    ++ leBytes 4 e.seq.toNat ++ leBytes 8 0

/-- The oldest unpopped entry. -/
def Die.unpopped (k : Die) : Option ColEnt := k.colander.find? fun e => !e.popped

/-- ILL_MOD outside the service function (R213). -/
def State.serviceOk (s : State) : Verdict := s.illModIf (s.me.vf != 64)

def State.cqOff (s : State) (x : Fin 32) (imm : Nat) : Nat := s.scrOff x (imm * 32) 32

def State.cqpopOk (s : State) (x : Fin 32) (imm : BitVec 13) : Verdict :=
  s.serviceOk.and (if (s.die (dieOf s.cur)).unpopped.isSome then
    s.ownOk engLsu true (s.cqOff x imm.toNat) 32 else .go)

/-- CQPOP (R211). -/
def execCqpop (d : Fin 16) (x : Fin 32) (imm : BitVec 13) (s : State) : Res :=
  s.guard (s.cqpopOk x imm) fun s =>
    let dn := dieOf s.cur
    let s' := match (s.die dn).unpopped with
      | some e =>
          ((s.modDie dn fun (k : Die) => { k with colander := k.colander.map fun (y : ColEnt) =>
            if y.seq = e.seq then { y with popped := true } else y }).storeHere (s.cqOff x imm.toNat)
              e.bytes none).putP d true
      | none => s.putP d false
    s'.issueOp (some .st) kSt [] [] .settled (s.cycle + 1) (.storePerform s.cur)

/-- The popped element that an entry in the scratchpad names by TAG and POS (R212); one whose replay
has been asked for is no longer one. -/
def State.cqNamed (s : State) (o : Nat) : Option ColEnt :=
  let pos := leVal (s.scrBytes s.cur (o + 8) 4)
  let tag := leVal (s.scrBytes s.cur (o + 12) 4)
  (s.die (dieOf s.cur)).colander.find? fun e =>
    e.popped && e.replay.isNone && e.pos == pos && e.tag.toNat == tag

def State.cqrplOk (s : State) (x : Fin 32) (imm : BitVec 16) : Verdict :=
  let o := s.cqOff x imm.toNat
  s.serviceOk.and ((s.ownOk engLsu false o 32).and (s.illModIf (s.cqNamed o).isNone))

/-- CQRPL: the colander is asked to replay the element, or with .x to drop it (R212). -/
def execCqrpl (drop : Bool) (x : Fin 32) (imm : BitVec 16) (s : State) : Res :=
  s.guard (s.cqrplOk x imm) fun s =>
    let dn := dieOf s.cur
    match s.cqNamed (s.cqOff x imm.toNat) with
    | none => s
    | some e =>
        let s' := s.modDie dn fun k => { k with colander := k.colander.map fun y =>
          if y.seq = e.seq then { y with replay := some (s.nextOp, drop) } else y }
        { ((s'.schedule (s.cycle + s.latency none) (.replayPerform dn e.seq.toNat)).dropDelay) with
          nextOp := s.nextOp + 1 }

/-- A replay waits for an earlier element of its operation that has been popped (R212). -/
def Die.replayWaits (k : Die) (e : ColEnt) : Bool :=
  (k.colander.takeWhile fun x => x.seq != e.seq).any fun x => x.popped && x.tag == e.tag

/-- An earlier CQRPL's replay that is not waiting goes first (R212). -/
def Die.replayFirst (k : Die) (n : Nat) : Bool :=
  k.colander.all fun x => match x.replay with
    | some (m, _) => decide (n ≤ m) || k.replayWaits x
    | none => true

/-- REPLAY_PERFORM: the element is translated again, by the colander's own copy of its address, and performed,
dropped, or parked anew (R212). -/
def execReplayPerform (dn seq : Nat) (s : State) : Res :=
  let k := s.die dn
  match k.colander.find? fun e => e.seq.toNat == seq with
  | some e =>
    match e.replay, k.gather e.tag.toNat with
    | some (n, drop), some g =>
      if k.replayWaits e || !k.replayFirst n then
        .next (s.schedule (s.cycle + 1) (.replayPerform dn seq))
      else
        let out := s.modDie dn fun k => { k with colander := k.colander.filter fun x => x.seq != e.seq }
        let done (s : State) (g : GatherOp) : State :=
          let g' := { g with parked := g.parked - 1 }
          let s := s.modDie dn fun k => k.putGather g'
          if g'.done then s.schedule (s.cycle + 1) (.gatherRetire dn g.tag.toNat) else s
        if drop then
          .next (done (if g.scat then out
            else out.putScr g.core (g.dst + e.pos * 2 ^ g.sz.val) (List.replicate (2 ^ g.sz.val) 0)) g)
        else match s.elementPlace g e.va.toNat with
          | .inl code => .next (out.modDie dn fun k => k.park g e.pos e.va.toNat code)
          | .inr a =>
              .next (if g.scat && g.overtaken e.pos a then done out g
                else done (out.elementDo g e.pos a) (g.wroteAt e.pos a))
    | _, _ => .next s
  | none => .next s

end Sys2Proof.Machine
end

