-- ==== Sys2Proof/Machine/Walkers.lean ====
section
/-! DEFINITION. Fibre, stream and cutter words, and WALKER_RETIRE (R194 to R205, R217, R371, R403,
R404). -/

namespace Sys2Proof.Machine

/-! ### Reads through the lease translation store (R200) -/

/-- Why a walker's read does not go. -/
inductive WErr where
  /-- outside the task's leases -/
  | breach (va : Nat)
  /-- a page of a lease that is not mapped at this moment -/
  | unmapped
  deriving DecidableEq, Repr

/-- n bytes at a virtual address, with no handle. -/
def State.wread (s : State) (vf va n : Nat) : Except WErr (List Byte) :=
  match (List.range n).find? fun k => decide (2 ^ 56 ≤ va + k) || !s.leased vf (va + k) with
  | some k => .error (.breach (va + k))
  | none =>
    match s.vread vf va n with
    | some b => .ok b
    | none => .error .unmapped

/-- A little-endian number there. -/
def State.wnum (s : State) (vf : Nat) (va : Word) (n : Nat) : Except WErr Nat :=
  (s.wread vf va.toNat n).map leVal

/-- A count in a 32-bit field; one that does not fit is a free value (log 16, DESIGN CHOICE). -/
def fit32 (n : Nat) : BitVec 32 := if n < 2 ^ 32 then BitVec.ofNat 32 n else Config.wideCount n

/-! ### Tensors (R194 to R196) -/

/-- The fields of a sparse tensor descriptor. -/
structure Sparse where
  levels : Nat
  rank : Nat
  ext : List Nat
  top : Nat
  mids : List Nat
  leaf : Nat
  deriving DecidableEq, Repr

/-- A descriptor read at an address, if it keeps to R194. -/
def sparseOf (va : Nat) (b : List Byte) : Option Sparse :=
  let d : Block64 := ofLe 512 b
  let lv := blk d 0 8
  let rk := blk d 16 8
  let exts := (List.range 4).map fun n => blk d (64 + 32 * n) 32
  let ps := (List.range 5).map fun n => blk d (192 + 64 * n) 64
  let ext := exts.take rk
  if va % 64 == 0 && decide (2 ≤ lv) && decide (lv ≤ 4) && blk d 8 8 != 5 && (fmtSize (blk d 8 8)).isSome
      && decide (1 ≤ rk) && decide (rk ≤ 4) && blk d 24 40 == 0
      && ext.all (fun e => decide (1 ≤ e) && decide (e ≤ 2 ^ 31)) && (exts.drop rk).all (· == 0)
      && (lv != 2 || ps.getD 1 0 == 0) && (lv == 4 || ps.getD 2 0 == 0)
      && ps.all (· % 8 == 0) && ps.getD 4 0 % ((fmtSize (blk d 8 8)).getD 1) == 0
      && decide ((ext.drop 1).foldl (· * ·) 1 ≤ 2 ^ 32 - 1) then
    some { levels := lv, rank := rk, ext, top := ps.getD 0 0
           mids := ((ps.drop 1).take 2).take (lv - 2), leaf := ps.getD 3 0 }
  else none

def Sparse.ext0 (t : Sparse) : Nat := t.ext.headD 1
/-- Elements of a coordinate (R196). -/
def Sparse.r (t : Sparse) : Nat := (t.ext.drop 1).foldl (· * ·) 1
def Sparse.total (t : Sparse) : Nat := t.ext0 * t.r

/-- Set bits of a 64-bit word, ascending. -/
def setBits (w : Nat) : List Nat := (List.range 64).filter fun i => w.testBit i

/-- Numbers of the set bits of the words at an address, one word for each parent (R195). -/
def State.nodeBits (s : State) (vf : Nat) : Nat → List Nat → Except WErr (List Nat)
  | _, [] => .ok []
  | a, p :: ps =>
      match s.wnum vf (BitVec.ofNat 64 a) 8 with
      | .error e => .error e
      | .ok w => (s.nodeBits vf (a + 8) ps).map fun l => ((setBits w).map fun i => 64 * p + i) ++ l

/-- The levels below the top, one after another. -/
def State.nodeLevels (s : State) (vf : Nat) : List Nat → List Nat → Except WErr (List Nat)
  | [], items => .ok items
  | a :: as, items =>
      match s.nodeBits vf a items with
      | .error e => .error e
      | .ok l => s.nodeLevels vf as l

/-- Bits of the top bitmap (R195). -/
def Sparse.topBits (t : Sparse) : Nat :=
  let blocks := (t.total + 63) / 64
  let k := 64 ^ (t.levels - 2)
  (blocks + k - 1) / k

/-- The non-zero elements, ascending (R195). -/
def State.nonZeros (s : State) (vf : Nat) (t : Sparse) : Except WErr (List Nat) :=
  match s.nodeBits vf t.top (List.range ((t.topBits + 63) / 64)) with
  | .error e => .error e
  | .ok top =>
      (s.nodeLevels vf (t.mids ++ [t.leaf]) (top.filter fun b => decide (b < t.topBits))).map fun l =>
        l.filter fun e => decide (e < t.total)

/-- nnz(c, a, b) (R202). -/
def nnz (r : Nat) (es : List Nat) (c a b : Nat) : Nat :=
  (es.filter fun e => decide (c * r + a ≤ e) && decide (e < c * r + b)).length

/-- skip(c, a, n) (R202). -/
def skipTo (r : Nat) (es : List Nat) (c a n : Nat) : Nat :=
  match (es.filter fun e => decide (c * r + a ≤ e) && decide (e < c * r + r))[n - 1]? with
  | some e => e - c * r + 1
  | none => r

/-- Coordinates that join a tile: from h on while the budget holds (R202). -/
def growTile (r ext0 bud : Nat) (es : List Nat) : Nat → Nat → Nat → Nat × Nat
  | 0, h, n => (h, n)
  | f + 1, h, n =>
      if h < ext0 ∧ n + nnz r es h 0 r ≤ bud then growTile r ext0 bud es f (h + 1) (n + nnz r es h 0 r)
      else (h, n)

/-- cut(k) (R202): the register after, and pD. -/
def cutTile (t : Sparse) (es : List Nat) (k : Cutter) : Cutter × Bool :=
  let r := t.r
  let bud := k.bud.toNat
  let c := k.cur.toNat
  let w (n : Nat) : Word := BitVec.ofNat 64 n
  if k.split && k.cur == k.lo then
    let a := k.eend.toNat
    let rem := nnz r es c a r
    if bud < rem then
      ({ k with elem := k.eend, cnt := k.bud, eend := fit32 (skipTo r es c a bud) }, false)
    else ({ k with elem := k.eend, cnt := fit32 rem, cur := w (c + 1), eend := fit32 r }, false)
  else if es.all fun e => decide (e < c * r) then
    ({ k with lo := k.cur, hi := w t.ext0, cnt := 0, cur := w t.ext0, eend := fit32 r, split := false,
              elem := 0, empty := true }, true)
  else
    let (h, n) := growTile r t.ext0 bud es (t.ext0 - c) c 0
    if h = c then
      ({ k with lo := k.cur, hi := w (c + 1), elem := 0, cnt := k.bud, split := true, empty := false,
                eend := fit32 (skipTo r es c 0 bud) }, false)
    else
      ({ k with lo := k.cur, hi := w h, cnt := fit32 n, cur := w h, elem := 0, split := false,
                empty := false, eend := fit32 r }, false)

/-- CUTP's partner (R203): the register after, and pD. -/
def cutPartner (tp : Sparse) (es : List Nat) (kn kp : Cutter) : Cutter × Bool :=
  let r := tp.r
  let n := if kn.split then nnz r es kn.lo.toNat kn.elem.toNat kn.eend.toNat
    else (es.filter fun e => decide (kn.lo.toNat * r ≤ e) && decide (e < kn.hi.toNat * r)).length
  let cnt := fit32 n
  ({ kp with lo := kn.lo, hi := kn.hi, split := kn.split, elem := kn.elem, eend := kn.eend,
             cur := kn.cur, cnt, empty := cnt == 0 }, kp.bud.ult cnt)

/-! ### Issue -/

/-- A walker operation: it counts on ld, its destinations wait for its retirement (R200); held says
that its context waits for a check (R245). -/
def State.walk1 (s : State) (lock : List RegName) (what : OpWhat) (held : Bool) (bound : Option Nat := none) : State :=
  let s' := (s.issueOp (some .ld) kLd [] lock what (s.cycle + s.latency bound) (.walkerRetire s.cur)).dropDelay
  if held then s'.modMe fun c => { c with wait := .reply, checks := c.checks ++ [c.word] } else s'

def State.fopenOff (s : State) (x : Fin 32) (imm : BitVec 11) : Nat := s.scrOff x (imm.toNat * 32) 32

/-- The open block (R197). -/
def State.fopenBlk (s : State) (x : Fin 32) (imm : BitVec 11) : BitVec 256 :=
  ofLe 256 (s.scrBytes s.cur (s.fopenOff x imm) 32)

def State.fopenOk (s : State) (x : Fin 32) (imm : BitVec 11) : Verdict :=
  let b := s.fopenBlk x imm
  let kind := (b.extractLsb' 192 8).toNat
  (s.ownOk engLsu false (s.fopenOff x imm) 32).and
    (s.illModIf (b.extractLsb' 200 56 != 0 || decide (1 < kind) || (kind == 0 && b.extractLsb' 128 64 != 0)))

/-- FOPEN (R197, R371): the block is read at issue. -/
def execFopen (t : Bool) (sz : Fin 4) (f : Fin 8) (x : Fin 32) (imm : BitVec 11) (s : State) : Res :=
  s.guard (s.fopenOk x imm) fun s =>
    let b := s.fopenBlk x imm
    s.walk1 [.f f] (.fopen t sz f (b.extractLsb' 0 64) (b.extractLsb' 64 64) (b.extractLsb' 128 64)
      (b.getLsbD 192)) t

/-- ILL_MOD on a fibre, stream or cutter register that is not open. -/
def State.fibreOk (s : State) (f : Fin 8) : Verdict := s.illModIf (!s.src.f[f].isOpen)
def State.streamOk (s : State) (q : Fin 8) : Verdict := s.illModIf (!s.src.q[q].isOpen)

/-- FADV (R198). -/
def execFadv (sz : Fin 4) (f : Fin 8) (c v : Fin 32) (s : State) : Res :=
  s.guard (s.fibreOk f) fun s => s.walk1 (.f f :: (sLock c ++ sLock v)) (.fadv sz f c v) false

/-- FEND (R198). -/
def execFend (d : Fin 16) (f : Fin 8) (s : State) : Res :=
  s.guard (s.fibreOk f) fun s => s.putP d s.src.f[f].atEnd

/-- FPOS (R198). -/
def execFpos (d : Fin 32) (f : Fin 8) (s : State) : Res :=
  s.guard (s.fibreOk f) fun s => s.putS d s.src.f[f].pos

/-- FCLOSE (R198). -/
def execFclose (f : Fin 8) (s : State) : Res :=
  s.guard (s.fibreOk f) fun s => s.wr fun r => r.wf f {}

/-- The limits of R199. -/
def State.sopenOk (s : State) (l k : Fin 32) : Verdict :=
  let n := (s.rs k).toNat
  s.illModIf (n % 4 != 0 || decide (n < 4) || decide (256 < n) || decide (2 ^ 32 - 1 < (s.rs l).toNat))

/-- SOPEN (R199). -/
def execSopen (q : Fin 8) (a l k : Fin 32) (s : State) : Res :=
  s.guard (s.sopenOk l k) fun s =>
    s.wr fun r => r.wq q { sbase := s.rs a, spos := 0, slen := s.rs l
                           chunk := (s.rs k).setWidth 32, isOpen := true, atEnd := s.rs l == 0 }

/-- Bytes of a stream's next chunk (R199). -/
def Stream.take (x : Stream) : Nat := min x.chunk.toNat (x.slen.toNat - x.spos.toNat)

/-- The bound of SNEXT: that of the latency class of its slowest byte, none where a byte has none (R162, R404). -/
def State.snextBound (s : State) (x : Stream) : Option Nat :=
  (List.range x.take).foldl (fun b k =>
    match b, (s.xlate s.me.vf ((x.sbase + x.spos).toNat + k)).bind fun l => lcBound (s.lcOf s.cur l) with
    | some m, some n => some (max m n)
    | _, _ => none) (if x.take = 0 then none else some 0)

/-- SNEXT (R199, R404). -/
def execSnext (d : Fin 32) (q : Fin 8) (s : State) : Res :=
  s.guard (s.streamOk q) fun s => s.walk1 [.q q, .v d] (.snext d q) false (s.snextBound s.src.q[q])

/-- STEND (R199). -/
def execStend (d : Fin 16) (q : Fin 8) (s : State) : Res :=
  s.guard (s.streamOk q) fun s => s.putP d s.src.q[q].atEnd

/-- SCLOSE (R199). -/
def execSclose (q : Fin 8) (s : State) : Res :=
  s.guard (s.streamOk q) fun s => s.wr fun r => r.wq q {}

/-- CUTBUD of the task's launch record (R47, R75, R201), as memory holds it at each opening CUT's check and again when it
retires, 0 where the record's page is no longer readable (log 105, DESIGN CHOICE). -/
def State.cutbud (s : State) : BitVec 32 :=
  BitVec.ofNat 32 (((s.vread s.me.vf (s.me.launchp.toNat + 52) 4).map leVal).getD 0)

/-- A register as .o opens it, or as it stands (R201). -/
def State.cutReg (s : State) (o : Bool) (k : Fin 4) (a : Fin 32) : Cutter :=
  if o then { tdesc := s.rs a, bud := s.cutbud, isOpen := true } else s.src.k[k]

/-- ILL_MOD of CUT and CUTP: not open, or no budget (R201). -/
def State.cutOk (s : State) (o : Bool) (k : Fin 4) (a : Fin 32) : Verdict :=
  let r := s.cutReg o k a
  s.illModIf (!r.isOpen || r.bud == 0)

def pLock (d : Fin 16) : List RegName := if d = 0 then [] else [.p d]

/-- CUT (R201, R202). -/
def execCut (o : Bool) (d : Fin 16) (k : Fin 4) (a : Fin 32) (s : State) : Res :=
  s.guard (s.cutOk o k a) fun s => s.walk1 (.k k :: pLock d) (.cut o d k (s.rs a)) true

def State.cutpOk (s : State) (o : Bool) (p k : Fin 4) (a : Fin 32) : Verdict :=
  (s.illModIf (p == k || !s.src.k[k].isOpen)).and (s.cutOk o p a)

/-- CUTP (R203). -/
def execCutp (o : Bool) (d : Fin 16) (p k : Fin 4) (a : Fin 32) (s : State) : Res :=
  s.guard (s.cutpOk o p k a) fun s => s.walk1 (.k p :: pLock d) (.cutp o d p k (s.rs a)) true

/-- CUTB (R204). -/
def execCutb (sel : CutSel) (a b : Fin 32) (k : Fin 4) (s : State) : Res :=
  s.guard (s.illModIf (!s.src.k[k].isOpen)) fun s =>
    let r := s.src.k[k]
    let w (x : BitVec 32) : Word := x.setWidth 64
    let (x, y) := match sel with
      | .bounds => (r.lo, r.hi)
      | .elements => (if r.split then w r.elem else 0, w r.eend)
      | .counts => (w r.cnt, w r.bud)
    (s.putS a x).putS b y

/-! ### WALKER_RETIRE -/

/-- What a walker's reads lead to. -/
inductive WOut where
  | write (f : Regs → Regs)
  | trap (c : Cause) (info : Word)
  /-- ILL_MOD at the word that is held -/
  | ill

/-- FIBRE_MALFORMED's EINFO (R217). -/
def fibreInfo (reason : Nat) (va : Word) : Word := BitVec.ofNat 64 (reason * 2 ^ 56 + va.toNat % 2 ^ 56)

/-- fopen (R197). -/
def State.fopenDo (s : State) (vf : Nat) (t : Bool) (sz : Fin 4) (f : Fin 8) (vb cb aux : Word) (csr : Bool) :
    Except WErr WOut :=
  let base : Fibre := { vbase := vb, cbase := cb, isOpen := true, trapping := t, csr }
  if !csr then
    (s.wnum vf cb 8).map fun w =>
      .write fun r => r.wf f { base with len := BitVec.ofNat 32 (setBits w).length, atEnd := w == 0 }
  else
    (s.wread vf aux.toNat 16).map fun b =>
      let lo := leVal (b.take 8)
      let hi := leVal (b.drop 8)
      if hi < lo then
        if t then .trap .fibreMalformed (fibreInfo 0 aux)
        else .write fun r => r.wf f { base with malformed := true, atEnd := true }
      else
        let n := fit32 (hi - lo)
        .write fun r => r.wf f
          { base with vbase := vb + BitVec.ofNat 64 (lo * 2 ^ sz.val), cbase := cb + BitVec.ofNat 64 (4 * lo),
                      len := n, atEnd := n == 0 }

/-- The coordinate at POS (R198). -/
def State.coordinate (s : State) (vf : Nat) (f : Fibre) : Except WErr Nat :=
  if f.csr then s.wnum vf (f.cbase + 4 * f.pos) 4
  else (s.wnum vf f.cbase 8).map fun w => (setBits w).getD f.pos.toNat 64

/-- FADV's step (R198). -/
def State.fadvDo (s : State) (vf : Nat) (x : Fibre) (sz : Fin 4) (f : Fin 8) (c v : Fin 32) :
    Except WErr WOut :=
  if x.len.toNat ≤ x.pos.toNat then
    .ok (.write fun r => ((r.wf f { x with atEnd := true }).ws c (BitVec.allOnes 64)).ws v 0)
  else
    match s.coordinate vf x with
    | .error e => .error e
    | .ok co =>
      (s.wnum vf (x.vbase + x.pos * BitVec.ofNat 64 (2 ^ sz.val)) (2 ^ sz.val)).map fun y =>
        .write fun r => ((r.wf f { x with pos := x.pos + 1, atEnd := x.pos.toNat + 1 == x.len.toNat }).ws c
          (BitVec.ofNat 64 co)).ws v (BitVec.ofNat 64 y)

/-- SNEXT's step (R199). -/
def State.snextDo (s : State) (vf : Nat) (x : Stream) (d : Fin 32) (q : Fin 8) : Except WErr WOut :=
  let m := x.take
  let pos := x.spos + BitVec.ofNat 64 m
  (s.wread vf (x.sbase + x.spos).toNat m).map fun b =>
    .write fun r => (r.wq q { x with spos := pos, atEnd := pos == x.slen }).wv d (ofLe 2048 b)

/-- A tensor read and checked (R201). -/
def State.tensor (s : State) (vf : Nat) (va : Word) : Except WErr (Option Sparse) :=
  (s.wread vf va.toNat 64).map (sparseOf va.toNat)

/-- CUT's step (R201, R202). -/
def State.cutDo (s : State) (vf : Nat) (k : Cutter) (d : Fin 16) (n : Fin 4) : Except WErr WOut :=
  match s.tensor vf k.tdesc with
  | .error e => .error e
  | .ok none => .ok (.trap .fibreMalformed (fibreInfo 1 k.tdesc))
  | .ok (some t) =>
      (s.nonZeros vf t).map fun es =>
        let (k', p) := cutTile t es k
        .write fun r => (r.wk n k').wp d p

/-- CUTP's step (R203): kN's descriptor gives the extents that the partner's must equal, and its own rejection traps
with reason 1 after the partner's check (log 88, DESIGN CHOICE). -/
def State.cutpDo (s : State) (vf : Nat) (kn kp : Cutter) (d : Fin 16) (p : Fin 4) : Except WErr WOut :=
  match s.tensor vf kp.tdesc, s.tensor vf kn.tdesc with
  | .error e, _ => .error e
  | .ok none, _ => .ok (.trap .fibreMalformed (fibreInfo 1 kp.tdesc))
  | _, .error e => .error e
  | _, .ok none => .ok (.trap .fibreMalformed (fibreInfo 1 kn.tdesc))
  | .ok (some tp), .ok (some tn) =>
      if tp.ext0 ≠ tn.ext0 ∨ (kn.split = true ∧ tp.r ≠ tn.r) then .ok .ill
      else (s.nonZeros vf tp).map fun es =>
        let (k', b) := cutPartner tp es kn kp
        .write fun r => (r.wk p k').wp d b

/-- The step of a walker operation; the executing context is its own, and its registers are those that its earlier
operations have written. -/
def State.walkerDo (s : State) (what : OpWhat) : Option (Except WErr WOut) :=
  let vf := s.me.vf
  let r := s.me.regs
  let opened (a : Word) : Cutter := { tdesc := a, bud := s.cutbud, isOpen := true }
  match what with
  | .fopen t sz f vb cb aux csr => some (s.fopenDo vf t sz f vb cb aux csr)
  | .fadv sz f c v => some (s.fadvDo vf r.f[f] sz f c v)
  | .snext d q => some (s.snextDo vf r.q[q] d q)
  | .cut o d k a => some (s.cutDo vf (if o then opened a else r.k[k]) d k)
  | .cutp o d p k a => some (s.cutpDo vf r.k[k] (if o then opened a else r.k[p]) d p)
  | _ => none

/-- A walker word whose context waits for its check (R245). -/
def OpWhat.checked : OpWhat → Bool
  | .fopen t .. => t
  | .cut .. | .cutp .. => true
  | _ => false

/-- WALKER_RETIRE (R200): the reads are made, and the destinations written. A page of a lease that is
not mapped at this moment keeps the read waiting (log 17, DEDUCED). -/
def execWalkerRetire (core id : Nat) (s : State) : Res :=
  match (s.core core).op id with
  | none => .next s
  | some op =>
    let s0 := s
    let s := { s with cur := core, cix := op.ctx }
    let fails (c : Cause) (i : Word) : Res :=
      let s := s.retireOp core op
      .next (if op.what.checked then s.checkDone 5 (some (c, i)) else s.takeTrap c i)
    match (s.under s.me.vf op.old).walkerDo op.what with
    | none => .next s0
    | some (.error .unmapped) => .next (s.schedule (s.cycle + 1) (.walkerRetire core id))
    | some (.error (.breach va)) => fails .leaseBreach (breachInfo 0 va)
    | some (.ok (.trap c i)) => fails c i
    | some (.ok .ill) => fails .illMod (s.me.checkInfo 5)
    | some (.ok (.write f)) =>
        let s := (s.modMe fun c => c.landOp id f).retireOp core op
        .next (if op.what.checked then s.checkDone 5 none else s)

end Sys2Proof.Machine
end

