-- ==== Sys2Proof/Machine/Record.lean ====
section
/-! DEFINITION. Continuation records and context save areas: what a suspension writes and what a
resumption reads (R35 to R39, R42, R72, R81, R257, R383, R409). -/

namespace Sys2Proof.Machine

/-! ### Masks (R37, R41) -/

structure Masks where
  s : BitVec 32
  v : BitVec 32
  g : BitVec 32
  deriving DecidableEq, Repr

/-- Every register. -/
def Masks.all : Masks := ⟨0xFFFFFFFF#32, 0xFFFFFFFF#32, 0x00FFFFFF#32⟩

/-- The live masks of a bundle, from the launch's live-mask table (R41); none where it has no entry, or
the table cannot be read. -/
def State.liveMasks (s : State) (vf : Nat) (at_ : Word) : Option Masks :=
  match (s.vf vf).bind (·.job) with
  | none => none
  | some j =>
      let off := (at_ - j.imgbase).toNat
      (List.range j.liven).findSome? fun n =>
        match s.vread vf (j.livep.toNat + 16 * n) 16 with
        | some b => if leVal (b.take 4) = off then
            some ⟨ofLe 32 ((b.drop 4).take 4), ofLe 32 ((b.drop 8).take 4), ofLe 32 ((b.drop 12).take 4)⟩
            else none
        | none => none

/-! ### Register images (R39) -/

def b2n (b : Bool) (k : Nat) : Nat := if b then 2 ^ k else 0

def Fibre.bytes (f : Fibre) : List Byte :=
  leBytes 8 f.vbase.toNat ++ leBytes 8 f.cbase.toNat ++ leBytes 8 f.pos.toNat ++ leBytes 4 f.len.toNat
    ++ leBytes 4 (b2n f.isOpen 0 + b2n f.atEnd 1 + b2n f.malformed 2 + b2n f.trapping 3 + b2n f.csr 4)

def Stream.bytes (q : Stream) : List Byte :=
  leBytes 8 q.sbase.toNat ++ leBytes 8 q.spos.toNat ++ leBytes 8 q.slen.toNat ++ leBytes 4 q.chunk.toNat
    ++ leBytes 4 (b2n q.isOpen 0 + b2n q.atEnd 1)

def Cutter.bytes (k : Cutter) : List Byte :=
  leBytes 8 k.tdesc.toNat ++ leBytes 8 k.cur.toNat ++ leBytes 8 k.lo.toNat ++ leBytes 8 k.hi.toNat
    ++ leBytes 4 k.cnt.toNat ++ leBytes 4 k.bud.toNat ++ leBytes 4 k.elem.toNat
    ++ leBytes 4 (b2n k.isOpen 0 + b2n k.empty 1 + b2n k.split 2) ++ leBytes 4 k.eend.toNat
    ++ List.replicate 12 0

/-- Reserved bits of a walker or cutter image are zero (R74, R75): kind 2 and 3 of FFLAGS are
reserved. -/
def fibreImageOk (b : List Byte) : Bool := leVal (b.drop 28) / 32 == 0
def streamImageOk (b : List Byte) : Bool := leVal (b.drop 28) / 4 == 0
def cutterImageOk (b : List Byte) : Bool := leVal ((b.drop 44).take 4) / 8 == 0 && (b.drop 52).all (· == 0)

def field64 (b : List Byte) (o : Nat) : Word := ofLe 64 ((b.drop o).take 8)
def field32 (b : List Byte) (o : Nat) : BitVec 32 := ofLe 32 ((b.drop o).take 4)

def fibreOf (b : List Byte) : Fibre :=
  let f := field32 b 28
  { vbase := field64 b 0, cbase := field64 b 8, pos := field64 b 16, len := field32 b 24
    isOpen := f.getLsbD 0, atEnd := f.getLsbD 1, malformed := f.getLsbD 2, trapping := f.getLsbD 3
    csr := f.getLsbD 4 }

def streamOf (b : List Byte) : Stream :=
  let f := field32 b 28
  { sbase := field64 b 0, spos := field64 b 8, slen := field64 b 16, chunk := field32 b 24
    isOpen := f.getLsbD 0, atEnd := f.getLsbD 1 }

def cutterOf (b : List Byte) : Cutter :=
  let f := field32 b 44
  { tdesc := field64 b 0, cur := field64 b 8, lo := field64 b 16, hi := field64 b 24
    cnt := field32 b 32, bud := field32 b 36, elem := field32 b 40
    isOpen := f.getLsbD 0, empty := f.getLsbD 1, split := f.getLsbD 2, eend := field32 b 48 }

/-- The value of p1 to p15; the place of p0 is zero (R81). -/
def predBits (g : Regs) : Nat :=
  (List.range 15).foldl (fun t k => t + b2n (g.p[Fin.ofNat 16 (k + 1)]) (k + 1)) 0

/-- A register's place in the save area (R39). -/
structure Place39 where
  off : Nat
  size : Nat
  saved : Masks → Bool
  image : Regs → List Byte
  ok : List Byte → Bool
  load : List Byte → Regs → Regs

/-- Places of one file. -/
def fileAt {n : Nat} (base size : Nat) (saved : Masks → Nat → Bool) (image : Regs → Fin n → List Byte)
    (ok : List Byte → Bool) (load : List Byte → Fin n → Regs → Regs) : List Place39 :=
  (List.finRange n).map fun k =>
    ⟨base + size * k.val, size, fun m => saved m k.val, fun g => image g k, ok, fun b => load b k⟩

def anyImage (_ : List Byte) : Bool := true

/-- Every register of the save area but the handles, which R72 restores in its own way. -/
def places39 : List Place39 :=
  (fileAt (n := 32) 0 8 (fun m k => k != 0 && m.s.getLsbD k) (fun g k => toLe g.s[k]) anyImage
      fun b k g => g.ws k (ofLe 64 b))
  ++ [⟨0x100, 8, fun m => m.g.getLsbD 16, fun g => leBytes 8 (predBits g), anyImage, fun b g =>
      (List.range 15).foldl (fun g k => g.wp (Fin.ofNat 16 (k + 1)) ((leVal b).testBit (k + 1))) g⟩]
  ++ (fileAt (n := 8) 0x180 8 (fun m _ => m.g.getLsbD 17) (fun g k => toLe g.b[k]) anyImage
      fun b k g => g.wb k (ofLe 64 b))
  ++ (fileAt (n := 8) 0x1C0 8 (fun m _ => m.g.getLsbD 18) (fun g k => toLe g.m[k]) anyImage
      fun b k g => g.wm k (ofLe 64 b))
  ++ (fileAt (n := 8) 0x300 32 (fun m _ => m.g.getLsbD 21) (fun g k => (g.f[k]).bytes) fibreImageOk
      fun b k g => g.wf k (fibreOf b))
  ++ (fileAt (n := 8) 0x400 32 (fun m _ => m.g.getLsbD 22) (fun g k => (g.q[k]).bytes) streamImageOk
      fun b k g => g.wq k (streamOf b))
  ++ (fileAt (n := 4) 0x500 64 (fun m _ => m.g.getLsbD 23) (fun g k => (g.k[k]).bytes) cutterImageOk
      fun b k g => g.wk k (cutterOf b))
  ++ (fileAt (n := 8) 0x600 64 (fun m _ => m.g.getLsbD 20) (fun g k => toLe g.o[k]) anyImage
      fun b k g => g.wo k (ofLe 512 b))
  ++ (fileAt (n := 32) 0x800 256 (fun m k => m.v.getLsbD k) (fun g k => toLe g.v[k]) anyImage
      fun b k g => g.wv k (ofLe 2048 b))
  ++ (fileAt (n := 16) 0x2800 2048 (fun m k => m.g.getLsbD k) (fun g k => toLe g.t[k]) anyImage
      fun b k g => g.wt k (ofLe 16384 b))

/-- The handle group, places from 0x200. -/
def Masks.handles (m : Masks) : Bool := m.g.getLsbD 19

/-- The eight system registers at 0x140, saved and restored whatever the masks say. -/
def sysImage (g : Regs) : List Byte :=
  [g.fpctl.toNat, g.fpflg.toNat, g.safebnd.toNat, g.tvec.toNat, g.epc.toNat, g.ecause.toNat,
    g.einfo.toNat, g.edelay.toNat].flatMap (leBytes 8)

def sysOrder : List SysReg := [.fpctl, .fpflg, .safebnd, .tvec, .epc, .ecause, .einfo, .edelay]

/-- No image sets a bit that its register cannot hold (R38). -/
def sysImageOk (b : List Byte) : Bool := sysOrder.zipIdx.all fun (r, k) => !mtsBad r (field64 b (8 * k))

def loadSys (b : List Byte) (g : Regs) : Regs :=
  sysOrder.zipIdx.foldl (fun g (r, k) => g.setSys r (field64 b (8 * k)) 0) g

/-! ### The forced pre-emption area (R257, R383) -/

def Ctx.loopValid (c : Ctx) : Bool := c.loop.kind != 0 || c.seq.isSome

/-- The loop image; zero where neither a loop nor a nest is there. -/
def Ctx.loopImage (c : Ctx) : List Byte :=
  let l := c.loop
  let k := l.kind
  let n (v : Word) : Nat := if k = 0 then 0 else v.toNat
  leBytes 8 (n l.lstart) ++ leBytes 8 (n l.lend) ++ leBytes 8 (n l.lrem)
    ++ leBytes 8 (if k = 2 then l.ltrip.toNat else 0) ++ leBytes 8 0
    ++ leBytes 1 k ++ leBytes 1 (if k = 2 then l.lns else 0) ++ leBytes 2 0
    ++ (match c.seq with
        | some q => leBytes 4 (2 ^ 31 + q.blk % 2 ^ 22) ++ leBytes 8 q.pos ++ leBytes 8 q.fin
        | none => List.replicate 20 0)

/-- The area as written, with the resolved target of a delay bundle at which the task resumes. -/
def Ctx.forcedArea (c : Ctx) (dly : Option Word) : List Byte :=
  let ds := c.dgst.getD []
  leBytes 8 (b2n dly.isSome 0 + b2n c.loopValid 1 + b2n c.dgst.isSome 2)
    ++ leBytes 8 (dly.getD 0).toNat ++ c.loopImage
    ++ leBytes 8 ds.length
    ++ (List.range 64).flatMap (fun k => leBytes 8 (ds.getD k 0).toNat)
    ++ List.replicate 7592 0

/-- The digest list of the area sets no reserved bit, and entries at or beyond the count of a list in force are zero
(R176, R257). -/
def forcedListOk (dgv : Bool) (n : Nat) (es : List Word) : Bool :=
  (es.all fun e => bitsOf e 56 5 == 0 && !e.getLsbD 22)
    && (!dgv || (decide (n ≤ 64) && (es.drop n).all (· == 0)))

/-- The area sets no reserved bit, whatever its flags say is valid (R38, R176, R257, R383). -/
def forcedAreaOk (b : List Byte) : Bool :=
  let img := b.drop 16
  let fl := field64 b 0
  decide (fl.toNat < 8)
    && decide (leVal ((img.drop 40).take 1) ≤ 2) && leVal ((img.drop 32).take 8) == 0
    && leVal ((img.drop 42).take 2) == 0 && leVal ((img.drop 44).take 4) / 2 ^ 22 % 2 ^ 9 == 0
    && bitsOf (field64 b 0x50) 8 56 == 0
    && forcedListOk (fl.getLsbD 2) (bitsOf (field64 b 0x50) 0 8) ((List.range 64).map fun k => field64 b (0x58 + 8 * k))
    && (b.drop 600).all (· == 0)

/-- Loop and digest state from the area; a nest's block is read again (R381, R383). -/
def State.loadArea (s : State) (core : Nat) (ix : Fin 4) (b : List Byte) : State :=
  let fl := field64 b 0
  let img := b.drop 16
  let sb := (field32 img 44).toNat
  let k := leVal ((img.drop 40).take 1)
  let o := sb % 2 ^ 22
  let d := ofLe 512 (s.scrBytes core o 64)
  s.modCtx core ix fun c =>
    { c with
      delay := if fl.getLsbD 0 then some ⟨field64 b 8, true, Config.lostSource c.pc⟩ else none
      loop := if fl.getLsbD 1 && k != 0 then
          { kind := k, lstart := field64 img 0, lend := field64 img 8, lrem := field64 img 16
            ltrip := field64 img 24, lns := leVal ((img.drop 41).take 1) }
        else {}
      seq := if fl.getLsbD 1 && decide (2 ^ 31 ≤ sb) then
          some { blk := o, pos := (field64 img 48).toNat, fin := (field64 img 56).toNat, decl := d
                 odesc := c.regs.o[declOreg d] }
        else none
      dgst := if fl.getLsbD 2 then
          some ((List.range (field64 b 0x50).toNat).map fun k => field64 b (0x58 + 8 * k))
        else none }

/-! ### Records (R35, R36) -/

/-- The bytes of a record. -/
def Ctx.recordBytes (c : Ctx) (core : Nat) (full : Bool) (m : Masks) (wobj save : Word) : List Byte :=
  let pin := c.strict || c.pin
  let flags := (if pin then 2 ^ 16 * (if c.strict then core else c.pincore) else 0) + b2n full 4
    + b2n c.spwn 3 + b2n pin 2 + c.regs.cls.toNat
  leBytes 8 c.pc.toNat ++ leBytes 8 save.toNat ++ leBytes 8 c.jcbp.toNat
    ++ leBytes 8 (c.launchp.toNat % 2 ^ 56 / 256 * 256 + c.level % 8)
    ++ leBytes 4 flags ++ toLe m.s ++ toLe m.v ++ toLe m.g ++ leBytes 8 wobj.toNat
    ++ leBytes 8 c.parent.toNat

/-- A record as read. -/
structure Rec where
  resume : Word
  save : Word
  jcb : Word
  launch : Word
  level : Nat
  flags : Nat
  masks : Masks
  parent : Word
  deriving DecidableEq, Repr

/-- A record's fields, with the masks that FULL implies, if its reserved fields keep to R35 to R37 for a
launch of n levels. -/
def recOf (n : Nat) (b : List Byte) : Option Rec :=
  let l := field64 b 24
  let fl := (field32 b 32).toNat
  let m : Masks := ⟨field32 b 36, field32 b 40, field32 b 44⟩
  let w := field64 b 48
  if bitsOf l 56 8 == 0 && bitsOf l 3 5 == 0 && decide (bitsOf l 0 3 < n) && fl / 2 ^ 25 == 0
      && fl / 2 ^ 5 % 2 ^ 11 == 0 && m.g.toNat / 2 ^ 24 == 0 && decide (bitsOf w 60 4 ≤ 4)
      && bitsOf w 56 4 == 0 then
    some { resume := field64 b 0, save := field64 b 8, jcb := field64 b 16
           launch := BitVec.ofNat 64 (bitsOf l 8 48 * 256), level := bitsOf l 0 3, flags := fl
           masks := if fl.testBit 4 then Masks.all else m, parent := field64 b 56 }
  else none

/-- Bytes that a resumption reads, in the task's leases and on valid pages (R38). -/
def State.recRead (s : State) (vf : Nat) (a : Word) (n : Nat) : Option (List Byte) :=
  match s.wread vf a.toNat n with
  | .ok b => some b
  | .error _ => none

/-- The registers that a save area restores, from their reset values (R42, R70): none where a part
cannot be read or is malformed. -/
def State.loadRegs (s : State) (vf : Nat) (save : Word) (m : Masks) : Option Regs :=
  let at_ (o n : Nat) : Option (List Byte) := s.recRead vf (save + BitVec.ofNat 64 o) n
  match at_ 0x140 64 with
  | none => none
  | some sys =>
      if !sysImageOk sys then none
      else places39.foldl (fun g p => match g with
        | none => none
        | some g =>
            if !p.saved m then some g
            else match at_ p.off p.size with
              | some b => if p.ok b then some (p.load b g) else none
              | none => none) (some (loadSys sys {}))

/-- The value that a restored handle takes: VPN and PSIZE of the image, translated again; V = 0 outside
the leases, or where the page is not mapped (R72). -/
def State.restoredHandle (s : State) (core vf : Nat) (img : Handle) : Handle :=
  let va := Handle.va img
  let off : Handle := BitVec.ofNat 128 (Handle.field img 84 44 * 2 ^ 84 + Handle.psize img * 2 ^ 42)
  if s.leased vf va then
    match s.xlate vf va with
    | some l => s.handleOf core vf va l
    | none => off
  else off

/-- Every saved handle is written 24 cycles after the restore begins (R72). -/
def State.restoreHandles (s : State) (core : Nat) (ix : Fin 4) (vf : Nat) (b : List Byte) : State :=
  (List.finRange 16).foldl (fun s n =>
    let img : Handle := ofLe 128 ((b.drop (16 * n.val)).take 16)
    (s.modCtx core ix fun c => c.lock (.h n) none).schedule (s.cycle + 24)
      (.transWrite core ix n (s.restoredHandle core vf img))) s

/-- A task in a context at its reset values. The SAFEBND count starts at the cycle of the installation (R66 names only
honoured safe points; log 84, DEDUCED). -/
def State.freshCtx (s : State) (vf : Nat) (logical : Nat) : Ctx :=
  let j := (s.vf vf).bind (·.job)
  { task := true, vf, logical, strict := j.elim false (·.strict)
    jcbp := j.elim 0 (·.jcb), launchp := j.elim 0 (·.lrec), level := (s.levels vf).length - 1
    lastIssue := s.cycle, safeAt := s.cycle }

/-- EINFO of a malformed record (R38). -/
def malformedInfo (a : Word) : Word := BitVec.ofNat 64 (2 ^ 63 + a.toNat % 2 ^ 56)

/-- A task starts with a trap that ends it: TVEC is 0 (R38, R46, R247). -/
def Ctx.startTrapped (c : Ctx) (epc : Word) (cause : Cause) (info : Word) : Ctx :=
  let t := { c with pc := epc, regs := { c.regs with epc := epc, einfo := info } }
  t.startEnd (some cause.code)

/-- The ILL_MOD trap of a malformed record (R38). -/
def Ctx.startBad (c : Ctx) (epc recp : Word) : Ctx := c.startTrapped epc .illMod (malformedInfo recp)

/-- A record pins its task to another core than the one that takes it, outside strict mode, where the launch pins
every task to its own core (R36, R46, R55; log 98, DEDUCED). -/
def Rec.elsewhere (r : Rec) (fresh : Ctx) (core : Nat) : Bool :=
  !fresh.strict && r.flags.testBit 2 && r.flags / 2 ^ 16 % 2 ^ 9 != core

/-- A context restores a task from a record (R42, R59): fresh holds what the record does not say. A restored task
reads as LAUNCHP the launch record that its record names, also one installed from a CONT record (R35, R42, R55; log
85, DEDUCED). A task that would leave the core it is pinned to ends (R46). -/
def State.resume (s : State) (core : Nat) (ix : Fin 4) (fresh : Ctx) (recp : Word) : State :=
  let put (c : Ctx) : State := s.modCtx core ix fun _ => c
  let vf := fresh.vf
  match s.recRead vf recp 64 with
  | none => put (fresh.startBad 0 recp)
  | some b =>
      match recOf (s.levels vf).length b with
      | none => put (fresh.startBad (field64 b 0) recp)
      | some r =>
          let area := s.recRead vf (r.save + 0xA800) 8192
          let hs := if r.masks.handles then s.recRead vf (r.save + 0x200) 256 else some []
          match s.loadRegs vf r.save r.masks, area, hs with
          | some g, some a, some h =>
              if !forcedAreaOk a then put (fresh.startBad r.resume recp)
              else if r.elsewhere fresh core then
                put (fresh.startTrapped r.resume .phaseEscape (escapeInfo 3 0 false 0 0 0))
              else
                let c := { fresh with
                  regs := { g with cls := BitVec.ofNat 2 r.flags }, pc := r.resume, jcbp := r.jcb
                  launchp := r.launch, level := r.level, pin := r.flags.testBit 2
                  pincore := r.flags / 2 ^ 16 % 2 ^ 9, savep := r.save, parent := r.parent }
                let s := (put c).loadArea core ix a
                if r.masks.handles then s.restoreHandles core ix vf h else s
          | _, _, _ => put (fresh.startBad r.resume recp)

/-! ### Writing them -/

/-- Places of n bytes, aligned to 64, in a lease. -/
def Lease.rooms (l : Lease) (n : Nat) : Nat := if n ≤ l.len then (l.len - n) / 64 + 1 else 0

/-- The k-th place of n bytes among some leases. -/
def nthRoom (n : Nat) : List Lease → Nat → Option Nat
  | [], _ => none
  | l :: t, k => if k < l.rooms n then some (l.start + 64 * k) else nthRoom n t (k - l.rooms n)

/-- W leases of a function's running job; the service function has every page (R157, R266). -/
def State.roomy (s : State) (vf : Nat) : List Lease :=
  if vf = 64 then [⟨0, 2 ^ 56, true, true⟩]
  else (((s.vf vf).bind (·.job)).elim [] (·.leases)).filter (·.w)

/-- A free choice among the places of n bytes in the W leases; where there is none, anywhere (log 19, DESIGN CHOICE). -/
def State.room (s : State) (vf n : Nat) (v : Word) : Word :=
  let ls := s.roomy vf
  let all := ls.foldl (fun k l => k + l.rooms n) 0
  match nthRoom n ls (v.toNat % all) with
  | some a => BitVec.ofNat 64 a
  | none => v &&& ~~~(63 : Word)

/-- A first record and save area for a task that has none of its own, which lie in the job's leases (R35, R39, R55; log
19, DESIGN CHOICE). -/
def State.newPlace (s : State) (vf : Nat) : Word × Word :=
  let (r, a) := Config.recordPlace vf s.nextOp
  (s.room vf 64 r, s.room vf 0xC800 a)

/-- The save area and the record of a context, written (R39, R41, R42, R257): where they lie, and the
state after. -/
def State.writeRecord (s : State) (core : Nat) (ix : Fin 4) (full : Bool) (m : Masks) (wobj : Word)
    (dly : Option Word) : Word × State :=
  let c := s.ctx core ix
  let fresh := c.recp == 0
  let (recp, save) := if fresh then s.newPlace c.vf else (c.recp, c.savep)
  let s := if fresh then { s with nextOp := s.nextOp + 1 } else s
  let put (s : State) (o : Nat) (b : List Byte) : State := s.vput c.vf (save.toNat + o) b
  let s := (places39.filter fun p => p.saved m).foldl (fun s p => put s p.off (p.image c.regs)) s
  let s := if m.handles then put s 0x200 (c.regs.h.toList.flatMap toLe) else s
  let s := put s 0x140 (sysImage c.regs)
  let s := put s 0xA800 (c.forcedArea dly)
  (recp, s.vput c.vf recp.toNat (c.recordBytes core full m wobj save))

end Sys2Proof.Machine
end

