-- ==== Sys2Proof/Machine/Sha3.lean ====
section
/-! DEFINITION. SHA3-256, which R180, R263 and R267 name: the sponge of FIPS 202 at a rate of 136 bytes. The
permutation's state is kept as five sheets of five lanes, and its constants are computed from their own
definitions: round bits from the shift register, rotations from the walk over the lanes. -/

namespace Sys2Proof.Machine

/-- Five sheets, by x; each holds five lanes, by y. -/
abbrev Sheets := List (List Word)

/-- The register of the round bits one step on: x^8 + x^6 + x^5 + x^4 + 1. -/
def lfsrStep (r : Nat) : Nat := if 128 ≤ r then (2 * r) ^^^ 0x171 else 2 * r

/-- The word that a round puts on lane (0, 0), and the register after it: seven round bits, bit j of them at
place 2^j − 1. -/
def roundWord : Nat → Nat → Nat → Nat × Nat
  | 0, _, r => (0, r)
  | n + 1, j, r =>
      let (w, r') := roundWord n (j + 1) (lfsrStep r)
      (w + r % 2 * 2 ^ (2 ^ j - 1), r')

/-- A lane's way: from (x, y) to (y, 2x + 3y), the steps of the walk numbered from 1; a step of number k turns
its lane by 1 + 2 + … + k. -/
structure LaneMove where
  x : Nat
  y : Nat
  turn : Nat

/-- The 24 steps of the walk from (1, 0). -/
def laneWalk : Nat → Nat → LaneMove → List LaneMove
  | 0, _, _ => []
  | n + 1, k, m => m :: laneWalk n (k + 1) ⟨m.y, (2 * m.x + 3 * m.y) % 5, m.turn + k + 1⟩

def laneMoves : List LaneMove := ⟨0, 0, 0⟩ :: laneWalk 24 1 ⟨1, 0, 1⟩

/-- Every lane takes in the parities of the two sheets beside its own. -/
def mixSheets (s : Sheets) : Sheets :=
  match s.map fun sheet => sheet.foldl (· ^^^ ·) 0 with
  | [p, q, r, t, u] =>
      (s.zip [(u, q), (p, r), (q, t), (r, u), (t, p)]).map fun (sheet, b, a) =>
        sheet.map (· ^^^ (b ^^^ a.rotateLeft 1))
  | _ => s

/-- Lanes turned and moved, as the walk says. -/
def moveLanes (s : Sheets) : Sheets :=
  (List.range 5).map fun x => (List.range 5).map fun y =>
    match laneMoves.find? fun m => m.y == x && (2 * m.x + 3 * m.y) % 5 == y with
    | some m => ((s.getD m.x []).getD m.y 0).rotateLeft m.turn
    | none => 0

/-- The nonlinear step: a sheet with the two after it. -/
def bendSheet (a b c : List Word) : List Word :=
  List.zipWith (· ^^^ ·) a (List.zipWith (fun y z => z &&& ~~~y) b c)

def bendSheets (s : Sheets) : Sheets :=
  match s with
  | [a, b, c, d, e] => [bendSheet a b c, bendSheet b c d, bendSheet c d e, bendSheet d e a, bendSheet e a b]
  | _ => s

/-- Rounds of the permutation, with the register of the round bits. -/
def permute : Nat → Nat → Sheets → Sheets
  | 0, _, s => s
  | n + 1, r, s =>
      let (w, r') := roundWord 7 0 r
      permute n r' (match bendSheets (moveLanes (mixSheets s)) with
        | (l :: t) :: rest => ((l ^^^ BitVec.ofNat 64 w) :: t) :: rest
        | s => s)

/-- Byte k of a block goes to lane k / 8, which stands at x = lane mod 5, y = lane / 5. -/
def blockSheets (b : List Byte) : Sheets :=
  (List.range 5).map fun x => (List.range 5).map fun y =>
    BitVec.ofNat 64 (leVal ((b.drop (8 * (x + 5 * y))).take 8))

def sponge : Nat → List Byte → Sheets → Sheets
  | 0, _, s => s
  | n + 1, b, s =>
      sponge n (b.drop 136) (permute 24 1
        (List.zipWith (List.zipWith (· ^^^ ·)) s (blockSheets (b.take 136))))

/-- A message with the suffix 01 and the padding 10…01, to whole blocks. -/
def sha3Blocks (m : List Byte) : List Byte :=
  let free := 135 - m.length % 136
  m ++ (if free = 0 then [0x86] else 0x06 :: List.replicate (free - 1) 0 ++ [0x80])

/-- SHA3-256, as 32 bytes: the first four lanes. -/
def sha3Bytes (m : List Byte) : List Byte :=
  let p := sha3Blocks m
  let out := sponge (p.length / 136) p (List.replicate 5 (List.replicate 5 0))
  (out.take 4).flatMap fun sheet => leBytes 8 (sheet.headD 0).toNat

/-- SHA3-256; byte 0 of the hash in bits [7:0]. -/
def sha3 (m : List Byte) : BitVec 256 := BitVec.ofNat 256 (leVal (sha3Bytes m))

end Sys2Proof.Machine
end

