-- ==== Sys2Proof/Machine/Tasks.lean ====
section
/-! DEFINITION. The life of tasks: suspension (R40 to R43), the pass (R44, R45), pre-emption (R65, R66,
R255, R256), EXIT and ends by trap (R248, R370), job control blocks (R56 to R58, R373), SPAWN (R407 to
R409). -/

namespace Sys2Proof.Machine

/-! ### The pass -/

/-- The core in whose row's pass a record stands: PINCORE, or the core of its last run (R44). -/
def PassEnt.home (e : PassEnt) (last : Nat) : Nat := e.pin.getD last

/-- A list without the first occurrence of an entry. -/
def dropFirst {α : Type} [DecidableEq α] (a : α) : List α → List α
  | [] => []
  | b :: t => if b = a then t else b :: dropFirst a t

/-- The first of some entries that no other comes before. -/
def firstBy (before : PassEnt → PassEnt → Bool) (l : List PassEnt) : Option PassEnt :=
  l.foldl (fun b e => match b with
    | none => some e
    | some x => if before e x then some e else some x) none

/-- The oldest entry of the lowest class (R44). -/
def lowestEntry (l : List PassEnt) : Option PassEnt :=
  firstBy (fun e x => decide (e.cls < x.cls) || (e.cls == x.cls && decide (e.since < x.since))) l

/-- The service firmware moves the oldest entry of the lowest class from a row's pass to the die's (R44). -/
def State.spill (s : State) (row : Nat) : State :=
  match lowestEntry (s.row row).pass with
  | some e => (s.modRow row fun r => { r with pass := dropFirst e r.pass }).modDie (row / 8) fun d =>
      { d with spilled := d.spilled ++ [(row, e)] }
  | none => s

/-- A record enters a pass, which holds 256; a full one spills first (R44). -/
def State.enqueue (s : State) (last : Nat) (e : PassEnt) : State :=
  let row := rowOf (e.home last)
  (if 256 ≤ (s.row row).pass.length then s.spill row else s).modRow row fun r =>
    { r with pass := r.pass ++ [{ e with since := s.cycle }] }

/-- The complete bit of a JCB (R56). -/
def State.jcbComplete (s : State) (vf : Nat) (a : Word) : Bool := (s.vread64 vf (a.toNat + 16)).getLsbD 0

/-- A wait object's condition holds (R414, R234): a collective whose entry has been freed meanwhile has
completed. -/
def State.objDone (s : State) (core vf : Nat) (wobj : Word) (bar : Option (BarKey × Nat)) : Bool :=
  match bar with
  | some (k, e) => (s.bar k).epoch != e
  | none => match bitsOf wobj 60 4 with
    | 2 => s.feFull core (bitsOf wobj 0 22)
    | 3 => match s.tagged (bitsOf wobj 0 40) with
      | some e => e.stage == .done
      | none => true
    | 4 => s.jcbComplete vf (BitVec.ofNat 64 (bitsOf wobj 0 56))
    | _ => true

/-- A record is out of its context: in the pass at once, or registered with its object (R44, R415). -/
def State.putToSleep (s : State) (core : Nat) (e : PassEnt) (wobj : Word) (bar : Option (BarKey × Nat)) :
    State :=
  if wobj = 0 then s.enqueue core e
  else { s with sleepers := s.sleepers ++ [⟨core, e, wobj, bar⟩] }

/-- Records whose objects are satisfied enter their passes (R44, R415). -/
def State.sweep (s : State) : State :=
  let up := s.sleepers.filter fun x => s.objDone x.core x.ent.vf x.wobj x.bar
  if up.isEmpty then s
  else up.foldl (fun s x => s.enqueue x.core x.ent)
    { s with sleepers := s.sleepers.filter fun x => !s.objDone x.core x.ent.vf x.wobj x.bar }

/-- The pass entry of a context's task. -/
def Ctx.passEnt (c : Ctx) (core : Nat) (recp : Word) (cyc : Nat) : PassEnt :=
  { recp, vf := c.vf, logical := c.logical, spwn := c.spwn, cls := c.regs.cls.toNat
    pin := if c.strict then some core else if c.pin then some c.pincore else none, since := cyc }

/-- The context in which the service firmware runs (R266). -/
def isService (core : Nat) (ix : Fin 4) : Bool := core % 96 == 84 && ix == 3

/-- The function of a core's contexts; the service firmware's context belongs to none (R266). -/
def State.coreVf (s : State) (core : Nat) (ix : Fin 4) : Option Nat :=
  if isService core ix then none else (s.core core).vf

/-- A pre-emption request of a function is in force (R262). -/
def State.preempting (s : State) (vf : Nat) : Bool := (s.vf vf).elim false (·.preempt)

/-- Entries that a context may take (R45, R262). -/
def State.eligible (s : State) (core : Nat) (ix : Fin 4) : List PassEnt :=
  match s.coreVf core ix with
  | none => []
  | some v =>
      if (s.ctx core ix).task || s.preempting v then []
      else (s.row (rowOf core)).pass.filter fun e => e.vf == v && (e.pin.isNone || e.pin == some core)

/-- The class at which an entry is taken (R60). -/
def State.entClass (s : State) (e : PassEnt) : Nat :=
  max e.cls (if e.spwn then 0 else s.inherited e.vf e.logical)

/-- The oldest entry that has waited 65,536 cycles (R45). -/
def State.agedEntry (s : State) (core : Nat) (ix : Fin 4) : Option PassEnt :=
  firstBy (fun e x => decide (e.since < x.since))
    ((s.eligible core ix).filter fun e => decide (e.since + 65536 ≤ s.cycle))

/-- The entry of highest class, oldest first (R45). -/
def State.bestEntry (s : State) (core : Nat) (ix : Fin 4) : Option PassEnt :=
  firstBy (fun e x => decide (s.entClass x < s.entClass e)
    || (s.entClass e == s.entClass x && decide (e.since < x.since))) (s.eligible core ix)

/-- A context takes a record and restores its task (R42, R45, R409). -/
def State.takeEntry (s : State) (core : Nat) (ix : Fin 4) (e : PassEnt) : State :=
  let s := s.modRow (rowOf core) fun r => { r with pass := dropFirst e r.pass }
  s.resume core ix { s.freshCtx e.vf e.logical with recp := e.recp, spwn := e.spwn } e.recp

/-- PASS_TAKE (R45). -/
def execPassTake (core : Nat) (ix : Fin 4) (s : State) : Res :=
  match s.agedEntry core ix, s.bestEntry core ix with
  | none, some e => .next (s.takeEntry core ix e)
  | _, _ => .next s

/-- PASS_ENTRY_AGED: an entry that has waited 65,536 cycles is taken before any other (R45). -/
def execPassEntryAged (core : Nat) (ix : Fin 4) (s : State) : Res :=
  match s.agedEntry core ix with
  | some e => .next (s.takeEntry core ix e)
  | none => .next s

/-- PASS_SPILL: the service firmware spills from a full pass (R44). -/
def execPassSpill (row : Nat) (s : State) : Res :=
  .next (if 256 ≤ (s.row row).pass.length then s.spill row else s)

/-- PASS_RETURN (R44). Of several spilled entries of a row the one spilled first returns first (log 69, DESIGN
CHOICE). -/
def execPassReturn (row : Nat) (s : State) : Res :=
  match (s.die (row / 8)).spilled.find? fun x => x.1 == row with
  | some x =>
      if 128 ≤ (s.row row).pass.length then .next s
      else .next ((s.modDie (row / 8) fun d => { d with spilled := dropFirst x d.spilled }).modRow row fun r =>
        { r with pass := r.pass ++ [x.2] })
  | none => .next s

/-! ### Suspension -/

/-- A PUBLISH of a context is not yet acknowledged. -/
def State.publishing (s : State) (core : Nat) (ix : Fin 4) : Bool :=
  (s.ctx core ix).fences.any (·.pub.isSome) || s.agenda.any fun e => match e.2 with
    | .publishAck k i _ => k == core && i == ix
    | _ => false

/-- Every destination of a context is written, and its arrivals are decided (R233, R255, R421). -/
def State.settled (s : State) (core : Nat) (ix : Fin 4) : Bool :=
  let c := s.ctx core ix
  (c.sb.all fun x => match x.2 with | none => false | some t => decide (t ≤ s.cycle))
    && c.bara.isEmpty && !s.publishing core ix

/-- Its counters are zero as well (R41). -/
def State.quiet (s : State) (core : Nat) (ix : Fin 4) : Bool :=
  (s.ctx core ix).idle4 && s.settled core ix

/-- A context that holds no task: its registers keep what they hold until the next task starts (R70, R370). -/
def Ctx.idle (c : Ctx) : Ctx := { ({} : Ctx) with regs := c.regs }

/-- The context is idle, and its task, unless it has ended, is represented by its record. -/
def State.freeCtx (s : State) (core : Nat) (ix : Fin 4) : State := s.modCtx core ix Ctx.idle

/-- A suspension that has been asked for can be made: the arrivals by BARA are decided, and a context that writes a
record is quiet (R41, R233). -/
def State.canSuspend (s : State) (core : Nat) (ix : Fin 4) : Bool :=
  if s.staysAt core ix then (s.ctx core ix).bara.isEmpty else s.quiet core ix

/-- SUSPENSION (R41): the context saves what the live masks name, writes its record and becomes idle; one
that holds the array or has a phase open parks in place (R41, R398, R416), and so does one in which the refusal of a BARA
has landed, whose trap comes before its next bundle and is in no record (R233, R246; log 113, DEDUCED). -/
def execSuspension (core : Nat) (ix : Fin 4) (s : State) : Res :=
  let c := s.ctx core ix
  match c.wait with
  | .suspend w =>
      if !s.canSuspend core ix then .next s
      else if s.staysAt core ix || !c.landBar.isEmpty then
        .next (s.modCtx core ix fun c => { c with
          wait := match c.suspendBar with
            | some (k, e) => .flip k e
            | none => if w = 0 then .none else .inPlace w
          suspendBar := none })
      else
        let live := s.liveMasks c.vf c.suspendAt
        let (recp, s) := s.writeRecord core ix live.isNone (live.getD Masks.all) w none
        .next ((s.freeCtx core ix).putToSleep core (c.passEnt core recp s.cycle) w c.suspendBar)
  | _ => .next s

/-! ### Pre-emption -/

/-- A request comes to a context (R65). A safe point that has executed already does not serve it. -/
def Ctx.asked (c : Ctx) : Ctx := { c with preq := true, safeDue := if c.preq then c.safeDue else false }

/-- PREEMPTION_REQUEST: the service firmware asks a context (R65, R262). -/
def execPreemptionRequest (core : Nat) (ix : Fin 4) (s : State) : Res :=
  if (s.ctx core ix).task then
    .next (s.modCtx core ix Ctx.asked)
  else .next s

/-- PREEMPTION_REQUEST_WITHDRAWAL: a context parked in place issues again, and its first bundle replays
the shadow buffer (R255). -/
def execPreemptionRequestWithdrawal (core : Nat) (ix : Fin 4) (s : State) : Res :=
  if (s.ctx core ix).task then
    .next (s.modCtx core ix fun c => { c with preq := false, frozen := false })
  else .next s

/-- A context is at a bundle boundary, or parked in a bundle that has not executed or in a wait that R256
names. -/
def Ctx.boundary (c : Ctx) : Bool :=
  match c.wait, c.park with
  | .none, _ => c.deferred.isNone
  | .counters .., _ | .flip .., _ | .inPlace _, _ => true
  | .reply, some p => (match p.why with | .fullEmpty .. => true | _ => false)
  | _, _ => false

/-- A request can be acted on now: not for a phase context in a transfer phase (R256), nor before the trap of a BARA's
refusal that has landed (R233, R246; log 113, DEDUCED). -/
def State.preemptable (s : State) (core : Nat) (ix : Fin 4) : Bool :=
  let c := s.ctx core ix
  c.task && c.preq && !c.frozen && c.boundary && c.landBar.isEmpty && !s.phaseCtx core ix

/-- The context's wait at a barrier goes into its record. -/
def Ctx.waitBar (c : Ctx) : Ctx :=
  match c.wait with
  | .flip k e => { c with suspendBar := some (k, e) }
  | _ => { c with suspendBar := none }

/-- The wait object of a context that is pre-empted (R256). -/
def Ctx.preemptObj (c : Ctx) : Word :=
  match c.suspendBar with
  | some (k, _) => k.wobj
  | none => 0

/-- A parked bundle that counts as not executed, though words of it have issued: its registers are as before it (R256,
R432). -/
def Ctx.unissue (c : Ctx) (regs : Regs) : Ctx :=
  { c with
    regs := regs, snap := none, deferred := none, park := none, xfer := none, skip := none, back := none, pad := none
    undo := none, entry := none, checks := [], failed := none, landed := 0, shot := [], last := c.prior, wait := .none }

/-- A bundle parked in LDE, STE, BTAKE, MOWN, WAIT or CWAIT is issued again (R256): what words of it have begun is taken
back, a request that an LDE or STE has sent among it; stores and atomics that have performed stand (log 23, DEDUCED). -/
def State.leaveWait (s : State) (core : Nat) (ix : Fin 4) : State :=
  let c := s.ctx core ix
  match c.wait, c.entry with
  | .counters .., some u | .reply, some u =>
      let t := { s with cur := core, cix := ix }
      let r := if t.holdsArr then u.image c.before else c.before
      { ((t.rollback u).modMe fun x => x.unissue r) with cur := s.cur, cix := s.cix }
  | _, _ => s.modCtx core ix fun c => { c with park := none }

/-- A context parks in place under forced pre-emption: a holder of the array has its events captured from the cycle
after its last bundle on, what they have done since then undone; a NOP's wait is over (R253, R255, R395). -/
def State.freeze (s : State) (core : Nat) (ix : Fin 4) : State :=
  let t := { s with cur := core, cix := ix }
  let mine := t.holdsArr && t.myCore.arr.shadow.isNone
  let t := if mine then
      match t.me.last with
      | some u => (t.rewind u).captureShadow core (u.cycle + 1)
      | none => t.captureShadow core (t.me.lastIssue + 1)
    else t
  { (t.modMe fun c => { c with frozen := true, replay := c.replay || mine, holdTil := 0 }) with cur := s.cur, cix := s.cix }

/-- The condition of SAFE_POINT_TAKEN (R65). -/
def State.safeNow (s : State) (core : Nat) (ix : Fin 4) : Bool :=
  let c := s.ctx core ix
  s.preemptable core ix && c.safeDue && c.delay.isNone

/-- SAFE_POINT_TAKEN: the task suspends as its safe point's live masks say (R42, R65); a context that holds
the array or has a phase open parks in place. -/
def execSafePointTaken (core : Nat) (ix : Fin 4) (s : State) : Res :=
  if !s.safeNow core ix then .next s
  else
    let s := s.leaveWait core ix
    if s.staysAt core ix then .next (s.modCtx core ix fun c => { c with frozen := true })
    else
      .next (s.modCtx core ix fun c =>
        let c := c.waitBar
        { c with wait := .suspend c.preemptObj, safeDue := false })

/-- The condition of FORCED_PREEMPTION (R66): the count of cycles since the last honoured safe point is
above SAFEBND, which at its greatest value never forces. -/
def State.forceNow (s : State) (core : Nat) (ix : Fin 4) : Bool :=
  let c := s.ctx core ix
  s.preemptable core ix && c.regs.safebnd != 0xFFFFFFFF#32 && decide (c.regs.safebnd.toNat < s.cycle - c.safeAt)

/-- FORCED_PREEMPTION: issue stops. A holder of the array has its events captured, and it or the holder of
an open phase parks in place (R255, R398); any other context saves once its destinations are written. -/
def execForcedPreemption (core : Nat) (ix : Fin 4) (s : State) : Res :=
  if !s.forceNow core ix then .next s
  else
    let s := s.leaveWait core ix
    if s.staysAt core ix then .next (s.freeze core ix)
    else .next (s.modCtx core ix fun c => { c.waitBar with wait := .saving })

/-- FORCED_PREEMPTION_SAVE (R255, R257): every register and the forced pre-emption area are saved, and the
context is idle at once; operations in flight count on it no longer. Where the refusal of a BARA has landed meanwhile, the
context goes on, and its trap comes first (R233, R246; log 113, DEDUCED). -/
def execForcedPreemptionSave (core : Nat) (ix : Fin 4) (s : State) : Res :=
  let c := s.ctx core ix
  if c.wait == .saving && s.settled core ix && !c.landBar.isEmpty then
    .next (s.modCtx core ix fun c => { c with
      wait := match c.suspendBar with
        | some (k, e) => .flip k e
        | none => .none
      suspendBar := none })
  else if c.wait == .saving && s.settled core ix then
    let w := c.preemptObj
    let dly := c.delay.map c.resolved
    let (recp, s) := s.writeRecord core ix true Masks.all w dly
    let left := ((s.core core).ops.filter fun o => o.ctx == ix).map (·.id)
    let s := s.modCore core fun k => { k with
      ops := k.ops.map fun o => if left.contains o.id then { o with ctr := none } else o
      released := k.released ++ [⟨c.passEnt core recp s.cycle, w, c.suspendBar, left⟩] }
    .next (s.freeCtx core ix)
  else .next s

/-- PREEMPT_RECORD_RELEASE: once every operation has retired the record enters the pass, or waits for its
barrier (R255, R256). -/
def execPreemptRecordRelease (core : Nat) (recp : Word) (s : State) : Res :=
  let k := s.core core
  match k.released.find? fun r => r.ent.recp == recp && r.ops.all fun o => (k.op o).isNone with
  | some r =>
      let s := s.modCore core fun k => { k with released := dropFirst r k.released }
      .next (s.putToSleep core r.ent r.wobj r.bar)
  | none => .next s

/-! ### Job control blocks -/

/-- Members of an instance that have ended: one more (R52). -/
def bumpEnded (l : List ((Nat × Nat) × Nat)) (k : Nat × Nat) : List ((Nat × Nat) × Nat) :=
  match l with
  | [] => [(k, 1)]
  | (x, n) :: t => if x = k then (x, n + 1) :: t else (x, n) :: bumpEnded t k

def State.modJob (s : State) (vf : Nat) (f : Job → Job) : State :=
  s.modVf vf fun v => { v with job := v.job.map f }

/-- A member of the instance at a level has ended; where it was the last one, the instance completes
(R52). -/
def State.memberEnds (s : State) (vf level pos : Nat) : State :=
  let s := s.modJob vf fun j => { j with ended := bumpEnded j.ended (level, pos) }
  match (s.vf vf).bind (·.job) with
  | none => s
  | some j =>
      if (j.ended.lookup (level, pos)) == (j.levels[level + 1]?).map (·.count) then
        (s.schedule (s.cycle + s.latency none) (.instanceComplete vf level pos)).dropDelay
      else s

/-- The place under which a task's hash stands among the others (R180, log 20, DESIGN CHOICE). -/
def hashKey (spwn : Bool) (i : Nat) : Nat := if spwn then Config.spawnedIndex i else i

def insertHash (k : Nat) (h : BitVec 256) : List (Nat × BitVec 256) → List (Nat × BitVec 256)
  | [] => [(k, h)]
  | (n, x) :: t => if n ≤ k then (n, x) :: insertHash k h t else (k, h) :: (n, x) :: t

/-- The page of a leased block of 64 bytes is mapped: between a shootdown and a remap it is not, and what has to reach
the block waits (R157, R159; log 14, DEDUCED). -/
def State.blockMapped (s : State) (vf : Nat) (a : Word) : Bool := !s.leased vf a.toNat || (s.vplace vf a.toNat).isSome

/-- A change made under translations that a shootdown has taken away (R159). -/
def State.withOld (s : State) (vf : Nat) (old : List (Nat × Leaf)) (f : State → State) : State :=
  if old.isEmpty then f s
  else (f (s.under vf old)).modJob vf fun j => { j with lts := s.lts vf }

/-- One completion is posted to a JCB, with the cause of an end by trap (R57, R248). -/
def State.postCompletion (s : State) (vf : Nat) (jcb : Word) (cause : Option (BitVec 8)) : State :=
  let a := jcb.toNat
  let done := s.vread64 vf (a + 8) + 1
  let st := s.vread64 vf (a + 16)
  let st := match cause with
    | none => st
    | some c =>
        let st := if bitsOf st 32 32 = 0 then (st &&& ~~~(0xFF00 : Word)) ||| (c.setWidth 64 <<< 8) else st
        (st ||| 2) + 0x100000000
  let s := s.vput vf (a + 8) (leBytes 8 done.toNat)
  let s := if cause.isNone then s else (s.vput vf (a + 16) (leBytes 8 st.toNat)).modJob vf fun j => { j with broken := true }
  if ((s.vf vf).bind (·.job)).any (fun j => j.jcb == jcb && !j.finishing) && done == s.vread64 vf a then
    ((s.modJob vf fun j => { j with finishing := true }).schedule (s.cycle + s.latency none)
      (.jobCompletion vf)).dropDelay
  else s

/-- Bytes of a digest list's ranges, range by range (R180). -/
def State.digestBytes (s : State) (core : Nat) (es : List Word) : List Byte :=
  es.flatMap fun e => s.scrBytes core (pStart e) (pLen e)

/-- The core holds every buffer that the list touches (R180). -/
def State.digestHeld (s : State) (core : Nat) (es : List Word) : Bool :=
  es.all fun e => ({ s with cur := core }).ownHeld (pStart e) (pLen e) == .go

/-- A frozen shadow buffer is discarded: what its events would have written keeps its value (R248). -/
def State.discardShadow (s : State) (core : Nat) : State :=
  match (s.core core).arr.shadow, (s.core core).arr.owner with
  | some sh, some o =>
      let frozen (f : FoldRec) : Bool := sh.events.any fun e => e.2 == .foldRetire core f.id
      let ts := drainTiles sh.events
      let s := s.modCore core fun c => { c with
        acc := (c.arr.folds.filter frozen).foldr (fun f m => f.old.foldl (fun m x => cset m x.1 x.2) m) c.acc
        arr := { c.arr with
          shadow := none, pending := [], drains := c.arr.drains.filter fun x => !ts.contains x.1
          folds := c.arr.folds.filter fun f => !frozen f } }
      s.modCtx core o fun c => ts.foldl (fun c t => c.unlock (.t t)) { c with replay := false }
  | _, _ => s

/-- The conditions under which a task that ends can end now (R370, R180, R248): its job control block can be written. -/
def State.canEnd (s : State) (core : Nat) (ix : Fin 4) (cause : Option (BitVec 8)) : Bool :=
  let c := s.ctx core ix
  s.quiet core ix && ((s.core core).arr.owner != some ix || !(s.core core).piped)
    && (cause.isSome || s.digestHeld core (c.dgst.getD [])) && (s.under c.vf c.old).blockMapped c.vf c.jcbp

/-- The end of a task (R370, R248): its hash, its phase, the array, its completion. -/
def State.endTask (s : State) (core : Nat) (ix : Fin 4) (cause : Option (BitVec 8)) : State :=
  let c := s.ctx core ix
  let s := match cause, c.dgst with
    | none, some es =>
        let h := sha3 (s.digestBytes core es)
        s.modJob c.vf fun j => { j with hashes := insertHash (hashKey c.spwn c.logical) h j.hashes }
    | _, _ => s
  let s := if (s.core core).arr.owner == some ix then s.modCore core fun k => { k with arr := k.arr.release s.cycle } else s
  let s := s.freeCtx core ix
  let ls := s.levels c.vf
  let s := match parentLevel ls with
    | some p => if c.spwn then s else s.memberEnds c.vf p (posAt ls c.logical p)
    | none => s
  s.withOld c.vf c.old fun s => s.postCompletion c.vf c.jcbp cause

/-- INSTANCE_COMPLETE: the instance counts as complete one level up (R52); its members' drains are done,
since each task ended with its operations retired. -/
def execInstanceComplete (vf level inst : Nat) (s : State) : Res :=
  match (s.vf vf).bind (·.job) with
  | some j =>
      if (j.ended.lookup (level, inst)) == (j.levels[level + 1]?).map (·.count) && decide (level + 1 < j.levels.length) then
        .next (if level = 0 then s
          else s.memberEnds vf (level - 1) (inst / (j.levels[level]?).elim 1 (·.count)))
      else .next s
  | none => .next s

/-! ### JCBADD and SPAWN -/

/-- JCBADD's traps at issue; while its block's page is not mapped it waits (log 14, DEDUCED). -/
def State.jcbaddOk (s : State) (j a : Fin 32) : Verdict :=
  (s.illModIf (bitsOf (s.rs a) 32 32 != 0 || (s.rs j).toNat % 64 != 0)).and
    ((s.leaseOk (s.rs j).toNat).and (waitIf !(s.blockMapped s.me.vf (s.rs j))))

/-- A request to the pantry of a JCB: the context issues nothing further until its reply (R373, R407). -/
def State.askRaise (s : State) (jcb amount : Word) (child : Option Word) : State :=
  ((s.modMe fun c =>
      { c with raise := some (jcb, amount, child), wait := .reply, checks := c.checks ++ [c.word] }).schedule
    (s.cycle + s.latency none) (.expectRaise s.cur s.cix)).dropDelay

/-- JCBADD (R373). -/
def execJcbadd (j a : Fin 32) (s : State) : Res :=
  s.guard (s.jcbaddOk j a) fun s => s.askRaise (s.rs j) (s.rs a) none

/-- A PINCORE that the function does not hold (R408). -/
def State.pinBad (s : State) (r : Word) : Bool :=
  let fl := leVal (((s.vread s.me.vf (r.toNat + 32) 4).getD []))
  !s.me.strict && fl.testBit 2 && (s.core (fl / 2 ^ 16 % 2 ^ 9)).vf != some s.me.vf

/-- SPAWN's traps at issue, and its drain at .row (R407, R408); while its record's page or its block's is not mapped it
waits (log 14, DEDUCED). -/
def State.spawnOk (s : State) (r : Fin 32) : Verdict :=
  let v := s.rs r
  (s.illModIf (v.toNat % 64 != 0)).and ((s.leaseOk v.toNat).and
    ((trapIf (!s.leasedW s.me.vf v.toNat) .leaseBreach (breachInfo 1 v.toNat)).and
      ((waitIf !(s.blockMapped s.me.vf v && s.blockMapped s.me.vf s.me.jcbp)).and
        ((s.illModIf (s.pinBad v)).and (waitIf !(s.outstanding .row).isEmpty)))))

/-- SPAWN (R407). -/
def execSpawn (r : Fin 32) (s : State) : Res :=
  s.guard (s.spawnOk r) fun s => s.askRaise s.me.jcbp 1 (some (s.rs r))

/-- Why a raise of EXPECT is late, if it is (R57): a SPAWN's can only be too great. -/
def State.lateRaise (s : State) (jcb amount : Word) (spawn : Bool) : Option Word :=
  let c := s.me
  if !spawn && (jcb != c.jcbp || s.jcbComplete c.vf jcb) then some 0
  else if 2 ^ 64 ≤ (s.vread64 c.vf jcb.toNat).toNat + amount.toNat then some 1
  else none

/-- The child's record: the fields that SPAWN writes (R408). -/
def State.childRecord (s : State) (recp : Word) : State :=
  let c := s.me
  let a := recp.toNat
  let fl := leVal ((s.vread c.vf (a + 32) 4).getD [])
  let fl := if c.strict then fl % 2 ^ 16 + fl / 2 ^ 25 * 2 ^ 25 + 2 ^ 16 * s.cur else fl
  let fl := (BitVec.ofNat 32 fl ||| 8 ||| (if c.strict then 4 else 0)).toNat
  let s := s.vput c.vf (a + 16) (leBytes 8 c.jcbp.toNat ++ leBytes 8 (c.launchp.toNat % 2 ^ 56 / 256 * 256 + c.level % 8)
    ++ leBytes 4 fl)
  s.vput c.vf (a + 48) (leBytes 8 0 ++ leBytes 8 c.recp.toNat)

/-- The child's record enters the pass. -/
def State.placeChild (s : State) (recp : Word) : State :=
  let c := s.me
  let s := s.childRecord recp
  let fl := leVal ((s.vread c.vf (recp.toNat + 32) 4).getD [])
  let n := ((s.vf c.vf).bind (·.job)).elim 0 fun j => j.spawned
  let s := s.modJob c.vf fun j => { j with spawned := j.spawned + 1 }
  s.enqueue s.cur
    { recp, vf := c.vf, logical := n, spwn := true, cls := fl % 4
      pin := if fl.testBit 2 then some (fl / 2 ^ 16 % 2 ^ 9) else none, since := s.cycle }

/-- The pantry's raise, which has passed its checks: EXPECT, and for SPAWN the child's record. -/
def State.raiseExpect (s : State) (jcb amount : Word) (child : Option Word) : State :=
  let v := s.vread64 s.me.vf jcb.toNat + amount
  let s := s.vput s.me.vf jcb.toNat (leBytes 8 v.toNat)
  match child with
  | some r => s.placeChild r
  | none => s

/-- EXPECT_RAISE: the pantry's checks and its raise in one step (R57, R373, R407), under the translations of the
word's issue (R159). -/
def execExpectRaise (core : Nat) (ix : Fin 4) (s : State) : Res :=
  match (s.ctx core ix).raise with
  | some (jcb, amount, child) =>
      let old := (s.ctx core ix).old
      let s := State.modMe { s with cur := core, cix := ix } fun c => { c with raise := none, old := [] }
      match (s.under s.me.vf old).lateRaise jcb amount child.isSome with
      | some info => .next (s.checkDone 6 (some (.jcbLate, info)))
      | none =>
          let s := (s.withOld s.me.vf old fun s => s.raiseExpect jcb amount child).modMe fun c => { c with sure := true }
          .next (s.checkDone 6 none)
  | none => .next s

/-! ### Events without an operation of their own -/

/-- AGING_PROMOTION: a context that has not issued for 4,096 cycles issues next at class 3 (R61). -/
def execAgingPromotion (core : Nat) (ix : Fin 4) (s : State) : Res :=
  let c := s.ctx core ix
  if c.task && !c.aged && decide (c.lastIssue + 4096 ≤ s.cycle) then
    .next (s.modCtx core ix fun c => { c with aged := true })
  else .next s

end Sys2Proof.Machine
end

