-- ==== Sys2Proof/Machine/Collect.lean ====
section
/-! DEFINITION. Posted collectives (R193, R235 to R240): CPOST, CWAIT, and the events of the coordinator,
the head and the member hub. -/

namespace Sys2Proof.Machine

/-! ### Descriptors (R235) -/

def colType (d : Block64) : Nat := blk d 0 8
def colOp (d : Block64) : Nat := blk d 8 8
def colFmt (d : Block64) : Nat := blk d 16 8
/-- UNT: the collective takes no start ticket. -/
def colUnt (d : Block64) : Bool := d.getLsbD 24
def colGseq (d : Block64) : BitVec 32 := d.extractLsb' 32 32
def colGroup (d : Block64) : BitVec 32 := d.extractLsb' 64 32
def colM (d : Block64) : Nat := blk d 96 32
def colMlist (d : Block64) : Nat := blk d 128 64
def colCount (d : Block64) : Nat := blk d 192 64
def colSrc (d : Block64) : Nat := blk d 256 64
def colDst (d : Block64) : Nat := blk d 320 64
def colRoot (d : Block64) : Nat := blk d 384 32

/-- The fields in which all posts of a collective agree: all but SRC, DST and CSTAT. -/
def colShared (d : Block64) : List Nat :=
  [colType d, colOp d, colFmt d, blk d 24 8, colM d, colCount d, colRoot d]

/-- Error 3 of R238: a reserved field set, or a field out of range. -/
def colFieldsBad (d : Block64) : Bool :=
  let ty := colType d
  let fm := colFmt d
  decide (4 < ty) || decide (fm < 6) || decide (12 < fm)
    || (if ty < 2 then decide (5 < colOp d) || (decide (3 ≤ colOp d) && fmtFloat fm) else colOp d != 0)
    || decide (2 ≤ blk d 24 8) || colM d == 0 || decide (131072 < colM d) || colCount d == 0
    || decide (2 ^ 32 < colCount d)
    || (if ty = 3 then decide (colM d ≤ colRoot d) else colRoot d != 0) || blk d 416 32 != 0

/-- Bytes of an element. -/
def colSize (d : Block64) : Nat := (fmtSize (colFmt d)).getD 1

/-- Elements of a member's source and destination (R236). -/
def colSrcN (d : Block64) : Nat :=
  if colType d = 1 ∨ colType d = 4 then colM d * colCount d else colCount d
def colDstN (d : Block64) : Nat :=
  if colType d = 2 ∨ colType d = 4 then colM d * colCount d else colCount d

/-- Package numbers in a member list. -/
def membersOf (b : List Byte) (n : Nat) : List Nat :=
  (List.range n).map fun k => leVal ((b.drop (4 * k)).take 4)

def ascending : List Nat → Bool
  | a :: b :: t => decide (a < b) && ascending (b :: t)
  | _ => true

/-- The error of a post at its own package (R238), and its member list. -/
def State.colErr (s : State) (vf : Nat) (d : Block64) : Nat × List Nat :=
  if colFieldsBad d then (3, [])
  else match s.vread vf (colMlist d) (4 * colM d) with
    | none => (4, [])
    | some b =>
        let ms := membersOf b (colM d)
        if !ascending ms || !ms.contains s.pkg.toNat then (2, ms)
        else if (s.vplaces vf (colSrc d) (colSrcN d * colSize d)).isNone
            || (s.vplaces vf (colDst d) (colDstN d * colSize d)).isNone then (4, ms)
        else (0, ms)

/-! ### CPOST (R237, R238, R240) -/

def State.cpostOff (s : State) (h : Fin 16) (x : Fin 32) (imm : BitVec 14) : Nat :=
  s.pageOff h x (imm.toNat * 64) 64

/-- The descriptor that a CPOST reads. -/
def State.cpostDesc (s : State) (h : Fin 16) (x : Fin 32) (imm : BitVec 14) : Block64 :=
  ofLe 512 (s.memBytes (Handle.place (s.hreg h) (s.cpostOff h x imm)) 64)

/-- Its handle, and its drain at .pkg. -/
def State.cpostOk (s : State) (h : Fin 16) (x : Fin 32) (imm : BitVec 14) : Verdict :=
  (s.handleOk h (s.cpostOff h x imm) false).and (waitIf !(s.outstanding .pkg).isEmpty)

/-- The lowest free entry of the table of 256. -/
def State.freeSlot (s : State) : Option Nat := (List.range 256).find? fun k => (aget s.colTab k).isNone

/-- A posting tag (R238). -/
def postTag (slot : Nat) (serial : BitVec 32) : Word := BitVec.ofNat 64 (slot * 2 ^ 32 + serial.toNat)

/-- The coordinator: the member of rank GROUP mod M. -/
def coordOf (d : Block64) (ms : List Nat) : Nat := ms.getD ((colGroup d).toNat % ms.length) 0

def State.modSlot (s : State) (n : Nat) (f : CSlot → CSlot) : State :=
  match aget s.colTab n with
  | some e => { s with colTab := aset s.colTab n (f e) }
  | none => s

/-- An entry is made. One that is in error completes by itself; another goes to its coordinator. -/
def State.makePost (s : State) (n : Nat) (d : Block64) (at_ : Nat) : State :=
  let (err, ms) := s.colErr s.me.vf d
  let e : CSlot := { serial := s.colSerial, vf := s.me.vf, desc := d, descAt := at_, members := ms
                     stage := if err = 0 then .posted else .started, rank := none, err, orphan := false }
  let s := { s with colTab := aset s.colTab n e, colSerial := s.colSerial + 1 }
  let due := s.cycle + s.latency none
  let s := s.dropDelay
  if err ≠ 0 then s.schedule due (.collectiveComplete n [])
  else if coordOf d ms = s.pkg.toNat then s.schedule due (.collectivePostReceive ⟨s.pkg.toNat, d, ms⟩)
  else s

/-- A descriptor that has been read is posted: sD takes the posting tag, or the refusal of a full table. -/
def State.post (s : State) (d : Fin 32) (desc : Block64) (at_ lat : Nat) : State :=
  match s.freeSlot with
  | none => s.putS d 0x8000000000000000 lat
  | some n => (s.putS d (postTag n s.colSerial) lat).makePost n desc at_

/-- CPOST. In strict mode its context waits until the descriptor has been read and checked (R240, R245). -/
def execCpost (d : Fin 32) (h : Fin 16) (x : Fin 32) (imm : BitVec 14) (s : State) : Res :=
  s.guard (s.cpostOk h x imm) fun s =>
    let a := Handle.place (s.hreg h) (s.cpostOff h x imm)
    if s.me.strict then
      ((s.issueOp none kLd [] [] (.post d (memPlaces a 64) a) (s.cycle + s.latency (lcBound (Handle.lc (s.hreg h))))
        (.loadWriteback s.cur)).dropDelay).modMe fun c => { c with wait := .reply, checks := c.checks ++ [c.word] }
    else s.dropDelay.post d (s.cpostDesc h x imm) a (s.latency none)

/-- CPOST's descriptor is there (R240, R245). PHASE_ESCAPE of a collective in strict mode, which no engine of R176 makes,
holds 0 in ENG, DIR and STRIP (R179; log 110, DESIGN CHOICE). -/
def State.landPost (s : State) (core : Nat) (op : Op) (d : Fin 32) (src : List Src) (at_ : Nat) : State :=
  let b : Block64 := ofLe 512 (src.map s.getSrc)
  let s := { s.retireOp core op with cur := core, cix := op.ctx }
  if colUnt b then s.checkDone 6 (some (.phaseEscape, escapeInfo 4 0 false 0 0 0))
  else ((s.post d b at_ 1).modMe fun c => { c with sure := true }).checkDone 6 none

/-! ### CWAIT (R240) -/

/-- The entry that a CWAIT's tag names. -/
def State.cwaitSlot (s : State) (t : Fin 32) : Option CSlot :=
  if (s.rs t).toNat < 2 ^ 40 then s.tagged (s.rs t).toNat else none

def State.cwaitOk (s : State) (t : Fin 32) : Verdict :=
  match s.cwaitSlot t with
  | none => s.illMod
  | some e => waitIf (e.stage != .done)

/-- CWAIT: the rank of the start ticket, or 2^64 − 1 for UNT or an error; the entry is freed. -/
def execCwait (d t : Fin 32) (s : State) : Res :=
  s.guard (s.cwaitOk t) fun s =>
    match s.cwaitSlot t with
    | none => s
    | some e =>
        let v : Word := match e.rank with
          | some r => if e.err = 0 then BitVec.ofNat 64 r else BitVec.allOnes 64
          | none => BitVec.allOnes 64
        { (s.putS d v) with colTab := adel s.colTab ((s.rs t).toNat / 2 ^ 32) }

/-! ### The coordinator (R237 steps 3 to 5) -/

def Coord.isFor (c : Coord) (group gseq : BitVec 32) : Bool := c.group == group && c.gseq == gseq

/-- Members of the collective that a coordinator holds. -/
def Coord.members (c : Coord) : List Nat := (c.posts.head?).elim [] (·.members)

/-- All posts are in. -/
def Coord.full (c : Coord) : Bool :=
  match c.posts with
  | [] => false
  | p :: _ => decide (p.members.length ≤ c.posts.length)

/-- The posts agree (R235). -/
def Coord.agree (c : Coord) : Bool :=
  match c.posts with
  | [] => true
  | p :: t => t.all fun q => colShared q.desc == colShared p.desc && q.members == p.members

/-- The first element that passes a test, changed. -/
def modFirst {α : Type} (p : α → Bool) (f : α → α) : List α → List α
  | [] => []
  | a :: t => if p a then f a :: t else a :: modFirst p f t

/-- A collective of a post's pair still lacks one from its package. -/
def Coord.lacks (c : Coord) (p : Post) : Bool :=
  c.isFor (colGroup p.desc) (colGseq p.desc) && !c.full && c.posts.all fun q => q.pkg != p.pkg

/-- The post joins the first collective of its pair that lacks it, or begins another. -/
def joinPost (p : Post) (cs : List Coord) : Coord × List Coord :=
  match cs.find? fun c => c.lacks p with
  | some c =>
      let c' := { c with posts := c.posts ++ [p] }
      (c', modFirst (fun c => c.lacks p) (fun _ => c') cs)
  | none =>
      let c' : Coord := { group := colGroup p.desc, gseq := colGseq p.desc, posts := [p], grants := [] }
      (c', cs ++ [c'])

/-- The own entry of a pair that waits in a stage. -/
def State.ownSlot (s : State) (group gseq : BitVec 32) (st : CStage) : Option Nat :=
  (s.colTab.find? fun x => colGroup x.2.desc == group && colGseq x.2.desc == gseq && x.2.stage == st).map (·.1)

/-- Reservations are asked for; the own hub grants its own. Where posts differ every member takes error
1 instead, and the coordinator has done. -/
def State.allPosted (s : State) (c : Coord) : State :=
  let due := s.cycle + s.latency none
  let s := s.dropDelay
  if c.agree then
    match c.members.idxOf? s.pkg.toNat with
    | some r => s.schedule due (.reservationGrant c.group c.gseq r)
    | none => s
  else
    let s := { s with coords := dropFirst c s.coords }
    match s.ownSlot c.group c.gseq .posted with
    | some n => (s.modSlot n fun e => { e with err := 1, stage := .started }).schedule due (.collectiveComplete n [])
    | none => s

/-- COLLECTIVE_POST_RECEIVE (R237 steps 2 and 3), at the group's coordinator. -/
def execCollectivePostReceive (p : Post) (s : State) : Res :=
  if p.members.isEmpty || coordOf p.desc p.members != s.pkg.toNat || !p.members.contains p.pkg then
    .next s
  else
    let (c, cs) := joinPost p s.coords
    let s := { s with coords := cs }
    .next (if c.full then s.allPosted c else s)

/-- This package is the head of a function's partition: its lowest-numbered package. -/
def State.headsFor (s : State) (vf : Nat) : Bool :=
  match s.vf vf with
  | some v => v.pkgs.head? == some s.pkg.toNat
  | none => false

/-- This package heads some partition. -/
def State.isHead (s : State) : Bool := s.vfs.any fun v => s.headsFor v.1

/-- Every grant is in: the head is asked for a rank, or an unticketed collective starts. -/
def State.allGranted (s : State) (c : Coord) : State :=
  let due := s.cycle + s.latency none
  let s := { s.dropDelay with coords := dropFirst c s.coords }
  if (c.posts.head?).elim false fun p => colUnt p.desc then
    match s.ownSlot c.group c.gseq .posted with
    | some n => (s.modSlot n fun e => { e with stage := .ticketed }).schedule due (.collectiveStart n)
    | none => s
  else
    let vf := ((s.ownSlot c.group c.gseq .posted).bind (aget s.colTab)).map (·.vf)
    if vf.any s.headsFor then s.schedule due (.rankRequest c.group c.gseq) else s

/-- RESERVATION_GRANT (R237 step 4). -/
def execReservationGrant (group gseq : BitVec 32) (rank : Nat) (s : State) : Res :=
  let waits (c : Coord) : Bool :=
    c.isFor group gseq && c.full && c.agree && decide (rank < c.members.length) && !c.grants.contains rank
  match s.coords.find? waits with
  | none => .next s
  | some c =>
      let c' := { c with grants := c.grants ++ [rank] }
      let s := { s with coords := modFirst waits (fun _ => c') s.coords }
      .next (if c'.grants.length = c'.members.length then s.allGranted c' else s)

/-- RANK_REQUEST, at the head: a rank from one 64-bit count, and the start ticket goes down the spike,
whose links are first in, first out (R237 steps 4 and 5). -/
def execRankRequest (group gseq : BitVec 32) (s : State) : Res :=
  if s.isHead then
    .next ({ s with headRank := (s.headRank + 1) % 2 ^ 64 }.schedule (s.cycle + max 1 Config.spikeDelay)
      (.startTicket group gseq s.headRank))
  else .next s

/-! ### The member hub (R237 step 6, R236, R239) -/

/-- START_TICKET: a ticket for a collective that does not name this package is passed over. -/
def execStartTicket (group gseq : BitVec 32) (rank : Nat) (s : State) : Res :=
  match s.ownSlot group gseq .posted with
  | some n =>
      .next ((s.modSlot n fun e => { e with stage := .ticketed, rank := some rank }).schedule (s.cycle + 1)
        (.collectiveStart n))
  | none => .next s

/-- A ticketed collective of the same partition with a lower rank has not started. -/
def State.rankBefore (s : State) (e : CSlot) : Bool :=
  s.colTab.any fun x => x.2.stage == .ticketed && !colUnt x.2.desc && (s.vf x.2.vf).map (·.part) == (s.vf e.vf).map (·.part)
    && decide (x.2.rank.getD 0 < e.rank.getD 0)

/-- COLLECTIVE_START (R237 step 6). One that names this package alone completes by itself; the values of
other members reach the package with COLLECTIVE_COMPLETE. -/
def execCollectiveStart (n : Nat) (s : State) : Res :=
  match aget s.colTab n with
  | none => .next s
  | some e =>
      let go (s : State) : State :=
        let s := s.modSlot n fun e => { e with stage := .started }
        if e.members.length = 1 then
          (s.schedule (s.cycle + s.latency none) (.collectiveComplete n [])).dropDelay
        else s
      match e.stage with
      | .ticketed => .next (if !colUnt e.desc && s.rankBefore e then s.schedule (s.cycle + 1) (.collectiveStart n) else go s)
      | .posted => if colUnt e.desc then .next (go s) else .next s
      | _ => .next s

/-- An operation on two elements (R239): RNE with FTZ and DAZ off; integer sums wrap. -/
def colStep (fm op : Nat) (a b : Nat) : Nat × Flags :=
  let f := mfmtOfCode fm
  match mfmtFloat f with
  | some g =>
      let env : Env := ⟨.rne, false, false⟩
      if op = 0 then fpAdd g env a b else fpMinMax g env (op == 2) a b
  | none =>
      let w := elemBits f
      let x := codeInt w true a
      let y := codeInt w true b
      (match op with
        | 0 => (a + b) % 2 ^ w
        | 1 => if x ≤ y then a else b
        | 2 => if x ≤ y then b else a
        | 3 => a &&& b
        | 4 => a ||| b
        | _ => a ^^^ b, 0)

/-- red (R239), over the values of the ranks in order; n bounds the depth. -/
def redTree (f : Nat → Nat → Nat × Flags) : Nat → List Nat → Nat × Flags
  | 0, l => (l.headD 0, 0)
  | n + 1, l =>
      if l.length ≤ 1 then (l.headD 0, 0)
      else
        let w := 2 ^ Nat.log2 (l.length - 1)
        let (x, fx) := redTree f n (l.take w)
        let (y, fy) := redTree f n (l.drop w)
        let (z, fz) := f x y
        (z, fx ||| fy ||| fz)

/-- Elements of a block of bytes. -/
def elemsOf (z : Nat) (b : List Byte) : List Nat :=
  (List.range (b.length / z)).map fun i => leVal ((b.drop (i * z)).take z)

/-- What a collective writes at the member of a rank, from the sources of all ranks in order, and the
flags of every reduction step at any member (R236, R239). -/
def colResult (d : Block64) (r : Nat) (srcs : List (List Nat)) : List Nat × Flags :=
  let n := colCount d
  let red (i : Nat) : Nat × Flags :=
    redTree (colStep (colFmt d) (colOp d)) srcs.length (srcs.map fun l => l.getD i 0)
  let all (k : Nat) : List (Nat × Flags) := (List.range k).map red
  let fl (l : List (Nat × Flags)) : Flags := l.foldl (fun v x => v ||| x.2) 0
  match colType d with
  | 0 => ((all n).map (·.1), fl (all n))
  | 1 =>
      let l := all (colM d * n)
      (((l.drop (r * n)).take n).map (·.1), fl l)
  | 2 => (srcs.flatMap fun l => l.take n, 0)
  | 3 => ((srcs.getD (colRoot d) []).take n, 0)
  | _ => (srcs.flatMap fun l => (l.drop (r * n)).take n, 0)

/-- CSTAT of a completed collective (R235, R238). -/
def cstat (err : Nat) (fl : Flags) : Word :=
  if err = 0 then BitVec.ofNat 64 (1 + fl.toNat * 2 ^ 8) else BitVec.ofNat 64 (3 + err * 2 ^ 16)

/-- CSTAT written, and the entry done or, where no task will wait on it, freed (R370). -/
def State.colDone (s : State) (n : Nat) (e : CSlot) (err : Nat) (fl : Flags) : State :=
  let s := s.putMem64 (e.descAt + 56) (cstat err fl)
  if e.orphan then { s with colTab := adel s.colTab n }
  else s.modSlot n fun e => { e with stage := .done, err }

/-- The sources of all ranks, where others' have the right length. -/
def colSources (e : CSlot) (own : List Byte) (pkg : Nat) (others : List (Nat × List Byte)) :
    Option (List (List Byte)) :=
  let l := e.members.zipIdx.map fun (p, r) => if p = pkg then own else (others.lookup r).getD []
  if l.all fun b => b.length == own.length then some l else none

/-- The writes and the completion of a started collective. A page that is no longer valid makes it an
error of code 4. -/
def State.colFinish (s : State) (n : Nat) (e : CSlot) (srcs : List (List Byte)) : State :=
  let z := colSize e.desc
  let r := (e.members.idxOf? s.pkg.toNat).getD 0
  let (out, fl) := colResult e.desc r (srcs.map (elemsOf z))
  match s.vwrite e.vf (colDst e.desc) (out.flatMap (leBytes z)) with
  | some s' => s'.colDone n e 0 fl
  | none => s.colDone n e 4 0

/-- COLLECTIVE_COMPLETE (R240): every write performs and CSTAT is written. The values of the other ranks
come with the event. A collective that another package coordinates and whose posts differ completes with
no values, with error 1. -/
def execCollectiveComplete (n : Nat) (others : List (Nat × List Byte)) (s : State) : Res :=
  match aget s.colTab n with
  | none => .next s
  | some e =>
      match e.stage with
      | .started =>
          if e.err ≠ 0 then .next (s.colDone n e e.err 0)
          else match s.vread e.vf (colSrc e.desc) (colSrcN e.desc * colSize e.desc) with
            | none => .next (s.colDone n e 4 0)
            | some own => match colSources e own s.pkg.toNat others with
              | some srcs => .next (s.colFinish n e srcs)
              | none => .next s
      | .posted =>
          if others.isEmpty && coordOf e.desc e.members != s.pkg.toNat then .next (s.colDone n e 1 0)
          else .next s
      | _ => .next s

end Sys2Proof.Machine
end

