-- ==== Sys2Proof/Machine/Host.lean ====
section
/-! DEFINITION. What the host reaches: the command window and the journal (R261 to R264, R401), launches
(R47 to R55, R157), the RMA regions and sends (R259, R260), attestation (R267), the creation of functions
(R50, R265), and the completion of jobs (R58). -/

namespace Sys2Proof.Machine

/-! ### The journal (R263) -/

/-- The digest of the newest entry; 32 zero bytes before the first. -/
def Vf.lastDigest (v : Vf) : List Byte :=
  match v.journal with
  | [] => List.replicate 32 0
  | e :: _ => (toLe e).drop 32

/-- An entry is appended: the newest replaces the oldest of 4,096. -/
def Vf.record (v : Vf) (kind off result : Nat) (value : Word) (cyc : Nat) : Vf :=
  let seq := v.jseq + 1
  let b := leBytes 8 seq.toNat ++ leBytes 1 kind ++ leBytes 2 off ++ leBytes 1 result ++ leBytes 4 0
    ++ leBytes 8 value.toNat ++ leBytes 8 cyc
  { v with jseq := seq, journal := (ofLe 512 (b ++ sha3Bytes (v.lastDigest ++ b)) :: v.journal).take 4096 }

def State.record (s : State) (vf kind off result : Nat) (value : Word) : State :=
  s.modVf vf fun v => v.record kind off result value s.cycle

/-- An answer to the host. -/
def State.reply (s : State) (r : HostReply) : State := { s with hostReplies := s.hostReplies ++ [r] }

/-! ### The command window (R261) -/

/-- Registers by their offset. -/
inductive WinReg where
  | start | veraddr | ptroot | homet | preempt | attaddr | nonce (k : Fin 4)
  deriving DecidableEq, Repr

/-- The writable register of an 8-byte word. -/
def windowReg (off : Nat) : Option WinReg :=
  match off with
  | 0x000 => some .start
  | 0x018 => some .veraddr
  | 0x020 => some .ptroot
  | 0x028 => some .homet
  | 0x030 => some .preempt
  | 0x048 => some .attaddr
  | 0x050 => some (.nonce 0)
  | 0x058 => some (.nonce 1)
  | 0x060 => some (.nonce 2)
  | 0x068 => some (.nonce 3)
  | _ => none

/-- Words that a write at an offset covers lie in one register. -/
def winSpan (off n : Nat) : Bool :=
  decide (0 < n) && (n == 1 || (decide (0x050 ≤ off) && decide (off + 8 * n ≤ 0x070)))

/-- A value that the register refuses, given whether a job runs. -/
def winBad (r : WinReg) (v : Word) (runs : Bool) : Bool :=
  match r with
  | .preempt => decide (255 < v.toNat)
  | .veraddr => runs || v.toNat % 8 != 0
  | .ptroot => runs || v.toNat % 4096 != 0
  | .homet => runs
  | _ => false

/-- The words that a write covers; none where it covers parts of words. -/
def wordsOf (b : List Byte) : Option (List Word) :=
  if b.length % 8 = 0 then some ((List.range (b.length / 8)).map fun k => ofLe 64 ((b.drop (8 * k)).take 8)) else none

/-- The registers that words at an offset name. -/
def winRegs (off n : Nat) : List (Option WinReg) := (List.range n).map fun k => windowReg (off + 8 * k)

/-- A write that the window takes, given whether a job runs. -/
def winOk (off : Nat) (vals : List Word) (runs : Bool) : Bool :=
  off % 8 == 0 && winSpan off vals.length
    && ((winRegs off vals.length).zip vals).all fun x => x.1.any fun r => !winBad r x.2 runs

/-- A task of a function holds a context. -/
def State.taskOf (s : State) (vf : Nat) : Bool :=
  s.cores.any fun k => k.2.ctxs.toList.any fun c => c.task && c.vf == vf

/-- What a read of a window word gives: write-only registers and reserved offsets read zero. -/
def State.windowRead (s : State) (vf off : Nat) : Word :=
  match s.vf vf with
  | none => 0
  | some v => match off with
    | 0x008 => v.lstat.setWidth 64
    | 0x010 => v.jdone
    | 0x018 => v.veraddr
    | 0x020 => v.ptroot
    | 0x028 => v.homet
    | 0x030 => if v.preempt && s.taskOf vf then 1 else 0
    | 0x038 => v.rstcnt.setWidth 64
    | 0x040 => v.jseq
    | 0x048 => v.attaddr
    | _ => 0

/-- Contexts of a function's tasks, changed. -/
def State.mapTasks (s : State) (vf : Nat) (f : Ctx → Ctx) : State :=
  { s with cores := s.cores.map fun (k, c) =>
      (k, { c with ctxs := c.ctxs.map fun x => if x.task && x.vf == vf then f x else x }) }

/-- A pre-emption request reaches a context (R65); a safe point that has executed does not serve it. -/
def Ctx.request (c : Ctx) : Ctx := { c with preq := true, safeDue := if c.preq then c.safeDue else false }

/-- It is withdrawn: a context parked in place issues again (R255, R262). -/
def Ctx.unrequest (c : Ctx) : Ctx := { c with preq := false, frozen := false }

/-- START: its checks begin (R54). -/
def State.doStart (s : State) (vf : Nat) (val : Word) : State :=
  (s.modVf vf fun x => { x with start := val, lstat := 0xFF }).schedule
    (s.cycle + max 1 (Config.launchDelay s.cycle)) (.launchChecksEnd vf)

/-- VERADDR: the counter restarts at 0 (R401). -/
def State.doVeraddr (s : State) (vf : Nat) (val : Word) : State :=
  s.modVf vf fun x => { x with veraddr := val, version := 0 }

/-- PREEMPT: 1 puts a request in force, 0 withdraws it (R262); other values say nothing (log 25, DEDUCED). -/
def State.doPreempt (s : State) (vf : Nat) (val : Word) : State :=
  if val = 1 then (s.modVf vf fun x => { x with preempt := true }).mapTasks vf Ctx.request
  else if val = 0 then (s.modVf vf fun x => { x with preempt := false }).mapTasks vf Ctx.unrequest
  else s

/-- The nonce with one of its words replaced. -/
def putNonce (n : BitVec 256) (k : Fin 4) (v : Word) : BitVec 256 :=
  let m : BitVec 256 := (BitVec.allOnes 64).setWidth 256 <<< (64 * k.val)
  (n &&& ~~~m) ||| (v.setWidth 256 <<< (64 * k.val))

/-- An attestation report (R267). -/
def State.reportBytes (s : State) (v : Vf) : List Byte :=
  let b := toLe v.attnonce ++ toLe Config.firmwareHash ++ toLe (Config.harvestHash s.disabled s.harvested)
    ++ v.lastDigest ++ leBytes 8 v.jseq.toNat ++ List.replicate 24 0
  let sig := Config.signature (sha3 b)
  b ++ (sig ++ List.replicate 2420 0).take 2420

/-- The report is written to ATTADDR. -/
def State.report (s : State) (vf : Nat) : State :=
  match s.vf vf with
  | some v => { s with hostMem := csetN s.hostMem v.attaddr.toNat (s.reportBytes v) }
  | none => s

/-- One word of an accepted write takes effect. -/
def State.winWord (s : State) (vf : Nat) (r : WinReg) (val : Word) : State :=
  match r with
  | .start => s.doStart vf val
  | .veraddr => s.doVeraddr vf val
  | .ptroot => s.modVf vf fun x => { x with ptroot := val }
  | .homet => s.modVf vf fun x => { x with homet := val }
  | .preempt => s.doPreempt vf val
  | .attaddr => s.modVf vf fun x => { x with attaddr := val }
  | .nonce k =>
      let s := s.modVf vf fun x => { x with attnonce := putNonce x.attnonce k val }
      if k = 3 then s.report vf else s

/-- An accepted write is journalled and then takes effect; START's own entry is of kind 1 and comes when its checks
end (R263). -/
def State.accept (s : State) (vf off : Nat) (vals : List Word) : State :=
  let s := if off = 0 then s else s.record vf 0 off 0 (vals.headD 0)
  (((winRegs off vals.length).zip vals).foldl (fun s x => match x.1 with
    | some r => s.winWord vf r x.2
    | none => s) s).reply .done

/-- A write of whole words: refused without effect or journal entry, or accepted. One that arrives while the checks of
a START run waits behind it, since commands take effect in order of arrival (R261, R263; log 103, DEDUCED). -/
def State.command (s : State) (vf off : Nat) (vals : List Word) : State :=
  match s.vf vf with
  | none => s
  | some v =>
      if v.lstat = 0xFF then
        if winOk off vals false then s.modVf vf fun x => { x with waiting := x.waiting ++ [(off, vals)] }
        else s.reply .refused
      else if winOk off vals v.job.isSome then s.accept vf off vals
      else s.reply .refused

/-- A write that has waited: a START that came while checks ran is journalled as busy and does nothing else (R263). -/
def State.late (s : State) (vf : Nat) (x : Nat × List Word) : State :=
  if x.1 = 0 then (s.record vf 1 0 1 (x.2.headD 0)).reply .done else s.command vf x.1 x.2

/-- The writes that have waited for the checks of a START take effect, in order. -/
def State.flush (s : State) (vf : Nat) : State :=
  match s.vf vf with
  | none => s
  | some v => v.waiting.foldl (fun s x => s.late vf x) (s.modVf vf fun x => { x with waiting := [] })

/-- A function that the host reaches: the service function has no endpoint and no window (R266), and the ports of a
package whose boot has failed stay down (R267). -/
def State.reached (s : State) (vf : Nat) : Option Vf := if s.up && vf != 64 then s.vf vf else none

/-- A write that reaches a function's window, in ROD or in another delivery mode, which is refused (R259, R261). -/
def State.windowWrite (s : State) (vf off : Nat) (bytes : List Byte) (rod : Bool) : State :=
  match s.reached vf, wordsOf bytes with
  | none, _ => s
  | some _, some vals => if rod then s.command vf off vals else s.reply .refused
  | some _, none => s.reply .refused

/-- START. -/
def execStart (vf : Nat) (val : Word) (s : State) : Res :=
  .next (s.windowWrite vf 0x000 (leBytes 8 val.toNat) true)

/-- VERADDR. -/
def execVeraddr (vf : Nat) (val : Word) (s : State) : Res :=
  .next (s.windowWrite vf 0x018 (leBytes 8 val.toNat) true)

/-- PREEMPT_REQUEST. -/
def execPreemptRequest (vf : Nat) (s : State) : Res := .next (s.windowWrite vf 0x030 (leBytes 8 1) true)

/-- PREEMPT_WITHDRAW. -/
def execPreemptWithdraw (vf : Nat) (s : State) : Res := .next (s.windowWrite vf 0x030 (leBytes 8 0) true)

/-- ATTESTATION_REPORT: the write of the nonce's last word. -/
def execAttestationReport (vf : Nat) (val : Word) (s : State) : Res :=
  .next (s.windowWrite vf 0x068 (leBytes 8 val.toNat) true)

/-- COMMAND_WINDOW_WRITE. -/
def execCommandWindowWrite (vf off : Nat) (w : WinWrite) (s : State) : Res :=
  .next (s.windowWrite vf off w.bytes w.rod)

/-! ### RMA regions and sends (R259, R260) -/

/-- The bytes of the journal ring: the entry of SEQ stands in place (SEQ − 1) mod 4,096. -/
def Vf.ringByte (v : Vf) (a : Nat) : Byte :=
  let seq := v.jseq.toNat
  let k := (seq + 4096 - 1 - a / 64) % 4096
  match v.journal[k]? with
  | some e => (toLe e).getD (a % 64) 0
  | none => 0

/-- Places of a function's virtual memory as the host reaches it, through the tables; leases are not needed (R260). -/
def State.hostPlaces (s : State) (vf va n : Nat) : Option (List Nat) := placesBy (s.walk vf) s.pkg.toNat va n

/-- What a read of a region gives; none is a refusal. Region 3 stands for the command window, whose reads are no
commands (R261; log 99, DESIGN CHOICE). -/
def State.rmaBytes (s : State) (vf : Nat) (v : Vf) (region addr len : Nat) : Option (List Byte) :=
  match region with
  | 0 => (s.hostPlaces vf addr len).map fun ps => ps.map fun p => cget s.mem p
  | 3 => if addr + len ≤ 4096 then
      some ((List.range len).map fun k => (leBytes 8 (s.windowRead vf (alignDown (addr + k) 8)).toNat).getD ((addr + k) % 8) 0)
      else none
  | 1 => if inAllot v.allot addr len then some (s.memBytes addr len) else none
  | 2 => if addr + len ≤ 2 ^ 18 then some ((List.range len).map fun k => v.ringByte (addr + k)) else none
  | _ => none

/-- RMA_READ. -/
def execRmaRead (vf region addr len : Nat) (s : State) : Res :=
  .next (match s.reached vf with
    | some v => s.reply (match s.rmaBytes vf v region addr len with
      | some b => .bytes b
      | none => .refused)
    | none => s)

/-- RMA_WRITE: no region 2. -/
def execRmaWrite (vf region addr : Nat) (bytes : List Byte) (s : State) : Res :=
  .next (match s.reached vf with
    | some v => match region with
      | 0 => match s.hostPlaces vf addr bytes.length with
        | some ps => (s.putPlaces ps bytes).reply .done
        | none => s.reply .refused
      | 1 => if inAllot v.allot addr bytes.length then (s.putMem addr bytes).reply .done else s.reply .refused
      | _ => s.reply .refused
    | none => s)

/-- SEND: a message at one of the sixteen ports; the manual gives it no effect on what it describes. -/
def execSend (_port : Nat) (_bytes : List Byte) (s : State) : Res := .next s

/-! ### Launch records (R47 to R49) -/

/-- A launch record as read. -/
structure LRec where
  at_ : Nat
  recver : Nat
  nbv : Nat
  levels : Nat
  lflags : Nat
  jcb : Word
  leasep : Nat
  leasen : Nat
  liven : Nat
  livep : Word
  imgbase : Word
  safeb0 : BitVec 32
  spare : Word
  descs : List Word
  deriving DecidableEq, Repr

def lrecOf (a : Nat) (b : List Byte) : LRec :=
  let n (o k : Nat) : Nat := leVal ((b.drop o).take k)
  { at_ := a, recver := n 0 4, nbv := n 4 2, levels := n 6 1, lflags := n 7 1, jcb := field64 b 8
    leasep := n 16 8, leasen := n 24 4, liven := n 28 4, livep := field64 b 32, imgbase := field64 b 40
    safeb0 := field32 b 48, spare := field64 b 56
    descs := (List.range 8).map fun k => field64 b (64 + 8 * k) }

def State.lrecAt (s : State) (vf a : Nat) : Option LRec := (s.vread vf a 256).map (lrecOf a)

/-- Lease entries with their reserved fields, 32 bytes each. -/
def leaseOf (b : List Byte) : Lease × Bool :=
  let st := leVal (b.take 8)
  let ln := leVal ((b.drop 8).take 8)
  let fl := leVal ((b.drop 16).take 4)
  (⟨st, ln, fl.testBit 0, fl.testBit 1⟩,
    decide (fl < 4) && (b.drop 20).all (· == 0) && st % 4096 == 0 && ln % 4096 == 0 && ln != 0
      && decide (st + ln ≤ 2 ^ 56))

def State.leaseTable (s : State) (vf : Nat) (l : LRec) : Option (List (Lease × Bool)) :=
  (s.vread vf l.leasep (32 * l.leasen)).map fun b =>
    (List.range l.leasen).map fun k => leaseOf ((b.drop (32 * k)).take 32)

/-- RECORD_ILLEGAL's causes in a record that can be read (R54). A lease table that cannot be read holds
no entry for the JCB. -/
def State.recordBad (s : State) (vf : Nat) (l : LRec) : Bool :=
  let j := l.jcb.toNat
  l.recver != 1 || decide (2 ≤ l.lflags) || l.spare != 0 || l.leasep % 8 != 0 || l.livep.toNat % 8 != 0
    || j % 64 != 0 || match s.leaseTable vf l with
      | some t => !t.any fun (e, _) => e.w && decide (e.start ≤ j) && decide (j < e.start + e.len)
      | none => true

/-- The levels in use. -/
def LRec.ls (l : LRec) : List Level :=
  (l.descs.take l.levels).map fun d => ⟨bitsOf d 8 24, bitsOf d 3 3, bitsOf d 0 3⟩

/-- LEVEL_ILLEGAL (R48, R49, R54): SCOPE is at least as wide as DOMAIN. -/
def LRec.levelsBad (l : LRec) : Bool :=
  let ds := l.ls
  l.levels == 0 || decide (8 < l.levels) || (l.descs.drop l.levels).any (· != 0)
    || (l.descs.take l.levels).any (fun d => bitsOf d 32 32 != 0 || bitsOf d 6 2 != 0)
    || ds.any (fun v => decide (5 < v.domain) || v.scope == 7 || decide (v.scope + v.domain < 5))
    || (ds.zip ds.tail).any fun p => decide (p.2.domain < p.1.domain)

/-! ### Placement (R49 to R51, R287) -/

/-- Product of the counts of the levels bound to each domain in use, outermost first. -/
def byDomain (ls : List Level) : List (Nat × Nat) :=
  (List.range 6).filterMap fun d =>
    let g := ls.filter (·.domain == d)
    if g.isEmpty then none else some (d, units g)

/-- Units of a domain in a unit of an outer one, given the packages of the partition. -/
def unitsIn (pkgs outer d : Nat) : Nat :=
  let per (k : Nat) : Nat := match k with
    | 1 => pkgs | 2 => 4 | 3 => 8 | 4 => 12 | 5 => 4 | _ => 1
  ((List.range (d + 1)).filter fun k => decide (outer < k)).foldl (fun p k => p * per k) 1

/-- Cores of a container split by the units of a domain, ascending: cores are numbered across the
packages, 384 to a package. -/
def splitBy (d : Nat) (cores : List Nat) : List (List Nat) :=
  let key (c : Nat) : Nat := match d with
    | 0 => 0 | 1 => c / 384 | 2 => c / 96 | 3 => c / 12 | _ => c
  ((cores.map key).eraseDups).map fun k => cores.filter fun c => key c == k

/-- Cores that n tasks fill, from the first on (R49; log 49, DEDUCED). -/
def fillCores : Nat → List Nat → Option (List Nat)
  | n, [] => if n = 0 then some [] else none
  | n, c :: t => if n = 0 then some [] else (fillCores (n - coreRoom c) t).map (c :: ·)

/-- Cores of a container for the n tasks of its context levels: one where n contexts are one core's (R13, R55), else as
many as they fill. -/
def ctxCores (n : Nat) (cores : List Nat) : Option (List Nat) :=
  if n ≤ 4 then (cores.find? fun c => decide (n ≤ coreRoom c)).map fun c => [c] else fillCores n cores

/-- Cores chosen in a container for the remaining domains: the first units in which the rest finds a
place; in strict mode instance i of a core level in a row is core strip i (R287). -/
def placeIn (strict : Bool) (per : Nat) : List (Nat × Nat) → Option Nat → List Nat → Option (List Nat)
  | [], _, cores => ctxCores per cores
  | (d, n) :: t, outer, cores =>
      let us := if d = 4 ∧ outer = some 3 ∧ strict = true then
          splitBy d (cores.filter fun c => decide (c % 12 < n))
        else splitBy d cores
      let ok := us.filterMap (placeIn strict per t (some d))
      if n ≤ ok.length then some (ok.take n).flatten else none

/-- Cores on which a launch may run, ascending: the function's own, and, where a level binds the partition or
packages, those of the partition's other packages, whose allotments this package does not hold (R49, R50). -/
def State.avail (s : State) (v : Vf) (ls : List Level) : List Nat :=
  let me := (v.pkgs.idxOf? s.pkg.toNat).getD 0
  (if ls.any fun l => decide (l.domain < 2) then
    (v.pkgs.zipIdx).flatMap fun (_, k) =>
      if k = me then (sortUp v.cores).map (384 * me + ·) else (List.range 384).map (384 * k + ·)
  else (sortUp v.cores).map (384 * me + ·))

/-- A limit of R49 or R50 is exceeded, or one context level counts more than the four contexts of a core (R13; log 49,
DEDUCED). -/
def State.countsOver (s : State) (v : Vf) (ls : List Level) : Bool :=
  let ds := byDomain ls
  let av := s.avail v ls
  (ls.any fun l => l.domain == 5 && decide (4 < l.count)) || ds.zipIdx.any fun ((d, n), k) =>
    match (ds.take k).getLast? with
    | some (o, _) => decide (unitsIn v.pkgs.length o d < n)
    | none =>
        if d = 0 then n != 1
        else if d = 5 then decide ((av.map coreRoom).sum < n)
        else decide ((splitBy d av).length < n)

/-- The hierarchical choice of cores. -/
def State.placement (s : State) (v : Vf) (ls : List Level) (strict : Bool) : Option (List Nat) :=
  placeIn strict (ctxCount ls) ((byDomain ls).filter fun x => x.1 != 5) none (s.avail v ls)

/-- Cores of another package keep numbers above 383; the own ones take their own. -/
def State.localise (s : State) (v : Vf) (l : List Nat) : List Nat :=
  let me := (v.pkgs.idxOf? s.pkg.toNat).getD 0
  l.map fun c => if c / 384 = me then c % 384 else 384 + c

/-- Two placements of a launch have the same shape: cores lie in one unit of a domain in the one where
they do in the other. -/
def sameShape (a b : List Nat) : Bool :=
  a.length == b.length && a.eraseDups.length == a.length
    && [96, 12].all fun k => (List.range a.length).all fun i => (List.range a.length).all fun j =>
      (a.getD i 0 / k == a.getD j 0 / k) == (b.getD i 0 / k == b.getD j 0 / k)

/-- The placement of a launch: the one that the service firmware will choose, where State.places names one
of the same shape in the allotment and the launch is not strict; else the hierarchical choice (R51, log
11). -/
def State.chosen (s : State) (v : Vf) (ls : List Level) (strict : Bool) : Option (List Nat) :=
  (s.placement v ls strict).map fun p =>
    let q := s.localise v p
    match s.places with
    | f :: _ =>
        let roomy := (f.zip q).all fun x => coreRoom x.1 == coreRoom x.2 || decide (ctxCount ls < 4)
        if !strict && f.all v.cores.contains && roomy && sameShape f q then f else q
    | [] => q

/-! ### The checks of a launch (R53, R54) -/

/-- An entry of a start vector. -/
structure SvEntry where
  entry : Word
  lrec : Word
  cont : Word
  spare : Word
  deriving DecidableEq, Repr

/-- The header and the entries of a start vector, where they can be read. -/
def State.startVector (s : State) (vf a : Nat) : Option (List Byte × List SvEntry) :=
  match s.vread vf a 64 with
  | none => none
  | some h => (s.vread vf (a + 64) (32 * leVal ((h.drop 8).take 4))).map fun b =>
      (h, (List.range (leVal ((h.drop 8).take 4))).map fun k =>
        let e := (b.drop (32 * k)).take 32
        ⟨field64 e 0, field64 e 8, field64 e 16, field64 e 24⟩)

def svLrec (h : List Byte) : Word := field64 h 0
def svEntry (h : List Byte) : Word := field64 h 16

/-- The bundle address and the launch record of an entry. -/
def SvEntry.start (e : SvEntry) (h : List Byte) : Word := if e.entry = 0 then svEntry h else e.entry
def SvEntry.recAt (e : SvEntry) (h : List Byte) : Word := if e.lrec = 0 then svLrec h else e.lrec

/-- The word at an address starts a bundle. -/
def State.bundleStart (s : State) (vf : Nat) (a : Word) : Bool :=
  a.toNat % 4 == 0 && match s.vread vf a.toNat 4 with
    | some b => Code.starts (ofLe 32 b)
    | none => false

/-- VECTOR_ILLEGAL's remaining causes. -/
def State.vectorBad (s : State) (vf : Nat) (h : List Byte) (es : List SvEntry) : Bool :=
  leVal ((h.drop 12).take 4) != 0 || (h.drop 24).any (· != 0)
    || es.any fun e => e.spare != 0 || !s.bundleStart vf (e.start h) || e.cont.toNat % 64 != 0

/-! ### Residency (R157) -/

/-- Bytes of a frame moved to another. -/
def copyCells (m : Cells 8) (src dst n : Nat) : Cells 8 :=
  (m.filter fun c => decide (src ≤ c.1) && decide (c.1 < src + n)).foldl (fun m c => cset m (c.1 - src + dst) c.2)
    (m.filter fun c => !(decide (dst ≤ c.1) && decide (c.1 < dst + n)))

/-- A leaf entry with a frame of the package, writable and no longer copy-on-write (R160; log 57, DEDUCED). -/
def ownEntry (e : Word) (frame : Nat) : Word :=
  (e &&& 0xF7F8000000000000#64) ||| BitVec.ofNat 64 (2 ^ 61 + frame / 4096 * 2 ^ 11)

/-- Copy-on-write of a page resolved, into a frame of the service firmware's choice; none where that is not in the
allotment, aligned to the page (R157; log 57, DESIGN CHOICE). -/
def State.uncow (s : State) (vf : Nat) (v : Vf) (p : Nat × Leaf) : Option State :=
  let (va, l) := p
  if !l.cow then some s
  else
    let dst := s.frames.headD (Config.cowFrame vf va)
    let n := pageBytes l.psize
    if dst % n = 0 ∧ inAllot v.allot dst n = true then
      let e := ownEntry (s.mem64 l.slot) dst
      let s := { s with frames := s.frames.tail, mem := copyCells s.mem (globalAddr l.hpkg l.frame) dst n }
      some ((List.range (if l.psize = 1 then 16 else 1)).foldl (fun s k => s.putMem64 (l.slot + 8 * k) e) s)
    else none

/-- The pages of a lease; none where one is not valid or cannot be reached (R157, R160, R161). -/
def State.leasePages (s : State) (vf : Nat) (l : Lease) : Option (List (Nat × Leaf)) :=
  s.pagesOf vf (l.start + l.len) (l.len / 4096) l.start

/-- Every lease made resident: copy-on-write is resolved where it is leased with W. The state after, with what the
lease translation store then holds; none where a lease fails (R157). -/
def State.resident (s : State) (vf : Nat) (v : Vf) (ls : List Lease) : Option (State × List (Nat × Leaf)) :=
  match (ls.filter (·.w)).foldlM (fun s l => (s.leasePages vf l).bind fun ps => ps.foldlM (fun s p => s.uncow vf v p) s) s with
  | none => none
  | some s => (ls.mapM (s.leasePages vf)).map fun ps => (s, ps.flatten)

/-- A launch that has passed its checks. -/
structure Launch where
  head : LRec
  recs : List LRec
  vec : List SvEntry
  hdr : List Byte
  leases : List Lease
  lts : List (Nat × Leaf)
  place : List Nat
  deriving DecidableEq, Repr

/-- The lease entries of some records, each with whether it keeps to R157; none where a table cannot be read. -/
def State.leaseTables (s : State) (vf : Nat) (rs : List LRec) : Option (List (Lease × Bool)) :=
  (rs.mapM (s.leaseTable vf)).map fun ts => ts.flatten.eraseDups

/-- Status, or the state in which every lease is resident and the launch (R54): the checks in their order. The leases
of every record that the vector names are made resident (log 48, DEDUCED). -/
def State.launchCheck (s : State) (vf : Nat) (v : Vf) : Nat ⊕ (State × Launch) :=
  let a := v.start.toNat
  if v.job.isSome || v.preempt then .inl 1
  else if a % 64 ≠ 0 then .inl 6
  else match s.startVector vf a with
  | none => .inl 6
  | some (h, es) =>
    let as := svLrec h :: es.map fun e => e.recAt h
    match as.mapM fun x => s.lrecAt vf x.toNat with
    | none => .inl 7
    | some [] => .inl 7
    | some (hd :: rs) =>
      let all := hd :: rs
      if as.any (fun x => x.toNat % 256 != 0) || all.any (s.recordBad vf) then .inl 7
      else if all.any fun l => l.nbv != 1 then .inl 2
      else if all.any LRec.levelsBad then .inl 3
      else if all.any fun l => l.ls.any fun v => v.count == 0 then .inl 4
      else if all.any fun l => s.countsOver v l.ls then .inl 4
      else match s.chosen v hd.ls (hd.lflags == 1) with
      | none => .inl 4
      | some pl =>
        if es.length ≠ pl.length then .inl 4
        else if s.vectorBad vf h es then .inl 6
        else match s.leaseTables vf all with
        | none => .inl 5
        | some t =>
          if t.all (·.2) then match s.resident vf v (t.map (·.1)) with
            | some (s, lts) => .inr (s, ⟨hd, rs, es, h, t.map (·.1), lts, pl⟩)
            | none => .inl 5
          else .inl 5

/-! ### Installing tasks (R55) -/

/-- Buffers of a core strip are held by their home core (R166). -/
def State.buffersHome (s : State) (cores : List Nat) : State :=
  cores.foldl (fun s c => s.modRow (rowOf c) fun r =>
    { r with holds := r.holds.filter fun h => h.1 / 64 != stripOf c }) s

/-- The core strip that holds a buffer or to which it is on its way. -/
def Hold.strip : Hold → Nat
  | .held n | .transit n => n

/-- At a job's completion its cores' buffers come home, and what its cores hold of others goes home (R166, R370). -/
def State.buffersBack (s : State) (cores : List Nat) : State :=
  cores.foldl (fun s c => s.modRow (rowOf c) fun r =>
    { r with holds := r.holds.filter fun h => h.1 / 64 != stripOf c && h.2.strip != stripOf c }) s

/-- The images that the loader has, without the first of a function. -/
def dropImage (vf : Nat) : List (Nat × List Byte) → List (Nat × List Byte)
  | [] => []
  | x :: t => if x.1 = vf then t else x :: dropImage vf t

/-- Loading for a launch: full/empty bits of the scratchpads of the cores used become empty, and the image that the
loader has for it, if any, goes into those scratchpads (R12; log 81, DESIGN CHOICE). -/
def State.loadImage (s : State) (vf : Nat) (cores : List Nat) : State :=
  let b := (s.images.find? fun x => x.1 == vf).map fun x => x.2.take (2 ^ 22)
  cores.foldl (fun s c => s.modCore c fun k =>
    { k with fe := [], scr := match b with
      | some b => csetN [] 0 b
      | none => k.scr }) { s with images := dropImage vf s.images }

/-- The new job of a function: LIVEP, LIVEN and IMGBASE are the header record's for every task, also where entries name
records of their own (R41; log 48, DESIGN CHOICE). -/
def Launch.job (l : Launch) : Job :=
  { lrec := BitVec.ofNat 64 l.head.at_, jcb := l.head.jcb, levels := l.head.ls
    leases := l.leases, lts := l.lts, livep := l.head.livep, liven := l.head.liven, imgbase := l.head.imgbase
    strict := l.head.lflags == 1, place := l.place, spawned := 0, ended := []
    hashes := [], broken := false, finishing := false }

/-- Task i is installed in its context: from its core's entry at reset values, or from its CONT record. -/
def State.installTask (s : State) (vf : Nat) (l : Launch) (i : Nat) : State :=
  match (taskSpots l.head.ls l.place)[i]? with
  | none => s
  | some (core, x) =>
      let k := l.place.idxOf core
      let ix := Fin.ofNat 4 x
      match l.vec[k]?, l.recs[k]? with
      | some e, some r =>
          if decide (384 ≤ core) || isService core ix then s
          else
            let fresh := { s.freshCtx vf i with launchp := BitVec.ofNat 64 r.at_ }
            if e.cont = 0 then
              s.modCtx core ix fun _ =>
                { fresh with pc := e.start l.hdr, regs := { fresh.regs with safebnd := r.safeb0 } }
            else
              (s.resume core ix fresh e.cont).modCtx core ix fun c => { c with level := fresh.level }
      | _, _ => s

/-- An accepted launch: the JCB, the barrier objects, the buffers, then every task. -/
def State.install (s : State) (vf : Nat) (l : Launch) : State :=
  let n := units l.head.ls
  let s := s.modVf vf fun v => { v with job := some l.job }
  let s := { s with bars := s.bars.filter fun b => b.key.vf != vf, places := s.places.tail }
  let s := (s.buffersHome (l.place.filter (· < 384))).loadImage vf (l.place.filter (· < 384))
  let jcb := l.head.jcb.toNat
  let s := s.vput vf jcb (leBytes 8 n ++ leBytes 8 0 ++ leBytes 8 0)
  let s := s.vput vf (jcb + 32) (List.replicate 32 0)
  (List.range n).foldl (fun s i => s.installTask vf l i) s

/-- The checks of a START have ended: the journal's kind-1 entry, LSTAT, and the launch (R54, R55, R263). -/
def State.endChecks (s : State) (vf : Nat) (v : Vf) : State :=
  match s.launchCheck vf v with
  | .inl st => (s.record vf 1 0 st v.start).modVf vf fun x => { x with lstat := BitVec.ofNat 8 st }
  | .inr (s, l) => ((s.record vf 1 0 0 v.start).modVf vf fun x => { x with lstat := 0 }).install vf l

/-- LAUNCH_CHECKS_END: then come the commands that have waited. -/
def execLaunchChecksEnd (vf : Nat) (s : State) : Res :=
  .next (match s.vf vf with
    | some v => if v.lstat = 0xFF then (s.endChecks vf v).flush vf else s
    | none => s)

/-! ### The end of a job (R58) -/

/-- Collectives that no task of a function will wait on: done ones are freed, others when they complete
(R370). -/
def State.orphan (s : State) (vf : Nat) : State :=
  { s with colTab := s.colTab.filterMap fun (n, e) =>
      if e.vf ≠ vf then some (n, e) else if e.stage = .done then none else some (n, { e with orphan := true }) }

/-- Transfer phases of a function end (log 26, DEDUCED). -/
def State.endPhases (s : State) (vf : Nat) : State :=
  { s with rows := s.rows.map fun (r, w) => match w.phase with
      | some p => if p.vf = vf then (r, { w with phase := none, shots := [] }) else (r, w)
      | none => (r, w) }

/-- The digest and the status bits that a completion writes: the digest in strict mode, its valid bit unless a trap
has ended a task (R58, R180; log 73, DEDUCED). -/
def State.finishJcb (s : State) (vf : Nat) (j : Job) : State :=
  let a := j.jcb.toNat
  let st := s.vread64 vf (a + 16) ||| 1
  if j.strict then
    let d := sha3Bytes (j.hashes.flatMap fun h => toLe h.2)
    (s.vput vf (a + 32) d).vput vf (a + 16) (leBytes 8 (if j.broken then st else st ||| 4).toNat)
  else s.vput vf (a + 16) (leBytes 8 st.toNat)

/-- The completion of an instance of a function's job: it goes with the job. -/
def isInstanceEvent (vf : Nat) : Instr → Bool
  | .instanceComplete v _ _ => v == vf
  | _ => false

/-- JOB_COMPLETION (R58): digest, complete bit, and the signal on the command window; it waits while the page of the
JCB is not mapped (log 14, DEDUCED). -/
def execJobCompletion (vf : Nat) (s : State) : Res :=
  match s.vf vf with
  | some v =>
    match v.job with
    | some j =>
      if !s.blockMapped vf j.jcb then
        .next (if j.finishing then s.schedule (s.cycle + 1) (.jobCompletion vf) else s)
      else if j.finishing || s.vread64 vf j.jcb.toNat == s.vread64 vf (j.jcb.toNat + 8) then
        let s := s.finishJcb vf j
        let s := s.modVf vf fun x => { x with jdone := x.jdone + 1, job := none }
        let s := s.record vf 2 0 0 (v.jdone + 1)
        let s := s.buffersBack (j.place.filter (· < 384))
        .next ((({ s with
          bars := s.bars.filter fun b => b.key.vf != vf
          agenda := s.agenda.filter fun e => !isInstanceEvent vf e.2 }).orphan vf).endPhases vf)
      else .next s
    | none => .next s
  | none => .next s

/-! ### Functions (R50, R265) -/

/-- A range of an allotment: 2 MiB units of HBM or of the cellar (R265). -/
def State.rangeOk (s : State) (base len : Nat) : Bool :=
  base % 2 ^ 21 == 0 && len % 2 ^ 21 == 0 && len != 0
    && ((s.isHbm base && s.isHbm (base + len - 1)) || (isCellar base && isCellar (base + len - 1)))

/-- No two of some ranges share a byte. -/
def disjointRanges : List (Nat × Nat) → Bool
  | [] => true
  | (a, n) :: t => (t.all fun (b, m) => !overlap a (a + n) b (b + m)) && disjointRanges t

/-- A core may be given to a new function: no running job has it. -/
def State.coreFree (s : State) (c : Nat) : Bool :=
  decide (c < 384) && match (s.core c).vf with
    | some o => ((s.vf o).bind (·.job)).isNone && (s.core c).ctxs.toList.all fun x => !(x.task && x.vf == o)
    | none => true

def State.createOk (s : State) (part : Nat) (pkgs vfs : List Nat) (cores : List (Nat × Nat))
    (ranges : List (Nat × Nat × Nat)) : Bool :=
  s.up && vfs != [] && vfs.eraseDups.length == vfs.length && vfs.all (fun v => decide (v < 64) && (s.vf v).isNone)
    && ascending pkgs && pkgs.contains s.pkg.toNat && pkgs.all (fun p => decide (p < 2 ^ 17))
    && s.vfs.all (fun v => v.1 == 64 || v.2.part != part)
    && cores.all (fun c => vfs.contains c.1 && s.coreFree c.2)
    && (cores.map (·.2)).eraseDups.length == cores.length
    && ranges.all (fun r => vfs.contains r.1 && s.rangeOk r.2.1 r.2.2)
    && disjointRanges (ranges.map (·.2) ++ s.vfs.flatMap (·.2.allot))

/-- A core is assigned to a function: its lid and its accumulator store are cleared when that is a
different one (R25, R109). -/
def Core.assign (c : Core) (vf : Nat) : Core :=
  if c.vf = some vf then c else { c with vf := some vf, lid := [], acc := [] }

/-- VIRTUAL_FUNCTION_CREATE. -/
def execVirtualFunctionCreate (part : Nat) (pkgs vfs : List Nat) (cores : List (Nat × Nat))
    (ranges : List (Nat × Nat × Nat)) (s : State) : Res :=
  if s.createOk part pkgs vfs cores ranges then
    let taken := cores.map (·.2)
    let old := s.vfs.map fun (n, v) => (n, { v with cores := v.cores.filter fun c => !taken.contains c })
    let made := vfs.foldl (fun m n => aset m n
      { part, pkgs, cores := sortUp ((cores.filter fun c => c.1 == n).map (·.2))
        allot := (ranges.filter fun r => r.1 == n).map (·.2) : Vf }) old
    .next (cores.foldl (fun s c => s.modCore c.2 fun k => k.assign c.1) { s with vfs := made })
  else .next s

end Sys2Proof.Machine
end

