-- ==== Sys2Proof/Machine/Fabric.lean ====
section
/-! DEFINITION. The packet fabric's routers and links with the spoon and the sink lane (R218 to R227), power
(R33, R34), partition reset (R268), package reset (R267) and the sideband (R269). -/

namespace Sys2Proof.Machine

/-! ### Places of routers (R18, R218) -/

/-- The hub switch's number among the routers. -/
def hubRouter : Nat := 512

def rDie (r : Nat) : Nat := r / 128
def rRow (r : Nat) : Nat := r / 16 % 8
def rPos (r : Nat) : Nat := r % 16

/-- Strip positions of the slice strips. -/
def slicePos : List Nat := [2, 6, 9, 13]

/-- The router of a link, die · 4 + slice strip. -/
def linkRouter (l : Nat) : Nat := l / 4 * 128 + 7 * 16 + slicePos.getD (l % 4) 2

/-- The link of a router, if it has one. -/
def linkOf (r : Nat) : Option Nat :=
  if r < 512 ∧ rRow r = 7 then (slicePos.idxOf? (rPos r)).map (4 * rDie r + ·) else none

/-- Ports in the order N, E, S, W, link, local (R220); at the hub the ports are the sixteen links, and 16
leads out. -/
def pLocal : Nat := 5
def hubOut : Nat := 16

/-- The neighbour at an output port, and its input port there. -/
def neighbour (r p : Nat) : Option (Nat × Nat) :=
  if r = hubRouter then (if p < 16 then some (linkRouter p, 4) else none)
  else match p with
    | 0 => if rRow r = 0 then none else some (r - 16, 2)
    | 1 => if rPos r = 15 then none else some (r + 1, 3)
    | 2 => if rRow r = 7 then none else some (r + 16, 0)
    | 3 => if rPos r = 0 then none else some (r - 1, 1)
    | 4 => (linkOf r).map fun l => (hubRouter, l)
    | _ => none

def portsOf (r : Nat) : List Nat := if r = hubRouter then List.range 16 else List.range 5

def State.router (s : State) (r : Nat) : Router := (aget s.routers r).getD {}
def State.modRouter (s : State) (r : Nat) (f : Router → Router) : State :=
  { s with routers := aset s.routers r (f (s.router r)) }
def State.link (s : State) (l : Nat) : Link := (aget s.links l).getD {}
def State.modLink (s : State) (l : Nat) (f : Link → Link) : State :=
  { s with links := aset s.links l (f (s.link l)) }

/-- A router that carries packets: it exists and is not harvested (R226). -/
def State.routerOk (s : State) (r : Nat) : Bool := decide (r ≤ hubRouter) && !s.harvested.contains r

/-- A link that carries packets: a harvested router at row 7 removes its own (R226). -/
def State.linkOk (s : State) (l : Nat) : Bool :=
  decide (l < 16) && (s.link l).working && s.routerOk (linkRouter l)

/-- The output leads somewhere. -/
def State.outOpen (s : State) (r p : Nat) : Bool :=
  match neighbour r p with
  | none => false
  | some (n, _) =>
      s.routerOk n && (if r = hubRouter then s.linkOk p
        else if p = 4 then (linkOf r).any s.linkOk else true)

/-- Working links of a die, ascending. -/
def State.dieLinks (s : State) (d : Nat) : List Nat := ((List.range 4).map (4 * d + ·)).filter s.linkOk

def gap (a b : Nat) : Nat := (a - b) + (b - a)

/-- Hops between two routers of a die. -/
def meshHops (a b : Nat) : Nat := gap (rRow a) (rRow b) + gap (rPos a) (rPos b)

def least (l : List Nat) : Nat := l.foldl min 1000

/-! ### Endpoints (R23, R218, R226) -/

/-- The die of an endpoint; what lies behind the hub is on none. -/
def Endpoint.die : Endpoint → Option Nat
  | .core n => some (n / 96)
  | .slice n => some (n / 12)
  | .pantry d | .fabricIf d | .colander d => some d
  | .cellar | .hub => none

/-- Working routers of a die's slice strip, or of its row 7, ascending. -/
def State.sliceRouters (s : State) (d : Nat) (pos row : Option Nat) : List Nat :=
  ((List.range 8).flatMap fun y => slicePos.map fun x => 128 * d + 16 * y + x).filter fun r =>
    s.routerOk r && pos.all (· == rPos r) && row.all (· == rRow r)

/-- Routers at which a packet for an endpoint is delivered: a core's own, a slice's all eight of its strip, and every
working slice-strip router of row 7 for the pantry, the fabric interface and the colander. -/
def State.attached (s : State) : Endpoint → List Nat
  | .core n => if n < 384 then [128 * (n / 96) + 16 * (n / 12 % 8) + posOf (n % 12)] else []
  | .slice n => if n < 48 then s.sliceRouters (n / 12) (some (slicePos.getD (n % 12 / 3) 2)) none else []
  | .pantry d | .fabricIf d | .colander d => if d < 4 then s.sliceRouters d none (some 7) else []
  | .cellar | .hub => [hubRouter]

/-- The router at which the sink lane delivers to an endpoint: of a slice the one in the row of the present router, of
the pantry and its neighbours the lowest-numbered working one (R223, R226). -/
def State.sinkEnd (s : State) (r : Nat) (dst : Endpoint) : Nat :=
  let l := s.attached dst
  match dst with
  | .slice _ => (l.find? fun a => rRow a == (if r = hubRouter then 7 else rRow r)).getD (l.headD hubRouter)
  | _ => l.headD hubRouter

/-- An output leads nearer to a destination (R220): on its die, to the nearest of its routers; elsewhere, to any working
link of the die and over it; and from the hub switch over any link into the destination's die. -/
def State.leads (s : State) (r : Nat) (dst : Endpoint) (p : Nat) : Bool :=
  match neighbour r p with
  | none => false
  | some (n, _) =>
      if r = hubRouter then dst.die == some (rDie n)
      else if dst.die = some (rDie r) then
        p != 4 && decide (least ((s.attached dst).map (meshHops n)) < least ((s.attached dst).map (meshHops r)))
      else (s.dieLinks (rDie r)).any fun l =>
        if p = 4 then linkOf r == some l else decide (meshHops n (linkRouter l) < meshHops r (linkRouter l))

/-- Output ports that bring a packet nearer; one that leads to a harvested neighbour is replaced as the
detour table says (R220, R226, log 27, DESIGN CHOICE). -/
def State.nearer (s : State) (r : Nat) (dst : Endpoint) : List Nat :=
  ((portsOf r).filter (s.leads r dst)).map fun p =>
    if s.outOpen r p then p else Config.detourPort r p (s.sinkEnd r dst)

/-- The flits of an earlier packet are crossing an output. -/
def State.outBusy (s : State) (r p : Nat) : Bool :=
  (s.router r).busy.any fun b => b.1 == p && decide (s.cycle < b.2)

/-- A packet takes an output: its header and its data flits cross one a cycle (R23, R218). -/
def Router.take (x : Router) (p n cyc : Nat) : Router :=
  { x with busy := (p, cyc + 1 + n) :: x.busy.filter fun b => b.1 != p && decide (cyc < b.2) }

/-- Free buffers at the far side of an output. -/
def State.freeBufs (s : State) (r p : Nat) : Nat :=
  match neighbour r p with
  | some (n, q) => if s.outOpen r p then 2 - ((s.router n).inbufs.filter fun b => b.1.1 == q).length else 0
  | none => 0

/-- The output that a packet takes: most free buffers, then the lowest port (R220). -/
def State.bestOut (s : State) (r : Nat) (dst : Endpoint) : Option Nat :=
  (portsOf r).foldl (fun b p =>
    if (s.nearer r dst).contains p && decide (0 < s.freeBufs r p) && !s.outBusy r p then
      match b with
      | none => some p
      | some q => if s.freeBufs r q < s.freeBufs r p then some p else some q
    else b) none

/-- Input buffers in the order of port, then buffer. -/
def insertBuf (b : (Nat × Nat) × Packet) : List ((Nat × Nat) × Packet) → List ((Nat × Nat) × Packet)
  | [] => [b]
  | x :: t =>
      if b.1.1 < x.1.1 ∨ (b.1.1 = x.1.1 ∧ b.1.2 < x.1.2) then b :: x :: t else x :: insertBuf b t

/-- A packet enters the lowest free buffer of an input port. -/
def Router.accept (r : Router) (q : Nat) (p : Packet) : Router :=
  let k := if r.inbufs.any fun b => b.1 == (q, 0) then 1 else 0
  { r with inbufs := insertBuf ((q, k), p) r.inbufs }

def Router.without (r : Router) (b : Nat × Nat) : Router :=
  { r with inbufs := r.inbufs.filter fun x => x.1 != b }

/-- The link that an output uses. -/
def outLink (r p : Nat) : Option Nat := if r = hubRouter then some p else if p = 4 then linkOf r else none

/-- The flits that have crossed the links of a router's outputs in the cycle before: where none was resent in it, the
retries in a row start anew for the next flit (R219). -/
def State.crossings (s : State) (r : Nat) : State :=
  ((s.router r).busy.filter fun b => decide (s.cycle ≤ b.2)).foldl (fun t b => match outLink r b.1 with
    | none => t
    | some l => t.modLink l fun x =>
        if r = hubRouter then (if x.downAt.any fun c => c + 1 == s.cycle then x else { x with down := 0 })
        else if x.upAt.any fun c => c + 1 == s.cycle then x else { x with up := 0 }) s

/-- The port to the endpoints of a router. -/
def homePort (r : Nat) : Nat := if r = hubRouter then hubOut else pLocal

/-- A packet that an endpoint has accepted: a request's reply is offered where it has come in, and a reply frees the
space that its request's source keeps for it (R221). -/
def State.delivered (s : State) (r : Nat) (pk : Packet) : State :=
  match pk.reply with
  | some n =>
      { s with offers := s.offers ++ [(r, { id := pk.id, src := pk.dst, dst := pk.src, data := n, reply := none, suspect := false })] }
  | none => { s with awaited := s.awaited.filter fun x => x.id != pk.id }

/-- One packet forwarded from a buffer: to its endpoint, which accepts it (R221), or to the next router; a
suspect packet of the spoon's holder is left to the sink lane. -/
def State.forward (s : State) (r : Nat) (b : (Nat × Nat) × Packet) : State × Bool :=
  let pk := b.2
  let go (p : Nat) : State := s.modRouter r fun x => (x.without b.1).take p pk.data.val s.cycle
  if pk.suspect then (s, false)
  else if (s.attached pk.dst).contains r then
    if s.outBusy r (homePort r) then (s, false) else ((go (homePort r)).delivered r pk, true)
  else match s.bestOut r pk.dst with
    | none => (s, false)
    | some p => match neighbour r p with
      | none => (s, false)
      | some (n, q) => ((go p).modRouter n fun x => x.accept q pk, true)

/-- A packet may be sent: a reply always, and a request where its source has space for one more reply (R221; log 71,
DESIGN CHOICE). -/
def State.maySend (s : State) (pk : Packet) : Bool :=
  pk.reply.isNone || decide ((s.awaited.filter fun x => x.src == pk.src).length < max 1 Config.replySpace)

/-- A packet that an endpoint offers to its router enters a free buffer of the local input (R218, R221; log 71, DESIGN
CHOICE). -/
def State.inject (s : State) (r : Nat) : State :=
  match s.offers.find? fun o => o.1 == r && s.maySend o.2 && !(s.attached o.2.dst).isEmpty with
  | some o =>
      if ((s.router r).inbufs.filter fun b => b.1.1 == homePort r).length < 2 then
        { (s.modRouter r fun x => x.accept (homePort r) { o.2 with suspect := false }) with
          offers := dropFirst o s.offers
          awaited := if o.2.reply.isSome then s.awaited ++ [o.2] else s.awaited }
      else s
  | none => s

/-! ### The sink lane (R223, R224) -/

/-- The sink lane's fixed output: along the row, then along the strip; between dies through the
lowest-numbered working links. -/
def State.sinkPort (s : State) (r : Nat) (dst : Endpoint) : Nat :=
  let on (d : Nat) : Nat :=
    let p := if rPos r < rPos d then 1 else if rPos d < rPos r then 3
      else if rRow r < rRow d then 2 else if rRow d < rRow r then 0 else pLocal
    if p = pLocal ∨ s.outOpen r p then p else Config.detourPort r p d
  if r = s.sinkEnd r dst then homePort r
  else if r = hubRouter then (s.dieLinks (dst.die.getD 0)).headD 0
  else if dst.die = some (rDie r) then on (s.sinkEnd r dst)
  else
    let l := (s.dieLinks (rDie r)).headD 0
    if r = linkRouter l then 4 else on (linkRouter l)

/-- Sink-lane packets of a router move on, over outputs that no packet's flits are crossing: to the endpoint, or to the
next router's free sink buffer (R23, R223). -/
def State.sinkGo (s : State) (r : Nat) : State :=
  (s.router r).sink.foldl (fun s (p, pk) =>
    let gone := s.modRouter r fun x => { x with sink := x.sink.filter fun y => y.1 != p }.take p pk.data.val s.cycle
    if s.outBusy r p then s
    else if r = s.sinkEnd r pk.dst then gone.delivered r pk
    else match neighbour r p with
      | none => s
      | some (n, _) =>
          let q := s.sinkPort n pk.dst
          if (s.router n).sink.any fun y => y.1 == q then s
          else gone.modRouter n fun x => { x with sink := x.sink ++ [(q, pk)] }) s

/-- The blocked-output timer after a cycle in which the router has, or has not, forwarded a flit (R222, R224). -/
def Router.tick (x : Router) (moved : Bool) : Router :=
  if moved then { x with timer := 0, st := if x.st = .armed then .normal else x.st }
  else { x with timer := if x.inbufs.isEmpty && x.sink.isEmpty then 0 else x.timer + 1 }

/-- PACKET_ROUTE: one cycle of a router (R220, R222, R224). -/
def execPacketRoute (r : Nat) (s : State) : Res :=
  if s.routerOk r then
    let t := (s.crossings r).sinkGo r
    let sunk := (s.router r).busy.any (fun b => decide (s.cycle < b.2)) || (t.router r).sink != (s.router r).sink
    let (t, moved) := (t.router r).inbufs.foldl (fun (t, m) b =>
      let (t, f) := t.forward r b
      (t, m || f)) (t, sunk)
    .next ((t.inject r).modRouter r fun x => x.tick moved)
  else .next s

/-- ROUTER_ARMED. -/
def execRouterArmed (r : Nat) (s : State) : Res :=
  let x := s.router r
  if s.routerOk r && x.st == .normal && decide (s.blkt.toNat ≤ x.timer) then
    .next (s.modRouter r fun x => { x with st := .armed })
  else .next s

/-- SPOON_CAPTURE. -/
def execSpoonCapture (r : Nat) (s : State) : Res :=
  if s.routerOk r && (s.router r).st == .armed && s.spoon.isNone then
    .next { (s.modRouter r fun x => { x with
      st := .draining, moved := []
      inbufs := x.inbufs.map fun b => (b.1, { b.2 with suspect := true }) }) with spoon := some r }
  else .next s

/-- A port's place in the order N, S, E, W, local, link (R218, R224). -/
def portRank (r p : Nat) : Nat := if r = hubRouter then p else [0, 2, 1, 3, 5, 4].getD p 6

/-- Input buffers by port in R218's order, then by buffer. -/
def inOrder (r : Nat) (l : List ((Nat × Nat) × Packet)) : List ((Nat × Nat) × Packet) :=
  (List.range 17).flatMap fun k => l.filter fun b => portRank r b.1.1 == k

/-- The first suspect packet whose sink-lane output has a free buffer. -/
def State.sinkable (s : State) (r : Nat) : Option ((Nat × Nat) × Packet) :=
  (inOrder r (s.router r).inbufs).find? fun b =>
    b.2.suspect && !(s.router r).sink.any fun y => y.1 == s.sinkPort r b.2.dst

/-- SINK_LANE_MOVE: at most one packet a cycle, in order of input port, then of buffer. -/
def execSinkLaneMove (r : Nat) (s : State) : Res :=
  match s.sinkable r with
  | some b =>
      if s.spoon = some r ∧ (s.router r).st = .draining ∧ (s.router r).sunk ≠ some s.cycle then
        .next (s.modRouter r fun x => { x.without b.1 with
          sink := x.sink ++ [(s.sinkPort r b.2.dst, b.2)], moved := x.moved ++ [b.2.id], sunk := some s.cycle })
      else .next s
  | none => .next s

/-- A packet is in the sink lane. -/
def State.inSink (s : State) (id : Nat) : Bool := s.routers.any fun x => x.2.sink.any fun y => y.2.id == id

/-- SPOON_RETURN. -/
def execSpoonReturn (r : Nat) (s : State) : Res :=
  let x := s.router r
  if s.spoon == some r && x.st == .draining && !(x.inbufs.any fun b => b.2.suspect)
      && !x.moved.any s.inSink then
    .next { (s.modRouter r fun x => { x with st := .normal, timer := 0, moved := [] }) with spoon := none }
  else .next s

/-! ### Partition reset (R50, R227, R268) -/

/-- A context of a core that a reset of some functions ends. -/
def State.endsCtx (s : State) (vfs : List Nat) (core : Nat) (ix : Fin 4) : Bool :=
  !(isService core ix && (s.ctx core ix).vf == 64) && (s.core core).vf.any vfs.contains

/-- Operations of a context that a reset ends. -/
def State.endsOp (s : State) (vfs : List Nat) (core id : Nat) : Bool :=
  match (s.core core).op id with
  | some o => s.endsCtx vfs core o.ctx
  | none => true

/-- An event that goes with what a reset ends. -/
def State.endsEvent (s : State) (vfs : List Nat) : Instr → Bool
  | .transWrite k i _ _ | .publishAck k i _ | .mdrainRetire k i _ _ _ | .transferCycleAct k i
  | .barrierArrival k (.ctx i) | .suspension k i | .packetFetch k i | .passTake k i | .passEntryAged k i
  | .agingPromotion k i | .preemptionRequest k i | .safePointTaken k i | .forcedPreemption k i
  | .forcedPreemptionSave k i | .expectRaise k i | .bkselTableRead k i | .destinationReady k i _
  | .preemptionRequestWithdrawal k i => s.endsCtx vfs k i
  | .atomicPerform k o | .asyncRetire k o | .walkerRetire k o | .loadWriteback k o | .storePerform k o
  | .feRemoteServe k o | .remoteBufferAccess k o => s.endsOp vfs k o
  | .groupReady k _ | .mbeatAFold k _ | .foldRetire k _ =>
      (s.core k).arr.owner.elim ((s.core k).vf.any vfs.contains) (s.endsCtx vfs k)
  | .preemptRecordRelease k r =>
      (s.core k).released.any fun x => x.ent.recp == r && vfs.contains x.ent.vf
  | .elementServe d t | .gatherRetire d t =>
      ((s.die d).gather t).elim true fun g => vfs.contains g.vf
  | .replayPerform d q =>
      ((s.die d).colander.find? fun e => e.seq.toNat == q).elim true fun e => vfs.contains e.vf
  | .barrierArrival _ (.spike (.arrive v ..)) | .barrierArrival _ (.spike (.flip v ..))
  | .launchChecksEnd v | .jobCompletion v | .instanceComplete v _ _ => vfs.contains v
  | .collectiveStart n | .collectiveComplete n _ => (aget s.colTab n).elim true fun e => vfs.contains e.vf
  | .collectivePostReceive p => s.colTab.any fun x => vfs.contains x.2.vf
      && colGroup x.2.desc == colGroup p.desc && colGseq x.2.desc == colGseq p.desc && p.pkg == s.pkg.toNat
  | .reservationGrant g q _ | .rankRequest g q | .startTicket g q _ => s.colTab.any fun x =>
      vfs.contains x.2.vf && colGroup x.2.desc == g && colGseq x.2.desc == q
  | _ => false

/-- A core of the partition: its memories are cleared, its tasks end, its round-robin pointers restart
(R62, R268). The service firmware's context keeps what is its own. -/
def Core.clear (c : Core) (core : Nat) : Core :=
  let keep (i : Fin 4) : Bool := isService core i && c.ctxs[i].task && c.ctxs[i].vf == 64
  { vf := c.vf
    ctxs := Vector.ofFn fun i => if keep i then c.ctxs[i] else {}
    ops := c.ops.filter fun o => keep o.ctx
    arr := if c.arr.owner.any keep then c.arr else {} }

/-- A row without what belonged to some functions. -/
def Row.clear (r : Row) (vfs strips : List Nat) : Row :=
  let out := r.phase.any fun p => vfs.contains p.vf
  { holds := r.holds.filter fun h => !strips.contains (h.1 / 64)
    pass := r.pass.filter fun e => !vfs.contains e.vf
    phase := if out then none else r.phase
    shots := if out then [] else r.shots }

def Die.clear (d : Die) (vfs : List Nat) : Die :=
  { d with
    colander := d.colander.filter fun e => !vfs.contains e.vf
    gathers := d.gathers.filter fun g => !vfs.contains g.vf
    spilled := d.spilled.filter fun x => !vfs.contains x.2.vf }

/-- A reset of some functions, which are those of whole partitions (R268). -/
def State.resetVfs (s : State) (vfs : List Nat) : State :=
  let mine (c : Nat) : Bool := (s.core c).vf.any vfs.contains
  let gone := s.colTab.filter fun x => vfs.contains x.2.vf
  let pair (c : Coord) : Bool :=
    gone.any fun x => colGroup x.2.desc == c.group && colGseq x.2.desc == c.gseq
  let s' := { s with
    agenda := s.agenda.filter fun e => !s.endsEvent vfs e.2
    cores := s.cores.map fun (n, c) => if mine n then (n, c.clear n)
      else (n, { c with released := c.released.filter fun r => !vfs.contains r.ent.vf })
    rows := s.rows.map fun (n, r) =>
      (n, r.clear vfs ((List.range 12).filter fun x => mine (12 * n + x)))
    dies := s.dies.map fun (n, d) => (n, d.clear vfs)
    bars := s.bars.filter fun b => !vfs.contains b.key.vf
    sleepers := s.sleepers.filter fun x => !vfs.contains x.ent.vf
    colTab := s.colTab.filter fun x => !vfs.contains x.2.vf
    coords := s.coords.filter fun c => !pair c }
  vfs.foldl (fun s v => ((s.modVf v fun x =>
      { x with job := none, lstat := 0, rstcnt := x.rstcnt + 1 }).modVf v fun x =>
        x.record 3 0 0 (Config.resetEntryValue (x.jseq.toNat + 1)) s.cycle).flush v) s'

/-- A partition reset asks the tasks of its functions (R65); they end after a free number of cycles (R268; log 114,
DESIGN CHOICE). -/
def State.askReset (s : State) (vfs : List Nat) : State :=
  let ask (x : Ctx) : Ctx := if x.task && vfs.contains x.vf then x.asked else x
  if vfs.isEmpty then s
  else { s with
    resets := s.resets ++ [(s.cycle + Config.resetDelay s.cycle, vfs)]
    cores := s.cores.map fun (n, c) => (n, { c with ctxs := c.ctxs.map ask }) }

/-- Every function of the partitions that have a function with a property is to be reset. -/
def State.resetWhere (s : State) (f : Vf → Bool) : State :=
  let vs := s.vfs.filter fun v => v.1 < 64
  let parts := (vs.filter fun v => f v.2).map (·.2.part)
  s.askReset ((vs.filter fun v => parts.contains v.2.part).map (·.1))

/-- Partition resets whose cycle has come end their tasks (R268). -/
def State.endResets (s : State) : State :=
  (s.resets.filter fun x => decide (x.1 ≤ s.cycle)).foldl (fun s x => s.resetVfs x.2)
    { s with resets := s.resets.filter fun x => !decide (x.1 ≤ s.cycle) }

/-- An allotment has a byte in a package slice (R164). -/
def State.inSlice (s : State) (v : Vf) (sl : Nat) : Bool :=
  v.allot.any fun r => s.isHbm r.1 && (List.range (r.2 / 4096)).any fun k =>
    (s.hbmPlace (r.1 + 4096 * k)).1 == sl

def Vf.onDie (v : Vf) (d : Nat) : Bool := v.cores.any fun c => dieOf c == d

/-- A die serves a function: its cores, or its slices' bytes. -/
def State.dieServes (s : State) (v : Vf) (d : Nat) : Bool :=
  v.onDie d || (List.range 12).any fun k => s.inSlice v (12 * d + k)

/-- The core at a core-strip router. -/
def routerCore (r : Nat) : Option Nat :=
  ((List.range 12).find? fun x => posOf x == rPos r).map fun x => 96 * rDie r + 12 * rRow r + x

/-- A router serves a function (R227): a core's router the function that has the core, a slice strip's the
functions with bytes in its slices, and at row 7, where the pantry, the fabric interface, the colander and
a link attach, those of the die; the hub switch serves all. -/
def State.routerServes (s : State) (v : Vf) (r : Nat) : Bool :=
  if r = hubRouter then true
  else match routerCore r with
    | some c => v.cores.contains c
    | none =>
        let j := (slicePos.idxOf? (rPos r)).getD 0
        ((List.range 3).any fun k => s.inSlice v (12 * rDie r + 3 * j + k))
          || (rRow r == 7 && s.dieServes v (rDie r))

/-- ROUTER_ERROR (R227): the router counts as harvested from then on. -/
def execRouterError (r : Nat) (s : State) : Res :=
  if s.routerOk r then
    let s := s.resetWhere fun v => s.routerServes v r
    .next (if r = hubRouter then s else
      { (s.modRouter r fun x => { x with inbufs := [], busy := [], sink := [], st := .normal, timer := 0, moved := [] }) with
        harvested := s.harvested ++ [r], spoon := if s.spoon = some r then none else s.spoon })
  else .next s

/-- The flits that cross an output take a cycle more. -/
def Router.resend (x : Router) (p cyc : Nat) : Router :=
  { x with busy := x.busy.map fun b => if b.1 = p ∧ cyc < b.2 then (p, b.2 + 1) else b }

/-- LINK_RETRY: one more retry in a row of the flit that crosses a link in a direction, which crosses it again in the
next cycle (R219). -/
def execLinkRetry (dir : LinkDir) (s : State) : Res :=
  .next (match dir with
    | .toHub l => if s.linkOk l then
        (s.modLink l fun x => { x with up := min 16 (x.up + 1), upAt := some s.cycle }).modRouter (linkRouter l) fun x =>
          x.resend 4 s.cycle
      else s
    | .fromHub l => if s.linkOk l then
        (s.modLink l fun x => { x with down := min 16 (x.down + 1), downAt := some s.cycle }).modRouter hubRouter fun x =>
          x.resend l s.cycle
      else s)

/-- LINK_FAILURE: after 16 retries in a row of one flit the link is declared failed (R219, R227). -/
def execLinkFailure (l : Nat) (s : State) : Res :=
  if s.linkOk l && ((s.link l).up == 16 || (s.link l).down == 16) then
    .next ((s.resetWhere fun v => s.dieServes v (l / 4)).modLink l fun x => { x with working := false })
  else .next s

/-! ### Power (R33, R34) -/

/-- Blocks by number: dies 0 to 3, lids 4 to 7, stacks 8 to 19, the hub 20, the cellar 21, voltage regulation
22. -/
def blocks : Nat := 23

/-- The ceiling of a block, in watts (R33). -/
def blockCeiling (b : Nat) : Nat :=
  if b < 4 then 1150 else if b < 8 then 90 else if b < 20 then 95 else if b = 20 then 520 else if b = 21 then 380
  else 500

/-- The blocks of a row of R33's table. -/
def blockRows : List (List Nat) :=
  [List.range' 0 4, List.range' 4 4, List.range' 8 12, [20], [21], [22]]

/-- A row's ceiling: its limiters hold what it draws at or below that (R33). -/
def rowCeiling (bs : List Nat) : Nat := (bs.map blockCeiling).foldl (· + ·) 0

/-- Draws that the limiters admit, row by row (R33). -/
def drawsOk (draws : List Nat) : Bool :=
  draws.length == blockRows.length && (draws.zip blockRows).all fun x => decide (x.1 ≤ rowCeiling x.2)

/-- A block serves a function (R227). -/
def State.blockServes (s : State) (v : Vf) (b : Nat) : Bool :=
  if b < 4 then s.dieServes v b
  else if b < 8 then v.onDie (b - 4)
  else if b < 20 then
    let st := b - 8
    (List.range 4).any fun j => s.inSlice v (12 * (st / 3) + 3 * j + st % 3)
  else if b = 21 then v.allot.any fun r => isCellar r.1
  else true

/-- POWER_LIMIT_FAILURE. -/
def execPowerLimitFailure (b : Nat) (s : State) : Res :=
  if b < blocks then .next (s.resetWhere fun v => s.blockServes v b)
  else .next s

/-- THERMAL_LIMIT: the block is limited until it cools. -/
def execThermalLimit (b : Nat) (s : State) : Res :=
  if decide (b < blocks) && !s.hot.contains b then .next { s with hot := s.hot ++ [b] }
  else .next s

/-- BLOCK_COOLED. -/
def execBlockCooled (b : Nat) (s : State) : Res :=
  if s.hot.contains b then .next { s with hot := s.hot.filter (· != b) }
  else .next s

/-- POWER_CEILING_LIMITING: the block's limiter holds it at its ceiling; the manual names no end of that, and the model
keeps it until a package reset (R33, R34; log 104, DESIGN CHOICE). -/
def execPowerCeilingLimiting (b : Nat) (s : State) : Res :=
  if b < blocks then .next { s with limited := if s.limited.contains b then s.limited else s.limited ++ [b] }
  else .next s

/-- A limiter withholds this cycle from the bundles of a core's die (R34, log 28, DESIGN CHOICE). -/
def State.withheld (s : State) (core : Nat) : Bool :=
  (s.limited.contains (dieOf core) || s.hot.contains (dieOf core)) && Config.withheld (dieOf core) s.cycle

/-! ### Packets of operations (R23, R221) -/

/-- The endpoint at which a byte is reached (R20, R23, R164, R185). -/
def State.endAt (s : State) : Loc → Endpoint
  | .mem a =>
      if s.isHbm a then .slice (s.hbmPlace a).1
      else if isCellar a then .cellar
      else if 2 ^ 52 ≤ a then .hub
      else .slice (12 * s.homeDie a)
  | .scr n _ | .lid n _ => .core n

/-- Runs of equal endpoints, with their lengths. -/
def endRuns : List Endpoint → List (Endpoint × Nat)
  | [] => []
  | e :: t => match endRuns t with
    | (x, n) :: u => if x = e then (x, n + 1) :: u else (e, 1) :: (x, n) :: u
    | [] => [(e, 1)]

/-- Data flits of packets that carry some bytes, 256 at most in each (R218). -/
def flitsOf (bytes : Nat) : List (Fin 5) :=
  (List.range ((bytes + 255) / 256)).map fun k => Fin.ofNat 5 ((min 256 (bytes - 256 * k) + 63) / 64)

/-- Places that a copy or a load reads. -/
def Src.loc? : Src → Option Loc
  | .place l => some l
  | .known _ => none

/-- What an operation of a core asks of other endpoints: the endpoint, data flits of the request and of its reply. Reads
whose addresses a walker finds on its way are not among them (log 71, DESIGN CHOICE). -/
def State.requests (s : State) (core : Nat) (op : Op) : List (Endpoint × Fin 5 × Fin 5) :=
  let reads (l : List Loc) : List (Endpoint × Fin 5 × Fin 5) :=
    (endRuns (l.map s.endAt)).flatMap fun x => (flitsOf x.2).map fun n => (x.1, 0, n)
  let writes (l : List Loc) : List (Endpoint × Fin 5 × Fin 5) :=
    (endRuns (l.map s.endAt)).flatMap fun x => (flitsOf x.2).map fun n => (x.1, n, 0)
  let pantry (a : Nat) : Endpoint := if 2 ^ 52 ≤ a then .hub else .pantry (s.homeDie a)
  let l : List (Endpoint × Fin 5 × Fin 5) := match op.what with
    | .load _ src | .post _ src _ => reads (src.filterMap Src.loc?)
    | .store a b => writes ((List.range b.length).map fun k => .mem (a + k))
    | .bufStore n off b => writes ((List.range b.length).map fun k => .scr n (off + k))
    | .amo _ _ _ a _ | .cas _ _ a _ _ => [(pantry a, 1, 1)]
    | .fullEmpty st _ n _ _ _ _ => [(.core n, if st then 1 else 0, if st then 0 else 1)]
    | .copy ms => reads (ms.filterMap fun m => m.1.loc?) ++ writes (ms.map (·.2))
    | .elements _ => [(.fabricIf (dieOf core), 1, 0)]
    | _ => []
  l.filter fun x => x.1 != .core core

/-- Operations that have issued since this was last done offer their requests at their cores' routers. -/
def State.offerOps (s : State) : State :=
  let new := s.cores.flatMap fun (k, c) => (c.ops.filter fun o => decide (s.offered ≤ o.id)).flatMap fun o =>
    (s.requests k o).filterMap fun x => ((s.attached (.core k)).head?).map fun r => (r, k, x)
  { s with
    offered := s.nextOp, nextPacket := s.nextPacket + new.length
    offers := s.offers ++ new.zipIdx.map fun (x, i) =>
      (x.1, { id := s.nextPacket + i, src := .core x.2.1, dst := x.2.2.1, data := x.2.2.2.1
              reply := some x.2.2.2.2, suspect := false }) }

/-- Routers at which something is to do: packets in them, flits that cross their outputs, or packets offered. -/
def State.routing (s : State) : List Nat :=
  (s.routers.filterMap fun (r, x) =>
      if x.inbufs.isEmpty && x.sink.isEmpty && x.busy.all (fun b => decide (b.2 < s.cycle)) then none else some r)
    ++ ((s.offers.map (·.1)).eraseDups.filter fun r =>
        let x := s.router r
        x.inbufs.isEmpty && x.sink.isEmpty && x.busy.all fun b => decide (b.2 < s.cycle))

/-- The spoon is on its way to a router. -/
def State.spoonComes (s : State) (r : Nat) : Bool := s.agenda.any fun e => match e.2 with
  | .spoonCapture k => k == r
  | _ => false

/-- The events of the routers in a cycle (R220 to R224): packets move, a timer that has reached BLKT arms its router, the
free spoon passes an armed router within 200 cycles, and its holder moves suspect packets and puts it back. -/
def State.fabricEvents (s : State) : List (Nat × Instr) :=
  (s.routing.map fun r => (s.cycle, Instr.packetRoute r))
    ++ s.routers.flatMap fun (r, x) =>
      (if x.st == .normal && decide (s.blkt.toNat ≤ x.timer) then [(s.cycle, Instr.routerArmed r)] else [])
        ++ (if x.st == .armed && s.spoon.isNone && !s.spoonComes r then
            [(s.cycle + Config.spoonPasses r s.cycle % 200, Instr.spoonCapture r)] else [])
        ++ (if x.st == .draining then [(s.cycle, Instr.sinkLaneMove r), (s.cycle, Instr.spoonReturn r)] else [])

/-- Blocks at whose fabric ports a request of a core to an endpoint can be held back: the die that it comes from, and
those on its way to where it goes (R34). -/
def requestBlocks (core : Nat) (e : Endpoint) : List Nat :=
  let d := dieOf core
  let far (k : Nat) : List Nat := if k = d then [] else [20, k]
  d :: match e with
    | .core n => far (dieOf n)
    | .slice n => far (n / 12) ++ [8 + 3 * (n / 12) + n % 3]
    | .pantry k | .fabricIf k | .colander k => far k
    | .cellar => [20, 21]
    | .hub => [20]

/-- An event that performs a remote operation comes a cycle later: while the spoon is held, or a block at which its
requests pass is limited, and where that puts it off (R34, R162, R225; log 28, DESIGN CHOICE). -/
def State.putOff (s : State) (e : Instr) : Bool :=
  s.cores.any fun (k, c) => (eventOp k e).any fun id => (c.op id).any fun o =>
    let l := s.requests k o
    !l.isEmpty && Config.putsOff id s.cycle
      && (s.spoon.isSome || l.any fun x => (requestBlocks k x.1).any fun b => s.limited.contains b || s.hot.contains b)

/-- Events that are put off. -/
def State.postpone (s : State) : State :=
  let late (e : Nat × Instr) : Bool := decide (e.1 ≤ s.cycle) && s.putOff e.2
  (s.agenda.filter late).foldl (fun t e => t.schedule (s.cycle + 1) e.2)
    { s with agenda := s.agenda.filter fun e => !late e }

/-! ### What the firmware does (R222, R266) -/

/-- Settings of BLKT whose cycle has come: 256 at least (R222; log 108, DESIGN CHOICE). -/
def State.setBlkt (s : State) : State :=
  let now := s.blkts.filter fun x => decide (x.1 ≤ s.cycle)
  { s with
    blkt := now.foldl (fun _ x => if x.2.toNat < 256 then 256 else x.2) s.blkt
    blkts := s.blkts.filter fun x => !decide (x.1 ≤ s.cycle) }

/-- The trivet starts a die's service firmware: what it has loaded stands in memory, the service function has its tables,
and the strand begins in context 3 of the die's service core (R266, R307; log 75, DESIGN CHOICE). -/
def State.startStrand (s : State) (f : Firmware) : State :=
  if isService f.core 3 && (s.ctx f.core 3).vf == 64 && (s.ctx f.core 3).frozen then
    ((f.bytes.foldl (fun s x => s.putMem x.1 x.2) s).modVf 64 fun v => { v with ptroot := f.root, homet := f.homes }).modCtx
      f.core 3 fun c => { c with pc := f.pc &&& ~~~(3 : Word), frozen := false, lastIssue := s.cycle, safeAt := s.cycle }
  else s

/-- The strands that the trivet starts. -/
def State.startStrands (s : State) : State := { s.strands.foldl State.startStrand s with strands := [] }

/-! ### Package reset and the sideband -/

/-- A harvest map that R21 allows: at most eight slices; slice-strip routers only, at most two a strip, and
at most two of a die's four at row 7. -/
def harvestOk (disabled harvested : List Nat) : Bool :=
  let strip (r : Nat) : Nat := rDie r * 16 + rPos r
  disabled.eraseDups.length == disabled.length && decide (disabled.length ≤ 8) && disabled.all (· < 48)
    && harvested.eraseDups.length == harvested.length
    && harvested.all (fun r => decide (r < 512) && slicePos.contains (rPos r)
      && decide ((harvested.filter fun x => strip x == strip r).length ≤ 2)
      && decide ((harvested.filter fun x => rDie x == rDie r && rRow x == 7).length ≤ 2))

/-- The part number (00_scope). -/
def partNumber : String := "LNT9-B1536"

/-- PACKAGE_RESET: boot with a harvest map (R21, R226, R267). Where the firmware image does not verify, nothing starts:
the ports stay down, and the sideband reports it (log 75, DESIGN CHOICE). What lies outside the package stays: other
packages' and host memory, and the model's own supplies of free values. -/
def execPackageReset (disabled harvested : List Nat) (s : State) : Res :=
  if harvestOk disabled harvested then
    let ok := Config.bootVerifies s.boots
    .next { (if ok then State.reset else {}) with
      pkg := s.pkg, disabled, harvested, delays := s.delays, places := s.places, images := s.images
      frames := s.frames, strands := s.strands, blkts := s.blkts
      mem := s.mem.filter fun c => decide (2 ^ 52 ≤ c.1), hostMem := s.hostMem
      hostReplies := s.hostReplies, hot := s.hot, up := ok, boots := s.boots + 1, sideband := { booted := ok } }
  else .next s

/-- SIDEBAND_REFRESH: identity, the draws of R33's six block rows, the blocks' temperatures, boot status. -/
def execSidebandRefresh (draws temps : List Nat) (s : State) : Res :=
  .next (if drawsOk draws && temps.length == blocks then
      { s with sideband := { s.sideband with part := partNumber, serial := Config.serialNumber, draws, temps } }
    else s)

end Sys2Proof.Machine
end

