-- ==== Sys2Proof/Machine/Events.lean ====
section
/-! DEFINITION. Events of a core that complete what words began: LOAD_WRITEBACK, STORE_PERFORM,
REMOTE_BUFFER_ACCESS (R76, R140, R183 to R186, R376, R378, R411, R413), DESTINATION_READY (R353, R421) and
PACKET_FETCH (R251). -/

namespace Sys2Proof.Machine

/-- A load's bytes, as they stand at their places, reach its destination, and it retires. -/
def State.landLoad (s : State) (core : Nat) (op : Op) (dst : LoadTo) (src : List Src) : State :=
  (s.writeLoad core op.ctx op.id dst (src.map s.getSrc)).retireOp core op

/-- ORBLD.d's check, and its register (R140): a descriptor of rank 0, whose every other field is zero
(R130), clears it (log 33, DEDUCED). -/
def State.landDescr (s : State) (core : Nat) (op : Op) (o : Fin 8) (d : Block64) : State :=
  let s := { s.retireOp core op with cur := core, cix := op.ctx }
  if d = 0 || descOk d then (s.modMe fun c => c.landOp op.id fun r => r.wo o d).checkDone 2 none
  else s.checkDone 2 (some (.orbitRange, orbitInfo 1 0))

/-- LOAD_WRITEBACK. -/
def execLoadWriteback (core id : Nat) (s : State) : Res :=
  match (s.core core).op id with
  | some op => match op.what with
    | .settled => .next (s.retireOp core op)
    | .load dst src => .next (s.landLoad core op dst src)
    | .descr o d => .next (s.landDescr core op o d)
    | .post d src a => .next (s.landPost core op d src a)
    | _ => .next s
  | none => .next s

/-- STORE_PERFORM: a queued store performs once no earlier one of its core to its lines is in flight and no check of
its bundle is pending; a local store's count falls once it is no longer held (R182, R186, R245). -/
def execStorePerform (core id : Nat) (s : State) : Res :=
  let c := s.core core
  match c.op id with
  | some op => match op.what with
    | .settled =>
        .next (if c.held.any fun h => h.store == id then s.schedule (s.cycle + 1) (.storePerform core id)
          else s.retireOp core op)
    | .store ga b =>
        .next (if c.behind op || s.opHeld core op then s.schedule (s.cycle + 1) (.storePerform core id)
          else (s.putMem ga b).retireOp core op)
    | _ => .next s
  | none => .next s

/-- Cycles from the last reply to the writing of a destination (R378). -/
def LoadTo.late : LoadTo → Nat
  | .tx .. => 12
  | _ => 0

/-- A load of another core's buffer has read its bytes there: they go back in the reply (R183, R378). -/
def State.serveLoad (s : State) (core : Nat) (op : Op) (dst : LoadTo) (src : List Src) : State :=
  (((s.setOp core { op with what := .load dst (src.map fun b => .known (s.getSrc b)) }).schedule
    (s.cycle + s.latency none + dst.late) (.loadWriteback core op.id))).dropDelay

/-- REMOTE_BUFFER_ACCESS: a load or store of another core's buffer is served at its scratchpad, a store once no check
of its bundle is pending (R185, R245, R413). -/
def execRemoteBufferAccess (core id : Nat) (s : State) : Res :=
  match (s.core core).op id with
  | some op => match op.what with
    | .load dst src => .next (s.serveLoad core op dst src)
    | .bufStore k off b =>
        .next (if s.opHeld core op then s.schedule (s.cycle + 1) (.remoteBufferAccess core id)
          else (s.putScr k off b).retireOp core op)
    | _ => .next s
  | none => .next s

/-- DESTINATION_READY: marks of a register whose cycle has come are cleared. -/
def execDestinationReady (core : Nat) (ix : Fin 4) (r : RegName) (s : State) : Res :=
  .next (s.modCtx core ix fun c => { c with
    sb := c.sb.filter fun x => !(x.1 == r && x.2.any fun t => decide (t ≤ s.cycle)) })

/-- What a fetch of the packet of an address gives: its words, or the lowest REASON of FETCH_FAULT (R251). -/
def State.fetchPacket (s : State) (vf : Nat) (a : Word) : List Code ⊕ BitVec 2 :=
  let p := (packetOf a).toNat
  if 2 ^ 56 ≤ p ∨ s.leasedX vf p = false then .inr 0
  else match s.xlate vf p with
  | none =>
      if (s.vf vf).any fun f => !s.entryX p [0, 1, 2, 3, 4] f.ptroot.toNat then .inr 1 else .inr 2
  | some l => if !l.x then .inr 1
    else match s.vread vf p 64 with
      | some b => .inl (packetWords b)
      | none => .inr 2

/-- Packets that an instruction cache holds: 128 KiB (R29). -/
def icachePackets : Nat := 2048

/-- A packet that has been fetched stands in the core's instruction cache as its newest (R29; log 97, DESIGN CHOICE). -/
def Core.cache (c : Core) (vf : Nat) (a : Word) (ws : List Code) : Core :=
  { c with icache := ((vf, a, ws) :: c.icache.filter fun x => !(x.1 == vf && x.2.1 == a)).take icachePackets }

/-- A context has to fetch the packet of its next bundle. -/
def Ctx.needsFetch (c : Ctx) : Bool := c.task && (c.pktOf c.pc).isNone && c.badFetch.isNone

/-- PACKET_FETCH. -/
def execPacketFetch (core : Nat) (ix : Fin 4) (s : State) : Res :=
  let c := s.ctx core ix
  if c.needsFetch then
    .next (match s.fetchPacket c.vf c.pc with
      | .inl ws => (s.modCore core fun k => k.cache c.vf (packetOf c.pc) ws).modCtx core ix fun c =>
          { c with packet := some (packetOf c.pc, ws) }
      | .inr k => s.modCtx core ix fun c => { c with badFetch := some k })
  else .next s

end Sys2Proof.Machine
end

