-- ==== Sys2Proof/Machine/Bundle.lean ====
section
/-! DEFINITION. Bundles: their words, header and tags (R326 to R332), the decode causes in order (R246,
R333, R249, R381, R382), and what each word reads, writes and touches, for the scoreboards, the counters
and the fences (R10, R76, R173, R188, R190). -/

namespace Sys2Proof.Machine

/-! ### Words and their header (R326, R329) -/

/-- A slot word of a bundle as fetched: its index with the header counted, its path tag, its group. -/
structure Raw where
  ix : Nat
  code : Code
  tag : Nat
  ext : Ext
  deriving DecidableEq, Repr

/-- A decoded word with its path tag. -/
structure BWord where
  slot : Slot
  tag : Nat
  deriving DecidableEq, Repr

/-- The header of a bundle, if it has one. -/
def headerOf (ws : List Code) : Option Code :=
  match ws with
  | w :: _ => if classOf w = 0 then some w else none
  | [] => none

/-- Tag and group k of a header. -/
def hdrTag (h : Code) (k : Nat) : Nat := (h.extractLsb' (24 - 3 * k) 3).toNat
def hdrExt (h : Code) (k : Nat) : BitVec 6 := h.extractLsb' (12 - 6 * k) 6

/-- The slot words of a bundle of at most four words. -/
def rawWords (ws : List Code) : List Raw :=
  match headerOf ws with
  | some h => ws.tail.zipIdx.map fun (w, k) => ⟨k + 1, w, hdrTag h k, some (hdrExt h k)⟩
  | none => ws.zipIdx.map fun (w, k) => ⟨k, w, 0, none⟩

def opOf (w : Code) : Nat := (fld w 22 6).toNat

/-- An SCL control transfer: BR, BTREE, JMP, CALL, RET or BKSEL (R359). -/
def isTransfer (w : Code) : Bool := classOf w == 1 && [0x20, 0x21, 0x22, 0x23, 0x24, 0x28].contains (opOf w)
def isBtree (w : Code) : Bool := classOf w == 1 && opOf w == 0x21
def isLoop (w : Code) : Bool := classOf w == 1 && (opOf w == 0x26 || opOf w == 0x27)
def isEret (w : Code) : Bool := classOf w == 6 && opOf w == 0x0C

/-- A trap found before a bundle executes. -/
abbrev Early := Cause × Word

def illBundle (ix : Nat) (w : Code) (reason : Nat) : Option Early := some (.illBundle, layoutW ix w reason)

/-- ILL_BUNDLE with the lowest REASON (R332); pkt holds the words of the packet after the bundle. Reason 8
is judged before a bundle is formed. -/
def bundleFault (ws after : List Code) : Option Early :=
  let w0 := ws.headD 0
  let raws := rawWords ws
  let hdr := headerOf ws
  let beyond (k : Nat) : Bool := decide (raws.length ≤ k)
  let lack := hdr.any fun h => [0, 1, 2].any fun k => beyond k && (hdrTag h k != 0 || hdrExt h k != 0)
  let badTag := hdr.any fun h => [0, 1, 2].any fun k => decide (5 < hdrTag h k)
  let tagged := raws.any fun r => r.tag != 0
  let btree := raws.any fun r => isBtree r.code
  let tree := raws.any fun r => isBtree r.code && r.tag != 0
  if 4 < ws.length then illBundle 0 w0 1
  else match ws.tail.zipIdx.find? fun x => classOf x.1 == 0 with
  | some (w, k) => illBundle (k + 1) w 2
  | none =>
    if hdr.isSome && raws.isEmpty then illBundle 0 w0 3
    else if lack then illBundle 0 w0 4
    else if badTag then illBundle 0 w0 5
    else if (tagged && !btree) || tree then illBundle 0 w0 6
    else if after.headD 1 == 0 && after.any (· != 0) then illBundle 0 w0 7
    else if raws.any fun r => isTransfer r.code then
      match raws.find? fun r => isEret r.code with
      | some r => illBundle r.ix r.code 9
      | none => none
    else none

/-- CLASS_ORDER at the first word whose class is not above the one before it (R327). -/
def orderFault : Nat → List Raw → Option Early
  | _, [] => none
  | p, r :: t =>
      if classOf r.code ≤ p then some (.classOrder, layoutW r.ix r.code) else orderFault (classOf r.code) t

/-- Decoding each word; ILL_SLOT or ILL_MOD of the first offending one (R346, R381). -/
def decodeWords (c : Ctx) : List Raw → Except Early (List BWord)
  | [] => .ok []
  | r :: t =>
      match decodeWord r.ext r.code with
      | .error .illMod => .error (.illMod, layoutW r.ix r.code)
      | .error _ => .error (.illSlot, layoutW r.ix r.code)
      | .ok i =>
          let bad := match i with
            | .lnext _ d => c.lnextBad d
            | _ => false
          if bad then .error (.illMod, layoutW r.ix r.code)
          else (decodeWords c t).map fun l => ⟨⟨r.ix, r.code, i⟩, r.tag⟩ :: l

/-! ### Registers of a word (R10, R333) -/

def addrReads : Addr → List RegName
  | .scr x _ | .buf x _ => [.s x]
  | .hnd n x _ => [.h n, .s x]

def maskReads (m : VMod) : List RegName := if m.msk = 0 then [] else [.m m.msk]

def movName : MovReg → RegName
  | .s n => .s n
  | .b n => .b n

/-- Registers that a word reads. -/
def Instr.reads : Instr → List RegName
  | .add _ a b | .sub _ a b | .mul _ a b | .mulh _ a b _ | .div _ a b _ | .rem _ a b _ | .and _ a b
  | .or _ a b | .xor _ a b | .andn _ a b | .shl _ a b | .shr _ a b | .sra _ a b | .min _ a b _
  | .max _ a b _ | .cmp _ a b _ _ => [.s a, .s b]
  | .clz _ a | .popc _ a | .addi _ a _ | .cmpi _ a _ _ _ => [.s a]
  | .lih d _ => [.s d]
  | .mov _ a => [movName a]
  | .sel _ p a b => [.p p, .s a, .s b]
  | .plog _ a b _ => [.p a, .p b]
  | .br _ p _ => [.p p]
  | .btree t0 t1 t2 t3 _ b _ =>
      [.p t0, .p t1, .p t2, .p t3] ++ (List.range 5).map fun k => .b (Fin.ofNat 8 (b.val + k))
  | .ret b => [.b b]
  | .loop c _ | .lpstg c _ _ => [.s c]
  | .bksel _ a t => [.s a, .s t]
  | .ld _ _ a | .ldv _ a | .ldt _ a | .sqld a => addrReads a
  | .st v _ a => .s v :: addrReads a
  | .stv v a => .v v :: addrReads a
  | .stt t a => .t t :: addrReads a
  | .ldtx _ p _ x _ _ => [.s p, .s x]
  | .lde _ _ _ x _ => [.s x]
  | .ste v _ x _ => [.s v, .s x]
  | .feset _ l x _ => [.s l, .s x]
  | .trans _ a => [.s a]
  | .htest _ _ h => [.h h]
  | .orbldD _ x _ => [.s x]
  | .orbldTile _ o a b | .orbofs _ o a b => [.o o, .s a, .s b]
  | .orbstScalar o a b v => [.o o, .s a, .s b, .s v]
  | .orbstTile _ o t a b => [.o o, .t t, .s a, .s b]
  | .orbx o x _ => [.o o, .s x]
  | .amo _ _ _ v x h => [.s v, .s x, .h h]
  | .cas z d v x h =>
      [.s d, .s v, .s x, .h h] ++ if z = .pair then [.s (d + 1), .s (v + 1)] else []
  | .bgive b t => [.s b, .s t]
  | .btake b => [.s b]
  | .vadd _ a b _ m | .vsub _ a b _ m | .vmul _ a b _ m | .vdiv _ a b _ m | .vmin _ a b _ m
  | .vmax _ a b _ m | .vclamp _ a b _ m | .vcmp _ a b _ _ m | .vsel _ a b _ m | .vand _ a b _ m
  | .vor _ a b _ m | .vxor _ a b _ m | .vshl _ a b _ m | .vshr _ a b _ m | .vsra _ a b _ m
  | .vscan _ a b _ _ m | .vred _ a b _ _ m | .vperm _ a b _ m | .vwadd _ a b _ _ m
  | .vwmul _ a b _ _ m | .vwmac _ a b _ _ m => [.v a, .v b] ++ maskReads m
  | .vfma _ a b c _ m => [.v a, .v b, .v c] ++ maskReads m
  | .vsqrt _ a _ m | .vrcp _ a _ m | .vrsq _ a _ m | .vexp2 _ a _ m | .vlog2 _ a _ m
  | .vabs _ a _ m | .vneg _ a _ m | .vcvt _ a _ _ _ m | .vqnt _ a _ _ _ m | .vmov _ a _ m =>
      .v a :: maskReads m
  | .vmlog _ a b _ => [.m a, .m b]
  | .vdeq _ a b _ _ m | .vbcast _ a b _ m => [.v a, .s b] ++ maskReads m
  | .vsplat _ a _ m => .s a :: maskReads m
  | .vext _ a b _ => [.v a, .s b]
  | .vins _ a b _ => [.s a, .s b]
  | .viota _ _ m => maskReads m
  | .mcfgOrb a b c _ => (a.toList ++ b.toList ++ c.toList).map .o
  | .mmask a b c => [.s a, .s b, .s c]
  | .mpush t => [.t t]
  | .mbeat _ _ t x _ => .s x :: (t.toList.map .t)
  | .maccReg x | .mzeroReg x | .mdrainReg _ _ x => [.s x]
  | .cpy _ x _ _ => [.s x]
  | .cpyToMemory _ h x _ | .cpyFromMemory _ h x _ => [.s x, .h h]
  | .cpy2d dir h a b g => [.s a, .s b, .s g] ++ if dir = .scrScr then [] else [.h h]
  | .cplid c l x _ _ => [.s c, .s l, .s x]
  | .acopy _ a x _ => [.s a, .s x]
  | .gath _ h x _ _ _ | .scat _ h x _ _ _ => [.s x, .h h]
  | .fopen _ _ _ x _ => [.s x]
  | .fadv _ f _ _ | .fend _ f | .fpos _ f => [.f f]
  | .sopen _ a l k => [.s a, .s l, .s k]
  | .snext _ q | .stend _ q => [.q q]
  | .cut _ _ k a => [.k k, .s a]
  | .cutp _ _ p k a => [.k p, .k k, .s a]
  | .cutb _ _ _ k => [.k k]
  | .cqpop _ x _ | .cqrpl _ x _ => [.s x]
  | .xmit _ r _ => [xregName r]
  | .phase x _ | .lninit x _ | .dgst x _ => [.s x]
  | .spawn r => [.s r]
  | .susp w => [.s w]
  | .jcbadd j a => [.s j, .s a]
  | .mts r _ => [.s r]
  | .cpost _ h x _ => [.s x, .h h]
  | .cwait _ t => [.s t]
  | _ => []

/-- Registers that a word names as destinations; nl is the loop count of the open nest (R333). -/
def Instr.writes (nl : Nat) : Instr → List RegName
  | .add d _ _ | .sub d _ _ | .mul d _ _ | .mulh d _ _ _ | .div d _ _ _ | .rem d _ _ _ | .and d _ _
  | .or d _ _ | .xor d _ _ | .andn d _ _ | .shl d _ _ | .shr d _ _ | .sra d _ _ | .min d _ _ _
  | .max d _ _ _ | .clz d _ | .popc d _ | .addi d _ _ | .li d _ | .lih d _ | .sel d _ _ _
  | .bksel d _ _ => [.s d]
  | .mov d _ => [movName d]
  | .cmp p _ _ _ _ | .cmpi p _ _ _ _ | .plog p _ _ _ => [.p p]
  | .call l _ => [.b l]
  | .setb b _ => [.b b]
  | .lpstg _ _ _ => (List.range 8).map fun k => .p (Fin.ofNat 16 (8 + k))
  | .ld d _ _ | .lde _ d _ _ _ | .htest _ d _ | .orbofs d _ _ _ | .amo _ _ d _ _ _ | .publish d => [.s d]
  | .ldv d _ => [.v d]
  | .ldt d _ | .ldtx d _ _ _ _ _ | .orbldTile d _ _ _ => [.t d]
  | .trans h _ => [.h h]
  | .orbldD o _ _ => [.o o]
  | .cas z d _ _ _ => .s d :: if z = .pair then [.s (d + 1)] else []
  | .vadd d _ _ _ _ | .vsub d _ _ _ _ | .vmul d _ _ _ _ | .vfma d _ _ _ _ _ | .vdiv d _ _ _ _
  | .vsqrt d _ _ _ | .vrcp d _ _ _ | .vrsq d _ _ _ | .vexp2 d _ _ _ | .vlog2 d _ _ _
  | .vmin d _ _ _ _ | .vmax d _ _ _ _ | .vabs d _ _ _ | .vneg d _ _ _ | .vclamp d _ _ _ _
  | .vsel d _ _ _ _ | .vand d _ _ _ _ | .vor d _ _ _ _ | .vxor d _ _ _ _ | .vshl d _ _ _ _
  | .vshr d _ _ _ _ | .vsra d _ _ _ _ | .vcvt d _ _ _ _ _ | .vdeq d _ _ _ _ _
  | .vscan d _ _ _ _ _ | .vred d _ _ _ _ _ | .vperm d _ _ _ _ | .vbcast d _ _ _ _
  | .vsplat d _ _ _ | .vins d _ _ _ | .vmov d _ _ _ | .viota d _ _ | .vwadd d _ _ _ _ _
  | .vwmul d _ _ _ _ _ | .vwmac d _ _ _ _ _ => [.v d]
  | .vqnt d _ b _ _ _ => [.v d, .s b]
  | .vcmp d _ _ _ _ _ => [.m d]
  | .vmlog d _ _ _ => [.m d]
  | .vext d _ _ _ => [.s d]
  | .mdrain _ t _ => [.t t]
  | .mdrainReg _ t _ => [.t t]
  | .fopen _ _ f _ _ => [.f f]
  | .fadv _ f c v => [.s c, .s v, .f f]
  | .fend d _ => [.p d]
  | .fpos d _ => [.s d]
  | .fclose f => [.f f]
  | .sopen q _ _ _ => [.q q]
  | .snext d q => [.v d, .q q]
  | .stend d _ => [.p d]
  | .sclose q => [.q q]
  | .cut _ d k _ => [.p d, .k k]
  | .cutp _ d p _ _ => [.p d, .k p]
  | .cutb _ a b _ => [.s a, .s b]
  | .cqpop d _ _ => [.p d]
  | .imsel _ r _ => [xregName r]
  | .mfs d _ | .cpost d _ _ _ | .cwait d _ => [.s d]
  | .lnext p d => .p p :: (List.range nl).map fun k => .s (Fin.ofNat 32 (d.val + k))
  | _ => []

/-- File and number of a register that DUP_WRITE counts (R333). -/
def dupKey : RegName → Option Nat
  | .s n => if n = 0 then none else some n.val
  | .p n => if n = 0 then none else some (256 + n.val)
  | .v n => some (512 + n.val)
  | .m n => some (768 + n.val)
  | .t n => some (1024 + n.val)
  | .h n => some (1280 + n.val)
  | _ => none

/-- The lowest key of a list that holds in another. -/
def lowestIn (a b : List Nat) : Option Nat :=
  (a.filter b.contains).foldl (fun m k => match m with
    | some x => some (min x k)
    | none => some k) none

/-- The lowest key that occurs twice. -/
def lowestTwice : List Nat → Option Nat
  | [] => none
  | k :: t => match lowestTwice t with
    | some x => if t.contains k then some (min x k) else some x
    | none => if t.contains k then some k else none

/-- DUP_WRITE (R333): seen holds the index and keys of the words before, in order. -/
def dupFault (nl : Nat) : List (Nat × List Nat) → List BWord → Option Early
  | _, [] => none
  | seen, w :: t =>
      let keys := (Instr.writes nl w.slot.instr).filterMap dupKey
      let info (first key : Nat) : Early :=
        (.dupWrite, BitVec.ofNat 64 (w.slot.ix * 2 ^ 16 + first * 2 ^ 12 + key))
      match seen.findSome? fun x => (lowestIn keys x.2).map (info x.1) with
      | some e => some e
      | none => match lowestTwice keys with
        | some k => some (info w.slot.ix k)
        | none => dupFault nl (seen ++ [(w.slot.ix, keys)]) t

/-- ILL_MOD of a delay bundle at an active loop's end, which names its first slot word (R382; log 29, DEDUCED). -/
def Ctx.atLoopEnd (c : Ctx) : Bool :=
  c.loop.kind != 0 && c.pc == c.loop.lend && !c.regs.ecause.getLsbD 7

def Ctx.delayFault (c : Ctx) (raws : List Raw) : Option Early :=
  if c.delay.isNone then none
  else if raws.any fun r => isTransfer r.code || isLoop r.code || isEret r.code then some (.delayBranch, 0)
  else if c.atLoopEnd then some (.illMod, layoutW (raws.head?.elim 0 (·.ix)) (raws.head?.elim 0 (·.code)))
  else none

/-- The loop count of the open nest. -/
def Ctx.nl (c : Ctx) : Nat := c.seq.elim 0 fun q => declNl q.decl

/-- The bundle at pc as decoded, or its decode trap (R246, step 3). -/
def Ctx.decodeBundle (c : Ctx) (pkt : List Code) : Except Early (List BWord) :=
  let ws := bundleIn pkt c.pc
  let raws := rawWords ws
  match bundleFault ws (pkt.drop (wordIx c.pc + ws.length)) with
  | some e => .error e
  | none => match orderFault 0 raws with
    | some e => .error e
    | none => match decodeWords c raws with
      | .error e => .error e
      | .ok l => match dupFault c.nl [] l with
        | some e => .error e
        | none => match c.delayFault raws with
          | some e => .error e
          | none => .ok l

/-! ### What a word counts on, and its kinds -/

/-- The counter on which a word counts (R76). -/
def Instr.counter : Instr → Option Ctr
  | .ld .. | .ldv .. | .ldt .. | .ldtx .. | .lde .. | .sqld .. | .orbldD .. | .orbldTile .. | .fopen ..
  | .fadv .. | .snext .. | .cut .. | .cutp .. => some .ld
  | .st .. | .stv .. | .stt .. | .ste .. | .orbstScalar .. | .orbstTile .. | .amo .. | .cas ..
  | .cqpop .. => some .st
  | .cpy .. | .cpyToMemory .. | .cpyFromMemory .. | .cpy2d .. | .cplid .. | .acopy .. => some .cp
  | .gath .. | .scat .. | .orbx .. => some .tl
  | _ => none

/-- The kinds of a word's accesses (R188, R200). -/
def Instr.kinds : Instr → BitVec 8
  | .ld .. | .ldv .. | .ldt .. | .ldtx .. | .lde .. | .sqld .. | .orbldD .. | .orbldTile .. | .fopen ..
  | .fadv .. | .snext .. | .cut .. | .cutp .. => kLd
  | .st .. | .stv .. | .stt .. | .ste .. | .feset .. | .orbstScalar .. | .orbstTile .. | .cqpop .. => kSt
  | .amo .. | .cas .. => kLd ||| kSt
  | .cpy .. | .cpyToMemory .. | .cpyFromMemory .. | .cpy2d .. | .cplid .. | .orbx .. => kCr ||| kCw
  | .acopy inward _ _ _ => if inward then kMr else kMw
  | .gath .. | .scat .. => kGr ||| kGw
  | _ => 0

/-- Words that access memory or pantry objects without a kind: a DRAIN holds them too (R183, R190;
log 30, DEDUCED). -/
def Instr.access : Instr → Bool
  | .bar .. | .bara .. | .jcbadd .. | .spawn .. | .cpost .. | .cqrpl .. | .phase .. | .dgst .. | .lninit ..
  | .bksel .. => true
  | i => Instr.kinds i != 0

/-- FENCE, DRAIN, PUBLISH and PHASE (R62). -/
def Instr.isFence : Instr → Bool
  | .fence .. | .drain .. | .publish .. | .phase .. => true
  | _ => false

/-- Words that the orbit unit serves (R135). -/
def Instr.usesUnit : Instr → Bool
  | .orbldD .. | .orbldTile .. | .orbstScalar .. | .orbstTile .. | .orbofs .. | .orbx .. => true
  | _ => false

/-- Range-scoreboard entries that a word takes (R173, R208). -/
def Instr.entries : Instr → Nat
  | .cpy .. | .gath .. | .scat .. => 2
  | .cpyToMemory .. | .cpyFromMemory .. | .cplid .. | .acopy .. | .orbx .. => 1
  | .cpy2d dir _ _ _ _ => if dir = .scrScr then 2 else 1
  | _ => 0

/-! ### Scratchpad ranges of a word (R173) -/

/-- The own scratchpad range of a placed access. -/
def Place.range (p : Place) (n : Nat) (wr : Bool) : List Rng :=
  match p with
  | .here off => [⟨off, off + n, wr⟩]
  | _ => []

def rng (o n : Nat) (wr : Bool) : List Rng := if n = 0 then [] else [⟨o, o + n, wr⟩]

/-- Bytes of the own scratchpad that a word of the executing context reads or writes; those of the words whose bits a
FESET sets are among them, since it is a write of a MEM word (R188; log 111, DEDUCED). -/
def State.touches (s : State) : Instr → List Rng
  | .ld _ ty a => (s.place a (stySize ty) (stySize ty)).range (stySize ty) false
  | .st _ ty a => (s.place a (stySize ty) (stySize ty)).range (stySize ty) true
  | .ldv _ a => (s.place a 256 256).range 256 false
  | .stv _ a => (s.place a 256 256).range 256 true
  | .ldt _ a => (s.place a 2048 2048).range 2048 false
  | .stt _ a => (s.place a 2048 2048).range 2048 true
  | .ldtx _ p buf x z imm =>
      let n := 128 * 2 ^ z.val
      let h := s.rs x
      let base := if buf then bufNum h * 65536 else 0
      if buf && bufStrip h != stripOf s.cur then []
      else (ldtxLines (2 ^ z.val) (s.ldtxAt buf x (imm.toNat * 512)) (s.rs p).toNat).flatMap fun l =>
        rng (base + l) n false
  | .lde _ _ buf x imm =>
      let (core, off) := s.fePlace buf x imm
      if core = s.cur then rng off 8 false else []
  | .ste _ buf x imm =>
      let (core, off) := s.fePlace buf x imm
      if core = s.cur then rng off 8 true else []
  | .feset _ l x imm => rng (s.scrOff x (imm.toNat * 8) 8) (fesetLen (s.rs l)) true
  | .sqld a => (s.place a 64 64).range 192 false
  | .orbldD _ x imm => rng (s.orbOff x imm.toNat) 64 false
  | .orbldTile _ o a b =>
      let d := descOf (s.oreg o)
      (s.orbldReads d a b).flatMap fun p => rng p d.size false
  | .orbstScalar o a b _ =>
      let d := descOf (s.oreg o)
      let r := d.orbitRep (s.tuple d a b)
      if r.sign = 0 then [] else rng (d.at r.off) d.size true
  | .orbstTile chk o _ a b =>
      let d := descOf (s.oreg o)
      (s.orbstReads d chk a b).flatMap (fun p => rng p d.size false)
        ++ (s.orbstWrites d a b).flatMap fun p => rng (d.at p.2.off) d.size true
  | .orbx o x imm =>
      let d := descOf (s.oreg o)
      d.allReads.flatMap (fun p => rng p d.size false) ++ rng (s.orbxDst x imm) (d.total * d.size) true
  | .cqpop _ x imm => if (s.die (dieOf s.cur)).unpopped.isSome then rng (s.cqOff x imm.toNat) 32 true else []
  | .cqrpl _ x imm => rng (s.cqOff x imm.toNat) 32 false
  | .fopen _ _ _ x imm => rng (s.fopenOff x imm) 32 false
  | .cpy lg x di si => rng (s.cpyOff lg x si.toNat) (2 ^ lg.val) false ++ rng (s.cpyOff lg x di.toNat) (2 ^ lg.val) true
  | .cpyToMemory lg _ x si => rng (s.cpyOff lg x si.toNat) (2 ^ lg.val) false
  | .cpyFromMemory lg _ x si => rng (s.cpyOff lg x si.toNat) (2 ^ lg.val) true
  | .cpy2d dir _ a b g =>
      let ge := geoOf (s.rs g)
      (if dir = .memScr then [] else rng (s.scrStart b) (ge.span ge.sp) false)
        ++ if dir = .scrMem then [] else rng (s.scrStart a) (ge.span ge.dp) true
  | .cplid _ _ x lg imm => rng (s.cpyOff lg x imm.toNat) (2 ^ lg.val) false
  | .acopy inward a x imm =>
      let w := awinOf (s.rs a)
      rng (s.acopyOff x imm) (4 * w.nr * w.nc) (!inward)
  | .gath z _ x ii di n1 =>
      let (l, d) := s.gathOffs x ii di
      let n := n1.toNat + 1
      rng l (8 * n) false ++ rng d (2 ^ z.val * n) true
  | .scat z _ x ii di n1 =>
      let (l, d) := s.gathOffs x ii di
      let n := n1.toNat + 1
      rng l (8 * n) false ++ rng d (2 ^ z.val * n) false
  | _ => []

/-- A word of the executing context must wait for the range scoreboard. -/
def State.rangeStall (s : State) (i : Instr) : Bool :=
  (s.touches i).any fun r => s.myCore.conflict r.lo r.hi r.wr

end Sys2Proof.Machine
end

