-- ==== Sys2Proof/Machine/Give.lean ====
section
/-! DEFINITION. Giving buffers: BGIVE and BTAKE (R167 to R169, R245). -/

namespace Sys2Proof.Machine

/-- The own range of a held buffer, or the other core's. -/
def State.bufCore (s : State) (h : Word) : Nat := s.rowCore (bufStrip h)

/-- Words of an issued bundle of a context that have yet to run: they stay behind a check of it. -/
def Ctx.issuedRest (c : Ctx) : List Slot := if c.undo.isSome || c.sure then c.deferred.getD [] else []

/-- The bucket table that a BKSEL of a context has yet to read (R358). -/
def State.tableRange (s : State) (core : Nat) (c : Ctx) : List Rng :=
  match c.bksel with
  | some (_, _, t, _) =>
      let o := bkselOff t
      [⟨o, o + 8 + 16 * bitsOf (s.scr64 core o) 0 8, false⟩]
  | none => []

/-- A block of entries that a PHASE or a DGST reads, or a declaration that an LNINIT reads. -/
def State.blockRange (s : State) : Instr → List Rng
  | .phase x imm | .dgst x imm =>
      let o := s.phaseOff x imm
      [⟨o, o + 8 + 8 * (s.blockCount o).getD 0, false⟩]
  | .lninit x imm => [⟨s.lninitOff x imm, s.lninitOff x imm + 64, false⟩]
  | _ => []

/-- Ranges of the own scratchpad that issued words of a context have yet to read or write (R167, R245). -/
def State.yetTouched (s : State) (core : Nat) (i : Fin 4) : List Rng :=
  let t := { s with cur := core, cix := i }
  s.tableRange core t.me ++ t.me.issuedRest.flatMap fun w => t.touches w.instr ++ t.blockRange w.instr

/-- An access of the core's engines to a byte of a buffer has not performed (R167). -/
def State.bufBusy (s : State) (h : Word) : Bool :=
  let core := s.bufCore h
  let lo := bufNum h * 65536
  let inside (l : Loc) : Bool := match l with
    | .scr k o => k == core && decide (lo ≤ o) && decide (o < lo + 65536)
    | _ => false
  let own (r : Rng) : Bool := overlap r.lo r.hi lo (lo + 65536)
  (core == s.cur && (s.myCore.conflict lo (lo + 65536) true
      || (s.myCore.held.any fun h => h.mark.any fun m => overlap (8 * m.1) (8 * m.1 + 8 * m.2.1) lo (lo + 65536))
      || allCtx.any fun i => i != s.cix && (s.yetTouched s.cur i).any own))
    || s.myCore.ops.any fun o => match o.what with
      | .load _ src => src.any fun x => match x with | .place l => inside l | .known _ => false
      | .bufStore k off b => k == core && overlap lo (lo + 65536) off (off + b.length)
      | .fullEmpty _ _ _ _ _ _ (.served _) => false
      | .fullEmpty _ _ k off _ _ _ => k == core && overlap lo (lo + 65536) off (off + 8)
      | _ => false

/-- BGIVE's traps and its wait (R167). A malformed handle names no buffer, so reason 2 comes first
(log 15, DEDUCED). -/
def State.bgiveOk (s : State) (b t : Fin 32) : Verdict :=
  let h := s.rs b
  let st := bufStrip h
  (trapIf (bufBad h) .bufOwner (ownerInfo 2 st (bufNum h))).and
  ((trapIf (decide (12 ≤ (s.rs t).toNat)) .bufOwner (ownerInfo 2 st (bufNum h))).and
  ((trapIf (!s.holds s.cur st (bufNum h)) .bufOwner (ownerInfo 1 st (bufNum h))).and
    (waitIf (s.bufBusy h))))

/-- BGIVE (R167). -/
def execBgive (b t : Fin 32) (s : State) : Res :=
  s.guard (s.bgiveOk b t) fun s =>
    let h := s.rs b
    s.setHold (rowOf s.cur) (bufStrip h) (bufNum h) (.transit (s.rs t).toNat)

/-- BTAKE's trap and its wait (R168). -/
def State.btakeOk (s : State) (b : Fin 32) : Verdict :=
  let h := s.rs b
  (trapIf (bufBad h) .bufOwner (ownerInfo 2 (bufStrip h) (bufNum h))).and
    (waitIf (!s.holds s.cur (bufStrip h) (bufNum h)
      && s.holdOf (rowOf s.cur) (bufStrip h) (bufNum h) != .transit (stripOf s.cur)))

/-- BTAKE (R168). -/
def execBtake (b : Fin 32) (s : State) : Res :=
  s.guard (s.btakeOk b) fun s =>
    let h := s.rs b
    s.setHold (rowOf s.cur) (bufStrip h) (bufNum h) (.held (stripOf s.cur))

end Sys2Proof.Machine
end

