-- ==== Sys2Proof/Machine/Dispatch.lean ====
section
/-! DEFINITION. One arm per instruction and event: its meaning. -/

namespace Sys2Proof.Machine

def exec (i : Instr) (s : State) : Host.Outcome State Fault Refusal :=
  match i with
  | .add d a b => Sys2Proof.Machine.execAdd d a b s
  | .sub d a b => Sys2Proof.Machine.execSub d a b s
  | .mul d a b => Sys2Proof.Machine.execMul d a b s
  | .mulh d a b u => Sys2Proof.Machine.execMulh d a b u s
  | .div d a b u => Sys2Proof.Machine.execDiv d a b u s
  | .rem d a b u => Sys2Proof.Machine.execRem d a b u s
  | .and d a b => Sys2Proof.Machine.execAnd d a b s
  | .or d a b => Sys2Proof.Machine.execOr d a b s
  | .xor d a b => Sys2Proof.Machine.execXor d a b s
  | .andn d a b => Sys2Proof.Machine.execAndn d a b s
  | .shl d a b => Sys2Proof.Machine.execShl d a b s
  | .shr d a b => Sys2Proof.Machine.execShr d a b s
  | .sra d a b => Sys2Proof.Machine.execSra d a b s
  | .min d a b u => Sys2Proof.Machine.execMin d a b u s
  | .max d a b u => Sys2Proof.Machine.execMax d a b u s
  | .clz d a => Sys2Proof.Machine.execClz d a s
  | .popc d a => Sys2Proof.Machine.execPopc d a s
  | .addi d a imm => Sys2Proof.Machine.execAddi d a imm s
  | .li d imm => Sys2Proof.Machine.execLi d imm s
  | .lih d imm => Sys2Proof.Machine.execLih d imm s
  | .mov d a => Sys2Proof.Machine.execMov d a s
  | .sel d p a b => Sys2Proof.Machine.execSel d p a b s
  | .cmp p a b cc u => Sys2Proof.Machine.execCmp p a b cc u s
  | .cmpi p a cc u imm => Sys2Proof.Machine.execCmpi p a cc u imm s
  | .plog d a b fn => Sys2Proof.Machine.execPlog d a b fn s
  | .br neg p disp => Sys2Proof.Machine.execBr neg p disp s
  | .btree t0 t1 t2 t3 shape base neg => Sys2Proof.Machine.execBtree t0 t1 t2 t3 shape base neg s
  | .jmp disp => Sys2Proof.Machine.execJmp disp s
  | .call l disp => Sys2Proof.Machine.execCall l disp s
  | .ret b => Sys2Proof.Machine.execRet b s
  | .setb b disp => Sys2Proof.Machine.execSetb b disp s
  | .loop c fin => Sys2Proof.Machine.execLoop c fin s
  | .lpstg c ns fin => Sys2Proof.Machine.execLpstg c ns fin s
  | .bksel d a t => Sys2Proof.Machine.execBksel d a t s
  | .nop n => Sys2Proof.Machine.execNop n s
  | .ld d ty a => Sys2Proof.Machine.execLd d ty a s
  | .st v ty a => Sys2Proof.Machine.execSt v ty a s
  | .ldv v a => Sys2Proof.Machine.execLdv v a s
  | .stv v a => Sys2Proof.Machine.execStv v a s
  | .ldt t a => Sys2Proof.Machine.execLdt t a s
  | .stt t a => Sys2Proof.Machine.execStt t a s
  | .ldtx t p buf x sz imm => Sys2Proof.Machine.execLdtx t p buf x sz imm s
  | .lde em d buf x imm => Sys2Proof.Machine.execLde em d buf x imm s
  | .ste v buf x imm => Sys2Proof.Machine.execSte v buf x imm s
  | .feset full l x imm => Sys2Proof.Machine.execFeset full l x imm s
  | .sqld a => Sys2Proof.Machine.execSqld a s
  | .trans h a => Sys2Proof.Machine.execTrans h a s
  | .htest hi d h => Sys2Proof.Machine.execHtest hi d h s
  | .orbldD o x imm => Sys2Proof.Machine.execOrbldD o x imm s
  | .orbldTile t o a b => Sys2Proof.Machine.execOrbldTile t o a b s
  | .orbstScalar o a b v => Sys2Proof.Machine.execOrbstScalar o a b v s
  | .orbstTile chk o t a b => Sys2Proof.Machine.execOrbstTile chk o t a b s
  | .orbofs d o a b => Sys2Proof.Machine.execOrbofs d o a b s
  | .orbx o x imm => Sys2Proof.Machine.execOrbx o x imm s
  | .amo op ty d v x h => Sys2Proof.Machine.execAmo op ty d v x h s
  | .cas sz d v x h => Sys2Proof.Machine.execCas sz d v x h s
  | .fence sc scope pred succ => Sys2Proof.Machine.execFence sc scope pred succ s
  | .drain scope => Sys2Proof.Machine.execDrain scope s
  | .publish d => Sys2Proof.Machine.execPublish d s
  | .bgive b t => Sys2Proof.Machine.execBgive b t s
  | .btake b => Sys2Proof.Machine.execBtake b s
  | .vadd d a b ty mo => Sys2Proof.Machine.execVadd d a b ty mo s
  | .vsub d a b ty mo => Sys2Proof.Machine.execVsub d a b ty mo s
  | .vmul d a b ty mo => Sys2Proof.Machine.execVmul d a b ty mo s
  | .vfma d a b c ft mo => Sys2Proof.Machine.execVfma d a b c ft mo s
  | .vdiv d a b ty mo => Sys2Proof.Machine.execVdiv d a b ty mo s
  | .vsqrt d a ty mo => Sys2Proof.Machine.execVsqrt d a ty mo s
  | .vrcp d a ty mo => Sys2Proof.Machine.execVrcp d a ty mo s
  | .vrsq d a ty mo => Sys2Proof.Machine.execVrsq d a ty mo s
  | .vexp2 d a ty mo => Sys2Proof.Machine.execVexp2 d a ty mo s
  | .vlog2 d a ty mo => Sys2Proof.Machine.execVlog2 d a ty mo s
  | .vmin d a b ty mo => Sys2Proof.Machine.execVmin d a b ty mo s
  | .vmax d a b ty mo => Sys2Proof.Machine.execVmax d a b ty mo s
  | .vabs d a ty mo => Sys2Proof.Machine.execVabs d a ty mo s
  | .vneg d a ty mo => Sys2Proof.Machine.execVneg d a ty mo s
  | .vclamp d a b ty mo => Sys2Proof.Machine.execVclamp d a b ty mo s
  | .vcmp d a b ty cc mo => Sys2Proof.Machine.execVcmp d a b ty cc mo s
  | .vsel d a b ty mo => Sys2Proof.Machine.execVsel d a b ty mo s
  | .vmlog d a b fn => Sys2Proof.Machine.execVmlog d a b fn s
  | .vand d a b ty mo => Sys2Proof.Machine.execVand d a b ty mo s
  | .vor d a b ty mo => Sys2Proof.Machine.execVor d a b ty mo s
  | .vxor d a b ty mo => Sys2Proof.Machine.execVxor d a b ty mo s
  | .vshl d a b ty mo => Sys2Proof.Machine.execVshl d a b ty mo s
  | .vshr d a b ty mo => Sys2Proof.Machine.execVshr d a b ty mo s
  | .vsra d a b ty mo => Sys2Proof.Machine.execVsra d a b ty mo s
  | .vcvt d a src dst q mo => Sys2Proof.Machine.execVcvt d a src dst q mo s
  | .vqnt d a b ty q mo => Sys2Proof.Machine.execVqnt d a b ty q mo s
  | .vdeq d a b ty q mo => Sys2Proof.Machine.execVdeq d a b ty q mo s
  | .vscan d a b ty op mo => Sys2Proof.Machine.execVscan d a b ty op mo s
  | .vred d a b ty op mo => Sys2Proof.Machine.execVred d a b ty op mo s
  | .vperm d a b ty mo => Sys2Proof.Machine.execVperm d a b ty mo s
  | .vbcast d a b ty mo => Sys2Proof.Machine.execVbcast d a b ty mo s
  | .vsplat d a ty mo => Sys2Proof.Machine.execVsplat d a ty mo s
  | .vext d a b ty => Sys2Proof.Machine.execVext d a b ty s
  | .vins d a b ty => Sys2Proof.Machine.execVins d a b ty s
  | .vmov d a ty mo => Sys2Proof.Machine.execVmov d a ty mo s
  | .viota d ty mo => Sys2Proof.Machine.execViota d ty mo s
  | .vwadd d a b ty q mo => Sys2Proof.Machine.execVwadd d a b ty q mo s
  | .vwmul d a b ty q mo => Sys2Proof.Machine.execVwmul d a b ty q mo s
  | .vwmac d a b ty q mo => Sys2Proof.Machine.execVwmac d a b ty q mo s
  | .mown => Sys2Proof.Machine.execMown s
  | .mrel => Sys2Proof.Machine.execMrel s
  | .mcfg a b acc mx sat => Sys2Proof.Machine.execMcfg a b acc mx sat s
  | .mcfgOrb oa ob oc mul => Sys2Proof.Machine.execMcfgOrb oa ob oc mul s
  | .mmask a b c => Sys2Proof.Machine.execMmask a b c s
  | .mpush t => Sys2Proof.Machine.execMpush t s
  | .mshift k n1 => Sys2Proof.Machine.execMshift k n1 s
  | .mbeat fold pop t x imm => Sys2Proof.Machine.execMbeat fold pop t x imm s
  | .mscale => Sys2Proof.Machine.execMscale s
  | .macc row col => Sys2Proof.Machine.execMacc row col s
  | .maccReg x => Sys2Proof.Machine.execMaccReg x s
  | .mzero row col => Sys2Proof.Machine.execMzero row col s
  | .mzeroReg x => Sys2Proof.Machine.execMzeroReg x s
  | .mdrain fmt t row => Sys2Proof.Machine.execMdrain fmt t row s
  | .mdrainReg fmt t x => Sys2Proof.Machine.execMdrainReg fmt t x s
  | .cpy lg x di si => Sys2Proof.Machine.execCpy lg x di si s
  | .cpyToMemory lg h x si => Sys2Proof.Machine.execCpyToMemory lg h x si s
  | .cpyFromMemory lg h x si => Sys2Proof.Machine.execCpyFromMemory lg h x si s
  | .cpy2d dir h a b g => Sys2Proof.Machine.execCpy2d dir h a b g s
  | .cplid c l x lg imm => Sys2Proof.Machine.execCplid c l x lg imm s
  | .acopy inward a x imm => Sys2Proof.Machine.execAcopy inward a x imm s
  | .gath sz h x ii di n1 => Sys2Proof.Machine.execGath sz h x ii di n1 s
  | .scat sz h x ii di n1 => Sys2Proof.Machine.execScat sz h x ii di n1 s
  | .fopen t sz f x imm => Sys2Proof.Machine.execFopen t sz f x imm s
  | .fadv sz f c v => Sys2Proof.Machine.execFadv sz f c v s
  | .fend d f => Sys2Proof.Machine.execFend d f s
  | .fpos d f => Sys2Proof.Machine.execFpos d f s
  | .fclose f => Sys2Proof.Machine.execFclose f s
  | .sopen q a l k => Sys2Proof.Machine.execSopen q a l k s
  | .snext d q => Sys2Proof.Machine.execSnext d q s
  | .stend d q => Sys2Proof.Machine.execStend d q s
  | .sclose q => Sys2Proof.Machine.execSclose q s
  | .cut o d k a => Sys2Proof.Machine.execCut o d k a s
  | .cutp o d p k a => Sys2Proof.Machine.execCutp o d p k a s
  | .cutb sel a b k => Sys2Proof.Machine.execCutb sel a b k s
  | .cqpop d x imm => Sys2Proof.Machine.execCqpop d x imm s
  | .cqrpl drop x imm => Sys2Proof.Machine.execCqrpl drop x imm s
  | .xmit west r cyc => Sys2Proof.Machine.execXmit west r cyc s
  | .imsel west r cyc => Sys2Proof.Machine.execImsel west r cyc s
  | .wait xs ld st cp tl => Sys2Proof.Machine.execWait xs ld st cp tl s
  | .bar x xs scope => Sys2Proof.Machine.execBar x xs scope s
  | .bara scope => Sys2Proof.Machine.execBara scope s
  | .barw xs scope => Sys2Proof.Machine.execBarw xs scope s
  | .phase x imm => Sys2Proof.Machine.execPhase x imm s
  | .spawn r => Sys2Proof.Machine.execSpawn r s
  | .yield => Sys2Proof.Machine.execYield s
  | .susp w => Sys2Proof.Machine.execSusp w s
  | .exit => Sys2Proof.Machine.execExit s
  | .jcbadd j a => Sys2Proof.Machine.execJcbadd j a s
  | .prio c => Sys2Proof.Machine.execPrio c s
  | .trap code => Sys2Proof.Machine.execTrap code s
  | .eret => Sys2Proof.Machine.execEret s
  | .mfs d r => Sys2Proof.Machine.execMfs d r s
  | .mts xs r => Sys2Proof.Machine.execMts xs r s
  | .cpost d h x imm => Sys2Proof.Machine.execCpost d h x imm s
  | .cwait d t => Sys2Proof.Machine.execCwait d t s
  | .lninit x imm => Sys2Proof.Machine.execLninit x imm s
  | .lnext p d => Sys2Proof.Machine.execLnext p d s
  | .dgst x imm => Sys2Proof.Machine.execDgst x imm s
  | .transWrite core ctx h val => Sys2Proof.Machine.execTransWrite core ctx h val s
  | .atomicPerform core op => Sys2Proof.Machine.execAtomicPerform core op s
  | .publishAck core ctx d => Sys2Proof.Machine.execPublishAck core ctx d s
  | .groupReady core id => Sys2Proof.Machine.execGroupReady core id s
  | .mbeatAFold core id => Sys2Proof.Machine.execMbeatAFold core id s
  | .foldRetire core id => Sys2Proof.Machine.execFoldRetire core id s
  | .mdrainRetire core ctx t val flags => Sys2Proof.Machine.execMdrainRetire core ctx t val flags s
  | .asyncRetire core op => Sys2Proof.Machine.execAsyncRetire core op s
  | .elementServe die tag => Sys2Proof.Machine.execElementServe die tag s
  | .gatherRetire die tag => Sys2Proof.Machine.execGatherRetire die tag s
  | .walkerRetire core op => Sys2Proof.Machine.execWalkerRetire core op s
  | .replayPerform die seq => Sys2Proof.Machine.execReplayPerform die seq s
  | .transferCycleAct core ctx => Sys2Proof.Machine.execTransferCycleAct core ctx s
  | .barrierArrival core from_ => Sys2Proof.Machine.execBarrierArrival core from_ s
  | .suspension core ctx => Sys2Proof.Machine.execSuspension core ctx s
  | .loadWriteback core op => Sys2Proof.Machine.execLoadWriteback core op s
  | .storePerform core op => Sys2Proof.Machine.execStorePerform core op s
  | .feRemoteServe core op => Sys2Proof.Machine.execFeRemoteServe core op s
  | .packetFetch core ctx => Sys2Proof.Machine.execPacketFetch core ctx s
  | .start vf val => Sys2Proof.Machine.execStart vf val s
  | .launchChecksEnd vf => Sys2Proof.Machine.execLaunchChecksEnd vf s
  | .veraddr vf val => Sys2Proof.Machine.execVeraddr vf val s
  | .preemptRequest vf => Sys2Proof.Machine.execPreemptRequest vf s
  | .preemptWithdraw vf => Sys2Proof.Machine.execPreemptWithdraw vf s
  | .attestationReport vf val => Sys2Proof.Machine.execAttestationReport vf val s
  | .commandWindowWrite vf offset w => Sys2Proof.Machine.execCommandWindowWrite vf offset w s
  | .rmaRead vf region addr len => Sys2Proof.Machine.execRmaRead vf region addr len s
  | .rmaWrite vf region addr bytes => Sys2Proof.Machine.execRmaWrite vf region addr bytes s
  | .send port bytes => Sys2Proof.Machine.execSend port bytes s
  | .virtualFunctionCreate part pkgs vfs cores ranges => Sys2Proof.Machine.execVirtualFunctionCreate part pkgs vfs cores ranges s
  | .jobCompletion vf => Sys2Proof.Machine.execJobCompletion vf s
  | .instanceComplete vf level inst => Sys2Proof.Machine.execInstanceComplete vf level inst s
  | .passTake core ctx => Sys2Proof.Machine.execPassTake core ctx s
  | .passSpill row => Sys2Proof.Machine.execPassSpill row s
  | .passReturn row => Sys2Proof.Machine.execPassReturn row s
  | .passEntryAged core ctx => Sys2Proof.Machine.execPassEntryAged core ctx s
  | .agingPromotion core ctx => Sys2Proof.Machine.execAgingPromotion core ctx s
  | .preemptionRequest core ctx => Sys2Proof.Machine.execPreemptionRequest core ctx s
  | .safePointTaken core ctx => Sys2Proof.Machine.execSafePointTaken core ctx s
  | .forcedPreemption core ctx => Sys2Proof.Machine.execForcedPreemption core ctx s
  | .forcedPreemptionSave core ctx => Sys2Proof.Machine.execForcedPreemptionSave core ctx s
  | .preemptRecordRelease core rec => Sys2Proof.Machine.execPreemptRecordRelease core rec s
  | .shootdown vf va len => Sys2Proof.Machine.execShootdown vf va len s
  | .collectivePostReceive post => Sys2Proof.Machine.execCollectivePostReceive post s
  | .reservationGrant group gseq rank => Sys2Proof.Machine.execReservationGrant group gseq rank s
  | .rankRequest group gseq => Sys2Proof.Machine.execRankRequest group gseq s
  | .startTicket group gseq rank => Sys2Proof.Machine.execStartTicket group gseq rank s
  | .collectiveStart slot => Sys2Proof.Machine.execCollectiveStart slot s
  | .collectiveComplete slot others => Sys2Proof.Machine.execCollectiveComplete slot others s
  | .packetRoute router => Sys2Proof.Machine.execPacketRoute router s
  | .routerArmed router => Sys2Proof.Machine.execRouterArmed router s
  | .spoonCapture router => Sys2Proof.Machine.execSpoonCapture router s
  | .sinkLaneMove router => Sys2Proof.Machine.execSinkLaneMove router s
  | .spoonReturn router => Sys2Proof.Machine.execSpoonReturn router s
  | .linkRetry dir => Sys2Proof.Machine.execLinkRetry dir s
  | .linkFailure link => Sys2Proof.Machine.execLinkFailure link s
  | .routerError router => Sys2Proof.Machine.execRouterError router s
  | .powerLimitFailure block => Sys2Proof.Machine.execPowerLimitFailure block s
  | .thermalLimit block => Sys2Proof.Machine.execThermalLimit block s
  | .packageReset disabled harvested => Sys2Proof.Machine.execPackageReset disabled harvested s
  | .sidebandRefresh draws temps => Sys2Proof.Machine.execSidebandRefresh draws temps s
  | .expectRaise core ctx => Sys2Proof.Machine.execExpectRaise core ctx s
  | .bkselTableRead core ctx => Sys2Proof.Machine.execBkselTableRead core ctx s
  | .destinationReady core ctx reg => Sys2Proof.Machine.execDestinationReady core ctx reg s
  | .remoteBufferAccess core op => Sys2Proof.Machine.execRemoteBufferAccess core op s
  | .preemptionRequestWithdrawal core ctx => Sys2Proof.Machine.execPreemptionRequestWithdrawal core ctx s
  | .blockCooled block => Sys2Proof.Machine.execBlockCooled block s
  | .powerCeilingLimiting block => Sys2Proof.Machine.execPowerCeilingLimiting block s

end Sys2Proof.Machine
end

