-- ==== Sys2Proof/Machine/Issue.lean ====
section
/-! DEFINITION. The issue stage of a core (R10, R61 to R65, R188 to R190, R245, R246, R258): which contexts
are ready, the bundles of a cycle, the order in which their words perform, and what a context does between
bundles. -/

namespace Sys2Proof.Machine

/-! ### Verdicts -/

/-- Flags that a VEC word raises: its meaning on a copy of the context whose flags are clear. -/
def State.vecFlags (s : State) (i : Instr) : Flags :=
  match exec i (s.modMe fun c => { c with snap := some c.src, regs := { c.regs with fpflg := 0 } }) with
  | .next t => t.me.regs.fpflg
  | _ => 0

/-- What the issue stage finds of a word of the executing context: the check that its meaning makes. -/
def State.judge (s : State) (i : Instr) : Verdict :=
  match i with
  | .div _ _ b _ | .rem _ _ b _ => s.divOk b
  | .loop _ fin => s.loopOk fin false
  | .lpstg c _ fin => s.loopOk fin (decide (2 ^ 63 ≤ (s.rs c).toNat))
  | .bksel _ _ t => s.ownHeld (bkselOff (s.rs t)) 8
  | .ld _ ty a => s.accessOk a (stySize ty) (stySize ty) false
  | .st _ ty a => s.accessOk a (stySize ty) (stySize ty) true
  | .ldv _ a => s.accessOk a 256 256 false
  | .stv _ a => s.accessOk a 256 256 true
  | .ldt _ a => s.accessOk a 2048 2048 false
  | .stt _ a => s.accessOk a 2048 2048 true
  | .ldtx _ p buf x sz imm => s.ldtxOk p buf x (2 ^ sz.val) (imm.toNat * 512)
  | .lde em _ buf x imm => s.feOk buf x imm false em
  | .ste _ buf x imm => s.feOk buf x imm true true
  | .feset _ l x imm => s.fesetOk l x imm
  | .sqld a => s.sqldOk a
  | .trans _ a => s.leaseOk (s.rs a).toNat
  | .orbldD _ x imm => s.ownOk engLsu false (s.orbOff x imm.toNat) 64
  | .orbldTile _ o a b => s.orbldOk o a b
  | .orbstScalar o a b v => s.orbstScalarOk o a b v
  | .orbstTile chk o t a b => s.orbstTileOk chk o t a b
  | .orbofs _ o a b => s.orbofsOk o a b
  | .orbx o x imm => s.orbxOk o x imm
  | .amo op ty _ _ x h => s.atomicOk h (s.pageOff h x 0 (amoSize ty)) (amoClass op ty)
  | .cas sz _ _ x h => s.atomicOk h (s.pageOff h x 0 (casSize sz)) (casClass sz)
  | .bgive b t => s.bgiveOk b t
  | .btake b => s.btakeOk b
  | .vext .. | .vmlog .. => s.transferOk
  | .vadd .. | .vsub .. | .vmul .. | .vfma .. | .vdiv .. | .vsqrt .. | .vrcp .. | .vrsq .. | .vexp2 ..
  | .vlog2 .. | .vmin .. | .vmax .. | .vabs .. | .vneg .. | .vclamp .. | .vcmp .. | .vsel .. | .vand ..
  | .vor .. | .vxor .. | .vshl .. | .vshr .. | .vsra .. | .vcvt .. | .vqnt .. | .vdeq .. | .vscan ..
  | .vred .. | .vperm .. | .vbcast .. | .vsplat .. | .vins .. | .vmov .. | .viota .. | .vwadd ..
  | .vwmul .. | .vwmac .. => s.transferOk.and (s.fpOk (s.vecFlags i))
  | .mown => s.mownOk
  | .mrel => s.mrelOk
  | .mcfg a b acc _ _ => s.mcfgOk a b acc
  | .mcfgOrb oa ob oc mul => s.mcfgOrbOk oa ob oc mul
  | .mmask .. => s.mtxOk
  | .mpush _ | .mshift .. => s.mtxOk.and s.arrFree
  | .mscale => s.mtxOk.and (s.arrFree.and s.popOk)
  | .mbeat fold pop _ _ _ => s.mbeatOk fold pop
  | .macc row col => s.maccOk row.val col.val
  | .mzero row col => s.mzeroOk row.val col.val
  | .maccReg x => s.maccOk (s.winReg x).1 (s.winReg x).2
  | .mzeroReg x => s.mzeroOk (s.winReg x).1 (s.winReg x).2
  | .mdrain f _ row => s.mdrainOk f row.val
  | .mdrainReg f _ x => s.mdrainOk f (bitsOf (s.rs x) 0 9)
  | .cpy lg x di si =>
      (s.copyOk (some (s.cpyOff lg x si.toNat, 2 ^ lg.val)) (some (s.cpyOff lg x di.toNat, 2 ^ lg.val))).and
        (s.rangesOk 2)
  | .cpyToMemory lg h x si =>
      (s.cpyMemOk h (s.pageOff h x 0 (2 ^ lg.val)) (2 ^ lg.val) true).and
        ((s.copyOk (some (s.cpyOff lg x si.toNat, 2 ^ lg.val)) none).and (s.rangesOk 1))
  | .cpyFromMemory lg h x si =>
      (s.cpyMemOk h (s.pageOff h x 0 (2 ^ lg.val)) (2 ^ lg.val) false).and
        ((s.copyOk none (some (s.cpyOff lg x si.toNat, 2 ^ lg.val))).and (s.rangesOk 1))
  | .cpy2d dir h a b g => s.cpy2dOk dir h a b g
  | .cplid c _ x lg imm => s.cplidOk c x lg imm
  | .acopy inward a x imm => s.acopyOk inward a x imm
  | .gath sz h x ii di n1 => s.gathOk false sz h x ii di n1
  | .scat sz h x ii di n1 => s.gathOk true sz h x ii di n1
  | .fopen _ _ _ x imm => s.fopenOk x imm
  | .fadv _ f _ _ | .fend _ f | .fpos _ f | .fclose f => s.fibreOk f
  | .sopen _ _ l k => s.sopenOk l k
  | .snext _ q | .stend _ q | .sclose q => s.streamOk q
  | .cut o _ k a => s.cutOk o k a
  | .cutp o _ p k a => s.cutpOk o p k a
  | .cutb _ _ _ k => s.illModIf (!s.src.k[k].isOpen)
  | .cqpop _ x imm => s.cqpopOk x imm
  | .cqrpl _ x imm => s.cqrplOk x imm
  | .xmit _ r n => s.xmitOk r n.toNat
  | .imsel _ _ n => s.xferOk n.toNat
  | .bar x _ sc => (s.arriveOk sc).and (s.barXOk x)
  | .bara sc => s.arriveOk sc
  | .barw _ sc => s.barwOk sc
  | .phase x imm => s.phaseOk x imm
  | .spawn r => s.spawnOk r
  | .susp w => s.suspOk w
  | .jcbadd j a => s.jcbaddOk j a
  | .trap code => .trap .swTrap (code.setWidth 64)
  | .eret => s.illModIf !(s.src.ecause.getLsbD 7)
  | .mts r x => s.illModIf (mtsBad x (s.rs r))
  | .cpost _ h x imm => s.cpostOk h x imm
  | .cwait _ t => s.cwaitOk t
  | .lninit x imm => s.lninitOk x imm
  | .lnext _ d => s.lnextOk d
  | .dgst x imm => s.dgstOk x imm
  | _ => .go

/-- The verdict on a word, with ILL_MOD of a control transfer at an active loop's end (R382; log 29, DEDUCED). -/
def State.judgeWord (s : State) (w : Slot) : Verdict :=
  let s := s.modMe fun c => { c with word := (w.ix, w.code) }
  (s.illModIf (isTransfer w.code && s.me.atLoopEnd)).and (s.judge w.instr)

/-- Verdicts of a bundle's words in class order: one that waits holds the bundle, else the first trap,
else FP_TRAP (R246; log 31, DEDUCED). -/
def bundleVerdict (vs : List Verdict) : Verdict :=
  let waits (v : Verdict) : Bool := match v with | .wait _ => true | _ => false
  let traps (v : Verdict) : Bool := match v with | .trap .. | .phase .. | .stop _ => true | _ => false
  ((vs.find? waits).or ((vs.find? traps).or (vs.find? (· != .go)))).getD .go

/-! ### Readiness -/

/-- What the issue stage finds of a context's next bundle. -/
inductive Look where
  | no
  | wait (why : ParkWhy)
  /-- a trap before the bundle executes (R246, steps 1 to 3) -/
  | early (c : Cause) (info : Word)
  | bundle (v : Verdict) (all live : List BWord)
  deriving DecidableEq, Repr

/-- FETCH_FAULT's EINFO (R251). -/
def fetchInfo (reason : BitVec 2) (pc : Word) : Word :=
  BitVec.ofNat 64 (reason.toNat * 2 ^ 56 + (packetOf pc).toNat % 2 ^ 56)

/-- The trap of an entry at a word that starts no bundle: after a transfer or in sequence (R251, R332). -/
def entryTrap (via : Option Word) (w : Code) : Early :=
  match via with
  | some a => (.misalignEntry, a &&& 0x00FFFFFFFFFFFFFF#64)
  | none => (.illBundle, layoutW 0 w 8)

/-- The words of the next bundle, or the trap taken before it; none while its packet is on its way. -/
def Ctx.nextWords (c : Ctx) : Option (Except Early (List BWord)) :=
  match c.landFp, c.landBar, c.badFetch with
  | some f, _, _ => some (.error (.fpTrap, BitVec.ofNat 64 (256 + f.toNat)))
  | none, i :: _, _ => some (.error (.illMod, i))
  | none, [], some k => some (.error (.fetchFault, fetchInfo k c.pc))
  | none, [], none => (c.pktOf c.pc).map fun pkt =>
      let w := pkt.getD (wordIx c.pc) 0
      if Code.starts w && c.pc.toNat % 4 == 0 then c.decodeBundle pkt else .error (entryTrap c.via w)

/-- The leaf that a bundle's BTREE takes. -/
def State.leafOfBundle (s : State) (ws : List BWord) : Nat :=
  (ws.findSome? fun w => match w.slot.instr with
    | .btree t0 t1 t2 t3 shape _ neg => some (s.btLeaf t0 t1 t2 t3 shape neg)
    | _ => none).getD 0

/-- Words that execute (R330). -/
def State.liveWords (s : State) (ws : List BWord) : List BWord :=
  ws.filter fun w => w.tag == 0 || w.tag == s.leafOfBundle ws + 1

/-- The predicates of a bundle's BTREE are awaited. -/
def Ctx.treeLocked (c : Ctx) (cyc : Nat) (ws : List BWord) : Bool :=
  ws.any fun w => match w.slot.instr with
    | .btree .. => (Instr.reads w.slot.instr).any (c.locked cyc)
    | _ => false

/-- An XMIT whose phase cycle has come waits no longer for its source, but traps (R231). -/
def State.xmitDue (s : State) (i : Instr) : Bool :=
  match i with
  | .xmit _ _ n => s.inTransfer && decide (n.toNat ≤ s.phaseCycle)
  | _ => false

/-- A word of the executing context waits for a register that it reads or writes, or for a fence (R10, R188 to
R190). -/
def State.awaits (s : State) (i : Instr) : Bool :=
  ((if s.xmitDue i then [] else Instr.reads i) ++ Instr.writes s.me.nl i).any (s.me.locked s.cycle)
    || s.me.fences.any fun f => f.sc || (f.drain && Instr.access i) || f.succ &&& Instr.kinds i != 0

/-- A store that takes a place in the store queue (R186). -/
def Instr.queues : Instr → Bool
  | .st _ _ (.hnd ..) | .stv _ (.hnd ..) | .stt _ (.hnd ..) => true
  | _ => false

/-- No counter passes 1,023, and the store queue has a place (R76, R186). -/
def State.countersOk (s : State) (ws : List BWord) : Bool :=
  let n (k : Ctr) : Nat := (ws.filter fun w => Instr.counter w.slot.instr == some k).length
  let q := (s.myCore.ops.filter fun o => match o.what with | .store .. => true | _ => false).length
  [Ctr.ld, .st, .cp, .tl].all (fun k => decide (s.me.ctr k + n k ≤ 1023))
    && decide (q + (ws.filter fun w => Instr.queues w.slot.instr).length ≤ 64)

/-- Range-scoreboard entries that words take (R173). -/
def entriesOf (ws : List BWord) : Nat := ws.foldl (fun n w => n + Instr.entries w.slot.instr) 0

def Core.entriesUsed (c : Core) : Nat := c.ops.foldl (fun k o => k + o.ranges.length) 0

/-- The core has what a word needs: the orbit unit, the scratchpad port, free ranges (R145, R173, R396). -/
def State.unitsOk (s : State) (w : Slot) : Bool :=
  !(Instr.usesUnit w.instr && decide (s.cycle < s.myCore.orbFree))
    && !(classOf w.code == 2 && decide (s.cycle < s.myCore.portFree))
    && !s.rangeStall w.instr

/-- The scoreboards let the words of the executing context issue. -/
def State.free (s : State) (ws : List BWord) : Bool :=
  (ws.all fun w => !s.awaits w.slot.instr && s.unitsOk w.slot) && s.countersOk ws
    && decide (s.myCore.entriesUsed + entriesOf ws ≤ 16)

/-- A context is between bundles, and may issue its next: a trap that has landed cancels the rest of a NOP (R395). -/
def Ctx.between (c : Ctx) (cyc : Nat) : Bool :=
  c.task && !c.frozen && c.wait == .none && c.deferred.isNone && c.snap.isNone && decide (c.fesetTil ≤ cyc)
    && (decide (c.holdTil ≤ cyc) || c.landFp.isSome || !c.landBar.isEmpty)

/-- The array as the executing context finds it: for its holder the events of this cycle have performed, but where a
trap that has landed is taken before they do (R112, R113, R246). -/
def State.nowFor (s : State) : State :=
  if s.holdsArr && s.me.landFp.isNone then s.arrayNow s.cur else s

/-- The array as the words of a bundle of the executing context find it: flags that it retires in this cycle are not in
what they read; they are ORed into FPFLG all the same (R80, R390). -/
def State.nowSeen (s : State) : State :=
  let old := s.me
  let t := State.nowFor (s.modMe fun c => { c with regs := { c.regs with fpflg := 0 } })
  t.modMe fun c => { c with
    landed := c.regs.fpflg
    regs := { c.regs with fpflg := old.regs.fpflg ||| c.regs.fpflg }
    snap := c.snap.map fun r => { r with fpflg := old.src.fpflg } }

/-- The state in which a context's next bundle issues now: after ERET or the end of a forced pre-emption, the shadow
buffer's events are due again from this cycle on (R250, R254, R255). -/
def State.primed (s : State) (core : Nat) (ix : Fin 4) : State :=
  if (s.ctx core ix).replay then
    (if (s.core core).arr.owner == some ix then s.replayShadow core s.cycle else s).modCtx core ix fun c =>
      { c with replay := false }
  else s

/-- What the issue stage finds of a context as it stands. -/
def State.lookNow (s : State) (core : Nat) (ix : Fin 4) : Look :=
  let s := State.nowFor { s with cur := core, cix := ix }
  if !s.me.between s.cycle then .no
  else match s.me.nextWords with
  | none => .no
  | some (.error e) => .early e.1 e.2
  | some (.ok ws) =>
      if s.me.treeLocked s.cycle ws then .no
      else
        let live := s.liveWords ws
        if s.free live then
          match bundleVerdict (live.map fun w => s.judgeWord w.slot) with
          | .wait why => .wait why
          | v => .bundle v ws live
        else .no

/-- What the issue stage finds of a context. -/
def State.look (s : State) (core : Nat) (ix : Fin 4) : Look := (s.primed core ix).lookNow core ix

def Look.ready : Look → Bool
  | .early .. | .bundle .. => true
  | _ => false

/-- Where a resumed bundle stalls on the array alone, the stall is that which it would have had without the trap: the
shadow buffer's events are due from that cycle on (R254; log 95, DEDUCED). -/
def State.startReplay (s : State) (core : Nat) (ix : Fin 4) : State :=
  let c := s.ctx core ix
  if c.replay && c.between s.cycle && !(s.look core ix).ready
      && (((s.primed core ix).drained core).lookNow core ix).ready then s.primed core ix
  else s

/-! ### Choosing (R62) -/

/-- The first of some contexts that follows r in the cyclic order. -/
def nextCtx (r : Fin 4) (l : List (Fin 4)) : Option (Fin 4) := [r + 1, r + 2, r + 3, r].find? l.contains

def hasClass (ws : List BWord) (k : Nat) : Bool := ws.any fun w => classOf w.slot.code == k

/-- The second bundle may merge with the first (R62, R173). -/
def mergeOk (used : Nat) (a b : Look) : Bool :=
  match a, b with
  | .bundle _ wa la, .bundle _ wb lb =>
      (List.range 8).all (fun k => !(hasClass wa k && hasClass wb k))
        && !(wa ++ wb).any (fun w => Instr.isFence w.slot.instr) && !hasClass wb 4
        && decide (used + entriesOf la + entriesOf lb ≤ 16)
  | _, _ => false

/-- The primary context, and the class by which it is chosen. -/
def primaryOf (rr : Vector (Fin 4) 4) (cls : Fin 4 → Nat) (ready : List (Fin 4)) : Option (Fin 4 × Fin 4) :=
  [3, 2, 1, 0].findSome? fun (k : Fin 4) =>
    (nextCtx rr[k] (ready.filter fun i => cls i == k.val)).map fun i => (i, k)

def secondOf (p : Fin 4) (ok : Fin 4 → Bool) : Option (Fin 4) := [p + 1, p + 2, p + 3].find? ok

/-! ### Executing bundles -/

/-- The order in which the words of a cycle perform: requests whose replies checks wait for, register words, reads,
asynchronous operations, stores, SYS words, transfers, words after which the context waits, and at last WAIT (R10, R63,
R182, R390, R432). -/
def Instr.rank (i : Instr) (c : Code) : Nat :=
  match i with
  | .orbldD .. | .fopen true .. | .cut .. | .cutp .. | .bksel .. => 0
  | .mts .. => 1
  | .mfs .. => 2
  | .fence .. | .drain .. | .publish .. => 4
  | .phase .. | .dgst .. | .lninit .. => 7
  | .st .. | .stv .. | .stt .. | .ste .. | .feset .. | .orbstScalar .. | .orbstTile .. | .amo .. | .cas ..
  | .bgive .. | .btake .. => 8
  | .xmit .. | .imsel .. => 10
  | .barw .. | .exit | .susp .. | .yield => 11
  | .wait .. => 12
  | _ => match classOf c with
    | 1 => 2 | 3 => 3 | 2 => 4 | 5 => 5 | 4 => 6 | _ => 9

/-- A word with its context, placed by rank behind those of no greater rank. -/
def insertWord (x : Fin 4 × Slot) : List (Fin 4 × Slot) → List (Fin 4 × Slot)
  | [] => [x]
  | y :: t =>
      if Instr.rank y.2.instr y.2.code ≤ Instr.rank x.2.instr x.2.code then y :: insertWord x t else x :: y :: t

def sortWords (l : List (Fin 4 × Slot)) : List (Fin 4 × Slot) := l.foldl (fun acc x => insertWord x acc) []

/-- An LDE or STE of a word at another core's controller (R377). -/
def State.farFe (s : State) (i : Instr) : Bool :=
  match i with
  | .lde _ _ buf x imm | .ste _ buf x imm => (s.fePlace buf x imm).1 != s.cur
  | _ => false

/-- Words that count on no counter and cannot be taken back: beside a WAIT they come once it has ended, since until then
their bundle has not executed (R256, R432; log 23, DEDUCED). -/
def Instr.stands : Instr → Bool
  | .mrel | .bgive .. | .btake .. | .feset .. | .cqrpl .. => true
  | _ => false

def Instr.isWait : Instr → Bool
  | .wait .. => true
  | _ => false

/-- The words of a cycle in the order in which they perform: before all others an LDE or STE for which the rest of its
bundle waits (R171), after them what stands behind a WAIT. -/
def State.ordered (s : State) (core : Nat) (l : List (Fin 4 × Slot)) : List (Fin 4 × Slot) :=
  let far (x : Fin 4 × Slot) : Bool := State.farFe { s with cur := core, cix := x.1 } x.2.instr
  let late (x : Fin 4 × Slot) : Bool := Instr.stands x.2.instr && l.any fun y => y.1 == x.1 && Instr.isWait y.2.instr
  l.filter far ++ (sortWords (l.filter fun x => !far x && !late x) ++ l.filter late)

/-- Words with a retirement check that a pantry, a barrier or the hub makes in one step with its effect: JCBADD, SPAWN,
BAR, and CPOST in strict mode (R245). -/
def Instr.lastCheck (i : Instr) (strict : Bool) : Bool :=
  match i with
  | .jcbadd .. | .spawn .. | .bar .. => true
  | .cpost .. => strict
  | _ => false

/-- Words with a retirement check (R245). -/
def Instr.checked (i : Instr) (strict : Bool) : Bool :=
  match i with
  | .orbldD .. | .fopen true .. | .cut .. | .cutp .. | .bksel .. => true
  | i => Instr.lastCheck i strict

/-- Words whose effect is not on registers, memory or the array, or that begin a wait: while a check of their bundle is
pending they stay behind (R245; log 94, DESIGN CHOICE). -/
def Instr.stays : Instr → Bool
  | .phase .. | .dgst .. | .lninit .. | .fence .. | .drain .. | .publish .. | .feset .. | .mrel | .bgive .. | .btake ..
  | .cqpop .. | .cqrpl .. | .cpost .. | .bara .. | .barw .. | .susp .. | .yield | .wait .. | .exit | .xmit .. | .imsel ..
  | .prio .. | .cwait .. => true
  | _ => false

/-- A word of the executing context stays behind: a word of its bundle waits, or a check of its bundle is pending. -/
def State.defers (s : State) (i : Instr) : Bool :=
  match s.me.undo with
  | none => match s.me.wait with
    | .reply | .arrival .. | .transfer .. | .counters .. => true
    | _ => false
  | some _ =>
      if Instr.lastCheck i s.me.strict then !s.me.checks.isEmpty
      else Instr.stays i || (s.farFe i && s.me.deferred.isNone)

/-- The executing context's word runs, or stays behind (R245). -/
def State.runWord (s : State) (w : Slot) : Res :=
  if s.defers w.instr then .next (s.modMe fun c => { c with deferred := some (c.deferred.getD [] ++ [w]) })
  else exec w.instr (s.modMe fun c => { c with word := (w.ix, w.code) })

def State.runWords (s : State) (core : Nat) : List (Fin 4 × Slot) → Res
  | [] => .next s
  | (ix, w) :: t => match ({ s with cur := core, cix := ix }).runWord w with
    | .next s => s.runWords core t
    | r => r

/-- The words of a bundle have run: it has executed, or waits on, and may have words that stay behind. -/
def State.closeBundle (s : State) : State :=
  match s.me.wait with
  | .reply | .arrival .. | .transfer .. | .counters .. =>
      s.modMe fun c => { c with deferred := some (c.deferred.getD []) }
  | _ => s.finishBundle

/-- The executing context's bundle has issued: forced pre-emption counts the events of a holder of the array from the
cycle after (R253). -/
def State.keepLast (s : State) : State :=
  let u := s.takeUndo
  s.modMe fun c => { c with last := if s.holdsArr then some u else none }

/-- Words that stayed behind run, and the bundle is closed. -/
def State.runRest (s : State) (core : Nat) (ix : Fin 4) (ws left : List Slot) : Res :=
  let s := s.modCtx core ix fun c => { c with deferred := some left }
  match s.runWords core (s.ordered core (ws.map fun w => (ix, w))) with
  | .next s =>
      let s := State.closeBundle { s with cur := core, cix := ix }
      .next (if ws.any fun w => classOf w.code == 4 then s.keepLast else s)
  | r => r

/-- The state without what the executing context's running bundle has begun, in which its other words are judged. -/
def State.unbundled (s : State) : State :=
  match s.me.entry with
  | none => s
  | some u =>
      let own := s.opsSince u.first
      (s.modMyCore fun c => { c with
        ops := c.ops.filter fun o => !(o.ctx == s.cix && decide (u.first ≤ o.id))
        held := c.held.filter fun h => !(h.ctx == s.cix && decide (u.first ≤ h.store)) }).modMe fun c =>
          { c.withoutOps own with sb := c.sb.filter u.sb.contains }

/-- Words of the executing context's bundle that stayed behind, judged as at issue (R166, R177, R231, R245; log 53,
DEDUCED). -/
def State.restVerdict (s : State) (ws : List Slot) : Verdict :=
  let t := s.unbundled.nowFor
  bundleVerdict (ws.map t.judgeWord)

/-- Words of a bundle that stayed behind, one part after another: once the checks of its other words have passed, an LDE
or STE at another core's word; then a check that comes with its effect; once that has passed too, the bundle goes
through, and the others run (R171, R245). -/
def State.resumeWords (s : State) (core : Nat) (ix : Fin 4) (ws : List Slot) : Res :=
  let s := { s with cur := core, cix := ix }
  let far (w : Slot) : Bool := s.farFe w.instr
  let last (w : Slot) : Bool := Instr.lastCheck w.instr s.me.strict
  let held := s.me.undo.isSome && !s.me.sure
  if held && ws.any far then s.runRest core ix (ws.filter far) (ws.filter fun w => !far w)
  else if held && ws.any last then s.runRest core ix (ws.filter last) (ws.filter fun w => !last w)
  else s.commit.nowSeen.runRest core ix ws []

/-- What a context does whose words have stayed behind: they wait for what they need, as at issue, and may trap, unless
the bundle counts as executed (R171, R245; log 53, DEDUCED). -/
def State.restMove (s : State) (core : Nat) (ix : Fin 4) (ws : List Slot) : Option Res :=
  let s := { s with cur := core, cix := ix }
  if ws.any fun w => !s.unbundled.unitsOk w then none
  else if s.me.sure then some (s.resumeWords core ix ws)
  else match s.restVerdict ws with
    | .go => some (s.resumeWords core ix ws)
    | .wait _ => none
    | v => some (s.settle v)

/-- The phase cycle of an XMIT or IMSEL that stayed behind has passed (R231). -/
def State.xferPast (s : State) (i : Instr) : Bool :=
  match i with
  | .xmit _ _ n | .imsel _ _ n => decide (n.toNat < s.phaseCycle)
  | _ => false

/-- The trap of a bundle that waits for a word of another core, or for a check that comes with its effect, where another
of its words traps meanwhile (R171, R231, R245). -/
def State.waitTrap (s : State) (core : Nat) (ix : Fin 4) : Option Res :=
  let s := { s with cur := core, cix := ix }
  let ws := s.me.deferred.getD []
  if s.me.sure then none
  else if s.me.park.isSome then
    match s.restVerdict ws with
    | .go | .wait _ => none
    | v => some (s.settle v)
  else if (s.me.checks.any fun x => Code.cls x.2 == 6) && ws.any fun w => s.xferPast w.instr then
    some (.next (s.takeTrap .xferLate (BitVec.ofNat 64 (s.phaseCycle % 2 ^ 21))))
  else none

/-- Landed causes are taken or passed over (R246). -/
def Ctx.dropLanded (c : Ctx) : Ctx := { c with landFp := none, landBar := [] }

/-- A context issues: its aging ends (R61). -/
def State.begin (s : State) (core : Nat) (ix : Fin 4) : State :=
  ({ s with cur := core, cix := ix }).modCtx core ix fun c =>
    { c with lastIssue := s.cycle, aged := false, park := none }

/-- A bundle whose verdict is to go takes its image of the registers, and what it puts back where it turns out not to
have executed, or with a check among its words to trap; others trap at once, and their words do not run. The array's
events of this cycle come first; a bundle that traps finds them frozen, but for those with which the trap has landed
(R245, R253; log 96, DEDUCED). -/
def State.enter (s : State) (core : Nat) (ix : Fin 4) (l : Look) : Res × List (Fin 4 × Slot) :=
  let s := s.begin core ix
  match l with
  | .bundle .go _ live =>
      let s := s.primed core ix
      let u := s.takeUndo
      let held := live.any fun w => Instr.checked w.slot.instr s.me.strict
      (.next (s.nowSeen.modMe fun c =>
        { c with
          snap := some { c.regs with fpflg := u.fpflg }
          undo := if held then some u else none, entry := some u, prior := c.last }), live.map fun w => (ix, w.slot))
  | .bundle v _ _ => (s.settle v, [])
  | .early .fpTrap i => (.next ((s.nowFor.takeTrap .fpTrap i).modMe Ctx.dropLanded), [])
  | .early c i => (.next ((s.takeTrap c i).modMe Ctx.dropLanded), [])
  | _ => (.next s, [])

/-- A bundle that has run is closed; one that trapped needs nothing. -/
def State.close (s : State) (core : Nat) (ix : Fin 4) (ws : List (Fin 4 × Slot)) : State :=
  if ws.isEmpty then s else (State.closeBundle { s with cur := core, cix := ix }).keepLast

/-- The chosen bundles issue as one (R63, R258). -/
def State.issueAll (s : State) (core : Nat) (p : Fin 4 × Look) (q : Option (Fin 4 × Look)) : Res :=
  let (r, ws) := s.enter core p.1 p.2
  match r with
  | .next s =>
    match q with
    | none => match s.runWords core (s.ordered core ws) with
      | .next s => .next (s.close core p.1 ws)
      | r => r
    | some y =>
      let (r, vs) := s.enter core y.1 y.2
      match r with
      | .next s => match s.runWords core (s.ordered core (ws ++ vs)) with
        | .next s => .next ((s.close core p.1 ws).close core y.1 vs)
        | r => r
      | r => r
  | r => r

/-- A context that waits with its bundle unexecuted is parked; one that has been ready for 4,096 cycles
ages (R61, R110, R171). -/
def State.mark (s : State) (core : Nat) (ix : Fin 4) (l : Look) : State :=
  match l with
  | .wait why => s.modCtx core ix fun c => c.parkFor why s.cycle
  | .no => s
  | _ => match execAgingPromotion core ix s with
    | .next t => t
    | _ => s

/-- One cycle of a core's issue stage (R62). -/
def State.issueCore (s : State) (core : Nat) : Res :=
  let s := allCtx.foldl (fun s i => s.startReplay core i) s
  let look := Vector.ofFn fun i => s.look core i
  let s := allCtx.foldl (fun s i => s.mark core i look[i]) s
  let ready := allCtx.filter fun i => look[i].ready
  match primaryOf (s.core core).rr (s.effClass core) ready with
  | none => .next s
  | some (p, k) =>
      let s := s.modCore core fun c => { c with rr := c.rr.set k p }
      let used := (s.core core).entriesUsed
      let q := secondOf p fun y => mergeOk used look[p] look[y]
      s.issueAll core (p, look[p]) (q.map fun y => (y, look[y]))

/-! ### Between bundles -/

/-- A pre-emption that a context acts on now. -/
def State.preemptMove (s : State) (core : Nat) (ix : Fin 4) : Option Res :=
  if s.safeNow core ix then some (exec (.safePointTaken core ix) s)
  else if s.forceNow core ix then some (exec (.forcedPreemption core ix) s)
  else none

/-- The end of a wait, where its condition holds. -/
def State.afterWait (s : State) (core : Nat) (ix : Fin 4) (done : Bool) : Option Res :=
  if done then some (.next (s.modCtx core ix fun c => { c with wait := .none }))
  else s.preemptMove core ix

/-- The end of a task that has come to its end (R248, R370): the array's events of this cycle have performed. -/
def State.endMove (s : State) (core : Nat) (ix : Fin 4) (cause : Option (BitVec 8)) : Option Res :=
  let mine := (s.core core).arr.owner == some ix
  if mine && (s.core core).arr.shadow.isSome then some (.next (s.discardShadow core))
  else
    let s := if mine then s.arrayNow core else s
    if s.canEnd core ix cause then some (.next (s.endTask core ix cause)) else none

/-- What a context does before the issue stage looks at it, if anything. -/
def State.moveOf (s : State) (core : Nat) (ix : Fin 4) : Option Res :=
  let c := s.ctx core ix
  if !c.task then
    if (s.agedEntry core ix).isSome then some (exec (.passEntryAged core ix) s)
    else if (s.bestEntry core ix).isSome then some (exec (.passTake core ix) s)
    else none
  else if c.frozen then none
  else match c.wait with
  | .counters ld st cp tl =>
      if c.within ld st cp tl then some (.next ({ s with cur := core, cix := ix }).goOn)
      else s.preemptMove core ix
  | .flip k e => s.afterWait core ix ((s.bar k).epoch != e)
  | .inPlace w => s.afterWait core ix (s.objDone core c.vf w none)
  | .suspend _ => if s.canSuspend core ix then some (exec (.suspension core ix) s) else none
  | .exiting cause => s.endMove core ix cause
  | .saving => if s.settled core ix then some (exec (.forcedPreemptionSave core ix) s) else none
  | .none => match c.deferred with
    | some ws => s.restMove core ix ws
    | none => match s.preemptMove core ix with
      | some r => some r
      | none => if c.needsFetch then some (exec (.packetFetch core ix) s) else none
  | .reply => (s.waitTrap core ix).or (s.preemptMove core ix)
  | .arrival .. => s.waitTrap core ix
  | .transfer .. => none

/-- A record whose operations have all retired is released (R255). -/
def State.releaseMove (s : State) (core : Nat) : Option Res :=
  ((s.core core).released.find? fun r => r.ops.all fun o => ((s.core core).op o).isNone).map fun r =>
    exec (.preemptRecordRelease core r.ent.recp) s

/-- The first move of a core. -/
def State.coreMove (s : State) (core : Nat) : Option Res :=
  (s.releaseMove core).or (allCtx.findSome? (s.moveOf core))

end Sys2Proof.Machine
end

