-- ==== Sys2Proof/Machine/Cycle.lean ====
section
/-! DEFINITION. The order of the events of a cycle (log 4, log 5: DESIGN CHOICE), and how a program that consists of one
word stands in the machine (R327, R265, R157). -/

namespace Sys2Proof.Machine

/-- The service firmware's events of a row's pass: it spills from a full one, and returns entries to one
below 128 (R44). -/
def State.passEvents (s : State) : List (Nat × Instr) :=
  s.rows.flatMap fun (r, w) =>
    if 256 ≤ w.pass.length then [(s.cycle, .passSpill r)]
    else if decide (w.pass.length < 128) && ((s.die (r / 8)).spilled.any fun (x : Nat × PassEnt) => x.1 == r) then [(s.cycle, .passReturn r)]
    else []

/-- An IMSEL's copy of its stage, due at a cycle's start: it comes before what else that cycle brings, since it copies
the stage as it stood in the cycle before (R230). -/
def State.copiesStage (s : State) (e : Nat × Instr) : Bool :=
  match e.2 with
  | .transferCycleAct k i => decide (e.1 ≤ s.cycle) && (match (s.ctx k i).wait with | .transfer recv .. => recv | _ => false)
  | _ => false

/-- What the package does between cycles besides its cores' work: partition resets end their tasks, the trivet's strands
begin, BLKT is set, operations offer their requests, and events of operations are put off (R34, R221, R222, R225, R266,
R268). -/
def State.housekeep (s : State) : State := s.endResets.startStrands.setBlkt.offerOps.postpone

/-- A cycle ends when every core has had its issue stage: held writes whose cycle has come perform, remote STEs are
looked at after the cycle's LDEs, and IMSELs copy their stages. In the next one records whose objects are satisfied
enter their passes, routers move packets, and every core is due again (R171, R182, R220, R230). -/
def State.endCycle (s : State) : State :=
  let s : State := { s with cycle := s.cycle + 1, todo := s.cores.map fun x => x.1 }
  let s := State.sweep { s with cores := s.cores.map fun (k, c) =>
    (k, if c.held.isEmpty then c else c.performHeld s.cycle) }
  let s := s.housekeep
  let s := { s with agenda := s.feEnd ++ s.agenda.filter s.copiesStage ++ s.passEvents
      ++ s.agenda.filter fun e => !s.copiesStage e }
  s.fabricEvents.foldl (fun t e => t.schedule e.1 e.2) s

/-- The next core of this cycle: what its contexts do between bundles, one thing a step, and then its
issue stage, from which a limiter may withhold the cycle (R34). -/
def State.work (s : State) : Res :=
  match s.todo with
  | [] => .next s.endCycle
  | k :: t => match s.coreMove k with
    | some r => r
    | none =>
        let s := { s with todo := t }
        if s.withheld k then .next s else s.issueCore k

/-! ### A program of one word -/

/-- The eight bytes of a page-table entry: valid, a table or a leaf with W and X, and its frame (R160,
R265). -/
def tableEntry (leaf : Bool) (frame : Nat) : List Byte :=
  leBytes 8 (2 ^ 63 + (if leaf then 2 ^ 62 + 2 ^ 61 + 2 ^ 60 else 0) + frame / 4096 * 2 ^ 11)

/-- Tables at 0x1000 to 0x5000 that map the page of address 0 to the frame at 0x6000. -/
def loadTables (m : Cells 8) : Cells 8 :=
  csetN (csetN (csetN (csetN (csetN m 0x1000 (tableEntry false 0x2000)) 0x2000 (tableEntry false 0x3000))
    0x3000 (tableEntry false 0x4000)) 0x4000 (tableEntry false 0x5000)) 0x5000 (tableEntry true 0x6000)

/-- The job that runs the word: one task on core 0, with the lease of its page. -/
def loadJob (pkg : Nat) : Job :=
  { lrec := 1024, jcb := 2048, levels := [⟨1, 1, 4⟩], leases := [⟨0, 4096, true, true⟩], livep := 0, liven := 0
    lts := [(0, ⟨0x5000, 6, 0, true, true, false, 0, 0, .ofNat 17 pkg⟩)]
    imgbase := 0, strict := false, place := [0], spawned := 0, ended := [], hashes := [], broken := false
    finishing := false }

/-- Its function: the only one that has core 0. -/
def loadVf (pkg : Nat) : Vf :=
  { part := 0, pkgs := [pkg], cores := [0], allot := [(0, 2 ^ 21)], ptroot := 0x1000, job := some (loadJob pkg) }

/-- The word's packet: a bundle of one word, and PADs. -/
def loadPacket (w : Code) : List Code := (w ||| 0x80000000#32) :: List.replicate 15 0

/-- The state in which the next bundle of core 0's context 0 is the word at address 0: what a launch and a
fetch leave, with nothing else due (log 32, DESIGN CHOICE). -/
def State.loadWord (s : State) (w : Code) : State :=
  let ctx : Ctx :=
    { task := true, jcbp := 2048, launchp := 1024, lastIssue := s.cycle, safeAt := s.cycle
      packet := some (0, loadPacket w) }
  { s with
    cur := 0, cix := 0, todo := [0]
    agenda := s.agenda.filter fun e => decide (s.cycle < e.1)
    mem := csetN (loadTables s.mem) 0x6000 ((loadPacket w).flatMap toLe)
    vfs := aset s.vfs 0 (loadVf s.pkg.toNat)
    rows := aset s.rows 0 { (s.row 0) with pass := [], phase := none, shots := [] }
    cores := aset s.cores 0 { (s.core 0) with
      vf := some 0, ctxs := (Vector.replicate 4 {}).set 0 ctx, ops := [], held := [], released := []
      arr := {}, orbFree := 0, portFree := 0 }
    limited := [], hot := [] }

end Sys2Proof.Machine
end

