-- ==== Sys2Proof/Machine/Step.lean ====
section
/-! DEFINITION. One step of the machine: the next event that is due, or else the next core's work in the
cycle. -/

namespace Sys2Proof.Machine

/-- One step. -/
def step (s : State) : Host.Outcome State Fault Refusal :=
  match s.agenda with
  | [] => s.work
  | (due, e) :: t => if due ≤ s.cycle then exec e { s with agenda := t } else s.work

/-- The state in which the next step issues the instruction whose bits are w (log 32, DESIGN CHOICE). -/
def State.withFetchWord (s : State) (nbits w : Nat) : State := s.loadWord (BitVec.ofNat 32 (w % 2 ^ nbits))

end Sys2Proof.Machine
end

