-- ==== Sys2Proof/Safety.lean ====
section
/-! DEFINITION. What counts as a well-formed state and as a safe run. -/

namespace Sys2Proof.Machine

/-- The memories of a core are in canonical form. -/
def Core.canon (c : Core) : Bool := Memory.wf c.scr && Memory.wf c.fe && Memory.wf c.lid && Memory.wf c.acc

/-- Every memory of the machine is in canonical form: equal contents are equal data. -/
def State.canon (s : State) : Bool :=
  Memory.wf s.mem && Memory.wf s.hostMem && s.cores.all fun k => k.2.canon

/-- A run from a state never stops with a fault. -/
def Safe (s : State) : Prop := ∀ k f, Sys2Proof.core.run k s ≠ .fault f

end Sys2Proof.Machine
end

