-- ==== Sys2Proof/Safety/Frame.lean ====
section
/-! DEFINITION. The terms in which statements say what a word leaves unchanged: registers, the executing
context, its core, and everything beyond it. -/

namespace Sys2Proof.Machine

/-- r' shows in every register what r shows, but for some registers, and FPFLG has flags ORed in. -/
structure Regs.Keeps (r r' : Regs) (but : List RegName) (fl : Flags) : Prop where
  s : ∀ n, .s n ∉ but → r'.rs n = r.rs n
  p : ∀ n, .p n ∉ but → r'.rp n = r.rp n
  b : ∀ n : Fin 8, .b n ∉ but → r'.b[n] = r.b[n]
  v : ∀ n : Fin 32, .v n ∉ but → r'.v[n] = r.v[n]
  m : ∀ n : Fin 8, .m n ∉ but → r'.m[n] = r.m[n]
  t : ∀ n : Fin 16, .t n ∉ but → r'.t[n] = r.t[n]
  h : ∀ n : Fin 16, .h n ∉ but → r'.h[n] = r.h[n]
  o : ∀ n : Fin 8, .o n ∉ but → r'.o[n] = r.o[n]
  f : ∀ n : Fin 8, .f n ∉ but → r'.f[n] = r.f[n]
  q : ∀ n : Fin 8, .q n ∉ but → r'.q[n] = r.q[n]
  k : ∀ n : Fin 4, .k n ∉ but → r'.k[n] = r.k[n]
  fpflg : r'.fpflg = r.fpflg ||| fl
  fpctl : r'.fpctl = r.fpctl
  cls : r'.cls = r.cls
  safebnd : r'.safebnd = r.safebnd
  tvec : r'.tvec = r.tvec
  epc : r'.epc = r.epc
  ecause : r'.ecause = r.ecause
  einfo : r'.einfo = r.einfo
  edelay : r'.edelay = r.edelay

/-- Beyond the executing core everything is as before, but for the model's agenda, number and delays; in
it every other context is. -/
structure Alone (s t : State) : Prop where
  package : { t with cores := s.cores, agenda := s.agenda, nextOp := s.nextOp, delays := s.delays } = s
  cores : ∀ k, k ≠ s.cur → t.core k = s.core k
  others : ∀ j, j ≠ s.cix → t.ctx s.cur j = s.ctx s.cur j

/-- Only the executing context differs: no memory, no unit, no event. -/
structure ContextOnly (s t : State) : Prop where
  alone : Alone s t
  core : { t.core s.cur with ctxs := (s.core s.cur).ctxs } = s.core s.cur
  agenda : t.agenda = s.agenda
  numbers : t.nextOp = s.nextOp ∧ t.delays = s.delays

/-- An event that clears the mark of one of some registers of the executing context. -/
def State.isMark (s : State) (rs : List RegName) (e : Nat × Instr) : Bool :=
  match e.2 with
  | .destinationReady k i r => k == s.cur && i == s.cix && rs.contains r
  | _ => false

/-- A word that writes registers only: those of a list, which are awaited until lat cycles have passed
(R10), and flags ORed into FPFLG. No memory, no other context and no other register differs. -/
structure RegisterStep (s t : State) (but : List RegName) (lat : Nat) (fl : Flags) : Prop where
  alone : Alone s t
  core : { t.core s.cur with ctxs := (s.core s.cur).ctxs } = s.core s.cur
  numbers : t.nextOp = s.nextOp ∧ t.delays = s.delays
  agenda : (t.agenda.filter fun e => !s.isMark but e) = s.agenda.filter fun e => !s.isMark but e
  ctx : { t.me with regs := s.me.regs, sb := s.me.sb } = s.me
  regs : s.me.regs.Keeps t.me.regs but fl
  awaited : ∀ c r, s.cycle < c →
    t.me.locked c r = (s.me.locked c r || (but.contains r && decide (c < s.cycle + lat)))

/-- The registers that a write to sD or pD changes: s0 and p0 discard it (R70). -/
def sDest (d : Fin 32) : List RegName := if d = 0 then [] else [.s d]
def pDest (d : Fin 16) : List RegName := if d = 0 then [] else [.p d]

/-- Every byte of package memory, of every scratchpad and of every lid reads as before. -/
def SameBytes (s t : State) : Prop := ∀ l, t.getLoc l = s.getLoc l

/-- The executing core issued one operation: it is the last of the core's list, its counter is one more,
its destinations are awaited until it retires, and its event is due (R10, R76). The context's registers
are r. -/
structure OperationStep (s t : State) (op : Op) (r : Regs) (w : Wait) (due : Nat) (ev : Instr) : Prop where
  alone : Alone s t
  number : op.id = s.nextOp ∧ op.ctx = s.cix ∧ t.nextOp = s.nextOp + 1
  agenda : t.agenda = insertDue due ev s.agenda
  ops : (t.core s.cur).ops = (s.core s.cur).ops ++ [op]
  regs : t.me.regs = r
  counters : ∀ k, t.me.ctr k = s.me.ctr k + if op.ctr = some k then 1 else 0
  ctx : { t.me with regs := s.me.regs, sb := s.me.sb, ld := s.me.ld, st := s.me.st, cp := s.me.cp, tl := s.me.tl,
                    wait := s.me.wait } = s.me
  waits : t.me.wait = w
  awaited : ∀ c x, t.me.locked c x = (s.me.locked c x || op.lock.contains x)

end Sys2Proof.Machine
end

