-- ==== Sys2Proof/Safety/Values.lean ====
section
/-! DEFINITION. Results as the manual's tables state them, in exact integers, for statements to hold the
meanings against. -/

namespace Sys2Proof.Machine

/-- The integer of a 64-bit pattern: unsigned, or two's complement (R353). -/
def numOf (u : Bool) (v : Word) : Int := if u then (v.toNat : Int) else v.toInt

/-- Leading zero bits: the bits above the highest set one (R353). -/
def leadingZeros (v : Word) : Nat := ((List.range 64).takeWhile fun k => !v.getLsbD (63 - k)).length

/-- Set bits (R353). -/
def setCount (v : Word) : Nat := ((List.range 64).map fun k => (v.getLsbD k).toNat).sum

/-- Destination, result and ready time of a scalar word without a trap (R353, R354, R379, R392, R405), with
a and b the registers that it reads. -/
def scalarResult (s : State) : Instr → Option (Fin 32 × Word × Nat)
  | .add d a b => some (d, .ofNat 64 ((s.rs a).toNat + (s.rs b).toNat), 1)
  | .sub d a b => some (d, .ofInt 64 ((s.rs a).toInt - (s.rs b).toInt), 1)
  | .mul d a b => some (d, .ofNat 64 ((s.rs a).toNat * (s.rs b).toNat), 3)
  | .mulh d a b u => some (d, .ofInt 64 (numOf u (s.rs a) * numOf u (s.rs b) / 2 ^ 64), 3)
  | .and d a b => some (d, s.rs a &&& s.rs b, 1)
  | .or d a b => some (d, s.rs a ||| s.rs b, 1)
  | .xor d a b => some (d, s.rs a ^^^ s.rs b, 1)
  | .andn d a b => some (d, s.rs a &&& ~~~(s.rs b), 1)
  | .shl d a b => some (d, .ofNat 64 ((s.rs a).toNat * 2 ^ ((s.rs b).toNat % 64)), 1)
  | .shr d a b => some (d, .ofNat 64 ((s.rs a).toNat / 2 ^ ((s.rs b).toNat % 64)), 1)
  | .sra d a b => some (d, .ofInt 64 ((s.rs a).toInt / 2 ^ ((s.rs b).toNat % 64)), 1)
  | .min d a b u => some (d, .ofInt 64 (min (numOf u (s.rs a)) (numOf u (s.rs b))), 1)
  | .max d a b u => some (d, .ofInt 64 (max (numOf u (s.rs a)) (numOf u (s.rs b))), 1)
  | .clz d a => some (d, .ofNat 64 (leadingZeros (s.rs a)), 1)
  | .popc d a => some (d, .ofNat 64 (setCount (s.rs a)), 1)
  | .addi d a imm => some (d, .ofInt 64 ((s.rs a).toInt + imm.toInt), 1)
  | .li d imm => some (d, .ofInt 64 imm.toInt, 1)
  | .lih d imm => some (d, .ofNat 64 ((s.rs d).toNat * 2 ^ 22 + imm.toNat), 1)
  | .mov (.s d) (.s a) => some (d, s.rs a, 1)
  | .mov (.s d) (.b a) => some (d, s.src.b[a], 1)
  | .sel d p a b => some (d, if s.rp p = true then s.rs a else s.rs b, 1)
  | _ => none

/-- The quotient truncated toward 0, and the remainder that has the sign of the dividend (R353): the
quotient's magnitude is that of the exact one rounded down. -/
def quotient (u : Bool) (a b : Word) : Int :=
  let q : Int := (numOf u a).natAbs / (numOf u b).natAbs
  if numOf u a < 0 ↔ numOf u b < 0 then q else -q

def remainder (u : Bool) (a b : Word) : Int := numOf u a - numOf u b * quotient u a b

/-- A comparison by its condition code (R337): the order is that of the integers. -/
def compares (cc : Cond) (u : Bool) (a b : Word) : Prop :=
  match cc with
  | .eq => numOf u a = numOf u b
  | .ne => numOf u a ≠ numOf u b
  | .lt => numOf u a < numOf u b
  | .le => numOf u a ≤ numOf u b
  | .gt => numOf u a > numOf u b
  | .ge => numOf u a ≥ numOf u b

/-- An address and a displacement in words (R335). -/
def displaced {n : Nat} (a : Word) (disp : BitVec n) : Word := .ofInt 64 (a.toInt + 4 * disp.toInt)

/-- A branch tree with its leaves numbered from the left and its tests in preorder (R338). -/
inductive LTree where
  | x (k : Nat)
  | n (i : Nat) (l r : LTree)

/-- The trees of R338's table, test numbers and leaf numbers written out. -/
def treeTable : Fin 14 → LTree
  | 0 => .n 0 (.x 0) (.n 1 (.x 1) (.n 2 (.x 2) (.n 3 (.x 3) (.x 4))))
  | 1 => .n 0 (.x 0) (.n 1 (.x 1) (.n 2 (.n 3 (.x 2) (.x 3)) (.x 4)))
  | 2 => .n 0 (.x 0) (.n 1 (.n 2 (.x 1) (.x 2)) (.n 3 (.x 3) (.x 4)))
  | 3 => .n 0 (.x 0) (.n 1 (.n 2 (.x 1) (.n 3 (.x 2) (.x 3))) (.x 4))
  | 4 => .n 0 (.x 0) (.n 1 (.n 2 (.n 3 (.x 1) (.x 2)) (.x 3)) (.x 4))
  | 5 => .n 0 (.n 1 (.x 0) (.x 1)) (.n 2 (.x 2) (.n 3 (.x 3) (.x 4)))
  | 6 => .n 0 (.n 1 (.x 0) (.x 1)) (.n 2 (.n 3 (.x 2) (.x 3)) (.x 4))
  | 7 => .n 0 (.n 1 (.x 0) (.n 2 (.x 1) (.x 2))) (.n 3 (.x 3) (.x 4))
  | 8 => .n 0 (.n 1 (.n 2 (.x 0) (.x 1)) (.x 2)) (.n 3 (.x 3) (.x 4))
  | 9 => .n 0 (.n 1 (.x 0) (.n 2 (.x 1) (.n 3 (.x 2) (.x 3)))) (.x 4)
  | 10 => .n 0 (.n 1 (.x 0) (.n 2 (.n 3 (.x 1) (.x 2)) (.x 3))) (.x 4)
  | 11 => .n 0 (.n 1 (.n 2 (.x 0) (.x 1)) (.n 3 (.x 2) (.x 3))) (.x 4)
  | 12 => .n 0 (.n 1 (.n 2 (.x 0) (.n 3 (.x 1) (.x 2))) (.x 3)) (.x 4)
  | 13 => .n 0 (.n 1 (.n 2 (.n 3 (.x 0) (.x 1)) (.x 2)) (.x 3)) (.x 4)

/-- The leaf reached when a true test takes the left subtree (R338, R339). -/
def LTree.down (test : Nat → Bool) : LTree → Nat
  | .x k => k
  | .n i l r => if test i then l.down test else r.down test

/-- Target and decision of a control transfer other than BKSEL, from what its bundle reads (R335, R339,
R360, R361, R374, R402). -/
def transferOf (s : State) : Instr → Option (Word × Bool)
  | .br neg p disp => some (displaced s.me.pc disp, xor (s.rp p) neg)
  | .jmp disp | .call _ disp => some (displaced s.me.pc disp, true)
  | .ret b => some (s.src.b[b], true)
  | .btree t0 t1 t2 t3 shape base neg =>
      let test (i : Nat) : Bool := xor (s.rp ([t0, t1, t2, t3].getD i 0)) (neg.getLsbD i)
      some (s.src.b[Fin.ofNat 8 (base.val + (treeTable shape).down test)], true)
  | _ => none

/-- The conditions under which LOOP and LPSTG start or skip (R382): no loop is active, and END names the
start of a bundle at or after the body's start. -/
structure LoopAllowed {n : Nat} (s : State) (fin : BitVec n) : Prop where
  inactive : s.me.loop.kind = 0
  forward : 0 < fin.toInt
  body : (s.nextAfter s.me.pc).toNat ≤ (displaced s.me.pc fin).toNat
  start : s.startsAt (displaced s.me.pc fin) = true

/-- The pass predicates of an LPSTG loop of c iterations and n stages in kernel pass j (R384). -/
def PassPredicates (r : Regs) (n c j : Nat) : Prop :=
  ∀ k : Fin 8, r.rp (Fin.ofNat 16 (8 + k.val)) = decide (k.val < n ∧ k.val ≤ j ∧ j - k.val < c)

/-- Predicates p8 to p15. -/
def stagePreds : List RegName := (List.range 8).map fun k => .p (Fin.ofNat 16 (8 + k))

end Sys2Proof.Machine
end

