-- ==== Sys2Proof/Safety/Access.lean ====
section
/-! DEFINITION. When the issue checks let an access through, in the manual's words: holding (R166), the
declared set (R176 to R178), handles (R154, R158), full ranges and counters. -/

namespace Sys2Proof.Machine

/-- Every byte of an own scratchpad range lies in a buffer that the core holds (R166). -/
def State.HoldsRange (s : State) (lo len : Nat) : Prop :=
  ∀ o, lo ≤ o → o < lo + len → s.holds s.cur (stripOf s.cur) (o / 65536) = true

/-- The name of a byte of the own scratchpad (none) or of a buffer: a buffer of the core's own strip is
part of the own scratchpad (R166, R177). -/
def byteName (strip : Nat) (sp : Option (Nat × Nat)) (o : Nat) : Option (Nat × Nat) × Nat :=
  match sp with
  | none => (none, o)
  | some (st, b) => if st = strip then (none, b * 65536 + o) else (some (st, b), o)

/-- The space that an entry of a phase block names (R176). -/
def namedSpace (e : Word) : Option (Nat × Nat) := if pStrip e = 15 then none else some (pStrip e, pBuf e)

/-- An entry's range holds a byte. -/
def EntryCovers (strip : Nat) (e : Word) (sp : Option (Nat × Nat)) (o : Nat) : Prop :=
  let b := byteName strip sp o
  let r := byteName strip (namedSpace e) (pStart e)
  b.1 = r.1 ∧ r.2 ≤ b.2 ∧ b.2 < r.2 + pLen e

/-- A byte lies in a range of an engine and direction in an open phase (R178). -/
def ByteDeclared (strip : Nat) (es : List Word) (eng : Nat) (wr : Bool) (sp : Option (Nat × Nat)) (o : Nat) : Prop :=
  ∃ e ∈ es, pEng e = eng ∧ pDir e = wr ∧ EntryCovers strip e sp o

/-- In strict mode every byte of an access lies in the open phase's set of its engine and direction
(R178). -/
def State.Declared (s : State) (eng : Nat) (wr : Bool) (sp : Option (Nat × Nat)) (lo len : Nat) : Prop :=
  s.me.strict = true → 0 < len → ∃ es, s.me.phase = some es
    ∧ ∀ o, lo ≤ o → o < lo + len → ByteDeclared (stripOf s.cur) es eng wr sp o

/-- An own scratchpad range may be accessed. -/
def State.OwnAllowed (s : State) (eng : Nat) (wr : Bool) (lo len : Nat) : Prop :=
  s.HoldsRange lo len ∧ s.Declared eng wr none lo len

/-- A range of the buffer that a register names may be accessed (R166, R169). -/
def State.BufAllowed (s : State) (x : Fin 32) (eng : Nat) (wr : Bool) (off len : Nat) : Prop :=
  bufBad (s.rs x) = false ∧ s.holds s.cur (bufStrip (s.rs x)) (bufNum (s.rs x)) = true
    ∧ s.Declared eng wr (some (bufStrip (s.rs x), bufNum (s.rs x))) off len

/-- A byte of a handle's page may be accessed (R154, R158), and its frame names something (R163). -/
def State.HandleAllowed (s : State) (n : Fin 16) (off : Nat) (wr : Bool) : Prop :=
  Handle.valid (s.hreg n) = true ∧ (wr = true → Handle.canW (s.hreg n) = true)
    ∧ s.paValid (Handle.pa (s.hreg n) off) = true

/-- A load or store of size bytes may be made at its operand (R376, R413). -/
def State.AccessAllowed (s : State) (a : Addr) (size : Nat) (wr : Bool) : Prop :=
  match a with
  | .scr x i => s.OwnAllowed engLsu wr (s.scrOff x (i.toNat * size) size) size
  | .buf x i => s.BufAllowed x engLsu wr (alignDown (i.toNat * size) size % 65536) size
  | .hnd n x i => s.HandleAllowed n (s.pageOff n x (i.toNat * size) size) wr

/-- The range scoreboard of the core has places for n more entries (R173). -/
def State.RangesFree (s : State) (n : Nat) : Prop := s.myCore.entriesUsed + n ≤ 16

/-- A context holds a task that arrived at the BAR.x of a transfer phase: it is a phase context (R229). -/
def Ctx.InPhase (c : Ctx) (p : TransferPhase) : Prop :=
  c.task = true ∧ c.spwn = false ∧ c.vf = p.vf ∧ c.logical ∈ p.members

/-- A vector word may issue: no context of its core is in a transfer phase (R229). -/
def State.NoTransfer (s : State) : Prop :=
  ∀ p, (s.row (rowOf s.cur)).phase = some p → ∀ i, ¬ (s.ctx s.cur i).InPhase p

/-- The array's words go: the context holds the array, it is in no transfer phase, nor is its core, and no
shadow buffer waits for a replay (R109, R229, R254, R385). -/
structure State.ArrayMine (s : State) : Prop where
  owner : s.myCore.arr.owner = some s.cix
  phase : s.NoTransfer
  shadow : s.myCore.arr.shadow = none

end Sys2Proof.Machine
end

