-- ==== Sys2Proof/Safety/Operation.lean ====
section
/-! DEFINITION. The terms in which statements say what an operation does when it issues and when it retires
(R10, R76, R188): loads, stores, and what they leave unchanged. -/

namespace Sys2Proof.Machine

/-- The executing core's memories and units are as before: only contexts and operations differ. -/
def UnitsKept (s t : State) : Prop :=
  { t.core s.cur with ctxs := (s.core s.cur).ctxs, ops := (s.core s.cur).ops } = s.core s.cur

/-- The same, but for its scratchpad, full/empty bits and held stores. -/
def UnitsKeptButScr (s t : State) : Prop :=
  { t.core s.cur with
      ctxs := (s.core s.cur).ctxs, ops := (s.core s.cur).ops, scr := (s.core s.cur).scr, fe := (s.core s.cur).fe
      held := (s.core s.cur).held } = s.core s.cur

/-- The value that a scalar load of a type writes (R340, R375): TY 0 to 3 are signed. -/
def loadedValue (ty : STy) (v : Nat) : Word :=
  match ty with
  | .i8 => .ofInt 64 (Int.bmod v (2 ^ 8))
  | .i16 => .ofInt 64 (Int.bmod v (2 ^ 16))
  | .i32 => .ofInt 64 (Int.bmod v (2 ^ 32))
  | .n8 => .ofNat 64 (v % 2 ^ 8)
  | .n16 => .ofNat 64 (v % 2 ^ 16)
  | .n32 => .ofNat 64 (v % 2 ^ 32)
  | .i64 | .n64 => .ofNat 64 v

/-- Byte k of a register. -/
def byteOf {w : Nat} (v : BitVec w) (k : Nat) : Byte := v.extractLsb' (8 * k) 8

/-- Lane i of LDTX's tile takes element i of each line, in line order (R378): element c of lane i, byte k. -/
def ldtxByte (z : Nat) (bytes : List Byte) (i c k : Nat) : Byte := bytes.getD (c * 128 * z + z * i + k) 0

/-- Bytes b have reached a destination among registers r, which are r' then; a scale slot is no register. -/
def Loaded (r r' : Regs) (dst : LoadTo) (b : List Byte) : Prop :=
  match dst with
  | .s d ty => r.Keeps r' (sDest d) 0 ∧ r'.rs d = if d = 0 then 0 else loadedValue ty (leVal b)
  | .v d => r.Keeps r' [.v d] 0 ∧ ∀ k (h : k < b.length), k < 256 → byteOf r'.v[d] k = b[k]
  | .t d => r.Keeps r' [.t d] 0 ∧ ∀ k (h : k < b.length), k < 2048 → byteOf r'.t[d] k = b[k]
  | .tx d sz => r.Keeps r' [.t d] 0 ∧ ∀ i c k, i < 128 → c < 16 / 2 ^ sz.val → k < 2 ^ sz.val →
      byteOf r'.t[d] (16 * i + 2 ^ sz.val * c + k) = ldtxByte (2 ^ sz.val) b i c k
  | .scale _ => r' = r

/-- The operation of a load of the executing context. -/
def loadOp (s : State) (dst : LoadTo) (what : OpWhat) : Op :=
  { id := s.nextOp, ctx := s.cix, kinds := kLd, ctr := some .ld, ranges := [], lock := dst.locks, what }

/-- Operations of the executing core that no pending check of their bundle holds back (R245). -/
def State.sent (s : State) : List Op := s.myCore.ops.filter fun o => !s.opHeld s.cur o

/-- A load of n bytes issued at a place (R181, R183, R185, R376): a local one has read and is awaited for lat
cycles; another is in flight, its bytes taken from the store queue or to be read when it performs, and a
handle load is due within its latency class's bound. -/
def LoadIssued (s t : State) (p : Place) (dst : LoadTo) (n lat : Nat) : Prop :=
  UnitsKept s t ∧
  match p with
  | .here off => ∃ r, OperationStep s t (loadOp s dst .settled) r s.me.wait (s.cycle + lat)
        (.loadWriteback s.cur s.nextOp) ∧ Loaded s.me.regs r dst (s.scrBytes s.cur off n)
  | .there core off => ∃ due, s.cycle < due ∧ OperationStep s t
        (loadOp s dst (.load dst ((List.range n).map fun k => .place (.scr core (off + k))))) s.me.regs s.me.wait due
        (.remoteBufferAccess s.cur s.nextOp)
  | .mem h off => ∃ src due, s.cycle < due ∧ (∀ b, lcBound (Handle.lc (s.hreg h)) = some b → due ≤ s.cycle + b)
        ∧ src.length = n
        ∧ (∀ k, k < n → src[k]? = match queued s.sent (Handle.place (s.hreg h) off + k) with
            | some b => some (.known b)
            | none => some (.place (.mem (Handle.place (s.hreg h) off + k))))
        ∧ OperationStep s t (loadOp s dst (.load dst src)) s.me.regs s.me.wait due (.loadWriteback s.cur s.nextOp)

/-- The operation of a store of the executing context. -/
def storeOp (s : State) (what : OpWhat) : Op :=
  { id := s.nextOp, ctx := s.cix, kinds := kSt, ctr := some .st, ranges := [], lock := [], what }

/-- Nothing holds a write to a range of the own scratchpad: no operation in flight reads or writes a byte of it, and no
check of its bundle is pending (R182, R245). -/
def State.NoneHolds (s : State) (lo len : Nat) : Prop :=
  s.me.undo = none ∧ ∀ o ∈ s.myCore.ops, ∀ r ∈ o.ranges, overlap r.lo r.hi lo (lo + len) = false

/-- Bytes written from an offset of the own scratchpad, at once or, where something holds them, as the youngest held
write, number id (R182, R245). -/
def ScrWritten (s t : State) (off : Nat) (b : List Byte) : Prop :=
  (∀ l, (∀ k, k < b.length → l ≠ .scr s.cur (off + k)) → t.getLoc l = s.getLoc l)
    ∧ (s.NoneHolds off b.length → t.myCore.held = s.myCore.held ∧ ∀ k (h : k < b.length), t.getLoc (.scr s.cur (off + k)) = b[k])
    ∧ (¬ s.NoneHolds off b.length → SameBytes s t ∧ ∃ h, t.myCore.held = s.myCore.held ++ [h] ∧ h.store = s.nextOp
        ∧ h.ctx = s.cix ∧ h.bytes.map (·.2) = b ∧ ∀ k (l : k < h.bytes.length), h.bytes[k].1 = off + k)

/-- A store of bytes issued at a place (R181, R185, R186, R413): a local one has performed, unless something
holds it (R182); another is in flight, and no byte has changed. -/
def StoreIssued (s t : State) (p : Place) (b : List Byte) : Prop :=
  UnitsKeptButScr s t ∧
  match p with
  | .here off => OperationStep s t (storeOp s .settled) s.me.regs s.me.wait (s.cycle + 1) (.storePerform s.cur s.nextOp)
        ∧ ScrWritten s t off b
  | .there core off => SameBytes s t ∧ ∃ due, s.cycle < due
        ∧ OperationStep s t (storeOp s (.bufStore core off b)) s.me.regs s.me.wait due (.remoteBufferAccess s.cur s.nextOp)
  | .mem h off => SameBytes s t ∧ ∃ due, s.cycle < due
        ∧ (∀ n, lcBound (Handle.lc (s.hreg h)) = some n → due ≤ s.cycle + n)
        ∧ OperationStep s t (storeOp s (.store (Handle.place (s.hreg h) off) b)) s.me.regs s.me.wait due
            (.storePerform s.cur s.nextOp)

/-- An operation of a core has retired (R10, R76, R188): it is gone, its counter is one less, its
destinations are no longer awaited, and no fence waits for it. Nothing beyond its context differs, but for
what an event says it writes, and for the array's image in what a trap restores (R245): the registers and the wait of
the context are not part of this. -/
structure Retired (s t : State) (core : Nat) (op : Op) : Prop where
  package : { t with cores := s.cores, agenda := s.agenda, delays := s.delays, mem := s.mem, rows := s.rows
                     dies := s.dies, cur := s.cur, cix := s.cix } = s
  others : ∀ k j, k ≠ core ∨ j ≠ op.ctx → { t.ctx k j with
    undo := (s.ctx k j).undo, entry := (s.ctx k j).entry, last := (s.ctx k j).last, prior := (s.ctx k j).prior } = s.ctx k j
  ops : (t.core core).ops = (s.core core).ops.filter fun o => o.id != op.id
  counters : ∀ k, (t.ctx core op.ctx).ctr k = (s.ctx core op.ctx).ctr k - if op.ctr = some k then 1 else 0
  awaited : ∀ c x, (t.ctx core op.ctx).locked c x = (!op.lock.contains x && (s.ctx core op.ctx).locked c x)
  fences : ∀ f ∈ (t.ctx core op.ctx).fences, op.id ∉ f.ops

/-- The running bundle waits for a check of the word that executes (R245). -/
def State.asks (s : State) : State :=
  s.modMe fun c => { c with wait := .reply, checks := c.checks ++ [c.word] }

/-- One operation issued without a place written: units and bytes are as before, its event is due after this
cycle and within a latency class's bound where there is one (R162); what puts it off then is another matter (R34,
R225). -/
def Issued (s t : State) (op : Op) (w : Wait) (bound : Option Nat) (ev : Nat → Nat → Instr) : Prop :=
  UnitsKept s t ∧ SameBytes s t ∧ ∃ due, s.cycle < due ∧ (∀ b, bound = some b → due ≤ s.cycle + b)
    ∧ OperationStep s t op s.me.regs w due (ev s.cur s.nextOp)

/-- The registers of a context as an event leaves them: r shows what f says, in the image that a trap of the running
bundle restores too, unless that trap would undo the event (R245). -/
def LandedBut (undone : Bool) (s t : State) (core : Nat) (i : Fin 4) (f : Regs → Regs → Prop) : Prop :=
  f (s.ctx core i).regs (t.ctx core i).regs
    ∧ ((t.ctx core i).snap.isSome = (s.ctx core i).snap.isSome)
    ∧ ∀ r r', (s.ctx core i).snap = some r → (t.ctx core i).snap = some r' → if undone = true then r' = r else f r r'

/-- The same of an event that no trap undoes. -/
def Landed (s t : State) (core : Nat) (i : Fin 4) (f : Regs → Regs → Prop) : Prop := LandedBut false s t core i f

/-- The same of an operation: one of the running bundle leaves the image that its words read (R10). -/
def OpLanded (s t : State) (core : Nat) (op : Op) (f : Regs → Regs → Prop) : Prop :=
  LandedBut ((s.ctx core op.ctx).running op.id) s t core op.ctx f

/-- A bundle of a context has issued words and may count as not executed: a check of it is pending, or it waits in WAIT
(R245, R256). -/
def Ctx.unsettled (c : Ctx) : Bool :=
  c.undo.isSome || match c.wait with
    | .counters .. => true
    | _ => false

/-- The same of an event of the array, undone with such a bundle (R253, R256). -/
def ArrayLanded (s t : State) (core : Nat) (i : Fin 4) (f : Regs → Regs → Prop) : Prop :=
  LandedBut (s.ctx core i).unsettled s t core i f

/-- Bytes b stand at consecutive places from one, and every other byte reads as before. -/
def Wrote (s t : State) (at_ : Nat → Loc) (b : List Byte) : Prop :=
  (∀ k (h : k < b.length), t.getLoc (at_ k) = b[k])
    ∧ ∀ l, (∀ k, k < b.length → l ≠ at_ k) → t.getLoc l = s.getLoc l

/-- The number in an atomic's location as its type orders it (R356). -/
def atomicOrder (ty : AmoTy) (v : Nat) : Int :=
  match ty with
  | .i64 => (BitVec.ofNat 64 v).toInt
  | .i32 => (BitVec.ofNat 32 v).toInt
  | _ => v

/-- The new value of an AMO's location, w bits wide (R356). -/
def atomicNew (op : AmoOp) (ty : AmoTy) (old v : Nat) : Nat :=
  match op, amoFloat ty with
  | .swap, _ => v
  | .add, false => (old + v) % 2 ^ (8 * amoSize ty)
  | .and, _ => old &&& v
  | .or, _ => old ||| v
  | .xor, _ => old ^^^ v
  | .min, false => if atomicOrder ty old ≤ atomicOrder ty v then old else v
  | .max, false => if atomicOrder ty old ≤ atomicOrder ty v then v else old
  | .add, true => (fpAdd (if ty = .f64 then fF64 else fF32) ⟨.rne, false, false⟩ old v).1
  | .min, true => (fpMinMax (if ty = .f64 then fF64 else fF32) ⟨.rne, false, false⟩ false old v).1
  | .max, true => (fpMinMax (if ty = .f64 then fF64 else fF32) ⟨.rne, false, false⟩ true old v).1

/-- A bucket table at an offset of the own scratchpad, of n entries on an axis (R68): its words, its header and
its ascending sizes. -/
structure TableLegal (s : State) (o n axis : Nat) : Prop where
  count : 1 ≤ n ∧ n ≤ 16 ∧ axis < 4
  header : s.tableWord o 0 = BitVec.ofNat 64 (n + 2 ^ 8 * axis)
  sizes : ∀ k, k < n → (s.tableWord o (1 + 2 * k)).toNat < 2 ^ 32
  ascending : ∀ k, k + 1 < n → (s.tableWord o (1 + 2 * k)).toNat < (s.tableWord o (3 + 2 * k)).toNat

/-- An operation is the oldest of its core to reach one of its lines (R186). -/
def State.SentToPort (s : State) (core : Nat) (op : Op) : Prop :=
  ∀ a b, op.lines = some (a, b) → ∀ p ∈ (s.core core).ops, p.id < op.id → ∀ x y, p.lines = some (x, y) →
    b < x ∨ y < a

/-- The port sends a store or atomic, and no check of its bundle holds it back (R186, R245). -/
def State.Sends (s : State) (core : Nat) (op : Op) : Prop := s.SentToPort core op ∧ s.opHeld core op = false

/-- Operand, size and direction of the plain loads and stores (R375, R412). -/
def accessOf : Instr → Option (Addr × Nat × Bool)
  | .ld _ ty a => some (a, stySize ty, false)
  | .ldv _ a => some (a, 256, false)
  | .ldt _ a => some (a, 2048, false)
  | .st _ ty a => some (a, stySize ty, true)
  | .stv _ a => some (a, 256, true)
  | .stt _ a => some (a, 2048, true)
  | _ => none

/-- The fields that TRANS writes for an address whose leaf entry is l (R155, R162, R72). -/
structure HandleFor (s : State) (h : Handle) (va : Nat) (l : Leaf) : Prop where
  valid : Handle.valid h = true
  page : Handle.va h = va / pageBytes l.psize * pageBytes l.psize
  frame : Handle.pa h 0 = l.frame
  size : Handle.psize h = l.psize
  lc : Handle.lc h = s.lcOf s.cur l
  aclass : (Handle.aclass h).toNat = l.aclass
  writes : Handle.canW h = (l.w && s.leasedW s.me.vf va)
  fetch : h.getLsbD 34 = l.x
  cow : h.getLsbD 33 = l.cow
  hpkg : Handle.field h 15 17 = l.hpkg
  hdie : Handle.field h 13 2 = if isRemote l.frame = true then 0 else s.homeDie l.frame
  reserved : Handle.field h 0 13 = 0

/-- A handle as a shootdown of a range leaves it (R159): V is cleared where its page shares a byte with the
range. -/
def ShotDown (va len : Nat) (h h' : Handle) : Prop :=
  ∀ b, h'.getLsbD b = (h.getLsbD b && !(b == 32 && decide (len ≠ 0
    ∧ va < Handle.va h + pageBytes (Handle.psize h) ∧ Handle.va h < va + len)))

/-- Registers as a shootdown leaves them: their handles alone are cleared. -/
def RegsShot (va len : Nat) (r r' : Regs) : Prop :=
  r.Keeps r' ((List.finRange 16).map .h) 0 ∧ ∀ n : Fin 16, ShotDown va len r.h[n] r'.h[n]

/-- An operation that a fence at a scope waits for (R185, R188): of the executing context, of one of some kinds,
and not performed at the scope. A handle store has performed for its core once it is in the store queue. -/
def State.Awaits (s : State) (sc : Scope) (kinds : BitVec 8) (o : Op) : Prop :=
  o ∈ s.myCore.ops ∧ o.ctx = s.cix ∧ (∃ b : Fin 8, o.kinds.getLsbD b.val = true ∧ kinds.getLsbD b.val = true)
    ∧ match o.what with
      | .settled => ∃ h ∈ s.myCore.held, h.store = o.id
      | .store .. => sc ≠ .ctx ∧ sc ≠ .core
      | _ => True

/-- A fence stands for exactly the operations that it waits for. -/
def FenceFor (s : State) (f : Fence) (sc : Scope) (kinds : BitVec 8) : Prop :=
  ∀ id, id ∈ f.ops ↔ ∃ o, s.Awaits sc kinds o ∧ o.id = id

/-- What FENCE .sc, DRAIN and PUBLISH wait for at a scope: every operation, and every arrival by BARA, which accesses
a pantry object (R183, R189, R190, R232). -/
def State.AwaitsAny (s : State) (sc : Scope) (id : Nat) : Prop :=
  (∃ o, s.Awaits sc 0xFF o ∧ o.id = id) ∨ ∃ b ∈ s.me.bara, b.id = id

/-- Some operation or arrival is outstanding at a scope. -/
def State.Outstanding (s : State) (sc : Scope) : Prop := ∃ id, s.AwaitsAny sc id

/-- A fence stands for exactly what is outstanding. -/
def FenceForAll (s : State) (f : Fence) (sc : Scope) : Prop := ∀ id, id ∈ f.ops ↔ s.AwaitsAny sc id

end Sys2Proof.Machine
end

