-- ==== Sys2Proof/Safety/Orbit.lean ====
section
/-! DEFINITION. Symmetric tensors as the manual states them: legal descriptors (R130 to R132), the elements of a
window (R137), and what orbit words leave unchanged. -/

namespace Sys2Proof.Machine

/-- A generator word of a tensor of some rank and extents is legal (R131, R132). -/
structure GenLegal (rank : Nat) (ext : Nat → Nat) (w : Nat) : Prop where
  reserved : ∀ b, 6 ≤ b → b < 29 → w.testBit b = false
  neg : w.testBit 29 = true → w / 2 ^ 30 % 4 = 3
  count : ((genOf w).axes.length ∈ if w / 2 ^ 30 % 4 < 2 then [2, 3, 4, 5, 6]
    else if w / 2 ^ 30 % 4 = 2 then [2] else [1])
  axes : ∀ a ∈ (genOf w).axes, a < rank ∧ ext a = ext ((genOf w).axes.headD 0)
  short : w / 2 ^ 30 % 4 = 1 → (genOf w).axes.length ≤ ext ((genOf w).axes.headD 0)

/-- A descriptor of non-zero rank is well formed (R130, R132). -/
structure DescLegal (b : Block64) : Prop where
  rank : 1 ≤ blk b 32 8 ∧ blk b 32 8 ≤ 6
  fmt : blk b 40 8 ∈ [3, 4, 6, 7, 8, 9, 10, 11, 12]
  ngen : blk b 48 8 ≤ 3
  reserved : blk b 56 8 = 0 ∧ blk b 352 160 = 0
  extents : ∀ n, n < 6 → if n < blk b 32 8 then 1 ≤ blk b (64 + 32 * n) 32 ∧ blk b (64 + 32 * n) 32 ≤ 2097152
    else blk b (64 + 32 * n) 32 = 0
  gens : ∀ n, n < 3 → if n < blk b 48 8 then GenLegal (blk b 32 8) (fun a => blk b (64 + 32 * a) 32) (blk b (256 + 32 * n) 32)
    else blk b (256 + 32 * n) 32 = 0
  disjoint : ∀ m n a, m < n → n < blk b 48 8 → a ∈ (genOf (blk b (256 + 32 * m) 32)).axes →
    a ∉ (genOf (blk b (256 + 32 * n) 32)).axes
  circ : ∀ m n, m < n → n < blk b 48 8 → ¬ (blk b (256 + 32 * m) 32 / 2 ^ 30 % 4 = 2 ∧ blk b (256 + 32 * n) 32 / 2 ^ 30 % 4 = 2)
  place : blk b 0 32 % (descOf b).size = 0 ∧ (descOf b).packed < 2 ^ 32
    ∧ blk b 0 32 + (descOf b).packed * (descOf b).size ≤ 2 ^ 22

/-- Every index of a tuple is below its extent. -/
def TupleInside (d : Desc) (t : List Nat) : Prop := ∀ k, k < d.rank → t.getD k 0 < d.extent k

/-- The tuple at a lane and element of a window (R137): the last two axes move; for rank 1 only lane 0 is in
the window. -/
def WindowTuple (d : Desc) (orig : List Nat) (r c : Nat) (t : List Nat) : Prop :=
  t.length = d.rank ∧ (d.rank = 1 → r = 0) ∧ ∀ k, k < d.rank →
    t.getD k 0 = orig.getD k 0 + (if k + 1 = d.rank then c else if k + 2 = d.rank then r else 0)

/-- The value that reading a tuple gives (R142): the stored value of its representative with its sign, or zero. -/
def orbitValue (s : State) (d : Desc) (t : List Nat) : Nat :=
  let r := d.orbitRep t
  let v := leVal (s.scrBytes s.cur (d.base + r.off * d.size) d.size)
  if r.sign = 0 then 0 else if r.sign = -1 then negElem d.fmt (8 * d.size) v else v

/-- The core's units but for the orbit unit and what the address unit writes are as before. -/
def UnitsKeptButOrbit (s t : State) : Prop :=
  { t.core s.cur with
      ctxs := (s.core s.cur).ctxs, ops := (s.core s.cur).ops, scr := (s.core s.cur).scr, held := (s.core s.cur).held
      orbFree := (s.core s.cur).orbFree, portFree := (s.core s.cur).portFree } = s.core s.cur

/-- The place of a tuple in row-major order, the last axis fastest (R143). -/
def rowMajor : List Nat → List Nat → Nat
  | _ :: ns, x :: xs => x * ns.foldl (· * ·) 1 + rowMajor ns xs
  | _, _ => 0

end Sys2Proof.Machine
end

