-- ==== Sys2Proof/Safety/Vector.lean ====
section
/-! DEFINITION. The vector words element by element, as the tables of R422 to R431 state them. -/

namespace Sys2Proof.Machine

/-- The number that w bits hold, unsigned or two's complement. -/
def elemNum (sg : Bool) (w x : Nat) : Int := if sg = true ∧ 2 ^ (w - 1) ≤ x then (x : Int) - 2 ^ w else x

/-- A number modulo 2^w (R90). -/
def wrapTo (w : Nat) (x : Int) : Nat := (x % 2 ^ w).toNat

/-- An integer word that wraps, of two elements. -/
def wrapping (ty : VTy) (g : Int → Int → Int) (x y : Nat) : Nat × Flags :=
  (wrapTo ty.width (g (elemNum ty.isSigned ty.width x) (elemNum ty.isSigned ty.width y)), 0)

/-- A word with an integer and a floating meaning (R423). -/
def eitherOf (ty : VTy) (env : Env) (g : Int → Int → Int) (h : Fmt → Env → Nat → Nat → Nat × Flags) (x y : Nat) :
    Nat × Flags :=
  if ty.isInt then wrapping ty g x y else h (fmtOf ty) env x y

/-- An element that VCVT, VWADD, VWMUL or VWMAC widens: exact, and flushed on reading only (R431). -/
def widened (ty : VTy) (env : Env) (x : Nat) : Nat × Flags :=
  if ty.isInt then (wrapTo 32 (elemNum ty.isSigned ty.width x), 0) else fpToFp (fmtOf ty) fF32 { env with ftz := false } x

/-- An elementwise word's destination, mask, element width, ready time (R421), and the value and flags of an
enabled element from what its bundle reads (R422, R423, R424, R426, R428, R429, R431). -/
def vecOf (s : State) (i : Instr) : Option (Fin 32 × Fin 8 × Nat × Nat × (Nat → Nat × Flags)) :=
  let v (n : Fin 32) (w e : Nat) : Nat := velem w s.src.v[n] e
  let two (d a b : Fin 32) (ty : VTy) (m : VMod) (il fl : Nat) (g : Int → Int → Int)
      (h : Fmt → Env → Nat → Nat → Nat × Flags) : Option (Fin 32 × Fin 8 × Nat × Nat × (Nat → Nat × Flags)) :=
    some (d, m.msk, ty.width, if ty.isInt then il else fl,
      fun e => eitherOf ty (envOf s.src.fpctl m.rnd) g h (v a ty.width e) (v b ty.width e))
  let one (d a : Fin 32) (ty : VTy) (m : VMod) (lat : Nat) (h : Env → Nat → Nat × Flags) :
      Option (Fin 32 × Fin 8 × Nat × Nat × (Nat → Nat × Flags)) :=
    some (d, m.msk, ty.width, lat, fun e => h (envOf s.src.fpctl m.rnd) (v a ty.width e))
  let bits (d a b : Fin 32) (w : Nat) (m : VMod) (h : Nat → Nat → Nat) :
      Option (Fin 32 × Fin 8 × Nat × Nat × (Nat → Nat × Flags)) :=
    some (d, m.msk, w, 2, fun e => (h (v a w e) (v b w e), 0))
  let pick (b : Fin 32) (ty : VTy) : Nat := (s.rs b).toNat % (2048 / ty.width)
  let wide (d a b : Fin 32) (ty : VTy) (q : Fin 4) (m : VMod) (h : Env → Nat → Nat → Nat → Nat → Nat × Flags) (readsA : Bool) :
      Option (Fin 32 × Fin 8 × Nat × Nat × (Nat → Nat × Flags)) :=
    let env := envOf s.src.fpctl m.rnd
    some (d, m.msk, 32, 4, fun e =>
      let x := if readsA then widened ty env (v a ty.width (64 * q.val + e)) else (0, 0)
      let y := widened ty env (v b ty.width (64 * q.val + e))
      let z := h env (v a 32 e) x.1 y.1 (v d 32 e)
      (z.1, x.2 ||| y.2 ||| z.2))
  match i with
  | .vadd d a b ty m => two d a b ty m 2 4 (· + ·) fpAdd
  | .vsub d a b ty m => two d a b ty m 2 4 (· - ·) fpSub
  | .vmul d a b ty m => two d a b ty m 3 4 (· * ·) fpMul
  | .vmin d a b ty m => two d a b ty m 2 4 min fun f e => fpMinMax f e false
  | .vmax d a b ty m => two d a b ty m 2 4 max fun f e => fpMinMax f e true
  | .vclamp d a b ty m =>
      let env := envOf s.src.fpctl m.rnd
      let up := eitherOf ty env max fun f e => fpMinMax f e true
      let down := eitherOf ty env min fun f e => fpMinMax f e false
      some (d, m.msk, ty.width, if ty.isInt then 2 else 4, fun e =>
        let x := up (v d ty.width e) (v a ty.width e)
        let y := down x.1 (v b ty.width e)
        (y.1, x.2 ||| y.2))
  | .vdiv d a b ty m => some (d, m.msk, ty.width, if ty.width = 64 then 24 else 12,
      fun e => fpDiv (fmtOf ty) (envOf s.src.fpctl m.rnd) (v a ty.width e) (v b ty.width e))
  | .vsqrt d a ty m => one d a ty m (if ty.width = 64 then 24 else 12) (fpSqrt (fmtOf ty))
  | .vrcp d a ty m => one d a ty m (if ty.width = 64 then 20 else 10) (fpRcp (fmtOf ty))
  | .vrsq d a ty m => one d a ty m (if ty.width = 64 then 20 else 10) (fpRsq (fmtOf ty))
  | .vexp2 d a ty m => one d a ty m (if ty.width = 64 then 20 else 10) (fpExp2 (fmtOf ty))
  | .vlog2 d a ty m => one d a ty m (if ty.width = 64 then 20 else 10) (fpLog2 (fmtOf ty))
  | .vabs d a ty m => one d a ty m 2 fun _ x =>
      (if ty.isInt then wrapTo ty.width (elemNum ty.isSigned ty.width x).natAbs else x % 2 ^ (ty.width - 1), 0)
  | .vneg d a ty m => one d a ty m 2 fun _ x =>
      (if ty.isInt then wrapTo ty.width (-elemNum ty.isSigned ty.width x)
       else (x + 2 ^ (ty.width - 1)) % 2 ^ ty.width, 0)
  | .vand d a b ty m => bits d a b 32 m (· &&& ·)
  | .vor d a b ty m => bits d a b 32 m (· ||| ·)
  | .vxor d a b ty m => bits d a b 32 m (· ^^^ ·)
  | .vshl d a b ty m => bits d a b ty.width m fun x y => x * 2 ^ (y % ty.width)
  | .vshr d a b ty m => bits d a b ty.width m fun x y => x / 2 ^ (y % ty.width)
  | .vsra d a b ty m => bits d a b ty.width m fun x y =>
      wrapTo ty.width (elemNum true ty.width x / 2 ^ (y % ty.width))
  | .vmov d a ty m => some (d, m.msk, 32, 2, fun e => (v a 32 e, 0))
  | .vfma d a b c ft m =>
      let w := (ftyOf ft).w
      some (d, m.msk, w, 4, fun e =>
        fpFma (ftyOf ft) (envOf s.src.fpctl m.rnd) (v a w e) (v b w e) (v c w e))
  | .vbcast d a b ty m => some (d, m.msk, ty.width, 2, fun _ => (v a ty.width (pick b ty), 0))
  | .vsplat d a ty m => some (d, m.msk, ty.width, 2, fun _ => ((s.rs a).toNat % 2 ^ ty.width, 0))
  | .vins d a b ty => some (d, 0, ty.width, 2, fun e =>
      (if e = pick b ty then (s.rs a).toNat % 2 ^ ty.width else v d ty.width e, 0))
  | .viota d ty m => some (d, m.msk, ty.width, 2, fun e =>
      (((List.range e).filter fun k => s.src.on m.msk ty.width k).length % 2 ^ ty.width, 0))
  | .vperm d a b _ m => some (d, m.msk, 32, 3, fun e => (v a 32 (v b 32 e % 64), 0))
  | .vsel d a b _ m => some (d, 0, 32, 2, fun e => (if s.src.on m.msk 32 e then v a 32 e else v b 32 e, 0))
  | .vcvt d a src dst q m =>
      let nS := 2048 / src.width
      let nD := 2048 / dst.width
      some (d, m.msk, dst.width, 4, fun e =>
        if nD ≤ nS then cvtElem src dst (envOf s.src.fpctl m.rnd) (v a src.width (q.val * nD + e))
        else if q.val * nS ≤ e ∧ e < q.val * nS + nS then
          cvtElem src dst (envOf s.src.fpctl m.rnd) (v a src.width (e - q.val * nS))
        else (v d dst.width e, 0))
  | .vdeq d a b ty q m =>
      let w := (mxOf ty).width
      some (d, m.msk, 32, 4, fun e =>
        mxDequant (mxOf ty) (envOf s.src.fpctl m.rnd) ((s.rs b).toNat / (if e < 32 then 1 else 256) % 256)
          (s.src.v[a].toNat / 2 ^ (q.val * (64 * w) + w * e) % 2 ^ w))
  | .vwadd d a b ty q m => wide d a b ty q m (fun env x _ y _ =>
      if ty.isInt then (wrapTo 32 (elemNum true 32 x + elemNum true 32 y), 0) else fpAdd fF32 env x y) false
  | .vwmul d a b ty q m => wide d a b ty q m (fun env _ x y _ =>
      if ty.isInt then (wrapTo 32 (elemNum true 32 x * elemNum true 32 y), 0) else fpMul fF32 env x y) true
  | .vwmac d a b ty q m => wide d a b ty q m (fun env _ x y z =>
      if ty.isInt then (wrapTo 32 (elemNum true 32 z + elemNum true 32 x * elemNum true 32 y), 0)
      else fpFma fF32 env x y z) true
  | _ => none

/-- The flags of the enabled elements of a word (R420). -/
def flagsOf (r : Regs) (msk : Fin 8) (w : Nat) (f : Nat → Nat × Flags) : Flags :=
  (List.range (2048 / w)).foldl (fun fl e => if r.on msk w e then fl ||| (f e).2 else fl) 0

/-- A reduction over the enabled elements below a bound, in ascending order (R430). -/
def reduced (r : Regs) (msk : Fin 8) (w : Nat) (g : Nat → Nat → Nat × Flags) (x : Nat → Nat) (start n : Nat) :
    Nat × Flags :=
  (List.range n).foldl (fun a e => if r.on msk w e then ((g a.1 (x e)).1, a.2 ||| (g a.1 (x e)).2) else a) (start, 0)

/-- A step of VRED and VSCAN: the accumulated value is the first operand (R430). -/
def reduceBy (op : RedOp) (ty : VTy) (env : Env) : Nat → Nat → Nat × Flags :=
  match op with
  | .add => eitherOf ty env (· + ·) fpAdd
  | .min => eitherOf ty env min fun f e => fpMinMax f e false
  | .max => eitherOf ty env max fun f e => fpMinMax f e true

end Sys2Proof.Machine
end

