-- ==== Sys2Proof/Safety/Matrix.lean ====
section
/-! DEFINITION. The terms of statements about the matrix array: steps of the array alone, windows cell by cell
(R113, R117), and dot products in exact integers (R98). -/

namespace Sys2Proof.Machine

/-- Only the executing core's array differs, and is a: no memory, no other unit, no context, no event. -/
structure ArrayStep (s t : State) (a : Arr) : Prop where
  package : { t with cores := s.cores } = s
  others : ∀ k, k ≠ s.cur → t.core k = s.core k
  core : t.core s.cur = { s.core s.cur with arr := a }

/-- Only the executing core's array and accumulator store differ, and the model's agenda and number. -/
structure ArrayEvent (s t : State) (core : Nat) : Prop where
  package : { t with cores := s.cores, agenda := s.agenda, nextOp := s.nextOp } = s
  others : ∀ k, k ≠ core → t.core k = s.core k
  core : { t.core core with arr := (s.core core).arr, acc := (s.core core).acc } = s.core core

/-- The counts of MMASK are within their limits (R117). -/
def Arr.Masked (a : Arr) : Prop := a.rows ≤ 128 ∧ a.cols ≤ 64

/-- A fold into a window writes array cell (i, j): neither masked nor padding (R117). -/
def WritesCell (a : Arr) (row0 col0 i j : Nat) : Prop :=
  i < a.rows ∧ j < a.cols ∧ (∀ d, a.padM = some d → row0 + i < d)
    ∧ ∀ d, a.padN = some d → (if a.acc = .f64 then col0 / 2 * 2 else col0) + j < d

/-- The store cells of array cell (i, j) of a window, the low half first: rows and columns wrap at 512 (R111). -/
def storeCellsOf (acc : AFmt) (row0 col0 i j : Nat) : List Nat :=
  let r := (row0 + i) % 512 * 512
  if acc = .f64 then [r + (col0 / 2 * 2 + 2 * j) % 512, r + (col0 / 2 * 2 + 2 * j + 1) % 512]
  else [r + (col0 + j) % 512]

/-- The code that store cells hold, low half first. -/
def codeAt (m : Cells 32) (cs : List Nat) : Nat :=
  match cs with
  | [a] => (cget m a).toNat
  | [a, b] => (cget m a).toNat + 2 ^ 32 * (cget m b).toNat
  | _ => 0

/-- Groups folded into a cell, oldest first, and the flags of the groups and of the folds (R100, R116). -/
def foldedBy (a : Arr) (env : Env) (gs : List Group) (i j code : Nat) : Nat × Flags :=
  gs.foldl (fun r g => ((foldSum a.acc a.sat env r.1 (g.sum i j).1).1,
    r.2 ||| (g.sum i j).2 ||| (foldSum a.acc a.sat env r.1 (g.sum i j).1).2)) (code, 0)

/-- What a fold into a window leaves (R113): every cell that it writes is as f says, every other as before. -/
def FoldedInto (a : Arr) (m m' : Cells 32) (row0 col0 : Nat) (f : Nat → Nat → Nat → Nat) : Prop :=
  (∀ i j, WritesCell a row0 col0 i j → codeAt m' (storeCellsOf a.acc row0 col0 i j)
      = f i j (codeAt m (storeCellsOf a.acc row0 col0 i j)) % (if a.acc = .f64 then 2 ^ 64 else 2 ^ 32))
    ∧ ∀ c, (∀ i j, WritesCell a row0 col0 i j → c ∉ storeCellsOf a.acc row0 col0 i j) → cget m' c = cget m c

/-- No ACOPY that writes accumulator cells is in flight (R115). -/
def State.NoAcopyIn (s : State) : Prop := ∀ o ∈ s.myCore.ops, ∀ cs, o.what ≠ .cellsIn cs

/-- No SQLD of the executing context is outstanding (R118, R411). -/
def State.NoSqld (s : State) : Prop := ∀ o ∈ s.myCore.ops, o.ctx = s.cix → ∀ n src, o.what ≠ .load (.scale n) src

/-- A beat's operands (R107, R112): latches, the 16 bytes of every lid column at its address, configuration and
masks as they stand. -/
structure GroupOf (s : State) (a : Arr) (l : Nat) (fold : Bool) (g : Group) : Prop where
  id : g.id = s.nextOp
  flight : g.ready = none
  rows : g.a = a.latches
  columns : ∀ j k, j < 64 → k < 16 → g.b.extractLsb' (8 * (16 * j + k)) 8 = cget s.myCore.lid (j * 2 ^ 18 + l / 16 * 16 + k)
  formats : g.af = a.af ∧ g.bf = a.bf ∧ g.mx = a.mx
  scales : g.rowScale = a.rowScale ∧ g.colScale = a.colScale
  daz : g.daz = s.src.fpctl.getLsbD 4
  lanes : g.lanes = a.lanes ∧ g.kpos = a.kpos ∧ g.padK = a.padK
  mul : g.mul = if a.mul then mulMatch a.oa a.ob else none
  auto : g.auto = if fold = true ∨ 8 ≤ a.pending.length then some ⟨a.winRow, a.winCol, a.rows, a.cols, a.padM, a.padN⟩
    else none

/-- The dot product of cell (i, j) of a group of whole numbers (R98). -/
def Group.dot (g : Group) (i j : Nat) : Int :=
  ((List.range (min g.lanes (groupSize g.af))).map fun k =>
    elemNum true (elemBits g.af) (laneElem g.af (g.a.extractLsb' (128 * i) 128) k)
      * elemNum true (elemBits g.bf) (laneElem g.bf (g.b.extractLsb' (128 * j) 128) k)).sum

end Sys2Proof.Machine
end

