-- ==== Sys2Proof/Safety/Async.lean ====
section
/-! DEFINITION. The terms of statements about asynchronous operations (R173, R182, R206 to R213). -/

namespace Sys2Proof.Machine

/-- The moves of a copy: its k-th byte comes from src k and goes to dst k. -/
def MovesAre (ms : List (Src × Loc)) (n : Nat) (src : Nat → Src) (dst : Nat → Loc) : Prop :=
  ms.length = n ∧ ∀ k, k < n → ms[k]? = some (src k, dst k)

/-- The operation of a copy of the executing context (R351, R364). -/
def copyOp (s : State) (kinds : BitVec 8) (ranges : List Rng) (what : OpWhat) : Op :=
  { id := s.nextOp, ctx := s.cix, kinds, ctr := some .cp, ranges, lock := [], what }

/-- Byte k of the own scratchpad as it stands at issue. -/
def State.nowAt (s : State) (o : Nat) : Src := .known (s.getLoc (.scr s.cur o))

/-- Every row of a side of CPY2D may be accessed (R367). -/
def State.RowsAllowed (s : State) (wr : Bool) (start pitch rows w : Nat) : Prop :=
  0 < w → ∀ r, r < rows → s.OwnAllowed engCpy wr (start + r * pitch) w

/-- Bytes from a side's first to its last (R366); none where nothing is copied. -/
def sideSpan (rows w pitch : Nat) : Nat := if rows = 0 ∨ w = 0 then 0 else (rows - 1) * pitch + w

/-- Store cell k of ACOPY's window, row by row (R351). -/
def windowCell (row col nc k : Nat) : Nat := (row + k / nc) % 512 * 512 + (col + k % nc) % 512

/-- Nothing but an operation of some number, if that, holds a write at a cycle (R182, R245). -/
def Held.freedBy (h : Held) (id cyc : Nat) : Bool := h.ops.all (· == id) && !h.check && decide (h.till ≤ cyc)

/-- Only one die's fabric interface and colander differ beyond the cores and memory. -/
def DieOnly (s t : State) (dn : Nat) : Prop := ∀ k, k ≠ dn → t.die k = s.die k

/-- The gather or scatter that a word issues (R206): its tag, its page, its list and its data as they stand. -/
structure GatherFor (s : State) (g : GatherOp) (scat : Bool) (sz : Fin 4) (h : Fin 16) (l d n : Nat) : Prop where
  tag : g.tag = (s.die (dieOf s.cur)).tagCount
  who : g.core = s.cur ∧ g.ctx = s.cix ∧ g.op = s.nextOp ∧ g.vf = s.me.vf
  kind : g.scat = scat ∧ g.sz = sz
  page : g.base = .ofNat 64 (Handle.va (s.hreg h))
  list : g.idx.length = n ∧ ∀ e, e < n → g.idx[e]? = some (s.scr64 s.cur (l + 8 * e))
  data : scat = true → g.data = s.scrBytes s.cur d (2 ^ sz.val * n)
  start : g.dst = d ∧ g.next = 0 ∧ g.parked = 0 ∧ g.wrote = [] ∧ g.stalled = []

/-- An access through a leaf does not go: its frame lies in the remote window, and its HOME names the package itself or
none that can be reached, or the endpoint there refuses it (R161, R209). -/
def Leaf.Refused (s : State) (l : Leaf) (va : Nat) : Prop :=
  isRemote l.frame = true ∧ (l.hpkg = s.pkg.toNat ∨ Config.packageReachable l.hpkg = false
    ∨ Config.remoteRefuses (globalAddr l.hpkg (l.frame + va % pageBytes l.psize)) s.cycle = true)

/-- The fault that an element at an address meets, by its code (R209). -/
def ElementFaults (s : State) (g : GatherOp) (va code : Nat) : Prop :=
  code = 3 ∧ 2 ^ 56 ≤ va ∨ va < 2 ^ 56 ∧ (code = 1 ∧ s.walk g.vf va = none ∨ ∃ l, s.walk g.vf va = some l
    ∧ if g.scat = true ∧ l.w = false then code = 2 else code = 4 ∧ l.Refused s va)

/-- The element at an address may be accessed, and its first byte lies at a (R206, R209). -/
def ElementAt (s : State) (g : GatherOp) (va a : Nat) : Prop :=
  va < 2 ^ 56 ∧ ∃ l, s.walk g.vf va = some l ∧ (g.scat = true → l.w = true)
    ∧ ¬ l.Refused s va ∧ a = globalAddr l.hpkg (l.frame + va % pageBytes l.psize)

/-- A later element of a scatter has written at the place of one: of duplicates the higher index stands (R207). -/
def GatherOp.Overtaken (g : GatherOp) (e a : Nat) : Prop := ∃ k, e < k ∧ (k, a) ∈ g.wrote

/-- An element has been performed (R206): a gather's position has the bytes at its address, a scatter's address
its bytes of the data. -/
def ElementDone (s t : State) (g : GatherOp) (e a : Nat) : Prop :=
  let z := 2 ^ g.sz.val
  if g.scat = true then Wrote s t (fun k => .mem (a + k)) ((g.data.drop (e * z)).take z)
  else Wrote s t (fun k => .scr g.core (g.dst + e * z + k)) (s.memBytes a z)

/-- The entry of an element that parks (R209, R210). -/
def entryFor (k : Die) (g : GatherOp) (e va code : Nat) : ColEnt :=
  { seq := k.seqCount, va := .ofNat 64 va, pos := e, tag := g.tag, vf := g.vf, core := g.core, ctx := g.ctx
    scat := g.scat, sz := g.sz, code, popped := false, replay := none }

/-- What an event of the fabric interface leaves unchanged: every context, and every core's units but its
scratchpad. -/
structure FabricStep (s t : State) (dn : Nat) : Prop where
  package : { t with cores := s.cores, mem := s.mem, dies := s.dies, agenda := s.agenda } = s
  cores : ∀ k, { t.core k with scr := (s.core k).scr } = s.core k
  dies : DieOnly s t dn

/-- The entry of a die's colander that CQPOP moves (R211): the oldest that has not been popped. -/
def NextToPop (k : Die) (e : ColEnt) : Prop :=
  ∃ l l', k.colander = l ++ e :: l' ∧ (∀ x ∈ l, x.popped = true) ∧ e.popped = false

/-- An entry's 32 bytes (R210). -/
structure EntryBytes (e : ColEnt) (b : List Byte) : Prop where
  size : b.length = 32
  va : leVal (b.take 8) = e.va.toNat
  pos : leVal ((b.drop 8).take 4) = e.pos % 2 ^ 32
  tag : leVal ((b.drop 12).take 4) = e.tag.toNat
  who : leVal ((b.drop 16).take 4) = ((if e.vf = 64 then 2 ^ 11 else e.vf * 2 ^ 26) + e.core * 2 ^ 17 + e.ctx.val * 2 ^ 15
    + (if e.scat = true then 2 ^ 14 else 0) + e.sz.val * 2 ^ 12 + e.code) % 2 ^ 32
  seq : leVal ((b.drop 20).take 4) = e.seq.toNat
  zero : leVal (b.drop 24) = 0

/-- A replay of an element waits (R212): an earlier element of its operation has been popped. -/
def ReplayWaits (k : Die) (e : ColEnt) : Prop :=
  ∃ l x l' l'', k.colander = l ++ x :: l' ++ e :: l'' ∧ x.popped = true ∧ x.tag = e.tag

end Sys2Proof.Machine
end

