-- ==== Sys2Proof/Safety/Walkers.lean ====
section
/-! DEFINITION. The terms of statements about fibres, streams and cutters: reads through the lease translation
store (R200), sparse tensors (R194 to R196), tiles (R202, R203). -/

namespace Sys2Proof.Machine

/-- A walker's read of n bytes goes (R200): every byte lies in a lease, every page is mapped, and they are b. -/
def State.WalkerReads (s : State) (vf va n : Nat) (b : List Byte) : Prop :=
  (∀ k, k < n → va + k < 2 ^ 56 ∧ s.leased vf (va + k) = true) ∧ s.vread vf va n = some b

/-- Byte k is the first of a walker's read that lies in no lease (R200). -/
def State.WalkerBreach (s : State) (vf va n k : Nat) : Prop :=
  k < n ∧ (2 ^ 56 ≤ va + k ∨ s.leased vf (va + k) = false)
    ∧ ∀ j, j < k → va + j < 2 ^ 56 ∧ s.leased vf (va + j) = true

/-- The coordinate at a position of a bitmap's word (R198). -/
def CoordinateIs (w pos co : Nat) : Prop :=
  co ≤ 64 ∧ (co < 64 → w.testBit co = true ∧ ((List.range co).filter fun i => w.testBit i).length = pos)
    ∧ (co = 64 → ((List.range 64).filter fun i => w.testBit i).length ≤ pos)

/-- A sparse tensor descriptor at an address is well formed (R194). -/
structure SparseLegal (va : Nat) (d : Block64) : Prop where
  aligned : va % 64 = 0
  levels : 2 ≤ blk d 0 8 ∧ blk d 0 8 ≤ 4
  fmt : blk d 8 8 ∈ [3, 4, 6, 7, 8, 9, 10, 11, 12]
  rank : 1 ≤ blk d 16 8 ∧ blk d 16 8 ≤ 4
  reserved : blk d 24 40 = 0
  extents : ∀ n, n < 4 → if n < blk d 16 8 then 1 ≤ blk d (64 + 32 * n) 32 ∧ blk d (64 + 32 * n) 32 ≤ 2 ^ 31
    else blk d (64 + 32 * n) 32 = 0
  mids : (blk d 0 8 = 2 → blk d 256 64 = 0) ∧ (blk d 0 8 < 4 → blk d 320 64 = 0)
  pointers : ∀ n, n < 5 → blk d (192 + 64 * n) 64 % 8 = 0
  values : blk d 448 64 % ((fmtSize (blk d 8 8)).getD 1) = 0
  coordinate : ((List.range (blk d 16 8 - 1)).map fun n => blk d (96 + 32 * n) 32).foldl (· * ·) 1 ≤ 2 ^ 32 - 1

/-- A word of memory at a virtual address. -/
def State.vword (s : State) (vf a : Nat) : Nat := ((s.vread vf (a % 2 ^ 64) 8).map leVal).getD 0

/-- Bit e of a level of a tensor (R195): of the top bitmap, or of the node that its parent's bit names, whose
place in the level's node array is the number of set bits before it. Levels are listed from the lowest up. -/
def State.nodeBit (s : State) (vf top n : Nat) : List Nat → Nat → Bool
  | [], e => decide (e < n) && (s.vword vf (top + 8 * (e / 64))).testBit (e % 64)
  | a :: up, e => s.nodeBit vf top n up (e / 64)
      && (s.vword vf (a + 8 * ((List.range (e / 64)).filter (s.nodeBit vf top n up)).length)).testBit (e % 64)

/-- p is the position just after the n-th set bit of coordinate c at or after position a, or R (R202). -/
def SkipIs (r : Nat) (es : List Nat) (c a n p : Nat) : Prop :=
  if n ≤ nnz r es c a r then a < p ∧ p ≤ r ∧ nnz r es c a p = n ∧ nnz r es c a (p - 1) = n - 1 else p = r

/-- Set bits of the coordinates from c up to, not including, h. -/
def tileCount (r : Nat) (es : List Nat) (c h : Nat) : Nat :=
  (es.filter fun e => decide (c * r ≤ e) && decide (e < h * r)).length

/-- The next tile of a tensor (R202): the register after, and pD. -/
def NextTile (t : Sparse) (es : List Nat) (k k' : Cutter) (p : Bool) : Prop :=
  let r := t.r
  let c := k.cur.toNat
  k'.tdesc = k.tdesc ∧ k'.bud = k.bud ∧ k'.isOpen = k.isOpen ∧
  if k.split = true ∧ k.cur = k.lo then
    p = false ∧ k'.lo = k.lo ∧ k'.hi = k.hi ∧ k'.split = true ∧ k'.empty = k.empty ∧ k'.elem = k.eend
      ∧ if k.bud.toNat < nnz r es c k.eend.toNat r then
          k'.cnt = k.bud ∧ k'.cur = k.cur ∧ SkipIs r es c k.eend.toNat k.bud.toNat k'.eend.toNat
        else k'.cnt.toNat = nnz r es c k.eend.toNat r ∧ k'.cur = k.cur + 1 ∧ k'.eend.toNat = r
  else if ∀ e ∈ es, e < c * r then
    p = true ∧ k'.lo = k.cur ∧ k'.hi.toNat = t.ext0 ∧ k'.cur = k'.hi ∧ k'.cnt = 0 ∧ k'.eend.toNat = r
      ∧ k'.split = false ∧ k'.elem = 0 ∧ k'.empty = true
  else p = false ∧ k'.lo = k.cur ∧ k'.elem = 0 ∧ k'.empty = false ∧
    if k.bud.toNat < nnz r es c 0 r then
      k'.hi = k.cur + 1 ∧ k'.cur = k.cur ∧ k'.cnt = k.bud ∧ k'.split = true ∧ SkipIs r es c 0 k.bud.toNat k'.eend.toNat
    else c < k'.hi.toNat ∧ k'.hi.toNat ≤ t.ext0 ∧ k'.cur = k'.hi ∧ k'.split = false ∧ k'.eend.toNat = r
      ∧ k'.cnt.toNat = tileCount r es c k'.hi.toNat ∧ k'.cnt.toNat ≤ k.bud.toNat
      ∧ (k'.hi.toNat < t.ext0 → k.bud.toNat < k'.cnt.toNat + nnz r es k'.hi.toNat 0 r)

/-- A partner cut to a cutter's last tile (R203): the register after, and pD. -/
def PartnerTile (tp : Sparse) (es : List Nat) (kn kp k' : Cutter) (p : Bool) : Prop :=
  let r := tp.r
  let n := if kn.split = true then nnz r es kn.lo.toNat kn.elem.toNat kn.eend.toNat
    else tileCount r es kn.lo.toNat kn.hi.toNat
  { k' with cnt := kp.cnt, empty := kp.empty } =
      { kp with lo := kn.lo, hi := kn.hi, split := kn.split, elem := kn.elem, eend := kn.eend, cur := kn.cur }
    ∧ (n < 2 ^ 32 → k'.cnt.toNat = n ∧ (k'.empty = true ↔ n = 0) ∧ (p = true ↔ kp.bud.toNat < n))

end Sys2Proof.Machine
end

