-- ==== Sys2Proof/Safety/System.lean ====
section
/-! DEFINITION. The terms of statements about the system words: wait objects (R414), system registers (R77 to R79),
barriers (R233), skewers (R230). -/

namespace Sys2Proof.Machine

/-- A counter is at or below its bound; 31 is none (R174). -/
def CounterWithin (n : Nat) (b : BitVec 5) : Prop := b = 31 ∨ n ≤ b.toNat

/-- The context holds the array or has a phase open, and stays in place at a suspension point (R41, R398). -/
def State.Stays (s : State) : Prop := s.myCore.arr.owner = some s.cix ∨ s.me.phase ≠ none

/-- A wait object that SUSP takes (R414). -/
def WaitObject (s : State) (v : Word) : Prop :=
  let kind := v.toNat / 2 ^ 60
  let a := v.toNat % 2 ^ 56
  v.toNat / 2 ^ 56 % 16 = 0 ∧ (kind = 2 ∧ a < 2 ^ 22 ∧ s.HoldsRange (a / 8 * 8) 8
    ∨ kind = 3 ∧ a < 2 ^ 40 ∧ (∃ e, aget s.colTab (a / 2 ^ 32) = some e ∧ e.serial.toNat = a % 2 ^ 32)
    ∨ kind = 4 ∧ a % 64 = 0 ∧ s.leased s.me.vf a = true ∧ a ≠ s.me.jcbp.toNat)

/-- What MFS reads of the registers that a context's own words write (R77). -/
def ownSys (g : Regs) : SysReg → Nat
  | .fpctl => g.fpctl.toNat | .fpflg => g.fpflg.toNat | .safebnd => g.safebnd.toNat | .tvec => g.tvec.toNat
  | .epc => g.epc.toNat | .ecause => g.ecause.toNat | .einfo => g.einfo.toNat | .edelay => g.edelay.toNat
  | _ => 0

/-- COREID by its fields (R79). -/
structure IsCoreId (s : State) (v : Word) : Prop where
  pkg : v.toNat / 2 ^ 32 = s.pkg.toNat
  core : v.toNat / 2 ^ 16 % 2 ^ 16 = s.cur
  die : v.toNat / 2 ^ 7 % 2 ^ 9 = s.cur / 96
  row : v.toNat / 2 ^ 4 % 2 ^ 3 = s.cur / 12 % 8
  strip : v.toNat % 2 ^ 4 = s.cur % 12

/-- What MFS reads (R77, R390): each register as it stood before the bundle. -/
def SysReads (s : State) (r : SysReg) (v : Word) : Prop :=
  match r with
  | .nbv => v = 1
  | .cls => v.toNat = s.src.cls.toNat
  | .ctxid => v.toNat = s.cix.val
  | .coreid => s.cur < 384 → IsCoreId s v
  | .launchp => v = s.me.launchp
  | .jcbp => v = s.me.jcbp
  | .strict => v.toNat = (if s.me.strict = true then 1 else 0) + if s.me.phase = none then 0 else 2
  | .cycle => v = .ofNat 64 s.cycle
  | r => v.toNat = ownSys s.src r

/-- MTS takes a value (R77, R78). -/
def MtsLegal (r : SysReg) (v : Nat) : Prop :=
  match r with
  | .fpctl => v < 2 ^ 15 ∧ v / 2 ^ 5 % 2 ^ 3 = 0 ∧ v % 2 ^ 3 ≤ 4
  | .fpflg => v < 2 ^ 7
  | .safebnd => v < 2 ^ 32
  | .ecause => v < 2 ^ 8
  | .tvec | .epc | .einfo | .edelay => True
  | _ => False

/-- Trap causes in the order of their codes (R243). -/
def causes : List Cause :=
  [.illSlot, .illMod, .illBundle, .classOrder, .dupWrite, .misalignEntry, .delayBranch, .fetchFault, .handleStale,
    .leaseBreach, .bufOwner, .phaseOverlap, .phaseEscape, .scaleImbalance, .symBreak, .orbitRange, .mtxNotOwned,
    .atomicRoute, .fibreMalformed, .bkselRange, .jcbLate, .intDiv0, .fpTrap, .xferLate, .swTrap]

/-- The task ends by this trap (R243, R244, R247): in a handler, with no handler set, or by its cause. -/
def EndsTask (r : Regs) (cause : Cause) (info : Word) : Prop :=
  r.ecause.getLsbD 7 = true ∨ r.tvec = 0 ∨ cause = .leaseBreach
    ∨ cause = .phaseEscape ∧ info.toNat / 2 ^ 32 % 16 = 3

/-- An array event of the executing core that a trap of its holder captures (R252, R253). -/
def State.Captured (s : State) (e : Nat × Instr) : Prop :=
  s.myCore.arr.owner = some s.cix ∧ s.cycle < e.1 ∧
  match e.2 with
  | .groupReady k _ | .mbeatAFold k _ | .foldRetire k _ | .mdrainRetire k _ _ _ _ => k = s.cur
  | _ => False

/-- A bundle that has run words before it traps is rolled back to its issue (R245, R247, R253): its operations, held
writes, gathers and what else its words changed are gone, and where a check of it was pending the array, if the context
holds it, is as it stood. -/
structure RolledBack (s t : State) (u : Undo) (checked : Prop) : Prop where
  package : { t with cores := s.cores, agenda := s.agenda, dies := s.dies } = s
  cores : ∀ k, k ≠ s.cur → t.core k = s.core k
  others : ∀ j, j ≠ s.cix → t.ctx s.cur j = s.ctx s.cur j
  units : { t.core s.cur with ctxs := s.myCore.ctxs, arr := s.myCore.arr, acc := s.myCore.acc, ops := s.myCore.ops
                              held := s.myCore.held, scr := s.myCore.scr, fe := s.myCore.fe } = s.core s.cur
  ops : (t.core s.cur).ops = s.myCore.ops.filter fun o => !(o.ctx == s.cix && decide (u.first ≤ o.id))
  held : ∀ h ∈ (t.core s.cur).held, ∃ g ∈ s.myCore.held, ¬ (g.ctx = s.cix ∧ u.first ≤ g.store)
    ∧ h = { g with ops := g.ops.filter fun n => !s.myCore.ops.any fun o => o.ctx == s.cix && decide (u.first ≤ o.id) && o.id == n }
  unheld : (∀ h ∈ s.myCore.held, h.ctx = s.cix ∧ u.first ≤ h.store) →
    (t.core s.cur).scr = s.myCore.scr ∧ (t.core s.cur).fe = s.myCore.fe
  gathers : ∀ d, ∀ g ∈ (s.die d).gathers, (g ∈ (t.die d).gathers ∨ d = dieOf s.cur ∧ g.core = s.cur
    ∧ ∃ o ∈ s.myCore.ops, o.id = g.op ∧ o.ctx = s.cix ∧ u.first ≤ o.id)
  counters : ∀ k, t.me.ctr k = s.me.ctr k - (s.myCore.ops.filter fun o =>
    o.ctx == s.cix && decide (u.first ≤ o.id) && o.ctr == some k).length
  sets : t.me.phase = u.phase ∧ t.me.dgst = u.dgst ∧ t.me.seq = u.seq ∧ t.me.loop = u.loop
  marks : (∀ x ∈ t.me.sb, (x ∈ s.me.sb ∧ x ∈ u.sb) ∨ ∃ n ∈ drainTiles u.events, x.1 = .t n) ∧ ∀ x ∈ s.me.sb, x ∈ u.sb → x ∈ t.me.sb
  array : (checked → s.myCore.arr.owner = some s.cix →
      (t.core s.cur).acc = u.acc ∧ { (t.core s.cur).arr with shadow := u.arr.shadow } = u.arr)
    ∧ (¬ (checked ∧ s.myCore.arr.owner = some s.cix) → (t.core s.cur).acc = s.myCore.acc
      ∧ { (t.core s.cur).arr with shadow := s.myCore.arr.shadow } = s.myCore.arr)
  ended : t.me.undo = none ∧ t.me.checks = [] ∧ t.me.failed = none ∧ t.me.snap = none ∧ t.me.deferred = none

/-- A task may arrive at a scope, at a target level whose objects lie at or above those of its parent level
(R232, R233). -/
structure ArrivesAt (s : State) (sc : Scope) (tgt par : Nat) : Prop where
  parent : par + 2 = (s.levels s.me.vf).length
  above : tgt ≤ par
  own : s.me.spwn = false
  level : if sc = .sys then tgt = 0 else ∃ d l, scopeDomain sc = some d ∧ (s.levels s.me.vf)[tgt]? = some l ∧ l.domain = d
    ∧ ∀ j m, j < tgt → (s.levels s.me.vf)[j]? = some m → m.domain ≠ d

/-- The object of a level on the executing task's path. -/
def State.pathBar (s : State) (l : Nat) : Barrier := s.bar (barOn s.me.vf (s.levels s.me.vf) s.me.logical l)

/-- Only barrier objects, contexts, rows and events differ. -/
structure BarrierStep (s t : State) (core : Nat) (i : Fin 4) : Prop where
  package : { t with cores := s.cores, bars := s.bars, rows := s.rows, agenda := s.agenda, delays := s.delays
                     cur := s.cur, cix := s.cix } = s
  cores : ∀ k, { t.core k with ctxs := (s.core k).ctxs } = s.core k
  others : ∀ k j, k ≠ core ∨ j ≠ i → t.ctx k j = s.ctx k j
  rows : ∀ r, { t.row r with phase := (s.row r).phase, shots := (s.row r).shots } = s.row r

/-- An object is complete with one arrival more (R233). -/
def Barrier.Completes (b : Barrier) : Prop := b.who.length + 1 = b.count

/-- What one arrival more leaves of an object that it does not complete, or that sends it upward (R233). -/
def Barrier.counted (b : Barrier) (child tgt : Nat) (x : Bool) : Barrier :=
  { b with who := b.who ++ [child], tgt := if b.who = [] then tgt else b.tgt, xf := if b.who = [] then x else b.xf }

/-- An arrival is refused (R233, R234): the task has arrived already, or an object on its path holds arrivals of
another target or kind. -/
def RefusesArrival (s : State) (tgt par : Nat) (x : Bool) : Prop :=
  s.me.logical ∈ (s.pathBar par).who
    ∨ ∃ l, tgt ≤ l ∧ l ≤ par ∧ (s.pathBar l).who ≠ [] ∧ ¬ ((s.pathBar l).tgt = tgt ∧ (s.pathBar l).xf = x)

/-- A task of an object's instance runs in a row of this package (R44, R51). -/
def State.MemberIn (s : State) (k : BarKey) (r i : Nat) : Prop :=
  i ∈ instanceTasks (s.levels k.vf) k ∧ s.taskRow k.vf i = some r

/-- The flip of a target object at the row level starts a transfer phase in its members' rows, whose tasks are those of
the instance there, or ends the one of their launch (R228, R229). -/
def RowsAfterFlip (s t : State) (k : BarKey) (x : Bool) : Prop :=
  ∀ r, let hit : Prop := targetLevel (s.levels k.vf) .row = some k.level ∧ ∃ i, s.MemberIn k r i
    let own : Prop := ∃ p, (s.row r).phase = some p ∧ p.vf = k.vf
    (hit → x = true → ∃ p, (t.row r).phase = some p ∧ p.start = s.cycle ∧ p.vf = k.vf
      ∧ ∀ i, i ∈ p.members ↔ s.MemberIn k r i)
    ∧ (hit → x = false → own → (t.row r).phase = none ∧ (t.row r).shots = [])
    ∧ (¬ (hit ∧ (x = true ∨ own)) → t.row r = s.row r)

/-- The executing context's arrival is counted (R233): objects on its path up to the first that it does not complete
count it; the target object, if it is complete, flips. -/
def Counts (s t : State) (tgt par : Nat) (x : Bool) : Prop :=
  let key (l : Nat) : BarKey := barOn s.me.vf (s.levels s.me.vf) s.me.logical l
  let child (l : Nat) : Nat := posAt (s.levels s.me.vf) s.me.logical (l + 1)
  let reaches (l : Nat) : Prop := tgt ≤ l ∧ l ≤ par ∧ ∀ m, l < m → m ≤ par → (s.pathBar m).Completes
  ((∃ l, tgt ≤ l ∧ l ≤ par ∧ ¬ (s.pathBar l).Completes) →
    (∀ l, reaches l → t.bar (key l) = (s.pathBar l).counted (child l) tgt x)
      ∧ (∀ k, (∀ l, reaches l → k ≠ key l) → t.bar k = s.bar k) ∧ t.rows = s.rows)
  ∧ (tgt = par → (s.pathBar par).Completes →
    t.bar (key par) = { (s.pathBar par).counted (child par) tgt x with
      who := [], xf := false, epoch := (s.pathBar par).epoch + 1 }
      ∧ (∀ k, k ≠ key par → t.bar k = s.bar k) ∧ RowsAfterFlip s t (key par) x)
  ∧ ((∀ l, tgt ≤ l → l ≤ par → (s.pathBar l).Completes) →
    RowsAfterFlip s t (key tgt) x
      ∧ (∀ l, tgt ≤ l → l ≤ par → (t.bar (key l)).who = [] ∧ (t.bar (key l)).xf = false
          ∧ (s.pathBar l).epoch < (t.bar (key l)).epoch)
      ∧ (∀ k, k.vf ≠ s.me.vf ∨ k.level < tgt ∨ par < k.level ∨ k.level = tgt ∧ k ≠ key tgt → t.bar k = s.bar k)
      ∧ (tgt + 1 = par →
        let arrived := (s.pathBar tgt).who ++ [posAt (s.levels s.me.vf) s.me.logical par]
        arrived.Nodup → ∀ p, t.bar ⟨s.me.vf, par, p⟩ =
          let b := if p = (key par).pos then (s.pathBar par).counted (child par) tgt x else s.bar ⟨s.me.vf, par, p⟩
          if p ∈ arrived then { b with who := [], xf := false, epoch := b.epoch + 1 } else b))

/-- What comes from another package about an object above the package (R232, R233): at the head of the function's
partition an arrival that the object takes and does not complete, elsewhere a flip. -/
def SpikeTaken (s t : State) (k : Spike) : Prop :=
  { t with bars := s.bars } = s ∧
  match k with
  | .arrive vf l child tgt x => t.bar (barOn vf (s.levels vf) (child * units ((s.levels vf).drop (l + 2))) l)
        = (s.bar (barOn vf (s.levels vf) (child * units ((s.levels vf).drop (l + 2))) l)).counted child tgt x
      ∧ ∀ b, b ≠ barOn vf (s.levels vf) (child * units ((s.levels vf).drop (l + 2))) l → t.bar b = s.bar b
  | .flip vf l pos => let b := s.bar ⟨vf, l, pos⟩
      (t.bar ⟨vf, l, pos⟩).who = [] ∧ b.epoch < (t.bar ⟨vf, l, pos⟩).epoch
        ∧ ∀ c, c.vf ≠ vf ∨ c.level < l ∨ c.level = l ∧ c.pos ≠ pos → t.bar c = s.bar c

/-- The conditions of that. -/
def SpikeFits (s : State) (k : Spike) : Prop :=
  match k with
  | .arrive vf l child tgt x => let b := s.bar (barOn vf (s.levels vf) (child * units ((s.levels vf).drop (l + 2))) l)
      aboveLevel (s.levels vf) l = true ∧ s.headOf vf = true ∧ tgt ≤ l ∧ child < units ((s.levels vf).take (l + 2))
        ∧ child ∉ b.who ∧ (b.who ≠ [] → b.tgt = tgt ∧ b.xf = x) ∧ ¬ b.Completes
  | .flip vf l pos => aboveLevel (s.levels vf) l = true ∧ s.headOf vf = false ∧ (s.bar ⟨vf, l, pos⟩).who ≠ []

/-- A word or event of a context may act in its row's transfer phase (R228, R229). -/
def State.PhaseContext (s : State) (p : TransferPhase) : Prop :=
  (s.row (rowOf s.cur)).phase = some p ∧ s.me.InPhase p

/-- An operand put on a skewer stands at a position in a cycle (R230). -/
def Shot.Stands (o : Shot) (west : Bool) (pos cyc : Nat) : Prop :=
  o.west = west ∧ if west = true then pos ≤ o.pos ∧ o.cycle + o.pos = cyc + pos else o.pos ≤ pos ∧ o.cycle + pos = cyc + o.pos

/-- What a stage holds (R230): the operand that stands there, put on nearest to it, which replaced what would have
come through its own stage. -/
def StageHolds (l : List Shot) (west : Bool) (pos cyc : Nat) (v : Tile) : Prop :=
  ((∀ o ∈ l, ¬ o.Stands west pos cyc) ∧ v = 0)
    ∨ ∃ a o b, l = a ++ o :: b ∧ o.Stands west pos cyc ∧ v = o.data
      ∧ (∀ y ∈ a, y.Stands west pos cyc → o.cycle ≥ y.cycle) ∧ ∀ y ∈ b, y.Stands west pos cyc → o.cycle > y.cycle

end Sys2Proof.Machine
end

