-- ==== Sys2Proof/Safety/Strict.lean ====
section
/-! DEFINITION. The terms of statements about strict mode and the loop sequencer: blocks (R176), overlap (R177),
tiles of a nest in order (R67, R151, R381); and of child tasks (R57, R408). -/

namespace Sys2Proof.Machine

/-- An entry of a phase or digest block keeps to its table (R176). -/
structure EntryLegal (e : Word) : Prop where
  zero : e.toNat / 2 ^ 22 % 2 = 0 ∧ e.toNat / 2 ^ 56 % 2 ^ 5 = 0
  strip : pStrip e < 12 ∨ pStrip e = 15 ∧ pBuf e = 0
  range : 1 ≤ pLen e ∧ pStart e + pLen e ≤ if pStrip e = 15 then 2 ^ 22 else 2 ^ 16

/-- The block at an offset of the own scratchpad holds some entries (R176): its header and its place are legal, and
the core holds what it lies in. -/
structure BlockHolds (s : State) (o : Nat) (es : List Word) : Prop where
  header : s.scr64 s.cur o = .ofNat 64 es.length ∧ es.length ≤ 64
  place : o + 8 + 8 * es.length ≤ 2 ^ 22 ∧ s.HoldsRange o (8 + 8 * es.length)
  entries : ∀ k, k < es.length → es[k]? = some (s.scr64 s.cur (o + 8 + 8 * k))

/-- At most 8 entries name one engine and direction (R177). -/
def NotCrowded (es : List Word) : Prop :=
  ∀ eng dir, (es.filter fun e => pEng e == eng && pDir e == dir).length ≤ 8

/-- Two entries name a common byte, and one of them writes (R177). -/
def EntriesMeet (strip : Nat) (a b : Word) : Prop :=
  (pDir a = true ∨ pDir b = true) ∧ ∃ sp o, EntryCovers strip a sp o ∧ EntryCovers strip b sp o

/-- An entry of another context's open phase on the executing core (R177). -/
def State.OthersEntry (s : State) (e : Word) : Prop :=
  ∃ i, i ≠ s.cix ∧ (s.ctx s.cur i).task = true ∧ ∃ es, (s.ctx s.cur i).phase = some es ∧ e ∈ es

/-- Own entry i meets a later own entry of another engine. -/
def MeetsOwn (strip : Nat) (es : List Word) (i j : Nat) : Prop :=
  i < j ∧ ∃ a b, es[i]? = some a ∧ es[j]? = some b ∧ pEng a ≠ pEng b ∧ EntriesMeet strip a b

/-- Own entry i meets an entry of another context. -/
def State.MeetsOther (s : State) (es : List Word) (i : Nat) : Prop :=
  ∃ a b, es[i]? = some a ∧ s.OthersEntry b ∧ EntriesMeet (stripOf s.cur) a b

/-- The first pair that overlaps, in entry order; 0x3F stands for another context's entry (R177). -/
def State.FirstPair (s : State) (es : List Word) (i j : Nat) : Prop :=
  let strip := stripOf s.cur
  (∀ k, k < i → (∀ m, ¬ MeetsOwn strip es k m) ∧ ¬ s.MeetsOther es k)
    ∧ (MeetsOwn strip es i j ∧ (∀ m, m < j → ¬ MeetsOwn strip es i m)
      ∨ (∀ m, ¬ MeetsOwn strip es i m) ∧ s.MeetsOther es i ∧ j = 0x3F)

/-- Combinations of indices in a nest's order, the innermost loop fastest: loops with their indices (R67). -/
def combinations (trip : Nat → Nat) : List Nat → List (List (Nat × Nat))
  | [] => [[]]
  | j :: t => (List.range (trip j)).flatMap fun v => (combinations trip t).map fun ix => (j, v) :: ix

/-- A combination is a tile (R151, R381): without output filtering every one is. -/
def IsTile (d out : Block64) (ix : List (Nat × Nat)) : Bool :=
  let a := (ix.lookup (blk d 24 3)).getD 0
  let b := (ix.lookup (blk d 28 3)).getD 0
  !d.getLsbD 16 || match (descOf out).gens with
    | [] => true
    | g :: _ => if g.kind = 0 then decide (a * blk d 320 32 < (b + 1) * blk d 352 32) else decide (a = 0)

/-- The tiles of a declared nest, in its order. -/
def tilesOf (d out : Block64) : List (List (Nat × Nat)) :=
  (combinations (fun j => blk d (128 + 32 * j) 32) ((List.range (blk d 0 8)).map fun p => blk d (32 + 8 * p) 8)).filter
    (IsTile d out)

/-- A declaration keeps to its table (R380), in a launch of n levels. -/
structure DeclLegal (n : Nat) (d : Block64) : Prop where
  loops : 1 ≤ blk d 0 8 ∧ blk d 0 8 ≤ 6
  level : blk d 8 8 < n
  zero : blk d 20 4 = 0 ∧ blk d 80 48 = 0 ∧ blk d 384 128 = 0
  output : if d.getLsbD 16 = true then blk d 27 1 = 0 ∧ blk d 31 1 = 0 ∧ blk d 24 3 < blk d 0 8 ∧ blk d 28 3 < blk d 0 8
      ∧ 1 ≤ blk d 320 32 ∧ 1 ≤ blk d 352 32 else blk d 24 8 = 0 ∧ blk d 320 64 = 0
  perm : ∀ j, j < blk d 0 8 → ∃ p, p < blk d 0 8 ∧ blk d (32 + 8 * p) 8 = j
  rest : ∀ p, p < 6 → blk d 0 8 ≤ p → blk d (32 + 8 * p) 8 = 0 ∧ blk d (128 + 32 * p) 32 = 0

/-- An output descriptor that a nest admits (R381): no generator, or one SYM or CIRC over axes 0 and 1. -/
def OutputLegal (out : Block64) : Prop :=
  (descOf out).gens = [] ∨ ∃ g, (descOf out).gens = [g] ∧ g.axes = [0, 1] ∧ (g.kind = 0 ∨ g.kind = 2)

/-- What is written to some places of memory leaves a function's translations as they are. -/
def State.TablesApart (s : State) (vf : Nat) (w : Nat → Prop) : Prop :=
  ∀ m va, (∀ a, ¬ w a → cget m a = cget s.mem a) → ({ s with mem := m } : State).xlate vf va = s.xlate vf va

/-- n bytes from a virtual address lie one after another from a place. -/
def State.LiesAt (s : State) (vf va n p : Nat) : Prop := s.vplaces vf va n = some ((List.range n).map (p + ·))

/-- Only the parts of a function's job, of a row's pass and of memory that an event of its tasks may change differ,
beyond contexts and events. -/
structure JobStep (s t : State) : Prop where
  package : { t with cores := s.cores, mem := s.mem, rows := s.rows, dies := s.dies, vfs := s.vfs, agenda := s.agenda
                     delays := s.delays, cur := s.cur, cix := s.cix } = s
  cores : ∀ k, { t.core k with ctxs := (s.core k).ctxs } = s.core k
  rows : ∀ r, { t.row r with pass := (s.row r).pass } = s.row r
  dies : ∀ d, { t.die d with spilled := (s.die d).spilled } = s.die d

/-- An entry of a pass that is spilled before others (R44): a lower class, or of its class an older one. -/
def PassEnt.SpillsBefore (e x : PassEnt) : Prop := e.cls < x.cls ∨ e.cls = x.cls ∧ e.since < x.since

/-- The entry that a pass spills (R44): none stands before it. -/
def SpillsFrom (l : List PassEnt) (e : PassEnt) (l' : List PassEnt) : Prop :=
  (∀ x ∈ l, e.SpillsBefore x) ∧ ∀ x ∈ l', ¬ x.SpillsBefore e

/-- A row's pass has an entry more at its end, and no other pass differs; a pass of 256 entries spills one into the
die's first (R44). -/
def PassGains (s t : State) (row : Nat) (e : PassEnt) : Prop :=
  (∀ r, r ≠ row → t.row r = s.row r) ∧ { t.row row with pass := (s.row row).pass } = s.row row
  ∧ ((s.row row).pass.length < 256 → t.dies = s.dies ∧ (t.row row).pass = (s.row row).pass ++ [e])
  ∧ (256 ≤ (s.row row).pass.length → ∀ l x l', (s.row row).pass = l ++ x :: l' → SpillsFrom l x l' →
      (t.row row).pass = l ++ l' ++ [e] ∧ (∀ d, d ≠ row / 8 → t.die d = s.die d)
        ∧ t.die (row / 8) = { s.die (row / 8) with spilled := (s.die (row / 8)).spilled ++ [(row, x)] })

end Sys2Proof.Machine
end

