-- ==== Sys2Proof/Safety/Tasks.lean ====
section
/-! DEFINITION. The terms of statements about tasks that leave and enter contexts (R41 to R45, R65, R66, R255). -/

namespace Sys2Proof.Machine

/-- Only one context differs. -/
structure OneContext (s t : State) (core : Nat) (i : Fin 4) : Prop where
  package : { t with cores := s.cores } = s
  cores : ∀ k, { t.core k with ctxs := (s.core k).ctxs } = s.core k
  others : ∀ k j, k ≠ core ∨ j ≠ i → t.ctx k j = s.ctx k j

/-- Only one context, memory, a pass, the sleeping records and the number of the next operation differ: its task has
left or entered it. -/
structure TaskStep (s t : State) (core : Nat) (i : Fin 4) : Prop where
  package : { t with cores := s.cores, mem := s.mem, rows := s.rows, dies := s.dies, sleepers := s.sleepers
                     nextOp := s.nextOp, agenda := s.agenda } = s
  cores : ∀ k, { t.core k with ctxs := (s.core k).ctxs, ops := (s.core k).ops, released := (s.core k).released } = s.core k
  others : ∀ k j, k ≠ core ∨ j ≠ i → t.ctx k j = s.ctx k j
  rows : ∀ r, { t.row r with pass := (s.row r).pass } = s.row r
  dies : ∀ d, { t.die d with spilled := (s.die d).spilled } = s.die d

/-- A context holds the array or has a phase open, and stays in place (R41, R398). -/
def State.StaysAt (s : State) (core : Nat) (i : Fin 4) : Prop :=
  (s.core core).arr.owner = some i ∨ (s.ctx core i).phase ≠ none

/-- Every destination of a context is written, its arrivals are decided and no PUBLISH is outstanding (R233, R255). -/
structure Settled (s : State) (core : Nat) (i : Fin 4) : Prop where
  written : ∀ x ∈ (s.ctx core i).sb, ∃ n, x.2 = some n ∧ n ≤ s.cycle
  arrivals : (s.ctx core i).bara = []
  fences : ∀ f ∈ (s.ctx core i).fences, f.pub = none
  hub : ∀ e ∈ s.agenda, ∀ d, e.2 ≠ .publishAck core i d

/-- The entry of a task that leaves a context (R44, R46). -/
structure EntryOf (c : Ctx) (core : Nat) (cyc : Nat) (e : PassEnt) : Prop where
  who : e.vf = c.vf ∧ e.logical = c.logical ∧ e.spwn = c.spwn
  cls : e.cls = c.regs.cls.toNat
  pin : e.pin = if c.strict = true then some core else if c.pin = true then some c.pincore else none
  recp : c.recp ≠ 0 → e.recp = c.recp
  since : e.since = cyc

/-- What a record says of its context (R35, R36), at its place in memory. -/
structure RecordAt (m : State) (q : Nat) (c : Ctx) (core : Nat) (full : Bool) (wobj : Word) : Prop where
  resume : m.mem64 q = c.pc
  save : m.mem64 (q + 8) = c.savep
  jcb : m.mem64 (q + 16) = c.jcbp
  launch : m.mem64 (q + 24) = .ofNat 64 (c.launchp.toNat % 2 ^ 56 / 2 ^ 8 * 2 ^ 8 + c.level % 8)
  wait : m.mem64 (q + 48) = wobj
  parent : m.mem64 (q + 56) = c.parent
  flags : let f := leVal (m.memBytes (q + 32) 4)
    f % 4 = c.regs.cls.toNat ∧ f.testBit 2 = (c.strict || c.pin) ∧ f.testBit 3 = c.spwn ∧ f.testBit 4 = full
      ∧ f / 2 ^ 16 % 2 ^ 9 = (if c.strict = true then core else if c.pin = true then c.pincore else 0) % 2 ^ 9

/-- What a suspension or a forced pre-emption has saved of a context (R39, R41, R42): its record, and in the save area
the registers that the masks name and the system registers. -/
structure SavedAt (m : State) (p q : Nat) (c : Ctx) (core : Nat) (full : Bool) (k : Masks) (wobj : Word) : Prop where
  record : RecordAt m q c core full wobj
  masks : m.memBytes (q + 36) 4 = toLe k.s ∧ m.memBytes (q + 40) 4 = toLe k.v ∧ m.memBytes (q + 44) 4 = toLe k.g
  registers : ∀ x ∈ places39, x.saved k = true → m.memBytes (p + x.off) x.size = x.image c.regs
  handles : k.handles = true → ∀ n : Fin 16, m.memBytes (p + 0x200 + 16 * n.val) 16 = toLe c.regs.h[n]
  system : m.memBytes (p + 0x140) 64 = sysImage c.regs

/-- Where a context's task saves to: its own save area and record, or a first place (R55, log 19, DESIGN CHOICE). -/
def State.savePlace (s : State) (c : Ctx) : Word × Word :=
  if c.recp = 0 then s.newPlace c.vf else (c.recp, c.savep)

/-- The save area of a context lies at p and its record at q, apart from each other and from the tables of its
function's pages. -/
structure SavesTo (s : State) (c : Ctx) (p q : Nat) : Prop where
  area : s.LiesAt c.vf (s.savePlace c).2.toNat 0xC800 p
  record : s.LiesAt c.vf (s.savePlace c).1.toNat 64 q
  apart : p + 0xC800 ≤ q ∨ q + 64 ≤ p
  tables : s.TablesApart c.vf fun a => p ≤ a ∧ a < p + 0xC800 ∨ q ≤ a ∧ a < q + 64

/-- Memory outside a save area and a record reads as before. -/
def KeepsElse (s t : State) (p q : Nat) : Prop :=
  ∀ a, ¬ (p ≤ a ∧ a < p + 0xC800 ∨ q ≤ a ∧ a < q + 64) → cget t.mem a = cget s.mem a

/-- A record is out of its context: it stands in its row's pass, or waits for its object (R44). -/
def Placed (s t : State) (core : Nat) (e : PassEnt) (wobj : Word) (bar : Option (BarKey × Nat)) : Prop :=
  (wobj = 0 → PassGains s t (e.pin.getD core / 12) { e with since := s.cycle } ∧ t.sleepers = s.sleepers)
  ∧ (wobj ≠ 0 → t.rows = s.rows ∧ t.dies = s.dies ∧ t.sleepers = s.sleepers ++ [⟨core, e, wobj, bar⟩])

/-- The masks of a record, every register where FULL is set (R37). -/
def Masks.named (k : Masks) (full : Bool) : Masks := if full = true then Masks.all else k

/-- A record and a save area as a suspended task left them, which its function may read (R35 to R39). -/
structure Resumable (s : State) (p q : Nat) (e : PassEnt) (c : Ctx) (last : Nat) (full : Bool) (k : Masks) (wobj : Word) :
    Prop where
  area : s.LiesAt e.vf c.savep.toNat 0xC800 p ∧ c.savep.toNat + 0xC800 ≤ 2 ^ 56
  record : s.LiesAt e.vf e.recp.toNat 64 q ∧ e.recp.toNat + 64 ≤ 2 ^ 56
  leased : ∀ n, (n < 64 → s.leased e.vf (e.recp.toNat + n) = true)
    ∧ (n < 0xC800 → s.leased e.vf (c.savep.toNat + n) = true)
  bytes : s.memBytes q 64 = c.recordBytes last full k wobj c.savep
  saved : ∀ x ∈ places39, x.saved (k.named full) = true → s.memBytes (p + x.off) x.size = x.image c.regs
  system : s.memBytes (p + 0x140) 64 = sysImage c.regs ∧ sysImageOk (sysImage c.regs) = true
  forced : s.memBytes (p + 0xA800) 8192 = List.replicate 8192 0
  legal : c.level % 8 < (s.levels e.vf).length ∧ last < 2 ^ 9 ∧ c.pincore < 2 ^ 9 ∧ k.g.toNat < 2 ^ 24
    ∧ wobj.toNat / 2 ^ 60 ≤ 4 ∧ wobj.toNat / 2 ^ 56 % 2 ^ 4 = 0

/-- A task whose record pins it may run on a core (R36, R46): on the core that it names; strict mode pins every task to
its own. -/
def State.MayRunOn (s : State) (e : PassEnt) (c : Ctx) (last core : Nat) : Prop :=
  (∃ v j, s.vf e.vf = some v ∧ v.job = some j ∧ j.strict = true)
    ∨ c.strict = false ∧ c.pin = false ∨ core = if c.strict = true then last else c.pincore

/-- The registers of a resumed task (R42, R72): those that were saved as they were, every other one at 0. -/
structure Resumed (c t : Ctx) (full : Bool) (k : Masks) : Prop where
  saved : ∀ x ∈ places39, x.saved (k.named full) = true → x.image t.regs = x.image c.regs
  others : ∀ x ∈ places39, x.saved (k.named full) = false → x.image t.regs = x.image {}
  system : sysImage t.regs = sysImage c.regs
  handles : ∀ n : Fin 16, (k.named full).handles = true → ∀ cyc, t.locked cyc (.h n) = true
  place : t.pc = c.pc ∧ t.savep = c.savep ∧ t.jcbp = c.jcbp ∧ t.parent = c.parent ∧ t.regs.cls = c.regs.cls
    ∧ t.launchp = .ofNat 64 (c.launchp.toNat % 2 ^ 56 / 2 ^ 8 * 2 ^ 8) ∧ t.level = c.level % 8
  pin : t.pin = (c.strict || c.pin)

/-- A request to a context may be acted on (R65, R66, R233, R256): no trap of a BARA's refusal is to come first (log 113,
DEDUCED), and it is no phase context in a transfer phase. -/
structure Asked (s : State) (core : Nat) (i : Fin 4) : Prop where
  task : (s.ctx core i).task = true ∧ (s.ctx core i).preq = true ∧ (s.ctx core i).frozen = false
  refusals : (s.ctx core i).landBar = []
  phase : ∀ p, (s.row (core / 12)).phase = some p → ¬ (s.ctx core i).InPhase p

/-- The request is acted on where the context stands between bundles, parked in one that has not executed, or in a wait
at a barrier or at an object (R256). -/
structure ActsOn (s : State) (core : Nat) (i : Fin 4) : Prop extends Asked s core i where
  boundary : match (s.ctx core i).wait with
    | .none => (s.ctx core i).deferred = none
    | .flip .. | .inPlace _ => True
    | _ => False

/-- A context whose request is acted on: its wait at a barrier becomes its record's object (R256). -/
def Ctx.Leaves (c c' : Ctx) (w : Wait) : Prop :=
  match c.wait with
  | .flip k e => c' = { c with park := none, wait := w, suspendBar := some (k, e) }
  | _ => c' = { c with park := none, wait := w, suspendBar := none }

/-- A context waits in WAIT, or in an LDE or STE at another core's word that has not been served: its bundle, whose
other words have begun, has not executed (R171, R256, R432). -/
structure Unexecuted (s : State) (core : Nat) (i : Fin 4) (u : Undo) : Prop extends Asked s core i where
  wait : (∃ a b c d, (s.ctx core i).wait = .counters a b c d)
    ∨ (s.ctx core i).wait = .reply ∧ ∃ p x e k n, (s.ctx core i).park = some p ∧ p.why = .fullEmpty x e k n
  bundle : (s.ctx core i).entry = some u

/-- An operation of a context's running bundle. -/
def InBundle (i : Fin 4) (u : Undo) (o : Op) : Prop := o.ctx = i ∧ u.first ≤ o.id

/-- A bundle that has not executed is to be issued again (R256, R432; log 23, DEDUCED): its operations that are still in
flight are gone, with what they count and await, and registers, loop, phase and lists are as before it. Its context does
not hold the array. -/
structure Withdrawn (s t : State) (core : Nat) (i : Fin 4) (u : Undo) : Prop where
  package : { t with cores := s.cores, agenda := s.agenda, dies := s.dies } = s
  cores : ∀ k, k ≠ core → t.core k = s.core k
  others : ∀ j, j ≠ i → t.ctx core j = s.ctx core j
  units : (s.core core).held = [] → { t.core core with ctxs := (s.core core).ctxs, ops := (s.core core).ops } = s.core core
  ops : (∀ o ∈ (t.core core).ops, o ∈ (s.core core).ops ∧ ¬ InBundle i u o)
    ∧ ∀ o ∈ (s.core core).ops, ¬ InBundle i u o → o ∈ (t.core core).ops
  agenda : ∀ e ∈ t.agenda, e ∈ s.agenda ∧ ∀ o ∈ (s.core core).ops, InBundle i u o → eventOp core e.2 ≠ some o.id
  counters : ∀ k, (t.ctx core i).ctr k = (s.ctx core i).ctr k
    - ((s.core core).ops.filter fun o => o.ctx == i && decide (u.first ≤ o.id) && o.ctr == some k).length
  awaited : ∀ x ∈ (t.ctx core i).sb, x ∈ (s.ctx core i).sb ∧ (x ∈ u.sb ∨ ∃ n, x.1 = .t n)
  registers : (t.ctx core i).regs = (s.ctx core i).before
  found : let c := t.ctx core i
    c.pc = (s.ctx core i).pc ∧ c.delay = (s.ctx core i).delay ∧ c.snap = none ∧ c.deferred = none ∧ c.park = none
      ∧ c.entry = none ∧ c.undo = none ∧ c.checks = [] ∧ c.xfer = none ∧ c.skip = none ∧ c.back = none
      ∧ c.phase = u.phase ∧ c.dgst = u.dgst ∧ c.seq = u.seq ∧ c.loop = u.loop

/-- A task that ends can end now (R180, R248, R370): its counters are zero, its destinations written and its arrivals
decided, the exposed pipeline of the array that it holds is empty, its core holds what its digest list names, and its job
control block is mapped (R159; log 14, DEDUCED). -/
structure CanEnd (s : State) (core : Nat) (i : Fin 4) (cause : Option (BitVec 8)) : Prop where
  counters : let c := s.ctx core i
    c.ld = 0 ∧ c.st = 0 ∧ c.cp = 0 ∧ c.tl = 0
  settled : Settled s core i
  array : (s.core core).arr.owner = some i → (s.core core).arr.folds = [] ∧ (s.core core).arr.drains = []
    ∧ ∀ g ∈ (s.core core).arr.pending, g.ready ≠ none ∧ g.auto = none
  digest : cause = none → ∀ e ∈ (s.ctx core i).dgst.getD [],
    ({ s with cur := core } : State).HoldsRange (e.toNat % 2 ^ 22) (e.toNat / 2 ^ 23 % 2 ^ 23)
  block : let c := s.ctx core i
    s.leased c.vf c.jcbp.toNat = true → (s.under c.vf c.old).vplace c.vf c.jcbp.toNat ≠ none

/-- A word of a job control block after an end by trap: the end is counted, and the first one's cause recorded (R248). -/
structure StatusAfter (st v : Word) (k : BitVec 8) : Prop where
  broken : v.getLsbD 1 = true
  count : v.toNat / 2 ^ 32 = (st.toNat / 2 ^ 32 + 1) % 2 ^ 32
  cause : v.toNat / 2 ^ 8 % 2 ^ 8 = if st.toNat / 2 ^ 32 = 0 then k.toNat else st.toNat / 2 ^ 8 % 2 ^ 8
  rest : ∀ b, b < 32 → b ≠ 1 → ¬ (8 ≤ b ∧ b < 16) → v.getLsbD b = st.getLsbD b

/-- A task has ended (R57, R110, R177, R180, R248, R370): its context is idle, and with it its phase is closed; it holds
the array no more; its hash stands among its job's; and its completion is posted to the block at p, to which the job's
own adds the job's completion once DONE has become equal to EXPECT (R58). -/
structure TaskEnded (s t : State) (core : Nat) (i : Fin 4) (cause : Option (BitVec 8)) (j : Job) (p : Nat) : Prop where
  package : { t with cores := s.cores, vfs := s.vfs, mem := s.mem, agenda := s.agenda, delays := s.delays } = s
  cores : ∀ k, { t.core k with ctxs := (s.core k).ctxs, arr := (s.core k).arr } = s.core k
  others : ∀ k m, k ≠ core ∨ m ≠ i → t.ctx k m = s.ctx k m
  idle : t.ctx core i = { regs := (s.ctx core i).regs }
  array : if (s.core core).arr.owner = some i then (t.core core).arr.owner = none ∧ (t.core core).arr.opens = s.cycle + 1
    else (t.core core).arr = (s.core core).arr
  arrays : ∀ k, k ≠ core → (t.core k).arr = (s.core k).arr
  functions : ∀ n, n ≠ (s.ctx core i).vf → t.vf n = s.vf n
  job : let c := s.ctx core i
    let own := parentLevel j.levels
    ∃ w j', t.vf c.vf = some w ∧ w.job = some j'
      ∧ { j' with ended := j.ended, hashes := j.hashes, broken := j.broken, finishing := j.finishing } = j
      ∧ j'.hashes = (match cause, c.dgst with
        | none, some es => insertHash (hashKey c.spwn c.logical)
            (sha3 (es.flatMap fun e => s.scrBytes core (e.toNat % 2 ^ 22) (e.toNat / 2 ^ 23 % 2 ^ 23))) j.hashes
        | _, _ => j.hashes)
      ∧ (c.spwn = false → ∀ l, own = some l → let m := (l, posAt j.levels c.logical l)
          j'.ended.lookup m = some ((j.ended.lookup m).getD 0 + 1) ∧ ∀ x, x ≠ m → j'.ended.lookup x = j.ended.lookup x)
      ∧ (c.spwn = true → j'.ended = j.ended)
      ∧ (j'.broken = true ↔ j.broken = true ∨ cause ≠ none)
      ∧ (j'.finishing = true ↔ j.finishing = true ∨ j.jcb = c.jcbp ∧ t.mem64 (p + 8) = s.mem64 p)
      ∧ (j.finishing = false → j'.finishing = true → ∃ due, s.cycle < due ∧ (due, .jobCompletion c.vf) ∈ t.agenda)
  done : t.mem64 (p + 8) = s.mem64 (p + 8) + 1
  status : ∀ k, cause = some k → StatusAfter (s.mem64 (p + 16)) (t.mem64 (p + 16)) k
  memory : ∀ a, ¬ (p + 8 ≤ a ∧ a < p + 16 ∨ cause ≠ none ∧ p + 16 ≤ a ∧ a < p + 24) → cget t.mem a = cget s.mem a

/-- The frozen events of a task that ends are discarded (R248): the array computes and holds back nothing any more, cells
keep what they held before the frozen folds, and tiles that frozen MDRAINs would write are awaited no more. -/
structure ShadowGone (s t : State) (core : Nat) (i : Fin 4) (sh : Shadow) : Prop where
  package : { t with cores := s.cores } = s
  cores : ∀ k, k ≠ core → t.core k = s.core k
  others : ∀ j, j ≠ i → t.ctx core j = s.ctx core j
  units : { t.core core with ctxs := (s.core core).ctxs, acc := (s.core core).acc, arr := (s.core core).arr } = s.core core
  ctx : { t.ctx core i with sb := (s.ctx core i).sb } = { s.ctx core i with replay := false }
  marks : ∀ x, x ∈ (t.ctx core i).sb ↔ x ∈ (s.ctx core i).sb ∧ ∀ n ∈ drainTiles sh.events, x.1 ≠ .t n
  array : let frozen (f : FoldRec) : Bool := sh.events.any fun e => e.2 == .foldRetire core f.id
    let a := (s.core core).arr
    (t.core core).arr = { a with
      shadow := none, pending := [], folds := a.folds.filter fun f => !frozen f
      drains := a.drains.filter fun x => !(drainTiles sh.events).contains x.1 }
    ∧ ((∀ f ∈ a.folds, (f.old.map (·.1)).Nodup) → Memory.wf (s.core core).acc = true → ∀ n,
      cget (t.core core).acc n = ((a.folds.filter frozen).findSome? fun f => f.old.lookup n).getD (cget (s.core core).acc n))

/-- Entries that a context may take (R45, R262): of its core's function, where no request of the host is in force,
pinned to no other core. -/
def MayTake (s : State) (core : Nat) (i : Fin 4) (e : PassEnt) : Prop :=
  e ∈ (s.row (core / 12)).pass ∧ (s.core core).vf = some e.vf ∧ ¬ (core % 96 = 84 ∧ i = 3)
    ∧ (s.ctx core i).task = false ∧ (∀ v, s.vf e.vf = some v → v.preempt = false) ∧ (e.pin = none ∨ e.pin = some core)

/-- The context takes an entry: the pass loses it, and the context has its task. -/
structure Takes (s t : State) (core : Nat) (i : Fin 4) (e : PassEnt) : Prop where
  step : TaskStep s t core i
  pass : (t.row (core / 12)).pass = dropFirst e (s.row (core / 12)).pass
  rows : ∀ r, r ≠ core / 12 → t.row r = s.row r
  ctx : let c := t.ctx core i
    c.task = true ∧ c.vf = e.vf ∧ c.logical = e.logical ∧ c.spwn = e.spwn ∧ c.recp = e.recp
      ∧ c.ld = 0 ∧ c.st = 0 ∧ c.cp = 0 ∧ c.tl = 0

end Sys2Proof.Machine
end

