-- ==== Sys2Proof/Safety/Host.lean ====
section
/-! DEFINITION. The terms of statements about what the host reaches: command windows and journals (R261 to R263),
attestation reports (R267), RMA regions (R260), launches (R47 to R55) and the creation of functions (R50, R265). -/

namespace Sys2Proof.Machine

/-- A journal gains an entry, the newest first (R263). -/
def Gains (v w : Vf) (kind off result : Nat) (value : Word) (cyc : Nat) : Prop :=
  w.jseq = v.jseq + 1 ∧ ∃ e : Block64, w.journal = (e :: v.journal).take 4096
    ∧ blk e 0 64 = w.jseq.toNat ∧ blk e 64 8 = kind ∧ blk e 72 16 = off ∧ blk e 88 8 = result ∧ blk e 96 32 = 0
    ∧ blk e 128 64 = value.toNat ∧ blk e 192 64 = cyc % 2 ^ 64
    ∧ (toLe e).drop 32 = sha3Bytes (v.lastDigest ++ (toLe e).take 32)

/-- A function differs from what it was by a journal entry and a change. -/
def Commanded (s t : State) (n : Nat) (v : Vf) (kind off result : Nat) (value : Word) (f : Vf → Vf) : Prop :=
  (∃ w, t.vf n = some w ∧ Gains v w kind off result value s.cycle ∧ { w with jseq := v.jseq, journal := v.journal } = f v)
  ∧ ∀ k, k ≠ n → t.vf k = s.vf k

/-- A command is answered; beyond functions, it changes nothing. -/
def Answered (s t : State) (r : HostReply) : Prop :=
  { t with vfs := s.vfs, hostReplies := s.hostReplies } = s ∧ t.hostReplies = s.hostReplies ++ [r]

/-- Commands that have waited for the checks of a START take effect in their order (R263): a START among them is
journalled as busy, and does nothing else; any other is as it would be then. -/
inductive Performs (n : Nat) : State → List (Nat × List Word) → State → Prop where
  | none (s : State) : Performs n s [] s
  | start (s t u : State) (v : Vf) (vals : List Word) (rest : List (Nat × List Word)) : s.vf n = some v → Answered s t .done →
      Commanded s t n v 1 0 1 (vals.headD 0) id → Performs n t rest u → Performs n s ((0, vals) :: rest) u
  | other (s t u : State) (off : Nat) (vals : List Word) (rest : List (Nat × List Word)) : off ≠ 0 →
      exec (.commandWindowWrite n off ⟨vals.flatMap fun a => leBytes 8 a.toNat, true⟩) s = .next t →
      Performs n t rest u → Performs n s ((off, vals) :: rest) u

/-- An access is refused: it has no effect but the error completion (R260, R261). -/
def Turned (s t : State) : Prop := t = { s with hostReplies := s.hostReplies ++ [.refused] }

/-- An attestation report of a function (R267); its signature is the model's free value (log 10, DESIGN CHOICE). -/
structure ReportSays (s : State) (v : Vf) (b : List Byte) : Prop where
  size : b.length = 2580
  nonce : leVal (b.take 32) = v.attnonce.toNat
  firmware : (b.drop 32).take 32 = toLe Config.firmwareHash
  harvest : (b.drop 64).take 32 = toLe (Config.harvestHash s.disabled s.harvested)
  digest : (b.drop 96).take 32 = v.lastDigest
  seq : leVal ((b.drop 128).take 8) = v.jseq.toNat
  zero : (b.drop 136).take 24 = List.replicate 24 0

/-- A report request is carried out: 2,580 bytes of host memory have the report. -/
def Reported (s t : State) (n : Nat) : Prop :=
  ∃ w b, t.vf n = some w ∧ ReportSays s w b ∧ (∀ k, k < 2580 → cget t.hostMem (w.attaddr.toNat + k) = b.getD k 0)
    ∧ ∀ a, ¬ (w.attaddr.toNat ≤ a ∧ a < w.attaddr.toNat + 2580) → cget t.hostMem a = cget s.hostMem a

/-- Contexts of a function's tasks are changed by a request, and nothing else of any core. -/
def TasksAre (s t : State) (n : Nat) (f : Ctx → Ctx) : Prop :=
  (∀ k, { t.core k with ctxs := (s.core k).ctxs } = s.core k)
    ∧ ∀ k j, let c := s.ctx k j
      t.ctx k j = if c.task = true ∧ c.vf = n then f c else c

/-- Every byte of a range lies in a function's allotment (R260). -/
def Allotted (v : Vf) (lo len : Nat) : Prop :=
  0 < len ∧ ∀ a, lo ≤ a → a < lo + len → ∃ r ∈ v.allot, r.1 ≤ a ∧ a < r.1 + r.2

/-- A level descriptor below LEVELS keeps to its table (R48). -/
structure LevelLegal (d : Word) : Prop where
  domain : d.toNat % 8 ≤ 5
  scope : d.toNat / 8 % 8 ≤ 6 ∧ 5 ≤ d.toNat / 8 % 8 + d.toNat % 8
  zero : d.toNat / 64 % 4 = 0 ∧ d.toNat / 2 ^ 32 = 0
  count : d.toNat / 2 ^ 8 % 2 ^ 24 ≠ 0

/-- A launch record keeps to its table (R47 to R49, R54). -/
structure RecordLegal (r : LRec) : Prop where
  place : r.at_ % 256 = 0
  versions : r.recver = 1 ∧ r.nbv = 1
  zero : r.lflags < 2 ∧ r.spare = 0
  aligned : r.leasep % 8 = 0 ∧ r.livep.toNat % 8 = 0 ∧ r.jcb.toNat % 64 = 0
  levels : 1 ≤ r.levels ∧ r.levels ≤ 8
  used : ∀ k d, k < r.levels → r.descs[k]? = some d → LevelLegal d
  unused : ∀ k d, r.levels ≤ k → r.descs[k]? = some d → d = 0
  order : ∀ k a b, k + 1 < r.levels → r.descs[k]? = some a → r.descs[k + 1]? = some b → a.toNat % 8 ≤ b.toNat % 8

/-- A lease that has been made resident (R157): the lease translation store has every page of it. -/
structure LeaseLegal (s : State) (lts : List (Nat × Leaf)) (e : Lease) : Prop where
  range : e.start % 4096 = 0 ∧ e.len % 4096 = 0 ∧ 0 < e.len ∧ e.start + e.len ≤ 2 ^ 56
  pages : ∀ k, k < e.len / 4096 → ∃ p ∈ lts, p.1 ≤ e.start + 4096 * k ∧ e.start + 4096 * k < p.1 + pageBytes p.2.psize
    ∧ p.2.reachable s.pkg.toNat = true

/-- What the checks of a launch have found of one that they accept (R54), in the state s with every lease resident:
but for copies that resolve copy-on-write, that is the state before. -/
structure LaunchLegal (s₀ s : State) (n : Nat) (v : Vf) (l : Launch) : Prop where
  idle : v.job = none ∧ v.preempt = false
  before : { s with mem := s₀.mem, frames := s₀.frames } = s₀
  copies : (∀ va f, s₀.walk n va = some f → f.cow = false) → s = s₀
  vector : v.start.toNat % 64 = 0
  records : ∀ r ∈ l.head :: l.recs, RecordLegal r
  leases : ∀ e ∈ l.leases, LeaseLegal s l.lts e
  store : ∀ p ∈ l.lts, ∃ va, s.walk n va = some p.2 ∧ p.1 = va / pageBytes p.2.psize * pageBytes p.2.psize
  jcb : ∃ e ∈ l.leases, e.w = true ∧ e.start ≤ l.head.jcb.toNat ∧ l.head.jcb.toNat < e.start + e.len
  size : l.vec.length = l.place.length ∧ l.recs.length = l.vec.length
  entries : ∀ e ∈ l.vec, e.spare = 0 ∧ e.cont.toNat % 64 = 0 ∧ (e.start l.hdr).toNat % 4 = 0
  contexts : ∀ d ∈ l.head.ls, d.domain = 5 → d.count ≤ 4
  service : ∀ x ∈ taskSpots l.head.ls l.place, x.1 % 96 = 84 → x.2 ≠ 3

/-- The state in which the tasks of an accepted launch are installed: the function has its job. -/
def State.withJob (s : State) (n : Nat) (v : Vf) (j : Job) : State := { s with vfs := aset s.vfs n { v with job := some j } }

/-- Full/empty bits of the cores used are empty, and the image that the loader has for a launch, if any, has gone into
their scratchpads (R12; log 81, DESIGN CHOICE): it stands from offset 0, and the rest is empty. -/
def ImageLoaded (s t : State) (n : Nat) (cores : List Nat) : Prop :=
  (∀ k, k ∉ cores → (t.core k).scr = (s.core k).scr ∧ (t.core k).fe = (s.core k).fe)
  ∧ (∀ k ∈ cores, (t.core k).fe = [])
  ∧ (((∀ x ∈ s.images, x.1 ≠ n) ∧ t.images = s.images ∧ ∀ k ∈ cores, (t.core k).scr = (s.core k).scr)
    ∨ ∃ l b l', s.images = l ++ (n, b) :: l' ∧ (∀ x ∈ l, x.1 ≠ n) ∧ t.images = l ++ l'
      ∧ ∀ k ∈ cores, ∀ a, cget (t.core k).scr a = if a < 2 ^ 22 then b.getD a 0 else 0)

/-- Functions may be made (R50, R265): their numbers are free, their cores are no running job's, and their ranges
are units of HBM or of the cellar that no function has. -/
structure MayCreate (s : State) (part : Nat) (pkgs vfs : List Nat) (cores : List (Nat × Nat))
    (ranges : List (Nat × Nat × Nat)) : Prop where
  up : s.up = true
  names : vfs ≠ [] ∧ vfs.Nodup ∧ ∀ n ∈ vfs, n < 64 ∧ s.vf n = none
  packages : pkgs.Pairwise (· < ·) ∧ s.pkg.toNat ∈ pkgs ∧ ∀ p ∈ pkgs, p < 2 ^ 17
  part : ∀ x ∈ s.vfs, x.1 = 64 ∨ x.2.part ≠ part
  cores : (cores.map (·.2)).Nodup ∧ ∀ c ∈ cores, c.1 ∈ vfs ∧ c.2 < 384 ∧ ∀ o, (s.core c.2).vf = some o →
    (∀ v, s.vf o = some v → v.job = none) ∧ ∀ j, ¬ ((s.ctx c.2 j).task = true ∧ (s.ctx c.2 j).vf = o)
  apart : (ranges.map (·.2) ++ s.vfs.flatMap (·.2.allot)).Pairwise fun a b => a.1 + a.2 ≤ b.1 ∨ b.1 + b.2 ≤ a.1
  ranges : ∀ r ∈ ranges, r.1 ∈ vfs ∧ r.2.1 % 2 ^ 21 = 0 ∧ r.2.2 % 2 ^ 21 = 0 ∧ 0 < r.2.2
    ∧ (s.isHbm r.2.1 = true ∧ s.isHbm (r.2.1 + r.2.2 - 1) = true ∨ isCellar r.2.1 = true ∧ isCellar (r.2.1 + r.2.2 - 1) = true)

end Sys2Proof.Machine
end

