-- ==== Sys2Proof/Safety/Collect.lean ====
section
/-! DEFINITION. The terms of statements about posted collectives (R235 to R240). -/

namespace Sys2Proof.Machine

/-- A collective's descriptor keeps to its table (R235; code 3 of R238 otherwise). -/
structure DescriptorLegal (d : Block64) : Prop where
  kind : blk d 0 8 ≤ 4
  fmt : 6 ≤ blk d 16 8 ∧ blk d 16 8 ≤ 12
  op : if blk d 0 8 < 2 then blk d 8 8 ≤ 5 ∧ (3 ≤ blk d 8 8 → fmtFloat (blk d 16 8) = false) else blk d 8 8 = 0
  flags : blk d 24 8 < 2
  members : 1 ≤ blk d 96 32 ∧ blk d 96 32 ≤ 2 ^ 17
  count : 1 ≤ blk d 192 64 ∧ blk d 192 64 ≤ 2 ^ 32
  root : if blk d 0 8 = 3 then blk d 384 32 < blk d 96 32 else blk d 384 32 = 0
  zero : blk d 416 32 = 0

/-- The member list of a descriptor, as its function's memory has it (R235). -/
def MembersAre (s : State) (vf : Nat) (d : Block64) (ms : List Nat) : Prop :=
  ∃ b, s.vread vf (blk d 128 64) (4 * blk d 96 32) = some b ∧ ms.length = blk d 96 32
    ∧ ∀ k, k < ms.length → ms[k]? = some (leVal ((b.drop (4 * k)).take 4))

/-- The error that a post's own package finds, 0 for none (R238). -/
def PostError (s : State) (vf : Nat) (d : Block64) (ms : List Nat) (err : Nat) : Prop :=
  let mapped (va n : Nat) : Prop := s.vplaces vf va n ≠ none
  let good : Prop := ms.Pairwise (· < ·) ∧ s.pkg.toNat ∈ ms
  let pages : Prop := mapped (blk d 256 64) (colSrcN d * colSize d) ∧ mapped (blk d 320 64) (colDstN d * colSize d)
  ¬ DescriptorLegal d ∧ err = 3 ∧ ms = []
    ∨ DescriptorLegal d ∧ (¬ mapped (blk d 128 64) (4 * blk d 96 32) ∧ err = 4 ∧ ms = []
      ∨ MembersAre s vf d ms ∧ (¬ good ∧ err = 2 ∨ good ∧ ¬ pages ∧ err = 4 ∨ good ∧ pages ∧ err = 0))

/-- The fold of a collective's reduction over the values of its ranks: those of the greatest power of two below
their number, and then the rest (R239). -/
inductive Reduced (f : Nat → Nat → Nat) : List Nat → Nat → Prop where
  | one (a : Nat) : Reduced f [a] a
  | two (k : Nat) (l r : List Nat) (x y : Nat) : l.length = 2 ^ k → 0 < r.length → r.length ≤ 2 ^ k → Reduced f l x →
      Reduced f r y → Reduced f (l ++ r) (f x y)

/-- What a collective gives its member of a rank at an element of DST, from the elements of every rank's SRC (R236). -/
def Gives (d : Block64) (rank : Nat) (elem : Nat → Nat → Nat) (i v : Nat) : Prop :=
  let n := blk d 192 64
  let red (j : Nat) : Prop := Reduced (fun a b => (colStep (blk d 16 8) (blk d 8 8) a b).1)
    ((List.range (blk d 96 32)).map fun r => elem r j) v
  match blk d 0 8 with
  | 0 => red i
  | 1 => red (rank * n + i)
  | 2 => v = elem (i / n) (i % n)
  | 3 => v = elem (blk d 384 32) i
  | _ => v = elem (i / n) (rank * n + i % n)

/-- Only the hub's table of collectives and coordinators, and events, differ. -/
def HubOnly (s t : State) : Prop :=
  { t with colTab := s.colTab, coords := s.coords, agenda := s.agenda, delays := s.delays } = s

/-- One entry of the table of collectives differs. -/
def EntryIs (s t : State) (n : Nat) (e : Option CSlot) : Prop :=
  ∀ k, aget t.colTab k = if k = n then e else aget s.colTab k

/-- An event has been put into the agenda, some cycles ahead. -/
def Comes (s t : State) (e : Instr) : Prop := ∃ due, s.cycle < due ∧ t.agenda = insertDue due e s.agenda

/-- A descriptor has been posted (R237, R238): sD has the posting tag, and the lowest free entry the descriptor, or the
table is full. -/
def Posted (s t : State) (d : Fin 32) (k : Block64) (at_ : Nat) : Prop :=
  let writes (u : State) (v : Word) : Prop := HubOnly u { t with colSerial := s.colSerial }
    ∧ (∃ lat, 1 ≤ lat ∧ RegisterStep s u (sDest d) lat 0) ∧ u.me.regs.rs d = if d = 0 then 0 else v
  ((∀ n, n < 256 → aget s.colTab n ≠ none) → ∃ u, writes u (.ofNat 64 (2 ^ 63)) ∧ t.colTab = s.colTab
    ∧ t.colSerial = s.colSerial ∧ t.agenda = u.agenda)
  ∧ ∀ n ms err, n < 256 → aget s.colTab n = none → (∀ m, m < n → aget s.colTab m ≠ none) → PostError s s.me.vf k ms err →
    let mine : Prop := ms.getD (blk k 64 32 % ms.length) 0 = s.pkg.toNat
    ∃ u, writes u (.ofNat 64 (n * 2 ^ 32 + s.colSerial.toNat))
      ∧ t.colSerial = s.colSerial + 1
      ∧ EntryIs s t n (some { serial := s.colSerial, vf := s.me.vf, desc := k, descAt := at_, members := ms
                              stage := if err = 0 then .posted else .started, rank := none, err, orphan := false })
      ∧ t.coords = s.coords
      ∧ (if err ≠ 0 then Comes u t (.collectiveComplete n [])
         else if mine then Comes u t (.collectivePostReceive ⟨s.pkg.toNat, k, ms⟩) else t.agenda = u.agenda)

/-- The own entry of a collective that waits to be started. -/
def OwnPosted (s : State) (group gseq : BitVec 32) (n : Nat) (e : CSlot) : Prop :=
  ∃ l l', s.colTab = l ++ (n, e) :: l'
    ∧ let mine (x : CSlot) : Prop := colGroup x.desc = group ∧ colGseq x.desc = gseq ∧ x.stage = .posted
      mine e ∧ (∀ x ∈ l, x.1 ≠ n ∧ ¬ mine x.2)

/-- A coordinator's collective still lacks the post of a package (R237). -/
def Lacks (c : Coord) (p : Post) : Prop :=
  c.group = colGroup p.desc ∧ c.gseq = colGseq p.desc ∧ (c.posts = [] ∨ c.posts.length < c.members.length) ∧ ∀ q ∈ c.posts, q.pkg ≠ p.pkg

/-- All posts are in, and all agree but for SRC, DST and CSTAT (R235, R237). -/
def AllAgree (c : Coord) : Prop :=
  c.posts ≠ [] ∧ c.members.length ≤ c.posts.length
    ∧ ∀ p ∈ c.posts, ∀ q ∈ c.posts, p.members = q.members ∧ ∀ f ∈ [(0, 8), (8, 8), (16, 8), (24, 8), (96, 32), (192, 64), (384, 32)],
      blk p.desc f.1 f.2 = blk q.desc f.1 f.2

end Sys2Proof.Machine
end

