-- ==== Sys2Proof/Safety/Fabric.lean ====
section
/-! DEFINITION. The terms of statements about routers and links (R218 to R227), partition reset (R268) and the
harvest map (R21). -/

namespace Sys2Proof.Machine

/-- Only routers, links, what endpoints offer and the replies for which they keep space differ. -/
def RoutersOnly (s t : State) : Prop :=
  { t with routers := s.routers, links := s.links, offers := s.offers, awaited := s.awaited } = s

/-- One router differs, and the spoon's place. -/
def RouterOnly (s t : State) (r : Nat) : Prop :=
  { t with routers := s.routers, spoon := s.spoon } = s ∧ ∀ k, k ≠ r → t.router k = s.router k

/-- A router that carries packets (R226). -/
def Works (s : State) (r : Nat) : Prop := r ≤ 512 ∧ r ∉ s.harvested

/-- Links once the flits that were crossing the outputs of a router in the cycle before have crossed: where none was
resent in it, the retries in a row start anew (R219). -/
def LinksAfter (s t : State) (r : Nat) : Prop :=
  ∀ l, let x := s.link l
    t.link l = if ∃ b ∈ (s.router r).busy, outLink r b.1 = some l ∧ s.cycle ≤ b.2 then
      (if r = 512 then (if x.downAt.all (fun c => c + 1 != s.cycle) = true then { x with down := 0 } else x)
        else if x.upAt.all (fun c => c + 1 != s.cycle) = true then { x with up := 0 } else x)
    else x

/-- A cycle of a router changes it alone, but for its links' retries (R219, R220). -/
def Routed (s t : State) (r : Nat) : Prop :=
  { t with routers := s.routers, links := s.links } = s ∧ LinksAfter s t r ∧ ∀ k, k ≠ r → t.router k = s.router k

/-- The reply of a request that its destination has accepted, offered where it came in (R221; log 71, DESIGN CHOICE). -/
def replyTo (pk : Packet) (n : Fin 5) : Packet :=
  { id := pk.id, src := pk.dst, dst := pk.src, data := n, reply := none, suspect := false }

/-- A source has space for the reply to one more request (R221; log 71, DESIGN CHOICE). -/
def HasSpace (s : State) (pk : Packet) : Prop :=
  (s.awaited.filter fun x => x.src == pk.src).length < max 1 Config.replySpace

/-- A packet is delivered at a router that then reads x: a request's reply comes in at the local port, and a reply ends
the reservation of its request (R221). -/
def Delivered (s t : State) (r : Nat) (pk : Packet) (x : Router) : Prop :=
  RoutersOnly s t ∧ LinksAfter s t r ∧ (∀ k, k ≠ r → t.router k = s.router k)
    ∧ match pk.reply with
      | none => t.router r = x ∧ t.offers = s.offers ∧ t.awaited = s.awaited.filter fun y => y.id != pk.id
      | some n => t.awaited = s.awaited ∧ (s.attached pk.src ≠ [] → t.offers = s.offers
          ∧ t.router r = { x with inbufs := [((if r = 512 then 16 else 5, 0), replyTo pk n)] })

/-- No flit crosses an output of a router, and no endpoint of it offers a packet. -/
def Still (s : State) (r : Nat) : Prop := (∀ b ∈ (s.router r).busy, b.2 ≤ s.cycle) ∧ ∀ o ∈ s.offers, o.1 ≠ r

/-- An output port brings a packet nearer its destination (R220): on the destination's die, nearer to a router at which
it is delivered; elsewhere, to a working link of the die, or over it; at the hub, over any link into that die. -/
def Nearer (s : State) (r : Nat) (dst : Endpoint) (p : Nat) : Prop :=
  p ∈ portsOf r ∧ ∃ n q, neighbour r p = some (n, q) ∧
    if r = 512 then dst.die = some (n / 128)
    else if dst.die = some (r / 128) then
      p ≠ 4 ∧ ∃ a ∈ s.attached dst, ∀ b ∈ s.attached dst, meshHops n a < meshHops r b
    else ∃ l, l / 4 = r / 128 ∧ s.linkOk l = true ∧
      if p = 4 then linkOf r = some l else meshHops n (linkRouter l) < meshHops r (linkRouter l)

/-- The output port that a router takes for a packet, no neighbour being harvested and no flit crossing: the most free
buffers, then the lowest port (R220). -/
def TakesPort (s : State) (r : Nat) (dst : Endpoint) (p : Nat) : Prop :=
  (∀ x, Nearer s r dst x → s.outOpen r x = true) ∧ Nearer s r dst p ∧ 0 < s.freeBufs r p
    ∧ ∀ x, Nearer s r dst x → s.freeBufs r x < s.freeBufs r p ∨ s.freeBufs r x = s.freeBufs r p ∧ p ≤ x

/-- A function of the partitions that a property of functions reaches (R50, R227). -/
def Hit (s : State) (f : Vf → Prop) (n : Nat) : Prop :=
  n < 64 ∧ ∃ v m w, s.vf n = some v ∧ m < 64 ∧ s.vf m = some w ∧ w.part = v.part ∧ f w

/-- Some functions are to be reset (R65, R227): their tasks have a request, and the reset is under way. -/
structure ResetAsked (s t : State) (hit : Nat → Prop) : Prop where
  package : { t with cores := s.cores, resets := s.resets, routers := s.routers, links := s.links
                     harvested := s.harvested, spoon := s.spoon } = s
  cores : ∀ k, { t.core k with ctxs := (s.core k).ctxs } = s.core k
  tasks : ∀ k i, let c := s.ctx k i
    (c.task = true ∧ hit c.vf → t.ctx k i = { c with preq := true, safeDue := c.preq && c.safeDue })
    ∧ (¬ (c.task = true ∧ hit c.vf) → t.ctx k i = c)
  none : (∀ n, ¬ hit n) → t.resets = s.resets
  some : ∀ n, hit n → ∃ due l, s.cycle ≤ due ∧ l.Nodup ∧ (∀ m, m ∈ l ↔ hit m) ∧ t.resets = s.resets ++ [(due, l)]

/-- Some functions have been reset (R268): their jobs and tasks are gone, their cores' memories are cleared and the
reset is journalled; nothing of any other function is changed. Commands that have waited behind a START come after it
(R263; log 103, DEDUCED). -/
structure ResetOf (s t : State) (hit : Nat → Prop) : Prop where
  package : { t with
    agenda := s.agenda, cores := s.cores, rows := s.rows, dies := s.dies, bars := s.bars, sleepers := s.sleepers
    colTab := s.colTab, coords := s.coords, vfs := s.vfs, resets := s.resets
    hostReplies := s.hostReplies, hostMem := s.hostMem } = s
  unanswered : (∀ n v, s.vf n = some v → hit n → v.waiting = []) → t.hostReplies = s.hostReplies ∧ t.hostMem = s.hostMem
  functions : ∀ n v, s.vf n = some v → hit n → ∃ w, t.vf n = some w ∧ w.job = none ∧ w.lstat = 0
    ∧ w.rstcnt = v.rstcnt + 1 ∧ w.waiting = []
    ∧ (v.waiting = [] → Gains v w 3 0 0 (Config.resetEntryValue (v.jseq.toNat + 1)) s.cycle
      ∧ { w with jseq := v.jseq, journal := v.journal } = { v with job := none, lstat := 0, rstcnt := v.rstcnt + 1 })
  otherFunctions : ∀ n, ¬ hit n → t.vf n = s.vf n
  cores : ∀ k n, (s.core k).vf = some n → hit n → (t.core k).vf = some n
    ∧ (t.core k).scr = [] ∧ (t.core k).fe = [] ∧ (t.core k).lid = [] ∧ (t.core k).acc = [] ∧ (t.core k).icache = []
    ∧ ∀ i, let firmware : Prop := k % 96 = 84 ∧ i = 3 ∧ (s.ctx k i).task = true ∧ (s.ctx k i).vf = 64
      (firmware → t.ctx k i = s.ctx k i) ∧ (¬ firmware → t.ctx k i = {} ∧ ∀ o ∈ (t.core k).ops, o.ctx ≠ i)
  otherCores : (∀ n v, s.vf n = some v → hit n → v.waiting = []) → ∀ k, (∀ n, (s.core k).vf = some n → ¬ hit n) →
    { t.core k with released := (s.core k).released } = s.core k
  passes : ∀ r e, e ∈ (t.row r).pass ↔ e ∈ (s.row r).pass ∧ ¬ hit e.vf
  sleepers : ∀ x, x ∈ t.sleepers ↔ x ∈ s.sleepers ∧ ¬ hit x.ent.vf
  bars : ∀ b, b ∈ t.bars ↔ b ∈ s.bars ∧ ¬ hit b.key.vf
  collectives : ∀ x, x ∈ t.colTab ↔ x ∈ s.colTab ∧ ¬ hit x.2.vf

/-- A harvest map that R21 allows. -/
structure HarvestLegal (disabled harvested : List Nat) : Prop where
  slices : disabled.Nodup ∧ disabled.length ≤ 8 ∧ ∀ k ∈ disabled, k < 48
  routers : harvested.Nodup ∧ ∀ r ∈ harvested, r < 512 ∧ r % 16 ∈ [2, 6, 9, 13]
  strips : ∀ d p, (harvested.filter fun r => r / 128 == d && r % 16 == p).length ≤ 2
  links : ∀ d, (harvested.filter fun r => r / 128 == d && r / 16 % 8 == 7).length ≤ 2

end Sys2Proof.Machine
end

