-- ==== Sys2Proof/Certificates/Slice0/Obligations.lean ====
section
/-! DEFINITION. Statements for the provers, from the manual's numbered rules. -/

open Sys2Proof Sys2Proof.Machine

/-! ### Scalar words -/

/-- R353, R354, R379, R392, R405 (tables of 22_ref_a_c, 23_ref_d_l, 24_ref_m_o, 25_ref_p_s), R337, R362, R399, R406:
every scalar, predicate and bundle-register word without a trap writes its result to its destination and nothing else,
and the destination is awaited until it is ready; DIV and REM truncate toward zero, and trap INT_DIV0 by 0, whatever D
is. -/
def Obligations.ScalarWordsWriteTheirResult : Prop :=
  (∀ (s : State) (i : Instr) (d : Fin 32) (v : Word) (lat : Nat), scalarResult s i = some (d, v, lat) →
    ∃ t, exec i s = .next t ∧ RegisterStep s t (sDest d) lat 0 ∧ t.me.regs.rs d = if d = 0 then 0 else v)
  ∧ (∀ (s : State) (p : Fin 16),
      (∀ a b cc u, ∃ t, exec (.cmp p a b cc u) s = .next t ∧ RegisterStep s t (pDest p) 1 0
        ∧ (t.me.regs.rp p = true ↔ p = 0 ∨ compares cc u (s.rs a) (s.rs b)))
      ∧ (∀ a cc u (imm : BitVec 15), ∃ t, exec (.cmpi p a cc u imm) s = .next t ∧ RegisterStep s t (pDest p) 1 0
        ∧ (t.me.regs.rp p = true ↔ p = 0 ∨ compares cc u (s.rs a) (.ofInt 64 imm.toInt)))
      ∧ ∀ a b (fn : BitVec 4), ∃ t, exec (.plog p a b fn) s = .next t ∧ RegisterStep s t (pDest p) 1 0
        ∧ (t.me.regs.rp p = true ↔ p = 0 ∨ fn.getLsbD (2 * (s.rp a).toNat + (s.rp b).toNat) = true))
  ∧ (∀ (s : State) (d : Fin 8),
      (∀ a : MovReg, ∃ t, exec (.mov (.b d) a) s = .next t ∧ RegisterStep s t [.b d] 1 0
        ∧ t.me.regs.b[d] = match a with
          | .s n => s.rs n
          | .b n => s.src.b[n])
      ∧ ∀ disp : BitVec 25, ∃ t, exec (.setb d disp) s = .next t ∧ RegisterStep s t [.b d] 1 0
        ∧ t.me.regs.b[d] = displaced s.me.pc disp)
  ∧ (∀ (s : State) (d a b : Fin 32) (u : Bool), s.rs b ≠ 0 →
      (∃ t, exec (.div d a b u) s = .next t ∧ RegisterStep s t (sDest d) 24 0
        ∧ t.me.regs.rs d = if d = 0 then 0 else .ofInt 64 (quotient u (s.rs a) (s.rs b)))
      ∧ ∃ t, exec (.rem d a b u) s = .next t ∧ RegisterStep s t (sDest d) 24 0
        ∧ t.me.regs.rs d = if d = 0 then 0 else .ofInt 64 (remainder u (s.rs a) (s.rs b)))
  ∧ ∀ (s : State) (d a b : Fin 32) (u : Bool), s.me.snap = none → s.rs b = 0 →
      exec (.div d a b u) s = .next (s.takeTrap .intDiv0 0)
      ∧ exec (.rem d a b u) s = .next (s.takeTrap .intDiv0 0)

/-! ### Control -/

/-- R335, R338, R339, R359, R360, R361, R374, R402: a control transfer decides target and condition from what
its bundle reads, and leaves them for after its delay bundle; CALL writes b[L] besides.
It rests on the model’s choice of log 12. -/
def Obligations.TransfersDecideTheirTarget : Prop :=
  ∀ (s : State) (i : Instr) (x : Word × Bool), transferOf s i = some x →
    ∃ t, exec i s = .next t ∧ ContextOnly s t ∧ { t.me with regs := s.me.regs, xfer := s.me.xfer } = s.me
      ∧ t.me.xfer = some x
      ∧ match i with
        | .call l _ => s.me.regs.Keeps t.me.regs [.b l] 0 ∧ t.me.regs.b[l] = s.nextAfter (s.nextAfter s.me.pc)
        | _ => t.me.regs = s.me.regs

/-- R382, R384: LOOP and LPSTG start a loop of s[C] passes, or skip their body where the count is 0; they trap
ILL_MOD otherwise. -/
def Obligations.LoopsStartOrSkip : Prop :=
  ∀ (s : State) (c : Fin 32),
    (∀ fin : BitVec 23, LoopAllowed s fin → ∃ t, exec (.loop c fin) s = .next t ∧ ContextOnly s t
      ∧ if s.rs c = 0 then t.me = { s.me with skip := some (s.nextAfter (displaced s.me.pc fin)) }
        else t.me = { s.me with loop := { kind := 1, lstart := s.nextAfter s.me.pc,
                                          lend := displaced s.me.pc fin, lrem := s.rs c, ltrip := 0, lns := 0 } })
    ∧ (∀ (fin : BitVec 20) (ns : Fin 8), LoopAllowed s fin → (s.rs c).toNat < 2 ^ 63 →
      ∃ t, exec (.lpstg c ns fin) s = .next t ∧ ContextOnly s t
      ∧ if s.rs c = 0 then t.me = { s.me with skip := some (s.nextAfter (displaced s.me.pc fin)) }
        else { t.me with regs := s.me.regs } = { s.me with
            loop := { kind := 2, lstart := s.nextAfter s.me.pc, lend := displaced s.me.pc fin,
                      lrem := s.rs c + BitVec.ofNat 64 ns.val, ltrip := s.rs c, lns := ns.val } }
          ∧ s.me.regs.Keeps t.me.regs stagePreds 0 ∧ PassPredicates t.me.regs (ns.val + 1) (s.rs c).toNat 0)
    ∧ (s.me.snap = none →
      (∀ fin : BitVec 23, ¬ LoopAllowed s fin →
        exec (.loop c fin) s = .next (s.takeTrap .illMod (layoutW s.me.word.1 s.me.word.2)))
      ∧ ∀ (fin : BitVec 20) (ns : Fin 8), ¬ LoopAllowed s fin ∨ 2 ^ 63 ≤ (s.rs c).toNat →
        exec (.lpstg c ns fin) s = .next (s.takeTrap .illMod (layoutW s.me.word.1 s.me.word.2)))

/-- R359, R249, R382, R384, R395: where execution goes on after a bundle outside a handler that made no transfer
and did not return: after a delay bundle at the resolved target; at an active loop's end at its start while
passes are left; else in sequence. NOP keeps its context from issuing before cycle t + n, unless a trap has landed from
the array or from a refused arrival, which cancels the rest of the wait; it changes nothing else.
It rests on the model’s choice of log 12. -/
def Obligations.ExecutionGoesOn : Prop :=
  (∀ c : Ctx, c.back = none → c.xfer = none → c.skip = none → c.regs.ecause.getLsbD 7 = false →
    (∀ d, c.delay = some d → c.advance.pc = (if d.taken = true then d.target else c.after c.pc)
      ∧ c.advance.delay = none
      ∧ (d.taken = true → c.loop.kind ≠ 0 → c.loop.outside d.target = true → c.advance.loop = {}))
    ∧ (c.delay = none → c.loop.kind ≠ 0 → c.pc = c.loop.lend →
      (1 < c.loop.lrem.toNat → c.advance.pc = c.loop.lstart
        ∧ c.advance.loop = { c.loop with lrem := c.loop.lrem - 1 }
        ∧ (c.loop.kind = 2 → c.loop.lns < 8 → c.loop.lrem.toNat ≤ c.loop.ltrip.toNat + c.loop.lns →
            PassPredicates c.advance.regs (c.loop.lns + 1) c.loop.ltrip.toNat
              (c.loop.ltrip.toNat + c.loop.lns - (c.loop.lrem.toNat - 1))))
      ∧ (c.loop.lrem.toNat ≤ 1 → c.advance.pc = c.after c.pc ∧ c.advance.loop = {}
        ∧ (c.loop.kind = 2 → PassPredicates c.advance.regs 0 0 0)))
    ∧ (c.delay = none → (c.loop.kind = 0 ∨ c.pc ≠ c.loop.lend) → c.advance = { c with pc := c.after c.pc, via := none }))
  ∧ ∀ (s : State) (n : BitVec 6), ∃ t, exec (.nop n) s = .next t ∧ ContextOnly s t
    ∧ { t.me with holdTil := s.me.holdTil } = s.me
    ∧ ∀ cyc, t.me.between cyc = (s.me.between cyc
        && (decide (s.cycle + (n.toNat + 1) ≤ cyc) || s.me.landFp.isSome || !s.me.landBar.isEmpty))

/-- R358, R68, R69: BKSEL keeps its context from going on until its table is read, 8 cycles after issue; the read
selects the first entry whose size reaches the dimension, writes the difference to sD, leaves the target for
after the delay bundle and, on an axis, the padding for the array; its check fails where no entry does, where the
table is none, and on an axis where the array is not held. That a table which passes 4 MiB goes on at offset 0, and the
order of the checks, are the model's choices of log 40 and log 86. -/
def Obligations.BucketsSelectTheirSchedule : Prop :=
  (∀ (s : State) (d a x : Fin 32), s.HoldsRange ((s.rs x).toNat % 2 ^ 22 / 8 * 8) 8 →
    ∃ t, exec (.bksel d a x) s = .next t ∧ Alone s t
      ∧ t.agenda = insertDue (s.cycle + 8) (.bkselTableRead s.cur s.cix) s.agenda
      ∧ t.me = { s.me with bksel := some (d, s.rs a, s.rs x, s.me.pc), wait := .reply
                           checks := s.me.checks ++ [s.me.word] })
  ∧ ∀ (s : State) (d : Fin 32) (dim x pc : Word), s.me.bksel = some (d, dim, x, pc) →
    let o := x.toNat % 2 ^ 22 / 8 * 8
    (∀ n axis, TableLegal s o n axis → s.HoldsRange o (min (8 + 16 * n) (2 ^ 22 - o)) →
      (∀ k, k < n → (∀ j, j < k → (s.tableWord o (1 + 2 * j)).toNat < dim.toNat) →
        dim.toNat ≤ (s.tableWord o (1 + 2 * k)).toNat →
        if axis < 3 ∧ s.myCore.arr.owner ≠ some s.cix then
          exec (.bkselTableRead s.cur s.cix) s = .next (s.checkDone 1 (some (.mtxNotOwned, s.ownerOf)))
        else ∃ u, exec (.bkselTableRead s.cur s.cix) s = .next (u.checkDone 1 none) ∧ Alone s u ∧ UnitsKept s u
          ∧ s.me.regs.Keeps u.me.regs (sDest d) 0
          ∧ u.me.regs.rs d = (if d = 0 then 0 else s.tableWord o (1 + 2 * k) - dim)
          ∧ { u.me with regs := s.me.regs, xfer := s.me.xfer, bksel := s.me.bksel, pad := s.me.pad } = s.me
          ∧ u.me.xfer = some (s.tableWord o (2 + 2 * k), true) ∧ u.me.bksel = none
          ∧ u.me.pad = if axis < 3 then some (axis, dim.toNat) else none)
      ∧ ((∀ k, k < n → (s.tableWord o (1 + 2 * k)).toNat < dim.toNat) →
          exec (.bkselTableRead s.cur s.cix) s = .next (s.checkDone 1 (some (.bkselRange, 0)))))
    ∧ ((∀ n axis, ¬ TableLegal s o n axis) → s.HoldsRange o (2 ^ 22 - o) →
        exec (.bkselTableRead s.cur s.cix) s = .next (s.checkDone 1 (some (.bkselRange, 1))))

/-- R245, R246: a bundle goes on, or traps, once the checks of all its words have returned; of two that are outstanding
the one that returns first changes nothing, and where they fail the trap is that of the lower class, whichever returns
first. -/
def Obligations.ChecksDecideTheirBundle : Prop :=
  ∀ (s : State) (x y : Nat × Code) (bx by_ : Option (Cause × Word)), s.me.failed = none →
    (s.me.checks = [x] →
      let t := s.modMe fun c => { c with checks := [], failed := none }
      s.checkDone (Code.cls x.2) bx = match bx with
        | some (c, i) => t.takeTrap c i
        | none => if s.me.wait = .reply then t.goOn else t)
    ∧ (s.me.checks = [x, y] → Code.cls x.2 < Code.cls y.2 →
      let t := s.modMe fun c => { c with checks := [], failed := none }
      (∀ z b, (z, b) ∈ [(x, bx), (y, by_)] → ContextOnly s (s.checkDone (Code.cls z.2) b)
        ∧ { (s.checkDone (Code.cls z.2) b).me with checks := s.me.checks, failed := s.me.failed } = s.me)
      ∧ (s.checkDone (Code.cls x.2) bx).checkDone (Code.cls y.2) by_
          = (s.checkDone (Code.cls y.2) by_).checkDone (Code.cls x.2) bx
      ∧ (s.checkDone (Code.cls x.2) bx).checkDone (Code.cls y.2) by_ = match bx.or by_ with
          | some (c, i) => t.takeTrap c i
          | none => if s.me.wait = .reply then t.goOn else t)

/-! ### Loads, stores, handles -/

/-- R153, R154, R166: the byte that an operand names, and where it lies. -/
def Obligations.OperandsNameTheirBytes : Prop :=
  ∀ (s : State) (x : Fin 32) (n : Fin 16) (i : BitVec 13) (j : BitVec 9),
    ∀ size ∈ [1, 2, 4, 8, 256, 2048],
      s.place (.scr x i) size size = .here (((s.rs x).toNat + i.toNat * size) % 2 ^ 22 / size * size)
      ∧ (let off := (s.rs x).toNat % 64 * 2 ^ 16 + i.toNat * size % 2 ^ 16 / size * size
         let strip := (s.rs x).toNat / 64 % 16
         s.place (.buf x i) size size =
           if strip = s.cur % 12 then .here off else .there (s.cur / 12 * 12 + strip) off)
      ∧ s.place (.hnd n x j) size size = .mem n
          (((s.rs x).toNat + j.toNat * size) % (2 ^ ([12, 16, 21, 30].getD (Handle.psize (s.hreg n)) 0)) / size * size)

/-- R182, R183, R186, R375, R376, R412, R413: a load reads the bytes at its operand, and a store's bytes there are
those of its register; a local one is held while an operation in flight reads or writes there.
It rests on the model’s choices of log 6, log 9, log 94. -/
def Obligations.LoadsAndStoresMoveTheirBytes : Prop :=
  (∀ (s : State) (a : Addr),
    (∀ d ty, s.AccessAllowed a (stySize ty) false → ∃ t, exec (.ld d ty a) s = .next t
      ∧ LoadIssued s t (s.place a (stySize ty) (stySize ty)) (.s d ty) (stySize ty) 3)
    ∧ (∀ d, s.AccessAllowed a 256 false → ∃ t, exec (.ldv d a) s = .next t
      ∧ LoadIssued s t (s.place a 256 256) (.v d) 256 4)
    ∧ ∀ d, s.AccessAllowed a 2048 false → ∃ t, exec (.ldt d a) s = .next t
      ∧ LoadIssued s t (s.place a 2048 2048) (.t d) 2048 6)
  ∧ ∀ (s : State) (a : Addr), s.canon = true →
    (∀ v ty, s.AccessAllowed a (stySize ty) true → ∃ t, exec (.st v ty a) s = .next t
      ∧ StoreIssued s t (s.place a (stySize ty) (stySize ty)) ((List.range (stySize ty)).map (byteOf (s.rs v))))
    ∧ (∀ v : Fin 32, s.AccessAllowed a 256 true → ∃ t, exec (.stv v a) s = .next t
      ∧ StoreIssued s t (s.place a 256 256) ((List.range 256).map (byteOf s.src.v[v])))
    ∧ ∀ v : Fin 16, s.AccessAllowed a 2048 true → ∃ t, exec (.stt v a) s = .next t
      ∧ StoreIssued s t (s.place a 2048 2048) ((List.range 2048).map (byteOf s.src.t[v]))

/-- R378: LDTX reads 16 ÷ z lines of 128 elements; element c of lane i is element i of line c.
It rests on the model’s choices of log 6, log 15. -/
def Obligations.TileLoadsReadLines : Prop :=
  ∀ (s : State) (d : Fin 16) (p x : Fin 32) (sz : Fin 4) (imm : BitVec 11),
    let z := 2 ^ sz.val
    let pitch := (s.rs p).toNat
    pitch % (128 * z) = 0 →
    (let a := ((s.rs x).toNat + imm.toNat * 512) % 2 ^ 22
     a % (128 * z) = 0 →
     (∀ c, c < 16 / z → a + c * pitch + 128 * z ≤ 2 ^ 22 ∧ s.OwnAllowed engLsu false (a + c * pitch) (128 * z)) →
      ∃ t r, exec (.ldtx d p false x sz imm) s = .next t ∧ UnitsKept s t
        ∧ OperationStep s t (loadOp s (.tx d sz) .settled) r s.me.wait (s.cycle + 12) (.loadWriteback s.cur s.nextOp)
        ∧ s.me.regs.Keeps r [.t d] 0
        ∧ ∀ i c k, i < 128 → c < 16 / z → k < z →
            byteOf r.t[d] (16 * i + z * c + k) = s.getLoc (.scr s.cur (a + c * pitch + z * i + k)))
    ∧ (let a := imm.toNat * 512 % 2 ^ 16
       let o := bufNum (s.rs x) * 65536
       a % (128 * z) = 0 →
       (∀ c, c < 16 / z → a + c * pitch + 128 * z ≤ 2 ^ 16 ∧ s.BufAllowed x engLsu false (a + c * pitch) (128 * z)) →
        ∃ t, exec (.ldtx d p true x sz imm) s = .next t ∧ UnitsKept s t
          ∧ if bufStrip (s.rs x) = stripOf s.cur then
              ∃ r, OperationStep s t (loadOp s (.tx d sz) .settled) r s.me.wait (s.cycle + 12)
                  (.loadWriteback s.cur s.nextOp)
                ∧ s.me.regs.Keeps r [.t d] 0
                ∧ ∀ i c k, i < 128 → c < 16 / z → k < z →
                    byteOf r.t[d] (16 * i + z * c + k) = s.getLoc (.scr s.cur (o + a + c * pitch + z * i + k))
            else ∃ due src, s.cycle < due
              ∧ OperationStep s t (loadOp s (.tx d sz) (.load (.tx d sz) src)) s.me.regs s.me.wait due
                  (.remoteBufferAccess s.cur s.nextOp)
              ∧ src.length = 2048
              ∧ ∀ c j, c < 16 / z → j < 128 * z → src[c * (128 * z) + j]?
                  = some (.place (.scr (s.rowCore (bufStrip (s.rs x))) (o + a + c * pitch + j))))

/-- R170 to R172, R377: LDE and STE at a word of the own scratchpad wait for it to be full or empty, an LDE.em also
for every plain LDE that waits there, and an LDE.em and an STE change the bit, once nothing holds the write; a request for
another core's word leaves for its controller, and its context waits for the reply. FESET sets the bits of a range of
words, 4,096 a cycle: the rest stands as held writes that perform in their cycles. It rests on the model’s choices of
log 6, log 53, log 94. -/
def Obligations.FullEmptyWordsHandOver : Prop :=
  (∀ (s : State) (r : Fin 32) (x : Fin 32) (imm : BitVec 16) (buf : Bool), s.canon = true →
      let o := if buf then s.bufPlace x (imm.toNat * 8) 8 else .here (s.scrOff x (imm.toNat * 8) 8)
      let allowed (wr : Bool) : Prop := if buf then s.BufAllowed x engLsu wr (imm.toNat * 8 / 8 * 8 % 65536) 8
        else s.OwnAllowed engLsu wr (s.scrOff x (imm.toNat * 8) 8) 8
      (∀ off em, o = .here off → allowed false → s.feFull s.cur off = true → s.myCore.markHeld off = false →
        (em = true → oldest (s.feWaiting s.cur off false true) (s.since (.fullEmpty false em s.cur (off / 8))) s.cur s.cix.val
            = true ∧ s.feWaiting s.cur off false false = []) →
        ∃ t g, exec (.lde em r buf x imm) s = .next t
          ∧ OperationStep s t (loadOp s (.s r .i64) .settled) g s.me.wait (s.cycle + 3) (.loadWriteback s.cur s.nextOp)
          ∧ Loaded s.me.regs g (.s r .i64) (s.scrBytes s.cur off 8) ∧ SameBytes s t
          ∧ (∀ k w, t.feFull k (8 * w)
              = if em = true ∧ s.me.undo = none ∧ k = s.cur ∧ w = off / 8 then false else s.feFull k (8 * w))
          ∧ (em = true → s.me.undo ≠ none → ∃ h, t.myCore.held = s.myCore.held ++ [h] ∧ h.mark = some (off / 8, 1, false)))
      ∧ (∀ off, o = .here off → allowed true → s.feFull s.cur off = false → s.myCore.markHeld off = false →
        oldest (s.feWaiting s.cur off true true) (s.since (.fullEmpty true true s.cur (off / 8))) s.cur s.cix.val = true →
        ∃ t, exec (.ste r buf x imm) s = .next t
          ∧ StoreIssued s t (.here off) ((List.range 8).map (byteOf (s.rs r)))
          ∧ (s.NoneHolds off 8 → ∀ k w, t.feFull k (8 * w) = (decide (k = s.cur ∧ w = off / 8) || s.feFull k (8 * w)))
          ∧ (¬ s.NoneHolds off 8 → (∀ k w, t.feFull k (8 * w) = s.feFull k (8 * w))
              ∧ ∃ h, t.myCore.held = s.myCore.held ++ [h] ∧ h.mark = some (off / 8, 1, true)))
      ∧ (∀ off em, o = .here off → allowed false → s.me.snap = none → s.feFull s.cur off = false →
        exec (.lde em r buf x imm) s = .next (s.modMe fun c => c.parkFor (.fullEmpty false em s.cur (off / 8)) s.cycle))
      ∧ (∀ off, o = .here off → allowed true → s.me.snap = none → s.feFull s.cur off = true →
        exec (.ste r buf x imm) s = .next (s.modMe fun c => c.parkFor (.fullEmpty true true s.cur (off / 8)) s.cycle))
      ∧ let asked (t u : State) (st em : Bool) (core off : Nat) : Prop := t = u.modMe fun c =>
          { c with wait := .reply, park := some ⟨.fullEmpty st em core (off / 8), s.cycle⟩ }
        (∀ core off em, o = .there core off → allowed false →
          ∃ t u, exec (.lde em r buf x imm) s = .next t ∧ asked t u false em core off
            ∧ Issued s u { id := s.nextOp, ctx := s.cix, kinds := 1, ctr := some .ld, ranges := [], lock := []
                           what := .fullEmpty false em core off r 0 .sent } s.me.wait none .feRemoteServe)
        ∧ ∀ core off, o = .there core off → allowed true →
          ∃ t u, exec (.ste r buf x imm) s = .next t ∧ asked t u true true core off
            ∧ Issued s u { id := s.nextOp, ctx := s.cix, kinds := 2, ctr := some .st, ranges := [], lock := []
                           what := .fullEmpty true true core off 0 (s.rs r) .sent } s.me.wait none .feRemoteServe)
  ∧ (∀ (s : State) (full : Bool) (l x : Fin 32) (imm : BitVec 16), s.canon = true →
      let o := ((s.rs x).toNat + 8 * imm.toNat) % 2 ^ 22 / 8 * 8
      let n := (s.rs l).toNat / 8
      o + 8 * n ≤ 2 ^ 22 →
      (s.OwnAllowed engLsu true o (8 * n) → ∃ t, exec (.feset full l x imm) s = .next t ∧ Alone s t ∧ t.agenda = s.agenda
        ∧ { t.core s.cur with ctxs := s.myCore.ctxs, fe := s.myCore.fe, held := s.myCore.held } = s.core s.cur
        ∧ t.me = { s.me with fesetTil := max s.me.fesetTil (s.cycle + (n + 4095) / 4096) }
        ∧ (∀ k w, t.feFull k (8 * w)
          = if k = s.cur ∧ o / 8 ≤ w ∧ w < o / 8 + min 4096 n then full else s.feFull k (8 * w))
        ∧ ∃ l, t.myCore.held = s.myCore.held ++ l
          ∧ (∀ h ∈ l, h.ops = [] ∧ h.bytes = [] ∧ h.check = false ∧ h.ctx = s.cix)
          ∧ l.map (fun h => (h.mark, h.till)) = (List.range ((n + 4095) / 4096 - 1)).map fun j =>
            (some (o / 8 + 4096 * (j + 1), min 4096 (n - 4096 * (j + 1)), full), s.cycle + (j + 1))))
  ∧ ∀ (c : Core) (h : Held) (w n now : Nat) (full : Bool), Memory.wf c.fe = true → c.held = [h] → h.ops = [] → h.bytes = [] →
      h.check = false → h.mark = some (w, n, full) →
      (now < h.till → c.performHeld now = c)
      ∧ (h.till ≤ now → { c.performHeld now with fe := c.fe, held := c.held } = c ∧ (c.performHeld now).held = []
        ∧ ∀ v, cget (c.performHeld now).fe v = if w ≤ v ∧ v < w + n then (if full = true then 1 else 0) else cget c.fe v)

/-- R171, R377: a request for another core's word waits at its controller and is served there: a load takes the word's
value, and empties it when it is an LDE.em; a store writes and fills it, and st falls then. The reply lets the bundle
of its context go on: a load's register is written 3 cycles after it.
It rests on the model’s choices of log 6, log 53. -/
def Obligations.RemoteFullEmptyWordsAreServed : Prop :=
  ∀ (s : State) (core id : Nat) (op : Op) (st em : Bool) (home off : Nat) (d : Fin 32) (v : Word) (g : FeStage),
    s.canon = true → (s.core core).op id = some op → op.what = .fullEmpty st em home off d v g →
    let ev := Instr.feRemoteServe core id
    let opsWith (p : Op) : List Op := (s.core core).ops.map fun o => if o.id = op.id then p else o
    let only (t : State) : Prop := { t with cores := s.cores, agenda := s.agenda, delays := s.delays } = s
      ∧ (∀ k j, k ≠ core ∨ j ≠ op.ctx → t.ctx k j = s.ctx k j)
    let late (t : State) (n : Nat) (e : Instr) : Prop := ∃ due, s.cycle + n ≤ due ∧ t.agenda = insertDue due e s.agenda
    match g with
    | .sent | .waits _ =>
        let since := match g with | .waits n => n | _ => s.cycle
        let now := s.feServed home off st em since core (4 + id)
        (st = false → now = true → ∃ t, exec ev s = .next t ∧ only t ∧ SameBytes s t ∧ late t 1 ev
          ∧ (t.core core).ops = opsWith { op with what := .fullEmpty false em home off d 0 (.served (.ofNat 64 (leVal (s.scrBytes home off 8)))) }
          ∧ t.ctx core op.ctx = { s.ctx core op.ctx with
              park := none, sure := (s.ctx core op.ctx).sure || (s.ctx core op.ctx).undo.isNone }
          ∧ ∀ k w, t.feFull k (8 * w) = if em = true ∧ k = home ∧ w = off / 8 then false else s.feFull k (8 * w))
        ∧ (st = false → now = false → ∃ t, exec ev s = .next t ∧ only t ∧ SameBytes s t
          ∧ t.agenda = insertDue (s.cycle + 1) ev s.agenda ∧ t.ctx core op.ctx = s.ctx core op.ctx
          ∧ (t.core core).ops = opsWith { op with what := .fullEmpty false em home off d 0 (.waits since) }
          ∧ ∀ k w, t.feFull k (8 * w) = s.feFull k (8 * w))
        ∧ (st = true → g = .sent → ∃ t, exec ev s = .next t ∧ only t ∧ SameBytes s t ∧ t.agenda = s.agenda
          ∧ t.ctx core op.ctx = s.ctx core op.ctx
          ∧ (t.core core).ops = opsWith { op with what := .fullEmpty true em home off d v (.waits s.cycle) })
        ∧ (st = true → em = true → g ≠ .sent → now = false → exec ev s = .next s)
        ∧ (st = true → em = true → g ≠ .sent → now = true → ∃ t, exec ev s = .next t ∧ only t
          ∧ late t 1 ev ∧ Wrote s t (fun j => .scr home (off + j)) (leBytes 8 v.toNat)
          ∧ (t.core core).ops = opsWith { op with kinds := 0, ctr := none, what := .fullEmpty true true home off 0 v (.served v) }
          ∧ (∀ k, (t.ctx core op.ctx).ctr k = (s.ctx core op.ctx).ctr k - if op.ctr = some k then 1 else 0)
          ∧ (t.ctx core op.ctx).park = none ∧ (t.ctx core op.ctx).regs = (s.ctx core op.ctx).regs
          ∧ (t.ctx core op.ctx).sure = ((s.ctx core op.ctx).sure || (s.ctx core op.ctx).undo.isNone)
          ∧ ∀ k w, t.feFull k (8 * w) = (decide (k = home ∧ w = off / 8) || s.feFull k (8 * w)))
    | .served u =>
        (st = false → ∃ t, exec ev s = .next t.goOn ∧ t.cur = core ∧ t.cix = op.ctx ∧ SameBytes s t
          ∧ t.agenda = insertDue (s.cycle + 3) (.loadWriteback core id) s.agenda
          ∧ (t.core core).ops = opsWith { op with
              lock := sDest d, what := .load (.s d .i64) ((leBytes 8 u.toNat).map .known) }
          ∧ { t.me with sb := (s.ctx core op.ctx).sb } = s.ctx core op.ctx
          ∧ ∀ c x, t.me.locked c x = ((s.ctx core op.ctx).locked c x || (sDest d).contains x))
        ∧ (st = true → ∃ t, exec ev s = .next t.goOn ∧ t.cur = core ∧ t.cix = op.ctx ∧ SameBytes s t
          ∧ Retired s t core op ∧ (t.ctx core op.ctx).regs = (s.ctx core op.ctx).regs)

/-- R410, R411, R118: SQLD reserves the youngest place of the scale queue, and its 192 bytes are on their way.
It rests on the model’s choice of log 6. -/
def Obligations.ScaleLoadsReserveTheirPlace : Prop :=
  ∀ (s : State) (a : Addr), s.myCore.arr.owner = some s.cix → s.myCore.arr.queue.length < 64 →
    (match a with
      | .scr x i => s.scrOff x (i.toNat * 64) 64 + 192 ≤ 2 ^ 22
          ∧ s.OwnAllowed engLsu false (s.scrOff x (i.toNat * 64) 64) 192
      | .buf x i => i.toNat * 64 % 65536 + 192 ≤ 65536 ∧ s.BufAllowed x engLsu false (i.toNat * 64 % 65536) 192
      | .hnd n x i => s.pageOff n x (i.toNat * 64) 64 + 192 ≤ pageBytes (Handle.psize (s.hreg n))
          ∧ s.HandleAllowed n (s.pageOff n x (i.toNat * 64) 64) false) →
    ∃ t src due, exec (.sqld a) s = .next t ∧ SameBytes s t ∧ s.cycle < due
      ∧ { t.core s.cur with ctxs := s.myCore.ctxs, ops := s.myCore.ops } =
          { s.myCore with arr := { s.myCore.arr with queue := s.myCore.arr.queue ++ [(s.nextOp, none)] } }
      ∧ OperationStep s t (loadOp s (.scale s.nextOp) (.load (.scale s.nextOp) src)) s.me.regs s.me.wait due
          (match s.place a 64 64 with
            | .there .. => .remoteBufferAccess s.cur s.nextOp
            | _ => .loadWriteback s.cur s.nextOp)
      ∧ src.length = 192
      ∧ ∀ k, k < 192 → src[k]? = some (match s.place a 64 64 with
          | .here off => .known (s.getLoc (.scr s.cur (off + k)))
          | .there core off => .place (.scr core (off + k))
          | .mem h off => match queued s.sent (Handle.place (s.hreg h) off + k) with
            | some b => .known b
            | none => .place (.mem (Handle.place (s.hreg h) off + k)))

/-- R155, R156, R159, R417, R372: TRANS writes its handle 24 cycles after issue from the page's entry and its
lease, or traps outside the leases; HTEST reads a handle's halves; a shootdown clears V in the function's
handles, and in those still to be written, leaves the translations of other pages, and its operations in flight, requests
to pantries and EXITs keep those that they have issued under. It rests on the model’s choice of log 14. -/
def Obligations.HandlesTranslate : Prop :=
  (∀ (s : State) (h : Fin 16) (a : Fin 32),
    ((s.rs a).toNat < 2 ^ 56 ∧ s.leased s.me.vf (s.rs a).toNat = true →
      ∃ t v, exec (.trans h a) s = .next t ∧ Alone s t
        ∧ t.agenda = insertDue (s.cycle + 24) (.transWrite s.cur s.cix h v) s.agenda
        ∧ { t.me with sb := s.me.sb } = s.me
        ∧ (∀ c r, t.me.locked c r = (s.me.locked c r || r == .h h))
        ∧ (∀ l, s.xlate s.me.vf (s.rs a).toNat = some l → HandleFor s v (s.rs a).toNat l)
        ∧ (s.xlate s.me.vf (s.rs a).toNat = none → Handle.valid v = false))
    ∧ (s.me.snap = none → (2 ^ 56 ≤ (s.rs a).toNat ∨ s.leased s.me.vf (s.rs a).toNat = false) →
      exec (.trans h a) s = .next (s.takeTrap .leaseBreach (.ofNat 64 ((s.rs a).toNat % 2 ^ 56)))))
  ∧ (∀ (s : State) (core : Nat) (i : Fin 4) (h : Fin 16) (v : Handle),
    ∃ t, exec (.transWrite core i h v) s = .next t
      ∧ { t with cores := s.cores } = s ∧ (∀ k j, k ≠ core ∨ j ≠ i → t.ctx k j = s.ctx k j)
      ∧ LandedBut ((s.ctx core i).entry.any fun u => !u.sb.any fun x => x.1 == .h h) s t core i
          (fun r r' => r.Keeps r' [.h h] 0 ∧ r'.h[h] = v)
      ∧ ∀ c x, (t.ctx core i).locked c x = (x != .h h && (s.ctx core i).locked c x))
  ∧ (∀ (s : State) (d : Fin 32) (h : Fin 16) (hi : Bool), ∃ t, exec (.htest hi d h) s = .next t
      ∧ RegisterStep s t (sDest d) 1 0
      ∧ t.me.regs.rs d = if d = 0 then 0 else .ofNat 64 ((s.hreg h).toNat / (if hi then 2 ^ 64 else 1)))
  ∧ ∀ (s : State) (vf : Nat) (va : Word) (len : Nat), ∃ t, exec (.shootdown vf va len) s = .next t
      ∧ { t with cores := s.cores, agenda := s.agenda, vfs := s.vfs } = s
      ∧ (∀ v, v ≠ vf → t.vf v = s.vf v)
      ∧ (∀ p ∈ s.lts vf, p.1 + pageBytes p.2.psize ≤ va.toNat ∨ va.toNat + len ≤ p.1 → p ∈ t.lts vf)
      ∧ (∀ k, (t.core k).ops = (s.core k).ops.map fun o =>
          if (s.ctx k o.ctx).task = true ∧ (s.ctx k o.ctx).vf = vf then
            { o with old := o.old ++ (s.lts vf).filter fun p =>
                decide (max p.1 va.toNat < min (p.1 + pageBytes p.2.psize) (va.toNat + len)) }
          else o)
      ∧ (∀ k i, if (s.ctx k i).task = true ∧ (s.ctx k i).vf = vf then
            let c := s.ctx k i
            let c' := t.ctx k i
            { c' with regs := c.regs, snap := c.snap, shot := c.shot, old := c.old } = c
              ∧ RegsShot va.toNat len c.regs c'.regs ∧ c'.snap.isSome = c.snap.isSome
              ∧ (∀ r r', c.snap = some r → c'.snap = some r' →
                if c.undo = none ∧ c.sure = false then RegsShot va.toNat len r r' ∧ c'.shot = c.shot
                else r' = r ∧ c'.shot = c.shot ++ [(va.toNat, len)])
              ∧ c'.old = if c.raise ≠ none ∨ (∃ a, c.wait = .exiting a) then c.old ++ (s.lts vf).filter fun p =>
                  decide (max p.1 va.toNat < min (p.1 + pageBytes p.2.psize) (va.toNat + len)) else c.old
          else t.ctx k i = s.ctx k i)
      ∧ ∀ e ∈ s.agenda, ∀ k i h v, e.2 = .transWrite k i h v → (s.ctx k i).task = true → (s.ctx k i).vf = vf →
          ∃ v', (e.1, Instr.transWrite k i h v') ∈ t.agenda ∧ ShotDown va.toNat len v v'

/-- R355 to R357, R160, R187, R245: an atomic whose handle allows it issues as a load and a store at once, and acts at
its location in one step when no earlier write of its core to the line is in flight and no check of its bundle is
pending. That it is put off till then is the model's choice of log 94, and its latency that of log 6. -/
def Obligations.AtomicsActInOneStep : Prop :=
  (∀ (s : State) (d v x : Fin 32) (h : Fin 16),
    (∀ op ty, let off := (s.rs x).toNat % pageBytes (Handle.psize (s.hreg h)) / amoSize ty * amoSize ty
      s.HandleAllowed h off true →
      (s.me.strict = true → amoFloat ty = true → op = .swap) →
      (Handle.aclass (s.hreg h)).getLsbD (if amoFloat ty = true ∧ op ≠ .swap then 2 else 0) = true →
      ∃ t, exec (.amo op ty d v x h) s = .next t ∧ Issued s t
        { id := s.nextOp, ctx := s.cix, kinds := 3, ctr := some .st, ranges := [], lock := sDest d
          what := .amo op ty d (Handle.place (s.hreg h) off) (s.rs v) }
        s.me.wait (lcBound (Handle.lc (s.hreg h))) .atomicPerform)
    ∧ ∀ sz, let off := (s.rs x).toNat % pageBytes (Handle.psize (s.hreg h)) / casSize sz * casSize sz
      let two (r : Fin 32) : BitVec 128 := .ofNat 128 (if sz = .pair then (s.rs (r + 1)).toNat * 2 ^ 64 + (s.rs r).toNat
        else (s.rs r).toNat)
      s.HandleAllowed h off true → (Handle.aclass (s.hreg h)).getLsbD (if sz = .pair then 3 else 1) = true →
      ∃ t, exec (.cas sz d v x h) s = .next t ∧ Issued s t
        { id := s.nextOp, ctx := s.cix, kinds := 3, ctr := some .st, ranges := []
          lock := sDest d ++ if sz = .pair then sDest (d + 1) else []
          what := .cas sz d (Handle.place (s.hreg h) off) (two d) (two v) }
        s.me.wait (lcBound (Handle.lc (s.hreg h))) .atomicPerform)
  ∧ ∀ (s : State) (core id : Nat) (op : Op), s.canon = true → (s.core core).op id = some op →
    (s.Sends core op →
      (∀ o ty d a v, op.what = .amo o ty d a v → (o ∈ [.and, .or, .xor] → amoFloat ty = false) →
        let old := leVal (s.memBytes a (amoSize ty))
        let w := v.toNat % 2 ^ (8 * amoSize ty)
        ∃ t, exec (.atomicPerform core id) s = .next t ∧ Retired s t core op
          ∧ Wrote s t (fun k => .mem (a + k)) (leBytes (amoSize ty) (atomicNew o ty old w))
          ∧ OpLanded s t core op fun r r' => r.Keeps r' (sDest d) 0
              ∧ r'.rs d = if d = 0 then 0 else if ty = .i32 then .ofInt 64 (Int.bmod old (2 ^ 32)) else .ofNat 64 old)
      ∧ (∀ sz d a c v, op.what = .cas sz d a c v →
        let old := leVal (s.memBytes a (casSize sz))
        ∃ t, exec (.atomicPerform core id) s = .next t ∧ Retired s t core op
          ∧ (if old = c.toNat % 2 ^ (8 * casSize sz) then Wrote s t (fun k => .mem (a + k)) (leBytes (casSize sz) v.toNat)
             else SameBytes s t)
          ∧ OpLanded s t core op fun r r' => r.Keeps r' (sDest d ++ if sz = .pair then sDest (d + 1) else []) 0
              ∧ (d ≠ 0 → r'.rs d = .ofNat 64 old)
              ∧ (sz = .pair → d + 1 ≠ 0 → r'.rs (d + 1) = .ofNat 64 (old / 2 ^ 64))))
    ∧ (¬ s.Sends core op → exec (.atomicPerform core id) s
        = .next (s.schedule (s.cycle + 1) (.atomicPerform core id)))

/-- R188, R189, R190, R191, R401: a fence, a drain and a publish stand for exactly the operations that have not
performed at their scope, and with them .sc, DRAIN and PUBLISH for the arrivals by BARA; PUBLISH's fence stands until the
hub's answer, which raises the function's counter and writes it out.
It rests on the model’s choices of log 6, log 30. -/
def Obligations.FencesStandForWhatIsInFlight : Prop :=
  (∀ (s : State) (scope : Scope) (pred succ : BitVec 8),
    ∃ t, exec (.fence false scope pred succ) s = .next t ∧ ContextOnly s t ∧ { t.me with fences := s.me.fences } = s.me
      ∧ ((∃ o, s.Awaits scope pred o) ∧ succ ≠ 0 →
          ∃ f, t.me.fences = s.me.fences ++ [f] ∧ FenceFor s f scope pred ∧ f.sc = false ∧ f.drain = false ∧ f.pub = none
            ∧ f.succ = succ)
      ∧ (¬ ((∃ o, s.Awaits scope pred o) ∧ succ ≠ 0) → t.me.fences = s.me.fences))
  ∧ (∀ (s : State) (scope : Scope) (pred succ : BitVec 8) (i : Instr), i ∈ [.fence true scope pred succ, .drain scope] →
    ∃ t, exec i s = .next t ∧ ContextOnly s t ∧ { t.me with fences := s.me.fences } = s.me
      ∧ (s.Outstanding scope → ∃ f, t.me.fences = s.me.fences ++ [f] ∧ FenceForAll s f scope ∧ f.succ = 0xFF
          ∧ f.sc = decide (i ≠ .drain scope) ∧ f.drain = decide (i = .drain scope) ∧ f.pub = none)
      ∧ (¬ s.Outstanding scope → t.me.fences = s.me.fences))
  ∧ (∀ (s : State) (d : Fin 32), ∃ t, exec (.publish d) s = .next t ∧ Alone s t
      ∧ { t.me with fences := s.me.fences, sb := s.me.sb } = s.me
      ∧ (∀ c r, t.me.locked c r = (s.me.locked c r || (sDest d).contains r))
      ∧ (∃ f, t.me.fences = s.me.fences ++ [f] ∧ FenceForAll s f .sys ∧ f.succ = 0xFF ∧ f.sc = false ∧ f.drain = true
            ∧ f.pub = some d)
      ∧ (s.Outstanding .sys → t.agenda = s.agenda)
      ∧ (¬ s.Outstanding .sys → ∃ due, s.cycle < due ∧ t.agenda = insertDue due (.publishAck s.cur s.cix d) s.agenda))
  ∧ ∀ (s : State) (core : Nat) (i : Fin 4) (d : Fin 32) (f : Vf), s.vf (s.ctx core i).vf = some f →
      ∃ t, exec (.publishAck core i d) s = .next t
        ∧ { t with cores := s.cores, vfs := s.vfs, hostMem := s.hostMem } = s
        ∧ t.vf (s.ctx core i).vf = some { f with version := f.version + 1 }
        ∧ (∀ v, v ≠ (s.ctx core i).vf → t.vf v = s.vf v)
        ∧ t.hostMem = (if f.veraddr = 0 then s.hostMem
            else csetN s.hostMem f.veraddr.toNat (leBytes 8 (f.version + 1).toNat))
        ∧ Landed s t core i (fun r r' => r.Keeps r' (sDest d) 0 ∧ (d ≠ 0 → r'.rs d = f.version + 1))
        ∧ (∀ c x, (t.ctx core i).locked c x = (x != .s d && (s.ctx core i).locked c x))
        ∧ ∀ pre g post, (s.ctx core i).fences = pre ++ g :: post → g.pub ≠ none → g.ops = [] →
            (∀ x ∈ pre, x.pub = none ∨ x.ops ≠ []) → (t.ctx core i).fences = pre ++ post

/-- R166 to R169: BGIVE puts a held buffer in transit once no access to it is in flight, BTAKE makes the core of a
strip in transit its holder; each traps on a handle that names no buffer. BGIVE waits while an access of its core to the
buffer is in flight, BTAKE while the buffer is neither held by its core nor on its way to it.
It rests on the model’s choice of log 15. -/
def Obligations.BuffersChangeHands : Prop :=
  ∀ (s : State) (b x : Fin 32),
    let st := bufStrip (s.rs b)
    let n := bufNum (s.rs b)
    let moved (t : State) (h : Hold) : Prop := { t with rows := s.rows } = s
      ∧ ∀ r k m, m < 64 → t.holdOf r k m = if r = rowOf s.cur ∧ k = st ∧ m = n then h else s.holdOf r k m
    (bufBad (s.rs b) = false → (s.rs x).toNat < 12 → s.holds s.cur st n = true → s.bufBusy (s.rs b) = false →
      ∃ t, exec (.bgive b x) s = .next t ∧ moved t (.transit (s.rs x).toNat))
    ∧ (bufBad (s.rs b) = false → (s.holds s.cur st n = true ∨ s.holdOf (rowOf s.cur) st n = .transit (stripOf s.cur)) →
      ∃ t, exec (.btake b) s = .next t ∧ moved t (.held (stripOf s.cur)))
    ∧ (s.me.snap = none →
      (bufBad (s.rs b) = true ∨ 12 ≤ (s.rs x).toNat →
        exec (.bgive b x) s = .next (s.takeTrap .bufOwner (.ofNat 64 (2 * 2 ^ 10 + st * 2 ^ 6 + n))))
      ∧ (bufBad (s.rs b) = false → (s.rs x).toNat < 12 → s.holds s.cur st n = false →
        exec (.bgive b x) s = .next (s.takeTrap .bufOwner (.ofNat 64 (1 * 2 ^ 10 + st * 2 ^ 6 + n))))
      ∧ (bufBad (s.rs b) = false → (s.rs x).toNat < 12 → s.holds s.cur st n = true → s.bufBusy (s.rs b) = true →
        exec (.bgive b x) s = .next (s.modMe fun c => c.parkFor .other s.cycle))
      ∧ (bufBad (s.rs b) = true →
        exec (.btake b) s = .next (s.takeTrap .bufOwner (.ofNat 64 (2 * 2 ^ 10 + st * 2 ^ 6 + n))))
      ∧ (bufBad (s.rs b) = false → s.holds s.cur st n = false →
          s.holdOf (rowOf s.cur) st n ≠ .transit (stripOf s.cur) →
          exec (.btake b) s = .next (s.modMe fun c => c.parkFor .other s.cycle)))

/-- R181, R183, R185, R186, R245, R376, R378, R413: an access that performs: a load's bytes reach their destination as
they stand, those of another core's buffer with the reply, for LDTX 12 cycles after it; a store's bytes are written once
no earlier one of its core to the line is in flight and no check of its bundle is pending, and it retires. That a store
performs only after the checks of its bundle is the model’s choice of log 94; it rests on log 6 and log 9 as well. -/
def Obligations.AccessesPerform : Prop :=
  ∀ (s : State) (core id : Nat) (op : Op), s.canon = true → (s.core core).op id = some op →
    (op.what = .settled → ∃ t, exec (.loadWriteback core id) s = .next t ∧ Retired s t core op ∧ SameBytes s t
      ∧ Landed s t core op.ctx (fun r r' => r' = r))
    ∧ (∀ dst src, op.what = .load dst src →
      (∃ t, exec (.loadWriteback core id) s = .next t ∧ Retired s t core op ∧ SameBytes s t
        ∧ OpLanded s t core op (fun r r' => Loaded r r' dst (src.map s.getSrc))
        ∧ ∀ slot, dst = .scale slot → (t.core core).arr.queue
            = (s.core core).arr.queue.map fun e => if e.1 = slot then (slot, some (ofLe 1536 (src.map s.getSrc))) else e)
      ∧ ∃ t due, exec (.remoteBufferAccess core id) s = .next t ∧ SameBytes s t
        ∧ { t with cores := s.cores, agenda := s.agenda, delays := s.delays } = s ∧ (∀ k j, t.ctx k j = s.ctx k j)
        ∧ (t.core core).ops = (s.core core).ops.map (fun o =>
            if o.id = op.id then { op with what := .load dst (src.map fun b => .known (s.getSrc b)) } else o)
        ∧ t.agenda = insertDue due (.loadWriteback core id) s.agenda
        ∧ s.cycle + (match dst with | .tx .. => 12 | _ => 0) < due)
    ∧ (∀ a b, op.what = .store a b → s.Sends core op → ∃ t, exec (.storePerform core id) s = .next t
      ∧ Retired s t core op ∧ Wrote s t (fun k => .mem (a + k)) b ∧ Landed s t core op.ctx (fun r r' => r' = r))
    ∧ (∀ a b, op.what = .store a b → ¬ s.Sends core op →
      exec (.storePerform core id) s = .next (s.schedule (s.cycle + 1) (.storePerform core id)))
    ∧ (∀ k off b, op.what = .bufStore k off b → s.opHeld core op = false → ∃ t, exec (.remoteBufferAccess core id) s = .next t
      ∧ Retired s t core op ∧ Wrote s t (fun j => .scr k (off + j)) b ∧ Landed s t core op.ctx (fun r r' => r' = r))
    ∧ (∀ k off b, op.what = .bufStore k off b → s.opHeld core op = true →
      exec (.remoteBufferAccess core id) s = .next (s.schedule (s.cycle + 1) (.remoteBufferAccess core id)))
    ∧ (op.what = .settled → (∀ h ∈ (s.core core).held, h.store ≠ id) → ∃ t, exec (.storePerform core id) s = .next t
      ∧ Retired s t core op ∧ SameBytes s t ∧ Landed s t core op.ctx (fun r r' => r' = r))
    ∧ (op.what = .settled → (∃ h ∈ (s.core core).held, h.store = id) →
      exec (.storePerform core id) s = .next (s.schedule (s.cycle + 1) (.storePerform core id)))

/-- R154, R158, R159, R166, R169, R178: a plain load or store that may not be made traps, in this order: a handle
with V = 0; a store through a handle with W = 0; a handle that names no buffer, a buffer that the core does not
hold; bytes outside the open phase's set. It rests on the model’s choices of log 15 (the order of the two reasons of
BUF_OWNER), log 31, log 61. -/
def Obligations.AccessesThatMayNotBeMadeTrap : Prop :=
  ∀ (s : State) (i : Instr) (a : Addr) (size : Nat) (wr : Bool), s.me.snap = none → accessOf i = some (a, size, wr) →
    match a with
    | .hnd n x j =>
        (Handle.valid (s.hreg n) = false →
          exec i s = .next (s.takeTrap .handleStale (.ofNat 64 (Handle.va (s.hreg n) + n.val))))
        ∧ (Handle.valid (s.hreg n) = true → wr = true → Handle.canW (s.hreg n) = false →
          exec i s = .next (s.takeTrap .leaseBreach
            (.ofNat 64 (2 ^ 56 + (Handle.va (s.hreg n) + s.pageOff n x (j.toNat * size) size) % 2 ^ 56))))
    | .buf x j =>
        let off := j.toNat * size % 65536
        let st := bufStrip (s.rs x)
        let n := bufNum (s.rs x)
        (bufBad (s.rs x) = true → exec i s = .next (s.takeTrap .bufOwner (.ofNat 64 (2 * 2 ^ 10 + st * 2 ^ 6 + n))))
        ∧ (bufBad (s.rs x) = false → s.holds s.cur st n = false →
          exec i s = .next (s.takeTrap .bufOwner (.ofNat 64 (st * 2 ^ 6 + n))))
        ∧ (bufBad (s.rs x) = false → s.holds s.cur st n = true → s.me.strict = true →
          (s.me.phase = none → exec i s = .next (s.takeTrap .phaseEscape
            (.ofNat 64 (n * 2 ^ 36 + 2 ^ 32 + (if wr then 2 ^ 29 else 0) + st * 2 ^ 25))))
          ∧ ∀ es p, s.me.phase = some es → off ≤ p → p < off + size →
            (∀ o, off ≤ o → o < p → ByteDeclared (stripOf s.cur) es engLsu wr (some (st, n)) o) →
            ¬ ByteDeclared (stripOf s.cur) es engLsu wr (some (st, n)) p →
            exec i s = .next (s.takeTrap .phaseEscape
              (.ofNat 64 (n * 2 ^ 36 + (if wr then 2 ^ 29 else 0) + st * 2 ^ 25 + p))))
    | .scr x j =>
        let off := s.scrOff x (j.toNat * size) size
        (s.holds s.cur (stripOf s.cur) (off / 65536) = false →
          exec i s = .next (s.takeTrap .bufOwner (.ofNat 64 (stripOf s.cur * 2 ^ 6 + off / 65536))))
        ∧ (s.holds s.cur (stripOf s.cur) (off / 65536) = true → s.me.strict = true →
          (s.me.phase = none → exec i s = .next (s.takeTrap .phaseEscape
            (.ofNat 64 (2 ^ 32 + (if wr then 2 ^ 29 else 0) + 15 * 2 ^ 25))))
          ∧ ∀ es p, s.me.phase = some es → off ≤ p → p < off + size →
            (∀ o, off ≤ o → o < p → ByteDeclared (stripOf s.cur) es engLsu wr none o) →
            ¬ ByteDeclared (stripOf s.cur) es engLsu wr none p →
            exec i s = .next (s.takeTrap .phaseEscape
              (.ofNat 64 ((if wr then 2 ^ 29 else 0) + 15 * 2 ^ 25 + p))))

/-! ### Symmetric tensors -/

/-- R133, R134, on tensors of every rank without a generator, on matrices of one generator and of two REFLs, and on
tensors of rank 3 that are SYM in all axes: representative, sign, multiplicity and packed offset of each element. -/
def Obligations.OrbitsOfMatrices : Prop :=
  (∀ (d : Desc) (t : List Nat), d.rank = d.ext.length → t.length = d.rank → d.gens = [] →
    d.orbitRep t = ⟨t, 1, 1, rowMajor d.ext t⟩)
  ∧ (∀ (d : Desc) (n i j k : Nat) (t : List Nat), d.rank = 3 → d.ext = [n, n, n] → d.gens = [⟨0, false, [0, 1, 2]⟩] →
    i ≤ j → j ≤ k → k < n → t ∈ [[i, j, k], [i, k, j], [j, i, k], [j, k, i], [k, i, j], [k, j, i]] →
    d.orbitRep t = ⟨[i, j, k], 1, if i = j ∧ j = k then 1 else if i = j ∨ j = k then 3 else 6,
      i + j * (j + 1) / 2 + k * (k + 1) * (k + 2) / 6⟩)
  ∧ ∀ (d : Desc) (n m i j : Nat), d.rank = 2 → d.ext = [n, m] → i < n → j < m →
    (n = m → d.gens = [⟨0, false, [0, 1]⟩] → d.orbitRep [i, j]
        = ⟨[min i j, max i j], 1, if i = j then 1 else 2, min i j + max i j * (max i j + 1) / 2⟩)
    ∧ (n = m → d.gens = [⟨1, false, [0, 1]⟩] → d.orbitRep [i, j]
        = ⟨[min i j, max i j], if i = j then 0 else if i < j then 1 else -1, if i = j then 1 else 2,
            if i = j then 0 else min i j + max i j * (max i j - 1) / 2⟩)
    ∧ (n = m → d.gens = [⟨2, false, [0, 1]⟩] → d.orbitRep [i, j]
        = ⟨[0, (j + n - i) % n], 1, n, (j + n - i) % n⟩)
    ∧ (∀ neg, d.gens = [⟨3, neg, [1]⟩] → d.orbitRep [i, j]
        = ⟨[i, min j (m - 1 - j)], if neg = true ∧ j = m - 1 - j then 0 else if neg = true ∧ m - 1 - j < j then -1 else 1,
            if j = m - 1 - j then 1 else 2,
            if neg = true ∧ j = m - 1 - j then 0 else i * ((m + 1) / 2) + min j (m - 1 - j)⟩)
    ∧ (∀ a b, d.gens = [⟨3, a, [0]⟩, ⟨3, b, [1]⟩] →
        let zero := (a = true ∧ i = n - 1 - i) ∨ (b = true ∧ j = m - 1 - j)
        d.orbitRep [i, j] = ⟨[min i (n - 1 - i), min j (m - 1 - j)],
          if zero then 0 else if (a = true ∧ n - 1 - i < i) ↔ (b = true ∧ m - 1 - j < j) then 1 else -1,
          (if i = n - 1 - i then 1 else 2) * (if j = m - 1 - j then 1 else 2),
          if zero then 0 else min i (n - 1 - i) * ((m + 1) / 2) + min j (m - 1 - j)⟩)
    ∧ ∀ neg, d.gens = [⟨3, neg, [0]⟩] → d.orbitRep [i, j]
        = ⟨[min i (n - 1 - i), j], if neg = true ∧ i = n - 1 - i then 0 else if neg = true ∧ n - 1 - i < i then -1 else 1,
            if i = n - 1 - i then 1 else 2,
            if neg = true ∧ i = n - 1 - i then 0 else min i (n - 1 - i) * m + j⟩

/-- R130 to R132, R140: ORBLD.d reads its descriptor at issue, and 12 cycles later loads it if it is well formed or
all zero, and its check fails with ORBIT_RANGE, the register unchanged, otherwise: a block of rank 0 with another field
set fails too, which is the reading of R130 and R140 that log 33 says. It rests on the model’s choice of log 33. -/
def Obligations.DescriptorsAreChecked : Prop :=
  (∀ b, descOk b = true ↔ DescLegal b)
  ∧ (∀ (s : State) (o : Fin 8) (x : Fin 32) (imm : BitVec 19),
    let off := ((s.rs x).toNat + 64 * imm.toNat) % 2 ^ 22 / 64 * 64
    s.OwnAllowed engLsu false off 64 → ∃ t, exec (.orbldD o x imm) s = .next t.asks ∧ UnitsKeptButOrbit s t ∧ SameBytes s t
      ∧ (t.core s.cur).orbFree = s.cycle + 1
      ∧ OperationStep s t { id := s.nextOp, ctx := s.cix, kinds := kLd, ctr := some .ld, ranges := [], lock := [.o o]
                            what := .descr o (ofLe 512 (s.scrBytes s.cur off 64)) } s.me.regs s.me.wait (s.cycle + 12)
          (.loadWriteback s.cur s.nextOp))
  ∧ ∀ (s : State) (core id : Nat) (op : Op) (o : Fin 8) (b : Block64), (s.core core).op id = some op →
    op.what = .descr o b → ∃ u : State, u.cur = core ∧ u.cix = op.ctx
      ∧ (u.core core).ops = (s.core core).ops.filter (fun o => o.id != op.id) ∧ SameBytes s u
      ∧ (∀ k, u.me.ctr k = (s.ctx core op.ctx).ctr k - if op.ctr = some k then 1 else 0)
      ∧ (b = 0 ∨ DescLegal b → exec (.loadWriteback core id) s = .next (u.checkDone 2 none)
        ∧ OpLanded s u core op fun r r' => r.Keeps r' [.o o] 0 ∧ r'.o[o] = b)
      ∧ (¬ (b = 0 ∨ DescLegal b) → exec (.loadWriteback core id) s = .next (u.checkDone 2 (some (.orbitRange, 1)))
        ∧ OpLanded s u core op fun r r' => r' = r)

/-- R135, R137, R141, R142, R146: ORBOFS writes multiplicity, sign and offset of its tuple, ORBLD the window of its
origin, element by element; ORBOFS traps outside the extents, and each where the register describes no tensor. The tile
register is written at issue and awaited. It rests on the model's choices of log 6, log 92. -/
def Obligations.OrbitWordsRead : Prop :=
  ∀ (s : State) (o : Fin 8) (a b : Fin 32),
    let d := descOf (s.oreg o)
    let tup := s.tuple d a b
    (∀ x : Fin 32, d.rank ≠ 0 → TupleInside d tup → ∃ t, exec (.orbofs x o a b) s = .next t
      ∧ Alone s t ∧ UnitsKeptButOrbit s t ∧ SameBytes s t ∧ s.me.regs.Keeps t.me.regs (sDest x) 0
      ∧ (t.core s.cur).ops = s.myCore.ops ∧ { t.me with regs := s.me.regs, sb := s.me.sb } = s.me
      ∧ (∀ c r, s.cycle < c → t.me.locked c r = (s.me.locked c r || ((sDest x).contains r && decide (c < s.cycle + 3))))
      ∧ t.me.regs.rs x = if x = 0 then 0 else .ofNat 64 ((d.orbitRep tup).mult % 2 ^ 30 * 2 ^ 34
          + (if (d.orbitRep tup).sign = 0 then 0 else if (d.orbitRep tup).sign = 1 then 1 else 3) * 2 ^ 32
          + (d.orbitRep tup).off))
    ∧ (∀ x : Fin 16, d.rank ≠ 0 → d.rank ≤ 6 →
      (∀ r c t, r < 128 → c < d.perLane → WindowTuple d tup r c t → TupleInside d t → (d.orbitRep t).sign ≠ 0 →
        s.OwnAllowed engLsu false (d.base + (d.orbitRep t).off * d.size) d.size) →
      ∃ u g, exec (.orbldTile x o a b) s = .next u ∧ UnitsKeptButOrbit s u ∧ SameBytes s u
        ∧ OperationStep s u (loadOp s (.t x) .settled) g s.me.wait (s.cycle + 12 + 8 * d.perLane)
            (.loadWriteback s.cur s.nextOp)
        ∧ s.me.regs.Keeps g [.t x] 0
        ∧ ∀ r c, r < 128 → c < d.perLane →
          (∀ t, WindowTuple d tup r c t → TupleInside d t → d.tileElem g.t[x] r c = orbitValue s d t)
          ∧ ((∀ t, WindowTuple d tup r c t → ¬ TupleInside d t) → d.tileElem g.t[x] r c = 0))
    ∧ (s.me.snap = none →
      (d.rank = 0 → (∀ x, exec (.orbofs x o a b) s = .next (s.takeTrap .orbitRange 2))
        ∧ ∀ x, exec (.orbldTile x o a b) s = .next (s.takeTrap .orbitRange 2))
      ∧ ∀ x k, k < d.rank → d.rank ≤ 6 → (∀ j, j < k → tup.getD j 0 < d.extent j) → d.extent k ≤ tup.getD k 0 →
        exec (.orbofs x o a b) s = .next (s.takeTrap .orbitRange (.ofNat 64 (16 * k + 3))))

/-- R144 to R146, R396: a scalar ORBST writes the canonical place of its tuple, negated where the sign is −1; a tile
ORBST writes the canonical elements of its window and, with .chk, traps at the first that is none and differs. A write is
held while something holds its place. The cycles at which they retire are the most that R396 allows.
It rests on the model's choices of log 6, log 9, log 94. -/
def Obligations.OrbitWordsStore : Prop :=
  ∀ (s : State) (o : Fin 8) (a b : Fin 32), s.canon = true →
    let d := descOf (s.oreg o)
    let tup := s.tuple d a b
    (∀ v : Fin 32,
      let r := d.orbitRep tup
      let x := (s.rs v).toNat % 2 ^ (8 * d.size)
      d.rank ≠ 0 → TupleInside d tup →
      (r.sign ≠ 0 → s.OwnAllowed engLsu true (d.base + r.off * d.size) d.size → ∃ t, exec (.orbstScalar o a b v) s = .next t
        ∧ UnitsKeptButOrbit s t ∧ (t.core s.cur).orbFree = s.cycle + 1
        ∧ OperationStep s t (storeOp s .settled) s.me.regs s.me.wait (s.cycle + 1) (.storePerform s.cur s.nextOp)
        ∧ ScrWritten s t (d.base + r.off * d.size)
            (leBytes d.size (if r.sign = -1 then negElem d.fmt (8 * d.size) x else x)))
      ∧ (r.sign = 0 → zeroElem d.fmt (8 * d.size) x = true → ∃ t, exec (.orbstScalar o a b v) s = .next t
        ∧ UnitsKeptButOrbit s t ∧ SameBytes s t
        ∧ OperationStep s t (storeOp s .settled) s.me.regs s.me.wait (s.cycle + 1) (.storePerform s.cur s.nextOp))
      ∧ (r.sign = 0 → zeroElem d.fmt (8 * d.size) x = false → s.me.snap = none →
        exec (.orbstScalar o a b v) s = .next (s.takeTrap .symBreak 0)))
    ∧ ∀ (x : Fin 16) (chk : Bool), d.rank ≠ 0 →
      (∀ p ∈ s.orbstWrites d a b, s.OwnAllowed engLsu true (d.at p.2.off) d.size) →
      (∀ p ∈ s.orbstReads d chk a b, s.OwnAllowed engLsu false p d.size) →
      ((chk = true → ∀ p ∈ d.window tup, d.canonical tup p = true ∨ s.chkOk d tup s.src.t[x] p = true) →
        ∃ t, exec (.orbstTile chk o x a b) s = .next t ∧ UnitsKeptButOrbit s t
          ∧ (t.core s.cur).orbFree = s.cycle + 8 * d.perLane ∧ (t.core s.cur).portFree = s.cycle + 16 * d.perLane + 12
          ∧ OperationStep s t (storeOp s .settled) s.me.regs s.me.wait (s.cycle + 16 * d.perLane + 12)
              (.storePerform s.cur s.nextOp)
          ∧ (∀ l, (∀ p ∈ s.orbstWrites d a b, ∀ k, k < d.size → l ≠ .scr s.cur (d.at p.2.off + k)) → t.getLoc l = s.getLoc l)
          ∧ (¬ (∀ p ∈ s.orbstWrites d a b, s.NoneHolds (d.at p.2.off) d.size) → SameBytes s t
              ∧ ∃ h, t.myCore.held = s.myCore.held ++ [h] ∧ h.store = s.nextOp)
          ∧ ((∀ p ∈ s.orbstWrites d a b, s.NoneHolds (d.at p.2.off) d.size) →
              ∀ p ∈ s.orbstWrites d a b, ∀ k, k < d.size → ∃ q ∈ s.orbstWrites d a b, ∃ j, j < d.size
                ∧ d.at q.2.off + j = d.at p.2.off + k
                ∧ t.getLoc (.scr s.cur (d.at p.2.off + k))
                    = .ofNat 8 (d.tileElem s.src.t[x] q.1.1 q.1.2 / 256 ^ j)))
      ∧ (chk = true → s.me.snap = none → ∀ l p l', d.window tup = l ++ p :: l' →
        (∀ q ∈ l, d.canonical tup q = true ∨ s.chkOk d tup s.src.t[x] q = true) → d.canonical tup p = false →
        s.chkOk d tup s.src.t[x] p = false →
        exec (.orbstTile chk o x a b) s = .next (s.takeTrap .symBreak (.ofNat 64 (p.1.1 * 2 ^ 9 + p.1.2 * 2 ^ 4 + 1))))

/-- R143, R146, R397: ORBX copies every element of the tensor in row-major order to its destination, under one
entry of the range scoreboard; it traps where that ends beyond 4 MiB or meets the packed storage.
It rests on the model’s choices of log 64, log 93. -/
def Obligations.OrbitsExpand : Prop :=
  ∀ (s : State) (o : Fin 8) (x : Fin 32) (imm : BitVec 20),
    let d := descOf (s.oreg o)
    let dst := ((s.rs x).toNat + 64 * imm.toNat) % 2 ^ 22
    let n := d.ext.foldl (· * ·) 1 * d.size
    d.rank ≠ 0 → d.rank ≤ 6 →
    (dst + n ≤ 2 ^ 22 → (dst + n ≤ d.base ∨ d.base + d.packed * d.size ≤ dst) →
      (∀ t, t.length = d.rank → TupleInside d t → (d.orbitRep t).sign ≠ 0 →
        s.OwnAllowed engCpy false (d.base + (d.orbitRep t).off * d.size) d.size) →
      s.OwnAllowed engCpy true dst n →
      ∃ t moves, exec (.orbx o x imm) s = .next t ∧ UnitsKeptButOrbit s t ∧ SameBytes s t
        ∧ OperationStep s t { id := s.nextOp, ctx := s.cix, kinds := 12, ctr := some .tl, ranges := [⟨dst, dst + n, true⟩]
                              lock := [], what := .copy moves } s.me.regs s.me.wait
            (s.cycle + 12 + (d.ext.foldl (· * ·) 1 + 15) / 16) (.asyncRetire s.cur s.nextOp)
        ∧ moves.length = n
        ∧ ∀ t k, t.length = d.rank → TupleInside d t → k < d.size →
            moves[rowMajor d.ext t * d.size + k]? = some (.known (.ofNat 8 (orbitValue s d t / 256 ^ k)),
              .scr s.cur (dst + rowMajor d.ext t * d.size + k)))
    ∧ (s.me.snap = none → 2 ^ 22 < dst + n → exec (.orbx o x imm) s = .next (s.takeTrap .orbitRange 4))
    ∧ (s.me.snap = none → dst + n ≤ 2 ^ 22 → (∃ k, dst ≤ k ∧ k < dst + n ∧ d.base ≤ k ∧ k < d.base + d.packed * d.size) →
      exec (.orbx o x imm) s = .next (s.takeTrap .orbitRange 5))

/-! ### Vector words -/

/-- R419 to R424, R426, R428, R429, R431: every elementwise vector word computes each enabled element, keeps every
other, ORs the flags of the enabled ones into FPFLG, and changes nothing else. -/
def Obligations.VectorWordsComputeElements : Prop :=
  ∀ (s : State) (i : Instr) (d : Fin 32) (msk : Fin 8) (w lat : Nat) (f : Nat → Nat × Flags),
    vecOf s i = some (d, msk, w, lat, f) → w ∈ [8, 16, 32, 64] → s.NoTransfer →
    flagsOf s.src msk w f &&& tenOf s.src.fpctl = 0 →
    ∃ t, exec i s = .next t ∧ RegisterStep s t [.v d] lat (flagsOf s.src msk w f)
      ∧ ∀ e, e < 2048 / w → velem w t.me.regs.v[d] e
          = if s.src.on msk w e = true then (f e).1 % 2 ^ w else velem w s.src.v[d] e

/-- R424, R425, R427, R430: the words with another destination. VEXT, VCMP, VMLOG, VRED, VSCAN and VQNT. That a float
minimum or maximum step takes a number over a NaN is the model’s choice of log 106. -/
def Obligations.VectorWordsReduce : Prop :=
  ∀ (s : State), s.NoTransfer →
    (∀ (d a b : Fin 32) (ty : VTy), ∃ t, exec (.vext d a b ty) s = .next t ∧ RegisterStep s t (sDest d) 2 0
      ∧ t.me.regs.rs d = if d = 0 then 0 else .ofInt 64 (elemNum ty.isSigned ty.width
          (velem ty.width s.src.v[a] ((s.rs b).toNat % (2048 / ty.width)))))
    ∧ (∀ (d a b : Fin 8) (fn : Fin 4), ∃ t, exec (.vmlog d a b fn) s = .next t ∧ RegisterStep s t [.m d] 2 0
      ∧ ∀ k, k < 64 → t.me.regs.m[d].getLsbD k = match fn with
        | 0 => s.src.m[a].getLsbD k && s.src.m[b].getLsbD k
        | 1 => s.src.m[a].getLsbD k || s.src.m[b].getLsbD k
        | 2 => xor (s.src.m[a].getLsbD k) (s.src.m[b].getLsbD k)
        | 3 => s.src.m[a].getLsbD k && !s.src.m[b].getLsbD k)
    ∧ (∀ (d : Fin 8) (a b : Fin 32) (ty : VTy) (cc : Fin 4) (m : VMod), ty.width ∈ [32, 64] →
      let cmp (e : Nat) : Bool × Flags := cmpElem ty (envOf s.src.fpctl m.rnd) cc (velem ty.width s.src.v[a] e)
        (velem ty.width s.src.v[b] e)
      let fl := flagsOf s.src m.msk ty.width fun e => (0, (cmp e).2)
      fl &&& tenOf s.src.fpctl = 0 →
      ∃ t, exec (.vcmp d a b ty cc m) s = .next t ∧ RegisterStep s t [.m d] (if ty.isInt then 2 else 4) fl
        ∧ ∀ k, k < 64 → t.me.regs.m[d].getLsbD k
            = if s.src.on m.msk ty.width (32 * k / ty.width) = true then (cmp (32 * k / ty.width)).1
              else s.src.m[d].getLsbD k)
    ∧ (∀ (d a b : Fin 32) (ty : VTy) (op : RedOp) (m : VMod), ty.width ∈ [8, 16, 32, 64] →
      let w := ty.width
      let n := 2048 / w
      let x (e : Nat) : Nat := velem w s.src.v[a] e
      let step := reduceBy op ty (envOf s.src.fpctl m.rnd)
      let lat := if ty.isInt then 8 else 16
      (let z := reduced s.src m.msk w step x (velem w s.src.v[b] 0) n
       z.2 &&& tenOf s.src.fpctl = 0 →
        ∃ t, exec (.vred d a b ty op m) s = .next t ∧ RegisterStep s t [.v d] lat z.2
          ∧ t.me.regs.v[d] = .ofNat 2048 z.1)
      ∧ (let start := velem w s.src.v[b] (n - 1)
         let fl := (reduced s.src m.msk w step x start n).2
         fl &&& tenOf s.src.fpctl = 0 →
          ∃ t, exec (.vscan d a b ty op m) s = .next t ∧ RegisterStep s t [.v d] lat fl
            ∧ ∀ e, e < n → velem w t.me.regs.v[d] e
                = if s.src.on m.msk w e = true then (reduced s.src m.msk w step x start (e + 1)).1 % 2 ^ w
                  else velem w s.src.v[d] e))
    ∧ ∀ (d a b : Fin 32) (ty : VTy) (q : Fin 4) (m : VMod),
      let mx := mxOf ty
      let lo := mxQuantise mx (envOf s.src.fpctl m.rnd) ((List.range 32).map fun k => velem 32 s.src.v[a] k)
      let hi := mxQuantise mx (envOf s.src.fpctl m.rnd) ((List.range 32).map fun k => velem 32 s.src.v[a] (32 + k))
      let fl := lo.2.2 ||| hi.2.2
      fl &&& tenOf s.src.fpctl = 0 → q.val * (64 * mx.width) + 64 * mx.width ≤ 2048 →
      ∃ t, exec (.vqnt d a b ty q m) s = .next t ∧ Alone s t
        ∧ s.me.regs.Keeps t.me.regs (.v d :: sDest b) fl
        ∧ t.me.regs.rs b = (if b = 0 then 0 else .ofNat 64 (lo.1 + 256 * hi.1))
        ∧ (∀ k, k < 64 → t.me.regs.v[d].toNat / 2 ^ (q.val * (64 * mx.width) + mx.width * k) % 2 ^ mx.width
            = (if k < 32 then lo.2.1.getD k 0 else hi.2.1.getD (k - 32) 0) % 2 ^ mx.width)
        ∧ ∀ k, (k < q.val * (64 * mx.width) ∨ q.val * (64 * mx.width) + 64 * mx.width ≤ k) →
            t.me.regs.v[d].getLsbD k = s.src.v[d].getLsbD k

/-- R95, R229: a vector word whose enabled elements raise a flag that is enabled traps FP_TRAP with all its flags;
a phase context that issues one traps ILL_MOD, whatever it computes. -/
def Obligations.VectorWordsTrap : Prop :=
  ∀ (s : State) (i : Instr) (d : Fin 32) (msk : Fin 8) (w lat : Nat) (f : Nat → Nat × Flags),
    vecOf s i = some (d, msk, w, lat, f) → w ∈ [8, 16, 32, 64] → s.me.snap = none →
    (s.NoTransfer → flagsOf s.src msk w f &&& tenOf s.src.fpctl ≠ 0 →
      exec i s = .next (s.takeTrap .fpTrap ((flagsOf s.src msk w f).setWidth 64) (flagsOf s.src msk w f)))
    ∧ (s.inTransfer = true → exec i s = .next (s.takeTrap .illMod (layoutW s.me.word.1 s.me.word.2)))

/-- R82, R91, R93, R96: rounding the exact value of a finite code gives that code and no flag in every mode, where
FTZ does not flush it; a conversion to an integer type is exact within the type's range and gives the nearer end
with NV outside it, and a NaN gives 0 with NV. -/
def Obligations.ExactValuesConvertExactly : Prop :=
  (∀ f ∈ [fF64, fF32, fF16, fBf16, fE5m2, fE4m3, fE3m2, fE2m3, fE2m1], ∀ (env : Env) (neg : Bool) (c m : Nat) (e : Int) (k : Nat),
    c < f.signBit → f.val false c = .fin false m e → (f.flush = true → env.ftz = true → m = 0 ∨ 2 ^ f.m ≤ m) →
    roundTo f env neg (m * 2 ^ k) (e - k) = (f.signed neg c, 0))
  ∧ ∀ (w : Nat) (sg : Bool) (env : Env), w ∈ [8, 16, 32, 64] →
    let lo : Int := if sg then -(2 ^ (w - 1)) else 0
    let hi : Int := if sg then 2 ^ (w - 1) - 1 else 2 ^ w - 1
    (∀ (neg : Bool) (m k : Nat), let x : Int := (if neg then -1 else 1) * (m * 2 ^ k : Nat)
      fpToInt w sg env (.fin neg m k) = if x < lo then (wrapTo w lo, NV) else if hi < x then (wrapTo w hi, NV)
        else (wrapTo w x, 0))
    ∧ (∀ neg, fpToInt w sg env (.inf neg) = (wrapTo w (if neg then lo else hi), NV))
    ∧ ∀ n q p, fpToInt w sg env (.nan n q p) = (0, NV)

/-! ### The matrix array -/

/-- R109, R110, R393: MOWN takes a free array that no other context waits for, with every item of it at its
value, from the cycle after a release on; it parks while another context holds it or has just released it, and has no
effect for the holder; MREL frees it once its pipeline is empty and the holder's SQLDs have retired, and waits until
then. -/
def Obligations.ArrayChangesHands : Prop :=
  ∀ s : State, s.NoTransfer →
    (s.myCore.arr.owner = none → s.myCore.arr.opens ≤ s.cycle → (∀ i, i ≠ s.cix → ∀ p, (s.ctx s.cur i).park = some p → p.why ≠ .mown) →
      ∃ t a, exec .mown s = .next t ∧ ArrayStep s t a ∧ a.owner = some s.cix
        ∧ (a.af = .bf16 ∧ a.bf = .bf16 ∧ a.acc = .f32 ∧ a.mx = false ∧ a.sat = false)
        ∧ (a.oa = none ∧ a.ob = none ∧ a.oc = none ∧ a.mul = false)
        ∧ a.latches = 0 ∧ a.pending = [] ∧ a.winRow = 0 ∧ a.winCol = 0 ∧ a.rows = 128 ∧ a.cols = 64 ∧ a.lanes = 32
        ∧ (a.padM = none ∧ a.padN = none ∧ a.padK = none ∧ a.kpos = 0) ∧ a.queue = []
        ∧ (∀ i, i < 128 → a.rowScale.extractLsb' (8 * i) 8 = 0x7F) ∧ ∀ j, j < 64 → a.colScale.extractLsb' (8 * j) 8 = 0x7F)
    ∧ (s.myCore.arr.owner = some s.cix → s.myCore.arr.shadow = none → exec .mown s = .next s)
    ∧ ((∃ j, s.myCore.arr.owner = some j ∧ j ≠ s.cix) ∨ s.myCore.arr.owner = none ∧ s.cycle < s.myCore.arr.opens →
        s.me.snap = none → exec .mown s = .next (s.modMe fun c => c.parkFor .mown s.cycle))
    ∧ (s.ArrayMine →
      (s.myCore.piped = false → s.NoSqld → ∃ t, exec .mrel s = .next t
        ∧ ArrayStep s t { s.myCore.arr with
            owner := none, pending := [], queue := [], shadow := none, opens := s.cycle + 1 })
      ∧ (s.me.snap = none → s.myCore.piped = true ∨ ¬ s.NoSqld →
        exec .mrel s = .next (s.modMe fun c => c.parkFor .other s.cycle)))

/-- R108, R117, R122, R123, R124, R126, R148 to R150, R388, R391, R394: the words that set the array's configuration,
masks and latches; MSCALE takes the oldest entry of the scale queue. -/
def Obligations.ArrayIsConfigured : Prop :=
  ∀ s : State, s.ArrayMine →
    let r := s.myCore.arr
    (∀ a b acc mx sat, s.myCore.piped = false → pairOk a b acc = true →
      (∀ d, r.oc = some d → drainOk acc (mfmtOfCode (descOf d).fmt) = true) →
      (r.mul = true → (mulMatch r.oa r.ob).isSome = true) →
      ∃ t, exec (.mcfg a b acc mx sat) s = .next t
        ∧ ArrayStep s t { r with af := a, bf := b, acc, mx, sat, pending := [], kpos := 0 })
    ∧ (∀ (oa ob oc : Option (Fin 8)) (mul : Bool), s.myCore.piped = false →
      (∀ o ∈ [oa, ob, oc], ∀ n, o = some n → (descOf (s.oreg n)).rank ≠ 0) →
      (mul = true → (mulMatch (oa.map s.oreg) (ob.map s.oreg)).isSome = true) →
      (∀ n, oc = some n → drainOk r.acc (mfmtOfCode (descOf (s.oreg n)).fmt) = true
        ∧ ∀ g ∈ (descOf (s.oreg n)).gens, g.axes = [0, 1]
            ∧ provenKind (oa == ob) (oa.map s.oreg) (ob.map s.oreg) = some g.kind) →
      ∃ t, exec (.mcfgOrb oa ob oc mul) s = .next t
        ∧ ArrayStep s t { r with oa := oa.map s.oreg, ob := ob.map s.oreg, oc := oc.map s.oreg, mul, pending := []
                                 kpos := 0 })
    ∧ (∀ a b c : Fin 32, ∃ t, exec (.mmask a b c) s = .next t
        ∧ ArrayStep s t { r with rows := min 128 (s.rs a).toNat, cols := min 64 (s.rs b).toNat, lanes := (s.rs c).toNat
                                 padM := none, padN := none, padK := none })
    ∧ (r.free ≤ s.cycle →
      (∀ x : Fin 16, ∃ t l, exec (.mpush x) s = .next t ∧ ArrayStep s t { r with latches := l, free := s.cycle + 1 }
        ∧ ∀ i, i < 128 → l.extractLsb' (128 * i) 128 = if i < r.rows then s.src.t[x].extractLsb' (128 * i) 128 else 0)
      ∧ (∀ k n1 : Fin 128, k ≤ n1 → ∃ t l, exec (.mshift k n1) s = .next t
        ∧ ArrayStep s t { r with latches := l, free := s.cycle + 1 }
        ∧ ∀ i, i < 128 → l.extractLsb' (128 * i) 128 = r.latches.extractLsb' (128 *
            (if i < n1.val + 1 then (i + (n1.val + 1) - k.val) % (n1.val + 1) else i)) 128)
      ∧ ∀ slot e q, r.queue = (slot, some e) :: q → ∃ t, exec .mscale s = .next t
        ∧ ArrayStep s t { r with queue := q, rowScale := e.extractLsb' 0 1024, colScale := e.extractLsb' 1024 512
                                 free := s.cycle + 1 })

/-- R107, R112, R114, R125, R387: MBEAT pops, pushes, and forms one group from the latches and the lid, which is
ready B + 2 cycles later, and with .a, or with 8 groups pending, folds in that cycle after its issue stage: both events,
as the array's events of a cycle do, stand in the agenda at the cycle after it, the fold behind the readiness.
It rests on the model's choices of log 5, log 65, log 68, log 90. -/
def Obligations.BeatsFormGroups : Prop :=
  (∀ (s : State) (fold pop : Bool) (x : Option (Fin 16)) (y : Fin 32) (imm : BitVec 16), s.ArrayMine → s.NoAcopyIn →
    let r := s.myCore.arr
    let l := ((s.rs y).toNat + 16 * imm.toNat) % 2 ^ 18
    let b := beatLen r.af
    r.free ≤ s.cycle → (pop = true → ∃ slot e q, r.queue = (slot, some e) :: q) →
    ∃ t a g, exec (.mbeat fold pop x y imm) s = .next t
      ∧ { t with cores := s.cores, agenda := s.agenda, nextOp := s.nextOp } = s ∧ t.nextOp = s.nextOp + 1
      ∧ (∀ k, k ≠ s.cur → t.core k = s.core k) ∧ t.core s.cur = { s.core s.cur with arr := a }
      ∧ (if pop = true then ∃ slot e, r.queue = (slot, some e) :: a.queue ∧ a.rowScale = e.extractLsb' 0 1024
            ∧ a.colScale = e.extractLsb' 1024 512
         else a.queue = r.queue ∧ a.rowScale = r.rowScale ∧ a.colScale = r.colScale)
      ∧ (match x with
          | some n => ∀ i, i < 128 → a.latches.extractLsb' (128 * i) 128
              = if i < r.rows then s.src.t[n].extractLsb' (128 * i) 128 else 0
          | none => a.latches = r.latches)
      ∧ a = { r with queue := a.queue, rowScale := a.rowScale, colScale := a.colScale, latches := a.latches
                     pending := r.pending ++ [g], free := s.cycle + b, kpos := r.kpos + groupSize r.af }
      ∧ GroupOf s { r with latches := a.latches, rowScale := a.rowScale, colScale := a.colScale } l fold g
      ∧ t.agenda = (if g.auto.isSome then insertDue (s.cycle + b + 3) (.mbeatAFold s.cur s.nextOp) else id)
          (insertDue (s.cycle + b + 3) (.groupReady s.cur s.nextOp) s.agenda))
  ∧ ∀ (s : State) (core id : Nat), (∃ g ∈ (s.core core).arr.pending, g.id = id ∧ g.ready = none) →
    ∃ t, exec (.groupReady core id) s = .next t ∧ { t with cores := s.cores } = s
      ∧ (∀ k, k ≠ core → t.core k = s.core k)
      ∧ ∃ fp, (∀ o, (s.core core).arr.owner = some o → fp = (s.ctx core o).regs.fpctl)
        ∧ t.core core = { s.core core with arr := { (s.core core).arr with
            pending := (s.core core).arr.pending.map fun g => if g.id = id then { g with ready := some fp } else g } }

/-- R100, R111, R113, R115 to R117, R127, R386: MACC folds the ready groups, oldest first, into the cells of its window
that the masks and padding pass, and MZERO writes zeros to them; each sets WIN; a fold is recorded as not visible
for 6 cycles and its flags land in the holder when it retires, where the trap enables under which it rounded decide
whether they trap. An MBEAT.a fold's event stands at the cycle after the group's ready cycle, behind that cycle's issue
stage. It rests on the model’s choices of log 5, log 65, log 66, log 68, log 82, log 83. -/
def Obligations.FoldsWriteTheirWindow : Prop :=
  (∀ (s : State) (i : Instr) (row col : Nat) (zero : Bool), s.ArrayMine →
    (zero = true ∨ (∃ g ∈ s.myCore.arr.pending, g.ready ≠ none) → s.NoAcopyIn) → s.canon = true → s.myCore.arr.Masked →
    (match i with
      | .macc x y => zero = false ∧ row = x.val ∧ col = y.val
      | .mzero x y => zero = true ∧ row = x.val ∧ col = y.val
      | .maccReg x => zero = false ∧ row = (s.rs x).toNat % 512 ∧ col = (s.rs x).toNat / 2 ^ 16 % 512
      | .mzeroReg x => zero = true ∧ row = (s.rs x).toNat % 512 ∧ col = (s.rs x).toNat / 2 ^ 16 % 512
      | _ => False) →
    let r := s.myCore.arr
    let gs := r.pending.filter fun g => g.ready.isSome
    ∃ t, exec i s = .next t ∧ ArrayEvent s t s.cur ∧ (t.core s.cur).arr.winRow = row ∧ (t.core s.cur).arr.winCol = col
      ∧ if zero = false ∧ gs = [] then t.myCore.acc = s.myCore.acc ∧ t.agenda = s.agenda ∧ t.nextOp = s.nextOp
            ∧ t.myCore.arr = { r with winRow := row, winCol := col }
        else FoldedInto r s.myCore.acc t.myCore.acc row col (fun i j code =>
              if zero = true then 0 else (foldedBy r (envOf s.src.fpctl .dyn) gs i j code).1)
          ∧ t.agenda = insertDue (s.cycle + 7) (.foldRetire s.cur s.nextOp) s.agenda ∧ t.nextOp = s.nextOp + 1
          ∧ ∃ rec, t.myCore.arr = { r with winRow := row, winCol := col, folds := r.folds ++ [rec]
                                           pending := if zero = true then r.pending else
                                             r.pending.filter fun g => g.ready.isNone }
            ∧ rec.id = s.nextOp ∧ rec.vis = s.cycle + 6 ∧ (zero = false → rec.ten = tenOf s.src.fpctl)
            ∧ (∀ e ∈ rec.old, e.2 = cget s.myCore.acc e.1)
            ∧ (∀ i j, WritesCell r row col i j → ∀ c ∈ storeCellsOf r.acc row col i j, ∃ v, (c, v) ∈ rec.old)
            ∧ ∀ b, rec.flags.getLsbD b = true ↔ zero = false ∧ ∃ i j, WritesCell r row col i j
                ∧ (foldedBy r (envOf s.src.fpctl .dyn) gs i j (codeAt s.myCore.acc (storeCellsOf r.acc row col i j))).2.getLsbD b = true)
  ∧ (∀ (s : State) (core id : Nat) (g : Group) (fp : BitVec 16) (w : Window), s.canon = true →
      (s.core core).arr.pending.find? (fun g => g.id == id) = some g → g.ready = some fp → g.auto = some w →
      let r := { (s.core core).arr with rows := w.rows, cols := w.cols, padM := w.padM, padN := w.padN }
      r.Masked →
      let gs := r.pending.filter fun g => g.ready.isSome
      ∃ t, exec (.mbeatAFold core id) s = .next t ∧ ArrayEvent s t core
        ∧ (t.core core).arr.pending = r.pending.filter (fun g => g.ready.isNone)
        ∧ FoldedInto r (s.core core).acc (t.core core).acc w.row0 w.col0 (fun i j code =>
            (foldedBy r (envOf fp .dyn) gs i j code).1)
        ∧ t.agenda = insertDue (s.cycle - 1 + 7) (.foldRetire core s.nextOp) s.agenda
        ∧ ∃ rec, (t.core core).arr.folds = r.folds ++ [rec] ∧ rec.id = s.nextOp ∧ rec.ten = tenOf fp)
  ∧ ∀ (s : State) (core id : Nat) (rec : FoldRec), (s.core core).arr.folds.find? (fun f => f.id == id) = some rec →
      ∃ t, exec (.foldRetire core id) s = .next t ∧ { t with cores := s.cores } = s
        ∧ (t.core core).arr = { (s.core core).arr with folds := (s.core core).arr.folds.filter fun f => f.id != id }
        ∧ (∀ k, k ≠ core → t.core k = s.core k)
        ∧ ∀ j, if (s.core core).arr.owner = some j then
            ArrayLanded s t core j (fun r r' => r.Keeps r' [] rec.flags)
              ∧ (t.ctx core j).landFp = if rec.flags &&& rec.ten = 0 then (s.ctx core j).landFp
                else some ((s.ctx core j).landFp.getD 0 ||| rec.flags)
          else t.ctx core j = s.ctx core j

/-- R98, R99, R100: on whole numbers without scales or padding a group's sum is its dot product, exact and without
a flag, and a fold into INT32 adds it, saturating under SAT and wrapping otherwise, with IOVF where the sum leaves
the range. -/
def Obligations.IntegerGroupsAreDotProducts : Prop :=
  (∀ (g : Group) (i j : Nat), (g.af = .i8 ∨ g.af = .i16) → g.bf = g.af → g.mx = false → g.padK = none → g.mul = none →
    (g.sum i j).2 = 0
    ∧ (g.dot i j = 0 → ∃ c, (g.sum i j).1 = .zero c)
    ∧ (g.dot i j ≠ 0 → ∃ m e : Nat, (g.sum i j).1 = .val (decide (g.dot i j < 0)) m e
        ∧ (m * 2 ^ e : Nat) = (g.dot i j).natAbs))
  ∧ ∀ (sat : Bool) (env : Env) (code : Nat) (x : GSum) (n : Int), code < 2 ^ 32 →
    ((n = 0 ∧ ∃ c, x = .zero c) ∨ ∃ m e : Nat, x = .val (decide (n < 0)) m e ∧ (m * 2 ^ e : Nat) = n.natAbs) →
    let z := elemNum true 32 code + n
    foldSum .i32 sat env code x = if -(2 ^ 31) ≤ z ∧ z < 2 ^ 31 then (wrapTo 32 z, 0)
      else (if sat = true then (if z < 0 then 2 ^ 31 else 2 ^ 31 - 1) else wrapTo 32 z, IOVF)

/-- R113, R116, R128, R389: MDRAIN takes a store row as it is visible at issue, without folds less than 6 cycles old,
converted value by value, and its tile is written 4 cycles after issue, by an event that, as the array's events of a
cycle do, stands in the agenda at the cycle after that; its flags land with it, under the trap enables of its issue.
It rests on the model's choices of log 5, log 68, log 82, log 83. -/
def Obligations.DrainsReadTheVisibleRow : Prop :=
  (∀ (s : State) (f : MFmt) (x : Fin 16) (row : Nat) (i : Instr), s.ArrayMine → s.NoAcopyIn →
    drainOk s.myCore.arr.acc f = true →
    ((∃ r : Fin 512, i = .mdrain f x r ∧ row = r.val) ∨ ∃ y, i = .mdrainReg f x y ∧ row = (s.rs y).toNat % 512) →
    let acc := s.myCore.arr.acc
    let n := if acc = .f64 then 256 else 512
    let value (v : Nat) : Nat := if acc = .f64 then (s.myCore.seen s.cycle (row * 512 + 2 * v)).toNat
        + 2 ^ 32 * (s.myCore.seen s.cycle (row * 512 + 2 * v + 1)).toNat
      else (s.myCore.seen s.cycle (row * 512 + v)).toNat
    ∃ t tile fl, exec i s = .next t ∧ { t with cores := s.cores, agenda := s.agenda } = s
      ∧ (∀ k, k ≠ s.cur → t.core k = s.core k) ∧ (∀ j, j ≠ s.cix → t.ctx s.cur j = s.ctx s.cur j)
      ∧ { t.core s.cur with ctxs := s.myCore.ctxs } =
          { s.core s.cur with arr := { s.myCore.arr with
            drains := s.myCore.arr.drains ++ [(x, tenOf s.src.fpctl)] } }
      ∧ { t.me with sb := s.me.sb } = s.me ∧ (∀ c r, t.me.locked c r = (s.me.locked c r || r == .t x))
      ∧ t.agenda = insertDue (s.cycle + 5) (.mdrainRetire s.cur s.cix x tile fl) s.agenda
      ∧ (∀ v, v < n → tile.toNat / 2 ^ (elemBits f * v) % 2 ^ elemBits f
          = (drainVal acc f (envOf s.src.fpctl .dyn) (value v)).1 % 2 ^ elemBits f)
      ∧ (∀ b, elemBits f * n ≤ b → tile.getLsbD b = false)
      ∧ ∀ b, fl.getLsbD b = true ↔ ∃ v, v < n ∧ (drainVal acc f (envOf s.src.fpctl .dyn) (value v)).2.getLsbD b = true)
  ∧ (∀ (c : Core) (cyc cell : Nat), c.seen cyc cell =
      match (c.arr.folds.filter fun f => cyc < f.vis).filterMap (fun f => (f.old.find? fun e => e.1 == cell).map (·.2)) with
      | v :: _ => v
      | [] => cget c.acc cell)
  ∧ ∀ (s : State) (core : Nat) (i : Fin 4) (x : Fin 16) (tile : Tile) (fl : Flags) (ten : BitVec 7),
      (s.core core).arr.drains.find? (fun d => d.1 == x) = some (x, ten) →
      ∃ t, exec (.mdrainRetire core i x tile fl) s = .next t ∧ { t with cores := s.cores } = s
        ∧ (∀ k j, k ≠ core ∨ j ≠ i → t.ctx k j = s.ctx k j)
        ∧ (t.core core).arr = { (s.core core).arr with drains := (s.core core).arr.drains.filter fun d => d.1 != x }
        ∧ ArrayLanded s t core i (fun r r' => r.Keeps r' [.t x] fl ∧ r'.t[x] = tile)
        ∧ (∀ c r, (t.ctx core i).locked c r = (r != .t x && (s.ctx core i).locked c r))
        ∧ (t.ctx core i).landFp = if fl &&& ten = 0 then (s.ctx core i).landFp
            else some ((s.ctx core i).landFp.getD 0 ||| fl)

/-- R108, R110, R118, R128, R229, R253, R385: an array word but MOWN traps MTX_NOTOWNED from a context that does not hold
the array, with the holder, or 4 for none, in EINFO; a phase context's traps ILL_MOD, and so does the holder's while a
shadow buffer is full, MOWN too; a pair or a drain format that the array does not take traps ILL_MOD, and a pop of an empty queue SCALE_IMBALANCE,
where no SQLD of the holder is outstanding, for which it waits. -/
def Obligations.ArrayWordsTrap : Prop :=
  ∀ (s : State) (i : Instr), s.me.snap = none →
    ((match i with
      | .mrel | .mcfg .. | .mcfgOrb .. | .mmask .. | .mpush _ | .mshift .. | .mbeat .. | .mscale | .macc .. | .maccReg _
      | .mzero .. | .mzeroReg _ | .mdrain .. | .mdrainReg .. => True
      | _ => False) →
      (s.myCore.arr.owner ≠ some s.cix → exec i s = .next (s.takeTrap .mtxNotOwned
        (match s.myCore.arr.owner with
          | none => 4
          | some j => .ofNat 64 j.val)))
      ∧ (s.myCore.arr.owner = some s.cix → s.inTransfer = true →
        exec i s = .next (s.takeTrap .illMod (layoutW s.me.word.1 s.me.word.2)))
      ∧ (s.myCore.arr.owner = some s.cix → s.NoTransfer → s.myCore.arr.shadow ≠ none →
        exec i s = .next (s.takeTrap .illMod (layoutW s.me.word.1 s.me.word.2))))
    ∧ (s.inTransfer = true ∨ s.NoTransfer ∧ s.myCore.arr.owner = some s.cix ∧ s.myCore.arr.shadow ≠ none →
      exec .mown s = .next (s.takeTrap .illMod (layoutW s.me.word.1 s.me.word.2)))
    ∧ (s.ArrayMine →
      (∀ a b acc mx sat, s.myCore.piped = false → pairOk a b acc = false →
        exec (.mcfg a b acc mx sat) s = .next (s.takeTrap .illMod (layoutW s.me.word.1 s.me.word.2)))
      ∧ (∀ f x row, drainOk s.myCore.arr.acc f = false →
        exec (.mdrain f x row) s = .next (s.takeTrap .illMod (layoutW s.me.word.1 s.me.word.2)))
      ∧ (s.myCore.arr.queue = [] → s.myCore.arr.free ≤ s.cycle →
        ∀ i, (i = .mscale ∨ ∃ fold x y imm, i = .mbeat fold true x y imm) →
          (s.NoSqld → exec i s = .next (s.takeTrap .scaleImbalance 0))
          ∧ (¬ s.NoSqld → exec i s = .next (s.modMe fun c => c.parkFor .other s.cycle))))

/-! ### Asynchronous operations -/

/-- R351, R352, R363 to R367, R173, R182: a copy takes places in the range scoreboard, and its bytes are those of
its source: the own scratchpad and accumulator cells as they stand at issue, memory as it stands when it retires.
It rests on the model’s choices of log 9, log 60. -/
def Obligations.CopiesIssue : Prop :=
  ∀ (s : State),
    (∀ (lg : Fin 16) (x : Fin 32), let n := 2 ^ lg.val
      let at_ (i : Nat) : Nat := ((s.rs x).toNat + i * n) % 2 ^ 22 / n * n
      (∀ di si, s.OwnAllowed engCpy false (at_ si.toNat) n → s.OwnAllowed engCpy true (at_ di.toNat) n → s.RangesFree 2 →
        ∃ t ms, exec (.cpy lg x di si) s = .next t
          ∧ Issued s t (copyOp s 12 [⟨at_ si.toNat, at_ si.toNat + n, false⟩, ⟨at_ di.toNat, at_ di.toNat + n, true⟩]
              (.copy ms)) s.me.wait none .asyncRetire
          ∧ MovesAre ms n (fun k => s.nowAt (at_ si.toNat + k)) fun k => .scr s.cur (at_ di.toNat + k))
      ∧ (∀ (h : Fin 16) si,
        let off := (s.rs x).toNat % pageBytes (Handle.psize (s.hreg h)) / n * n
        n ≤ pageBytes (Handle.psize (s.hreg h)) → s.RangesFree 1 →
        (s.HandleAllowed h off true → s.OwnAllowed engCpy false (at_ si.toNat) n →
          ∃ t ms, exec (.cpyToMemory lg h x si) s = .next t
            ∧ Issued s t (copyOp s 12 [⟨at_ si.toNat, at_ si.toNat + n, false⟩] (.copy ms)) s.me.wait none .asyncRetire
            ∧ MovesAre ms n (fun k => s.nowAt (at_ si.toNat + k)) fun k => .mem (Handle.place (s.hreg h) off + k))
        ∧ (s.HandleAllowed h off false → s.OwnAllowed engCpy true (at_ si.toNat) n →
          ∃ t ms, exec (.cpyFromMemory lg h x si) s = .next t
            ∧ Issued s t (copyOp s 12 [⟨at_ si.toNat, at_ si.toNat + n, true⟩] (.copy ms)) s.me.wait none .asyncRetire
            ∧ MovesAre ms n (fun k => .place (.mem (Handle.place (s.hreg h) off + k)))
                fun k => .scr s.cur (at_ si.toNat + k)))
      ∧ ∀ (c l : Fin 32) imm, (s.rs c).toNat < 64 → s.OwnAllowed engCpy false (at_ imm.toNat) n → s.RangesFree 1 →
        ∃ t ms, exec (.cplid c l x lg imm) s = .next t
          ∧ Issued s t (copyOp s 12 [⟨at_ imm.toNat, at_ imm.toNat + n, false⟩] (.copy ms)) s.me.wait none .asyncRetire
          ∧ MovesAre ms n (fun k => s.nowAt (at_ imm.toNat + k))
              fun k => .lid s.cur ((s.rs c).toNat * 2 ^ 18 + (s.rs l).toNat % 2 ^ 18 / n * n + k))
    ∧ (∀ (dir : Cpy2dDir) (h : Fin 16) (a b g : Fin 32),
      let w := (s.rs g).toNat % 2 ^ 16
      let rows := (s.rs g).toNat / 2 ^ 16 % 2 ^ 16
      let dp := (s.rs g).toNat / 2 ^ 32 % 2 ^ 16
      let sp := (s.rs g).toNat / 2 ^ 48
      let page := pageBytes (Handle.psize (s.hreg h))
      let inScr (x : Fin 32) (p : Nat) : Prop := (s.rs x).toNat % 2 ^ 22 + sideSpan rows w p ≤ 2 ^ 22
      let inMem (x : Fin 32) (p : Nat) : Prop := (s.rs x).toNat % page + sideSpan rows w p ≤ page
      (match dir with
        | .scrScr => inScr a dp ∧ inScr b sp ∧ s.RowsAllowed false ((s.rs b).toNat % 2 ^ 22) sp rows w
            ∧ s.RowsAllowed true ((s.rs a).toNat % 2 ^ 22) dp rows w ∧ s.RangesFree 2
        | .scrMem => inMem a dp ∧ inScr b sp ∧ s.HandleAllowed h ((s.rs a).toNat % page) true
            ∧ s.RowsAllowed false ((s.rs b).toNat % 2 ^ 22) sp rows w ∧ s.RangesFree 1
        | .memScr => inScr a dp ∧ inMem b sp ∧ s.HandleAllowed h ((s.rs b).toNat % page) false
            ∧ s.RowsAllowed true ((s.rs a).toNat % 2 ^ 22) dp rows w ∧ s.RangesFree 1) →
      let src (k : Nat) : Src := match dir with
        | .memScr => .place (.mem (Handle.place (s.hreg h) ((s.rs b).toNat % page + k / w * sp + k % w)))
        | _ => s.nowAt ((s.rs b).toNat % 2 ^ 22 + k / w * sp + k % w)
      let dst (k : Nat) : Loc := match dir with
        | .scrMem => .mem (Handle.place (s.hreg h) ((s.rs a).toNat % page + k / w * dp + k % w))
        | _ => .scr s.cur ((s.rs a).toNat % 2 ^ 22 + k / w * dp + k % w)
      let rd : Rng := ⟨(s.rs b).toNat % 2 ^ 22, (s.rs b).toNat % 2 ^ 22 + sideSpan rows w sp, false⟩
      let wr : Rng := ⟨(s.rs a).toNat % 2 ^ 22, (s.rs a).toNat % 2 ^ 22 + sideSpan rows w dp, true⟩
      ∃ t, exec (.cpy2d dir h a b g) s = .next t ∧
        if w = 0 ∨ rows = 0 then t = s
        else ∃ ms, MovesAre ms (rows * w) src dst
          ∧ Issued s t (copyOp s 12 (match dir with | .scrScr => [rd, wr] | .scrMem => [rd] | .memScr => [wr]) (.copy ms))
              s.me.wait none .asyncRetire)
    ∧ ∀ (inward : Bool) (a x : Fin 32) (imm : BitVec 17),
      let v := (s.rs a).toNat
      let o := ((s.rs x).toNat + imm.toNat * 256) % 2 ^ 22 / 4 * 4
      let nr := v / 2 ^ 32 % 2 ^ 10
      let nc := v / 2 ^ 48 % 2 ^ 10
      let cell (k : Nat) : Nat := windowCell (v % 2 ^ 9) (v / 2 ^ 16 % 2 ^ 9) nc k
      s.myCore.arr.owner = some s.cix → 1 ≤ nr ∧ nr ≤ 512 ∧ 1 ≤ nc ∧ nc ≤ 512 →
      v / 2 ^ 9 % 2 ^ 7 = 0 ∧ v / 2 ^ 25 % 2 ^ 7 = 0 ∧ v / 2 ^ 42 % 2 ^ 6 = 0 ∧ v / 2 ^ 58 = 0 →
      o + 4 * nr * nc ≤ 2 ^ 22 → s.OwnAllowed engMtx (!inward) o (4 * nr * nc) → s.RangesFree 1 → s.NoAcopyIn →
      s.foldsInto inward (awinOf (s.rs a)).cells = false →
      ∃ t, exec (.acopy inward a x imm) s = .next t ∧
        if inward = true then ∃ cs, cs.length = nr * nc
          ∧ (∀ k, k < nr * nc → ∃ y : BitVec 32, cs[k]? = some (cell k, y)
            ∧ ∀ j, j < 4 → byteOf y j = s.getLoc (.scr s.cur (o + 4 * k + j)))
          ∧ Issued s t (copyOp s 16 [⟨o, o + 4 * nr * nc, false⟩] (.cellsIn cs)) s.me.wait none .asyncRetire
        else ∃ ms, MovesAre ms (4 * nr * nc) (fun k => .known (byteOf (cget s.myCore.acc (cell (k / 4))) (k % 4)))
            (fun k => .scr s.cur (o + k))
          ∧ Issued s t (copyOp s 32 [⟨o, o + 4 * nr * nc, true⟩] (.copy ms)) s.me.wait none .asyncRetire

/-- R173, R182, R352, R364, R367: when a copy retires every destination holds what its source held before any was
written; ACOPY.in's cells stand from then on; a write held behind the operation alone performs after it. It does not
retire while a check of its bundle is pending. It rests on the model’s choices of log 9, log 94. -/
def Obligations.CopiesRetire : Prop :=
  ∀ (s : State) (core id : Nat) (op : Op), s.canon = true → (s.core core).op id = some op →
    let kept (t : State) : Prop := Retired s t core op
      ∧ (t.ctx core op.ctx).regs = (s.ctx core op.ctx).regs ∧ (t.ctx core op.ctx).wait = (s.ctx core op.ctx).wait
      ∧ (t.core core).held = ((s.core core).held.filter fun h => !h.freedBy id s.cycle).map fun h =>
          { h with ops := h.ops.filter (· != id) }
    let none : Prop := ∀ h ∈ (s.core core).held, h.freedBy id s.cycle = false
    ((∃ ms, op.what = .copy ms) ∨ (∃ cs, op.what = .cellsIn cs) → s.opHeld core op = true →
      exec (.asyncRetire core id) s = .next (s.schedule (s.cycle + 1) (.asyncRetire core id)))
    ∧ (∀ ms, op.what = .copy ms → (ms.map (·.2)).Nodup → s.opHeld core op = false →
      ∃ t, exec (.asyncRetire core id) s = .next t ∧ kept t ∧ (t.core core).acc = (s.core core).acc
        ∧ (none → (∀ m ∈ ms, t.getLoc m.2 = s.getSrc m.1) ∧ ∀ l, l ∉ ms.map (·.2) → t.getLoc l = s.getLoc l)
        ∧ ∀ h, ((s.core core).held.filter fun h => h.freedBy id s.cycle) = [h] → (h.bytes.map (·.1)).Nodup →
            (∀ b ∈ h.bytes, t.getLoc (.scr core b.1) = b.2)
            ∧ ∀ w n full, h.mark = some (w, n, full) → ∀ v, w ≤ v → v < w + n →
              cget (t.core core).fe v = if full = true then 1 else 0)
    ∧ ∀ cs, op.what = .cellsIn cs → (cs.map (·.1)).Nodup → s.opHeld core op = false →
      ∃ t, exec (.asyncRetire core id) s = .next t ∧ kept t
        ∧ (∀ x ∈ cs, cget (t.core core).acc x.1 = x.2)
        ∧ (∀ c, c ∉ cs.map (·.1) → cget (t.core core).acc c = cget (s.core core).acc c)
        ∧ (∀ f ∈ (t.core core).arr.folds, ∀ x ∈ f.old, x.1 ∉ cs.map (·.1))
        ∧ (none → SameBytes s t)

/-- R206, R209, R210, R213, R305: a gather or scatter takes a tag, its list and its data at issue; its elements are
served in order, at most one a cycle; each is performed at its own address, or parked with its fault's code, or
stalls with it while the colander is full, and takes no other's turn: it parks once there is a place; the operation
retires once none is left. None is served while a check of its bundle is pending. It rests on the model's choices of
log 9, log 94, log 101. -/
def Obligations.GathersServeEveryElement : Prop :=
  (∀ (s : State) (scat : Bool) (sz : Fin 4) (h : Fin 16) (x : Fin 32) (ii di : BitVec 4) (n1 : BitVec 9),
    let l := ((s.rs x).toNat + 256 * ii.toNat) % 2 ^ 22
    let d := ((s.rs x).toNat + 256 * di.toNat) % 2 ^ 22
    let n := n1.toNat + 1
    let z := 2 ^ sz.val
    let dn := dieOf s.cur
    Handle.valid (s.hreg h) = true → (scat = true → Handle.canW (s.hreg h) = true) →
    l + 8 * n ≤ 2 ^ 22 → d + z * n ≤ 2 ^ 22 → s.OwnAllowed engGth false l (8 * n) →
    s.OwnAllowed engGth (!scat) d (z * n) → s.RangesFree 2 → (s.die dn).colander.length < 4096 →
    ∃ t g, exec (if scat = true then .scat sz h x ii di n1 else .gath sz h x ii di n1) s = .next t
      ∧ GatherFor s g scat sz h l d n ∧ DieOnly s t dn
      ∧ t.die dn = { s.die dn with tagCount := (s.die dn).tagCount + 1, gathers := (s.die dn).gathers ++ [g] }
      ∧ Issued s { t with dies := s.dies } { id := s.nextOp, ctx := s.cix, kinds := 0xC0, ctr := some .tl
                                             ranges := [⟨l, l + 8 * n, false⟩, ⟨d, d + z * n, !scat⟩], lock := []
                                             what := .elements g.tag.toNat } s.me.wait none
          fun _ _ => .elementServe dn g.tag.toNat)
  ∧ (∀ (s : State) (dn tag : Nat) (g : GatherOp), s.canon = true → (s.die dn).gather tag = some g → g.next < g.idx.length →
    g.stalled = [] →
    let va := g.base.toNat + (g.idx.getD g.next 0).toNat * 2 ^ g.sz.val
    let next (p : Nat) : List (Nat × Instr) :=
      if g.next + 1 < g.idx.length then insertDue (s.cycle + 1) (.elementServe dn tag) s.agenda
      else if p = 0 then insertDue (s.cycle + 1) (.gatherRetire dn tag) s.agenda else s.agenda
    let again := insertDue (s.cycle + 1) (.elementServe dn tag) s.agenda
    let served (g' : GatherOp) : List GatherOp := (s.die dn).gathers.map fun y => if y.tag = g.tag then g' else y
    (s.gatherHeld g = true ∨ s.cycle < (s.die dn).serveFree →
      exec (.elementServe dn tag) s = .next { s with agenda := again })
    ∧ (s.gatherHeld g = false → (s.die dn).serveFree ≤ s.cycle →
      (∀ a, ElementAt s g va a →
        ∃ t, exec (.elementServe dn tag) s = .next t ∧ FabricStep s t dn ∧ ElementDone s t g g.next a
          ∧ t.die dn = { s.die dn with serveFree := s.cycle + 1, gathers := served { g with
              next := g.next + 1, wrote := if g.scat = true then g.wrote ++ [(g.next, a)] else g.wrote } }
          ∧ t.agenda = next g.parked)
      ∧ ∀ code, ElementFaults s g va code → ∃ t, exec (.elementServe dn tag) s = .next t ∧
          FabricStep s t dn ∧ SameBytes s t ∧
          if 4096 ≤ (s.die dn).colander.length ∨ (∃ y ∈ (s.die dn).gathers, y.stalled ≠ []) then
            t.die dn = { s.die dn with serveFree := s.cycle + 1
                                       gathers := served { g with next := g.next + 1, stalled := [(g.next, code)] } }
              ∧ t.agenda = again
          else t.die dn = { s.die dn with
                serveFree := s.cycle + 1, seqCount := (s.die dn).seqCount + 1
                colander := (s.die dn).colander ++ [entryFor (s.die dn) g g.next va code]
                gathers := served { g with next := g.next + 1, parked := g.parked + 1 } }
              ∧ t.agenda = next (g.parked + 1)))
  ∧ (∀ (s : State) (dn tag : Nat) (g : GatherOp) (e code : Nat) (l : List (Nat × Nat)),
    (s.die dn).gather tag = some g → g.idx.length ≤ g.next → g.stalled = (e, code) :: l → s.gatherHeld g = false →
    let again := insertDue (s.cycle + 1) (.elementServe dn tag) s.agenda
    let k := s.die dn
    if 4096 ≤ k.colander.length then exec (.elementServe dn tag) s = .next { s with agenda := again }
    else ∃ t, exec (.elementServe dn tag) s = .next t ∧ FabricStep s t dn ∧ SameBytes s t
      ∧ t.die dn = { k with
          seqCount := k.seqCount + 1
          colander := k.colander ++ [entryFor k g e (g.base.toNat + (g.idx.getD e 0).toNat * 2 ^ g.sz.val) code]
          gathers := k.gathers.map fun y =>
            if y.tag = g.tag then { g with stalled := l, parked := g.parked + 1 } else y }
      ∧ t.agenda = if l = [] then s.agenda else again)
  ∧ ∀ (s : State) (dn tag : Nat) (g : GatherOp) (op : Op), (s.die dn).gather tag = some g →
      (s.core g.core).op g.op = some op → g.idx.length ≤ g.next → g.parked = 0 → g.stalled = [] →
    ∃ t, exec (.gatherRetire dn tag) s = .next t ∧ Retired s t g.core op ∧ DieOnly s t dn
      ∧ t.die dn = { s.die dn with gathers := (s.die dn).gathers.filter fun y => y.tag.toNat != tag }
      ∧ (t.ctx g.core op.ctx).regs = (s.ctx g.core op.ctx).regs
      ∧ (t.ctx g.core op.ctx).wait = (s.ctx g.core op.ctx).wait
      ∧ ((∀ h ∈ (s.core g.core).held, h.freedBy g.op s.cycle = false) → SameBytes s t)

/-- R209 to R213: CQPOP moves the colander's oldest entry not yet popped to the scratchpad; CQRPL asks for the
replay of a popped element, which performs, completes without access, or parks anew; a SCAT element that a later one has
overtaken at its place completes without a write. They trap outside the service function.
It rests on the model’s choices of log 35, log 62, log 101. -/
def Obligations.ParkedElementsReplay : Prop :=
  (∀ (s : State) (d : Fin 16) (x : Fin 32) (imm : BitVec 13),
    let o := ((s.rs x).toNat + 32 * imm.toNat) % 2 ^ 22 / 32 * 32
    let k := s.die (dieOf s.cur)
    (s.me.vf = 64 → s.canon = true →
      (∀ e, NextToPop k e → (∀ y ∈ k.colander, y.seq = e.seq → y = e) → s.OwnAllowed engLsu true o 32 →
        ∃ t r, exec (.cqpop d x imm) s = .next t ∧ DieOnly s t (dieOf s.cur)
          ∧ t.die (dieOf s.cur) = { k with colander := k.colander.map fun y => if y = e then { y with popped := true } else y }
          ∧ OperationStep s { t with dies := s.dies } (storeOp s .settled) r s.me.wait (s.cycle + 1)
              (.storePerform s.cur s.nextOp)
          ∧ s.me.regs.Keeps r (pDest d) 0 ∧ r.rp d = true ∧ UnitsKeptButScr s t
          ∧ ∃ b, EntryBytes e b ∧ ScrWritten s t o b)
      ∧ ((∀ e ∈ k.colander, e.popped = true) → ∃ t r, exec (.cqpop d x imm) s = .next t ∧ UnitsKept s t ∧ SameBytes s t
          ∧ OperationStep s t (storeOp s .settled) r s.me.wait (s.cycle + 1) (.storePerform s.cur s.nextOp)
          ∧ s.me.regs.Keeps r (pDest d) 0 ∧ (r.rp d = true ↔ d = 0)))
    ∧ (s.me.vf ≠ 64 → s.me.snap = none →
      exec (.cqpop d x imm) s = .next (s.takeTrap .illMod (layoutW s.me.word.1 s.me.word.2))))
  ∧ (∀ (s : State) (drop : Bool) (x : Fin 32) (imm : BitVec 16),
    let o := ((s.rs x).toNat + 32 * imm.toNat) % 2 ^ 22 / 32 * 32
    let k := s.die (dieOf s.cur)
    let named (e : ColEnt) : Prop := e.popped = true ∧ e.replay = none ∧ leVal (s.scrBytes s.cur (o + 8) 4) = e.pos
      ∧ leVal (s.scrBytes s.cur (o + 12) 4) = e.tag.toNat
    (s.me.vf = 64 → s.OwnAllowed engLsu false o 32 →
      (∀ e ∈ k.colander, named e → (∀ y ∈ k.colander, named y ∨ y.seq = e.seq → y = e) →
        ∃ t due, exec (.cqrpl drop x imm) s = .next t ∧ DieOnly s t (dieOf s.cur) ∧ s.cycle < due
          ∧ { t with dies := s.dies, agenda := s.agenda, nextOp := s.nextOp, delays := s.delays } = s
          ∧ t.nextOp = s.nextOp + 1 ∧ t.agenda = insertDue due (.replayPerform (dieOf s.cur) e.seq.toNat) s.agenda
          ∧ t.die (dieOf s.cur) = { k with colander := k.colander.map fun y =>
              if y = e then { y with replay := some (s.nextOp, drop) } else y })
      ∧ (s.me.snap = none → (∀ e ∈ k.colander, ¬ named e) →
        exec (.cqrpl drop x imm) s = .next (s.takeTrap .illMod (layoutW s.me.word.1 s.me.word.2))))
    ∧ (s.me.vf ≠ 64 → s.me.snap = none →
      exec (.cqrpl drop x imm) s = .next (s.takeTrap .illMod (layoutW s.me.word.1 s.me.word.2))))
  ∧ ∀ (s : State) (dn : Nat) (e : ColEnt) (m : Nat) (drop : Bool) (g : GatherOp), s.canon = true →
    e ∈ (s.die dn).colander → (s.die dn).colander.Pairwise (fun x y => x.seq ≠ y.seq) → e.replay = some (m, drop) →
    (s.die dn).gather e.tag.toNat = some g →
    let again := insertDue (s.cycle + 1) (.replayPerform dn e.seq.toNat) s.agenda
    let left := (s.die dn).colander.filter fun y => y.seq != e.seq
    let z := 2 ^ g.sz.val
    let first : Prop := ∀ y ∈ (s.die dn).colander, ∀ j b, y.replay = some (j, b) → m ≤ j ∨ ReplayWaits (s.die dn) y
    (ReplayWaits (s.die dn) e ∨ ¬ first → exec (.replayPerform dn e.seq.toNat) s = .next { s with agenda := again })
    ∧ (¬ ReplayWaits (s.die dn) e → first →
      ((drop = true ∨ ∃ a, ElementAt s g e.va.toNat a) →
        ∃ t w, exec (.replayPerform dn e.seq.toNat) s = .next t ∧ FabricStep s t dn
          ∧ t.die dn = { s.die dn with colander := left, gathers := (s.die dn).gathers.map fun y =>
              if y.tag = g.tag then { g with parked := g.parked - 1, wrote := w } else y }
          ∧ (drop = true ∨ g.scat = false → w = g.wrote)
          ∧ t.agenda = (if g.idx.length ≤ g.next ∧ g.parked ≤ 1 ∧ g.stalled = [] then insertDue (s.cycle + 1) (.gatherRetire dn g.tag.toNat)
              s.agenda else s.agenda)
          ∧ (drop = true → if g.scat = true then SameBytes s t
              else Wrote s t (fun k => .scr g.core (g.dst + e.pos * z + k)) (List.replicate z 0))
          ∧ (drop = false → ∀ a, ElementAt s g e.va.toNat a →
              (g.scat = true → g.Overtaken e.pos a → SameBytes s t ∧ w = g.wrote)
              ∧ (g.scat = true → ¬ g.Overtaken e.pos a → ElementDone s t g e.pos a ∧ w = g.wrote ++ [(e.pos, a)])
              ∧ (g.scat = false → ElementDone s t g e.pos a)))
      ∧ ∀ code, drop = false → ElementFaults s g e.va.toNat code →
        ∃ t, exec (.replayPerform dn e.seq.toNat) s = .next t ∧ FabricStep s t dn ∧ SameBytes s t ∧ t.agenda = s.agenda
          ∧ t.die dn = { s.die dn with seqCount := (s.die dn).seqCount + 1
                                       colander := left ++ [entryFor (s.die dn) g e.pos e.va.toNat code] })

/-! ### Fibres, streams and cutters -/

/-- R197 to R201, R204, R371, R403: what the walker words do at issue. A register that is not open, an open block or
a stream outside its limits and a cutter without budget trap ILL_MOD. After FOPEN.t, CUT and CUTP the bundle waits for
their checks. It rests on the model's choices of log 6, log 105. -/
def Obligations.WalkerWordsIssue : Prop :=
  ∀ (s : State),
    let op (lock : List RegName) (what : OpWhat) : Op :=
      { id := s.nextOp, ctx := s.cix, kinds := 1, ctr := some .ld, ranges := [], lock, what }
    let ill : State := s.takeTrap .illMod (layoutW s.me.word.1 s.me.word.2)
    (∀ (tr : Bool) (sz : Fin 4) (f : Fin 8) (x : Fin 32) (imm : BitVec 11),
      let o := ((s.rs x).toNat + 32 * imm.toNat) % 2 ^ 22 / 32 * 32
      let kind := s.getLoc (.scr s.cur (o + 24))
      let legal : Prop := (∀ k, 25 ≤ k → k < 32 → s.getLoc (.scr s.cur (o + k)) = 0)
        ∧ (kind = 1 ∨ kind = 0 ∧ s.scr64 s.cur (o + 16) = 0)
      s.OwnAllowed engLsu false o 32 →
      (legal → ∃ t, exec (.fopen tr sz f x imm) s = .next (if tr = true then t.asks else t) ∧ Issued s t
        (op [.f f] (.fopen tr sz f (s.scr64 s.cur o) (s.scr64 s.cur (o + 8)) (s.scr64 s.cur (o + 16)) (kind == 1)))
        s.me.wait none .walkerRetire)
      ∧ (s.me.snap = none → ¬ legal → exec (.fopen tr sz f x imm) s = .next ill))
    ∧ (∀ f : Fin 8, let y := s.src.f[f]
      (y.isOpen = true →
        (∀ sz c v, ∃ t, exec (.fadv sz f c v) s = .next t
          ∧ Issued s t (op (.f f :: (sDest c ++ sDest v)) (.fadv sz f c v)) s.me.wait none .walkerRetire)
        ∧ (∀ d, ∃ t, exec (.fend d f) s = .next t ∧ RegisterStep s t (pDest d) 1 0
          ∧ (t.me.regs.rp d = true ↔ d = 0 ∨ y.atEnd = true))
        ∧ (∀ d, ∃ t, exec (.fpos d f) s = .next t ∧ RegisterStep s t (sDest d) 1 0
          ∧ t.me.regs.rs d = if d = 0 then 0 else y.pos)
        ∧ ∃ t, exec (.fclose f) s = .next t ∧ RegisterStep s t [.f f] 1 0 ∧ t.me.regs.f[f] = {})
      ∧ (y.isOpen = false → s.me.snap = none → (∀ sz c v, exec (.fadv sz f c v) s = .next ill)
        ∧ (∀ d, exec (.fend d f) s = .next ill) ∧ (∀ d, exec (.fpos d f) s = .next ill) ∧ exec (.fclose f) s = .next ill))
    ∧ (∀ q : Fin 8, let y := s.src.q[q]
      (∀ a l k : Fin 32,
        let legal : Prop := (s.rs k).toNat % 4 = 0 ∧ 4 ≤ (s.rs k).toNat ∧ (s.rs k).toNat ≤ 256 ∧ (s.rs l).toNat < 2 ^ 32
        (legal → ∃ t, exec (.sopen q a l k) s = .next t ∧ RegisterStep s t [.q q] 1 0
          ∧ t.me.regs.q[q] = { sbase := s.rs a, spos := 0, slen := s.rs l, chunk := .ofNat 32 (s.rs k).toNat
                               isOpen := true, atEnd := decide (s.rs l = 0) })
        ∧ (s.me.snap = none → ¬ legal → exec (.sopen q a l k) s = .next ill))
      ∧ (y.isOpen = true →
        (∀ d, ∃ t, exec (.snext d q) s = .next t
          ∧ Issued s t (op [.q q, .v d] (.snext d q)) s.me.wait (s.snextBound y) .walkerRetire)
        ∧ (∀ b, let m := min y.chunk.toNat (y.slen.toNat - y.spos.toNat)
          0 < m → (∀ k, k < m → ∃ l n, s.xlate s.me.vf ((y.sbase + y.spos).toNat + k) = some l
            ∧ lcBound (s.lcOf s.cur l) = some n ∧ n ≤ b) → ∃ n, s.snextBound y = some n ∧ n ≤ b)
        ∧ (∀ d, ∃ t, exec (.stend d q) s = .next t ∧ RegisterStep s t (pDest d) 1 0
          ∧ (t.me.regs.rp d = true ↔ d = 0 ∨ y.atEnd = true))
        ∧ ∃ t, exec (.sclose q) s = .next t ∧ RegisterStep s t [.q q] 1 0 ∧ t.me.regs.q[q] = {})
      ∧ (y.isOpen = false → s.me.snap = none → (∀ d, exec (.snext d q) s = .next ill)
        ∧ (∀ d, exec (.stend d q) s = .next ill) ∧ exec (.sclose q) s = .next ill))
    ∧ ∀ (k : Fin 4), let y := s.src.k[k]
      (∀ (o : Bool) (d : Fin 16) (a : Fin 32),
        let ready (k : Fin 4) : Prop := if o = true then s.cutbud ≠ 0 else s.src.k[k].isOpen = true ∧ s.src.k[k].bud ≠ 0
        (ready k → ∃ t, exec (.cut o d k a) s = .next t.asks
          ∧ Issued s t (op (.k k :: pDest d) (.cut o d k (s.rs a))) s.me.wait none .walkerRetire)
        ∧ (s.me.snap = none → ¬ ready k → exec (.cut o d k a) s = .next ill)
        ∧ ∀ p : Fin 4, let good : Prop := p ≠ k ∧ y.isOpen = true ∧ ready p
          (good → ∃ t, exec (.cutp o d p k a) s = .next t.asks
            ∧ Issued s t (op (.k p :: pDest d) (.cutp o d p k (s.rs a))) s.me.wait none .walkerRetire)
          ∧ (s.me.snap = none → ¬ good → exec (.cutp o d p k a) s = .next ill))
      ∧ ∀ (sel : CutSel) (a b : Fin 32),
        (y.isOpen = true → ∃ t, exec (.cutb sel a b k) s = .next t ∧ RegisterStep s t (sDest a ++ sDest b) 1 0
          ∧ let v : Nat × Nat := match sel with
              | .bounds => (y.lo.toNat, y.hi.toNat)
              | .elements => (if y.split = true then y.elem.toNat else 0, y.eend.toNat)
              | .counts => (y.cnt.toNat, y.bud.toNat)
            (a ≠ 0 → a ≠ b → (t.me.regs.rs a).toNat = v.1) ∧ (b ≠ 0 → (t.me.regs.rs b).toNat = v.2))
        ∧ (y.isOpen = false → s.me.snap = none → exec (.cutb sel a b k) s = .next ill)

/-- R159, R197 to R200, R217, R404: what a fibre or stream operation reads, under the translations that it issued
under, and what it writes when it retires. A read outside the leases ends the task; of FOPEN.t it fails the check of its
bundle. It rests on the model’s choices of log 16, log 17. -/
def Obligations.WalkersRetire : Prop :=
  ∀ (s : State) (core id : Nat) (op : Op), (s.core core).op id = some op →
    let c := s.ctx core op.ctx
    let x := s.under c.vf op.old
    let writes (held : Bool) (f : Regs → Regs → Prop) : Prop :=
      ∃ u, exec (.walkerRetire core id) s = .next (if held = true then u.checkDone 5 none else u) ∧ Retired s u core op
        ∧ u.cur = core ∧ u.cix = op.ctx ∧ OpLanded s u core op f ∧ SameBytes s u ∧ (u.ctx core op.ctx).wait = c.wait
    let traps (held : Bool) (cause : Cause) (info : Word) : Prop :=
      ∃ u, exec (.walkerRetire core id) s
          = .next (if held = true then u.checkDone 5 (some (cause, info)) else u.takeTrap cause info)
        ∧ Retired s u core op ∧ u.cur = core ∧ u.cix = op.ctx ∧ (u.ctx core op.ctx).regs = c.regs ∧ SameBytes s u
    (∀ tr sz f vb cb aux csr, op.what = .fopen tr sz f vb cb aux csr →
      (csr = false → (∀ b, x.WalkerReads c.vf cb.toNat 8 b → writes tr fun r r' => r.Keeps r' [.f f] 0
          ∧ r'.f[f] = { vbase := vb, cbase := cb, pos := 0, len := .ofNat 32 (setCount (.ofNat 64 (leVal b))), isOpen := true
                        atEnd := decide (leVal b = 0), malformed := false, trapping := tr, csr := false })
        ∧ ∀ k, x.WalkerBreach c.vf cb.toNat 8 k → traps tr .leaseBreach (.ofNat 64 (cb.toNat + k) &&& .ofNat 64 (2 ^ 56 - 1)))
      ∧ (csr = true → ∀ b, x.WalkerReads c.vf aux.toNat 16 b →
        let lo := leVal (b.take 8)
        let hi := leVal (b.drop 8)
        (lo ≤ hi → hi - lo < 2 ^ 32 → writes tr fun r r' => r.Keeps r' [.f f] 0
          ∧ r'.f[f] = { vbase := .ofNat 64 (vb.toNat + lo * 2 ^ sz.val), cbase := .ofNat 64 (cb.toNat + 4 * lo), pos := 0
                        len := .ofNat 32 (hi - lo), isOpen := true, atEnd := decide (hi = lo), malformed := false
                        trapping := tr, csr := true })
        ∧ (hi < lo → tr = true → traps true .fibreMalformed (aux &&& .ofNat 64 (2 ^ 56 - 1)))
        ∧ (hi < lo → tr = false → writes false fun r r' => r.Keeps r' [.f f] 0
          ∧ r'.f[f] = { vbase := vb, cbase := cb, pos := 0, len := 0, isOpen := true, atEnd := true, malformed := true
                        trapping := false, csr := true })))
    ∧ (∀ sz f a v, op.what = .fadv sz f a v →
      let y := c.regs.f[f]
      (y.len.toNat ≤ y.pos.toNat → writes false fun r r' => r.Keeps r' (.f f :: (sDest a ++ sDest v)) 0
        ∧ r'.f[f] = { y with atEnd := true } ∧ (a ≠ 0 → a ≠ v → r'.rs a = .ofNat 64 (2 ^ 64 - 1)) ∧ r'.rs v = 0)
      ∧ (y.pos.toNat < y.len.toNat → ∀ bc bv co,
        (if y.csr = true then x.WalkerReads c.vf (y.cbase + 4 * y.pos).toNat 4 bc ∧ co = leVal bc
         else x.WalkerReads c.vf y.cbase.toNat 8 bc ∧ CoordinateIs (leVal bc) y.pos.toNat co) →
        x.WalkerReads c.vf (.ofNat 64 (y.vbase.toNat + y.pos.toNat * 2 ^ sz.val) : Word).toNat (2 ^ sz.val) bv →
        writes false fun r r' => r.Keeps r' (.f f :: (sDest a ++ sDest v)) 0
          ∧ r'.f[f] = { y with pos := y.pos + 1, atEnd := decide (y.pos.toNat + 1 = y.len.toNat) }
          ∧ (a ≠ 0 → a ≠ v → r'.rs a = .ofNat 64 co) ∧ (v ≠ 0 → r'.rs v = .ofNat 64 (leVal bv))))
    ∧ ∀ d q, op.what = .snext d q →
      let y := c.regs.q[q]
      let m := min y.chunk.toNat (y.slen.toNat - y.spos.toNat)
      (∀ b, m ≤ 256 → x.WalkerReads c.vf (y.sbase + y.spos).toNat m b → writes false fun r r' =>
          r.Keeps r' [.q q, .v d] 0
          ∧ r'.q[q] = { y with spos := y.spos + .ofNat 64 m, atEnd := decide (y.spos + .ofNat 64 m = y.slen) }
          ∧ ∀ k, k < 256 → byteOf r'.v[d] k = b.getD k 0)
      ∧ ∀ k, x.WalkerBreach c.vf (y.sbase + y.spos).toNat m k →
          traps false .leaseBreach (.ofNat 64 ((y.sbase + y.spos).toNat + k) &&& .ofNat 64 (2 ^ 56 - 1))

/-- R195, R196: the elements that a tensor's bitmaps mark are those whose bit of the leaf level is set, each once and
in ascending order: a clear bit of a level prunes what lies below it. -/
def Obligations.SparseTensorsNameTheirNonZeros : Prop :=
  ∀ (s : State) (vf va : Nat) (b : List Byte) (t : Sparse) (es : List Nat), sparseOf va b = some t →
    s.nonZeros vf t = .ok es →
    let below := 64 ^ (t.levels - 1)
    let n := (t.total + below - 1) / below
    es.Pairwise (· < ·)
      ∧ ∀ e, e ∈ es ↔ e < t.total ∧ s.nodeBit vf t.top n (t.leaf :: t.mids.reverse) e = true

/-- R194, R201 to R203: CUT and CUTP check the descriptors that they read, cut the next tile, or the partner's, and
their checks pass once they retire; a malformed descriptor, CUTP's own before its partner's, fails them with
FIBRE_MALFORMED and leaves the register. It rests on the model’s choices of log 16, log 63, log 67, log 88, log 105. -/
def Obligations.CuttersCutTheirTiles : Prop :=
  (∀ (va : Nat) (b : List Byte), b.length = 64 →
    let d : Block64 := .ofNat 512 (leVal b)
    (SparseLegal va d → ∃ t, sparseOf va b = some t ∧ t.levels = blk d 0 8 ∧ t.ext0 = blk d 64 32
      ∧ t.r = ((List.range (blk d 16 8 - 1)).map fun n => blk d (96 + 32 * n) 32).foldl (· * ·) 1
      ∧ t.total = t.ext0 * t.r ∧ t.top = blk d 192 64 ∧ t.leaf = blk d 384 64
      ∧ t.mids = (if blk d 0 8 = 2 then [] else if blk d 0 8 = 3 then [blk d 256 64] else [blk d 256 64, blk d 320 64]))
    ∧ (¬ SparseLegal va d → sparseOf va b = none))
  ∧ ∀ (s : State) (core id : Nat) (op : Op), (s.core core).op id = some op →
    let c := s.ctx core op.ctx
    let x := s.under c.vf op.old
    let bud : BitVec 32 := .ofNat 32 (((x.vread c.vf (c.launchp.toNat + 52) 4).map leVal).getD 0)
    let start (o : Bool) (k : Fin 4) (a : Word) : Cutter :=
      if o = true then { tdesc := a, bud, isOpen := true } else c.regs.k[k]
    let writes (f : Regs → Regs → Prop) : Prop :=
      ∃ u, exec (.walkerRetire core id) s = .next (u.checkDone 5 none) ∧ Retired s u core op
        ∧ u.cur = core ∧ u.cix = op.ctx ∧ OpLanded s u core op f ∧ SameBytes s u
    let traps (cause : Cause) (info : Word) : Prop :=
      ∃ u, exec (.walkerRetire core id) s = .next (u.checkDone 5 (some (cause, info))) ∧ Retired s u core op
        ∧ u.cur = core ∧ u.cix = op.ctx ∧ (u.ctx core op.ctx).regs = c.regs ∧ SameBytes s u
    let malformed (va : Word) : Word := .ofNat 64 (2 ^ 56 + va.toNat % 2 ^ 56)
    (∀ o d k a, op.what = .cut o d k a → let y := start o k a
      ∀ b, x.WalkerReads c.vf y.tdesc.toNat 64 b →
        (sparseOf y.tdesc.toNat b = none → traps .fibreMalformed (malformed y.tdesc))
        ∧ ∀ t es, sparseOf y.tdesc.toNat b = some t → x.nonZeros c.vf t = .ok es → y.bud ≠ 0 →
          writes fun r r' => r.Keeps r' (.k k :: pDest d) 0 ∧ ∃ p, NextTile t es y r'.k[k] p
            ∧ (r'.rp d = true ↔ d = 0 ∨ p = true))
    ∧ ∀ o d p n a, op.what = .cutp o d p n a → let y := start o p a
      let kn := c.regs.k[n]
      ∀ b bn, x.WalkerReads c.vf y.tdesc.toNat 64 b → x.WalkerReads c.vf kn.tdesc.toNat 64 bn →
        (sparseOf y.tdesc.toNat b = none → traps .fibreMalformed (malformed y.tdesc))
        ∧ (sparseOf y.tdesc.toNat b ≠ none → sparseOf kn.tdesc.toNat bn = none → traps .fibreMalformed (malformed kn.tdesc))
        ∧ ∀ t tn, sparseOf y.tdesc.toNat b = some t → sparseOf kn.tdesc.toNat bn = some tn →
          (t.ext0 ≠ tn.ext0 ∨ kn.split = true ∧ t.r ≠ tn.r → ∀ w, (c.checks.find? fun y => Code.cls y.2 == 5) = some w →
            traps .illMod (layoutW w.1 w.2))
          ∧ ∀ es, t.ext0 = tn.ext0 → (kn.split = true → t.r = tn.r) → x.nonZeros c.vf t = .ok es →
            writes fun r r' => r.Keeps r' (.k p :: pDest d) 0 ∧ ∃ b, PartnerTile t es kn y r'.k[p] b
              ∧ (r'.rp d = true ↔ d = 0 ∨ b = true)

/-! ### System words -/

/-- R174, R432, R433, R414, R415, R400, R77 to R80, R390: what a system word does to its context, and which values MTS and
SUSP refuse, SUSP by the cause that each object has. EXIT begins the end of its task, which JobsGrowAndTasksEnd states. It
rests on the model’s choice of log 21. -/
def Obligations.SystemWordsActOnTheirContext : Prop :=
  ∀ (s : State),
    let ill : State := s.takeTrap .illMod (layoutW s.me.word.1 s.me.word.2)
    (∀ sus ld st cp tl,
      let now : Prop := CounterWithin s.me.ld ld ∧ CounterWithin s.me.st st ∧ CounterWithin s.me.cp cp ∧ CounterWithin s.me.tl tl
      ∃ t, exec (.wait sus ld st cp tl) s = .next t ∧ ContextOnly s t
        ∧ (now → t = s)
        ∧ (¬ now → sus = true → ¬ s.Stays → t.me = { s.me with suspending := some 0, suspendAt := s.me.pc })
        ∧ (¬ now → sus = false ∨ s.Stays → t.me = { s.me with wait := .counters ld st cp tl }))
    ∧ (∃ t, exec .yield s = .next t ∧ ContextOnly s t ∧ (s.Stays → t = s)
        ∧ (¬ s.Stays → t.me = { s.me with suspending := some 0, suspendAt := s.me.pc }))
    ∧ (∃ t, exec .exit s = .next t ∧ ContextOnly s t
        ∧ t.me = { s.me with wait := .exiting none, suspending := none })
    ∧ (∀ n, ∃ t, exec (.prio n) s = .next t ∧ ContextOnly s t
        ∧ t.me = { s.me with regs := { s.me.regs with cls := n } })
    ∧ (∀ w : Fin 32, (WaitObject s (s.rs w) → ∃ t, exec (.susp w) s = .next t ∧ ContextOnly s t
          ∧ t.me = { s.me with
              suspending := some (if (s.rs w).toNat / 2 ^ 60 = 2 then .ofNat 64 ((s.rs w).toNat / 8 * 8) else s.rs w)
              suspendAt := s.me.pc })
        ∧ (s.me.snap = none →
          let kind := (s.rs w).toNat / 2 ^ 60
          let zero : Prop := (s.rs w).toNat / 2 ^ 56 % 16 = 0
          let a := (s.rs w).toNat % 2 ^ 56
          let traps (c : Cause) (n : Nat) : Prop := exec (.susp w) s = .next (s.takeTrap c (.ofNat 64 n))
          (¬ zero ∨ kind ∉ [2, 3, 4] → exec (.susp w) s = .next ill)
          ∧ (zero → kind = 2 → 2 ^ 22 ≤ a → exec (.susp w) s = .next ill)
          ∧ (zero → kind = 2 → a < 2 ^ 22 → ¬ s.HoldsRange (a / 8 * 8) 8 → traps .bufOwner (stripOf s.cur * 2 ^ 6 + a / 65536))
          ∧ (zero → kind = 3 → 2 ^ 40 ≤ a ∨ (∀ e, aget s.colTab (a / 2 ^ 32) = some e → e.serial.toNat ≠ a % 2 ^ 32) →
              exec (.susp w) s = .next ill)
          ∧ (zero → kind = 4 → a % 64 ≠ 0 → exec (.susp w) s = .next ill)
          ∧ (zero → kind = 4 → a % 64 = 0 → s.leased s.me.vf a = false → traps .leaseBreach a)
          ∧ (zero → kind = 4 → a % 64 = 0 → s.leased s.me.vf a = true → a = s.me.jcbp.toNat → exec (.susp w) s = .next ill)))
    ∧ ∀ r : SysReg,
      (∀ d, ∃ t v, exec (.mfs d r) s = .next t ∧ RegisterStep s t (sDest d) 1 0 ∧ SysReads s r v
        ∧ t.me.regs.rs d = if d = 0 then 0 else v)
      ∧ ∀ a, (MtsLegal r (s.rs a).toNat → ∃ t, exec (.mts a r) s = .next t ∧ ContextOnly s t
          ∧ { t.me with regs := s.me.regs } = s.me
          ∧ (∀ r', ownSys t.me.regs r' = if r' = r then (if r = .tvec then (s.rs a).toNat / 4 * 4
                else if r = .fpflg then (s.rs a).toNat ||| s.me.landed.toNat else (s.rs a).toNat)
              else ownSys s.me.regs r')
          ∧ { t.me.regs with
                fpctl := s.me.regs.fpctl, fpflg := s.me.regs.fpflg, safebnd := s.me.regs.safebnd, tvec := s.me.regs.tvec
                epc := s.me.regs.epc, ecause := s.me.regs.ecause, einfo := s.me.regs.einfo
                edelay := s.me.regs.edelay } = s.me.regs)
        ∧ (s.me.snap = none → ¬ MtsLegal r (s.rs a).toNat → exec (.mts a r) s = .next ill)

/-- R247, R249, R250, R253, R418, R243: TRAP traps; taking a trap saves the bundle, a pending target, the cause and
its detail, captures the array's events in its holder, and goes to TVEC, or ends the task; what the words of its bundle
have done is taken back first, to the bundle's issue where a check was pending, and handles whose pages a shootdown has
changed since then are valid no more (R159). ERET returns. It rests on the model’s choices of log 12, log 53, log 94. -/
def Obligations.TrapsAreTakenAndReturn : Prop :=
  (∀ (s : State) (code : BitVec 16), s.me.snap = none →
    exec (.trap code) s = .next (s.takeTrap .swTrap (.ofNat 64 code.toNat)))
  ∧ (∀ c : Cause, causes[c.code.toNat - 1]? = some c ∧ 0 < c.code.toNat)
  ∧ (∀ (s : State) (cause : Cause) (info : Word) (fl : Flags) (u : Undo), s.me.undo = some u ∨ s.me.undo = none ∧ s.me.entry = some u →
    let t := s.takeTrap cause info fl
    let checked : Prop := s.me.undo ≠ none
    ∃ g : Regs, (checked → g = (u.image s.me.before).orFlags fl) ∧ (¬ checked → g = s.me.before.orFlags fl)
    ∧ RolledBack s t u checked
    ∧ (EndsTask s.src cause info → (∃ k : BitVec 8, t.me.wait = .exiting (some k) ∧ k.toNat % 2 ^ 7 = cause.code.toNat)
        ∧ t.me.regs = g)
    ∧ (¬ EndsTask s.src cause info →
      t.me.regs = { g with
        epc := s.me.pc, ecause := 0x80 + cause.code, einfo := info
        edelay := match s.me.delay with
          | none => 0
          | some d => (if d.taken = true then d.target else s.me.after s.me.pc) + 1 }
      ∧ t.me.pc = .ofNat 64 (s.src.tvec.toNat / 4 * 4) ∧ t.me.wait = .none ∧ t.me.entry = none
      ∧ (s.myCore.arr.owner = some s.cix →
        (checked → u.arr.owner = some s.cix → ∀ e ∈ u.events, isArrayEvent s.cur e.2 = true → u.cycle < e.1 →
          ∃ sh, (t.core s.cur).arr.shadow = some sh ∧ sh.t0 = u.cycle ∧ (e.1 - u.cycle, e.2) ∈ sh.events)
        ∧ (¬ checked → ∀ e, s.Captured e → e ∈ s.agenda →
          ∃ sh, (t.core s.cur).arr.shadow = some sh ∧ sh.t0 = s.cycle ∧ (e.1 - s.cycle, e.2) ∈ sh.events))))
  ∧ (∀ (s : State) (cause : Cause) (info : Word) (fl : Flags), s.me.undo = none → s.me.entry = none →
    let t := s.takeTrap cause info fl
    { t with cores := s.cores, agenda := s.agenda } = s ∧ (∀ k, k ≠ s.cur → t.core k = s.core k)
    ∧ (∀ j, j ≠ s.cix → t.ctx s.cur j = s.ctx s.cur j)
    ∧ { t.core s.cur with ctxs := s.myCore.ctxs, arr := { (t.core s.cur).arr with shadow := s.myCore.arr.shadow } } = s.core s.cur
    ∧ (EndsTask s.src cause info → (∃ k : BitVec 8, t.me.wait = .exiting (some k)
          ∧ k.toNat % 2 ^ 7 = cause.code.toNat ∧ (k.getLsbD 7 = true ↔ s.src.ecause.getLsbD 7 = true))
        ∧ t.me.regs = s.me.before.orFlags fl ∧ t.me.snap = none ∧ t.me.deferred = none
        ∧ (t.core s.cur).arr = s.myCore.arr)
    ∧ (¬ EndsTask s.src cause info →
      t.me.regs = { s.me.before.orFlags fl with
        epc := s.me.pc, ecause := 0x80 + cause.code, einfo := info
        edelay := match s.me.delay with
          | none => 0
          | some d => (if d.taken = true then d.target else s.me.after s.me.pc) + 1 }
      ∧ t.me.pc = .ofNat 64 (s.src.tvec.toNat / 4 * 4) ∧ t.me.delay = none ∧ t.me.wait = .none ∧ t.me.snap = none
      ∧ t.me.deferred = none ∧ t.me.suspending = none ∧ t.me.replay = false ∧ t.me.last = none
      ∧ { t.me with
            regs := s.me.regs, snap := s.me.snap, deferred := s.me.deferred, suspending := s.me.suspending
            checks := s.me.checks, failed := s.me.failed
            last := s.me.last, prior := s.me.prior, sure := s.me.sure, landed := s.me.landed, shot := s.me.shot
            replay := s.me.replay
            suspendBar := s.me.suspendBar, pc := s.me.pc, via := s.me.via, delay := s.me.delay, xfer := s.me.xfer
            back := s.me.back, skip := s.me.skip, pad := s.me.pad, bksel := s.me.bksel, raise := s.me.raise
            packet := s.me.packet, badFetch := s.me.badFetch, safeDue := s.me.safeDue, wait := s.me.wait
            holdTil := s.me.holdTil, park := s.me.park } = s.me
      ∧ (∀ e, e ∈ t.agenda → e ∈ s.agenda ∧ ¬ s.Captured e)
      ∧ (∀ e, s.Captured e → e ∈ s.agenda → ∃ sh, (t.core s.cur).arr.shadow = some sh ∧ sh.t0 = s.cycle
          ∧ (e.1 - s.cycle, e.2) ∈ sh.events)
      ∧ ((∀ e ∈ s.agenda, ¬ s.Captured e) → (t.core s.cur).arr = s.myCore.arr)))
  ∧ (∀ (c : Ctx) (n : Fin 16), c.before.h[n] = if ∃ x ∈ c.shot, Handle.meets c.src.h[n] x.1 x.2 = true then Handle.clear c.src.h[n]
      else c.src.h[n])
  ∧ (∀ c : Ctx, { c.before with h := c.src.h } = c.src)
  ∧ (∀ s : State, (s.src.ecause.getLsbD 7 = true → ∃ t, exec .eret s = .next t ∧ ContextOnly s t
      ∧ t.me = { s.me with
          regs := { s.me.regs with ecause := .ofNat 8 (s.me.regs.ecause.toNat % 2 ^ 7) }, replay := true
          back := some (s.src.epc, if s.src.edelay.getLsbD 0 = true then some (s.src.edelay - 1) else none) })
    ∧ (s.src.ecause.getLsbD 7 = false → s.me.snap = none →
      exec .eret s = .next (s.takeTrap .illMod (layoutW s.me.word.1 s.me.word.2))))
  ∧ ∀ (c : Ctx) (a : Word) (g : Option Word), c.back = some (a, g) →
    c.advance.pc = a ∧ c.advance.loop = c.loop
      ∧ match g with
        | none => c.advance.delay = none
        | some v => ∃ d, c.advance.delay = some d ∧ d.taken = true ∧ d.target = v

/-- R214, R228, R232 to R234: what BAR, BARA and BARW do at issue, and what an arrival does: it counts on its path, is
refused, or waits for the context's gathers of earlier bundles, or before the BARA; a completed target object flips, with the
objects below it that have arrived; arrivals and flips of objects above the package come from other packages.
It rests on the model’s choices of log 18, log 20, log 34. -/
def Obligations.BarriersCountArrivals : Prop :=
  (∀ (s : State) (sc : Scope),
    let ill : State := s.takeTrap .illMod (layoutW s.me.word.1 s.me.word.2)
    let sent (t : State) (c : Ctx) : Prop := Alone s t ∧ UnitsKept s t ∧ t.myCore.ops = s.myCore.ops ∧ t.me = c
      ∧ ∃ due, s.cycle < due ∧ t.agenda = insertDue due (.barrierArrival s.cur (.ctx s.cix)) s.agenda
    (∀ tgt par, ArrivesAt s sc tgt par →
      (s.me.logical ∉ (s.pathBar par).who →
        (∀ x sus, (x = true → ∀ p, (s.row (rowOf s.cur)).phase = some p → p.vf ≠ s.me.vf) →
          ∃ t, exec (.bar x sus sc) s = .next t ∧ t.nextOp = s.nextOp
            ∧ sent t { s.me with wait := .arrival sc x sus, checks := s.me.checks ++ [s.me.word] })
        ∧ ∃ t, exec (.bara sc) s = .next t ∧ t.nextOp = s.nextOp + 1 ∧ sent t { s.me with
            bara := s.me.bara ++ [⟨s.nextOp, tgt, .ofNat 64 (2 ^ 62 + (layoutW s.me.word.1 s.me.word.2).toNat)⟩] })
      ∧ (s.me.logical ∈ (s.pathBar par).who → s.me.snap = none → (∀ x sus, exec (.bar x sus sc) s = .next ill)
        ∧ exec (.bara sc) s = .next ill)
      ∧ (s.me.bara = [] → ∀ sus,
        let key := barOn s.me.vf (s.levels s.me.vf) s.me.logical tgt
        let mine : Prop := s.me.logical ∈ (s.pathBar par).who ∧ (s.pathBar par).tgt = tgt
        ∃ t, exec (.barw sus sc) s = .next t ∧ ContextOnly s t
          ∧ (¬ mine → t = s)
          ∧ (mine → sus = true → ¬ s.Stays → t.me = { s.me with
              suspending := some key.wobj, suspendBar := some (key, (s.bar key).epoch), suspendAt := s.me.pc })
          ∧ (mine → sus = false ∨ s.Stays → t.me = { s.me with wait := .flip key (s.bar key).epoch })))
    ∧ ((∀ tgt par, ¬ ArrivesAt s sc tgt par) → s.me.snap = none → (∀ x sus, exec (.bar x sus sc) s = .next ill)
      ∧ exec (.bara sc) s = .next ill ∧ ∀ sus, exec (.barw sus sc) s = .next ill))
  ∧ (∀ (s₀ : State) (core : Nat) (i : Fin 4), let s := { s₀ with cur := core, cix := i }
    let c := s.me
    let ev := Instr.barrierArrival core (.ctx i)
    let gathers (before : Nat → Prop) : Prop := ∃ o ∈ s.myCore.ops, o.ctx = i ∧ before o.id ∧ ∃ tag, o.what = .elements tag
    let clear (tgt par : Nat) : Prop := tgt = par → (s.pathBar par).Completes →
      ∀ r j, s.MemberIn (barOn c.vf (s.levels c.vf) c.logical tgt) r j → (s.row r).phase = none
    let earlier (n : Nat) : Prop := ∀ u, c.entry = some u → n < u.first
    (∀ b rest par, c.bara = b :: rest → par + 2 = (s.levels c.vf).length → b.tgt ≤ par →
      let left : Ctx := { c with bara := rest, fences := c.fencesLeft b.id }
      (gathers (· < b.id) → exec ev s₀ = .next (s.schedule (s.cycle + 1) ev))
      ∧ (¬ gathers (· < b.id) → ∃ t, exec ev s₀ = .next t ∧ BarrierStep s t core i
        ∧ ((∀ f ∈ c.fences, f.pub = none) → t.agenda = s.agenda ∧ t.delays = s.delays)
        ∧ (RefusesArrival s b.tgt par false → t.ctx core i = { left with landBar := c.landBar ++ [b.info] }
            ∧ t.bars = s.bars ∧ t.rows = s.rows)
        ∧ (¬ RefusesArrival s b.tgt par false → t.ctx core i = left ∧ Counts s t b.tgt par false)))
    ∧ ∀ sc x sus tgt par w, c.bara = [] → c.wait = .arrival sc x sus → ArrivesAt s sc tgt par → c.checks = [w] →
      Code.cls w.2 = 6 →
      (gathers earlier → exec ev s₀ = .next (s.schedule (s.cycle + 1) ev))
      ∧ (¬ gathers earlier → RefusesArrival s tgt par x →
        exec ev s₀ = .next (s.takeTrap .illMod (layoutW w.1 w.2)))
      ∧ (¬ gathers earlier → ¬ RefusesArrival s tgt par x → (x = true → tgt = par ∧ clear tgt par) →
        ∃ t, exec ev s₀ = .next t ∧ BarrierStep s t core i ∧ t.agenda = s.agenda
        ∧ t.delays = s.delays ∧ Counts s t tgt par x
        ∧ t.ctx core i = { c with wait := .none, checks := [], sure := true
                                  deferred := some (c.deferred.getD [] ++ [⟨w.1, w.2, .barw sus sc⟩]) }))
  ∧ ∀ (s : State) (core : Nat) (k : Spike), SpikeFits s k →
      ∃ t, exec (.barrierArrival core (.spike k)) s = .next t ∧ SpikeTaken s t k

/-- R22, R228 to R231: XMIT and IMSEL park until their phase cycle, or trap, XMIT also where its source is not ready in
that cycle; XMIT then puts its operand on the skewer, and IMSEL takes what its stage holds. It rests on the model’s choices of log 44, log 45, log 46. -/
def Obligations.SkewersCarryOperands : Prop :=
  (∀ (s : State) (recv west : Bool) (r : XReg) (n : BitVec 21),
    let i : Instr := if recv = true then .imsel west r n else .xmit west r n
    (∀ p, s.PhaseContext p →
      let late : Prop := recv = false ∧ n.toNat = s.cycle - p.start
        ∧ s.me.locked s.cycle (match r with | .t k => .t k | .v k => .v k) = true
      (s.cycle - p.start ≤ n.toNat → ¬ late → ∃ t, exec i s = .next t ∧ Alone s t ∧ UnitsKept s t ∧ t.myCore.ops = s.myCore.ops
        ∧ t.me = { s.me with wait := .transfer recv west r n.toNat }
        ∧ t.agenda = insertDue (s.cycle + (n.toNat - (s.cycle - p.start)) + if recv = true then 1 else 0)
            (.transferCycleAct s.cur s.cix) s.agenda)
      ∧ (n.toNat < s.cycle - p.start ∨ late → s.me.snap = none →
        exec i s = .next (s.takeTrap .xferLate (.ofNat 64 ((s.cycle - p.start) % 2 ^ 21)))))
    ∧ ((∀ p, ¬ s.PhaseContext p) → s.me.snap = none →
      exec i s = .next (s.takeTrap .illMod (layoutW s.me.word.1 s.me.word.2))))
  ∧ ∀ (s₀ : State) (core : Nat) (i : Fin 4) (west : Bool) (r : XReg) (n : Nat), let s := { s₀ with cur := core, cix := i }
    let pos := [0, 1, 3, 4, 5, 7, 8, 10, 11, 12, 14, 15].getD (core % 12) 15
    (s.me.wait = .transfer false west r n → (∃ p, s.PhaseContext p) →
      ∃ u : State, exec (.transferCycleAct core i) s₀ = .next u.goOn ∧ { u with rows := s.rows } = s
        ∧ (∀ k, k ≠ core / 12 → u.row k = s.row k)
        ∧ { u.row (core / 12) with shots := (s.row (core / 12)).shots } = s.row (core / 12)
        ∧ ∃ o, (u.row (core / 12)).shots = ((s.row (core / 12)).shots.filter fun y => decide (s.cycle ≤ y.cycle + 16)) ++ [o]
          ∧ o.west = west ∧ o.pos = pos ∧ o.cycle = s.cycle
          ∧ o.data = match r with
              | .t k => s.src.t[k]
              | .v k => .ofNat 16384 s.src.v[k].toNat)
    ∧ (s.me.wait = .transfer true west r n →
      ∃ (u : State) (v : Tile), exec (.transferCycleAct core i) s₀ = .next u.goOn ∧ ContextOnly s u ∧ { u.me with regs := s.me.regs } = s.me
        ∧ StageHolds (s.row (core / 12)).shots west pos (s.cycle - 1) v
        ∧ match r with
          | .t k => s.me.regs.Keeps u.me.regs [.t k] 0 ∧ u.me.regs.t[k] = v
          | .v k => s.me.regs.Keeps u.me.regs [.v k] 0 ∧ u.me.regs.v[k] = .ofNat 2048 v.toNat)

/-! ### Strict mode, the loop sequencer, child tasks -/

/-- R176, R177, R180, R368, R398: PHASE closes the open phase once every counter is zero and opens the one of its
block, or traps; DGST replaces the digest list. It rests on the model’s choices of log 40, log 52. -/
def Obligations.PhasesAndDigestsAreDeclared : Prop :=
  ∀ (s : State) (x : Fin 32) (imm : BitVec 17) (es : List Word),
    let o := ((s.rs x).toNat + 8 * imm.toNat) % 2 ^ 22 / 8 * 8
    let ill : State := s.takeTrap .illMod (layoutW s.me.word.1 s.me.word.2)
    let zero : Prop := s.me.ld = 0 ∧ s.me.st = 0 ∧ s.me.cp = 0 ∧ s.me.tl = 0
    let shut : State := s.modMe fun c =>
      { c with phase := none, undo := c.undo.map fun u => { u with phase := none }
               entry := c.entry.map fun u => { u with phase := none } }
    let legal : Prop := ∀ e ∈ es, EntryLegal e
    (s.me.strict = false → s.me.snap = none → exec (.phase x imm) s = .next ill ∧ exec (.dgst x imm) s = .next ill)
    ∧ (s.me.strict = true → BlockHolds s o es →
      (zero → legal → NotCrowded es → (∀ i j, ¬ s.FirstPair es i j) →
        ∃ t, exec (.phase x imm) s = .next t ∧ ContextOnly s t
          ∧ t.me = { s.me with phase := if es = [] then none else some es })
      ∧ (zero → s.me.snap = none → ¬ (legal ∧ NotCrowded es) →
        exec (.phase x imm) s = .next (shut.takeTrap .illMod (layoutW s.me.word.1 s.me.word.2)))
      ∧ (∀ i j, zero → s.me.snap = none → legal → NotCrowded es → s.FirstPair es i j →
        exec (.phase x imm) s = .next (shut.takeTrap .phaseOverlap (.ofNat 64 (2 ^ 8 * i + j))))
      ∧ (legal → (∀ e ∈ es, pStrip e = 15) → ∃ t, exec (.dgst x imm) s = .next t ∧ ContextOnly s t
          ∧ t.me = { s.me with dgst := if es = [] then none else some es })
      ∧ (s.me.snap = none → ¬ (legal ∧ ∀ e ∈ es, pStrip e = 15) → exec (.dgst x imm) s = .next ill))
    ∧ (s.me.strict = true → ¬ zero → s.me.snap = none →
      exec (.phase x imm) s = .next (s.modMe fun c => c.parkFor .other s.cycle))

/-- R67, R151, R380, R381: LNINIT opens a nest and takes the task's share of its tiles; LNEXT yields the indices of
the next tile in the nest's order, or reports the end. A spawned task, which has no logical index, is left out. -/
def Obligations.NestsYieldTheirTiles : Prop :=
  (∀ (s : State) (x : Fin 32) (imm : BitVec 17),
    let o := ((s.rs x).toNat + 8 * imm.toNat) % 2 ^ 22 / 64 * 64
    let d : Block64 := .ofNat 512 (leVal (s.scrBytes s.cur o 64))
    let out : Block64 := s.src.o[Fin.ofNat 8 (blk d 17 3)]
    let n := ((s.levels s.me.vf).drop (blk d 8 8 + 1)).foldl (fun p l => p * l.count) 1
    let i := s.me.logical % n
    let t := (tilesOf d out).length
    let ill : State := s.takeTrap .illMod (layoutW s.me.word.1 s.me.word.2)
    (s.me.strict = true → s.HoldsRange o 64 →
      (DeclLegal (s.levels s.me.vf).length d → (d.getLsbD 16 = true → (descOf out).rank ≠ 0 ∧ OutputLegal out) → t < 2 ^ 63 →
        s.me.spwn = false → ∃ u, exec (.lninit x imm) s = .next u ∧ ContextOnly s u
          ∧ u.me = { s.me with seq := some ⟨o, t * i / n, t * (i + 1) / n, d, out⟩ })
      ∧ (s.me.snap = none → ¬ DeclLegal (s.levels s.me.vf).length d → exec (.lninit x imm) s = .next ill)
      ∧ (s.me.snap = none → DeclLegal (s.levels s.me.vf).length d → d.getLsbD 16 = true → (descOf out).rank = 0 →
          exec (.lninit x imm) s = .next (s.takeTrap .orbitRange 2)))
    ∧ (s.me.strict = false → s.me.snap = none → exec (.lninit x imm) s = .next ill))
  ∧ ∀ (s : State) (p : Fin 16) (d : Fin 32),
    let ill : State := s.takeTrap .illMod (layoutW s.me.word.1 s.me.word.2)
    (∀ q n, s.me.strict = true → s.me.seq = some q → DeclLegal n q.decl → d.val + blk q.decl 0 8 ≤ 32 →
      (q.decl.getLsbD 16 = true → OutputLegal q.odesc) →
      let at_ (j : Nat) : Fin 32 := Fin.ofNat 32 (d.val + j)
      (∀ ix, q.pos < q.fin → (tilesOf q.decl q.odesc)[q.pos]? = some ix →
        ∃ u lat, exec (.lnext p d) s = .next u ∧ 2 ≤ lat ∧ (q.decl.getLsbD 16 = false → lat = 2)
          ∧ RegisterStep s (u.modMe fun c => { c with seq := s.me.seq })
              (pDest p ++ (List.range (blk q.decl 0 8)).flatMap fun j => sDest (at_ j)) lat 0
          ∧ u.me.seq = some { q with pos := q.pos + 1 } ∧ u.me.regs.rp p = true
          ∧ ∀ j v, ix.lookup j = some v → at_ j ≠ 0 → u.me.regs.rs (at_ j) = .ofNat 64 v)
      ∧ (q.fin ≤ q.pos → ∃ u, exec (.lnext p d) s = .next u ∧ RegisterStep s u (pDest p) 2 0
          ∧ (u.me.regs.rp p = true ↔ p = 0)))
    ∧ (s.me.snap = none → s.me.strict = false ∨ s.me.seq = none → exec (.lnext p d) s = .next ill)

/-- R56, R57, R58, R110, R159, R177, R180, R248, R370, R373, R407, R408: JCBADD and SPAWN ask the pantry and wait, also while
the page of the block is not mapped; it raises EXPECT in one step, or the request is late; a child's record is completed
and stands in the pass of its row. A task that ends, by EXIT or by a trap, discards what its shadow buffer holds, waits
until its counters are zero, its destinations written and its array's pipeline empty, and then has hashed its digest
list, closed its phase, released the array, posted DONE, or STATUS too, and left its context idle.
It rests on the model’s choices of log 14, log 19, log 20, log 50, log 69. -/
def Obligations.JobsGrowAndTasksEnd : Prop :=
  (∀ (s : State),
    let asked (t : State) (j a : Word) (r : Option Word) : Prop := Alone s t ∧ UnitsKept s t ∧ t.myCore.ops = s.myCore.ops
      ∧ t.me = { s.me with raise := some (j, a, r), wait := .reply, checks := s.me.checks ++ [s.me.word] }
      ∧ ∃ due, s.cycle < due ∧ t.agenda = insertDue due (.expectRaise s.cur s.cix) s.agenda
    let ill : State := s.takeTrap .illMod (layoutW s.me.word.1 s.me.word.2)
    let parked : State := s.modMe fun c => c.parkFor .other s.cycle
    (∀ j a : Fin 32, ((s.rs j).toNat % 64 = 0 ∧ (s.rs a).toNat < 2 ^ 32 → (s.rs j).toNat < 2 ^ 56 →
        s.leased s.me.vf (s.rs j).toNat = true →
        (s.vplace s.me.vf (s.rs j).toNat ≠ none → ∃ t, exec (.jcbadd j a) s = .next t ∧ asked t (s.rs j) (s.rs a) none)
        ∧ (s.vplace s.me.vf (s.rs j).toNat = none → s.me.snap = none → exec (.jcbadd j a) s = .next parked))
      ∧ (s.me.snap = none → (s.rs j).toNat % 64 ≠ 0 ∨ 2 ^ 32 ≤ (s.rs a).toNat → exec (.jcbadd j a) s = .next ill))
    ∧ ∀ r : Fin 32,
      let mapped : Prop := (s.leased s.me.vf (s.rs r).toNat = true → s.vplace s.me.vf (s.rs r).toNat ≠ none)
        ∧ (s.leased s.me.vf s.me.jcbp.toNat = true → s.vplace s.me.vf s.me.jcbp.toNat ≠ none)
      ((s.rs r).toNat % 64 = 0 → (s.rs r).toNat < 2 ^ 56 → s.leasedW s.me.vf (s.rs r).toNat = true → mapped →
        (s.me.strict = false → (leVal ((s.vread s.me.vf ((s.rs r).toNat + 32) 4).getD [])).testBit 2 = true →
          (s.core (leVal ((s.vread s.me.vf ((s.rs r).toNat + 32) 4).getD []) / 2 ^ 16 % 2 ^ 9)).vf = some s.me.vf) →
        ¬ s.Outstanding .row → ∃ t, exec (.spawn r) s = .next t ∧ asked t s.me.jcbp 1 (some (s.rs r)))
      ∧ (s.me.snap = none → (s.rs r).toNat % 64 ≠ 0 → exec (.spawn r) s = .next ill))
  ∧ (∀ (s₀ : State) (core : Nat) (i : Fin 4) (jcb amount : Word) (child : Option Word),
    let s := { s₀ with cur := core, cix := i }
    let c := s.me
    let x := s.under c.vf c.old
    let old := (x.vread64 c.vf jcb.toNat).toNat
    let done : Prop := child = none ∧ (jcb ≠ c.jcbp ∨ (x.vread64 c.vf (jcb.toNat + 16)).getLsbD 0 = true)
    c.raise = some (jcb, amount, child) → s.canon = true →
    let idle : State := s.modMe fun c => { c with raise := none, old := [] }
    (done → exec (.expectRaise core i) s₀ = .next (idle.checkDone 6 (some (.jcbLate, 0))))
    ∧ (¬ done → 2 ^ 64 ≤ old + amount.toNat → exec (.expectRaise core i) s₀ =
        .next (idle.checkDone 6 (some (.jcbLate, 1))))
    ∧ ∀ p, ¬ done → old + amount.toNat < 2 ^ 64 → x.LiesAt c.vf jcb.toNat 8 p →
      (child = none → ∃ u : State, exec (.expectRaise core i) s₀ = .next (u.checkDone 6 none) ∧ JobStep s u
        ∧ u.me = { c with raise := none, old := [], sure := true } ∧ u.rows = s.rows ∧ u.dies = s.dies
        ∧ (∀ n, u.vf n = s.vf n) ∧ u.agenda = s.agenda ∧ Wrote s u (fun k => .mem (p + k)) (leBytes 8 (old + amount.toNat)))
      ∧ ∀ r q, child = some r → core < 384 → x.LiesAt c.vf r.toNat 64 q → (p + 8 ≤ q ∨ q + 64 ≤ p) →
        x.TablesApart c.vf (fun a => p ≤ a ∧ a < p + 8 ∨ q ≤ a ∧ a < q + 64) →
        let f := leVal (s.memBytes (q + 32) 4)
        let pin : Option Nat := if c.strict = true then some core else if f.testBit 2 = true then some (f / 2 ^ 16 % 2 ^ 9) else none
        let row := pin.getD core / 12
        ∃ u : State, exec (.expectRaise core i) s₀ = .next (u.checkDone 6 none) ∧ JobStep s u
          ∧ u.me = { c with raise := none, old := [], sure := true } ∧ u.agenda = s.agenda
          ∧ u.mem64 p = .ofNat 64 (old + amount.toNat) ∧ u.mem64 (q + 16) = c.jcbp
          ∧ u.mem64 (q + 24) = .ofNat 64 (c.launchp.toNat % 2 ^ 56 / 2 ^ 8 * 2 ^ 8 + c.level % 8)
          ∧ u.mem64 (q + 48) = 0 ∧ u.mem64 (q + 56) = c.recp
          ∧ (∀ b, b < 32 → (leVal (u.memBytes (q + 32) 4)).testBit b = if b = 3 then true
              else if c.strict = true ∧ b = 2 then true
              else if c.strict = true ∧ 16 ≤ b ∧ b ≤ 24 then core.testBit (b - 16) else f.testBit b)
          ∧ (∀ a, ¬ (p ≤ a ∧ a < p + 8 ∨ q + 16 ≤ a ∧ a < q + 36 ∨ q + 48 ≤ a ∧ a < q + 64) → cget u.mem a = cget s.mem a)
          ∧ ∃ e, PassGains s u row e ∧ e.recp = r ∧ e.vf = c.vf ∧ e.spwn = true ∧ e.cls = f % 4
            ∧ e.pin = pin ∧ e.since = s.cycle)
  ∧ ∀ (s : State) (core : Nat) (rest : List Nat) (i : Fin 4) (cause : Option (BitVec 8)), let c := s.ctx core i
    let a := (s.core core).arr
    (∀ e ∈ s.agenda, s.cycle < e.1) → s.todo = core :: rest → s.releaseMove core = none → (∀ j, j < i → s.moveOf core j = none) →
    c.task = true → c.frozen = false → c.wait = .exiting cause →
    (∀ sh, a.owner = some i → a.shadow = some sh → ∃ t, step s = .next t ∧ ShadowGone s t core i sh)
    ∧ ((a.owner = some i → a.shadow = none) →
      let z : State := if a.owner = some i then s.arrayNow core else s
      let x := z.under c.vf c.old
      (¬ CanEnd z core i cause → s.moveOf core i = none)
      ∧ ∀ v j p, CanEnd z core i cause → z.vf c.vf = some v → v.job = some j → z.canon = true → x.LiesAt c.vf c.jcbp.toNat 64 p →
        x.TablesApart c.vf (fun a => p ≤ a ∧ a < p + 64) → ∃ t, step s = .next t ∧ TaskEnded z t core i cause j p)

/-! ### Suspension, resumption and pre-emption -/

/-- R36 to R46, R72, R233, R416: a suspension saves what the live masks name, writes the record and empties its context,
or parks in place, which a context does as well whose BARA has been refused, until its trap is taken (log 113); an idle
context takes the entry of highest class, the oldest first, or the oldest that has waited
65,536 cycles, and has the registers that were saved, but for a task that would leave the core it is pinned to, which
ends; a pass is kept below 256 entries.
It rests on the model’s choices of log 19, log 41, log 43, log 57, log 69, log 85, log 98, log 113. -/
def Obligations.TasksSuspendAndResume : Prop :=
  (∀ (s : State) (core : Nat) (i : Fin 4) (w : Word), let c := s.ctx core i
    c.wait = .suspend w →
    let still : Prop := (c.ld = 0 ∧ c.st = 0 ∧ c.cp = 0 ∧ c.tl = 0) ∧ Settled s core i
    (s.StaysAt core i → c.bara ≠ [] → exec (.suspension core i) s = .next s)
    ∧ (s.StaysAt core i ∧ c.bara = [] ∨ ¬ s.StaysAt core i ∧ still ∧ c.landBar ≠ [] →
      ∃ t, exec (.suspension core i) s = .next t ∧ OneContext s t core i
      ∧ t.ctx core i = { c with
          wait := match c.suspendBar with
            | some (k, n) => .flip k n
            | none => if w = 0 then .none else .inPlace w
          suspendBar := none })
    ∧ ∀ p q, ¬ s.StaysAt core i → still → c.landBar = [] → s.canon = true →
      SavesTo s c p q →
      let live := s.liveMasks c.vf c.suspendAt
      ∃ t e, exec (.suspension core i) s = .next t ∧ TaskStep s t core i ∧ t.ctx core i = { regs := c.regs }
        ∧ t.agenda = s.agenda ∧ (t.core core).ops = (s.core core).ops ∧ (t.core core).released = (s.core core).released
        ∧ EntryOf c core s.cycle e ∧ e.recp = (s.savePlace c).1 ∧ Placed s t core e w c.suspendBar
        ∧ SavedAt t p q c core live.isNone (live.getD Masks.all) w ∧ KeepsElse s t p q)
  ∧ (∀ x ∈ places39, (∃ k, x.saved k = true) → ∀ g g' : Regs,
      (x.image g).length = x.size ∧ x.ok (x.image g) = true ∧ x.image (x.load (x.image g) g') = x.image g)
  ∧ (∀ (s : State) (core : Nat) (i : Fin 4) (l l' : List PassEnt) (e : PassEnt),
    (s.row (core / 12)).pass = l ++ e :: l' → MayTake s core i e →
    let aged (x : PassEnt) : Prop := MayTake s core i x ∧ x.since + 65536 ≤ s.cycle
    let taken (t : State) : Prop := Takes s t core i e
      ∧ (∀ p q c last full k wobj, Resumable s p q e c last full k wobj →
        (s.MayRunOn e c last core → Resumed c (t.ctx core i) full k
          ∧ (t.ctx core i).wait = .none ∧ (t.ctx core i).delay = none ∧ (t.ctx core i).loop.kind = 0
          ∧ (t.ctx core i).seq = none ∧ (t.ctx core i).dgst = none)
        ∧ (¬ s.MayRunOn e c last core → (t.ctx core i).wait = .exiting (some Cause.phaseEscape.code)
          ∧ (t.ctx core i).regs.epc = c.pc ∧ (t.ctx core i).regs.einfo = .ofNat 64 (3 * 2 ^ 32)))
      ∧ ((∃ n, n < 64 ∧ s.leased e.vf (e.recp.toNat + n) = false) → (t.ctx core i).wait = .exiting (some 2)
        ∧ (t.ctx core i).regs.einfo = .ofNat 64 (2 ^ 63 + e.recp.toNat % 2 ^ 56))
    let first (x : PassEnt) : Prop := s.entClass x < s.entClass e ∨ s.entClass x = s.entClass e ∧ e.since < x.since
    let below (x : PassEnt) : Prop := s.entClass x < s.entClass e ∨ s.entClass x = s.entClass e ∧ e.since ≤ x.since
    ((∀ x, ¬ aged x) → (∀ x, MayTake s core i x → below x) → (∀ x ∈ l, MayTake s core i x → first x) →
      ∃ t, exec (.passTake core i) s = .next t ∧ taken t)
    ∧ (aged e → (∀ x, aged x → e.since ≤ x.since) → (∀ x ∈ l, aged x → e.since < x.since) →
      ∃ t, exec (.passEntryAged core i) s = .next t ∧ taken t))
  ∧ ∀ (s : State) (r : Nat),
    let only (t : State) (pass : List PassEnt) (sp : List (Nat × PassEnt)) : Prop :=
      { t with rows := s.rows, dies := s.dies } = s ∧ (∀ k, k ≠ r → t.row k = s.row k) ∧ DieOnly s t (r / 8)
      ∧ t.row r = { s.row r with pass } ∧ t.die (r / 8) = { s.die (r / 8) with spilled := sp }
    (∀ l e l', (s.row r).pass = l ++ e :: l' → 256 ≤ (s.row r).pass.length → SpillsFrom l e l' →
      ∃ t, exec (.passSpill r) s = .next t ∧ only t (l ++ l') ((s.die (r / 8)).spilled ++ [(r, e)]))
    ∧ ∀ l e l', (s.die (r / 8)).spilled = l ++ (r, e) :: l' → (∀ x ∈ l, x.1 ≠ r) → (s.row r).pass.length < 128 →
      ∃ t, exec (.passReturn r) s = .next t ∧ only t ((s.row r).pass ++ [e]) (l ++ l')

/-- R41, R42, R61, R65, R66, R171, R253, R255 to R257, R395, R398, R432: a request to a context, its withdrawal and its
aging; a safe point or the bound of SAFEBND suspends the context, or parks it in place with its array events captured
from the cycle after its last bundle; a bundle that has not executed, in a WAIT, an LDE or an STE that another core has not
served, is issued again, what it has begun taken back; forced pre-emption saves every register, and its record goes on
once every operation has retired. A refused BARA comes first (log 113).
It rests on the model’s choices of log 19, log 23, log 47, log 69, log 84, log 113. -/
def Obligations.PreemptionStopsContexts : Prop :=
  (∀ (s : State) (core : Nat) (i : Fin 4), let c := s.ctx core i
    c.task = true →
    (∃ t, exec (.preemptionRequest core i) s = .next t ∧ OneContext s t core i
      ∧ t.ctx core i = { c with preq := true, safeDue := c.preq && c.safeDue })
    ∧ (∃ t, exec (.preemptionRequestWithdrawal core i) s = .next t ∧ OneContext s t core i
      ∧ t.ctx core i = { c with preq := false, frozen := false })
    ∧ (c.aged = false → c.lastIssue + 4096 ≤ s.cycle → ∃ t, exec (.agingPromotion core i) s = .next t
      ∧ OneContext s t core i ∧ t.ctx core i = { c with aged := true })
    ∧ (ActsOn s core i →
      let obj : Word := match c.wait with
        | .flip k _ => k.wobj
        | _ => 0
      (c.safeDue = true → c.delay = none →
        ∃ t, exec (.safePointTaken core i) s = .next t ∧ OneContext s t core i
          ∧ (s.StaysAt core i → t.ctx core i = { c with park := none, frozen := true })
          ∧ (¬ s.StaysAt core i → ∃ d, c.Leaves d (.suspend obj) ∧ t.ctx core i = { d with safeDue := false }))
      ∧ (c.regs.safebnd.toNat ≠ 2 ^ 32 - 1 → c.regs.safebnd.toNat < s.cycle - c.safeAt →
        (¬ s.StaysAt core i → ∃ t, exec (.forcedPreemption core i) s = .next t ∧ OneContext s t core i
          ∧ c.Leaves (t.ctx core i) .saving)
        ∧ (s.StaysAt core i → (s.core core).arr.owner ≠ some i ∨ (s.core core).arr.shadow ≠ none →
          ∃ t, exec (.forcedPreemption core i) s = .next t ∧ OneContext s t core i
            ∧ t.ctx core i = { c with park := none, frozen := true, holdTil := 0 })
        ∧ ((s.core core).arr.owner = some i → (s.core core).arr.shadow = none →
          let left : State := s.modCtx core i fun c => { c with park := none }
          let captured (r t : State) (n : Nat) : Prop :=
            let late (e : Nat × Instr) : Bool := isArrayEvent core e.2 && decide (n < e.1)
            { t with cores := s.cores, agenda := s.agenda, nextOp := s.nextOp } = s ∧ t.nextOp = r.nextOp
            ∧ t.agenda = r.agenda.filter (fun e => !late e)
            ∧ (∀ k, { t.core k with ctxs := (r.core k).ctxs, arr := (r.core k).arr } = r.core k)
            ∧ (∀ k, k ≠ core → (t.core k).arr = (r.core k).arr)
            ∧ (∀ k j, k ≠ core ∨ j ≠ i → t.ctx k j = r.ctx k j)
            ∧ t.ctx core i = { r.ctx core i with frozen := true, replay := true, holdTil := 0 }
            ∧ (t.core core).arr = { (r.core core).arr with
                shadow := if r.agenda.any late = true then some ⟨n, (r.agenda.filter late).map fun e => (e.1 - n, e.2)⟩
                  else (r.core core).arr.shadow }
          ∃ t, exec (.forcedPreemption core i) s = .next t
            ∧ (c.last = none → captured left t (c.lastIssue + 1))
            ∧ ∀ u, c.last = some u → captured (State.rewind { left with cur := core, cix := i } u) t (u.cycle + 1))))
    ∧ ∀ u, Unexecuted s core i u →
      let leads (r : Res) (w : Wait) : Prop := ∃ t, r = .next t
        ∧ ((s.core core).arr.owner ≠ some i → Withdrawn s t core i u
          ∧ (u.phase = none → (t.ctx core i).wait = w ∧ (t.ctx core i).suspendBar = none))
        ∧ ((s.core core).arr.owner = some i ∧ u.arr.owner = some i ∨ (s.core core).arr.owner ≠ some i ∧ u.phase ≠ none →
          (t.ctx core i).frozen = true ∧ (t.ctx core i).wait = .none)
      (c.safeDue = true → c.delay = none → leads (exec (.safePointTaken core i) s) (.suspend 0))
      ∧ (c.regs.safebnd.toNat ≠ 2 ^ 32 - 1 → c.regs.safebnd.toNat < s.cycle - c.safeAt →
        leads (exec (.forcedPreemption core i) s) .saving))
  ∧ (∀ (s : State) (core : Nat) (i : Fin 4) (p q : Nat), let c := s.ctx core i
    c.wait = .saving → Settled s core i →
    (c.landBar ≠ [] → ∃ t, exec (.forcedPreemptionSave core i) s = .next t ∧ OneContext s t core i
      ∧ t.ctx core i = { c with
          wait := match c.suspendBar with
            | some (k, n) => .flip k n
            | none => .none
          suspendBar := none })
    ∧ (c.landBar = [] → s.canon = true → SavesTo s c p q →
    let obj : Word := match c.suspendBar with
      | some (k, _) => k.wobj
      | none => 0
    let own := (s.core core).ops.filter fun o => o.ctx == i
    ∃ t e, exec (.forcedPreemptionSave core i) s = .next t ∧ TaskStep s t core i ∧ t.ctx core i = { regs := c.regs }
      ∧ t.agenda = s.agenda ∧ t.rows = s.rows ∧ t.dies = s.dies ∧ t.sleepers = s.sleepers
      ∧ EntryOf c core s.cycle e ∧ e.recp = (s.savePlace c).1
      ∧ (t.core core).released = (s.core core).released ++ [⟨e, obj, c.suspendBar, own.map (·.id)⟩]
      ∧ ((s.core core).ops.Pairwise (fun x y => x.id ≠ y.id) →
          (t.core core).ops = (s.core core).ops.map fun o => if o.ctx = i then { o with ctr := none } else o)
      ∧ SavedAt t p q c core true Masks.all obj ∧ KeepsElse s t p q
      ∧ (t.mem64 (p + 0xA800)).getLsbD 0 = c.delay.isSome
      ∧ ∀ d, c.delay = some d → t.mem64 (p + 0xA808) = if d.taken = true then d.target else c.after c.pc))
  ∧ ∀ (s : State) (core : Nat) (l : List Released) (r : Released) (l' : List Released),
    (s.core core).released = l ++ r :: l' → (∀ x ∈ l, x.ent.recp ≠ r.ent.recp) →
    (∀ n ∈ r.ops, ∀ o ∈ (s.core core).ops, o.id ≠ n) →
    ∃ t, exec (.preemptRecordRelease core r.ent.recp) s = .next t
      ∧ { t with cores := s.cores, rows := s.rows, dies := s.dies, sleepers := s.sleepers } = s
      ∧ (∀ k, { t.core k with released := (s.core k).released } = s.core k)
      ∧ (∀ k, k ≠ core → (t.core k).released = (s.core k).released)
      ∧ (t.core core).released = l ++ l' ∧ Placed s t core r.ent r.wobj r.bar

/-! ### The host, launches and functions -/

/-- R191, R259 to R263, R266, R267: a command that reaches a function's window is journalled and takes effect, or is
refused without either; one that comes while the checks of a START run waits behind them; a report is written to host
memory; RMA accesses read and write their regions; a message at a port changes nothing. The service function has no
window or endpoint, and neither is open after a boot that has failed.
It rests on the model’s choices of log 10, log 25, log 58, log 70, log 75, log 99, log 103. -/
def Obligations.HostReachesFunctions : Prop :=
  (∀ (s : State) (n : Nat) (v : Vf), s.vf n = some v → s.up = true → n ≠ 64 → v.lstat ≠ 0xFF → s.canon = true →
    let ends (r : Res) (p : State → Prop) : Prop := ∃ t, r = .next t ∧ p t
    let plain (r : Res) (off : Nat) (a : Word) (f : Vf → Vf) : Prop :=
      ends r fun t => Answered s t .done ∧ Commanded s t n v 0 off 0 a f
    let word (off : Nat) (a : Word) : Res := exec (.commandWindowWrite n off ⟨leBytes 8 a.toNat, true⟩) s
    (∀ a,
      ends (exec (.start n a) s) (fun t =>
        { t with vfs := s.vfs, hostReplies := s.hostReplies, agenda := s.agenda } = s
        ∧ t.hostReplies = s.hostReplies ++ [.done] ∧ t.vf n = some { v with start := a, lstat := 0xFF }
        ∧ (∀ k, k ≠ n → t.vf k = s.vf k)
        ∧ ∃ due, s.cycle < due ∧ t.agenda = insertDue due (.launchChecksEnd n) s.agenda)
      ∧ (if v.job = none ∧ a.toNat % 8 = 0 then
          plain (exec (.veraddr n a) s) 0x018 a fun x => { x with veraddr := a, version := 0 }
        else ends (exec (.veraddr n a) s) (Turned s))
      ∧ (if v.job = none ∧ a.toNat % 4096 = 0 then plain (word 0x020 a) 0x020 a fun x => { x with ptroot := a }
        else ends (word 0x020 a) (Turned s))
      ∧ (if v.job = none then plain (word 0x028 a) 0x028 a fun x => { x with homet := a }
        else ends (word 0x028 a) (Turned s))
      ∧ plain (word 0x048 a) 0x048 a fun x => { x with attaddr := a })
    ∧ (∀ a : BitVec 256, ends (exec (.commandWindowWrite n 0x050 ⟨toLe a, true⟩) s) fun t =>
        { t with vfs := s.vfs, hostReplies := s.hostReplies, hostMem := s.hostMem } = s
        ∧ t.hostReplies = s.hostReplies ++ [.done] ∧ Reported s t n
        ∧ Commanded s t n v 0 0x050 0 (.ofNat 64 a.toNat) fun x => { x with attnonce := a })
    ∧ (∀ a, ends (exec (.attestationReport n a) s) fun t =>
      { t with vfs := s.vfs, hostReplies := s.hostReplies, hostMem := s.hostMem } = s
      ∧ t.hostReplies = s.hostReplies ++ [.done] ∧ Reported s t n
      ∧ Commanded s t n v 0 0x068 0 a fun x =>
          { x with attnonce := .ofNat 256 (v.attnonce.toNat % 2 ^ 192 + 2 ^ 192 * a.toNat) })
    ∧ (ends (exec (.preemptRequest n) s) fun t =>
      { t with vfs := s.vfs, hostReplies := s.hostReplies, cores := s.cores } = s
      ∧ t.hostReplies = s.hostReplies ++ [.done] ∧ Commanded s t n v 0 0x030 0 1 (fun x => { x with preempt := true })
      ∧ TasksAre s t n fun c => { c with preq := true, safeDue := c.preq && c.safeDue })
    ∧ (ends (exec (.preemptWithdraw n) s) fun t =>
      { t with vfs := s.vfs, hostReplies := s.hostReplies, cores := s.cores } = s
      ∧ t.hostReplies = s.hostReplies ++ [.done] ∧ Commanded s t n v 0 0x030 0 0 (fun x => { x with preempt := false })
      ∧ TasksAre s t n fun c => { c with preq := false, frozen := false }))
  ∧ (∀ (s : State) (n : Nat) (v : Vf), s.vf n = some v → s.up = true → n ≠ 64 →
    (∀ off bytes, off ∉ [0x000, 0x018, 0x020, 0x028, 0x030, 0x048, 0x050, 0x058, 0x060, 0x068] ∨ bytes.length % 8 ≠ 0 →
      ∀ rod, ∃ t, exec (.commandWindowWrite n off ⟨bytes, rod⟩) s = .next t ∧ Turned s t)
    ∧ (∀ off bytes, ∃ t, exec (.commandWindowWrite n off ⟨bytes, false⟩) s = .next t ∧ Turned s t)
    ∧ (v.lstat = 0xFF →
      let waits (r : Res) (off : Nat) (a : Word) : Prop := ∃ t, r = .next t ∧ { t with vfs := s.vfs } = s
        ∧ t.vf n = some { v with waiting := v.waiting ++ [(off, [a])] } ∧ ∀ k, k ≠ n → t.vf k = s.vf k
      ∀ a, waits (exec (.start n a) s) 0 a
        ∧ (a.toNat % 8 = 0 → waits (exec (.veraddr n a) s) 0x018 a)
        ∧ (a.toNat % 8 ≠ 0 → ∃ t, exec (.veraddr n a) s = .next t ∧ Turned s t)
        ∧ waits (exec (.preemptRequest n) s) 0x030 1 ∧ waits (exec (.preemptWithdraw n) s) 0x030 0))
  ∧ (∀ (s : State) (n : Nat), n = 64 ∨ s.up = false →
    (∀ off bytes rod, exec (.commandWindowWrite n off ⟨bytes, rod⟩) s = .next s)
    ∧ (∀ g addr len, exec (.rmaRead n g addr len) s = .next s)
    ∧ ∀ g addr bytes, exec (.rmaWrite n g addr bytes) s = .next s)
  ∧ (∀ (s : State) (n : Nat) (v : Vf), s.vf n = some v → s.up = true → n ≠ 64 → s.canon = true →
    let ends (r : Res) (p : State → Prop) : Prop := ∃ t, r = .next t ∧ p t
    let places (addr len : Nat) : Option (List Nat) := placesBy (s.walk n) s.pkg.toNat addr len
    let at_ (addr len p : Nat) : Prop := places addr len = some ((List.range len).map (p + ·))
    (∀ addr len,
      let gives (region : Nat) (b : List Byte) : Prop := exec (.rmaRead n region addr len) s
        = .next { s with hostReplies := s.hostReplies ++ [.bytes b] }
      let units : Prop := ∀ r ∈ v.allot, r.1 % 2 ^ 21 = 0 ∧ r.2 % 2 ^ 21 = 0
      (∀ p, at_ addr len p → gives 0 (s.memBytes p len))
      ∧ (places addr len = none → ends (exec (.rmaRead n 0 addr len) s) (Turned s))
      ∧ (Allotted v addr len → gives 1 (s.memBytes addr len))
      ∧ (units → ¬ Allotted v addr len → ends (exec (.rmaRead n 1 addr len) s) (Turned s))
      ∧ (addr + len ≤ 2 ^ 18 → ∃ b, b.length = len ∧ gives 2 b
        ∧ ∀ j e k o, v.journal[j]? = some e → j < 4096 → j < v.jseq.toNat → o < 64 → k < len →
          addr + k = (v.jseq.toNat - 1 - j) % 4096 * 64 + o → b[k]? = (toLe e)[o]?)
      ∧ (2 ^ 18 < addr + len → ends (exec (.rmaRead n 2 addr len) s) (Turned s))
      ∧ (addr % 8 = 0 → addr + 8 ≤ 4096 → len = 8 → gives 3 (leBytes 8 (match addr with
        | 0x008 => v.lstat.toNat
        | 0x010 => v.jdone.toNat
        | 0x018 => v.veraddr.toNat
        | 0x020 => v.ptroot.toNat
        | 0x028 => v.homet.toNat
        | 0x030 => if v.preempt = true ∧ s.taskOf n = true then 1 else 0
        | 0x038 => v.rstcnt.toNat
        | 0x040 => v.jseq.toNat
        | 0x048 => v.attaddr.toNat
        | _ => 0))))
    ∧ ∀ addr (bytes : List Byte),
      let puts (region p : Nat) : Prop := ends (exec (.rmaWrite n region addr bytes) s) fun t =>
        { t with mem := s.mem, hostReplies := s.hostReplies } = s ∧ t.hostReplies = s.hostReplies ++ [.done]
        ∧ Wrote s t (fun k => .mem (p + k)) bytes
      (∀ p, at_ addr bytes.length p → puts 0 p)
      ∧ (places addr bytes.length = none → ends (exec (.rmaWrite n 0 addr bytes) s) (Turned s))
      ∧ (Allotted v addr bytes.length → puts 1 addr)
      ∧ ends (exec (.rmaWrite n 2 addr bytes) s) (Turned s))
  ∧ ∀ (s : State) (port : Nat) (bytes : List Byte), port < 16 → exec (.send port bytes) s = .next s

/-- R12, R25, R29, R47 to R58, R109, R157, R166, R251, R263, R265, R353: the end of a launch's checks journals their
status, and an accepted launch has passed every check, has its leases resident and installs its tasks, and commands that
have waited come then; instances and jobs complete; functions are made; a packet is fetched, or its fetch fails; a
destination becomes ready. It rests on the model’s choices of log 11, log 13, log 14, log 48, log 49, log 56, log 57, log 73,
log 76, log 78, log 81, log 84, log 97, log 103. -/
def Obligations.LaunchesInstallAndComplete : Prop :=
  (∀ (s : State) (n : Nat) (v : Vf), s.vf n = some v → v.lstat = 0xFF →
    (v.job ≠ none ∨ v.preempt = true → s.launchCheck n v = .inl 1)
    ∧ (v.job = none → v.preempt = false → v.start.toNat % 64 ≠ 0 → s.launchCheck n v = .inl 6)
    ∧ (s.up = true → n ≠ 64 →
      let leads (u : State) : Prop := ∃ t, exec (.launchChecksEnd n) s = .next t
        ∧ Performs n (u.modVf n fun x => { x with waiting := [] }) v.waiting t
      (∀ st, s.launchCheck n v = .inl st → 1 ≤ st ∧ st ≤ 7 ∧ ∃ u, leads u ∧ { u with vfs := s.vfs } = s
        ∧ Commanded s u n v 1 0 st v.start fun x => { x with lstat := .ofNat 8 st })
      ∧ ∀ s₁ l, s.launchCheck n v = .inr (s₁, l) → LaunchLegal s s₁ n v l ∧
        ∀ p, l.place.Nodup → (∀ c ∈ l.place, c < 384) → s₁.canon = true →
          (s₁.withJob n v l.job).LiesAt n l.head.jcb.toNat 64 p →
          (s₁.withJob n v l.job).TablesApart n (fun a => p ≤ a ∧ a < p + 64) →
          let spots := taskSpots l.head.ls l.place
          let total := units l.head.ls
          ∃ u, leads u
            ∧ { u with vfs := s₁.vfs, cores := s₁.cores, rows := s₁.rows, bars := s₁.bars, mem := s₁.mem
                       places := s₁.places, images := s₁.images, agenda := s₁.agenda } = s₁
            ∧ Commanded s u n v 1 0 0 v.start (fun x => { x with lstat := 0, job := some l.job })
            ∧ u.mem64 p = .ofNat 64 total ∧ u.mem64 (p + 8) = 0 ∧ u.mem64 (p + 16) = 0
            ∧ u.memBytes (p + 32) 32 = List.replicate 32 0
            ∧ (∀ a, ¬ (p ≤ a ∧ a < p + 24 ∨ p + 32 ≤ a ∧ a < p + 64) → cget u.mem a = cget s₁.mem a)
            ∧ u.bars = s.bars.filter (fun b => b.key.vf != n) ∧ u.places = s.places.tail
            ∧ (∀ r, { u.row r with holds := (s.row r).holds } = s.row r)
            ∧ (∀ k, { u.core k with ctxs := (s.core k).ctxs, scr := (s.core k).scr, fe := (s.core k).fe } = s.core k)
            ∧ ImageLoaded s u n l.place
            ∧ (∀ k (j : Fin 4), (k, j.val) ∉ spots → u.ctx k j = s.ctx k j)
            ∧ ∀ (i c j k : Nat) (e : SvEntry) (r : LRec), i < total → spots[i]? = some (c, j) → l.place[k]? = some c → l.vec[k]? = some e → l.recs[k]? = some r →
              let x := u.ctx c (Fin.ofNat 4 j)
              x.task = true ∧ x.vf = n ∧ x.logical = i ∧ x.spwn = false ∧ x.strict = (l.head.lflags == 1)
              ∧ x.level = l.head.ls.length - 1
              ∧ (e.cont = 0 → x = { task := true, vf := n, logical := i, strict := l.head.lflags == 1, jcbp := l.head.jcb
                                    launchp := .ofNat 64 r.at_, level := l.head.ls.length - 1, pc := e.start l.hdr
                                    lastIssue := s.cycle, safeAt := s.cycle, regs := { safebnd := r.safeb0 } })))
  ∧ (∀ (s : State) (n : Nat) (v : Vf) (j : Job) (level pos : Nat), s.vf n = some v → v.job = some j →
    (∀ m x, j.levels[level + 1]? = some x → j.ended.lookup (level, pos) = some x.count → level = 0 ∨ j.levels[level]? = some m →
      (level = 0 → exec (.instanceComplete n level pos) s = .next s)
      ∧ (0 < level → ∃ t, exec (.instanceComplete n level pos) s = .next t
        ∧ { t with vfs := s.vfs, agenda := s.agenda, delays := s.delays } = s ∧ (∀ k, k ≠ n → t.vf k = s.vf k)
        ∧ ∃ j', t.vf n = some { v with job := some j' } ∧ { j' with ended := j.ended } = j
          ∧ j'.ended.lookup (level - 1, pos / m.count) = some ((j.ended.lookup (level - 1, pos / m.count)).getD 0 + 1)
          ∧ (∀ k, k ≠ (level - 1, pos / m.count) → j'.ended.lookup k = j.ended.lookup k)
          ∧ (if j'.ended.lookup (level - 1, pos / m.count) = some m.count then ∃ due, s.cycle < due ∧
              t.agenda = insertDue due (.instanceComplete n (level - 1) (pos / m.count)) s.agenda
            else t.agenda = s.agenda)))
    ∧ (s.leased n j.jcb.toNat = true → s.vplace n j.jcb.toNat = none → exec (.jobCompletion n) s =
        .next (if j.finishing = true then s.schedule (s.cycle + 1) (.jobCompletion n) else s))
    ∧ ∀ p, s.canon = true → s.LiesAt n j.jcb.toNat 64 p → s.TablesApart n (fun a => p ≤ a ∧ a < p + 64) →
      j.finishing = true ∨ s.mem64 p = s.mem64 (p + 8) →
      ∃ t, exec (.jobCompletion n) s = .next t
        ∧ { t with vfs := s.vfs, mem := s.mem, rows := s.rows, bars := s.bars, colTab := s.colTab
                   agenda := s.agenda } = s
        ∧ t.agenda = s.agenda.filter (fun e => !isInstanceEvent n e.2)
        ∧ Commanded s t n v 2 0 0 (v.jdone + 1) (fun x => { x with jdone := x.jdone + 1, job := none })
        ∧ t.mem64 (p + 16) = s.mem64 (p + 16) ||| 1 ||| (if j.strict = true ∧ j.broken = false then 4 else 0)
        ∧ (j.strict = true → t.memBytes (p + 32) 32 = sha3Bytes (j.hashes.flatMap fun h => toLe h.2))
        ∧ (∀ a, ¬ (p + 16 ≤ a ∧ a < p + 24 ∨ j.strict = true ∧ p + 32 ≤ a ∧ a < p + 64) → cget t.mem a = cget s.mem a)
        ∧ t.bars = s.bars.filter (fun b => b.key.vf != n)
        ∧ (∀ r, { t.row r with holds := (s.row r).holds, phase := (s.row r).phase, shots := (s.row r).shots } = s.row r)
        ∧ (∀ r h, h ∈ (t.row r).holds ↔ h ∈ (s.row r).holds
          ∧ ∀ c ∈ j.place, c < 384 → c / 12 = r → h.1 / 64 ≠ c % 12 ∧ h.2.strip ≠ c % 12)
        ∧ (∀ x ∈ t.colTab, x.2.vf = n → x.2.orphan = true ∧ x.2.stage ≠ .done)
        ∧ ∀ x, x.2.vf ≠ n → (x ∈ t.colTab ↔ x ∈ s.colTab))
  ∧ (∀ (s : State) (part : Nat) (pkgs vfs : List Nat) (cores : List (Nat × Nat)) (ranges : List (Nat × Nat × Nat)),
    MayCreate s part pkgs vfs cores ranges →
    ∃ t, exec (.virtualFunctionCreate part pkgs vfs cores ranges) s = .next t
      ∧ { t with vfs := s.vfs, cores := s.cores } = s
      ∧ (∀ n ∈ vfs, ∃ cs : List Nat, cs.Pairwise (· < ·) ∧ (∀ c, c ∈ cs ↔ (n, c) ∈ cores)
        ∧ t.vf n = some { part, pkgs, cores := cs, allot := (ranges.filter fun r => r.1 == n).map (·.2) })
      ∧ (∀ n, n ∉ vfs → t.vf n = (s.vf n).map fun v =>
          { v with cores := v.cores.filter fun c => decide (∀ x ∈ cores, x.2 ≠ c) })
      ∧ (∀ k, (∀ c ∈ cores, c.2 ≠ k) → t.core k = s.core k)
      ∧ ∀ c ∈ cores, t.core c.2 = if (s.core c.2).vf = some c.1 then s.core c.2
          else { s.core c.2 with vf := some c.1, lid := [], acc := [] })
  ∧ ∀ (s : State) (core : Nat) (i : Fin 4), let c := s.ctx core i
    let a := c.pc.toNat / 64 * 64
    (∀ r, ∃ t, exec (.destinationReady core i r) s = .next t ∧ OneContext s t core i
      ∧ { t.ctx core i with sb := c.sb } = c
      ∧ ∀ cyc x, s.cycle ≤ cyc → (t.ctx core i).locked cyc x = c.locked cyc x)
    ∧ (c.task = true → c.badFetch = none → c.pktOf c.pc = none →
      let fails (k : BitVec 2) : Prop := ∃ t, exec (.packetFetch core i) s = .next t ∧ OneContext s t core i
        ∧ t.ctx core i = { c with badFetch := some k }
      let open_ : Prop := a < 2 ^ 56 ∧ s.leasedX c.vf a = true
      (¬ open_ → fails 0)
      ∧ (open_ → s.xlate c.vf a = none → ∀ v, s.vf c.vf = some v →
        fails (if s.entryX a [0, 1, 2, 3, 4] v.ptroot.toNat = false then 1 else 2))
      ∧ ∀ l, open_ → s.xlate c.vf a = some l →
        (l.x = false → fails 1)
        ∧ (l.x = true → s.vplaces c.vf a 64 = none → fails 2)
        ∧ ∀ p, l.x = true → s.LiesAt c.vf a 64 p →
          ∃ t w, exec (.packetFetch core i) s = .next t ∧ { t with cores := s.cores } = s
            ∧ (∀ k, k ≠ core → t.core k = s.core k) ∧ (∀ j, j ≠ i → t.ctx core j = s.ctx core j)
            ∧ { t.core core with ctxs := (s.core core).ctxs, icache := (s.core core).icache } = s.core core
            ∧ (t.core core).icache = ((c.vf, .ofNat 64 a, w)
                :: (s.core core).icache.filter fun y => !(y.1 == c.vf && y.2.1 == .ofNat 64 a)).take 2048
            ∧ t.ctx core i = { c with packet := some (.ofNat 64 a, w) } ∧ w.length = 16
            ∧ ∀ k, k < 16 → w[k]? = some (.ofNat 32 (leVal (s.memBytes (p + 4 * k) 4))))

/-! ### Collectives -/

/-- R193, R235 to R240, R245, R370: CPOST makes an entry and posts it, in strict mode once its descriptor has been read
and checked; CWAIT frees one that has completed; a group's
coordinator gathers posts and grants, the head gives ranks, members start in rank order, and a completed collective
has written its destination and CSTAT. It rests on the model’s choices of log 6, log 50, log 51. -/
def Obligations.CollectivesRunInRankOrder : Prop :=
  (∀ (s : State) (d x : Fin 32) (h : Fin 16) (imm : BitVec 14),
    let off := ((s.rs x).toNat + 64 * imm.toNat) % pageBytes (Handle.psize (s.hreg h)) / 64 * 64
    let at_ := Handle.place (s.hreg h) off
    let k : Block64 := .ofNat 512 (leVal (s.memBytes at_ 64))
    s.HandleAllowed h off false → ¬ s.Outstanding .pkg →
    (s.me.strict = false → ∃ t, exec (.cpost d h x imm) s = .next t ∧ Posted s t d k at_)
    ∧ (s.me.strict = true → ∃ t, exec (.cpost d h x imm) s = .next t.asks ∧ Issued s t
      { id := s.nextOp, ctx := s.cix, kinds := kLd, ctr := none, ranges := [], lock := []
        what := .post d ((List.range 64).map fun j => .place (.mem (at_ + j))) at_ }
      s.me.wait (lcBound (Handle.lc (s.hreg h))) .loadWriteback))
  ∧ (∀ (s : State) (core : Nat) (op : Op) (d : Fin 32) (src : List Src) (at_ : Nat),
    (s.core core).op op.id = some op → op.what = .post d src at_ →
    let k : Block64 := .ofNat 512 (leVal (src.map s.getSrc))
    ∃ u, Retired s u core op ∧ u.cur = core ∧ u.cix = op.ctx
      ∧ (u.ctx core op.ctx).regs = (s.ctx core op.ctx).regs
      ∧ (k.getLsbD 24 = true → exec (.loadWriteback core op.id) s =
          .next (u.checkDone 6 (some (.phaseEscape, .ofNat 64 (2 ^ 34)))))
      ∧ (k.getLsbD 24 = false → ∃ t, exec (.loadWriteback core op.id) s =
          .next ((t.modMe fun c => { c with sure := true }).checkDone 6 none) ∧ Posted u t d k at_))
  ∧ (∀ (s : State) (d r : Fin 32), let tag := (s.rs r).toNat
    (∀ e, tag < 2 ^ 40 → aget s.colTab (tag / 2 ^ 32) = some e → e.serial.toNat = tag % 2 ^ 32 →
      (e.stage = .done → ∃ t, exec (.cwait d r) s = .next t ∧ RegisterStep s { t with colTab := s.colTab } (sDest d) 1 0
        ∧ t.me.regs.rs d = (if d = 0 then 0 else match e.rank with
            | some n => if e.err = 0 then .ofNat 64 n else .ofNat 64 (2 ^ 64 - 1)
            | none => .ofNat 64 (2 ^ 64 - 1))
        ∧ EntryIs s t (tag / 2 ^ 32) none)
      ∧ (e.stage ≠ .done → s.me.snap = none →
        exec (.cwait d r) s = .next (s.modMe fun c => c.parkFor .other s.cycle)))
    ∧ ((tag < 2 ^ 40 → ∀ e, aget s.colTab (tag / 2 ^ 32) = some e → e.serial.toNat ≠ tag % 2 ^ 32) → s.me.snap = none →
      exec (.cwait d r) s = .next (s.takeTrap .illMod (layoutW s.me.word.1 s.me.word.2))))
  ∧ (∀ (s : State) (p : Post), p.members ≠ [] → p.pkg ∈ p.members →
    p.members.getD (blk p.desc 64 32 % p.members.length) 0 = s.pkg.toNat →
    let next (cs : List Coord) (c : Coord) (cs' : List Coord) : Prop :=
      ∃ t, exec (.collectivePostReceive p) s = .next t ∧ HubOnly s t
        ∧ (c.posts.length < c.members.length → t.coords = cs ∧ t.colTab = s.colTab ∧ t.agenda = s.agenda)
        ∧ (AllAgree c → t.coords = cs ∧ t.colTab = s.colTab
          ∧ ∀ r, c.members.Nodup → c.members[r]? = some s.pkg.toNat → Comes s t (.reservationGrant c.group c.gseq r))
        ∧ (c.members.length ≤ c.posts.length → ¬ AllAgree c → c ∉ cs' → t.coords = cs' ∧ ∀ n e, OwnPosted s c.group c.gseq n e →
          EntryIs s t n (some { e with err := 1, stage := .started }) ∧ Comes s t (.collectiveComplete n []))
    ((∀ c ∈ s.coords, ¬ Lacks c p) →
      let c : Coord := ⟨colGroup p.desc, colGseq p.desc, [p], []⟩
      next (s.coords ++ [c]) c s.coords)
    ∧ ∀ l c l', s.coords = l ++ c :: l' → Lacks c p → (∀ y ∈ l, ¬ Lacks y p) →
      let c' := { c with posts := c.posts ++ [p] }
      next (l ++ c' :: l') c' (l ++ l'))
  ∧ (∀ (s : State) (l : List Coord) (c : Coord) (l' : List Coord) (rank : Nat), s.coords = l ++ c :: l' → AllAgree c →
    rank < c.members.length → rank ∉ c.grants → (∀ y ∈ l, y ≠ c ∧ (y.group ≠ c.group ∨ y.gseq ≠ c.gseq)) →
    ∃ t, exec (.reservationGrant c.group c.gseq rank) s = .next t ∧ HubOnly s t
      ∧ (c.grants.length + 1 ≠ c.members.length → t.coords = l ++ { c with grants := c.grants ++ [rank] } :: l'
        ∧ t.colTab = s.colTab ∧ t.agenda = s.agenda)
      ∧ (c.grants.length + 1 = c.members.length → t.coords = l ++ l'
        ∧ ∀ n e, OwnPosted s c.group c.gseq n e → ∀ p ∈ c.posts,
          (p.desc.getLsbD 24 = true → EntryIs s t n (some { e with stage := .ticketed }) ∧ Comes s t (.collectiveStart n))
          ∧ (p.desc.getLsbD 24 = false → t.colTab = s.colTab ∧ ∀ v, s.vf e.vf = some v →
            if v.pkgs.head? = some s.pkg.toNat then Comes s t (.rankRequest c.group c.gseq) else t.agenda = s.agenda)))
  ∧ (∀ (s : State) (g q : BitVec 32),
    ((∃ x ∈ s.vfs, ∃ v, s.vf x.1 = some v ∧ v.pkgs.head? = some s.pkg.toNat) → ∃ t, exec (.rankRequest g q) s = .next t
      ∧ { t with headRank := s.headRank, agenda := s.agenda } = s ∧ t.headRank = (s.headRank + 1) % 2 ^ 64
      ∧ ∃ due, t.agenda = insertDue due (.startTicket g q s.headRank) s.agenda)
    ∧ ∀ rank,
      (∀ n e, OwnPosted s g q n e → ∃ t, exec (.startTicket g q rank) s = .next t ∧ HubOnly s t
        ∧ EntryIs s t n (some { e with stage := .ticketed, rank := some rank }) ∧ Comes s t (.collectiveStart n))
      ∧ ((∀ x ∈ s.colTab, ¬ (colGroup x.2.desc = g ∧ colGseq x.2.desc = q ∧ x.2.stage = .posted)) →
        exec (.startTicket g q rank) s = .next s))
  ∧ ∀ (s : State) (n : Nat) (e : CSlot), aget s.colTab n = some e →
    let before : Prop := ∃ x ∈ s.colTab, x.2.stage = .ticketed ∧ x.2.desc.getLsbD 24 = false
      ∧ (s.vf x.2.vf).map (·.part) = (s.vf e.vf).map (·.part) ∧ x.2.rank.getD 0 < e.rank.getD 0
    let unt := e.desc.getLsbD 24
    (e.stage = .ticketed → unt = false → before →
      exec (.collectiveStart n) s = .next (s.schedule (s.cycle + 1) (.collectiveStart n)))
    ∧ (e.stage = .ticketed ∧ (unt = true ∨ ¬ before) ∨ e.stage = .posted ∧ unt = true →
      ∃ t, exec (.collectiveStart n) s = .next t ∧ HubOnly s t ∧ EntryIs s t n (some { e with stage := .started })
        ∧ if e.members.length = 1 then Comes s t (.collectiveComplete n []) else t.agenda = s.agenda)
    ∧ ∀ others, s.canon = true →
      let stat := e.descAt + 56
      let ends (t : State) (err : Nat) : Prop := exec (.collectiveComplete n others) s = .next t
        ∧ { t with colTab := s.colTab, mem := s.mem } = s
        ∧ EntryIs s t n (if e.orphan = true then none else some { e with stage := .done, err })
        ∧ (err ≠ 0 → Wrote s t (fun k => .mem (stat + k)) (leBytes 8 (3 + err * 2 ^ 16)))
      let z := colSize e.desc
      let len := colSrcN e.desc * z
      (e.stage = .started → e.err ≠ 0 → ∃ t, ends t e.err)
      ∧ (e.stage = .posted → others = [] → coordOf e.desc e.members ≠ s.pkg.toNat → ∃ t, ends t 1)
      ∧ (e.stage = .started → e.err = 0 → s.vplaces e.vf (blk e.desc 256 64) len = none → ∃ t, ends t 4)
      ∧ ∀ rank ps pd, e.stage = .started → e.err = 0 → DescriptorLegal e.desc → e.members.length = colM e.desc →
        e.members.Nodup → e.members[rank]? = some s.pkg.toNat → s.LiesAt e.vf (blk e.desc 256 64) len ps →
        s.LiesAt e.vf (blk e.desc 320 64) (colDstN e.desc * z) pd →
        (∀ r p, e.members[r]? = some p → r ≠ rank → ∃ b, others.lookup r = some b ∧ b.length = len) →
        (pd + colDstN e.desc * z ≤ stat ∨ stat + 8 ≤ pd) →
        let bytes (r : Nat) : List Byte := if r = rank then s.memBytes ps len else (others.lookup r).getD []
        let elem (r i : Nat) : Nat := leVal (((bytes r).drop (i * z)).take z)
        ∃ t, ends t 0 ∧ (∃ fl : Flags, t.mem64 stat = .ofNat 64 (1 + fl.toNat * 2 ^ 8)
            ∧ (colType e.desc ≥ 2 ∨ fmtFloat (colFmt e.desc) = false → fl = 0))
          ∧ (∀ i, i < colDstN e.desc → ∃ v, Gives e.desc rank elem i v
            ∧ leVal (t.memBytes (pd + i * z) z) = v % 2 ^ (8 * z))
          ∧ ∀ a, ¬ (pd ≤ a ∧ a < pd + colDstN e.desc * z ∨ stat ≤ a ∧ a < stat + 8) → cget t.mem a = cget s.mem a

/-! ### The packet fabric, power and reset -/

/-- R21, R23, R33, R34, R65, R218 to R227, R266 to R269, R307: a router forwards or holds its packets, flit by flit, takes in what
its endpoints offer while their sources have space for the replies, and moves the sink lane; the spoon drains a blocked
one through the sink lane; these events come in every cycle in which a router has something to do; a failed router, link
or block asks the tasks of the partitions it serves and resets those and no other; limiters, a package reset, the sideband record, and what the
service firmware sets. That a packet is forwarded is stated for a router that holds one.
It rests on the model’s choices of log 24, log 27, log 28, log 71, log 72, log 74, log 75, log 77, log 102, log 104,
log 108, log 114. -/
def Obligations.FabricAndPowerEventsAct : Prop :=
  (∀ (s : State) (r : Nat), Works s r → let x := s.router r
    let home : Nat := if r = 512 then 16 else 5
    let calm : RState := if x.st = .armed then .normal else x.st
    let leads (p : State → Prop) : Prop := ∃ t, exec (.packetRoute r) s = .next t ∧ p t
    let still (y : Router) : Prop := leads fun t => Routed s t r ∧ t.router r = y
    let crosses (p : Nat) (pk : Packet) : List (Nat × Nat) := [(p, s.cycle + 1 + pk.data.val)]
    leads (RoutersOnly s)
    ∧ (Still s r →
      (x.inbufs = [] → x.sink = [] → still { x with timer := 0 })
      ∧ (∀ b pk, x.inbufs = [(b, pk)] → x.sink = [] →
        let gone (p : Nat) : Router := { x with inbufs := [], timer := 0, st := calm, busy := crosses p pk }
        (pk.suspect = true ∨ r ∉ s.attached pk.dst ∧ (∀ p, Nearer s r pk.dst p → s.outOpen r p = true ∧ s.freeBufs r p = 0) →
          still { x with timer := x.timer + 1 })
        ∧ (pk.suspect = false → r ∈ s.attached pk.dst → leads fun t => Delivered s t r pk (gone home))
        ∧ ∀ p n q, pk.suspect = false → r ∉ s.attached pk.dst → TakesPort s r pk.dst p → neighbour r p = some (n, q) → n ≠ r →
          leads fun t => { t with routers := s.routers, links := s.links } = s ∧ LinksAfter s t r ∧ t.router r = gone p
            ∧ (∀ k, k ≠ r → k ≠ n → t.router k = s.router k)
            ∧ { t.router n with inbufs := (s.router n).inbufs } = s.router n
            ∧ ∃ k, k < 2 ∧ ((q, k), pk) ∈ (t.router n).inbufs
              ∧ ∀ y, y ≠ ((q, k), pk) → (y ∈ (t.router n).inbufs ↔ y ∈ (s.router n).inbufs))
      ∧ ∀ p pk, x.inbufs = [] → x.sink = [(p, pk)] →
        let gone : Router := { x with sink := [], timer := 0, st := calm, busy := crosses p pk }
        (r = s.sinkEnd r pk.dst → leads fun t => Delivered s t r pk gone)
        ∧ ∀ n q, r ≠ s.sinkEnd r pk.dst → neighbour r p = some (n, q) → n ≠ r →
          let out := s.sinkPort n pk.dst
          ((∃ y ∈ (s.router n).sink, y.1 = out) → still { x with timer := x.timer + 1 })
          ∧ ((∀ y ∈ (s.router n).sink, y.1 ≠ out) → leads fun t =>
            { t with routers := s.routers, links := s.links } = s ∧ LinksAfter s t r ∧ t.router r = gone
            ∧ t.router n = { s.router n with sink := (s.router n).sink ++ [(out, pk)] }
            ∧ ∀ k, k ≠ r → k ≠ n → t.router k = s.router k))
    ∧ (∀ b, x.inbufs = [] → x.sink = [] → b ∈ x.busy → s.cycle < b.2 → (∀ o ∈ s.offers, o.1 ≠ r) →
      still { x with timer := 0, st := calm })
    ∧ (x.inbufs = [] → x.sink = [] → (∀ b ∈ x.busy, b.2 ≤ s.cycle) →
      (∀ l pk l', s.offers = l ++ (r, pk) :: l' → (∀ o ∈ l, o.1 ≠ r) → s.attached pk.dst ≠ [] → pk.reply = none ∨ HasSpace s pk →
        leads fun t => RoutersOnly s t ∧ LinksAfter s t r ∧ t.offers = l ++ l'
          ∧ t.awaited = (if pk.reply = none then s.awaited else s.awaited ++ [pk]) ∧ (∀ k, k ≠ r → t.router k = s.router k)
          ∧ t.router r = { x with inbufs := [((home, 0), { pk with suspect := false })], timer := x.timer + 1 })
      ∧ ((∀ o ∈ s.offers, o.1 = r → o.2.reply ≠ none ∧ ¬ HasSpace s o.2) → still { x with timer := 0 }))
    ∧ (x.st = .normal → s.blkt.toNat ≤ x.timer → ∃ t, exec (.routerArmed r) s = .next t ∧ RouterOnly s t r ∧ t.spoon = s.spoon
      ∧ t.router r = { x with st := .armed })
    ∧ (x.st = .armed → s.spoon = none → ∃ t, exec (.spoonCapture r) s = .next t ∧ RouterOnly s t r ∧ t.spoon = some r
      ∧ t.router r = { x with st := .draining, moved := []
                              inbufs := x.inbufs.map fun b => (b.1, { b.2 with suspect := true }) })
    ∧ (∀ l b l', x.inbufs = l ++ b :: l' → s.spoon = some r → x.st = .draining →
      let port (y : (Nat × Nat) × Packet) : Nat := s.sinkPort r y.2.dst
      let place (y : (Nat × Nat) × Packet) : Nat := if r = 512 then y.1.1 else [0, 2, 1, 3, 5, 4].getD y.1.1 6
      let ready (y : (Nat × Nat) × Packet) : Prop := y.2.suspect = true ∧ ∀ z ∈ x.sink, z.1 ≠ port y
      ready b → place b ≤ 16 → (∀ y ∈ l, ready y → place b < place y) → (∀ y ∈ l', ready y → place b ≤ place y) →
      (x.sunk = some s.cycle → exec (.sinkLaneMove r) s = .next s)
      ∧ (x.sunk ≠ some s.cycle → ∃ t, exec (.sinkLaneMove r) s = .next t ∧ RouterOnly s t r ∧ t.spoon = s.spoon
        ∧ t.router r = { x with inbufs := x.inbufs.filter fun y => y.1 != b.1, sink := x.sink ++ [(port b, b.2)]
                                moved := x.moved ++ [b.2.id], sunk := some s.cycle }))
    ∧ (s.spoon = some r → x.st = .draining → (∀ b ∈ x.inbufs, b.2.suspect = false) →
      (∀ k ∈ s.routers, ∀ z ∈ k.2.sink, z.2.id ∉ x.moved) →
      ∃ t, exec (.spoonReturn r) s = .next t ∧ RouterOnly s t r ∧ t.spoon = none
        ∧ t.router r = { x with st := .normal, timer := 0, moved := [] }))
  ∧ (∀ s : State, (s.vfs.map (·.1)).Nodup →
    (∀ r, Works s r → ∃ t, exec (.routerError r) s = .next t
      ∧ ResetAsked s t (Hit s fun v => s.routerServes v r = true)
      ∧ (r < 512 → t.harvested = s.harvested ++ [r] ∧ (t.router r).inbufs = [] ∧ (t.router r).sink = []))
    ∧ (∀ l, l < 16 → (s.link l).working = true → Works s (linkRouter l) →
      (∀ toHub, let at_ : Nat × Nat := if toHub = true then (linkRouter l, 4) else (512, l)
        ∃ t, exec (.linkRetry (if toHub = true then .toHub l else .fromHub l)) s = .next t
        ∧ { t with links := s.links, routers := s.routers } = s
        ∧ (t.link l = if toHub = true then { s.link l with up := min 16 ((s.link l).up + 1), upAt := some s.cycle }
          else { s.link l with down := min 16 ((s.link l).down + 1), downAt := some s.cycle })
        ∧ (∀ k, k ≠ l → t.link k = s.link k) ∧ (∀ k, k ≠ at_.1 → t.router k = s.router k)
        ∧ t.router at_.1 = { s.router at_.1 with busy := (s.router at_.1).busy.map fun b =>
            if b.1 = at_.2 ∧ s.cycle < b.2 then (at_.2, b.2 + 1) else b })
      ∧ ((s.link l).up = 16 ∨ (s.link l).down = 16 → ∃ t, exec (.linkFailure l) s = .next t
        ∧ ResetAsked s t (Hit s fun v => s.dieServes v (l / 4) = true) ∧ (t.link l).working = false
        ∧ ∀ k, k ≠ l → t.link k = s.link k))
    ∧ (∀ b, b < 23 → ∃ t, exec (.powerLimitFailure b) s = .next t
      ∧ ResetAsked s t (Hit s fun v => s.blockServes v b = true) ∧ t.harvested = s.harvested ∧ t.routers = s.routers)
    ∧ ∀ n l, s.resets = [(n, l)] → (s.cycle < n → s.endResets = s)
      ∧ (n ≤ s.cycle → l.Nodup → (∀ m ∈ l, m < 64) → s.endResets.resets = [] ∧ ResetOf s s.endResets (· ∈ l)))
  ∧ (∀ (s : State) (b : Nat),
    (b < 23 → b ∉ s.hot → exec (.thermalLimit b) s = .next { s with hot := s.hot ++ [b] })
    ∧ (b ∈ s.hot → exec (.blockCooled b) s = .next { s with hot := s.hot.filter fun x => decide (x ≠ b) })
    ∧ (b < 23 → ∃ t, exec (.powerCeilingLimiting b) s = .next t ∧ { t with limited := s.limited } = s
      ∧ ∀ x, x ∈ t.limited ↔ x = b ∨ x ∈ s.limited))
  ∧ (∀ s : State,
    (∀ core, core / 96 ∉ s.limited → core / 96 ∉ s.hot → s.withheld core = false)
    ∧ (s.spoon = none → s.limited = [] → s.hot = [] → s.postpone = s)
    ∧ { s.postpone with agenda := s.agenda } = s
    ∧ (∀ e ∈ s.agenda, e ∈ s.postpone.agenda ∨ e.1 ≤ s.cycle ∧ (s.cycle + 1, e.2) ∈ s.postpone.agenda)
    ∧ let t := s.endCycle
      t.cycle = s.cycle + 1 ∧ (256 ≤ s.blkt.toNat → 256 ≤ t.blkt.toNat)
      ∧ ((∀ x ∈ s.blkts, t.cycle < x.1) → t.blkt = s.blkt ∧ t.blkts = s.blkts)
      ∧ (∀ n v, s.blkts = [(n, v)] → n ≤ t.cycle → t.blkt.toNat = max 256 v.toNat ∧ t.blkts = [])
      ∧ (∀ y ∈ t.routers, y.2.inbufs ≠ [] ∨ y.2.sink ≠ [] ∨ (∃ b ∈ y.2.busy, t.cycle ≤ b.2) → (t.cycle, .packetRoute y.1) ∈ t.agenda)
      ∧ (∀ o ∈ t.offers, (t.cycle, .packetRoute o.1) ∈ t.agenda)
      ∧ ∀ y ∈ t.routers,
        (y.2.st = .normal → t.blkt.toNat ≤ y.2.timer → (t.cycle, .routerArmed y.1) ∈ t.agenda)
        ∧ (y.2.st = .armed → t.spoon = none → (∀ e ∈ s.agenda, e.2 ≠ .spoonCapture y.1) →
          ∃ d, d < t.cycle + 200 ∧ (d, .spoonCapture y.1) ∈ t.agenda)
        ∧ (y.2.st = .draining → (t.cycle, .sinkLaneMove y.1) ∈ t.agenda ∧ (t.cycle, .spoonReturn y.1) ∈ t.agenda))
  ∧ (∀ (s : State) (f : Firmware), s.strands = [f] → f.core % 96 = 84 → (s.ctx f.core 3).vf = 64 → (s.ctx f.core 3).frozen = true →
    let t := s.startStrands
    { t with cores := s.cores, mem := s.mem, vfs := s.vfs, strands := s.strands } = s ∧ t.strands = []
    ∧ (∀ k, k ≠ f.core → t.core k = s.core k) ∧ { t.core f.core with ctxs := (s.core f.core).ctxs } = s.core f.core
    ∧ (∀ j, j ≠ 3 → t.ctx f.core j = s.ctx f.core j)
    ∧ t.ctx f.core 3 = { s.ctx f.core 3 with
        pc := .ofNat 64 (f.pc.toNat / 4 * 4), frozen := false, lastIssue := s.cycle, safeAt := s.cycle }
    ∧ t.vf 64 = (s.vf 64).map (fun v => { v with ptroot := f.root, homet := f.homes }) ∧ (∀ n, n ≠ 64 → t.vf n = s.vf n)
    ∧ t.mem = f.bytes.foldl (fun m x => csetN m x.1 x.2) s.mem)
  ∧ ∀ s : State,
    (∀ disabled harvested, HarvestLegal disabled harvested →
      let ok := Config.bootVerifies s.boots
      exec (.packageReset disabled harvested) s = .next { (if ok = true then State.reset else {}) with
        pkg := s.pkg, disabled, harvested, delays := s.delays, places := s.places, images := s.images, frames := s.frames
        strands := s.strands, blkts := s.blkts, hot := s.hot, mem := s.mem.filter fun c => decide (2 ^ 52 ≤ c.1), hostMem := s.hostMem
        hostReplies := s.hostReplies, up := ok, boots := s.boots + 1, sideband := { booted := ok } })
    ∧ ∀ draws temps, draws.length = 6 → temps.length = 23 →
      ((∀ k d, draws[k]? = some d → d ≤ [4600, 360, 1140, 520, 380, 500].getD k 0) → exec (.sidebandRefresh draws temps) s
        = .next { s with sideband := { s.sideband with part := "LNT9-B1536", serial := Config.serialNumber, draws, temps } })
      ∧ ((∃ k d, draws[k]? = some d ∧ [4600, 360, 1140, 520, 380, 500].getD k 0 < d) →
        exec (.sidebandRefresh draws temps) s = .next s)

/-! ### The step, the encoding, the invariant and reset -/

/-- R10, R61 to R63, R246, R326 to R332: what the model's step does (the order of events and cores is the model's, log 4
and log 5). An event that is due is executed. A bundle of one word at the program counter is that word, decoded; where it
may issue and no other context of its core has a task, the step is exec of it at the state in which it issues (the
array's events of the cycle come before its holder's bundle, log 5 and log 68), and then the bundle's end. Of several
contexts that are ready the step issues the bundle of the highest effective class, by round-robin, and with it that of the
first other context that may merge with it; in a merged cycle loads read before stores perform. -/
def Obligations.StepRunsTheDecodedInstruction : Prop :=
  (∀ (s : State) (due : Nat) (e : Instr) (l : List (Nat × Instr)), s.agenda = (due, e) :: l → due ≤ s.cycle →
    step s = exec e { s with agenda := l })
  ∧ (∀ (c : Ctx) (pkt : List Code) (w : Code) (i : Instr), pkt[wordIx c.pc]? = some w → w.getLsbD 31 = true →
    (∀ v, pkt[wordIx c.pc + 1]? = some v → v.getLsbD 31 = true ∨ ∀ y ∈ pkt.drop (wordIx c.pc + 1), y = 0) →
    decodeWord none w = .ok i → ((Instr.writes c.nl i).filterMap dupKey).Nodup →
    (∀ p d, i = .lnext p d → c.lnextBad d = false) → c.delay = none →
    c.decodeBundle pkt = .ok [⟨⟨0, w, i⟩, 0⟩])
  ∧ (∀ (s : State) (core : Nat) (rest : List Nat) (ix : Fin 4) (pkt : List Code) (b : Slot),
    let at_ : State := { s with todo := rest, cur := core, cix := ix }
    let now : State := at_.nowFor
    let c := now.me
    (∀ e ∈ s.agenda, s.cycle < e.1) → s.todo = core :: rest → s.coreMove core = none → s.withheld core = false →
    (∀ j, j ≠ ix → (s.ctx core j).task = false) → (s.ctx core ix).replay = false →
    c.between s.cycle = true → c.landFp = none → c.landBar = [] → c.badFetch = none →
    c.packet = some (packetOf c.pc, pkt) → c.pc.toNat % 4 = 0 → (pkt.getD (wordIx c.pc) 0).getLsbD 31 = true →
    c.decodeBundle pkt = .ok [⟨b, 0⟩] → c.treeLocked s.cycle [⟨b, 0⟩] = false → now.free [⟨b, 0⟩] = true →
    now.judgeWord b = .go →
    let cls : Nat := if c.lastIssue + 4096 ≤ s.cycle then 3 else s.effClass core ix
    let v : State := (at_.modCore core fun k => { k with rr := k.rr.set (Fin.ofNat 4 cls) ix }).modCtx core ix
      fun c => { c with lastIssue := s.cycle, aged := false, park := none }
    let found := v.takeUndo
    let go : State := v.nowSeen
    go.me.wait = .none → go.me.checks = [] →
    let u : State := State.modMe { go.modMe fun c => { c with
        snap := some { c.regs with fpflg := found.fpflg }
        undo := if Instr.checked b.instr v.me.strict = true then some found else none
        entry := some found, prior := c.last } with
      cur := core, cix := ix } fun c => { c with word := (b.ix, b.code) }
    ((s.core core).arr.owner ≠ some ix → go = v.modMe fun c => { c with landed := 0 })
    ∧ step s = match exec b.instr u with
      | .next t => .next ({ t with cur := core, cix := ix } : State).closeBundle.keepLast
      | r => r)
  ∧ (∀ (s : State) (core : Nat) (rest : List Nat), let at_ : State := { s with todo := rest }
    let look (j : Fin 4) : Look := at_.look core j
    let m : State := [0, 1, 2, 3].foldl (fun t j => t.mark core j (look j)) at_
    let ready : List (Fin 4) := [0, 1, 2, 3].filter fun j => (look j).ready
    (∀ e ∈ s.agenda, s.cycle < e.1) → s.todo = core :: rest → s.coreMove core = none → s.withheld core = false →
    (∀ j, (s.ctx core j).replay = false) →
    (ready = [] → step s = .next m)
    ∧ ∀ p k, primaryOf (s.core core).rr (m.effClass core) ready = some (p, k) →
      step s = (m.modCore core fun c => { c with rr := c.rr.set k p }).issueAll core (p, look p)
        ((secondOf p fun y => mergeOk (s.core core).entriesUsed (look p) (look y)).map fun y => (y, look y)))
  ∧ (∀ (rr : Vector (Fin 4) 4) (cls : Fin 4 → Nat) (ready : List (Fin 4)) (p k : Fin 4), (∀ j, cls j ≤ 3) →
    (primaryOf rr cls ready = some (p, k) ↔ p ∈ ready ∧ cls p = k.val ∧ (∀ j ∈ ready, cls j ≤ cls p)
      ∧ ∀ j ∈ ready, cls j = cls p → (p - rr[k] - 1).val ≤ (j - rr[k] - 1).val))
  ∧ (∀ (p q : Fin 4) (ok : Fin 4 → Bool), secondOf p ok = some q ↔ q ≠ p ∧ ok q = true
    ∧ ∀ j, j ≠ p → ok j = true → (q - p).val ≤ (j - p).val)
  ∧ (∀ (n : Nat) (a b : Look), mergeOk n a b = true ↔ ∃ x wa la y wb lb, a = .bundle x wa la ∧ b = .bundle y wb lb
    ∧ (∀ w ∈ wa, ∀ z ∈ wb, classOf w.slot.code ≠ classOf z.slot.code) ∧ (∀ w ∈ wa ++ wb, Instr.isFence w.slot.instr = false)
    ∧ (∀ z ∈ wb, classOf z.slot.code ≠ 4) ∧ n + entriesOf la + entriesOf lb ≤ 16)
  ∧ ∀ (s : State) (core : Nat) (l : List (Fin 4 × Slot)),
    let loads (x : Fin 4 × Slot) : Prop := match x.2.instr with
      | .ld .. | .ldv .. | .ldt .. | .ldtx .. => True
      | _ => False
    let stores (x : Fin 4 × Slot) : Prop := match x.2.instr with
      | .st .. | .stv .. | .stt .. => True
      | _ => False
    (∀ x ∈ l, State.farFe { s with cur := core, cix := x.1 } x.2.instr = false ∧ Instr.isWait x.2.instr = false
      ∧ (loads x → classOf x.2.code = 2)) →
    (s.ordered core l).Perm l ∧ (s.ordered core l).Pairwise fun x y => stores x → ¬ loads y

/-- R326, R331, R336 to R349: every instruction that a word encodes is what its own word decodes to, in a class of
1 to 6 and with S clear; a word that decodes is the word of its instruction, but for S; and what a word decodes to is
well formed. -/
def Obligations.DecodingInvertsEncoding : Prop :=
  (∀ i : Instr, i.isWord = true → i.wf = true → ∃ e, encode i = some e ∧ decodeWord e.ext e.word = .ok i
    ∧ e.word.getLsbD 31 = false ∧ 1 ≤ classOf e.word ∧ classOf e.word ≤ 6)
  ∧ (∀ i : Instr, i.isWord = false → encode i = none)
  ∧ ∀ (x : Ext) (w : Code) (i : Instr), decodeWord x w = .ok i → i.isWord = true ∧ i.wf = true
    ∧ ∃ e, encode i = some e ∧ e.word = w &&& 0x7FFFFFFF#32

/-- The model's form of memory (log 2): from any state whose memories are in canonical form, a step leads to one whose
memories are. -/
def Obligations.StepKeepsMemoriesCanonical : Prop :=
  ∀ s t : State, s.canon = true → step s = .next t → t.canon = true

/-- R70, R77, R222, R266, R267 and the model's choices of log 2, log 3 and log 75: the state after reset has memories in
canonical form, no function but the service firmware's and no task but the service firmware's on each die, and a task
starts with every register at its reset value. -/
def Obligations.ResetIsAsStated : Prop :=
  State.reset.canon = true ∧ State.reset.cycle = 0 ∧ State.reset.agenda = []
  ∧ (∀ n, State.reset.vf n ≠ none ↔ n = 64) ∧ State.reset.up = true
  ∧ State.reset.blkt = 2048 ∧ State.reset.spoon = none
  ∧ (∀ k i, (State.reset.ctx k i).task = true ↔ k < 384 ∧ k % 96 = 84 ∧ i = 3)
  ∧ (∀ k i, (State.reset.ctx k i).task = true → (State.reset.ctx k i).vf = 64)
  ∧ (∀ a, cget State.reset.mem a = 0) ∧ (∀ l, State.reset.getLoc l = 0)
  ∧ ∀ (s : State) (n i : Nat), let r := (s.freshCtx n i).regs
    (∀ k, r.rs k = 0) ∧ (∀ k, r.rp k = decide (k = 0)) ∧ (∀ k : Fin 8, r.b[k] = 0) ∧ (∀ k : Fin 32, r.v[k] = 0)
    ∧ (∀ k : Fin 8, r.m[k] = 0) ∧ (∀ k : Fin 16, r.t[k] = 0) ∧ (∀ k : Fin 16, Handle.valid r.h[k] = false)
    ∧ (∀ k : Fin 8, r.o[k] = 0) ∧ (∀ k : Fin 8, r.f[k].isOpen = false) ∧ (∀ k : Fin 8, r.q[k].isOpen = false)
    ∧ (∀ k : Fin 4, r.k[k] = {}) ∧ r.fpctl = 0 ∧ r.fpflg = 0 ∧ r.tvec = 0 ∧ r.epc = 0 ∧ r.ecause = 0 ∧ r.einfo = 0
    ∧ r.edelay = 0 ∧ r.cls = 0

/-- Words that the manual writes out (R216, R350, R353, R386, R411, R413, R425, R432) decode to their instructions. -/
def Obligations.WordsOfTheManualDecode : Prop :=
  decodeTableWord 32 0x90061100 = some (.add 3 1 2)
  ∧ decodeTableWord 32 0x910A63C0 = some (.div 5 6 7 true)
  ∧ decodeTableWord 32 0xA0426009 = some (.st 1 .i16 (.hnd 1 0 1))
  ∧ decodeTableWord 32 0xA280020C = some (.sqld (.scr 4 12))
  ∧ decodeTableWord 32 0xB3C221A6 = some (.vcmp 1 2 3 .f32 2 ⟨0, .dyn⟩)
  ∧ decodeTableWord 32 0xC2080200 = some (.macc 128 64)
  ∧ decodeTableWord 32 0xD2E22180 = some (.fadv 2 1 2 3)
  ∧ decodeTableWord 32 0xE000F83E = some (.wait false 0 31 0 31)
end

