-- ==== Sys2Proof/Laws/State.lean ====
section
/-! SUPPORT. The state record: every field after every update, and what a core, a context, a row or a die
reads as after a write. -/

namespace Sys2Proof.Machine

variable (s : State)

/-! ### Fields that an update leaves alone -/

@[simp] theorem State.setCore_cycle (n : Nat) (c : Core) : (s.setCore n c).cycle = s.cycle := rfl
@[simp] theorem State.setCore_pkg (n : Nat) (c : Core) : (s.setCore n c).pkg = s.pkg := rfl
@[simp] theorem State.setCore_cur (n : Nat) (c : Core) : (s.setCore n c).cur = s.cur := rfl
@[simp] theorem State.setCore_cix (n : Nat) (c : Core) : (s.setCore n c).cix = s.cix := rfl
@[simp] theorem State.setCore_todo (n : Nat) (c : Core) : (s.setCore n c).todo = s.todo := rfl
@[simp] theorem State.setCore_agenda (n : Nat) (c : Core) : (s.setCore n c).agenda = s.agenda := rfl
@[simp] theorem State.setCore_delays (n : Nat) (c : Core) : (s.setCore n c).delays = s.delays := rfl
@[simp] theorem State.setCore_places (n : Nat) (c : Core) : (s.setCore n c).places = s.places := rfl
@[simp] theorem State.setCore_images (n : Nat) (c : Core) : (s.setCore n c).images = s.images := rfl
@[simp] theorem State.setCore_frames (n : Nat) (c : Core) : (s.setCore n c).frames = s.frames := rfl
@[simp] theorem State.setCore_nextOp (n : Nat) (c : Core) : (s.setCore n c).nextOp = s.nextOp := rfl
@[simp] theorem State.setCore_rows (n : Nat) (c : Core) : (s.setCore n c).rows = s.rows := rfl
@[simp] theorem State.setCore_dies (n : Nat) (c : Core) : (s.setCore n c).dies = s.dies := rfl
@[simp] theorem State.setCore_bars (n : Nat) (c : Core) : (s.setCore n c).bars = s.bars := rfl
@[simp] theorem State.setCore_sleepers (n : Nat) (c : Core) : (s.setCore n c).sleepers = s.sleepers := rfl
@[simp] theorem State.setCore_vfs (n : Nat) (c : Core) : (s.setCore n c).vfs = s.vfs := rfl
@[simp] theorem State.setCore_mem (n : Nat) (c : Core) : (s.setCore n c).mem = s.mem := rfl
@[simp] theorem State.setCore_hostMem (n : Nat) (c : Core) : (s.setCore n c).hostMem = s.hostMem := rfl
@[simp] theorem State.setCore_disabled (n : Nat) (c : Core) : (s.setCore n c).disabled = s.disabled := rfl
@[simp] theorem State.setCore_harvested (n : Nat) (c : Core) : (s.setCore n c).harvested = s.harvested := rfl
@[simp] theorem State.setCore_routers (n : Nat) (c : Core) : (s.setCore n c).routers = s.routers := rfl
@[simp] theorem State.setCore_links (n : Nat) (c : Core) : (s.setCore n c).links = s.links := rfl
@[simp] theorem State.setCore_strands (n : Nat) (c : Core) : (s.setCore n c).strands = s.strands := rfl
@[simp] theorem State.setCore_offers (n : Nat) (c : Core) : (s.setCore n c).offers = s.offers := rfl
@[simp] theorem State.setCore_awaited (n : Nat) (c : Core) : (s.setCore n c).awaited = s.awaited := rfl
@[simp] theorem State.setCore_offered (n : Nat) (c : Core) : (s.setCore n c).offered = s.offered := rfl
@[simp] theorem State.setCore_nextPacket (n : Nat) (c : Core) : (s.setCore n c).nextPacket = s.nextPacket := rfl
@[simp] theorem State.setCore_spoon (n : Nat) (c : Core) : (s.setCore n c).spoon = s.spoon := rfl
@[simp] theorem State.setCore_blkt (n : Nat) (c : Core) : (s.setCore n c).blkt = s.blkt := rfl
@[simp] theorem State.setCore_blkts (n : Nat) (c : Core) : (s.setCore n c).blkts = s.blkts := rfl
@[simp] theorem State.setCore_resets (n : Nat) (c : Core) : (s.setCore n c).resets = s.resets := rfl
@[simp] theorem State.setCore_colTab (n : Nat) (c : Core) : (s.setCore n c).colTab = s.colTab := rfl
@[simp] theorem State.setCore_colSerial (n : Nat) (c : Core) : (s.setCore n c).colSerial = s.colSerial := rfl
@[simp] theorem State.setCore_coords (n : Nat) (c : Core) : (s.setCore n c).coords = s.coords := rfl
@[simp] theorem State.setCore_headRank (n : Nat) (c : Core) : (s.setCore n c).headRank = s.headRank := rfl
@[simp] theorem State.setCore_limited (n : Nat) (c : Core) : (s.setCore n c).limited = s.limited := rfl
@[simp] theorem State.setCore_hot (n : Nat) (c : Core) : (s.setCore n c).hot = s.hot := rfl
@[simp] theorem State.setCore_sideband (n : Nat) (c : Core) : (s.setCore n c).sideband = s.sideband := rfl
@[simp] theorem State.setCore_up (n : Nat) (c : Core) : (s.setCore n c).up = s.up := rfl
@[simp] theorem State.setCore_boots (n : Nat) (c : Core) : (s.setCore n c).boots = s.boots := rfl
@[simp] theorem State.setCore_hostReplies (n : Nat) (c : Core) : (s.setCore n c).hostReplies = s.hostReplies := rfl

@[simp] theorem State.modCore_cycle (n : Nat) (f : Core → Core) : (s.modCore n f).cycle = s.cycle := rfl
@[simp] theorem State.modCore_pkg (n : Nat) (f : Core → Core) : (s.modCore n f).pkg = s.pkg := rfl
@[simp] theorem State.modCore_cur (n : Nat) (f : Core → Core) : (s.modCore n f).cur = s.cur := rfl
@[simp] theorem State.modCore_cix (n : Nat) (f : Core → Core) : (s.modCore n f).cix = s.cix := rfl
@[simp] theorem State.modCore_todo (n : Nat) (f : Core → Core) : (s.modCore n f).todo = s.todo := rfl
@[simp] theorem State.modCore_agenda (n : Nat) (f : Core → Core) : (s.modCore n f).agenda = s.agenda := rfl
@[simp] theorem State.modCore_delays (n : Nat) (f : Core → Core) : (s.modCore n f).delays = s.delays := rfl
@[simp] theorem State.modCore_places (n : Nat) (f : Core → Core) : (s.modCore n f).places = s.places := rfl
@[simp] theorem State.modCore_images (n : Nat) (f : Core → Core) : (s.modCore n f).images = s.images := rfl
@[simp] theorem State.modCore_frames (n : Nat) (f : Core → Core) : (s.modCore n f).frames = s.frames := rfl
@[simp] theorem State.modCore_nextOp (n : Nat) (f : Core → Core) : (s.modCore n f).nextOp = s.nextOp := rfl
@[simp] theorem State.modCore_rows (n : Nat) (f : Core → Core) : (s.modCore n f).rows = s.rows := rfl
@[simp] theorem State.modCore_dies (n : Nat) (f : Core → Core) : (s.modCore n f).dies = s.dies := rfl
@[simp] theorem State.modCore_bars (n : Nat) (f : Core → Core) : (s.modCore n f).bars = s.bars := rfl
@[simp] theorem State.modCore_sleepers (n : Nat) (f : Core → Core) : (s.modCore n f).sleepers = s.sleepers := rfl
@[simp] theorem State.modCore_vfs (n : Nat) (f : Core → Core) : (s.modCore n f).vfs = s.vfs := rfl
@[simp] theorem State.modCore_mem (n : Nat) (f : Core → Core) : (s.modCore n f).mem = s.mem := rfl
@[simp] theorem State.modCore_hostMem (n : Nat) (f : Core → Core) : (s.modCore n f).hostMem = s.hostMem := rfl
@[simp] theorem State.modCore_disabled (n : Nat) (f : Core → Core) : (s.modCore n f).disabled = s.disabled := rfl
@[simp] theorem State.modCore_harvested (n : Nat) (f : Core → Core) : (s.modCore n f).harvested = s.harvested := rfl
@[simp] theorem State.modCore_routers (n : Nat) (f : Core → Core) : (s.modCore n f).routers = s.routers := rfl
@[simp] theorem State.modCore_links (n : Nat) (f : Core → Core) : (s.modCore n f).links = s.links := rfl
@[simp] theorem State.modCore_strands (n : Nat) (f : Core → Core) : (s.modCore n f).strands = s.strands := rfl
@[simp] theorem State.modCore_offers (n : Nat) (f : Core → Core) : (s.modCore n f).offers = s.offers := rfl
@[simp] theorem State.modCore_awaited (n : Nat) (f : Core → Core) : (s.modCore n f).awaited = s.awaited := rfl
@[simp] theorem State.modCore_offered (n : Nat) (f : Core → Core) : (s.modCore n f).offered = s.offered := rfl
@[simp] theorem State.modCore_nextPacket (n : Nat) (f : Core → Core) : (s.modCore n f).nextPacket = s.nextPacket := rfl
@[simp] theorem State.modCore_spoon (n : Nat) (f : Core → Core) : (s.modCore n f).spoon = s.spoon := rfl
@[simp] theorem State.modCore_blkt (n : Nat) (f : Core → Core) : (s.modCore n f).blkt = s.blkt := rfl
@[simp] theorem State.modCore_blkts (n : Nat) (f : Core → Core) : (s.modCore n f).blkts = s.blkts := rfl
@[simp] theorem State.modCore_resets (n : Nat) (f : Core → Core) : (s.modCore n f).resets = s.resets := rfl
@[simp] theorem State.modCore_colTab (n : Nat) (f : Core → Core) : (s.modCore n f).colTab = s.colTab := rfl
@[simp] theorem State.modCore_colSerial (n : Nat) (f : Core → Core) : (s.modCore n f).colSerial = s.colSerial := rfl
@[simp] theorem State.modCore_coords (n : Nat) (f : Core → Core) : (s.modCore n f).coords = s.coords := rfl
@[simp] theorem State.modCore_headRank (n : Nat) (f : Core → Core) : (s.modCore n f).headRank = s.headRank := rfl
@[simp] theorem State.modCore_limited (n : Nat) (f : Core → Core) : (s.modCore n f).limited = s.limited := rfl
@[simp] theorem State.modCore_hot (n : Nat) (f : Core → Core) : (s.modCore n f).hot = s.hot := rfl
@[simp] theorem State.modCore_sideband (n : Nat) (f : Core → Core) : (s.modCore n f).sideband = s.sideband := rfl
@[simp] theorem State.modCore_up (n : Nat) (f : Core → Core) : (s.modCore n f).up = s.up := rfl
@[simp] theorem State.modCore_boots (n : Nat) (f : Core → Core) : (s.modCore n f).boots = s.boots := rfl
@[simp] theorem State.modCore_hostReplies (n : Nat) (f : Core → Core) : (s.modCore n f).hostReplies = s.hostReplies := rfl

@[simp] theorem State.modMyCore_cycle (f : Core → Core) : (s.modMyCore f).cycle = s.cycle := rfl
@[simp] theorem State.modMyCore_pkg (f : Core → Core) : (s.modMyCore f).pkg = s.pkg := rfl
@[simp] theorem State.modMyCore_cur (f : Core → Core) : (s.modMyCore f).cur = s.cur := rfl
@[simp] theorem State.modMyCore_cix (f : Core → Core) : (s.modMyCore f).cix = s.cix := rfl
@[simp] theorem State.modMyCore_todo (f : Core → Core) : (s.modMyCore f).todo = s.todo := rfl
@[simp] theorem State.modMyCore_agenda (f : Core → Core) : (s.modMyCore f).agenda = s.agenda := rfl
@[simp] theorem State.modMyCore_delays (f : Core → Core) : (s.modMyCore f).delays = s.delays := rfl
@[simp] theorem State.modMyCore_places (f : Core → Core) : (s.modMyCore f).places = s.places := rfl
@[simp] theorem State.modMyCore_images (f : Core → Core) : (s.modMyCore f).images = s.images := rfl
@[simp] theorem State.modMyCore_frames (f : Core → Core) : (s.modMyCore f).frames = s.frames := rfl
@[simp] theorem State.modMyCore_nextOp (f : Core → Core) : (s.modMyCore f).nextOp = s.nextOp := rfl
@[simp] theorem State.modMyCore_rows (f : Core → Core) : (s.modMyCore f).rows = s.rows := rfl
@[simp] theorem State.modMyCore_dies (f : Core → Core) : (s.modMyCore f).dies = s.dies := rfl
@[simp] theorem State.modMyCore_bars (f : Core → Core) : (s.modMyCore f).bars = s.bars := rfl
@[simp] theorem State.modMyCore_sleepers (f : Core → Core) : (s.modMyCore f).sleepers = s.sleepers := rfl
@[simp] theorem State.modMyCore_vfs (f : Core → Core) : (s.modMyCore f).vfs = s.vfs := rfl
@[simp] theorem State.modMyCore_mem (f : Core → Core) : (s.modMyCore f).mem = s.mem := rfl
@[simp] theorem State.modMyCore_hostMem (f : Core → Core) : (s.modMyCore f).hostMem = s.hostMem := rfl
@[simp] theorem State.modMyCore_disabled (f : Core → Core) : (s.modMyCore f).disabled = s.disabled := rfl
@[simp] theorem State.modMyCore_harvested (f : Core → Core) : (s.modMyCore f).harvested = s.harvested := rfl
@[simp] theorem State.modMyCore_routers (f : Core → Core) : (s.modMyCore f).routers = s.routers := rfl
@[simp] theorem State.modMyCore_links (f : Core → Core) : (s.modMyCore f).links = s.links := rfl
@[simp] theorem State.modMyCore_strands (f : Core → Core) : (s.modMyCore f).strands = s.strands := rfl
@[simp] theorem State.modMyCore_offers (f : Core → Core) : (s.modMyCore f).offers = s.offers := rfl
@[simp] theorem State.modMyCore_awaited (f : Core → Core) : (s.modMyCore f).awaited = s.awaited := rfl
@[simp] theorem State.modMyCore_offered (f : Core → Core) : (s.modMyCore f).offered = s.offered := rfl
@[simp] theorem State.modMyCore_nextPacket (f : Core → Core) : (s.modMyCore f).nextPacket = s.nextPacket := rfl
@[simp] theorem State.modMyCore_spoon (f : Core → Core) : (s.modMyCore f).spoon = s.spoon := rfl
@[simp] theorem State.modMyCore_blkt (f : Core → Core) : (s.modMyCore f).blkt = s.blkt := rfl
@[simp] theorem State.modMyCore_blkts (f : Core → Core) : (s.modMyCore f).blkts = s.blkts := rfl
@[simp] theorem State.modMyCore_resets (f : Core → Core) : (s.modMyCore f).resets = s.resets := rfl
@[simp] theorem State.modMyCore_colTab (f : Core → Core) : (s.modMyCore f).colTab = s.colTab := rfl
@[simp] theorem State.modMyCore_colSerial (f : Core → Core) : (s.modMyCore f).colSerial = s.colSerial := rfl
@[simp] theorem State.modMyCore_coords (f : Core → Core) : (s.modMyCore f).coords = s.coords := rfl
@[simp] theorem State.modMyCore_headRank (f : Core → Core) : (s.modMyCore f).headRank = s.headRank := rfl
@[simp] theorem State.modMyCore_limited (f : Core → Core) : (s.modMyCore f).limited = s.limited := rfl
@[simp] theorem State.modMyCore_hot (f : Core → Core) : (s.modMyCore f).hot = s.hot := rfl
@[simp] theorem State.modMyCore_sideband (f : Core → Core) : (s.modMyCore f).sideband = s.sideband := rfl
@[simp] theorem State.modMyCore_up (f : Core → Core) : (s.modMyCore f).up = s.up := rfl
@[simp] theorem State.modMyCore_boots (f : Core → Core) : (s.modMyCore f).boots = s.boots := rfl
@[simp] theorem State.modMyCore_hostReplies (f : Core → Core) : (s.modMyCore f).hostReplies = s.hostReplies := rfl

@[simp] theorem State.modCtx_cycle (n : Nat) (i : Fin 4) (f : Ctx → Ctx) : (s.modCtx n i f).cycle = s.cycle := rfl
@[simp] theorem State.modCtx_pkg (n : Nat) (i : Fin 4) (f : Ctx → Ctx) : (s.modCtx n i f).pkg = s.pkg := rfl
@[simp] theorem State.modCtx_cur (n : Nat) (i : Fin 4) (f : Ctx → Ctx) : (s.modCtx n i f).cur = s.cur := rfl
@[simp] theorem State.modCtx_cix (n : Nat) (i : Fin 4) (f : Ctx → Ctx) : (s.modCtx n i f).cix = s.cix := rfl
@[simp] theorem State.modCtx_todo (n : Nat) (i : Fin 4) (f : Ctx → Ctx) : (s.modCtx n i f).todo = s.todo := rfl
@[simp] theorem State.modCtx_agenda (n : Nat) (i : Fin 4) (f : Ctx → Ctx) : (s.modCtx n i f).agenda = s.agenda := rfl
@[simp] theorem State.modCtx_delays (n : Nat) (i : Fin 4) (f : Ctx → Ctx) : (s.modCtx n i f).delays = s.delays := rfl
@[simp] theorem State.modCtx_places (n : Nat) (i : Fin 4) (f : Ctx → Ctx) : (s.modCtx n i f).places = s.places := rfl
@[simp] theorem State.modCtx_images (n : Nat) (i : Fin 4) (f : Ctx → Ctx) : (s.modCtx n i f).images = s.images := rfl
@[simp] theorem State.modCtx_frames (n : Nat) (i : Fin 4) (f : Ctx → Ctx) : (s.modCtx n i f).frames = s.frames := rfl
@[simp] theorem State.modCtx_nextOp (n : Nat) (i : Fin 4) (f : Ctx → Ctx) : (s.modCtx n i f).nextOp = s.nextOp := rfl
@[simp] theorem State.modCtx_rows (n : Nat) (i : Fin 4) (f : Ctx → Ctx) : (s.modCtx n i f).rows = s.rows := rfl
@[simp] theorem State.modCtx_dies (n : Nat) (i : Fin 4) (f : Ctx → Ctx) : (s.modCtx n i f).dies = s.dies := rfl
@[simp] theorem State.modCtx_bars (n : Nat) (i : Fin 4) (f : Ctx → Ctx) : (s.modCtx n i f).bars = s.bars := rfl
@[simp] theorem State.modCtx_sleepers (n : Nat) (i : Fin 4) (f : Ctx → Ctx) : (s.modCtx n i f).sleepers = s.sleepers := rfl
@[simp] theorem State.modCtx_vfs (n : Nat) (i : Fin 4) (f : Ctx → Ctx) : (s.modCtx n i f).vfs = s.vfs := rfl
@[simp] theorem State.modCtx_mem (n : Nat) (i : Fin 4) (f : Ctx → Ctx) : (s.modCtx n i f).mem = s.mem := rfl
@[simp] theorem State.modCtx_hostMem (n : Nat) (i : Fin 4) (f : Ctx → Ctx) : (s.modCtx n i f).hostMem = s.hostMem := rfl
@[simp] theorem State.modCtx_disabled (n : Nat) (i : Fin 4) (f : Ctx → Ctx) : (s.modCtx n i f).disabled = s.disabled := rfl
@[simp] theorem State.modCtx_harvested (n : Nat) (i : Fin 4) (f : Ctx → Ctx) : (s.modCtx n i f).harvested = s.harvested := rfl
@[simp] theorem State.modCtx_routers (n : Nat) (i : Fin 4) (f : Ctx → Ctx) : (s.modCtx n i f).routers = s.routers := rfl
@[simp] theorem State.modCtx_links (n : Nat) (i : Fin 4) (f : Ctx → Ctx) : (s.modCtx n i f).links = s.links := rfl
@[simp] theorem State.modCtx_strands (n : Nat) (i : Fin 4) (f : Ctx → Ctx) : (s.modCtx n i f).strands = s.strands := rfl
@[simp] theorem State.modCtx_offers (n : Nat) (i : Fin 4) (f : Ctx → Ctx) : (s.modCtx n i f).offers = s.offers := rfl
@[simp] theorem State.modCtx_awaited (n : Nat) (i : Fin 4) (f : Ctx → Ctx) : (s.modCtx n i f).awaited = s.awaited := rfl
@[simp] theorem State.modCtx_offered (n : Nat) (i : Fin 4) (f : Ctx → Ctx) : (s.modCtx n i f).offered = s.offered := rfl
@[simp] theorem State.modCtx_nextPacket (n : Nat) (i : Fin 4) (f : Ctx → Ctx) : (s.modCtx n i f).nextPacket = s.nextPacket := rfl
@[simp] theorem State.modCtx_spoon (n : Nat) (i : Fin 4) (f : Ctx → Ctx) : (s.modCtx n i f).spoon = s.spoon := rfl
@[simp] theorem State.modCtx_blkt (n : Nat) (i : Fin 4) (f : Ctx → Ctx) : (s.modCtx n i f).blkt = s.blkt := rfl
@[simp] theorem State.modCtx_blkts (n : Nat) (i : Fin 4) (f : Ctx → Ctx) : (s.modCtx n i f).blkts = s.blkts := rfl
@[simp] theorem State.modCtx_resets (n : Nat) (i : Fin 4) (f : Ctx → Ctx) : (s.modCtx n i f).resets = s.resets := rfl
@[simp] theorem State.modCtx_colTab (n : Nat) (i : Fin 4) (f : Ctx → Ctx) : (s.modCtx n i f).colTab = s.colTab := rfl
@[simp] theorem State.modCtx_colSerial (n : Nat) (i : Fin 4) (f : Ctx → Ctx) : (s.modCtx n i f).colSerial = s.colSerial := rfl
@[simp] theorem State.modCtx_coords (n : Nat) (i : Fin 4) (f : Ctx → Ctx) : (s.modCtx n i f).coords = s.coords := rfl
@[simp] theorem State.modCtx_headRank (n : Nat) (i : Fin 4) (f : Ctx → Ctx) : (s.modCtx n i f).headRank = s.headRank := rfl
@[simp] theorem State.modCtx_limited (n : Nat) (i : Fin 4) (f : Ctx → Ctx) : (s.modCtx n i f).limited = s.limited := rfl
@[simp] theorem State.modCtx_hot (n : Nat) (i : Fin 4) (f : Ctx → Ctx) : (s.modCtx n i f).hot = s.hot := rfl
@[simp] theorem State.modCtx_sideband (n : Nat) (i : Fin 4) (f : Ctx → Ctx) : (s.modCtx n i f).sideband = s.sideband := rfl
@[simp] theorem State.modCtx_up (n : Nat) (i : Fin 4) (f : Ctx → Ctx) : (s.modCtx n i f).up = s.up := rfl
@[simp] theorem State.modCtx_boots (n : Nat) (i : Fin 4) (f : Ctx → Ctx) : (s.modCtx n i f).boots = s.boots := rfl
@[simp] theorem State.modCtx_hostReplies (n : Nat) (i : Fin 4) (f : Ctx → Ctx) : (s.modCtx n i f).hostReplies = s.hostReplies := rfl

@[simp] theorem State.modMe_cycle (f : Ctx → Ctx) : (s.modMe f).cycle = s.cycle := rfl
@[simp] theorem State.modMe_pkg (f : Ctx → Ctx) : (s.modMe f).pkg = s.pkg := rfl
@[simp] theorem State.modMe_cur (f : Ctx → Ctx) : (s.modMe f).cur = s.cur := rfl
@[simp] theorem State.modMe_cix (f : Ctx → Ctx) : (s.modMe f).cix = s.cix := rfl
@[simp] theorem State.modMe_todo (f : Ctx → Ctx) : (s.modMe f).todo = s.todo := rfl
@[simp] theorem State.modMe_agenda (f : Ctx → Ctx) : (s.modMe f).agenda = s.agenda := rfl
@[simp] theorem State.modMe_delays (f : Ctx → Ctx) : (s.modMe f).delays = s.delays := rfl
@[simp] theorem State.modMe_places (f : Ctx → Ctx) : (s.modMe f).places = s.places := rfl
@[simp] theorem State.modMe_images (f : Ctx → Ctx) : (s.modMe f).images = s.images := rfl
@[simp] theorem State.modMe_frames (f : Ctx → Ctx) : (s.modMe f).frames = s.frames := rfl
@[simp] theorem State.modMe_nextOp (f : Ctx → Ctx) : (s.modMe f).nextOp = s.nextOp := rfl
@[simp] theorem State.modMe_rows (f : Ctx → Ctx) : (s.modMe f).rows = s.rows := rfl
@[simp] theorem State.modMe_dies (f : Ctx → Ctx) : (s.modMe f).dies = s.dies := rfl
@[simp] theorem State.modMe_bars (f : Ctx → Ctx) : (s.modMe f).bars = s.bars := rfl
@[simp] theorem State.modMe_sleepers (f : Ctx → Ctx) : (s.modMe f).sleepers = s.sleepers := rfl
@[simp] theorem State.modMe_vfs (f : Ctx → Ctx) : (s.modMe f).vfs = s.vfs := rfl
@[simp] theorem State.modMe_mem (f : Ctx → Ctx) : (s.modMe f).mem = s.mem := rfl
@[simp] theorem State.modMe_hostMem (f : Ctx → Ctx) : (s.modMe f).hostMem = s.hostMem := rfl
@[simp] theorem State.modMe_disabled (f : Ctx → Ctx) : (s.modMe f).disabled = s.disabled := rfl
@[simp] theorem State.modMe_harvested (f : Ctx → Ctx) : (s.modMe f).harvested = s.harvested := rfl
@[simp] theorem State.modMe_routers (f : Ctx → Ctx) : (s.modMe f).routers = s.routers := rfl
@[simp] theorem State.modMe_links (f : Ctx → Ctx) : (s.modMe f).links = s.links := rfl
@[simp] theorem State.modMe_strands (f : Ctx → Ctx) : (s.modMe f).strands = s.strands := rfl
@[simp] theorem State.modMe_offers (f : Ctx → Ctx) : (s.modMe f).offers = s.offers := rfl
@[simp] theorem State.modMe_awaited (f : Ctx → Ctx) : (s.modMe f).awaited = s.awaited := rfl
@[simp] theorem State.modMe_offered (f : Ctx → Ctx) : (s.modMe f).offered = s.offered := rfl
@[simp] theorem State.modMe_nextPacket (f : Ctx → Ctx) : (s.modMe f).nextPacket = s.nextPacket := rfl
@[simp] theorem State.modMe_spoon (f : Ctx → Ctx) : (s.modMe f).spoon = s.spoon := rfl
@[simp] theorem State.modMe_blkt (f : Ctx → Ctx) : (s.modMe f).blkt = s.blkt := rfl
@[simp] theorem State.modMe_blkts (f : Ctx → Ctx) : (s.modMe f).blkts = s.blkts := rfl
@[simp] theorem State.modMe_resets (f : Ctx → Ctx) : (s.modMe f).resets = s.resets := rfl
@[simp] theorem State.modMe_colTab (f : Ctx → Ctx) : (s.modMe f).colTab = s.colTab := rfl
@[simp] theorem State.modMe_colSerial (f : Ctx → Ctx) : (s.modMe f).colSerial = s.colSerial := rfl
@[simp] theorem State.modMe_coords (f : Ctx → Ctx) : (s.modMe f).coords = s.coords := rfl
@[simp] theorem State.modMe_headRank (f : Ctx → Ctx) : (s.modMe f).headRank = s.headRank := rfl
@[simp] theorem State.modMe_limited (f : Ctx → Ctx) : (s.modMe f).limited = s.limited := rfl
@[simp] theorem State.modMe_hot (f : Ctx → Ctx) : (s.modMe f).hot = s.hot := rfl
@[simp] theorem State.modMe_sideband (f : Ctx → Ctx) : (s.modMe f).sideband = s.sideband := rfl
@[simp] theorem State.modMe_up (f : Ctx → Ctx) : (s.modMe f).up = s.up := rfl
@[simp] theorem State.modMe_boots (f : Ctx → Ctx) : (s.modMe f).boots = s.boots := rfl
@[simp] theorem State.modMe_hostReplies (f : Ctx → Ctx) : (s.modMe f).hostReplies = s.hostReplies := rfl

@[simp] theorem State.wr_cycle (f : Regs → Regs) : (s.wr f).cycle = s.cycle := rfl
@[simp] theorem State.wr_pkg (f : Regs → Regs) : (s.wr f).pkg = s.pkg := rfl
@[simp] theorem State.wr_cur (f : Regs → Regs) : (s.wr f).cur = s.cur := rfl
@[simp] theorem State.wr_cix (f : Regs → Regs) : (s.wr f).cix = s.cix := rfl
@[simp] theorem State.wr_todo (f : Regs → Regs) : (s.wr f).todo = s.todo := rfl
@[simp] theorem State.wr_agenda (f : Regs → Regs) : (s.wr f).agenda = s.agenda := rfl
@[simp] theorem State.wr_delays (f : Regs → Regs) : (s.wr f).delays = s.delays := rfl
@[simp] theorem State.wr_places (f : Regs → Regs) : (s.wr f).places = s.places := rfl
@[simp] theorem State.wr_images (f : Regs → Regs) : (s.wr f).images = s.images := rfl
@[simp] theorem State.wr_frames (f : Regs → Regs) : (s.wr f).frames = s.frames := rfl
@[simp] theorem State.wr_nextOp (f : Regs → Regs) : (s.wr f).nextOp = s.nextOp := rfl
@[simp] theorem State.wr_rows (f : Regs → Regs) : (s.wr f).rows = s.rows := rfl
@[simp] theorem State.wr_dies (f : Regs → Regs) : (s.wr f).dies = s.dies := rfl
@[simp] theorem State.wr_bars (f : Regs → Regs) : (s.wr f).bars = s.bars := rfl
@[simp] theorem State.wr_sleepers (f : Regs → Regs) : (s.wr f).sleepers = s.sleepers := rfl
@[simp] theorem State.wr_vfs (f : Regs → Regs) : (s.wr f).vfs = s.vfs := rfl
@[simp] theorem State.wr_mem (f : Regs → Regs) : (s.wr f).mem = s.mem := rfl
@[simp] theorem State.wr_hostMem (f : Regs → Regs) : (s.wr f).hostMem = s.hostMem := rfl
@[simp] theorem State.wr_disabled (f : Regs → Regs) : (s.wr f).disabled = s.disabled := rfl
@[simp] theorem State.wr_harvested (f : Regs → Regs) : (s.wr f).harvested = s.harvested := rfl
@[simp] theorem State.wr_routers (f : Regs → Regs) : (s.wr f).routers = s.routers := rfl
@[simp] theorem State.wr_links (f : Regs → Regs) : (s.wr f).links = s.links := rfl
@[simp] theorem State.wr_strands (f : Regs → Regs) : (s.wr f).strands = s.strands := rfl
@[simp] theorem State.wr_offers (f : Regs → Regs) : (s.wr f).offers = s.offers := rfl
@[simp] theorem State.wr_awaited (f : Regs → Regs) : (s.wr f).awaited = s.awaited := rfl
@[simp] theorem State.wr_offered (f : Regs → Regs) : (s.wr f).offered = s.offered := rfl
@[simp] theorem State.wr_nextPacket (f : Regs → Regs) : (s.wr f).nextPacket = s.nextPacket := rfl
@[simp] theorem State.wr_spoon (f : Regs → Regs) : (s.wr f).spoon = s.spoon := rfl
@[simp] theorem State.wr_blkt (f : Regs → Regs) : (s.wr f).blkt = s.blkt := rfl
@[simp] theorem State.wr_blkts (f : Regs → Regs) : (s.wr f).blkts = s.blkts := rfl
@[simp] theorem State.wr_resets (f : Regs → Regs) : (s.wr f).resets = s.resets := rfl
@[simp] theorem State.wr_colTab (f : Regs → Regs) : (s.wr f).colTab = s.colTab := rfl
@[simp] theorem State.wr_colSerial (f : Regs → Regs) : (s.wr f).colSerial = s.colSerial := rfl
@[simp] theorem State.wr_coords (f : Regs → Regs) : (s.wr f).coords = s.coords := rfl
@[simp] theorem State.wr_headRank (f : Regs → Regs) : (s.wr f).headRank = s.headRank := rfl
@[simp] theorem State.wr_limited (f : Regs → Regs) : (s.wr f).limited = s.limited := rfl
@[simp] theorem State.wr_hot (f : Regs → Regs) : (s.wr f).hot = s.hot := rfl
@[simp] theorem State.wr_sideband (f : Regs → Regs) : (s.wr f).sideband = s.sideband := rfl
@[simp] theorem State.wr_up (f : Regs → Regs) : (s.wr f).up = s.up := rfl
@[simp] theorem State.wr_boots (f : Regs → Regs) : (s.wr f).boots = s.boots := rfl
@[simp] theorem State.wr_hostReplies (f : Regs → Regs) : (s.wr f).hostReplies = s.hostReplies := rfl

@[simp] theorem State.putScr_cycle (n o : Nat) (b : List Byte) : (s.putScr n o b).cycle = s.cycle := rfl
@[simp] theorem State.putScr_pkg (n o : Nat) (b : List Byte) : (s.putScr n o b).pkg = s.pkg := rfl
@[simp] theorem State.putScr_cur (n o : Nat) (b : List Byte) : (s.putScr n o b).cur = s.cur := rfl
@[simp] theorem State.putScr_cix (n o : Nat) (b : List Byte) : (s.putScr n o b).cix = s.cix := rfl
@[simp] theorem State.putScr_todo (n o : Nat) (b : List Byte) : (s.putScr n o b).todo = s.todo := rfl
@[simp] theorem State.putScr_agenda (n o : Nat) (b : List Byte) : (s.putScr n o b).agenda = s.agenda := rfl
@[simp] theorem State.putScr_delays (n o : Nat) (b : List Byte) : (s.putScr n o b).delays = s.delays := rfl
@[simp] theorem State.putScr_places (n o : Nat) (b : List Byte) : (s.putScr n o b).places = s.places := rfl
@[simp] theorem State.putScr_images (n o : Nat) (b : List Byte) : (s.putScr n o b).images = s.images := rfl
@[simp] theorem State.putScr_frames (n o : Nat) (b : List Byte) : (s.putScr n o b).frames = s.frames := rfl
@[simp] theorem State.putScr_nextOp (n o : Nat) (b : List Byte) : (s.putScr n o b).nextOp = s.nextOp := rfl
@[simp] theorem State.putScr_rows (n o : Nat) (b : List Byte) : (s.putScr n o b).rows = s.rows := rfl
@[simp] theorem State.putScr_dies (n o : Nat) (b : List Byte) : (s.putScr n o b).dies = s.dies := rfl
@[simp] theorem State.putScr_bars (n o : Nat) (b : List Byte) : (s.putScr n o b).bars = s.bars := rfl
@[simp] theorem State.putScr_sleepers (n o : Nat) (b : List Byte) : (s.putScr n o b).sleepers = s.sleepers := rfl
@[simp] theorem State.putScr_vfs (n o : Nat) (b : List Byte) : (s.putScr n o b).vfs = s.vfs := rfl
@[simp] theorem State.putScr_mem (n o : Nat) (b : List Byte) : (s.putScr n o b).mem = s.mem := rfl
@[simp] theorem State.putScr_hostMem (n o : Nat) (b : List Byte) : (s.putScr n o b).hostMem = s.hostMem := rfl
@[simp] theorem State.putScr_disabled (n o : Nat) (b : List Byte) : (s.putScr n o b).disabled = s.disabled := rfl
@[simp] theorem State.putScr_harvested (n o : Nat) (b : List Byte) : (s.putScr n o b).harvested = s.harvested := rfl
@[simp] theorem State.putScr_routers (n o : Nat) (b : List Byte) : (s.putScr n o b).routers = s.routers := rfl
@[simp] theorem State.putScr_links (n o : Nat) (b : List Byte) : (s.putScr n o b).links = s.links := rfl
@[simp] theorem State.putScr_strands (n o : Nat) (b : List Byte) : (s.putScr n o b).strands = s.strands := rfl
@[simp] theorem State.putScr_offers (n o : Nat) (b : List Byte) : (s.putScr n o b).offers = s.offers := rfl
@[simp] theorem State.putScr_awaited (n o : Nat) (b : List Byte) : (s.putScr n o b).awaited = s.awaited := rfl
@[simp] theorem State.putScr_offered (n o : Nat) (b : List Byte) : (s.putScr n o b).offered = s.offered := rfl
@[simp] theorem State.putScr_nextPacket (n o : Nat) (b : List Byte) : (s.putScr n o b).nextPacket = s.nextPacket := rfl
@[simp] theorem State.putScr_spoon (n o : Nat) (b : List Byte) : (s.putScr n o b).spoon = s.spoon := rfl
@[simp] theorem State.putScr_blkt (n o : Nat) (b : List Byte) : (s.putScr n o b).blkt = s.blkt := rfl
@[simp] theorem State.putScr_blkts (n o : Nat) (b : List Byte) : (s.putScr n o b).blkts = s.blkts := rfl
@[simp] theorem State.putScr_resets (n o : Nat) (b : List Byte) : (s.putScr n o b).resets = s.resets := rfl
@[simp] theorem State.putScr_colTab (n o : Nat) (b : List Byte) : (s.putScr n o b).colTab = s.colTab := rfl
@[simp] theorem State.putScr_colSerial (n o : Nat) (b : List Byte) : (s.putScr n o b).colSerial = s.colSerial := rfl
@[simp] theorem State.putScr_coords (n o : Nat) (b : List Byte) : (s.putScr n o b).coords = s.coords := rfl
@[simp] theorem State.putScr_headRank (n o : Nat) (b : List Byte) : (s.putScr n o b).headRank = s.headRank := rfl
@[simp] theorem State.putScr_limited (n o : Nat) (b : List Byte) : (s.putScr n o b).limited = s.limited := rfl
@[simp] theorem State.putScr_hot (n o : Nat) (b : List Byte) : (s.putScr n o b).hot = s.hot := rfl
@[simp] theorem State.putScr_sideband (n o : Nat) (b : List Byte) : (s.putScr n o b).sideband = s.sideband := rfl
@[simp] theorem State.putScr_up (n o : Nat) (b : List Byte) : (s.putScr n o b).up = s.up := rfl
@[simp] theorem State.putScr_boots (n o : Nat) (b : List Byte) : (s.putScr n o b).boots = s.boots := rfl
@[simp] theorem State.putScr_hostReplies (n o : Nat) (b : List Byte) : (s.putScr n o b).hostReplies = s.hostReplies := rfl

@[simp] theorem State.putMem_cycle (a : Nat) (b : List Byte) : (s.putMem a b).cycle = s.cycle := rfl
@[simp] theorem State.putMem_pkg (a : Nat) (b : List Byte) : (s.putMem a b).pkg = s.pkg := rfl
@[simp] theorem State.putMem_cur (a : Nat) (b : List Byte) : (s.putMem a b).cur = s.cur := rfl
@[simp] theorem State.putMem_cix (a : Nat) (b : List Byte) : (s.putMem a b).cix = s.cix := rfl
@[simp] theorem State.putMem_todo (a : Nat) (b : List Byte) : (s.putMem a b).todo = s.todo := rfl
@[simp] theorem State.putMem_agenda (a : Nat) (b : List Byte) : (s.putMem a b).agenda = s.agenda := rfl
@[simp] theorem State.putMem_delays (a : Nat) (b : List Byte) : (s.putMem a b).delays = s.delays := rfl
@[simp] theorem State.putMem_places (a : Nat) (b : List Byte) : (s.putMem a b).places = s.places := rfl
@[simp] theorem State.putMem_images (a : Nat) (b : List Byte) : (s.putMem a b).images = s.images := rfl
@[simp] theorem State.putMem_frames (a : Nat) (b : List Byte) : (s.putMem a b).frames = s.frames := rfl
@[simp] theorem State.putMem_nextOp (a : Nat) (b : List Byte) : (s.putMem a b).nextOp = s.nextOp := rfl
@[simp] theorem State.putMem_cores (a : Nat) (b : List Byte) : (s.putMem a b).cores = s.cores := rfl
@[simp] theorem State.putMem_rows (a : Nat) (b : List Byte) : (s.putMem a b).rows = s.rows := rfl
@[simp] theorem State.putMem_dies (a : Nat) (b : List Byte) : (s.putMem a b).dies = s.dies := rfl
@[simp] theorem State.putMem_bars (a : Nat) (b : List Byte) : (s.putMem a b).bars = s.bars := rfl
@[simp] theorem State.putMem_sleepers (a : Nat) (b : List Byte) : (s.putMem a b).sleepers = s.sleepers := rfl
@[simp] theorem State.putMem_vfs (a : Nat) (b : List Byte) : (s.putMem a b).vfs = s.vfs := rfl
@[simp] theorem State.putMem_hostMem (a : Nat) (b : List Byte) : (s.putMem a b).hostMem = s.hostMem := rfl
@[simp] theorem State.putMem_disabled (a : Nat) (b : List Byte) : (s.putMem a b).disabled = s.disabled := rfl
@[simp] theorem State.putMem_harvested (a : Nat) (b : List Byte) : (s.putMem a b).harvested = s.harvested := rfl
@[simp] theorem State.putMem_routers (a : Nat) (b : List Byte) : (s.putMem a b).routers = s.routers := rfl
@[simp] theorem State.putMem_links (a : Nat) (b : List Byte) : (s.putMem a b).links = s.links := rfl
@[simp] theorem State.putMem_strands (a : Nat) (b : List Byte) : (s.putMem a b).strands = s.strands := rfl
@[simp] theorem State.putMem_offers (a : Nat) (b : List Byte) : (s.putMem a b).offers = s.offers := rfl
@[simp] theorem State.putMem_awaited (a : Nat) (b : List Byte) : (s.putMem a b).awaited = s.awaited := rfl
@[simp] theorem State.putMem_offered (a : Nat) (b : List Byte) : (s.putMem a b).offered = s.offered := rfl
@[simp] theorem State.putMem_nextPacket (a : Nat) (b : List Byte) : (s.putMem a b).nextPacket = s.nextPacket := rfl
@[simp] theorem State.putMem_spoon (a : Nat) (b : List Byte) : (s.putMem a b).spoon = s.spoon := rfl
@[simp] theorem State.putMem_blkt (a : Nat) (b : List Byte) : (s.putMem a b).blkt = s.blkt := rfl
@[simp] theorem State.putMem_blkts (a : Nat) (b : List Byte) : (s.putMem a b).blkts = s.blkts := rfl
@[simp] theorem State.putMem_resets (a : Nat) (b : List Byte) : (s.putMem a b).resets = s.resets := rfl
@[simp] theorem State.putMem_colTab (a : Nat) (b : List Byte) : (s.putMem a b).colTab = s.colTab := rfl
@[simp] theorem State.putMem_colSerial (a : Nat) (b : List Byte) : (s.putMem a b).colSerial = s.colSerial := rfl
@[simp] theorem State.putMem_coords (a : Nat) (b : List Byte) : (s.putMem a b).coords = s.coords := rfl
@[simp] theorem State.putMem_headRank (a : Nat) (b : List Byte) : (s.putMem a b).headRank = s.headRank := rfl
@[simp] theorem State.putMem_limited (a : Nat) (b : List Byte) : (s.putMem a b).limited = s.limited := rfl
@[simp] theorem State.putMem_hot (a : Nat) (b : List Byte) : (s.putMem a b).hot = s.hot := rfl
@[simp] theorem State.putMem_sideband (a : Nat) (b : List Byte) : (s.putMem a b).sideband = s.sideband := rfl
@[simp] theorem State.putMem_up (a : Nat) (b : List Byte) : (s.putMem a b).up = s.up := rfl
@[simp] theorem State.putMem_boots (a : Nat) (b : List Byte) : (s.putMem a b).boots = s.boots := rfl
@[simp] theorem State.putMem_hostReplies (a : Nat) (b : List Byte) : (s.putMem a b).hostReplies = s.hostReplies := rfl

@[simp] theorem State.schedule_cycle (n : Nat) (e : Instr) : (s.schedule n e).cycle = s.cycle := rfl
@[simp] theorem State.schedule_pkg (n : Nat) (e : Instr) : (s.schedule n e).pkg = s.pkg := rfl
@[simp] theorem State.schedule_cur (n : Nat) (e : Instr) : (s.schedule n e).cur = s.cur := rfl
@[simp] theorem State.schedule_cix (n : Nat) (e : Instr) : (s.schedule n e).cix = s.cix := rfl
@[simp] theorem State.schedule_todo (n : Nat) (e : Instr) : (s.schedule n e).todo = s.todo := rfl
@[simp] theorem State.schedule_delays (n : Nat) (e : Instr) : (s.schedule n e).delays = s.delays := rfl
@[simp] theorem State.schedule_places (n : Nat) (e : Instr) : (s.schedule n e).places = s.places := rfl
@[simp] theorem State.schedule_images (n : Nat) (e : Instr) : (s.schedule n e).images = s.images := rfl
@[simp] theorem State.schedule_frames (n : Nat) (e : Instr) : (s.schedule n e).frames = s.frames := rfl
@[simp] theorem State.schedule_nextOp (n : Nat) (e : Instr) : (s.schedule n e).nextOp = s.nextOp := rfl
@[simp] theorem State.schedule_cores (n : Nat) (e : Instr) : (s.schedule n e).cores = s.cores := rfl
@[simp] theorem State.schedule_rows (n : Nat) (e : Instr) : (s.schedule n e).rows = s.rows := rfl
@[simp] theorem State.schedule_dies (n : Nat) (e : Instr) : (s.schedule n e).dies = s.dies := rfl
@[simp] theorem State.schedule_bars (n : Nat) (e : Instr) : (s.schedule n e).bars = s.bars := rfl
@[simp] theorem State.schedule_sleepers (n : Nat) (e : Instr) : (s.schedule n e).sleepers = s.sleepers := rfl
@[simp] theorem State.schedule_vfs (n : Nat) (e : Instr) : (s.schedule n e).vfs = s.vfs := rfl
@[simp] theorem State.schedule_mem (n : Nat) (e : Instr) : (s.schedule n e).mem = s.mem := rfl
@[simp] theorem State.schedule_hostMem (n : Nat) (e : Instr) : (s.schedule n e).hostMem = s.hostMem := rfl
@[simp] theorem State.schedule_disabled (n : Nat) (e : Instr) : (s.schedule n e).disabled = s.disabled := rfl
@[simp] theorem State.schedule_harvested (n : Nat) (e : Instr) : (s.schedule n e).harvested = s.harvested := rfl
@[simp] theorem State.schedule_routers (n : Nat) (e : Instr) : (s.schedule n e).routers = s.routers := rfl
@[simp] theorem State.schedule_links (n : Nat) (e : Instr) : (s.schedule n e).links = s.links := rfl
@[simp] theorem State.schedule_strands (n : Nat) (e : Instr) : (s.schedule n e).strands = s.strands := rfl
@[simp] theorem State.schedule_offers (n : Nat) (e : Instr) : (s.schedule n e).offers = s.offers := rfl
@[simp] theorem State.schedule_awaited (n : Nat) (e : Instr) : (s.schedule n e).awaited = s.awaited := rfl
@[simp] theorem State.schedule_offered (n : Nat) (e : Instr) : (s.schedule n e).offered = s.offered := rfl
@[simp] theorem State.schedule_nextPacket (n : Nat) (e : Instr) : (s.schedule n e).nextPacket = s.nextPacket := rfl
@[simp] theorem State.schedule_spoon (n : Nat) (e : Instr) : (s.schedule n e).spoon = s.spoon := rfl
@[simp] theorem State.schedule_blkt (n : Nat) (e : Instr) : (s.schedule n e).blkt = s.blkt := rfl
@[simp] theorem State.schedule_blkts (n : Nat) (e : Instr) : (s.schedule n e).blkts = s.blkts := rfl
@[simp] theorem State.schedule_resets (n : Nat) (e : Instr) : (s.schedule n e).resets = s.resets := rfl
@[simp] theorem State.schedule_colTab (n : Nat) (e : Instr) : (s.schedule n e).colTab = s.colTab := rfl
@[simp] theorem State.schedule_colSerial (n : Nat) (e : Instr) : (s.schedule n e).colSerial = s.colSerial := rfl
@[simp] theorem State.schedule_coords (n : Nat) (e : Instr) : (s.schedule n e).coords = s.coords := rfl
@[simp] theorem State.schedule_headRank (n : Nat) (e : Instr) : (s.schedule n e).headRank = s.headRank := rfl
@[simp] theorem State.schedule_limited (n : Nat) (e : Instr) : (s.schedule n e).limited = s.limited := rfl
@[simp] theorem State.schedule_hot (n : Nat) (e : Instr) : (s.schedule n e).hot = s.hot := rfl
@[simp] theorem State.schedule_sideband (n : Nat) (e : Instr) : (s.schedule n e).sideband = s.sideband := rfl
@[simp] theorem State.schedule_up (n : Nat) (e : Instr) : (s.schedule n e).up = s.up := rfl
@[simp] theorem State.schedule_boots (n : Nat) (e : Instr) : (s.schedule n e).boots = s.boots := rfl
@[simp] theorem State.schedule_hostReplies (n : Nat) (e : Instr) : (s.schedule n e).hostReplies = s.hostReplies := rfl

@[simp] theorem State.dropDelay_cycle : (s.dropDelay).cycle = s.cycle := rfl
@[simp] theorem State.dropDelay_pkg : (s.dropDelay).pkg = s.pkg := rfl
@[simp] theorem State.dropDelay_cur : (s.dropDelay).cur = s.cur := rfl
@[simp] theorem State.dropDelay_cix : (s.dropDelay).cix = s.cix := rfl
@[simp] theorem State.dropDelay_todo : (s.dropDelay).todo = s.todo := rfl
@[simp] theorem State.dropDelay_agenda : (s.dropDelay).agenda = s.agenda := rfl
@[simp] theorem State.dropDelay_places : (s.dropDelay).places = s.places := rfl
@[simp] theorem State.dropDelay_images : (s.dropDelay).images = s.images := rfl
@[simp] theorem State.dropDelay_frames : (s.dropDelay).frames = s.frames := rfl
@[simp] theorem State.dropDelay_nextOp : (s.dropDelay).nextOp = s.nextOp := rfl
@[simp] theorem State.dropDelay_cores : (s.dropDelay).cores = s.cores := rfl
@[simp] theorem State.dropDelay_rows : (s.dropDelay).rows = s.rows := rfl
@[simp] theorem State.dropDelay_dies : (s.dropDelay).dies = s.dies := rfl
@[simp] theorem State.dropDelay_bars : (s.dropDelay).bars = s.bars := rfl
@[simp] theorem State.dropDelay_sleepers : (s.dropDelay).sleepers = s.sleepers := rfl
@[simp] theorem State.dropDelay_vfs : (s.dropDelay).vfs = s.vfs := rfl
@[simp] theorem State.dropDelay_mem : (s.dropDelay).mem = s.mem := rfl
@[simp] theorem State.dropDelay_hostMem : (s.dropDelay).hostMem = s.hostMem := rfl
@[simp] theorem State.dropDelay_disabled : (s.dropDelay).disabled = s.disabled := rfl
@[simp] theorem State.dropDelay_harvested : (s.dropDelay).harvested = s.harvested := rfl
@[simp] theorem State.dropDelay_routers : (s.dropDelay).routers = s.routers := rfl
@[simp] theorem State.dropDelay_links : (s.dropDelay).links = s.links := rfl
@[simp] theorem State.dropDelay_strands : (s.dropDelay).strands = s.strands := rfl
@[simp] theorem State.dropDelay_offers : (s.dropDelay).offers = s.offers := rfl
@[simp] theorem State.dropDelay_awaited : (s.dropDelay).awaited = s.awaited := rfl
@[simp] theorem State.dropDelay_offered : (s.dropDelay).offered = s.offered := rfl
@[simp] theorem State.dropDelay_nextPacket : (s.dropDelay).nextPacket = s.nextPacket := rfl
@[simp] theorem State.dropDelay_spoon : (s.dropDelay).spoon = s.spoon := rfl
@[simp] theorem State.dropDelay_blkt : (s.dropDelay).blkt = s.blkt := rfl
@[simp] theorem State.dropDelay_blkts : (s.dropDelay).blkts = s.blkts := rfl
@[simp] theorem State.dropDelay_resets : (s.dropDelay).resets = s.resets := rfl
@[simp] theorem State.dropDelay_colTab : (s.dropDelay).colTab = s.colTab := rfl
@[simp] theorem State.dropDelay_colSerial : (s.dropDelay).colSerial = s.colSerial := rfl
@[simp] theorem State.dropDelay_coords : (s.dropDelay).coords = s.coords := rfl
@[simp] theorem State.dropDelay_headRank : (s.dropDelay).headRank = s.headRank := rfl
@[simp] theorem State.dropDelay_limited : (s.dropDelay).limited = s.limited := rfl
@[simp] theorem State.dropDelay_hot : (s.dropDelay).hot = s.hot := rfl
@[simp] theorem State.dropDelay_sideband : (s.dropDelay).sideband = s.sideband := rfl
@[simp] theorem State.dropDelay_up : (s.dropDelay).up = s.up := rfl
@[simp] theorem State.dropDelay_boots : (s.dropDelay).boots = s.boots := rfl
@[simp] theorem State.dropDelay_hostReplies : (s.dropDelay).hostReplies = s.hostReplies := rfl

@[simp] theorem State.modRow_cycle (n : Nat) (f : Row → Row) : (s.modRow n f).cycle = s.cycle := rfl
@[simp] theorem State.modRow_pkg (n : Nat) (f : Row → Row) : (s.modRow n f).pkg = s.pkg := rfl
@[simp] theorem State.modRow_cur (n : Nat) (f : Row → Row) : (s.modRow n f).cur = s.cur := rfl
@[simp] theorem State.modRow_cix (n : Nat) (f : Row → Row) : (s.modRow n f).cix = s.cix := rfl
@[simp] theorem State.modRow_todo (n : Nat) (f : Row → Row) : (s.modRow n f).todo = s.todo := rfl
@[simp] theorem State.modRow_agenda (n : Nat) (f : Row → Row) : (s.modRow n f).agenda = s.agenda := rfl
@[simp] theorem State.modRow_delays (n : Nat) (f : Row → Row) : (s.modRow n f).delays = s.delays := rfl
@[simp] theorem State.modRow_places (n : Nat) (f : Row → Row) : (s.modRow n f).places = s.places := rfl
@[simp] theorem State.modRow_images (n : Nat) (f : Row → Row) : (s.modRow n f).images = s.images := rfl
@[simp] theorem State.modRow_frames (n : Nat) (f : Row → Row) : (s.modRow n f).frames = s.frames := rfl
@[simp] theorem State.modRow_nextOp (n : Nat) (f : Row → Row) : (s.modRow n f).nextOp = s.nextOp := rfl
@[simp] theorem State.modRow_cores (n : Nat) (f : Row → Row) : (s.modRow n f).cores = s.cores := rfl
@[simp] theorem State.modRow_dies (n : Nat) (f : Row → Row) : (s.modRow n f).dies = s.dies := rfl
@[simp] theorem State.modRow_bars (n : Nat) (f : Row → Row) : (s.modRow n f).bars = s.bars := rfl
@[simp] theorem State.modRow_sleepers (n : Nat) (f : Row → Row) : (s.modRow n f).sleepers = s.sleepers := rfl
@[simp] theorem State.modRow_vfs (n : Nat) (f : Row → Row) : (s.modRow n f).vfs = s.vfs := rfl
@[simp] theorem State.modRow_mem (n : Nat) (f : Row → Row) : (s.modRow n f).mem = s.mem := rfl
@[simp] theorem State.modRow_hostMem (n : Nat) (f : Row → Row) : (s.modRow n f).hostMem = s.hostMem := rfl
@[simp] theorem State.modRow_disabled (n : Nat) (f : Row → Row) : (s.modRow n f).disabled = s.disabled := rfl
@[simp] theorem State.modRow_harvested (n : Nat) (f : Row → Row) : (s.modRow n f).harvested = s.harvested := rfl
@[simp] theorem State.modRow_routers (n : Nat) (f : Row → Row) : (s.modRow n f).routers = s.routers := rfl
@[simp] theorem State.modRow_links (n : Nat) (f : Row → Row) : (s.modRow n f).links = s.links := rfl
@[simp] theorem State.modRow_strands (n : Nat) (f : Row → Row) : (s.modRow n f).strands = s.strands := rfl
@[simp] theorem State.modRow_offers (n : Nat) (f : Row → Row) : (s.modRow n f).offers = s.offers := rfl
@[simp] theorem State.modRow_awaited (n : Nat) (f : Row → Row) : (s.modRow n f).awaited = s.awaited := rfl
@[simp] theorem State.modRow_offered (n : Nat) (f : Row → Row) : (s.modRow n f).offered = s.offered := rfl
@[simp] theorem State.modRow_nextPacket (n : Nat) (f : Row → Row) : (s.modRow n f).nextPacket = s.nextPacket := rfl
@[simp] theorem State.modRow_spoon (n : Nat) (f : Row → Row) : (s.modRow n f).spoon = s.spoon := rfl
@[simp] theorem State.modRow_blkt (n : Nat) (f : Row → Row) : (s.modRow n f).blkt = s.blkt := rfl
@[simp] theorem State.modRow_blkts (n : Nat) (f : Row → Row) : (s.modRow n f).blkts = s.blkts := rfl
@[simp] theorem State.modRow_resets (n : Nat) (f : Row → Row) : (s.modRow n f).resets = s.resets := rfl
@[simp] theorem State.modRow_colTab (n : Nat) (f : Row → Row) : (s.modRow n f).colTab = s.colTab := rfl
@[simp] theorem State.modRow_colSerial (n : Nat) (f : Row → Row) : (s.modRow n f).colSerial = s.colSerial := rfl
@[simp] theorem State.modRow_coords (n : Nat) (f : Row → Row) : (s.modRow n f).coords = s.coords := rfl
@[simp] theorem State.modRow_headRank (n : Nat) (f : Row → Row) : (s.modRow n f).headRank = s.headRank := rfl
@[simp] theorem State.modRow_limited (n : Nat) (f : Row → Row) : (s.modRow n f).limited = s.limited := rfl
@[simp] theorem State.modRow_hot (n : Nat) (f : Row → Row) : (s.modRow n f).hot = s.hot := rfl
@[simp] theorem State.modRow_sideband (n : Nat) (f : Row → Row) : (s.modRow n f).sideband = s.sideband := rfl
@[simp] theorem State.modRow_up (n : Nat) (f : Row → Row) : (s.modRow n f).up = s.up := rfl
@[simp] theorem State.modRow_boots (n : Nat) (f : Row → Row) : (s.modRow n f).boots = s.boots := rfl
@[simp] theorem State.modRow_hostReplies (n : Nat) (f : Row → Row) : (s.modRow n f).hostReplies = s.hostReplies := rfl

@[simp] theorem State.modDie_cycle (n : Nat) (f : Die → Die) : (s.modDie n f).cycle = s.cycle := rfl
@[simp] theorem State.modDie_pkg (n : Nat) (f : Die → Die) : (s.modDie n f).pkg = s.pkg := rfl
@[simp] theorem State.modDie_cur (n : Nat) (f : Die → Die) : (s.modDie n f).cur = s.cur := rfl
@[simp] theorem State.modDie_cix (n : Nat) (f : Die → Die) : (s.modDie n f).cix = s.cix := rfl
@[simp] theorem State.modDie_todo (n : Nat) (f : Die → Die) : (s.modDie n f).todo = s.todo := rfl
@[simp] theorem State.modDie_agenda (n : Nat) (f : Die → Die) : (s.modDie n f).agenda = s.agenda := rfl
@[simp] theorem State.modDie_delays (n : Nat) (f : Die → Die) : (s.modDie n f).delays = s.delays := rfl
@[simp] theorem State.modDie_places (n : Nat) (f : Die → Die) : (s.modDie n f).places = s.places := rfl
@[simp] theorem State.modDie_images (n : Nat) (f : Die → Die) : (s.modDie n f).images = s.images := rfl
@[simp] theorem State.modDie_frames (n : Nat) (f : Die → Die) : (s.modDie n f).frames = s.frames := rfl
@[simp] theorem State.modDie_nextOp (n : Nat) (f : Die → Die) : (s.modDie n f).nextOp = s.nextOp := rfl
@[simp] theorem State.modDie_cores (n : Nat) (f : Die → Die) : (s.modDie n f).cores = s.cores := rfl
@[simp] theorem State.modDie_rows (n : Nat) (f : Die → Die) : (s.modDie n f).rows = s.rows := rfl
@[simp] theorem State.modDie_bars (n : Nat) (f : Die → Die) : (s.modDie n f).bars = s.bars := rfl
@[simp] theorem State.modDie_sleepers (n : Nat) (f : Die → Die) : (s.modDie n f).sleepers = s.sleepers := rfl
@[simp] theorem State.modDie_vfs (n : Nat) (f : Die → Die) : (s.modDie n f).vfs = s.vfs := rfl
@[simp] theorem State.modDie_mem (n : Nat) (f : Die → Die) : (s.modDie n f).mem = s.mem := rfl
@[simp] theorem State.modDie_hostMem (n : Nat) (f : Die → Die) : (s.modDie n f).hostMem = s.hostMem := rfl
@[simp] theorem State.modDie_disabled (n : Nat) (f : Die → Die) : (s.modDie n f).disabled = s.disabled := rfl
@[simp] theorem State.modDie_harvested (n : Nat) (f : Die → Die) : (s.modDie n f).harvested = s.harvested := rfl
@[simp] theorem State.modDie_routers (n : Nat) (f : Die → Die) : (s.modDie n f).routers = s.routers := rfl
@[simp] theorem State.modDie_links (n : Nat) (f : Die → Die) : (s.modDie n f).links = s.links := rfl
@[simp] theorem State.modDie_strands (n : Nat) (f : Die → Die) : (s.modDie n f).strands = s.strands := rfl
@[simp] theorem State.modDie_offers (n : Nat) (f : Die → Die) : (s.modDie n f).offers = s.offers := rfl
@[simp] theorem State.modDie_awaited (n : Nat) (f : Die → Die) : (s.modDie n f).awaited = s.awaited := rfl
@[simp] theorem State.modDie_offered (n : Nat) (f : Die → Die) : (s.modDie n f).offered = s.offered := rfl
@[simp] theorem State.modDie_nextPacket (n : Nat) (f : Die → Die) : (s.modDie n f).nextPacket = s.nextPacket := rfl
@[simp] theorem State.modDie_spoon (n : Nat) (f : Die → Die) : (s.modDie n f).spoon = s.spoon := rfl
@[simp] theorem State.modDie_blkt (n : Nat) (f : Die → Die) : (s.modDie n f).blkt = s.blkt := rfl
@[simp] theorem State.modDie_blkts (n : Nat) (f : Die → Die) : (s.modDie n f).blkts = s.blkts := rfl
@[simp] theorem State.modDie_resets (n : Nat) (f : Die → Die) : (s.modDie n f).resets = s.resets := rfl
@[simp] theorem State.modDie_colTab (n : Nat) (f : Die → Die) : (s.modDie n f).colTab = s.colTab := rfl
@[simp] theorem State.modDie_colSerial (n : Nat) (f : Die → Die) : (s.modDie n f).colSerial = s.colSerial := rfl
@[simp] theorem State.modDie_coords (n : Nat) (f : Die → Die) : (s.modDie n f).coords = s.coords := rfl
@[simp] theorem State.modDie_headRank (n : Nat) (f : Die → Die) : (s.modDie n f).headRank = s.headRank := rfl
@[simp] theorem State.modDie_limited (n : Nat) (f : Die → Die) : (s.modDie n f).limited = s.limited := rfl
@[simp] theorem State.modDie_hot (n : Nat) (f : Die → Die) : (s.modDie n f).hot = s.hot := rfl
@[simp] theorem State.modDie_sideband (n : Nat) (f : Die → Die) : (s.modDie n f).sideband = s.sideband := rfl
@[simp] theorem State.modDie_up (n : Nat) (f : Die → Die) : (s.modDie n f).up = s.up := rfl
@[simp] theorem State.modDie_boots (n : Nat) (f : Die → Die) : (s.modDie n f).boots = s.boots := rfl
@[simp] theorem State.modDie_hostReplies (n : Nat) (f : Die → Die) : (s.modDie n f).hostReplies = s.hostReplies := rfl

/-! ### The updated field -/

@[simp] theorem State.setCore_cores (n : Nat) (c : Core) : (s.setCore n c).cores = aset s.cores n c := rfl
@[simp] theorem State.putMem_mem (a : Nat) (b : List Byte) : (s.putMem a b).mem = csetN s.mem a b := rfl
@[simp] theorem State.schedule_agenda (n : Nat) (e : Instr) : (s.schedule n e).agenda = insertDue n e s.agenda :=
  rfl
@[simp] theorem State.dropDelay_delays : s.dropDelay.delays = s.delays.tail := rfl

/-! ### Maps -/

section
variable {α : Type}

@[simp] theorem aget_aset_self (l : List (Nat × α)) (a : Nat) (v : α) : aget (aset l a v) a = some v := by
  induction l with
  | nil => simp [aset, aget]
  | cons x t ih =>
    obtain ⟨k, w⟩ := x
    by_cases h : k = a
    · simp [aset, aget, h]
    · by_cases h' : a < k <;> simp [aset, aget, h, h', ih]

theorem aget_aset_ne {a b : Nat} (h : b ≠ a) (l : List (Nat × α)) (v : α) : aget (aset l a v) b = aget l b := by
  induction l with
  | nil => simp [aset, aget, Ne.symm h]
  | cons x t ih =>
    obtain ⟨k, w⟩ := x
    by_cases hk : k = a
    · subst hk; simp [aset, aget, Ne.symm h]
    · simp only [aset, hk, if_false]
      split <;> simp [aget, ih, Ne.symm h]

end

/-! ### Cores and contexts after a write -/

@[simp] theorem State.core_setCore_self (n : Nat) (c : Core) : (s.setCore n c).core n = c := by
  unfold State.core; rw [State.setCore_cores, aget_aset_self]; rfl

theorem State.core_setCore_ne {n k : Nat} (h : k ≠ n) (c : Core) : (s.setCore n c).core k = s.core k := by
  unfold State.core; rw [State.setCore_cores, aget_aset_ne h]

@[simp] theorem State.core_modCore_self (n : Nat) (f : Core → Core) : (s.modCore n f).core n = f (s.core n) :=
  State.core_setCore_self ..

theorem State.core_modCore_ne {n k : Nat} (h : k ≠ n) (f : Core → Core) : (s.modCore n f).core k = s.core k :=
  State.core_setCore_ne s h _

theorem State.core_modCore (n k : Nat) (f : Core → Core) :
    (s.modCore n f).core k = if k = n then f (s.core n) else s.core k := by
  split
  · next h => subst h; simp
  · next h => exact State.core_modCore_ne s h f

theorem State.core_modCtx (n k : Nat) (i : Fin 4) (f : Ctx → Ctx) :
    (s.modCtx n i f).core k = if k = n then (s.core n).setCtx i (f (s.ctx n i)) else s.core k :=
  State.core_modCore ..

@[simp] theorem State.ctx_modCtx_self (n : Nat) (i : Fin 4) (f : Ctx → Ctx) :
    (s.modCtx n i f).ctx n i = f (s.ctx n i) := by
  simp [State.ctx, State.core_modCtx, Core.setCtx]

theorem State.ctx_modCtx_ne {n k : Nat} {i j : Fin 4} (h : k ≠ n ∨ j ≠ i) (f : Ctx → Ctx) :
    (s.modCtx n i f).ctx k j = s.ctx k j := by
  by_cases hk : k = n
  · subst hk
    have hj : i.val ≠ j.val := fun e => (h.resolve_left (by simp)) (Fin.ext e.symm)
    simp [State.ctx, State.core_modCtx, Core.setCtx, hj]
  · simp [State.ctx, State.core_modCtx, hk]

/-- A core after a write to one of its contexts is as before but for its contexts. -/
@[simp] theorem State.core_modCtx_rest (n k : Nat) (i : Fin 4) (f : Ctx → Ctx) :
    { (s.modCtx n i f).core k with ctxs := (s.core k).ctxs } = s.core k := by
  rw [State.core_modCtx]
  split
  · next h => subst h; rfl
  · rfl

@[simp] theorem State.me_modMe (f : Ctx → Ctx) : (s.modMe f).me = f s.me := State.ctx_modCtx_self ..

theorem State.ctx_modMe_ne {k : Nat} {j : Fin 4} (h : k ≠ s.cur ∨ j ≠ s.cix) (f : Ctx → Ctx) :
    (s.modMe f).ctx k j = s.ctx k j := State.ctx_modCtx_ne s h f

@[simp] theorem State.me_wr (f : Regs → Regs) : (s.wr f).me = { s.me with regs := f s.me.regs } :=
  State.me_modMe ..

@[simp] theorem State.core_schedule (n k : Nat) (e : Instr) : (s.schedule n e).core k = s.core k := rfl
@[simp] theorem State.ctx_schedule (n k : Nat) (i : Fin 4) (e : Instr) : (s.schedule n e).ctx k i = s.ctx k i :=
  rfl
@[simp] theorem State.me_schedule (n : Nat) (e : Instr) : (s.schedule n e).me = s.me := rfl
@[simp] theorem State.core_dropDelay (k : Nat) : s.dropDelay.core k = s.core k := rfl
@[simp] theorem State.ctx_dropDelay (k : Nat) (i : Fin 4) : s.dropDelay.ctx k i = s.ctx k i := rfl
@[simp] theorem State.me_dropDelay : s.dropDelay.me = s.me := rfl
@[simp] theorem State.core_putMem (k a : Nat) (b : List Byte) : (s.putMem a b).core k = s.core k := rfl
@[simp] theorem State.ctx_putMem (k a : Nat) (i : Fin 4) (b : List Byte) : (s.putMem a b).ctx k i = s.ctx k i :=
  rfl

@[simp] theorem State.row_modRow_self (n : Nat) (f : Row → Row) : (s.modRow n f).row n = f (s.row n) := by
  simp [State.row, State.modRow]

theorem State.row_modRow_ne {n k : Nat} (h : k ≠ n) (f : Row → Row) : (s.modRow n f).row k = s.row k := by
  simp [State.row, State.modRow, aget_aset_ne h]

@[simp] theorem State.die_modDie_self (n : Nat) (f : Die → Die) : (s.modDie n f).die n = f (s.die n) := by
  simp [State.die, State.modDie]

theorem State.die_modDie_ne {n k : Nat} (h : k ≠ n) (f : Die → Die) : (s.modDie n f).die k = s.die k := by
  simp [State.die, State.modDie, aget_aset_ne h]

end Sys2Proof.Machine
end

