-- ==== Sys2Proof/Laws/Register.lean ====
section
/-! SUPPORT. What register writes do: the one lemma of each shared operation that writes registers of the
executing context, in the terms of Safety.Frame. -/

namespace Sys2Proof.Machine

variable (s : State)

/-! ### The issue check -/

/-- A word whose check passes has its effect, in a bundle that is running or alone. -/
@[simp] theorem guard_go (k : State → State) : s.guard .go k = .next (k s) := by
  unfold State.guard; split <;> rfl

/-- A word of a running bundle has its effect: the bundle was judged whole. -/
theorem guard_running (h : s.me.snap.isSome = true) (v : Verdict) (k : State → State) :
    s.guard v k = .next (k s) := by simp [State.guard, h]

/-- A word on its own whose check does not pass leads where its verdict leads. -/
theorem guard_alone (h : s.me.snap = none) {v : Verdict} (hv : v ≠ .go) (k : State → State) :
    s.guard v k = s.settle v := by
  unfold State.guard
  simp only [h, Option.isSome_none, Bool.false_eq_true, if_false]

@[simp] theorem Verdict.go_and (b : Verdict) : Verdict.and .go b = b := rfl

theorem Verdict.and_eq_go {a b : Verdict} : a.and b = .go ↔ a = .go ∧ b = .go := by
  cases a <;> simp [Verdict.and]

@[simp] theorem trapIf_eq_go {b : Bool} {c : Cause} {i : Word} : trapIf b c i = .go ↔ b = false := by
  cases b <;> simp [trapIf]

@[simp] theorem waitIf_eq_go {b : Bool} {w : ParkWhy} : waitIf b w = .go ↔ b = false := by
  cases b <;> simp [waitIf]

@[simp] theorem illModIf_eq_go {b : Bool} : s.illModIf b = .go ↔ b = false := by
  cases b <;> simp [State.illModIf, State.illMod]

/-! ### Only the executing context -/

theorem alone_refl : Alone s s := ⟨rfl, fun _ _ => rfl, fun _ _ => rfl⟩

/-- A write to the executing context leaves everything else. -/
theorem modMe_contextOnly (f : Ctx → Ctx) : ContextOnly s (s.modMe f) where
  alone := ⟨rfl, fun _ h => State.core_modCore_ne s h _, fun _ h => State.ctx_modMe_ne s (.inr h) f⟩
  core := State.core_modCtx_rest ..
  agenda := rfl
  numbers := ⟨rfl, rfl⟩

theorem ContextOnly.trans {s t u : State} (h : ContextOnly s t) (h' : ContextOnly t u) (hc : t.cur = s.cur)
    (hi : t.cix = s.cix) : ContextOnly s u where
  alone := by
    refine ⟨?_, fun k hk => ?_, fun j hj => ?_⟩
    · have h1 := h.alone.package; have h2 := h'.alone.package
      rw [← h1, ← h2]
    · rw [h'.alone.cores k (hc ▸ hk), h.alone.cores k hk]
    · have := h'.alone.others j (hi ▸ hj)
      rw [hc] at this
      rw [this, h.alone.others j hj]
  core := by
    have h2 := h'.core
    rw [hc] at h2
    rw [← h.core, ← h2]
  agenda := h'.agenda.trans h.agenda
  numbers := ⟨h'.numbers.1.trans h.numbers.1, h'.numbers.2.trans h.numbers.2⟩

/-! ### Registers kept -/

theorem Regs.keeps_refl (r : Regs) (but : List RegName) : r.Keeps r but 0 := by
  constructor <;> intros <;> simp

theorem Regs.Keeps.mono {r r' : Regs} {l l' : List RegName} {fl : Flags} (h : r.Keeps r' l fl)
    (hs : ∀ x ∈ l, x ∈ l') : r.Keeps r' l' fl where
  s := fun n hn => h.s n fun e => hn (hs _ e)
  p := fun n hn => h.p n fun e => hn (hs _ e)
  b := fun n hn => h.b n fun e => hn (hs _ e)
  v := fun n hn => h.v n fun e => hn (hs _ e)
  m := fun n hn => h.m n fun e => hn (hs _ e)
  t := fun n hn => h.t n fun e => hn (hs _ e)
  h := fun n hn => h.h n fun e => hn (hs _ e)
  o := fun n hn => h.o n fun e => hn (hs _ e)
  f := fun n hn => h.f n fun e => hn (hs _ e)
  q := fun n hn => h.q n fun e => hn (hs _ e)
  k := fun n hn => h.k n fun e => hn (hs _ e)
  fpflg := h.fpflg
  fpctl := h.fpctl
  cls := h.cls
  safebnd := h.safebnd
  tvec := h.tvec
  epc := h.epc
  ecause := h.ecause
  einfo := h.einfo
  edelay := h.edelay

theorem Regs.Keeps.trans {r r' r'' : Regs} {l : List RegName} {fl fl' : Flags} (h : r.Keeps r' l fl)
    (h' : r'.Keeps r'' l fl') : r.Keeps r'' l (fl ||| fl') where
  s := fun n hn => (h'.s n hn).trans (h.s n hn)
  p := fun n hn => (h'.p n hn).trans (h.p n hn)
  b := fun n hn => (h'.b n hn).trans (h.b n hn)
  v := fun n hn => (h'.v n hn).trans (h.v n hn)
  m := fun n hn => (h'.m n hn).trans (h.m n hn)
  t := fun n hn => (h'.t n hn).trans (h.t n hn)
  h := fun n hn => (h'.h n hn).trans (h.h n hn)
  o := fun n hn => (h'.o n hn).trans (h.o n hn)
  f := fun n hn => (h'.f n hn).trans (h.f n hn)
  q := fun n hn => (h'.q n hn).trans (h.q n hn)
  k := fun n hn => (h'.k n hn).trans (h.k n hn)
  fpflg := by rw [h'.fpflg, h.fpflg, BitVec.or_assoc]
  fpctl := h'.fpctl.trans h.fpctl
  cls := h'.cls.trans h.cls
  safebnd := h'.safebnd.trans h.safebnd
  tvec := h'.tvec.trans h.tvec
  epc := h'.epc.trans h.epc
  ecause := h'.ecause.trans h.ecause
  einfo := h'.einfo.trans h.einfo
  edelay := h'.edelay.trans h.edelay

theorem Regs.keeps_ws (r : Regs) (d : Fin 32) (v : Word) : r.Keeps (r.ws d v) (sDest d) 0 := by
  unfold Regs.ws sDest
  split
  · exact r.keeps_refl _
  · constructor <;> intros <;> try simp
    next n hn =>
      have : d.val ≠ n.val := fun e => hn (by rw [Fin.ext e]; simp)
      simp [Regs.rs, this]
    next => rfl

theorem Regs.keeps_wp (r : Regs) (d : Fin 16) (v : Bool) : r.Keeps (r.wp d v) (pDest d) 0 := by
  unfold Regs.wp pDest
  split
  · exact r.keeps_refl _
  · constructor <;> intros <;> try simp
    next => rfl
    next n hn =>
      have : d.val ≠ n.val := fun e => hn (by rw [Fin.ext e]; simp)
      simp [Regs.rp, this]

theorem vector_set_ne {α : Type} {n : Nat} (x : Vector α n) (i j : Fin n) (a : α) (h : i ≠ j) :
    (x.set i a)[j] = x[j] :=
  Vector.getElem_set_ne _ _ fun e => h (Fin.ext e)

theorem Regs.keeps_wb (r : Regs) (d : Fin 8) (v : Word) : r.Keeps (r.wb d v) [.b d] 0 := by
  constructor <;> intros <;> try simp [Regs.wb]
  all_goals first
    | rfl
    | next n hn => exact vector_set_ne _ _ _ _ fun e => hn (by simp [e])

theorem Regs.keeps_wv (r : Regs) (d : Fin 32) (v : Vec) : r.Keeps (r.wv d v) [.v d] 0 := by
  constructor <;> intros <;> try simp [Regs.wv]
  all_goals first
    | rfl
    | next n hn => exact vector_set_ne _ _ _ _ fun e => hn (by simp [e])

theorem Regs.keeps_wm (r : Regs) (d : Fin 8) (v : Word) : r.Keeps (r.wm d v) [.m d] 0 := by
  constructor <;> intros <;> try simp [Regs.wm]
  all_goals first
    | rfl
    | next n hn => exact vector_set_ne _ _ _ _ fun e => hn (by simp [e])

theorem Regs.keeps_wt (r : Regs) (d : Fin 16) (v : Tile) : r.Keeps (r.wt d v) [.t d] 0 := by
  constructor <;> intros <;> try simp [Regs.wt]
  all_goals first
    | rfl
    | next n hn => exact vector_set_ne _ _ _ _ fun e => hn (by simp [e])

theorem Regs.keeps_wh (r : Regs) (d : Fin 16) (v : Handle) : r.Keeps (r.wh d v) [.h d] 0 := by
  constructor <;> intros <;> try simp [Regs.wh]
  all_goals first
    | rfl
    | next n hn => exact vector_set_ne _ _ _ _ fun e => hn (by simp [e])

theorem Regs.keeps_wo (r : Regs) (d : Fin 8) (v : Block64) : r.Keeps (r.wo d v) [.o d] 0 := by
  constructor <;> intros <;> try simp [Regs.wo]
  all_goals first
    | rfl
    | next n hn => exact vector_set_ne _ _ _ _ fun e => hn (by simp [e])

theorem Regs.keeps_wf (r : Regs) (d : Fin 8) (v : Fibre) : r.Keeps (r.wf d v) [.f d] 0 := by
  constructor <;> intros <;> try simp [Regs.wf]
  all_goals first
    | rfl
    | next n hn => exact vector_set_ne _ _ _ _ fun e => hn (by simp [e])

theorem Regs.keeps_wq (r : Regs) (d : Fin 8) (v : Stream) : r.Keeps (r.wq d v) [.q d] 0 := by
  constructor <;> intros <;> try simp [Regs.wq]
  all_goals first
    | rfl
    | next n hn => exact vector_set_ne _ _ _ _ fun e => hn (by simp [e])

theorem Regs.keeps_wk (r : Regs) (d : Fin 4) (v : Cutter) : r.Keeps (r.wk d v) [.k d] 0 := by
  constructor <;> intros <;> try simp [Regs.wk]
  all_goals first
    | rfl
    | next n hn => exact vector_set_ne _ _ _ _ fun e => hn (by simp [e])

theorem Regs.keeps_orFlags (r : Regs) (l : List RegName) (f : Flags) : r.Keeps (r.orFlags f) l f := by
  constructor <;> intros <;> rfl

@[simp] theorem Regs.wb_self (r : Regs) (d : Fin 8) (v : Word) : (r.wb d v).b[d] = v := by simp [Regs.wb]
@[simp] theorem Regs.wv_self (r : Regs) (d : Fin 32) (v : Vec) : (r.wv d v).v[d] = v := by simp [Regs.wv]
@[simp] theorem Regs.wm_self (r : Regs) (d : Fin 8) (v : Word) : (r.wm d v).m[d] = v := by simp [Regs.wm]
@[simp] theorem Regs.wt_self (r : Regs) (d : Fin 16) (v : Tile) : (r.wt d v).t[d] = v := by simp [Regs.wt]
@[simp] theorem Regs.wh_self (r : Regs) (d : Fin 16) (v : Handle) : (r.wh d v).h[d] = v := by simp [Regs.wh]
@[simp] theorem Regs.wo_self (r : Regs) (d : Fin 8) (v : Block64) : (r.wo d v).o[d] = v := by simp [Regs.wo]
@[simp] theorem Regs.wf_self (r : Regs) (d : Fin 8) (v : Fibre) : (r.wf d v).f[d] = v := by simp [Regs.wf]
@[simp] theorem Regs.wq_self (r : Regs) (d : Fin 8) (v : Stream) : (r.wq d v).q[d] = v := by simp [Regs.wq]
@[simp] theorem Regs.wk_self (r : Regs) (d : Fin 4) (v : Cutter) : (r.wk d v).k[d] = v := by simp [Regs.wk]

@[simp] theorem Regs.rs_ws_self (r : Regs) (d : Fin 32) (v : Word) : (r.ws d v).rs d = if d = 0 then 0 else v := by
  unfold Regs.ws Regs.rs; split <;> simp

@[simp] theorem Regs.rp_wp_self (r : Regs) (d : Fin 16) (v : Bool) : (r.wp d v).rp d = (d == 0 || v) := by
  unfold Regs.wp Regs.rp; split <;> simp [*]

/-! ### Awaited registers -/

theorem Ctx.locked_lock (c : Ctx) (r x : RegName) (t : Option Nat) (cyc : Nat) :
    (c.lock r t).locked cyc x
      = ((r == x && (match t with | none => true | some n => decide (cyc < n))) || c.locked cyc x) := rfl

/-- An event added to the agenda is the only one that differs. -/
theorem filter_insertDue (p : Nat × Instr → Bool) (due : Nat) (e : Instr) (h : p (due, e) = false) :
    ∀ l, (insertDue due e l).filter p = l.filter p
  | [] => by simp [insertDue, h]
  | (d, x) :: t => by
    unfold insertDue
    split
    · rw [List.filter_cons, List.filter_cons, filter_insertDue p due e h t]
    · rw [List.filter_cons, h]; simp

/-! ### Results -/

/-- A write of registers of the executing context that are ready in the next cycle. -/
theorem wr_step (f : Regs → Regs) {but : List RegName} {fl : Flags} (h : s.me.regs.Keeps (f s.me.regs) but fl) :
    RegisterStep s (s.wr f) but 1 fl where
  alone := (modMe_contextOnly s _).alone
  core := (modMe_contextOnly s _).core
  numbers := ⟨rfl, rfl⟩
  agenda := rfl
  ctx := by rw [State.me_wr]
  regs := by rw [State.me_wr]; exact h
  awaited := fun c r hc => by
    have : ¬ c < s.cycle + 1 := by omega
    simp [Ctx.locked, this]

/-- A register written now that is ready some cycles later. -/
theorem wr_readyIn_step (f : Regs → Regs) (x : RegName) (lat : Nat) {fl : Flags}
    (h : s.me.regs.Keeps (f s.me.regs) [x] fl) : RegisterStep s ((s.wr f).readyIn x lat) [x] lat fl where
  alone := by
    have h1 := modMe_contextOnly s fun c => { c with regs := f c.regs }
    have h2 := modMe_contextOnly (s.wr f) fun c => c.lock x (some (s.cycle + lat))
    have := (h1.trans h2 rfl rfl).alone
    exact ⟨this.package, this.cores, this.others⟩
  core := by
    have h1 := modMe_contextOnly s fun c => { c with regs := f c.regs }
    have h2 := modMe_contextOnly (s.wr f) fun c => c.lock x (some (s.cycle + lat))
    exact (h1.trans h2 rfl rfl).core
  numbers := ⟨rfl, rfl⟩
  agenda := filter_insertDue _ _ _ (by simp [State.isMark]) _
  ctx := by simp [State.readyIn, Ctx.lock]
  regs := by simpa [State.readyIn, Ctx.lock] using h
  awaited := fun c r _ => by
    have e : ((s.wr f).readyIn x lat).me.locked c r
        = ((x == r && decide (c < s.cycle + lat)) || s.me.locked c r) := by
      unfold State.readyIn
      rw [State.me_schedule, State.me_modMe, Ctx.locked_lock, State.me_wr]
      rfl
    rw [e, Bool.or_comm]
    by_cases hr : x = r
    · simp [hr]
    · simp [hr, Ne.symm hr]

/-- A scalar result: sD is written, unless it is s0, and awaited until it is ready (R353, R70). -/
theorem putS_step (d : Fin 32) (v : Word) (lat : Nat) (hl : 1 ≤ lat) :
    RegisterStep s (s.putS d v lat) (sDest d) lat 0 := by
  unfold State.putS
  have hk := s.me.regs.keeps_ws d v
  split
  · next h =>
    have w := wr_step s (fun r => r.ws d v) hk
    rcases h with h | h
    · obtain rfl : lat = 1 := by omega
      exact w
    · subst h
      exact ⟨w.alone, w.core, w.numbers, w.agenda, w.ctx, w.regs, fun c r hc => by
        simpa [sDest] using w.awaited c r hc⟩
  · next h =>
    have hd : d ≠ 0 := fun e => h (.inr e)
    have : sDest d = [.s d] := by simp [sDest, hd]
    rw [this] at hk ⊢
    exact wr_readyIn_step s _ _ _ hk

@[simp] theorem putS_value (d : Fin 32) (v : Word) (lat : Nat) :
    (s.putS d v lat).me.regs.rs d = if d = 0 then 0 else v := by
  unfold State.putS
  split <;> simp [State.readyIn, Ctx.lock]

/-- A predicate result (R362, R70). -/
theorem putP_step (d : Fin 16) (v : Bool) : RegisterStep s (s.putP d v) (pDest d) 1 0 :=
  wr_step s _ (s.me.regs.keeps_wp d v)

@[simp] theorem putP_value (d : Fin 16) (v : Bool) : (s.putP d v).me.regs.rp d = (d == 0 || v) := by
  simp [State.putP]

end Sys2Proof.Machine
end

