-- ==== Sys2Proof/Laws/Checks.lean ====
section
/-! SUPPORT. The issue checks of operands: each goes through exactly when the access is allowed in the terms
of Safety.Access. -/

namespace Sys2Proof.Machine

variable (s : State)

theorem ownHeld_eq_go {lo len : Nat} : s.ownHeld lo len = .go ↔ s.HoldsRange lo len := by
  unfold State.ownHeld State.HoldsRange
  split
  · next h => subst h; exact ⟨fun _ o h1 h2 => absurd h2 (by omega), fun _ => rfl⟩
  · next h =>
    have hpos : 0 < len := Nat.pos_of_ne_zero h
    simp only
    split
    · next b hb =>
      refine ⟨fun e => (Verdict.noConfusion e), fun hh => ?_⟩
      have hm := List.mem_of_find?_eq_some hb
      have hp := List.find?_some hb
      obtain ⟨k, hk, rfl⟩ := List.mem_map.1 hm
      have hk := List.mem_range.1 hk
      have hdiv : lo / 65536 + k ≤ (lo + len - 1) / 65536 := by omega
      have := hh (max lo ((lo / 65536 + k) * 65536)) (by omega) (by omega)
      have e : max lo ((lo / 65536 + k) * 65536) / 65536 = lo / 65536 + k := by omega
      rw [e] at this
      simp [this] at hp
    · next hb =>
      refine ⟨fun _ o h1 h2 => ?_, fun _ => rfl⟩
      rw [List.find?_eq_none] at hb
      have := hb (o / 65536) (List.mem_map.2 ⟨o / 65536 - lo / 65536, List.mem_range.2 (by omega), by omega⟩)
      simpa using this

/-- Ranges that end above a position. -/
def endsAbove (rs : List (Nat × Nat)) (pos : Nat) : Nat := (rs.filter fun r => decide (pos < r.2)).length

theorem endsAbove_lt {rs : List (Nat × Nat)} {pos : Nat} {r : Nat × Nat} (hr : r ∈ rs) (h : pos < r.2) :
    endsAbove rs r.2 < endsAbove rs pos := by
  unfold endsAbove
  induction rs with
  | nil => cases hr
  | cons a t ih =>
    have hle : (t.filter fun x => decide (r.2 < x.2)).length ≤ (t.filter fun x => decide (pos < x.2)).length := by
      have : t.filter (fun x => decide (r.2 < x.2)) = (t.filter fun x => decide (pos < x.2)).filter fun x => decide (r.2 < x.2) := by
        rw [List.filter_filter]
        refine List.filter_congr fun x _ => ?_
        by_cases h1 : r.2 < x.2
        · simp [h1, lt_trans h h1]
        · simp [h1]
      rw [this]; exact List.length_filter_le _ _
    rcases List.mem_cons.1 hr with rfl | hr
    · simp only [List.filter_cons, lt_irrefl, decide_false, Bool.false_eq_true, if_false, h, decide_true, if_true,
        List.length_cons]
      omega
    · have := ih hr
      simp only [List.filter_cons]
      by_cases h1 : r.2 < a.2
      · simp [h1, lt_trans h h1]; exact this
      · by_cases h2 : pos < a.2 <;> simp [h1, h2] <;> omega

/-- The first position from pos below hi that no range covers, if there is one. -/
theorem firstOut_spec (rs : List (Nat × Nat)) (hi : Nat) : ∀ (n pos : Nat), endsAbove rs pos < n →
    match firstOut rs hi n pos with
    | none => ∀ o, pos ≤ o → o < hi → ∃ r ∈ rs, r.1 ≤ o ∧ o < r.2
    | some p => pos ≤ p ∧ p < hi ∧ (∀ r ∈ rs, ¬ (r.1 ≤ p ∧ p < r.2))
        ∧ ∀ o, pos ≤ o → o < p → ∃ r ∈ rs, r.1 ≤ o ∧ o < r.2
  | 0, _, h => absurd h (Nat.not_lt_zero _)
  | n + 1, pos, h => by
    by_cases hhi : hi ≤ pos
    · rw [firstOut, if_pos hhi]; intro o h1 h2; omega
    · rw [firstOut, if_neg hhi]
      cases hr : rs.find? fun r => decide (r.1 ≤ pos) && decide (pos < r.2) with
      | some r =>
        have hm := List.mem_of_find?_eq_some hr
        have hp := List.find?_some hr
        simp only [Bool.and_eq_true, decide_eq_true_eq] at hp
        have ih := firstOut_spec rs hi n r.2 (by have := endsAbove_lt hm hp.2; omega)
        simp only
        cases e : firstOut rs hi n r.2 with
        | none =>
          rw [e] at ih
          intro o h1 h2
          by_cases ho : o < r.2
          · exact ⟨r, hm, by omega, ho⟩
          · exact ih o (by omega) h2
        | some p =>
          rw [e] at ih
          refine ⟨by have := ih.1; omega, ih.2.1, ih.2.2.1, fun o h1 h2 => ?_⟩
          by_cases ho : o < r.2
          · exact ⟨r, hm, by omega, ho⟩
          · exact ih.2.2.2 o (by omega) h2
      | none =>
        rw [List.find?_eq_none] at hr
        refine ⟨le_refl _, by omega, fun r hm hc => ?_, fun o h1 h2 => absurd h2 (by omega)⟩
        exact hr r hm (by simpa using hc)

/-! ### The declared set -/

theorem mem_ranges {strip : Nat} {es : List Word} {eng : Nat} {wr : Bool} {sp : Option (Nat × Nat)} {o : Nat} :
    (∃ r ∈ (es.filter fun e => pEng e == eng && pDir e == wr).filterMap (fun e =>
        if (entrySpace strip e).1 = (byteName strip sp 0).1 then some (entrySpace strip e).2 else none),
      r.1 ≤ (byteName strip sp o).2 ∧ (byteName strip sp o).2 < r.2)
      ↔ ByteDeclared strip es eng wr sp o := by
  have hname : (byteName strip sp o).1 = (byteName strip sp 0).1 := by
    unfold byteName; split
    · rfl
    · split <;> rfl
  have hent : ∀ e, entrySpace strip e = ((byteName strip (namedSpace e) (pStart e)).1,
      (byteName strip (namedSpace e) (pStart e)).2, (byteName strip (namedSpace e) (pStart e)).2 + pLen e) := by
    intro e
    unfold entrySpace namedSpace byteName
    split
    · rfl
    · simp only; split <;> rfl
  simp only [List.mem_filterMap, List.mem_filter, Bool.and_eq_true, beq_iff_eq, Option.ite_none_right_eq_some,
    Option.some.injEq, hent]
  unfold ByteDeclared EntryCovers
  constructor
  · rintro ⟨r, ⟨e, ⟨he, h1, h2⟩, h3, rfl⟩, h4, h5⟩
    exact ⟨e, he, h1, h2, by rw [hname, h3], h4, h5⟩
  · rintro ⟨e, he, h1, h2, h3, h4, h5⟩
    exact ⟨_, ⟨e, ⟨he, h1, h2⟩, by rw [← h3, hname], rfl⟩, h4, h5⟩

theorem endsAbove_le (rs : List (Nat × Nat)) (pos : Nat) : endsAbove rs pos ≤ rs.length :=
  List.length_filter_le _ _

/-- What the check of R178 finds: nothing to say, no open phase, or the first byte outside the set. -/
theorem escape_spec (eng : Nat) (wr : Bool) (sp : Option (Nat × Nat)) (lo len : Nat) :
    if s.me.strict = false ∨ len = 0 then s.escape eng wr sp lo len = .go
    else match s.me.phase with
      | none => s.escape eng wr sp lo len
          = .trap .phaseEscape (escapeInfo 1 eng wr (sp.getD (15, 0)).1 (sp.getD (15, 0)).2 0)
      | some es =>
          (s.escape eng wr sp lo len = .go
            ∧ ∀ o, lo ≤ o → o < lo + len → ByteDeclared (stripOf s.cur) es eng wr sp o)
          ∨ ∃ p, lo ≤ p ∧ p < lo + len ∧ ¬ ByteDeclared (stripOf s.cur) es eng wr sp p
            ∧ (∀ o, lo ≤ o → o < p → ByteDeclared (stripOf s.cur) es eng wr sp o)
            ∧ s.escape eng wr sp lo len
              = .trap .phaseEscape (escapeInfo 0 eng wr (sp.getD (15, 0)).1 (sp.getD (15, 0)).2 p) := by
  by_cases h0 : s.me.strict = false ∨ len = 0
  · rw [if_pos h0]
    unfold State.escape
    rcases h0 with h0 | h0 <;> simp [h0]
  · rw [if_neg h0]
    have hs : s.me.strict = true := by simpa using fun h => h0 (.inl h)
    have hl : len ≠ 0 := fun h => h0 (.inr h)
    cases hp : s.me.phase with
    | none => unfold State.escape; simp [hs, hl, hp]
    | some es =>
      simp only
      -- the check in the terms of byteName
      have hesc : s.escape eng wr sp lo len =
          match firstOut ((es.filter fun e => pEng e == eng && pDir e == wr).filterMap (fun e =>
              if (entrySpace (stripOf s.cur) e).1 = (byteName (stripOf s.cur) sp 0).1 then
                some (entrySpace (stripOf s.cur) e).2 else none))
            ((byteName (stripOf s.cur) sp 0).2 + lo + len) (es.length + 1)
            ((byteName (stripOf s.cur) sp 0).2 + lo) with
          | some p => .trap .phaseEscape (escapeInfo 0 eng wr (sp.getD (15, 0)).1 (sp.getD (15, 0)).2
              (p - (byteName (stripOf s.cur) sp 0).2))
          | none => .go := by
        unfold State.escape
        simp only [hs, hp, Bool.not_true, Bool.false_or, beq_iff_eq, hl, if_false]
        cases sp with
        | none => rfl
        | some q =>
          obtain ⟨st, b⟩ := q
          by_cases hst : st = stripOf s.cur
          · simp [byteName, hst] <;> rfl
          · simp only [byteName, hst, if_false, Option.getD_some, Nat.zero_add, Nat.sub_zero] <;> rfl
      have hname : ∀ o, (byteName (stripOf s.cur) sp o).2 = (byteName (stripOf s.cur) sp 0).2 + o := by
        intro o; unfold byteName
        split
        · simp
        · split <;> simp
      have hspec := firstOut_spec ((es.filter fun e => pEng e == eng && pDir e == wr).filterMap (fun e =>
              if (entrySpace (stripOf s.cur) e).1 = (byteName (stripOf s.cur) sp 0).1 then
                some (entrySpace (stripOf s.cur) e).2 else none))
            ((byteName (stripOf s.cur) sp 0).2 + lo + len) (es.length + 1)
            ((byteName (stripOf s.cur) sp 0).2 + lo)
            (Nat.lt_succ_of_le ((endsAbove_le _ _).trans ((List.length_filterMap_le _ _).trans
              (List.length_filter_le _ _))))
      rw [hesc]
      revert hspec
      generalize hB : (byteName (stripOf s.cur) sp 0).2 = B at *
      cases firstOut _ (B + lo + len) (es.length + 1) (B + lo) with
      | none =>
        intro hspec
        refine .inl ⟨rfl, fun o h1 h2 => mem_ranges.1 ?_⟩
        have := hspec (B + o) (by omega) (by omega)
        rw [hname o]; exact this
      | some p =>
        rintro ⟨h1, h2, h3, h4⟩
        refine .inr ⟨p - B, by omega, by omega, fun hd => ?_, fun o h5 h6 => mem_ranges.1 ?_, rfl⟩
        · obtain ⟨r, hr, hr1, hr2⟩ := mem_ranges.2 hd
          rw [hname (p - B), show B + (p - B) = p by omega] at hr1 hr2
          exact h3 r hr ⟨hr1, hr2⟩
        · have := h4 (B + o) (by omega) (by omega)
          rw [hname o]; exact this

theorem escape_eq_go {eng : Nat} {wr : Bool} {sp : Option (Nat × Nat)} {lo len : Nat} :
    s.escape eng wr sp lo len = .go ↔ s.Declared eng wr sp lo len := by
  have h := escape_spec s eng wr sp lo len
  unfold State.Declared
  split at h
  · next h0 =>
    refine ⟨fun _ hs hl => ?_, fun _ => h⟩
    rcases h0 with h0 | h0
    · simp [hs] at h0
    · omega
  · next h0 =>
    have hs : s.me.strict = true := by simpa using fun h => h0 (.inl h)
    have hl : 0 < len := Nat.pos_of_ne_zero fun h => h0 (.inr h)
    cases hp : s.me.phase with
    | none =>
      rw [hp] at h
      simp only at h
      rw [h]
      exact ⟨fun e => Verdict.noConfusion e, fun e => by obtain ⟨_, e, _⟩ := e hs hl; cases e⟩
    | some es =>
      rw [hp] at h
      simp only at h
      rcases h with ⟨h1, h2⟩ | ⟨p, h1, h2, h3, h4, h5⟩
      · exact ⟨fun _ _ _ => ⟨es, rfl, h2⟩, fun _ => h1⟩
      · rw [h5]
        refine ⟨fun e => Verdict.noConfusion e, fun e => ?_⟩
        obtain ⟨es', e1, e2⟩ := e hs hl
        cases e1
        exact absurd (e2 p h1 h2) h3

/-! ### Operands -/

theorem ownOk_eq_go {eng : Nat} {wr : Bool} {lo len : Nat} :
    s.ownOk eng wr lo len = .go ↔ s.OwnAllowed eng wr lo len := by
  rw [State.ownOk, Verdict.and_eq_go, ownHeld_eq_go, escape_eq_go]; rfl

theorem bufOk_eq_go {x : Fin 32} {off len eng : Nat} {wr : Bool} :
    s.bufOk x off len eng wr = .go ↔ s.BufAllowed x eng wr off len := by
  unfold State.bufOk State.BufAllowed
  simp only
  cases h1 : bufBad (s.rs x) with
  | true => simp
  | false =>
    cases h2 : s.holds s.cur (bufStrip (s.rs x)) (bufNum (s.rs x)) with
    | false => simp
    | true => simp [escape_eq_go]

theorem handleOk_eq_go {n : Fin 16} {off : Nat} {wr : Bool} :
    s.handleOk n off wr = .go ↔ s.HandleAllowed n off wr := by
  unfold State.handleOk State.HandleAllowed
  simp only
  cases h1 : Handle.valid (s.hreg n) with
  | false => simp
  | true =>
    cases wr <;> cases h2 : Handle.canW (s.hreg n) <;> cases h3 : s.paValid (Handle.pa (s.hreg n) off) <;> simp

theorem accessOk_eq_go {a : Addr} {size : Nat} {wr : Bool} :
    s.accessOk a size size wr = .go ↔ s.AccessAllowed a size wr := by
  cases a
  · exact ownOk_eq_go s
  · exact bufOk_eq_go s
  · exact handleOk_eq_go s

theorem rangesOk_eq_go {n : Nat} : s.rangesOk n = .go ↔ s.RangesFree n := by
  unfold State.rangesOk State.RangesFree Core.entriesUsed
  rw [waitIf_eq_go]; simp

theorem holdsArr_iff : s.holdsArr = true ↔ s.myCore.arr.owner = some s.cix := by
  unfold State.holdsArr; exact beq_iff_eq

theorem phaseCtx_iff (core : Nat) (i : Fin 4) :
    s.phaseCtx core i = true ↔ ∃ p, (s.row (rowOf core)).phase = some p ∧ (s.ctx core i).InPhase p := by
  unfold State.phaseCtx TransferPhase.holds Ctx.InPhase
  simp [Option.any_eq_true, and_assoc]

theorem transferOk_eq_go : s.transferOk = .go ↔ s.NoTransfer := by
  unfold State.transferOk State.NoTransfer State.inTransfer
  have hc : (allCtx.any fun i => s.phaseCtx s.cur i) = false ↔ ∀ i, ¬ s.phaseCtx s.cur i = true := by
    simp only [allCtx, List.any_eq_false]
    exact ⟨fun h i => h i (by fin_cases i <;> simp), fun h i _ => h i⟩
  by_cases hm : s.phaseCtx s.cur s.cix = true
  · rw [if_pos hm]
    simp only [State.illMod, reduceCtorEq, false_iff]
    intro h
    obtain ⟨p, hp, hi⟩ := (phaseCtx_iff s s.cur s.cix).1 hm
    exact h p hp _ hi
  · rw [if_neg hm, waitIf_eq_go, hc]
    exact ⟨fun h p hp i hi => h i ((phaseCtx_iff s s.cur i).2 ⟨p, hp, hi⟩),
      fun h i hi => let ⟨p, hp, hq⟩ := (phaseCtx_iff s s.cur i).1 hi; h p hp i hq⟩

theorem mtxOk_eq_go : s.mtxOk = .go ↔ s.ArrayMine := by
  unfold State.mtxOk
  rw [Verdict.and_eq_go, Verdict.and_eq_go, trapIf_eq_go, transferOk_eq_go, illModIf_eq_go]
  rw [Bool.not_eq_false', holdsArr_iff, Option.isSome_eq_false_iff, Option.isNone_iff_eq_none]
  exact ⟨fun h => ⟨h.1, h.2.1, h.2.2⟩, fun h => ⟨h.1, h.2, h.3⟩⟩

end Sys2Proof.Machine
end

