-- ==== Sys2Proof/Laws/Memory.lean ====
section
/-! SUPPORT. Sparse memories: what a cell reads as after a write, and that every write keeps the canonical
form. -/

namespace Sys2Proof.Machine

variable {w : Nat}

/-! ### Canonical form -/

theorem cellsFrom_mono {m n : Nat} (h : m ≤ n) : ∀ {c : Cells w}, cellsFrom n c = true → cellsFrom m c = true
  | [], _ => rfl
  | (k, v) :: t, hc => by
    simp only [cellsFrom, Bool.and_eq_true, decide_eq_true_eq] at hc ⊢
    exact ⟨⟨by omega, hc.1.2⟩, hc.2⟩

theorem cellsFrom_cset {n a : Nat} (h : n ≤ a) (v : BitVec w) :
    ∀ {c : Cells w}, cellsFrom n c = true → cellsFrom n (cset c a v) = true
  | [], _ => by
    unfold cset
    split
    · rfl
    · next hv => simp [cellsFrom, h, hv]
  | (k, u) :: t, hc => by
    simp only [cellsFrom, Bool.and_eq_true, decide_eq_true_eq, bne_iff_ne, ne_eq] at hc
    unfold cset
    split
    · next hk =>
      subst hk
      split
      · exact cellsFrom_mono (by omega) hc.2
      · next hv => simp [cellsFrom, hv, hc.2, h]
    · split
      · next hk =>
        split
        · simp [cellsFrom, hc]
        · next hv =>
          simp only [cellsFrom, Bool.and_eq_true, decide_eq_true_eq, bne_iff_ne, ne_eq]
          exact ⟨⟨h, hv⟩, ⟨⟨by omega, hc.1.2⟩, hc.2⟩⟩
      · simp only [cellsFrom, Bool.and_eq_true, decide_eq_true_eq, bne_iff_ne, ne_eq]
        exact ⟨hc.1, cellsFrom_cset (by omega) v hc.2⟩

/-- A write keeps the canonical form. -/
theorem wf_cset {c : Cells w} (a : Nat) (v : BitVec w) (h : Memory.wf c = true) : Memory.wf (cset c a v) = true :=
  cellsFrom_cset (Nat.zero_le a) v h

/-- Consecutive writes keep the canonical form. -/
theorem wf_csetN : ∀ (l : List (BitVec w)) {c : Cells w} (a : Nat), Memory.wf c = true →
    Memory.wf (csetN c a l) = true
  | [], _, _, h => h
  | v :: t, _, a, h => wf_csetN t (a + 1) (wf_cset a v h)

/-- Writes folded over a list keep the canonical form. -/
theorem wf_foldl {β : Type} (f : Cells w → β → Cells w) (hf : ∀ c x, Memory.wf c = true → Memory.wf (f c x) = true) :
    ∀ (l : List β) {c : Cells w}, Memory.wf c = true → Memory.wf (l.foldl f c) = true
  | [], _, h => h
  | x :: t, c, h => wf_foldl f hf t (hf c x h)

@[simp] theorem wf_nil : Memory.wf ([] : Cells w) = true := rfl

/-! ### Reading after writing -/

theorem cget_below {n a : Nat} (h : a < n) : ∀ {c : Cells w}, cellsFrom n c = true → cget c a = 0
  | [], _ => rfl
  | (k, v) :: t, hc => by
    simp only [cellsFrom, Bool.and_eq_true, decide_eq_true_eq] at hc
    have : k ≠ a := by omega
    have : a < k := by omega
    simp_all [cget]

/-- A cell reads as what was last written to it. -/
theorem cget_cset_self (a : Nat) (v : BitVec w) {n : Nat} :
    ∀ {c : Cells w}, cellsFrom n c = true → cget (cset c a v) a = v
  | [], _ => by
    unfold cset
    split
    · next hv => exact hv.symm
    · simp [cget]
  | (k, u) :: t, hc => by
    simp only [cellsFrom, Bool.and_eq_true] at hc
    unfold cset
    split
    · next hk =>
      subst hk
      split
      · next hv => rw [hv]; exact cget_below (Nat.lt_succ_self k) hc.2
      · simp [cget]
    · next hk =>
      split
      · next hak => split <;> simp [cget, *]
      · next hak => simp [cget, hk, hak, cget_cset_self a v hc.2]

/-- A write leaves every other cell alone. -/
theorem cget_cset_ne {a b : Nat} (h : b ≠ a) (v : BitVec w) {n : Nat} :
    ∀ {c : Cells w}, cellsFrom n c = true → cget (cset c a v) b = cget c b
  | [], _ => by
    unfold cset
    split
    · rfl
    · simp [cget, Ne.symm h]
  | (k, u) :: t, hc => by
    simp only [cellsFrom, Bool.and_eq_true] at hc
    unfold cset
    split
    · next hk =>
      subst hk
      have hne : k ≠ b := Ne.symm h
      have hb : b < k → cget t b = 0 := fun hb => cget_below (Nat.lt_succ_of_lt hb) hc.2
      split
      · by_cases hlt : b < k <;> simp [cget, hne, hlt, hb]
      · simp [cget, hne]
    · next hk =>
      split
      · next hak =>
        split
        · rfl
        · have hne : a ≠ b := Ne.symm h
          by_cases hba : b < a
          · have : k ≠ b := by omega
            have : b < k := by omega
            simp [cget, *]
          · simp [cget, hne, hba]
      · by_cases hkb : k = b
        · simp [cget, hkb]
        · simp [cget, hkb, cget_cset_ne h v hc.2]

/-- Consecutive writes: a cell outside them reads as before. -/
theorem cget_csetN_out {b : Nat} : ∀ (l : List (BitVec w)) {c : Cells w} (a : Nat), Memory.wf c = true →
    b < a ∨ a + l.length ≤ b → cget (csetN c a l) b = cget c b
  | [], _, _, _, _ => rfl
  | v :: t, c, a, hc, h => by
    simp only [List.length_cons] at h
    rw [csetN, cget_csetN_out t (a + 1) (wf_cset a v hc) (by omega)]
    exact cget_cset_ne (by omega) v hc

/-- Consecutive writes: a cell among them reads as what was written. -/
theorem cget_csetN_in : ∀ (l : List (BitVec w)) {c : Cells w} (a k : Nat), Memory.wf c = true →
    (h : k < l.length) → cget (csetN c a l) (a + k) = l[k]
  | v :: t, c, a, 0, hc, _ => by
    rw [csetN, cget_csetN_out t (a + 1) (wf_cset a v hc) (by omega)]
    exact cget_cset_self a v hc
  | v :: t, c, a, k + 1, hc, h => by
    have := cget_csetN_in t (a + 1) k (wf_cset a v hc) (by simpa using h)
    simpa [csetN, Nat.add_assoc, Nat.add_comm 1] using this

/-! ### Equal contents are equal data -/

theorem cells_ext : ∀ {n : Nat} {c d : Cells w}, cellsFrom n c = true → cellsFrom n d = true →
    (∀ a, cget c a = cget d a) → c = d
  | _, [], [], _, _, _ => rfl
  | n, [], (k, v) :: t, _, hd, h => by
    simp only [cellsFrom, Bool.and_eq_true, bne_iff_ne] at hd
    have := h k
    simp [cget] at this
    exact absurd this.symm hd.1.2
  | n, (k, v) :: t, [], hc, _, h => by
    simp only [cellsFrom, Bool.and_eq_true, bne_iff_ne] at hc
    have := h k
    simp [cget] at this
    exact absurd this hc.1.2
  | n, (k, v) :: t, (k', v') :: t', hc, hd, h => by
    simp only [cellsFrom, Bool.and_eq_true, bne_iff_ne] at hc hd
    have hk : k = k' := by
      rcases Nat.lt_trichotomy k k' with hlt | he | hlt
      · have h1 := h k
        have h2 : k' ≠ k := by omega
        simp [cget, hlt, h2] at h1
        exact absurd h1 hc.1.2
      · exact he
      · have h1 := h k'
        have h2 : k ≠ k' := by omega
        simp [cget, hlt, h2] at h1
        exact absurd h1.symm hd.1.2
    subst hk
    have hv : v = v' := by simpa [cget] using h k
    subst hv
    have ht : t = t' := cells_ext hc.2 hd.2 fun a => by
      by_cases ha : a < k + 1
      · rw [cget_below ha hc.2, cget_below ha hd.2]
      · have h1 := h a
        have h2 : k ≠ a := by omega
        have h3 : ¬ a < k := by omega
        simpa [cget, h2, h3] using h1
    rw [ht]

end Sys2Proof.Machine
end

