-- ==== Sys2Proof/Laws/Issue.lean ====
section
/-! SUPPORT. What issuing and retiring an operation do, and bytes at their places. -/

namespace Sys2Proof.Machine

variable (s : State)

/-! ### Counters -/

@[simp] theorem Ctx.ctr_setCtr (c : Ctx) (k j : Ctr) (n : Nat) : (c.setCtr k n).ctr j = if k = j then n else c.ctr j := by
  cases k <;> cases j <;> rfl

theorem Ctx.ctr_count (c : Ctx) (k j : Ctr) : (c.count k).ctr j = c.ctr j + if k = j then 1 else 0 := by
  unfold Ctx.count; rw [Ctx.ctr_setCtr]; split <;> simp_all

theorem Ctx.ctr_uncount (c : Ctx) (k j : Ctr) : (c.uncount k).ctr j = c.ctr j - if k = j then 1 else 0 := by
  unfold Ctx.uncount; rw [Ctx.ctr_setCtr]; split <;> simp_all

theorem Ctx.issued_rest (c : Ctx) (ctr : Option Ctr) (lock : List RegName) :
    { c.issued ctr lock with sb := c.sb, ld := c.ld, st := c.st, cp := c.cp, tl := c.tl } = c := by
  cases ctr with
  | none => rfl
  | some k => cases k <;> rfl

theorem Ctx.issued_ctr (c : Ctx) (ctr : Option Ctr) (lock : List RegName) (k : Ctr) :
    (c.issued ctr lock).ctr k = c.ctr k + if ctr = some k then 1 else 0 := by
  cases ctr with
  | none => simp [Ctx.issued]; cases k <;> rfl
  | some j =>
    have h : (c.issued (some j) lock).ctr k = (c.count j).ctr k := by cases k <;> rfl
    rw [h, Ctx.ctr_count]
    simp only [Option.some.injEq]

theorem Ctx.issued_locked (c : Ctx) (ctr : Option Ctr) (lock : List RegName) (cyc : Nat) (x : RegName) :
    (c.issued ctr lock).locked cyc x = (c.locked cyc x || lock.contains x) := by
  have : (c.issued ctr lock).sb = (lock.reverse.map fun r => (r, none)) ++ c.sb := rfl
  unfold Ctx.locked
  rw [this, List.any_append, Bool.or_comm]
  congr 1
  rw [List.any_map, List.any_reverse]
  simp only [Function.comp_def, Bool.and_true, List.contains_eq_any_beq]
  congr 1; funext r
  by_cases h : r = x
  · simp [h]
  · simp [h, Ne.symm h]

@[simp] theorem Ctx.issued_regs (c : Ctx) (ctr : Option Ctr) (lock : List RegName) :
    (c.issued ctr lock).regs = c.regs := by
  cases ctr with
  | none => rfl
  | some k => cases k <;> rfl

@[simp] theorem Ctx.issued_wait (c : Ctx) (ctr : Option Ctr) (lock : List RegName) :
    (c.issued ctr lock).wait = c.wait := by
  cases ctr with
  | none => rfl
  | some k => cases k <;> rfl

/-! ### Issue -/

section
variable (ctr : Option Ctr) (kinds : BitVec 8) (ranges : List Rng) (lock : List RegName) (what : OpWhat)
  (due : Nat) (ev : Nat → Instr)

/-- The cores of a state decide what each core is. -/
theorem core_of_cores {a b : State} (h : a.cores = b.cores) (k : Nat) : a.core k = b.core k := by
  unfold State.core; rw [h]

theorem issueOp_core (k : Nat) : (s.issueOp ctr kinds ranges lock what due ev).core k
    = (s.modMyCore fun c => Core.setCtx { c with ops := c.ops ++
        [{ id := s.nextOp, ctx := s.cix, kinds, ctr, ranges, lock, what }] } s.cix
          (c.ctxs[s.cix].issued ctr lock)).core k := core_of_cores rfl k

theorem issueOp_core_ne {k : Nat} (h : k ≠ s.cur) : (s.issueOp ctr kinds ranges lock what due ev).core k = s.core k := by
  rw [issueOp_core]; exact State.core_modCore_ne s h _

theorem issueOp_core_self : (s.issueOp ctr kinds ranges lock what due ev).core s.cur
    = Core.setCtx
        { s.myCore with ops := s.myCore.ops ++ [{ id := s.nextOp, ctx := s.cix, kinds, ctr, ranges, lock, what }] }
        s.cix (s.me.issued ctr lock) := by
  rw [issueOp_core]; exact State.core_modCore_self ..

theorem issueOp_ctx_ne {k : Nat} {j : Fin 4} (h : k ≠ s.cur ∨ j ≠ s.cix) :
    (s.issueOp ctr kinds ranges lock what due ev).ctx k j = s.ctx k j := by
  by_cases hk : k = s.cur
  · subst hk
    have hj : s.cix.val ≠ j.val := fun e => (h.resolve_left (by simp)) (Fin.ext e.symm)
    unfold State.ctx
    rw [issueOp_core_self]
    simp [Core.setCtx, hj, State.myCore]
  · unfold State.ctx
    rw [issueOp_core_ne _ _ _ _ _ _ _ _ hk]

theorem issueOp_me : (s.issueOp ctr kinds ranges lock what due ev).me = s.me.issued ctr lock := by
  show State.ctx _ s.cur s.cix = _
  unfold State.ctx
  rw [issueOp_core_self]
  simp [Core.setCtx]

/-- Issuing an operation: it is the core's last, counted, its destinations awaited, its event due. -/
theorem issueOp_step : OperationStep s (s.issueOp ctr kinds ranges lock what due ev)
    { id := s.nextOp, ctx := s.cix, kinds, ctr, ranges, lock, what } s.me.regs s.me.wait due (ev s.nextOp) where
  alone := by
    refine ⟨rfl, fun k h => issueOp_core_ne _ _ _ _ _ _ _ _ h, fun j h => ?_⟩
    exact issueOp_ctx_ne _ _ _ _ _ _ _ _ (.inr h)
  number := ⟨rfl, rfl, rfl⟩
  agenda := rfl
  ops := by rw [issueOp_core_self]; rfl
  regs := by rw [issueOp_me, Ctx.issued_regs]
  counters := fun k => by rw [issueOp_me, Ctx.issued_ctr]
  ctx := by
    rw [issueOp_me]
    have h := s.me.issued_rest ctr lock
    have h1 : (s.me.issued ctr lock).regs = s.me.regs := by simp
    have h2 : (s.me.issued ctr lock).wait = s.me.wait := by simp
    rw [← h1, ← h2]; exact h
  waits := by rw [issueOp_me, Ctx.issued_wait]
  awaited := fun c x => by rw [issueOp_me, Ctx.issued_locked]

theorem issueOp_units : UnitsKept s (s.issueOp ctr kinds ranges lock what due ev) := by
  unfold UnitsKept
  rw [issueOp_core_self]
  rfl

end

/-- The state after an issue reads every byte as before. -/
theorem issueOp_bytes (ctr kinds ranges lock what due ev) : SameBytes s (s.issueOp ctr kinds ranges lock what due ev) := by
  intro l
  have hscr : ∀ k, ((s.issueOp ctr kinds ranges lock what due ev).core k).scr = (s.core k).scr := by
    intro k
    by_cases h : k = s.cur
    · subst h; rw [issueOp_core_self]; rfl
    · rw [issueOp_core_ne _ _ _ _ _ _ _ _ h]
  have hlid : ∀ k, ((s.issueOp ctr kinds ranges lock what due ev).core k).lid = (s.core k).lid := by
    intro k
    by_cases h : k = s.cur
    · subst h; rw [issueOp_core_self]; rfl
    · rw [issueOp_core_ne _ _ _ _ _ _ _ _ h]
  cases l with
  | mem a => rfl
  | scr n o => simp only [State.getLoc, hscr]
  | lid n o => simp only [State.getLoc, hlid]

/-- A register written by the issuing word and an operation: together. -/
theorem wr_issueOp_step (f : Regs → Regs) (ctr kinds ranges lock what due ev) :
    OperationStep s ((s.wr f).issueOp ctr kinds ranges lock what due ev)
      { id := s.nextOp, ctx := s.cix, kinds, ctr, ranges, lock, what } (f s.me.regs) s.me.wait due (ev s.nextOp) := by
  have h := issueOp_step (s.wr f) ctr kinds ranges lock what due ev
  have hm : (s.wr f).me = { s.me with regs := f s.me.regs } := State.me_wr ..
  refine ⟨⟨?_, fun k hk => ?_, fun j hj => ?_⟩, h.number, h.agenda, ?_, ?_, fun k => ?_, ?_, ?_, fun c x => ?_⟩
  · rfl
  · rw [h.alone.cores k hk]; exact State.core_modCore_ne _ hk _
  · have := h.alone.others j hj
    exact this.trans (State.ctx_modMe_ne _ (.inr hj) _)
  · have := h.ops
    simp only [State.wr_cur] at this
    rw [this]
    show ((State.modCtx s s.cur s.cix _).core s.cur).ops ++ _ = _
    rw [State.core_modCtx, if_pos rfl]; rfl
  · rw [h.regs, hm]
  · rw [h.counters, hm]; cases k <;> rfl
  · have := h.ctx
    rw [hm] at this
    have e := congrArg (fun c : Ctx => { c with regs := s.me.regs }) this
    exact e
  · rw [h.waits, hm]
  · rw [h.awaited, hm]; rfl

/-! ### Values of bytes -/

theorem leVal_lt : ∀ l : List Byte, leVal l < 2 ^ (8 * l.length)
  | [] => by simp [leVal]
  | b :: t => by
    have ih := leVal_lt t
    have hb := b.isLt
    simp only [leVal, List.length_cons]
    rw [show 8 * (t.length + 1) = 8 * t.length + 8 by ring, Nat.pow_add]
    omega

/-- Byte k of a little-endian number. -/
theorem leVal_div : ∀ (l : List Byte) (k : Nat) (h : k < l.length), leVal l / 2 ^ (8 * k) % 256 = l[k].toNat
  | b :: t, 0, _ => by
    have hb := b.isLt
    simp only [leVal, Nat.mul_zero, Nat.pow_zero, Nat.div_one, List.getElem_cons_zero]
    omega
  | b :: t, k + 1, h => by
    have ih := leVal_div t k (by simpa using h)
    have hb := b.isLt
    simp only [leVal, List.getElem_cons_succ]
    rw [show 8 * (k + 1) = 8 + 8 * k by ring, Nat.pow_add, ← Nat.div_div_eq_div_mul]
    rw [show (b.toNat + 256 * leVal t) / 2 ^ 8 = leVal t by omega]
    exact ih

theorem byteOf_ofLe {w : Nat} (l : List Byte) (k : Nat) (h : k < l.length) (hw : 8 * k + 8 ≤ w) :
    byteOf (ofLe w l) k = l[k] := by
  apply BitVec.eq_of_toNat_eq
  rw [← leVal_div l k h]
  unfold byteOf ofLe
  rw [BitVec.extractLsb'_toNat, BitVec.toNat_ofNat, Nat.shiftRight_eq_div_pow]
  obtain ⟨d, rfl⟩ : ∃ d, w = 8 * k + (8 + d) := ⟨w - 8 * k - 8, by omega⟩
  rw [Nat.pow_add 2 (8 * k), Nat.mod_mul_right_div_self, Nat.pow_add 2 8]
  rw [Nat.mod_mul_right_mod]

@[simp] theorem length_leBytes : ∀ n v, (leBytes n v).length = n
  | 0, _ => rfl
  | n + 1, v => by simp [leBytes, length_leBytes n]

theorem leBytes_get : ∀ (n v k : Nat) (h : k < n), (leBytes n v)[k]'(by simpa using h) = BitVec.ofNat 8 (v / 256 ^ k)
  | n + 1, v, 0, _ => by simp [leBytes]
  | n + 1, v, k + 1, h => by
    simp only [leBytes, List.getElem_cons_succ]
    rw [leBytes_get n (v / 256) k (by omega), Nat.div_div_eq_div_mul, ← Nat.pow_succ']

/-- Little-endian bytes are the bytes of the value. -/
theorem leBytes_eq {w : Nat} (n : Nat) (v : BitVec w) : leBytes n v.toNat = (List.range n).map (byteOf v) := by
  apply List.ext_getElem (by simp)
  intro k h1 h2
  rw [leBytes_get n _ k (by simpa using h1)]
  simp only [List.getElem_map, List.getElem_range]
  apply BitVec.eq_of_toNat_eq
  simp only [byteOf, BitVec.extractLsb'_toNat, Nat.shiftRight_eq_div_pow, BitVec.toNat_ofNat]
  rw [show (256 : Nat) ^ k = 2 ^ (8 * k) by rw [show (256 : Nat) = 2 ^ 8 from rfl, ← pow_mul]]

/-! ### Retirement -/

theorem Ctx.retired_sb (c : Ctx) (op : Op) : (c.retired op).sb = c.sb.filter fun x => !op.lock.contains x.1 := rfl

@[simp] theorem Ctx.retired_regs (c : Ctx) (op : Op) : (c.retired op).regs = c.regs := by
  unfold Ctx.retired; cases op.ctr with
  | none => rfl
  | some k => cases k <;> rfl

@[simp] theorem Ctx.retired_wait (c : Ctx) (op : Op) : (c.retired op).wait = c.wait := by
  unfold Ctx.retired; cases op.ctr with
  | none => rfl
  | some k => cases k <;> rfl

@[simp] theorem Ctx.retired_snap (c : Ctx) (op : Op) : (c.retired op).snap = c.snap := by
  unfold Ctx.retired; cases op.ctr with
  | none => rfl
  | some k => cases k <;> rfl

theorem Ctx.retired_rest (c : Ctx) (op : Op) :
    { c.retired op with sb := c.sb, ld := c.ld, st := c.st, cp := c.cp, tl := c.tl, fences := c.fences } = c := by
  unfold Ctx.retired; cases op.ctr with
  | none => rfl
  | some k => cases k <;> rfl

theorem Ctx.retired_ctr (c : Ctx) (op : Op) (k : Ctr) :
    (c.retired op).ctr k = c.ctr k - if op.ctr = some k then 1 else 0 := by
  unfold Ctx.retired
  cases op.ctr with
  | none => cases k <;> rfl
  | some j => cases k <;> cases j <;> rfl

theorem any_unlocked (ls : List RegName) (x : RegName) (f : Option Nat → Bool) : ∀ l : List (RegName × Option Nat),
    (l.filter fun a => !ls.contains a.1).any (fun a => a.1 == x && f a.2)
      = (!ls.contains x && l.any fun a => a.1 == x && f a.2)
  | [] => by simp
  | a :: t => by
    have ih := any_unlocked ls x f t
    by_cases h : a.1 = x
    · subst h
      rw [List.filter_cons]
      cases hc : ls.contains a.1
      · rw [if_pos (by simp), List.any_cons, ih, hc]; simp
      · rw [if_neg (by simp), ih, hc]; simp
    · have hb : (a.1 == x) = false := by simp [h]
      rw [List.filter_cons, List.any_cons, hb, Bool.false_and, Bool.false_or, ← ih]
      split
      · rw [List.any_cons, hb, Bool.false_and, Bool.false_or]
      · rfl

theorem Ctx.retired_locked (c : Ctx) (op : Op) (cyc : Nat) (x : RegName) :
    (c.retired op).locked cyc x = (!op.lock.contains x && c.locked cyc x) :=
  any_unlocked op.lock x (fun t => match t with | none => true | some n => decide (cyc < n)) c.sb

theorem Ctx.retired_fences (c : Ctx) (op : Op) : ∀ f ∈ (c.retired op).fences, op.id ∉ f.ops := by
  intro f hf
  obtain ⟨g, _, rfl⟩ := List.mem_map.1 (List.mem_filter.1 hf).1
  simp

/-- Requests to the hub change the agenda and the latencies only. -/
theorem foldl_askHub (core : Nat) (ctx : Fin 4) : ∀ (l : List (Fin 32)) (s : State),
    ∃ ag de, l.foldl (fun s d => s.askHub core ctx d) s = { s with agenda := ag, delays := de }
  | [], s => ⟨s.agenda, s.delays, rfl⟩
  | d :: t, s => by
    obtain ⟨ag, de, h⟩ := foldl_askHub core ctx t (s.askHub core ctx d)
    exact ⟨ag, de, h⟩

/-- Retiring an operation, in one record but for the agenda and the latencies, which a PUBLISH that waited
for it alone changes. -/
theorem retireOp_eq (core : Nat) (op : Op) : ∃ ag de, s.retireOp core op
    = { (s.modCore core fun c => Core.setCtx { c with ops := c.ops.filter (·.id != op.id) } op.ctx
          (c.ctxs[op.ctx].retired op)) with agenda := ag, delays := de } :=
  foldl_askHub core op.ctx _ _

theorem retireOp_core (core : Nat) (op : Op) (k : Nat) : (s.retireOp core op).core k
    = if k = core then Core.setCtx { s.core core with ops := (s.core core).ops.filter (·.id != op.id) } op.ctx
        ((s.ctx core op.ctx).retired op) else s.core k := by
  obtain ⟨ag, de, h⟩ := retireOp_eq s core op
  rw [h]
  refine (core_of_cores (b := s.modCore core fun c => Core.setCtx { c with ops := c.ops.filter (·.id != op.id) } op.ctx
          (c.ctxs[op.ctx].retired op)) rfl k).trans ?_
  rw [State.core_modCore]; rfl

theorem retireOp_ctx (core : Nat) (op : Op) : (s.retireOp core op).ctx core op.ctx = (s.ctx core op.ctx).retired op := by
  unfold State.ctx
  rw [retireOp_core, if_pos rfl]
  simp [Core.setCtx, State.ctx]

theorem retireOp_ctx_ne (core : Nat) (op : Op) {k : Nat} {j : Fin 4} (h : k ≠ core ∨ j ≠ op.ctx) :
    (s.retireOp core op).ctx k j = s.ctx k j := by
  unfold State.ctx
  rw [retireOp_core]
  split
  · next hk =>
    subst hk
    have hj : op.ctx.val ≠ j.val := fun e => (h.resolve_left (by simp)) (Fin.ext e.symm)
    simp [Core.setCtx, hj]
  · rfl

/-- What retiring an operation does. -/
theorem retireOp_retired (core : Nat) (op : Op) : Retired s (s.retireOp core op) core op where
  package := by obtain ⟨ag, de, h⟩ := retireOp_eq s core op; rw [h]; rfl
  others := fun k j h => by rw [retireOp_ctx_ne s core op h]
  ops := by rw [retireOp_core, if_pos rfl]; rfl
  counters := fun k => by rw [retireOp_ctx, Ctx.retired_ctr]
  awaited := fun c x => by rw [retireOp_ctx, Ctx.retired_locked]
  fences := by rw [retireOp_ctx]; exact Ctx.retired_fences _ _

/-- Retiring leaves every byte. -/
theorem retireOp_bytes (core : Nat) (op : Op) : SameBytes s (s.retireOp core op) := by
  have h : ∀ k, ((s.retireOp core op).core k).scr = (s.core k).scr ∧ ((s.retireOp core op).core k).lid = (s.core k).lid := by
    intro k; rw [retireOp_core]; split
    · next hk => subst hk; exact ⟨rfl, rfl⟩
    · exact ⟨rfl, rfl⟩
  intro l
  cases l with
  | mem a => obtain ⟨ag, de, h⟩ := retireOp_eq s core op; rw [h]; rfl
  | scr n o => simp only [State.getLoc, (h n).1]
  | lid n o => simp only [State.getLoc, (h n).2]

end Sys2Proof.Machine
end

