-- ==== Sys2Proof/Laws/Access.lean ====
section
/-! SUPPORT. What loads and stores do when they issue: the lemmas of State.loadAt and State.storeAt, in the
terms of Safety.Operation. -/

namespace Sys2Proof.Machine

variable (s : State)

/-! ### Values of loads -/

theorem signExtend_ofNat (n v : Nat) : (BitVec.ofNat n v).signExtend 64 = BitVec.ofInt 64 (Int.bmod v (2 ^ n)) := by
  rw [BitVec.signExtend, BitVec.toInt_ofNat']

theorem styExtend_eq (ty : STy) (v : Nat) : styExtend ty v = loadedValue ty v := by
  cases ty
  · exact signExtend_ofNat 8 v
  · exact signExtend_ofNat 16 v
  · exact signExtend_ofNat 32 v
  all_goals rfl

/-- The bytes of a list of lists of one length. -/
theorem getD_flatMap {α β : Type} (f : α → List β) (n : Nat) (d : β) : ∀ (l : List α), (∀ x ∈ l, (f x).length = n) →
    ∀ (i j : Nat) (h : i < l.length), j < n → (l.flatMap f).getD (n * i + j) d = (f l[i]).getD j d
  | x :: t, hl, 0, j, _, hj => by
    have hx := hl x (by simp)
    simp only [List.flatMap_cons, Nat.mul_zero, Nat.zero_add, List.getElem_cons_zero]
    rw [List.getD_eq_getElem?_getD, List.getD_eq_getElem?_getD, List.getElem?_append_left (by omega)]
  | x :: t, hl, i + 1, j, h, hj => by
    have hx := hl x (by simp)
    simp only [List.flatMap_cons, List.getElem_cons_succ]
    rw [List.getD_eq_getElem?_getD, List.getElem?_append_right (by rw [hx]; nlinarith)]
    rw [show n * (i + 1) + j - (f x).length = n * i + j by rw [hx, Nat.mul_add]; omega]
    rw [← List.getD_eq_getElem?_getD]
    exact getD_flatMap f n d t (fun y hy => hl y (by simp [hy])) i j (by simpa using h) hj

theorem length_flatMap_const {α β : Type} (f : α → List β) (n : Nat) : ∀ (l : List α), (∀ x ∈ l, (f x).length = n) →
    (l.flatMap f).length = n * l.length
  | [], _ => by simp
  | x :: t, h => by
    rw [List.flatMap_cons, List.length_append, length_flatMap_const f n t (fun y hy => h y (by simp [hy])),
      h x (by simp), List.length_cons, Nat.mul_add]; omega

/-- LDTX's value, element by element (R378). -/
theorem ldtxTile_byte (sz : Fin 4) (b : List Byte) (i c k : Nat) (hi : i < 128) (hc : c < 16 / 2 ^ sz.val)
    (hk : k < 2 ^ sz.val) :
    byteOf (ldtxTile (2 ^ sz.val) b) (16 * i + 2 ^ sz.val * c + k) = ldtxByte (2 ^ sz.val) b i c k := by
  obtain ⟨z, hz⟩ : ∃ z, z = 2 ^ sz.val := ⟨_, rfl⟩
  have h16 : z * (16 / z) = 16 := by
    subst hz; clear hc hk; revert sz; decide
  rw [← hz] at hc hk ⊢
  have hel : ∀ i c, ((List.range z).map fun k => b.toArray.getD (c * 128 * z + z * i + k) 0).length = z := by simp
  have hlane : ∀ i, ((List.range (16 / z)).flatMap fun c =>
      (List.range z).map fun k => b.toArray.getD (c * 128 * z + z * i + k) 0).length = 16 := by
    intro i
    rw [length_flatMap_const _ z _ (fun c _ => hel i c)]; simp [h16]
  have hck : z * c + k < 16 := by
    have : z * c + z ≤ z * (16 / z) := by rw [← Nat.mul_succ]; exact Nat.mul_le_mul_left _ hc
    omega
  have hlen : ((List.range 128).flatMap fun i => (List.range (16 / z)).flatMap fun c =>
      (List.range z).map fun k => b.toArray.getD (c * 128 * z + z * i + k) 0).length = 16 * 128 := by
    rw [length_flatMap_const _ 16 _ (fun i _ => hlane i)]; simp
  unfold ldtxTile
  simp only
  rw [byteOf_ofLe _ _ (by rw [hlen]; omega) (by omega)]
  rw [← List.getD_eq_getElem (d := 0), Nat.add_assoc]
  rw [getD_flatMap _ 16 0 _ (fun i _ => hlane i) i _ (by simpa using hi) hck]
  rw [getD_flatMap _ z 0 _ (fun c _ => hel _ c) c _ (by simpa using hc) hk]
  simp [ldtxByte, hk, List.getD_eq_getElem?_getD]

/-- Bytes written to a register destination. -/
def LoadTo.put (dst : LoadTo) (b : List Byte) (r : Regs) : Regs :=
  match dst with
  | .s d ty => r.ws d (styExtend ty (leVal b))
  | .v d => r.wv d (ofLe 2048 b)
  | .t d => r.wt d (ofLe 16384 b)
  | .tx d sz => r.wt d (ldtxTile (2 ^ sz.val) b)
  | .scale _ => r

theorem LoadTo.put_loaded (dst : LoadTo) (b : List Byte) (r : Regs) : Loaded r (dst.put b r) dst b := by
  cases dst with
  | s d ty => exact ⟨r.keeps_ws d _, by rw [LoadTo.put, Regs.rs_ws_self, styExtend_eq]⟩
  | v d => exact ⟨r.keeps_wv d _, fun k h h2 => by rw [LoadTo.put, Regs.wv_self, byteOf_ofLe _ _ h (by omega)]⟩
  | t d => exact ⟨r.keeps_wt d _, fun k h h2 => by rw [LoadTo.put, Regs.wt_self, byteOf_ofLe _ _ h (by omega)]⟩
  | tx d sz => exact ⟨r.keeps_wt d _, fun i c k h1 h2 h3 => by rw [LoadTo.put, Regs.wt_self, ldtxTile_byte sz b i c k h1 h2 h3]⟩
  | scale _ => rfl

theorem writeLoadNow_eq (dst : LoadTo) (b : List Byte) (h : ∀ n, dst ≠ .scale n) :
    s.writeLoadNow dst b = s.wr (dst.put b) := by
  cases dst <;> first | rfl | exact absurd rfl (h _)

theorem wr_units (f : Regs → Regs) : UnitsKept s (s.wr f) := by
  unfold UnitsKept
  rw [show (s.wr f).core s.cur = _ from State.core_modCore_self ..]
  rfl

/-! ### Issue -/

theorem OperationStep.dropDelay {s t : State} {op r w due ev} (h : OperationStep s t op r w due ev) :
    OperationStep s t.dropDelay op r w due ev where
  alone := ⟨h.alone.package, h.alone.cores, h.alone.others⟩
  number := h.number
  agenda := h.agenda
  ops := h.ops
  regs := h.regs
  counters := h.counters
  ctx := h.ctx
  waits := h.waits
  awaited := h.awaited

theorem UnitsKept.trans {s t u : State} (h : UnitsKept s t) (h' : UnitsKept t u) (hc : t.cur = s.cur) : UnitsKept s u := by
  unfold UnitsKept at *
  rw [hc] at h'
  have e := congrArg (fun c : Core => { c with ctxs := (s.core s.cur).ctxs, ops := (s.core s.cur).ops }) h'
  exact e.trans h

theorem loadHere_step (dst : LoadTo) (b : List Byte) (lat : Nat) (h : ∀ n, dst ≠ .scale n) :
    UnitsKept s (s.loadHere dst b lat) ∧ ∃ r, OperationStep s (s.loadHere dst b lat) (loadOp s dst .settled) r s.me.wait
      (s.cycle + lat) (.loadWriteback s.cur s.nextOp) ∧ Loaded s.me.regs r dst b := by
  unfold State.loadHere
  rw [writeLoadNow_eq s dst b h]
  refine ⟨?_, dst.put b s.me.regs, wr_issueOp_step s _ _ _ _ _ _ _ _, dst.put_loaded b _⟩
  exact (wr_units s _).trans (issueOp_units _ _ _ _ _ _ _ _) rfl

theorem loadFar_step (dst : LoadTo) (src : List Src) (due : Nat) (buf : Bool) :
    UnitsKept s (s.loadFar dst src due buf) ∧ OperationStep s (s.loadFar dst src due buf) (loadOp s dst (.load dst src))
      s.me.regs s.me.wait due ((if buf then Instr.remoteBufferAccess else Instr.loadWriteback) s.cur s.nextOp) := by
  have h := issueOp_step s (some .ld) kLd [] dst.locks (.load dst src) due
    (if buf then .remoteBufferAccess s.cur else .loadWriteback s.cur)
  have hu := issueOp_units s (some .ld) kLd [] dst.locks (.load dst src) due
    (if buf then .remoteBufferAccess s.cur else .loadWriteback s.cur)
  refine ⟨hu, ?_⟩
  have := h.dropDelay
  cases buf <;> exact this

theorem latency_pos (b : Option Nat) (hb : ∀ n, b = some n → 1 ≤ n) : 1 ≤ s.latency b := by
  unfold State.latency
  cases b with
  | none => simp only; omega
  | some n => have := hb n rfl; simp only; omega

theorem latency_le (n : Nat) : s.latency (some n) ≤ n := by simp [State.latency]

theorem lcBound_pos (lc : Nat) (n : Nat) (h : lcBound lc = some n) : 1 ≤ n := by
  unfold lcBound at h; split at h <;> simp at h <;> omega

theorem loadAt_issued (p : Place) (dst : LoadTo) (n lat : Nat) (h : ∀ n, dst ≠ .scale n) :
    LoadIssued s (s.loadAt p dst n lat) p dst n lat := by
  cases p with
  | here off => exact loadHere_step s dst _ lat h
  | there core off =>
    have := loadFar_step s dst (bufSrc core off n) (s.cycle + s.latency none) true
    refine ⟨this.1, s.cycle + s.latency none, ?_, this.2⟩
    have := latency_pos s none (by simp); omega
  | mem h off =>
    have := loadFar_step s dst (s.memSrc (Handle.place (s.hreg h) off) n)
      (s.cycle + s.latency (lcBound (Handle.lc (s.hreg h)))) false
    refine ⟨this.1, _, s.cycle + s.latency (lcBound (Handle.lc (s.hreg h))), ?_, fun b hb => ?_, ?_, ?_, this.2⟩
    · have := latency_pos s (lcBound (Handle.lc (s.hreg h))) (fun n hn => lcBound_pos _ n hn); omega
    · rw [hb]; have := latency_le s b; omega
    · simp [State.memSrc]
    · intro k hk
      simp only [State.memSrc, List.getElem?_map, List.getElem?_range hk, Option.map_some, State.sent]
      cases queued (s.myCore.ops.filter fun o => !s.opHeld s.cur o) (Handle.place (s.hreg h) off + k) <;> rfl

/-! ### Stores -/

theorem putScr_eq (off : Nat) (b : List Byte) : s.putScr s.cur off b
    = s.modMyCore fun c => { c with scr := csetN c.scr off b } := rfl

/-- A core-only change that keeps contexts and operations, followed by an issue. -/
theorem modMyCore_issueOp_step (f : Core → Core) (hf : ∀ c, (f c).ctxs = c.ctxs) (ho : ∀ c, (f c).ops = c.ops)
    (ctr kinds ranges lock what due ev) :
    OperationStep s ((s.modMyCore f).issueOp ctr kinds ranges lock what due ev)
      { id := s.nextOp, ctx := s.cix, kinds, ctr, ranges, lock, what } s.me.regs s.me.wait due (ev s.nextOp) := by
  have h := issueOp_step (s.modMyCore f) ctr kinds ranges lock what due ev
  have hcx : ∀ j, (s.modMyCore f).ctx s.cur j = s.ctx s.cur j := by
    intro j; unfold State.ctx
    rw [show (s.modMyCore f).core s.cur = f (s.core s.cur) from State.core_modCore_self .., hf]
  have hm : (s.modMyCore f).me = s.me := hcx s.cix
  have hops : ((s.modMyCore f).core s.cur).ops = (s.core s.cur).ops := by
    rw [show (s.modMyCore f).core s.cur = f (s.core s.cur) from State.core_modCore_self .., ho]
  refine ⟨⟨rfl, fun k hk => ?_, fun j hj => ?_⟩, h.number, h.agenda, ?_, ?_, fun k => ?_, ?_, ?_, fun c x => ?_⟩
  · rw [h.alone.cores k hk]; exact State.core_modCore_ne _ hk _
  · exact (h.alone.others j hj).trans (hcx j)
  · exact h.ops.trans (by rw [show (s.modMyCore f).cur = s.cur from rfl, hops]; rfl)
  · rw [h.regs, hm]
  · rw [h.counters, hm]
  · have := h.ctx; rw [hm] at this; exact this
  · rw [h.waits, hm]
  · rw [h.awaited, hm]

theorem aset_aset {α : Type} (a : Nat) (v w : α) : ∀ l : List (Nat × α), aset (aset l a v) a w = aset l a w
  | [] => by simp [aset]
  | (k, x) :: t => by
    by_cases hk : k = a
    · simp [aset, hk]
    · by_cases h : a < k
      · simp [aset, hk, h]
      · simp [aset, hk, h, aset_aset a v w t]

theorem modCore_modCore (n : Nat) (f g : Core → Core) : (s.modCore n f).modCore n g = s.modCore n fun c => g (f c) := by
  unfold State.modCore State.setCore
  rw [show State.core { s with cores := aset s.cores n (f (s.core n)) } n = f (s.core n) from State.core_setCore_self ..]
  simp only [aset_aset]

/-- Writing consecutive bytes one by one. -/
theorem foldl_cset (m0 : Nat) : ∀ (b : List Byte) (k : Nat) (m : Cells 8),
    ((b.zipIdx k).map fun (v, k) => (m0 + k, v)).foldl (fun m b => cset m b.1 b.2) m = csetN m (m0 + k) b
  | [], _, _ => rfl
  | v :: t, k, m => by
    rw [List.zipIdx_cons, List.map_cons, List.foldl_cons, foldl_cset m0 t (k + 1)]; rfl

/-- A write to the own scratchpad: whether something holds it, and what it does (R182, R245). -/
theorem writeCells_eq (bs : List (Nat × Byte)) (mark : Option (Nat × Nat × Bool)) :
    ∃ h : Held, h.bytes = bs ∧ h.mark = mark ∧ h.store = s.nextOp ∧ h.ctx = s.cix
      ∧ (h.free s.cycle = true ↔ s.me.undo = none
          ∧ ∀ o ∈ s.myCore.ops, ∀ r ∈ o.ranges, ∀ b ∈ bs, ¬ (r.lo ≤ b.1 ∧ b.1 < r.hi))
      ∧ s.writeCells bs mark
        = s.modMyCore fun c => if h.free s.cycle then c.putHeld h else { c with held := c.held ++ [h] } := by
  refine ⟨_, rfl, rfl, rfl, rfl, ?_, rfl⟩
  simp only [Held.free, Bool.and_eq_true, List.isEmpty_iff, List.map_eq_nil_iff, List.filter_eq_nil_iff,
    Bool.not_eq_true', Option.isSome_eq_false_iff, Option.isNone_iff_eq_none, decide_eq_true_eq, List.any_eq_true,
    beq_iff_eq, not_exists, not_and]
  constructor
  · rintro ⟨⟨h1, h2⟩, h3⟩
    refine ⟨h2, fun o ho r hr b hb h4 h5 => ?_⟩
    cases hw : r.wr
    · rw [if_pos ⟨o, ho, r, hr, hw, b, hb, h4, h5⟩] at h3; omega
    · exact h1 o ho r hr hw b hb h4 h5
  · rintro ⟨h1, h2⟩
    refine ⟨⟨fun o ho r hr _ b hb => h2 o ho r hr b hb, h1⟩, ?_⟩
    rw [if_neg]
    rintro ⟨o, ho, r, hr, _, b, hb, h4, h5⟩
    exact h2 o ho r hr b hb h4 h5

/-- A local store, as a change of its core. -/
theorem storeHere_eq (off : Nat) (b : List Byte) (full : Option Nat) :
    ∃ (f : Core → Core) (h : Held), s.storeHere off b full = s.modMyCore f
      ∧ (h.store = s.nextOp ∧ h.ctx = s.cix ∧ h.bytes.map (·.2) = b ∧ ∀ k (l : k < h.bytes.length), h.bytes[k].1 = off + k)
      ∧ (∀ c, { f c with scr := c.scr, fe := c.fe, held := c.held } = c)
      ∧ (s.NoneHolds off b.length → ∀ c, (f c).scr = csetN c.scr off b ∧ (f c).held = c.held
          ∧ (f c).fe = match full with
            | none => c.fe
            | some w => cset c.fe w 1)
      ∧ (¬ s.NoneHolds off b.length → ∀ c, f c = { c with held := c.held ++ [h] }) := by
  obtain ⟨h, hb, hm, h1, h2, hf, he⟩ := writeCells_eq s (b.zipIdx.map fun (v, k) => (off + k, v))
    (full.map fun w => (w, 1, true))
  have hn : h.free s.cycle = true ↔ s.NoneHolds off b.length := by
    rw [hf, State.NoneHolds]
    refine and_congr_right fun _ => forall₄_congr fun o _ r _ => ?_
    unfold overlap
    rw [decide_eq_false_iff_not]
    constructor
    · intro hx hy
      have hk : max r.lo off - off < b.length := by omega
      refine hx (max r.lo off, b[max r.lo off - off]) ?_ ⟨by simp, by simp; omega⟩
      refine List.mem_map.2 ⟨(b[max r.lo off - off], max r.lo off - off), ?_, by simp⟩
      rw [List.mem_zipIdx_iff_getElem?]; simp [hk]
    · intro hx y hy hz
      obtain ⟨⟨v, k⟩, hv, rfl⟩ := List.mem_map.1 hy
      have := (List.mem_zipIdx_iff_getElem?.1 hv)
      obtain ⟨hk, _⟩ := List.getElem?_eq_some_iff.1 this
      simp only at hz hk
      omega
  refine ⟨_, h, he, ⟨h1, h2, ?_, fun k l => ?_⟩, fun c => ?_, fun hc c => ?_, fun hc c => ?_⟩
  · rw [hb, List.map_map]
    exact (List.map_congr_left fun x _ => rfl).trans (List.zipIdx_map_fst 0 b)
  · simp only [hb, List.getElem_map, List.getElem_zipIdx, Nat.zero_add]
  · split <;> rfl
  · rw [if_pos (hn.2 hc)]
    refine ⟨?_, rfl, ?_⟩
    · show h.bytes.foldl _ _ = _
      rw [hb]; exact foldl_cset off b 0 c.scr
    · show (match h.mark with | some (w, n, full) => _ | none => _) = _
      rw [hm]; cases full <;> rfl
  · rw [if_neg (mt hn.1 hc)]

/-- A state whose memories are canonical: its scratchpads are (Safety). -/
theorem aget_all {α : Type} (p : Nat × α → Bool) : ∀ {l : List (Nat × α)} {k : Nat} {v : α}, l.all p = true →
    aget l k = some v → p (k, v) = true
  | (a, x) :: t, k, v, hl, h => by
    simp only [List.all_cons, Bool.and_eq_true] at hl
    unfold aget at h
    split at h
    · next e => simp only [Option.some.injEq] at h; subst h; subst e; exact hl.1
    · exact aget_all p hl.2 h

theorem canon_core (h : s.canon = true) (k : Nat) : (s.core k).canon = true := by
  unfold State.canon at h
  simp only [Bool.and_eq_true] at h
  unfold State.core
  cases e : aget s.cores k with
  | none => rfl
  | some c => exact aget_all (fun k => k.2.canon) h.2 e

theorem canon_scr (h : s.canon = true) (k : Nat) : Memory.wf (s.core k).scr = true := by
  have := canon_core s h k
  unfold Core.canon at this
  simp only [Bool.and_eq_true] at this
  exact this.1.1.1

theorem storeHere_written (off : Nat) (b : List Byte) (full : Option Nat) (hs : s.canon = true) :
    ScrWritten s (s.storeHere off b full) off b := by
  obtain ⟨f, h, hf, hb, h1, h2, h3⟩ := storeHere_eq s off b full
  have hw := canon_scr s hs s.cur
  have hcore : ∀ k, (s.storeHere off b full).core k = if k = s.cur then f (s.core k) else s.core k := by
    intro k; rw [hf, show s.modMyCore f = s.modCore s.cur f from rfl, State.core_modCore]; split
    · next h => rw [h]
    · rfl
  have hlid : ∀ k, ((s.storeHere off b full).core k).lid = (s.core k).lid := by
    intro k; rw [hcore]; split
    · have e := congrArg Core.lid (h1 (s.core k)); exact e
    · rfl
  have hme : (s.storeHere off b full).core s.cur = f (s.core s.cur) := by rw [hcore, if_pos rfl]
  have hmy : (s.storeHere off b full).myCore = f s.myCore := by
    rw [show (s.storeHere off b full).myCore = (s.storeHere off b full).core s.cur by rw [hf]; rfl, hme]; rfl
  refine ⟨fun l hl => ?_, fun hn => ⟨?_, fun k hk => ?_⟩, fun hn => ⟨fun l => ?_, h, ?_, hb⟩⟩
  · cases l with
    | mem a => rw [hf]; rfl
    | lid n a => simp only [State.getLoc, hlid]
    | scr n o =>
      unfold State.getLoc; simp only [hcore]; split
      · next e =>
        subst e
        by_cases hn : s.NoneHolds off b.length
        · rw [(h2 hn _).1]
          refine cget_csetN_out b off hw ?_
          by_contra hc
          exact hl (o - off) (by omega) (by rw [show off + (o - off) = o by omega])
        · rw [h3 hn]
      · rfl
  · rw [hmy, (h2 hn _).2.1]
  · unfold State.getLoc
    simp only [hcore, if_true, (h2 hn (s.core s.cur)).1]
    exact cget_csetN_in b off k hw hk
  · cases l with
    | mem a => rw [hf]; rfl
    | lid n a => simp only [State.getLoc, hlid]
    | scr n o =>
      unfold State.getLoc; simp only [hcore]; split
      · rw [h3 hn]
      · rfl
  · rw [hmy, h3 hn]

theorem dropDelay_getLoc (l : Loc) : s.dropDelay.getLoc l = s.getLoc l := by cases l <;> rfl

theorem storeAt_issued (p : Place) (b : List Byte) (hs : s.canon = true) : StoreIssued s (s.storeAt p b) p b := by
  cases p with
  | here off =>
    obtain ⟨f, -, hf, -, h1, -⟩ := storeHere_eq s off b none
    have hb := storeHere_written s off b none hs
    have ho : ∀ c, (f c).ops = c.ops := fun c => by have := congrArg Core.ops (h1 c); exact this
    have hx : ∀ c, (f c).ctxs = c.ctxs := fun c => by have := congrArg Core.ctxs (h1 c); exact this
    unfold State.storeAt StoreIssued
    simp only
    have hi := issueOp_bytes (s.storeHere off b none) (some .st) kSt [] [] .settled (s.cycle + 1) (.storePerform s.cur)
    have hh : ((s.storeHere off b none).issueOp (some .st) kSt [] [] .settled (s.cycle + 1) (.storePerform s.cur)).myCore.held
        = (s.storeHere off b none).myCore.held := by
      have hu := issueOp_units (s.storeHere off b none) (some .st) kSt [] [] .settled (s.cycle + 1) (.storePerform s.cur)
      unfold UnitsKept at hu
      have e := congrArg Core.held hu
      exact e
    refine ⟨?_, ?_, ?_, ?_, ?_⟩
    · have hu := issueOp_units (s.storeHere off b none) (some .st) kSt [] [] .settled (s.cycle + 1) (.storePerform s.cur)
      unfold UnitsKept at hu
      unfold UnitsKeptButScr
      rw [hf] at hu ⊢
      have hc : (s.modMyCore f).core s.cur = f (s.core s.cur) := State.core_modCore_self ..
      rw [show (s.modMyCore f).cur = s.cur from rfl, hc] at hu
      have e := congrArg (fun c : Core => { c with
        ctxs := (s.core s.cur).ctxs, ops := (s.core s.cur).ops, scr := (s.core s.cur).scr, fe := (s.core s.cur).fe
        held := (s.core s.cur).held }) hu
      refine e.trans ?_
      have e2 := congrArg (fun c : Core => { c with ctxs := (s.core s.cur).ctxs, ops := (s.core s.cur).ops }) (h1 (s.core s.cur))
      exact e2
    · rw [hf]; exact modMyCore_issueOp_step s f hx ho _ _ _ _ _ _ _
    · intro l hl
      rw [hi l]; exact hb.1 l hl
    · intro hn
      exact ⟨hh.trans (hb.2.1 hn).1, fun k hk => (hi _).trans ((hb.2.1 hn).2 k hk)⟩
    · intro hn
      obtain ⟨h1, h, h2, h3⟩ := hb.2.2 hn
      exact ⟨fun l => (hi l).trans (h1 l), h, hh.trans h2, h3⟩
  | there core off =>
    refine ⟨?_, fun l => (dropDelay_getLoc _ l).trans (issueOp_bytes _ _ _ _ _ _ _ _ l), s.cycle + s.latency none, ?_, (issueOp_step ..).dropDelay⟩
    · have hu := issueOp_units s (some .st) kSt [] [] (.bufStore core off b) (s.cycle + s.latency none)
        (.remoteBufferAccess s.cur)
      exact congrArg (fun c : Core => { c with
        scr := (s.core s.cur).scr, fe := (s.core s.cur).fe, held := (s.core s.cur).held }) hu
    · have := latency_pos s none (by simp); omega
  | mem h off =>
    refine ⟨?_, fun l => (dropDelay_getLoc _ l).trans (issueOp_bytes _ _ _ _ _ _ _ _ l), s.cycle + s.latency (lcBound (Handle.lc (s.hreg h))), ?_, fun n hb => ?_,
      (issueOp_step ..).dropDelay⟩
    · have hu := issueOp_units s (some .st) kSt [] [] (.store (Handle.place (s.hreg h) off) b)
        (s.cycle + s.latency (lcBound (Handle.lc (s.hreg h)))) (.storePerform s.cur)
      exact congrArg (fun c : Core => { c with
        scr := (s.core s.cur).scr, fe := (s.core s.cur).fe, held := (s.core s.cur).held }) hu
    · have := latency_pos s (lcBound (Handle.lc (s.hreg h))) (fun n hn => lcBound_pos _ n hn); omega
    · rw [hb]; have := latency_le s n; omega

/-! ### Ranges of bytes -/

theorem alignDown_mod (a n m : Nat) (h : n ∣ m) : alignDown a n % m = a % m / n * n := by
  obtain ⟨k, rfl⟩ := h
  unfold alignDown
  rw [Nat.mul_comm n k, Nat.mul_mod_mul_right, Nat.mul_comm k n, Nat.mod_mul_right_div_self]

@[simp] theorem length_cgetN {w : Nat} (c : Cells w) : ∀ (n a : Nat), (cgetN c a n).length = n
  | 0, _ => rfl
  | n + 1, a => by simp [cgetN, length_cgetN c n]

theorem get_cgetN {w : Nat} (c : Cells w) (d : BitVec w) : ∀ (n a j : Nat), j < n → (cgetN c a n).getD j d = cget c (a + j)
  | n + 1, a, 0, _ => rfl
  | n + 1, a, j + 1, h => by
    have := get_cgetN c d n (a + 1) j (by omega)
    rw [show a + (j + 1) = a + 1 + j by omega]
    exact this

theorem allOk_foldl (f : Nat → Verdict) : ∀ (l : List Nat) (v : Verdict), l.foldl (fun v k => v.and (f k)) v = .go ↔ v = .go ∧ ∀ k ∈ l, f k = .go
  | [], v => by simp
  | k :: t, v => by
    rw [List.foldl_cons, allOk_foldl f t, Verdict.and_eq_go]; simp [and_assoc]

theorem allOk_eq_go (l : List Nat) (f : Nat → Verdict) : allOk l f = .go ↔ ∀ k ∈ l, f k = .go := by
  unfold allOk; rw [allOk_foldl]; simp

theorem mem_ldtxLines {z a pitch l : Nat} : l ∈ ldtxLines z a pitch ↔ ∃ c, c < 16 / z ∧ a + c * pitch = l := by
  simp [ldtxLines]

theorem length_csrc {β : Type} (f : Nat → List β) (z a pitch m : Nat) (hf : ∀ l, (f l).length = m) :
    ((ldtxLines z a pitch).flatMap f).length = m * (16 / z) := by
  rw [length_flatMap_const f m _ (fun x _ => hf x)]; simp [ldtxLines]

theorem get_csrc {β : Type} (f : Nat → List β) (z a pitch m : Nat) (hf : ∀ l, (f l).length = m) (c j : Nat) (d : β) (hc : c < 16 / z) (hj : j < m) :
    ((ldtxLines z a pitch).flatMap f).getD (m * c + j) d = (f (a + c * pitch)).getD j d := by
  rw [getD_flatMap f m d _ (fun x _ => hf x) c j (by simpa [ldtxLines] using hc) hj]
  simp [ldtxLines]

/-! ### Full/empty bits -/

/-- A change of the core's units after an issue. -/
theorem step_modMyCore {s t : State} {op r w due ev} (h : OperationStep s t op r w due ev) (f : Core → Core)
    (hf : ∀ c, (f c).ctxs = c.ctxs) (ho : ∀ c, (f c).ops = c.ops) :
    OperationStep s (t.modCore s.cur f) op r w due ev := by
  have hx : ∀ k j, (t.modCore s.cur f).ctx k j = t.ctx k j := by
    intro k j
    have : ((t.modCore s.cur f).core k).ctxs = (t.core k).ctxs := by
      rw [State.core_modCore]; split
      · next e => rw [hf, e]
      · rfl
    unfold State.ctx; simp only [this]
  have hm : (t.modCore s.cur f).me = t.me := hx t.cur t.cix
  refine ⟨⟨?_, fun k hk => ?_, fun j hj => ?_⟩, h.number, h.agenda, ?_, ?_, fun k => ?_, ?_, ?_, fun c x => ?_⟩
  · exact h.alone.package
  · rw [State.core_modCore_ne _ hk]; exact h.alone.cores k hk
  · rw [hx]; exact h.alone.others j hj
  · rw [State.core_modCore_self, ho]; exact h.ops
  · rw [hm]; exact h.regs
  · rw [hm]; exact h.counters k
  · rw [hm]; exact h.ctx
  · rw [hm]; exact h.waits
  · rw [hm]; exact h.awaited c x

theorem canon_fe (s : State) (h : s.canon = true) (k : Nat) : Memory.wf (s.core k).fe = true := by
  have := canon_core s h k
  unfold Core.canon at this
  simp only [Bool.and_eq_true] at this
  exact this.1.1.2

theorem fe_of_core {s t : State} {off : Nat} {b : BitVec 1} (hw : Memory.wf (s.core s.cur).fe = true)
    (h1 : ∀ k, k ≠ s.cur → (t.core k).fe = (s.core k).fe) (h2 : (t.core s.cur).fe = cset (s.core s.cur).fe (off / 8) b) (k w : Nat) :
    t.feFull k (8 * w) = if k = s.cur ∧ w = off / 8 then b == 1#1 else s.feFull k (8 * w) := by
  unfold State.feFull
  rw [Nat.mul_div_cancel_left w (by decide)]
  by_cases hk : k = s.cur
  · subst hk
    rw [h2]
    by_cases hw' : w = off / 8
    · subst hw'; rw [if_pos ⟨rfl, rfl⟩, cget_cset_self _ _ hw]
    · rw [if_neg (by simp [hw']), cget_cset_ne hw' _ hw]
  · rw [if_neg (by simp [hk]), h1 k hk]

end Sys2Proof.Machine
end

