-- ==== Sys2Proof/Laws/Canon.lean ====
section
/-! SUPPORT. Every operation that writes a memory of the machine keeps all of them in canonical form, and the
memories have it after reset. -/

namespace Sys2Proof.Machine

variable {s : State}

theorem reset_canon : State.reset.canon = true := rfl

/-! ### What the canonical form of a state says -/

theorem canon_iff : s.canon = true ↔
    Memory.wf s.mem = true ∧ Memory.wf s.hostMem = true ∧ ∀ k ∈ s.cores, k.2.canon = true := by
  simp [State.canon, List.all_eq_true, and_assoc]

theorem Core.canon_iff {c : Core} : c.canon = true ↔
    Memory.wf c.scr = true ∧ Memory.wf c.fe = true ∧ Memory.wf c.lid = true ∧ Memory.wf c.acc = true := by
  simp [Core.canon, and_assoc]

/-- A state that differs in no memory and in no core is as canonical. -/
theorem canon_of_eq {t : State} (hm : t.mem = s.mem) (hh : t.hostMem = s.hostMem) (hc : t.cores = s.cores)
    (h : s.canon = true) : t.canon = true := by
  unfold State.canon at *; rw [hm, hh, hc]; exact h

/-- A core keeps the canonical form when its four memories are as before. -/
theorem Core.canon_of_eq {c d : Core} (h1 : d.scr = c.scr) (h2 : d.fe = c.fe) (h3 : d.lid = c.lid)
    (h4 : d.acc = c.acc) (h : c.canon = true) : d.canon = true := by
  unfold Core.canon at *; rw [h1, h2, h3, h4]; exact h

/-! ### Writes -/

theorem aset_canon {n : Nat} {c : Core} (hc : c.canon = true) :
    ∀ {l : List (Nat × Core)}, (∀ k ∈ l, k.2.canon = true) → ∀ k ∈ aset l n c, k.2.canon = true
  | [], _, k, hk => by
    simp only [aset, List.mem_singleton] at hk; subst hk; exact hc
  | (a, x) :: t, hl, k, hk => by
    unfold aset at hk
    split at hk
    · rcases List.mem_cons.1 hk with h | h
      · subst h; exact hc
      · exact hl k (List.mem_cons_of_mem _ h)
    · split at hk
      · rcases List.mem_cons.1 hk with h | h
        · subst h; exact hc
        · exact hl k h
      · rcases List.mem_cons.1 hk with h | h
        · subst h; exact hl _ List.mem_cons_self
        · exact aset_canon hc (fun k hk => hl k (List.mem_cons_of_mem _ hk)) k h

theorem setCore_canon {n : Nat} {c : Core} (hc : c.canon = true) (h : s.canon = true) :
    (s.setCore n c).canon = true := by
  rw [canon_iff] at h ⊢
  exact ⟨h.1, h.2.1, aset_canon hc h.2.2⟩

theorem modCore_canon {n : Nat} {f : Core → Core} (hf : ∀ c : Core, c.canon = true → (f c).canon = true)
    (h : s.canon = true) : (s.modCore n f).canon = true :=
  setCore_canon (hf _ (canon_core s h n)) h

/-- A change of a context writes no memory. -/
theorem modCtx_canon {n : Nat} {i : Fin 4} {f : Ctx → Ctx} (h : s.canon = true) : (s.modCtx n i f).canon = true :=
  modCore_canon (fun _ hc => Core.canon_of_eq rfl rfl rfl rfl hc) h

theorem putMem_canon (a : Nat) (b : List Byte) (h : s.canon = true) : (s.putMem a b).canon = true := by
  rw [canon_iff] at h ⊢
  exact ⟨wf_csetN b a h.1, h.2⟩

theorem hostMem_canon (a : Nat) (b : List Byte) (h : s.canon = true) :
    ({ s with hostMem := csetN s.hostMem a b } : State).canon = true := by
  rw [canon_iff] at h ⊢
  exact ⟨h.1, wf_csetN b a h.2.1, h.2.2⟩

theorem putScr_canon (core o : Nat) (b : List Byte) (h : s.canon = true) : (s.putScr core o b).canon = true :=
  modCore_canon (fun c hc => by rw [Core.canon_iff] at hc ⊢; exact ⟨wf_csetN b o hc.1, hc.2⟩) h

theorem setFull_canon (core off : Nat) (full : Bool) (h : s.canon = true) : (s.setFull core off full).canon = true :=
  modCore_canon (fun c hc => by rw [Core.canon_iff] at hc ⊢; exact ⟨hc.1, wf_cset _ _ hc.2.1, hc.2.2⟩) h

theorem putLoc_canon (l : Loc) (b : Byte) (h : s.canon = true) : (s.putLoc l b).canon = true := by
  cases l with
  | mem a => rw [canon_iff] at h ⊢; exact ⟨wf_cset a b h.1, h.2⟩
  | scr n o => exact modCore_canon (fun c hc => by rw [Core.canon_iff] at hc ⊢; exact ⟨wf_cset o b hc.1, hc.2⟩) h
  | lid n a =>
    exact modCore_canon (fun c hc => by rw [Core.canon_iff] at hc ⊢; exact ⟨hc.1, hc.2.1, wf_cset a b hc.2.2.1, hc.2.2.2⟩) h

/-- A copy's moves (R364, R367) keep every memory canonical. -/
theorem doMoves_canon (ms : List (Src × Loc)) (h : s.canon = true) : (s.doMoves ms).canon = true := by
  unfold State.doMoves
  generalize (ms.map _ : List (Loc × Byte)) = l
  induction l generalizing s with
  | nil => exact h
  | cons m t ih => exact ih (putLoc_canon m.1 m.2 h)

theorem putCells_canon {c : Core} (cs : List (Nat × BitVec 32)) (hc : c.canon = true) : (c.putCells cs).canon = true := by
  rw [Core.canon_iff] at hc ⊢
  exact ⟨hc.1, hc.2.1, hc.2.2.1, wf_foldl _ (fun m x hm => wf_cset _ _ hm) cs hc.2.2.2⟩

theorem putCode_wf : ∀ (cs : List Nat) (m : Cells 32) (v : Nat), Memory.wf m = true → Memory.wf (putCode m cs v) = true
  | [], _, _, h => h
  | c :: t, _, _, h => putCode_wf t _ _ (wf_cset c _ h)

theorem vwrite_canon {vf va : Nat} {b : List Byte} {t : State} (ht : s.vwrite vf va b = some t) (h : s.canon = true) :
    t.canon = true := by
  unfold State.vwrite at ht
  rw [Option.map_eq_some_iff] at ht
  obtain ⟨ps, -, rfl⟩ := ht
  rw [canon_iff] at h ⊢
  exact ⟨wf_foldl _ (fun c x hc => wf_cset _ _ hc) _ h.1, h.2⟩

theorem vput_canon (vf va : Nat) (b : List Byte) (h : s.canon = true) : (s.vput vf va b).canon = true := by
  unfold State.vput
  cases e : s.vwrite vf va b with
  | none => exact h
  | some t => exact vwrite_canon e h

theorem putHeld_canon {c : Core} (w : Held) (hc : c.canon = true) : (c.putHeld w).canon = true := by
  rw [Core.canon_iff] at hc ⊢
  refine ⟨wf_foldl _ (fun m x hm => wf_cset _ _ hm) _ hc.1, ?_, hc.2.2⟩
  show Memory.wf (match w.mark with | some (w, n, full) => _ | none => _) = true
  cases w.mark with
  | none => exact hc.2.1
  | some m => exact wf_csetN _ _ hc.2.1

theorem foldl_putHeld_canon : ∀ (l : List Held) {c : Core}, c.canon = true → (l.foldl Core.putHeld c).canon = true
  | [], _, h => h
  | w :: t, _, h => foldl_putHeld_canon t (putHeld_canon w h)

/-- The writes that were held keep every memory canonical when they perform (R182, R245). -/
theorem performHeld_canon {c : Core} (now : Nat) (hc : c.canon = true) : (c.performHeld now).canon = true :=
  foldl_putHeld_canon _ (Core.canon_of_eq rfl rfl rfl rfl hc)

/-- Writes to the own scratchpad, held back or not (R182, R245), keep every memory canonical. -/
theorem writeCells_canon (bs : List (Nat × Byte)) (mark : Option (Nat × Nat × Bool)) (h : s.canon = true) :
    (s.writeCells bs mark).canon = true := by
  obtain ⟨w, -, -, -, -, -, he⟩ := writeCells_eq s bs mark
  rw [he]
  refine modCore_canon (fun c hc => ?_) h
  split
  · exact putHeld_canon w hc
  · exact Core.canon_of_eq rfl rfl rfl rfl hc

theorem storeHere_canon (off : Nat) (b : List Byte) (full : Option Nat) (h : s.canon = true) :
    (s.storeHere off b full).canon = true := writeCells_canon _ _ h

/-- The writes held behind an operation (R182) keep every memory canonical when it retires. -/
theorem releaseHeld_canon (core id : Nat) (h : s.canon = true) : (s.releaseHeld core id).canon = true :=
  modCore_canon (fun _ hc => performHeld_canon _ (Core.canon_of_eq rfl rfl rfl rfl hc)) h

end Sys2Proof.Machine
end

