-- ==== Sys2Proof/Laws/Values.lean ====
section
/-! SUPPORT. The meanings' helper functions agree with Safety.Values. -/

namespace Sys2Proof.Machine

theorem numOf_toI (u v) : toI u v = numOf u v := rfl

/-- Leading zeros (R353). -/
theorem clz_spec (v : Word) : clz v = leadingZeros v := by
  unfold clz leadingZeros
  split
  · next h => subst h; rfl
  · next h =>
    have hv : v.toNat ≠ 0 := by simpa [BitVec.toNat_eq] using h
    have hl := Nat.log2_lt hv (k := 64) |>.2 v.isLt
    set L := Nat.log2 v.toNat with hL
    have hset : v.getLsbD L = true := by
      rw [BitVec.getLsbD, hL]; exact Nat.testBit_log2 hv
    have hclr : ∀ j, L < j → v.getLsbD j = false := by
      intro j hj
      rw [BitVec.getLsbD]
      exact Nat.testBit_lt_two_pow (lt_of_lt_of_le (Nat.lt_log2_self) (Nat.pow_le_pow_right (by norm_num) hj))
    have : List.range 64 = List.range (63 - L) ++ (63 - L) :: ((List.range L).map (64 - L + ·)) := by
      have h1 : 64 = (63 - L + 1) + L := by omega
      conv_lhs => rw [h1, List.range_add, List.range_succ]
      have : 63 - L + 1 = 64 - L := by omega
      simp [this]
    rw [this, List.takeWhile_append_of_pos]
    · simp only [List.takeWhile_cons]
      have : 63 - (63 - L) = L := by omega
      simp [this, hset]
    · intro k hk
      have : k < 63 - L := by simpa using hk
      simp [hclr (63 - k) (by omega)]

/-- Set bits (R353). -/
theorem popc_spec (v : Word) : popc v = setCount v := by
  unfold popc setCount
  generalize List.range 64 = l
  induction l with
  | nil => rfl
  | cons a t ih => cases h : v.getLsbD a <;> simp [h, ih]; omega

theorem ule_num (u) (a b : Word) : condHolds .le u a b = decide (numOf u a ≤ numOf u b) := by
  cases u <;> simp [condHolds, numOf, BitVec.ule, BitVec.sle]

/-- A condition code compares integers (R337). -/
theorem cond_num (cc u) (a b : Word) : condHolds cc u a b = true ↔ compares cc u a b := by
  cases cc <;> cases u <;>
    simp [condHolds, compares, numOf, BitVec.ule, BitVec.sle, BitVec.ult, BitVec.slt, BitVec.toNat_eq, BitVec.toInt_inj]

theorem ofInt_numOf (u) (a : Word) : BitVec.ofInt 64 (numOf u a) = a := by
  cases u <;> simp [numOf]

theorem shl_ofNat (a : Word) (n : Nat) : a <<< n = BitVec.ofNat 64 (a.toNat * 2 ^ n) := by
  apply BitVec.eq_of_toNat_eq; simp [Nat.shiftLeft_eq]

theorem shr_ofNat (a : Word) (n : Nat) : a >>> n = BitVec.ofNat 64 (a.toNat / 2 ^ n) := by
  apply BitVec.eq_of_toNat_eq
  simp [Nat.shiftRight_eq_div_pow]
  exact (Nat.mod_eq_of_lt (lt_of_le_of_lt (Nat.div_le_self _ _) a.isLt)).symm

theorem sra_ofInt (a : Word) (n : Nat) : a.sshiftRight n = BitVec.ofInt 64 (a.toInt / 2 ^ n) := by
  rw [BitVec.sshiftRight, Int.shiftRight_eq_div_pow]; norm_cast

theorem min_num (u) (a b : Word) : (if condHolds .le u a b = true then a else b) = BitVec.ofInt 64 (min (numOf u a) (numOf u b)) := by
    rw [ule_num]; simp only [decide_eq_true_eq]
    split
    · next h => rw [min_eq_left h, ofInt_numOf]
    · next h => rw [min_eq_right (by omega), ofInt_numOf]

theorem max_num (u) (a b : Word) : (if condHolds .le u a b = true then b else a) = BitVec.ofInt 64 (max (numOf u a) (numOf u b)) := by
    rw [ule_num]; simp only [decide_eq_true_eq]
    split
    · next h => rw [max_eq_right h, ofInt_numOf]
    · next h => rw [max_eq_left (by omega), ofInt_numOf]

theorem addi_num (a : Word) (imm : BitVec 18) : a + imm.signExtend 64 = BitVec.ofInt 64 (a.toInt + imm.toInt) := by
    apply BitVec.eq_of_toInt_eq; simp only [BitVec.toInt_add, BitVec.toInt_signExtend, BitVec.toInt_ofInt]; rw [show imm.toInt.bmod (2 ^ min 64 18) = imm.toInt from by rw [show min 64 18 = 18 from rfl]; exact BitVec.toInt_bmod_cancel imm]

theorem lih_num (a : Word) (imm : BitVec 22) : (a <<< 22) + imm.zeroExtend 64 = BitVec.ofNat 64 (a.toNat * 2 ^ 22 + imm.toNat) := by
    rw [shl_ofNat, BitVec.ofNat_add]; congr 1; exact BitVec.eq_of_toNat_eq (by rw [BitVec.toNat_setWidth, BitVec.toNat_ofNat])

/-- The truncated quotient from magnitudes (R353). -/
theorem quot_int (x y : Int) : x.tdiv y = if x < 0 ↔ y < 0 then ((x.natAbs : Int) / y.natAbs) else -((x.natAbs : Int) / y.natAbs) := by
  have key : ∀ a b : Nat, (a : Int).tdiv b = (a : Int) / b := fun a b => by norm_cast
  rcases lt_or_ge x 0 with hx | hx <;> rcases lt_or_ge y 0 with hy | hy
  · rw [if_pos (by omega)]
    conv_lhs => rw [show x = -(x.natAbs : Int) by omega, show y = -(y.natAbs : Int) by omega]
    rw [Int.neg_tdiv, Int.tdiv_neg, neg_neg, key]
  · rw [if_neg (by omega)]
    conv_lhs => rw [show x = -(x.natAbs : Int) by omega, show y = (y.natAbs : Int) by omega]
    rw [Int.neg_tdiv, key]
  · rw [if_neg (by omega)]
    conv_lhs => rw [show x = (x.natAbs : Int) by omega, show y = -(y.natAbs : Int) by omega]
    rw [Int.tdiv_neg, key]
  · rw [if_pos (by omega)]
    conv_lhs => rw [show x = (x.natAbs : Int) by omega, show y = (y.natAbs : Int) by omega]
    rw [key]

/-- An address and a displacement in words (R335). -/
theorem disp_num {n : Nat} (hn : n ≤ 62) (a : Word) (d : BitVec n) : a + (d.signExtend 64 <<< 2) = displaced a d := by
  unfold displaced
  apply BitVec.eq_of_toInt_eq
  rw [show d.signExtend 64 <<< 2 = BitVec.ofInt 64 (4 * d.toInt) from ?_]
  · simp only [BitVec.toInt_add, BitVec.toInt_ofInt]; simp
  · rw [show (d.signExtend 64 : Word) = BitVec.ofInt 64 d.toInt from rfl]
    rw [BitVec.shiftLeft_eq_mul_twoPow, mul_comm]
    rw [show BitVec.twoPow 64 2 = BitVec.ofInt 64 4 from rfl, ← BitVec.ofInt_mul]

/-- The trees of R338, leaf by leaf. -/
theorem walk_down (test : Nat → Bool) (sh : Fin 14) : (shapeTree sh).walk test 0 0 = (treeTable sh).down test := by
  fin_cases sh <;>
  · simp only [shapeTree, treeTable, btX, bt1, bt2a, bt2b, bt3a, bt3b, bt3c, bt3d, bt3e, BTree.walk, LTree.down, BTree.inner]
    repeat' split
    all_goals first | rfl | simp_all

/-- LOOP and LPSTG start exactly when R382 allows it. -/
theorem loopOk_iff {n} (hn : n ≤ 62) (s : State) (fin : BitVec n) (big : Bool) : s.loopOk fin big = .go ↔ LoopAllowed s fin ∧ big = false := by
  unfold State.loopOk
  rw [illModIf_eq_go]
  simp only [State.dispTo, disp_num hn]
  simp only [Bool.or_eq_false_iff, bne_eq_false_iff_eq, decide_eq_false_iff_not, not_le, not_lt, Bool.not_eq_false']
  constructor
  · rintro ⟨⟨⟨⟨a, b⟩, c⟩, d⟩, e⟩; exact ⟨⟨a, b, c, d⟩, e⟩
  · rintro ⟨⟨a, b, c, d⟩, e⟩; exact ⟨⟨⟨⟨a, b⟩, c⟩, d⟩, e⟩

theorem loopOk_not {n} (s : State) (fin : BitVec n) (big : Bool) (h : s.loopOk fin big ≠ .go) : s.loopOk fin big = s.illMod := by
  unfold State.loopOk State.illModIf at *
  split at h
  · rw [if_pos ‹_›]
  · exact absurd rfl h

/-- Predicates p8 to p15 after a pass starts (R384). -/
theorem setStages_rp (r : Regs) (f : Nat → Bool) (n : Fin 16) : (r.setStages f).rp n = if 8 ≤ n.val then f (n.val - 8) else r.rp n := by
  have h0 : ∀ k : Nat, k < 8 → (Fin.ofNat 16 (8 + k)) ≠ 0 := by decide
  unfold Regs.setStages
  have st : ∀ (r : Regs) (k : Nat), k < 8 → ∀ n : Fin 16, (r.wp (Fin.ofNat 16 (8 + k)) (f k)).rp n = if n.val = 8 + k then f k else r.rp n := by
    intro r k hk n
    unfold Regs.wp; rw [if_neg (h0 k hk)]
    unfold Regs.rp
    by_cases hn : n.val = 8 + k
    · have : n = Fin.ofNat 16 (8 + k) := Fin.ext (by simp [hn]; omega)
      rw [if_pos hn, this]; simp only [h0 k hk, Fin.getElem_fin, Vector.getElem_set_self, Bool.or_eq_right_iff_imp]; intro e; exact absurd (by simpa using e) (h0 k hk)
    · rw [if_neg hn]
      have : (Fin.ofNat 16 (8 + k)).val ≠ n.val := by simp; omega
      simp only [Fin.getElem_fin, ne_eq, this, not_false_eq_true, Vector.getElem_set_ne]
  simp only [List.foldl]
  rw [st _ 7 (by omega), st _ 6 (by omega), st _ 5 (by omega), st _ 4 (by omega), st _ 3 (by omega), st _ 2 (by omega), st _ 1 (by omega), st _ 0 (by omega)]
  have := n.isLt
  by_cases h : 8 ≤ n.val
  · rw [if_pos h]
    obtain ⟨k, hk⟩ : ∃ k, n.val = 8 + k := ⟨n.val - 8, by omega⟩
    rw [hk, show 8 + k - 8 = k by omega]
    have : k < 8 := by omega
    interval_cases k <;> simp
  · rw [if_neg h]
    repeat rw [if_neg (by omega)]

theorem setStages_keeps (r : Regs) (f : Nat → Bool) : r.Keeps (r.setStages f) stagePreds 0 := by
  unfold Regs.setStages
  have key : ∀ (l : List Nat) (r : Regs), (∀ k ∈ l, k < 8) → r.Keeps (l.foldl (fun r k => r.wp (Fin.ofNat 16 (8 + k)) (f k)) r) stagePreds 0 := by
    intro l
    induction l with
    | nil => intro r _; exact r.keeps_refl _
    | cons k t ih =>
      intro r h
      have h1 : r.Keeps (r.wp (Fin.ofNat 16 (8 + k)) (f k)) stagePreds 0 :=
        (r.keeps_wp _ _).mono fun x hx => by
          unfold pDest at hx
          split at hx
          · simp at hx
          · obtain rfl := List.mem_singleton.1 hx
            simp only [stagePreds, List.mem_map, List.mem_range]
            exact ⟨k, h k (by simp), rfl⟩
      exact h1.trans (ih _ fun k hk => h k (by simp [hk]))
  exact key _ _ (by decide)

end Sys2Proof.Machine
end

