-- ==== Sys2Proof/Tests/Slice0.lean ====
section
/-! SUPPORT. Tests: a state that meets the hypotheses of every obligation, words of every family decoded, terms that no
word encodes, and single steps on worked examples of the manual. -/

namespace Sys2Proof.Tests

set_option Elab.async false
open Sys2Proof Sys2Proof.Machine

/-- Core 0 with some contents, executing in context 0. -/
def busy (c : Core) : State := { cores := [(0, c)] }
/-- Context 0 of core 0 executes. -/
def work (c : Ctx) : State := busy { ctxs := #v[c, {}, {}, {}] }
/-- A context whose registers are given. -/
def having (r : Regs) : State := work { task := true, regs := r }
/-- The sixteen words of a packet each a bundle of its own. -/
def singles : List Code := List.replicate 16 0x80000000#32
def looping : Ctx := { task := true, pc := 0, packet := some (0, singles), regs := Regs.ws {} 3 2 }

theorem holds_all (s : State) (h : s.rows = []) (lo len : Nat) : s.HoldsRange lo len := by
  intro o _ _
  simp [State.holds, State.holdOf, State.row, h, aget]

theorem undeclared (s : State) (h : s.me.strict = false) (e : Nat) (w : Bool) (sp lo len) : s.Declared e w sp lo len := by
  intro h'; rw [h] at h'; cases h'

theorem test_witness_ScalarWordsWriteTheirResult :
    scalarResult (having (Regs.ws (Regs.ws {} 2 5) 3 7)) (.add 1 2 3) = some (1, 12, 1)
    ∧ (having (Regs.ws {} 3 7)).rs 3 ≠ 0 ∧ (having {}).me.snap = none ∧ (having {}).rs 3 = 0 := by decide
theorem test_witness_TransfersDecideTheirTarget :
    transferOf (having {}) (.call 1 (-4)) = some (-16, true)
    ∧ transferOf (having {}) (.btree 1 2 3 4 0 0 0) = some (0, true) := by decide
theorem test_witness_LoopsStartOrSkip :
    LoopAllowed (work looping) (1 : BitVec 23) ∧ LoopAllowed (work looping) (1 : BitVec 20)
    ∧ ((work looping).rs 3).toNat < 2 ^ 63 ∧ (work looping).me.snap = none
    ∧ ¬ LoopAllowed (work looping) (0 : BitVec 23) :=
  ⟨⟨rfl, by decide, by decide, by decide⟩, ⟨rfl, by decide, by decide, by decide⟩, by decide, rfl,
    fun h => absurd h.forward (by decide)⟩
theorem test_witness_ExecutionGoesOn :
    let c : Ctx := { loop := { kind := 2, lend := 8, lrem := 3, ltrip := 2, lns := 1 }, pc := 8 }
    let d : Ctx := { c with delay := some ⟨64, true, 0⟩ }
    let l : Ctx := { c with loop := { c.loop with lrem := 1 } }
    (c.back = none ∧ c.xfer = none ∧ c.skip = none ∧ c.regs.ecause.getLsbD 7 = false)
    ∧ (d.back = none ∧ d.xfer = none ∧ d.skip = none ∧ d.regs.ecause.getLsbD 7 = false)
    ∧ d.loop.kind ≠ 0 ∧ d.loop.outside 64 = true
    ∧ (c.delay = none ∧ c.loop.kind ≠ 0 ∧ c.pc = c.loop.lend ∧ 1 < c.loop.lrem.toNat
      ∧ c.loop.lns < 8 ∧ c.loop.lrem.toNat ≤ c.loop.ltrip.toNat + c.loop.lns)
    ∧ l.loop.lrem.toNat ≤ 1 ∧ ({} : Ctx).loop.kind = 0 := by decide

/-- A handle for page 0 that allows everything. -/
def allHandle : Handle := BitVec.ofNat 128 (2 ^ 32 + 2 ^ 35 + 15 * 2 ^ 36)
/-- Core 0 with one operation in flight. -/
def flying (c : Ctx) (w : OpWhat) : State :=
  { cores := [(0, { ctxs := #v[c, {}, {}, {}], ops := [⟨7, 0, kLd, some .ld, [], [], w, []⟩] })], nextOp := 8 }
def flown (w : OpWhat) : Op := ⟨7, 0, kLd, some .ld, [], [], w, []⟩

/-- A bucket table of the sizes 2 and 5 on an axis, at offset 0 (R68). -/
def buckets (axis : Nat) (c : Ctx) (arr : Arr) : State :=
  busy { ctxs := #v[c, {}, {}, {}], arr
         scr := csetN [] 0 ([2 + 256 * axis, 2, 64, 5, 128].flatMap (leBytes 8)) }

theorem no_table (s : State) (h : s.tableWord 0 0 = 0) : ∀ n axis, ¬ TableLegal s 0 n axis := by
  intro n axis t
  have h1 := t.header
  have h2 := t.count
  rw [h] at h1
  have := congrArg BitVec.toNat h1
  simp at this; omega

theorem two_legal (s : State) (axis : Nat) (h : axis < 4 ∧ s.tableWord 0 0 = BitVec.ofNat 64 (2 + 2 ^ 8 * axis)
    ∧ (∀ k, k < 2 → (s.tableWord 0 (1 + 2 * k)).toNat < 2 ^ 32)
    ∧ (s.tableWord 0 1).toNat < (s.tableWord 0 3).toNat) : TableLegal s 0 2 axis where
  count := ⟨by omega, by omega, h.1⟩
  header := h.2.1
  sizes := h.2.2.1
  ascending := fun k hk => by
    obtain rfl : k = 0 := by omega
    exact h.2.2.2

theorem test_witness_BucketsSelectTheirSchedule :
    let c : Ctx := { bksel := some (1, 5, 0, 0) }
    let mine : Arr := { owner := some 0 }
    (work {}).HoldsRange 0 8
    ∧ (buckets 3 c {}).me.bksel = some (1, 5, 0, 0) ∧ TableLegal (buckets 3 c {}) 0 2 3
    ∧ (buckets 3 c {}).HoldsRange 0 40
    ∧ (∀ j, j < 1 → ((buckets 3 c {}).tableWord 0 (1 + 2 * j)).toNat < 5) ∧ 5 ≤ ((buckets 3 c {}).tableWord 0 3).toNat
    ∧ TableLegal (buckets 2 c {}) 0 2 2 ∧ (buckets 2 c {}).myCore.arr.owner ≠ some (buckets 2 c {}).cix
    ∧ TableLegal (buckets 0 c mine) 0 2 0 ∧ (buckets 0 c mine).myCore.arr.owner = some (buckets 0 c mine).cix
    ∧ (∀ k, k < 2 → ((buckets 3 { bksel := some (1, 6, 0, 0) } {}).tableWord 0 (1 + 2 * k)).toNat < 6)
    ∧ ∀ n axis, ¬ TableLegal (work c) 0 n axis := by
  intro c mine
  exact ⟨holds_all _ rfl _ _, rfl, two_legal _ _ (by decide +kernel), holds_all _ rfl _ _, by decide +kernel, by decide +kernel,
    two_legal _ _ (by decide +kernel), by decide +kernel, two_legal _ _ (by decide +kernel), by decide +kernel, by decide +kernel, no_table _ (by decide +kernel)⟩

theorem test_witness_ChecksDecideTheirBundle :
    let x : Nat × Code := (0, 0x9A132D80)
    let y : Nat × Code := (1, 0xE0640000)
    let s (l : List (Nat × Code)) : State := work { checks := l, wait := .reply }
    (s [x]).me.failed = none ∧ (s [x]).me.checks = [x] ∧ (s [x, y]).me.failed = none ∧ (s [x, y]).me.checks = [x, y]
    ∧ Code.cls x.2 < Code.cls y.2 := by decide

theorem test_witness_LoadsAndStoresMoveTheirBytes :
    let s := work { regs := Regs.wh (Regs.ws {} 1 64) 2 allHandle }
    let f : State := { s with rows := [(0, { holds := [(64, .held 0)] })] }
    s.canon = true ∧ s.AccessAllowed (.scr 0 0) 2048 true ∧ f.AccessAllowed (.buf 1 0) 256 false
    ∧ s.AccessAllowed (.buf 0 255) 256 true ∧ s.AccessAllowed (.hnd 2 0 1) 2048 true := by
  intro s f
  refine ⟨rfl, ⟨holds_all _ rfl _ _, undeclared _ rfl _ _ _ _ _⟩, ⟨by decide, by decide, undeclared _ rfl _ _ _ _ _⟩, ⟨by decide, by decide, undeclared _ rfl _ _ _ _ _⟩, by decide +kernel, by decide +kernel, by decide +kernel⟩

/-! ### A function whose first 2 MiB are mapped -/

/-- Tables at 0x1000 to 0x4000 that map the first 2 MiB to the frame at 0x200000 (R160, R265). -/
def tables : Cells 8 := [(0x1001, 0x10), (0x1007, 0x80), (0x2001, 0x18), (0x2007, 0x80), (0x3001, 0x20), (0x3007, 0x80),
  (0x4002, 0x10), (0x4006, 0x10), (0x4007, 0xF0)]
def pageLeaf : Leaf := ⟨0x4000, 0x200, 2, true, true, false, 0, 0, 0⟩
def pageJob : Job := { loadJob 0 with leases := [⟨0, 2 ^ 21, true, true⟩], lts := [(0, pageLeaf)] }
def pageVf : Vf := { pkgs := [0], cores := [0], allot := [(0, 2 ^ 22)], ptroot := 0x1000, job := some pageJob }
/-- Core 0 executes in context 0, and function 0 runs a job over its mapped page. -/
def mapped (c : Core) : State := { cores := [(0, c)], mem := tables, vfs := [(0, pageVf)] }

/-- A function's tables are these, and its job's translations, if it has one. -/
structure Paged (s : State) (n : Nat) : Prop where
  tables : ∀ a, 0x1000 ≤ a → a < 0x5000 → cget s.mem a = cget tables a
  root : ∃ v, s.vf n = some v ∧ allotOf n v = [(0, 2 ^ 22)] ∧ v.homet = 0 ∧ v.ptroot = 0x1000
  slices : s.disabled = [] ∧ s.pkg = 0
  store : s.lts n = [(0, pageLeaf)] ∨ ∀ va, s.leased n va = false

theorem mapped_paged (c : Core) : Paged (mapped c) 0 := ⟨fun _ _ _ => rfl, ⟨_, rfl, rfl, rfl, rfl⟩, ⟨rfl, rfl⟩, .inl rfl⟩

theorem mem64_congr (s t : State) (a b : Nat) (h : ∀ k, k < 8 → cget s.mem (a + k) = cget t.mem (b + k)) :
    s.mem64 a = t.mem64 b := by
  unfold State.mem64 State.memBytes
  simp only [cgetN, Nat.add_assoc]
  rw [h 1 (by omega), h (1 + 1) (by omega), h (1 + (1 + 1)) (by omega), h (1 + (1 + (1 + 1))) (by omega),
    h (1 + (1 + (1 + (1 + 1)))) (by omega), h (1 + (1 + (1 + (1 + (1 + 1))))) (by omega),
    h (1 + (1 + (1 + (1 + (1 + (1 + 1)))))) (by omega), show cget s.mem a = cget t.mem b from h 0 (by omega)]

theorem tables_zero (a : Nat) (h : 8 ≤ a % 4096) : cget tables a = 0 := by
  have n (k : Nat) (hk : k % 4096 < 8) : k ≠ a := by rintro rfl; omega
  simp [tables, cget, n]

/-- The leaf entry: a page of 2 MiB. -/
def leafWord : Word := BitVec.ofNat 64 0xF010000000100000

theorem leaf_bits : inAllot [(0, 4194304)] 16384 4096 = true ∧ leafWord[63] = true ∧ leafWord[62] = true := by decide +kernel

/-- What a slot of the four tables holds. -/
theorem slot_cases {s : State} (h : ∀ a, 0x1000 ≤ a → a < 0x5000 → cget s.mem a = cget tables a)
    (lv : Fin 4) (k : Nat) (hk : k < 512) : s.mem64 (0x1000 * (lv.val + 1) + 8 * k) = if k = 0
      then (if lv = 3 then leafWord else BitVec.ofNat 64 (2 ^ 63 + (lv.val + 2) * 2 ^ 11)) else 0 := by
  split
  · next hz =>
    subst hz
    rw [Nat.mul_zero, Nat.add_zero, mem64_congr s (mapped {}) _ (0x1000 * (lv.val + 1)) fun j hj => h _ (by omega) (by omega)]
    revert lv; decide +kernel
  · next hz =>
    exact mem64_congr s {} _ 0 fun j hj => by
      rw [h _ (by omega) (by omega), tables_zero _ (by omega)]; rfl

/-- One level of a walk through the tables. -/
theorem walk_level {s : State} (h : ∀ a, 0x1000 ≤ a → a < 0x5000 → cget s.mem a = cget tables a)
    (va : Nat) (lv : Fin 4) (rest : List Nat) :
    s.walkFrom [(0, 2 ^ 22)] 0 va (lv.val :: rest) (0x1000 * (lv.val + 1)) =
      if va / 2 ^ levelShift lv % levelCount lv = 0
      then (if lv = 3 then s.leafOf [(0, 2 ^ 22)] 0 0x4000 3 leafWord
        else s.walkFrom [(0, 2 ^ 22)] 0 va rest (0x1000 * (lv.val + 2))) else none := by
  have hk : va / 2 ^ levelShift lv % levelCount lv < 512 := by
    refine Nat.lt_of_lt_of_le (Nat.mod_lt _ ?_) ?_ <;> revert lv <;> decide
  conv_lhs => unfold State.walkFrom
  simp only [slot_cases h lv _ hk]
  generalize va / 2 ^ levelShift lv.val % levelCount lv.val = k
  split
  · next hz =>
    subst hz
    have hA : ∀ l : Fin 4, let e : Word := if l = 3 then leafWord else BitVec.ofNat 64 (2 ^ 63 + (l.val + 2) * 2 ^ 11)
        (!inAllot [(0, 2 ^ 22)] (0x1000 * (l.val + 1)) 4096 || !e.getLsbD 63) = false ∧ e.getLsbD 62 = decide (l = 3)
        ∧ (l ≠ 3 → (bitsOf e 51 11 == 0 && bitsOf e 0 11 == 0) = true ∧ bitsOf e 11 40 * 4096 = 0x1000 * (l.val + 2)) := by
      decide +kernel
    obtain ⟨h1, h2, h3⟩ := hA lv
    by_cases e : lv = 3
    · subst e
      have h4 : inAllot [(0, 4194304)] 16384 4096 = true ∧ leafWord[63] = true ∧ leafWord[62] = true := leaf_bits
      simp [h4]
    · simp only [h1, h2, h3 e]; simp [e]
  · simp

theorem walk_tables {s : State} {n : Nat} (p : Paged s n) (va : Nat) :
    s.walk n va = if va < 2 ^ 21 then s.leafOf [(0, 2 ^ 22)] 0 0x4000 3 leafWord else none := by
  obtain ⟨h, ⟨v, hv, ha, hh, hp⟩, -, -⟩ := p
  unfold State.walk
  simp only [hv, ha, hh, hp]
  have l0 : s.walkFrom [(0, 2 ^ 22)] 0 va [0, 1, 2, 3, 4] 0x1000 = if va / 2 ^ 48 % 256 = 0
      then s.walkFrom [(0, 2 ^ 22)] 0 va [1, 2, 3, 4] 0x2000 else none := by
    simpa [levelShift, levelCount] using walk_level h va 0 [1, 2, 3, 4]
  have l1 : s.walkFrom [(0, 2 ^ 22)] 0 va [1, 2, 3, 4] 0x2000 = if va / 2 ^ 39 % 512 = 0
      then s.walkFrom [(0, 2 ^ 22)] 0 va [2, 3, 4] 0x3000 else none := by
    simpa [levelShift, levelCount] using walk_level h va 1 [2, 3, 4]
  have l2 : s.walkFrom [(0, 2 ^ 22)] 0 va [2, 3, 4] 0x3000 = if va / 2 ^ 30 % 512 = 0
      then s.walkFrom [(0, 2 ^ 22)] 0 va [3, 4] 0x4000 else none := by
    simpa [levelShift, levelCount] using walk_level h va 2 [3, 4]
  have l3 : s.walkFrom [(0, 2 ^ 22)] 0 va [3, 4] 0x4000 = if va / 2 ^ 21 % 512 = 0
      then s.leafOf [(0, 2 ^ 22)] 0 0x4000 3 leafWord else none := by
    simpa [levelShift, levelCount] using walk_level h va 3 [4]
  change (if va < 2 ^ 56 then s.walkFrom [(0, 2 ^ 22)] 0 va [0, 1, 2, 3, 4] 0x1000 else none) = _
  rw [l0, l1, l2, l3]
  by_cases hz : va < 2 ^ 21
  · rw [if_pos (by omega), if_pos (by omega), if_pos (by omega), if_pos (by omega), if_pos (by omega), if_pos hz]
  · rw [if_neg hz]
    split
    · split
      · split
        · split
          · split
            · omega
            · rfl
          · rfl
        · rfl
      · rfl
    · rfl

theorem leaf_page (s : State) (h : s.disabled = [] ∧ s.pkg = 0) :
    s.leafOf [(0, 2 ^ 22)] 0 0x4000 3 leafWord = some pageLeaf := by
  obtain ⟨hd, hk⟩ := h
  have ht : 0x400000 ≤ s.hbmTop := by
    have : s.hbmTop = ({} : State).hbmTop := by unfold State.hbmTop State.slices; rw [hd]
    rw [this]; decide +kernel
  have hb : bitsOf leafWord 51 2 = 2 ∧ bitsOf leafWord 11 40 = 512 ∧ bitsOf leafWord 0 11 = 0 ∧ bitsOf leafWord 57 2 = 0
      ∧ bitsOf leafWord 53 4 = 0 ∧ inAllot [(0, 2 ^ 22)] 0x200000 (2 ^ 21) = true := by decide +kernel
  have hw : leafWord.getLsbD 61 = true ∧ leafWord.getLsbD 60 = true ∧ leafWord.getLsbD 59 = false := by decide +kernel
  have hl : leafWord.extractLsb' 11 40 = 0x200#40 ∧ leafWord.extractLsb' 51 2 = 2#2 ∧ leafWord.extractLsb' 57 2 = 0#2
      ∧ leafWord.extractLsb' 53 4 = 0#4 ∧ aclassAt 0x200000 0#4 = 0#4 := by decide +kernel
  unfold State.leafOf State.paValid State.isHbm State.homePkg
  simp only [hb, hw, hl, pageBytes]
  rw [if_pos]
  · simp [hk, pageLeaf]
  · simp [leafSizeOk]
    exact .inr ⟨.inl (by omega), .inl (.inl (by omega))⟩

theorem walk_page {s : State} {n : Nat} (p : Paged s n) {va : Nat} (h : va < 2 ^ 21) : s.walk n va = some pageLeaf := by
  rw [walk_tables p, if_pos h, leaf_page s p.slices]

theorem xlate_tables {s : State} {n : Nat} (p : Paged s n) (va : Nat) :
    s.xlate n va = if va < 2 ^ 21 then some pageLeaf else none := by
  have hw : s.walk n va = if va < 2 ^ 21 then some pageLeaf else none := by rw [walk_tables p, leaf_page s p.slices]
  unfold State.xlate
  rcases p.store with h | h
  · split
    · rw [h, pageIn]
      have : pageBytes pageLeaf.psize = 2 ^ 21 := by decide
      simp [this]
    · exact hw
  · rw [h, Bool.and_false]; exact hw

theorem xlate_page {s : State} {n : Nat} (p : Paged s n) {va : Nat} (h : va < 2 ^ 21) : s.xlate n va = some pageLeaf := by
  rw [xlate_tables p, if_pos h]

/-- Writes above the tables change no translation. -/
theorem tables_apart {s : State} {n : Nat} (p : Paged s n) (w : Nat → Prop) (hw : ∀ a, w a → 0x5000 ≤ a) :
    s.TablesApart n w := by
  intro m va hm
  have q : Paged { s with mem := m } n := ⟨fun a h1 h2 => by
    rw [← p.tables a h1 h2]; exact hm a fun c => by have := hw a c; omega, p.root, p.slices, p.store⟩
  rw [xlate_tables p, xlate_tables q]

theorem page_place (k va : Nat) (h : va < 2 ^ 21) :
    (if pageLeaf.reachable k = true then some (pageLeaf.place va) else none) = some (0x200000 + va) := by
  have hf : pageLeaf.frame = 0x200000 ∧ pageBytes pageLeaf.psize = 2 ^ 21 ∧ isRemote 0x200000 = false := by decide
  have hr : isRemote (0x200000 + va) = false := by unfold isRemote remoteBase; exact decide_eq_false (by omega)
  unfold Leaf.reachable Leaf.place globalAddr
  rw [hf.1, hf.2.1, hf.2.2, Nat.mod_eq_of_lt h, hr]
  simp

/-- Bytes of the page lie from 0x200000, by whatever translates it. -/
theorem page_places {tr : Nat → Option Leaf} (ht : ∀ a, a < 2 ^ 21 → tr a = some pageLeaf) (k : Nat) :
    ∀ n va, va + n ≤ 2 ^ 21 → 0 < n → placesBy tr k va n = some ((List.range n).map (0x200000 + va + ·)) := by
  have hp : ∀ a, a < 2 ^ 21 → placeBy tr k a = some (0x200000 + a) := fun a ha => by
    unfold placeBy; rw [ht a ha]; exact page_place k a ha
  have go : ∀ n va, va + n ≤ 2 ^ 21 →
      placesGo tr k n va (some (0x200000 + va)) = some ((List.range n).map (0x200000 + va + ·)) := by
    intro n
    induction n with
    | zero => intros; rfl
    | succ n ih =>
      intro va hn
      have e : (if va % 4096 = 0 then placeBy tr k va else some (0x200000 + va)) = some (0x200000 + va) := by
        rw [hp va (by omega)]; simp
      simp only [placesGo, e]
      rw [show 0x200000 + va + 1 = 0x200000 + (va + 1) by omega, ih (va + 1) (by omega), Option.map_some, List.range_succ_eq_map]
      simp [Function.comp_def, Nat.add_assoc, Nat.add_comm 1]
  intro n va hn h0
  unfold placesBy
  rw [hp va (by omega)]
  exact go n va hn

theorem page_lies {s : State} {f : Nat} (q : Paged s f) (va n : Nat) (hn : va + n ≤ 2 ^ 21) (h0 : 0 < n) :
    s.LiesAt f va n (0x200000 + va) := page_places (fun _ h => xlate_page q h) _ n va hn h0

theorem page_read {s : State} {f : Nat} (q : Paged s f) (va n : Nat) (hn : va + n ≤ 2 ^ 21) (h0 : 0 < n) :
    s.vread f va n = some ((List.range n).map fun k => cget s.mem (0x200000 + va + k)) := by
  unfold State.vread
  rw [show s.vplaces f va n = _ from page_lies q va n hn h0]
  simp [Function.comp_def]

theorem page_leased {s : State} (hv : s.vf 0 = some pageVf) {va : Nat} (h : va < 2 ^ 21) : s.leased 0 va = true := by
  simp [State.leased, State.leasesAt, hv, pageVf, pageJob]
  exact h

theorem page_reads {s : State} (q : Paged s 0) (hv : s.vf 0 = some pageVf) (va n : Nat) (hn : va + n ≤ 2 ^ 21) (h0 : 0 < n) :
    s.WalkerReads 0 va n ((List.range n).map fun k => cget s.mem (0x200000 + va + k)) :=
  ⟨fun k hk => ⟨by omega, page_leased hv (by omega)⟩, page_read q va n hn h0⟩

theorem test_witness_TileLoadsReadLines :
    let s := work { regs := Regs.ws (Regs.ws {} 1 128) 2 64 }
    let far : State := { s with rows := [(0, { holds := [(64, .held 0)] })] }
    (s.rs 1).toNat % (128 * 2 ^ (0 : Fin 4).val) = 0 ∧ ((s.rs 0).toNat + (0 : BitVec 11).toNat * 512) % 2 ^ 22 % 128 = 0
    ∧ (∀ c, c < 16 → 0 + c * 128 + 128 ≤ 2 ^ 22 ∧ s.OwnAllowed engLsu false (0 + c * 128) 128)
    ∧ (∀ c, c < 16 → 0 + c * 128 + 128 ≤ 2 ^ 16 ∧ s.BufAllowed 0 engLsu false (0 + c * 128) 128)
    ∧ bufStrip (s.rs 0) = stripOf s.cur
    ∧ (∀ c, c < 16 → 0 + c * 128 + 128 ≤ 2 ^ 16 ∧ far.BufAllowed 2 engLsu false (0 + c * 128) 128)
    ∧ bufStrip (far.rs 2) ≠ stripOf far.cur := by
  intro s far
  refine ⟨by decide, by decide, fun c hc => ⟨by omega, holds_all _ rfl _ _, undeclared _ rfl _ _ _ _ _⟩,
    fun c hc => ⟨by omega, by decide, by decide, undeclared _ rfl _ _ _ _ _⟩, by decide,
    fun c hc => ⟨by omega, by decide, by decide, undeclared _ rfl _ _ _ _ _⟩, by decide⟩

theorem test_witness_FullEmptyWordsHandOver :
    let s := busy { fe := [(0, 1)] }
    let u := busy { ctxs := #v[{ undo := some ({} : State).takeUndo }, {}, {}, {}], fe := [(0, 1)] }
    let r : State := { work { regs := Regs.ws {} 2 64 } with rows := [(0, { holds := [(64, .held 0)] })] }
    let h : Held := ⟨[], 7, 0, [], some (4096, 1, true), 3, false⟩
    (Memory.wf ({ held := [h] } : Core).fe = true ∧ h.mark = some (4096, 1, true) ∧ 2 < h.till ∧ h.till ≤ 3)
    ∧ s.canon = true ∧ s.OwnAllowed engLsu false 0 8 ∧ s.OwnAllowed engLsu true 8 8
    ∧ s.feFull s.cur 0 = true ∧ s.feFull s.cur 8 = false ∧ s.me.snap = none
    ∧ s.myCore.markHeld 0 = false ∧ s.myCore.markHeld 8 = false ∧ s.NoneHolds 8 8
    ∧ oldest (s.feWaiting s.cur 0 false true) (s.since (.fullEmpty false true s.cur 0)) s.cur s.cix.val = true
    ∧ s.feWaiting s.cur 0 false false = []
    ∧ (u.canon = true ∧ u.OwnAllowed engLsu false 0 8 ∧ u.feFull u.cur 0 = true ∧ u.myCore.markHeld 0 = false
      ∧ oldest (u.feWaiting u.cur 0 false true) (u.since (.fullEmpty false true u.cur 0)) u.cur u.cix.val = true
      ∧ u.feWaiting u.cur 0 false false = [] ∧ u.me.undo ≠ none ∧ ¬ u.NoneHolds 8 8)
    ∧ oldest (s.feWaiting s.cur 8 true true) (s.since (.fullEmpty true true s.cur 1)) s.cur s.cix.val = true
    ∧ s.scrOff 0 8 8 = 8 ∧ r.bufPlace 2 8 8 = .there 1 8 ∧ r.canon = true
    ∧ r.BufAllowed 2 engLsu true 8 8 ∧ r.BufAllowed 2 engLsu false 8 8 ∧ s.OwnAllowed engLsu true 0 0 := by
  intro s u r h
  refine ⟨by decide, rfl, ⟨holds_all _ rfl _ _, undeclared _ rfl _ _ _ _ _⟩, ⟨holds_all _ rfl _ _, undeclared _ rfl _ _ _ _ _⟩,
    by decide, by decide, rfl, by decide, by decide, ⟨rfl, fun o ho => (by cases ho)⟩, by decide, by decide,
    ⟨rfl, ⟨holds_all _ rfl _ _, undeclared _ rfl _ _ _ _ _⟩, by decide, by decide, by decide, by decide, by decide,
      fun h => absurd h.1 (by decide)⟩, by decide, by decide, by decide, by decide,
    ⟨by decide, by decide, undeclared _ rfl _ _ _ _ _⟩, ⟨by decide, by decide, undeclared _ rfl _ _ _ _ _⟩,
    ⟨holds_all _ rfl _ _, undeclared _ rfl _ _ _ _ _⟩⟩

theorem test_witness_RemoteFullEmptyWordsAreServed :
    let w (st em : Bool) (g : FeStage) : OpWhat := .fullEmpty st em 1 8 2 5 g
    let s (st em : Bool) (g : FeStage) (fe : Cells 1) : State :=
      { flying {} (w st em g) with cores := (flying {} (w st em g)).cores ++ [(1, { fe })] }
    let has (s : State) (st em : Bool) (g : FeStage) : Prop := s.canon = true ∧ (s.core 0).op 7 = some (flown (w st em g))
    (has (s false true .sent [(1, 1)]) false true .sent
      ∧ (s false true .sent [(1, 1)]).feServed 1 8 false true 0 0 (4 + 7) = true)
    ∧ (has (s false true (.waits 0) []) false true (.waits 0) ∧ (s false true (.waits 0) []).feServed 1 8 false true 0 0 (4 + 7) = false)
    ∧ has (s true true .sent []) true true .sent
    ∧ (has (s true true (.waits 0) [(1, 1)]) true true (.waits 0)
      ∧ (s true true (.waits 0) [(1, 1)]).feServed 1 8 true true 0 0 (4 + 7) = false)
    ∧ (has (s true true (.waits 0) []) true true (.waits 0) ∧ (s true true (.waits 0) []).feServed 1 8 true true 0 0 (4 + 7) = true)
    ∧ has (s false true (.served 3) []) false true (.served 3) ∧ has (s true true (.served 3) []) true true (.served 3) := by
  decide

theorem test_witness_ScaleLoadsReserveTheirPlace :
    let s := busy { ctxs := #v[{ regs := Regs.wh {} 2 allHandle }, {}, {}, {}], arr := { owner := some 0 } }
    s.myCore.arr.owner = some s.cix ∧ s.myCore.arr.queue.length < 64
    ∧ (s.scrOff 0 ((0 : BitVec 13).toNat * 64) 64 + 192 ≤ 2 ^ 22 ∧ s.OwnAllowed engLsu false (s.scrOff 0 0 64) 192)
    ∧ ((1021 : BitVec 13).toNat * 64 % 65536 + 192 ≤ 65536 ∧ s.BufAllowed 0 engLsu false 65344 192)
    ∧ (s.pageOff 2 0 ((61 : BitVec 9).toNat * 64) 64 + 192 ≤ pageBytes (Handle.psize (s.hreg 2))
      ∧ s.HandleAllowed 2 (s.pageOff 2 0 ((61 : BitVec 9).toNat * 64) 64) false) := by
  intro s
  refine ⟨rfl, by decide, ⟨by decide, holds_all _ rfl _ _, undeclared _ rfl _ _ _ _ _⟩, ⟨by decide, by decide, by decide, undeclared _ rfl _ _ _ _ _⟩,
    by decide +kernel, by decide +kernel, by decide, by decide +kernel⟩

theorem test_witness_HandlesTranslate :
    let s := mapped { ctxs := #v[{ regs := Regs.ws {} 3 4095 }, {}, {}, {}] }
    let o := mapped { ctxs := #v[{ regs := Regs.ws {} 3 (2 ^ 21) }, {}, {}, {}] }
    let r : Regs := Regs.wh {} 2 allHandle
    let z := mapped { ctxs := #v[{ task := true, snap := some r, raise := some (0, 1, none) },
      { task := true, snap := some r, sure := true, wait := .exiting none }, {}, {}] }
    (∀ i, i < 2 → (z.ctx 0 i).task = true ∧ (z.ctx 0 i).vf = 0 ∧ (z.ctx 0 i).snap = some r ∧ ((z.ctx 0 i).raise ≠ none ∨ i = 1))
    ∧ ((z.ctx 0 0).undo = none ∧ (z.ctx 0 0).sure = false ∧ (z.ctx 0 1).sure = true ∧ (z.ctx 0 1).wait = .exiting none)
    ∧ ((s.rs 3).toNat < 2 ^ 56 ∧ s.leased s.me.vf (s.rs 3).toNat = true) ∧ (∃ l, s.xlate s.me.vf (s.rs 3).toNat = some l)
    ∧ o.me.snap = none ∧ o.leased o.me.vf (o.rs 3).toNat = false
    ∧ ({ o with mem := [] } : State).xlate o.me.vf (o.rs 3).toNat = none ∧ (0, pageLeaf) ∈ s.lts 0
    ∧ (0 + pageBytes pageLeaf.psize ≤ (2 ^ 21 : Word).toNat) := by
  intro s o r z
  refine ⟨by decide +kernel, by decide, by decide, ⟨_, xlate_page (mapped_paged _) (by decide)⟩, rfl, by decide, by decide +kernel, by decide, by decide⟩

theorem test_witness_AtomicsActInOneStep :
    let s := work { regs := Regs.wh {} 2 allHandle }
    let a := OpWhat.amo .add .i64 1 64 5
    let c := OpWhat.cas .pair 4 64 0 7
    let two : State := { cores := [(0, { ops := [⟨6, 0, kSt, some .st, [], [], .store 64 [1], []⟩, flown a] })] }
    s.HandleAllowed 2 ((s.rs 0).toNat % pageBytes (Handle.psize (s.hreg 2)) / 8 * 8) true
    ∧ (Handle.aclass (s.hreg 2)).getLsbD 0 = true ∧ (Handle.aclass (s.hreg 2)).getLsbD 3 = true
    ∧ (flying {} a).canon = true ∧ ((flying {} a).core 0).op 7 = some (flown a) ∧ (flying {} a).Sends 0 (flown a)
    ∧ ((flying {} c).core 0).op 7 = some (flown c) ∧ (flying {} c).Sends 0 (flown c)
    ∧ (two.core 0).op 7 = some (flown a) ∧ ¬ two.Sends 0 (flown a) := by
  intro s a c two
  refine ⟨⟨by decide +kernel, by decide +kernel, by decide +kernel⟩, by decide +kernel, by decide +kernel, rfl, by decide, ⟨?_, rfl⟩, by decide,
    ⟨?_, rfl⟩, by decide, ?_⟩
  · intro x y _ p hp hlt
    simp [flying, a, State.core, aget] at hp
    subst hp; exact absurd hlt (by decide)
  · intro x y _ p hp hlt
    simp [flying, c, State.core, aget] at hp
    subst hp; exact absurd hlt (by decide)
  · intro h
    have := h.1 1 1 (by decide) ⟨6, 0, kSt, some .st, [], [], .store 64 [1], []⟩ (by decide) (by decide) 1 1 (by decide)
    omega

theorem idle_awaits (s : State) (h : s.myCore.ops = []) (sc k o) : ¬ s.Awaits sc k o := fun a => by
  have := a.1
  rw [h] at this; cases this

theorem idle_outstanding (s : State) (h : s.myCore.ops = []) (hb : s.me.bara = []) (sc) : ¬ s.Outstanding sc := by
  rintro ⟨id, ⟨o, a, -⟩ | ⟨b, hm, -⟩⟩
  · exact idle_awaits s h _ _ _ a
  · rw [hb] at hm; cases hm

theorem test_witness_FencesStandForWhatIsInFlight :
    let w := OpWhat.load (.s 1 .i64) []
    let b := work { bara := [⟨5, 0, 0⟩] }
    let m := mapped { ctxs := #v[{ fences := [⟨[3], 0xFF, false, true, some 1⟩, ⟨[], 0xFF, false, true, some 2⟩] }, {}, {}, {}] }
    (flying {} w).Awaits .core 0xFF (flown w) ∧ (flying {} w).Outstanding .core ∧ b.Outstanding .sys
    ∧ (∀ o, ¬ (work {}).Awaits .sys 0xFF o) ∧ ¬ (work {}).Outstanding .sys ∧ m.vf (m.ctx 0 0).vf = some pageVf
    ∧ ((m.ctx 0 0).fences = [⟨[3], 0xFF, false, true, some 1⟩] ++ ⟨[], 0xFF, false, true, some 2⟩ :: []
      ∧ ∀ x ∈ [(⟨[3], 0xFF, false, true, some 1⟩ : Fence)], x.pub = none ∨ x.ops ≠ []) := by
  intro w b m
  have a : (flying {} w).Awaits .core 0xFF (flown w) := ⟨by decide, rfl, ⟨0, by decide⟩, trivial⟩
  exact ⟨a, ⟨7, .inl ⟨_, a, rfl⟩⟩, ⟨5, .inr ⟨_, List.mem_singleton.2 rfl, rfl⟩⟩, fun o => idle_awaits _ rfl _ _ o,
    idle_outstanding _ rfl rfl _, rfl, rfl, by decide⟩

theorem test_witness_BuffersChangeHands :
    let s := work { regs := Regs.ws (Regs.ws {} 1 11) 2 1024 }
    let m : State := { s with rows := [(0, { holds := [(0, .transit 0)] })] }
    let g : State := { s with rows := [(0, { holds := [(0, .transit 11)] })] }
    let y := flying {} (.bufStore 0 8 [1])
    (bufBad (y.rs 0) = false ∧ (y.rs 0).toNat < 12 ∧ y.holds y.cur (bufStrip (y.rs 0)) (bufNum (y.rs 0)) = true
      ∧ y.bufBusy (y.rs 0) = true)
    ∧ bufBad (s.rs 0) = false ∧ (s.rs 1).toNat < 12 ∧ s.holds s.cur (bufStrip (s.rs 0)) (bufNum (s.rs 0)) = true ∧ s.bufBusy (s.rs 0) = false
    ∧ m.holdOf (rowOf m.cur) 0 0 = .transit (stripOf m.cur) ∧ s.me.snap = none ∧ bufBad (s.rs 2) = true
    ∧ g.holds g.cur 0 0 = false ∧ g.holdOf (rowOf g.cur) 0 0 ≠ .transit (stripOf g.cur) := by decide

theorem test_witness_AccessesPerform :
    let l := OpWhat.load (.scale 3) [.known 1]
    let q := OpWhat.bufStore 1 0 [1]
    let two : State := { cores := [(0, { ops := [⟨6, 0, kSt, some .st, [], [], .store 64 [1], []⟩, flown (.store 65 [2])] })] }
    let u : Ctx := { undo := some ({} : State).takeUndo }
    let h : State := { cores := [(0, { ops := [flown .settled], held := [⟨[6], 7, 0, [(0, 1)], none, 0, false⟩] })] }
    (∀ w ∈ [.settled, l, .store 64 [1], q],
      (flying {} w).canon = true ∧ ((flying {} w).core 0).op 7 = some (flown w) ∧ ∀ h ∈ ((flying {} w).core 0).held, h.store ≠ 7)
    ∧ (flying {} (.store 64 [1])).Sends 0 (flown (.store 64 [1])) ∧ ¬ two.Sends 0 (flown (.store 65 [2]))
    ∧ (flying {} q).opHeld 0 (flown q) = false ∧ ((flying u q).core 0).op 7 = some (flown q) ∧ (flying u q).opHeld 0 (flown q) = true
    ∧ (h.core 0).op 7 = some (flown .settled) ∧ ∃ x ∈ (h.core 0).held, x.store = 7 := by
  intro l q two u h
  refine ⟨by decide, ⟨?_, rfl⟩, ?_, by decide, by decide, by decide, by decide, by decide⟩
  · intro x y _ p hp hlt
    simp [flying, State.core, aget] at hp
    subst hp; exact absurd hlt (by decide)
  · intro h
    have := h.1 1 1 (by decide) ⟨6, 0, kSt, some .st, [], [], .store 64 [1], []⟩ (by decide) (by decide) 1 1 (by decide)
    omega

theorem test_witness_AccessesThatMayNotBeMadeTrap :
    let s := work { regs := Regs.wh (Regs.ws {} 2 1024) 3 (BitVec.ofNat 128 (2 ^ 32)) }
    let g : State := { s with rows := [(0, { holds := [(0, .transit 11)] })] }
    let p := work { strict := true, phase := some [] }
    s.me.snap = none ∧ accessOf (.ld 1 .i64 (.hnd 0 0 0)) = some (.hnd 0 0 0, 8, false)
    ∧ accessOf (.stt 1 (.scr 0 0)) = some (.scr 0 0, 2048, true)
    ∧ Handle.valid (s.hreg 0) = false ∧ Handle.valid (s.hreg 3) = true ∧ Handle.canW (s.hreg 3) = false
    ∧ bufBad (s.rs 2) = true ∧ bufBad (s.rs 0) = false ∧ g.holds g.cur 0 0 = false ∧ s.holds s.cur 0 0 = true
    ∧ p.me.strict = true ∧ p.me.phase = some [] ∧ ¬ ByteDeclared (stripOf p.cur) [] engLsu true none 0
    ∧ ¬ ByteDeclared (stripOf p.cur) [] engLsu false (some (0, 0)) 0 ∧ (work { strict := true }).me.phase = none := by
  intro s g p
  refine ⟨rfl, rfl, rfl, by decide +kernel, by decide +kernel, by decide +kernel, by decide, by decide, by decide, by decide, rfl, rfl, ?_, ?_, rfl⟩
  all_goals rintro ⟨e, he, -⟩; simp at he

/-- A symmetric 2 by 2 tensor of the format with code fmt, packed from offset 0 (R130, R131). -/
def symDesc (fmt : Nat) : Block64 :=
  BitVec.ofNat 512 (2 * 2 ^ 32 + fmt * 2 ^ 40 + 2 ^ 48 + 2 * 2 ^ 64 + 2 * 2 ^ 96 + 3 * 2 ^ 256)
/-- The same, antisymmetric. -/
def asymDesc (fmt : Nat) : Block64 := symDesc fmt + BitVec.ofNat 512 (2 ^ 286)
def shaped (b : Block64) (r : Regs := {}) : State := work { task := true, regs := r.wo 1 b }

theorem test_witness_OrbitsOfMatrices :
    let d (g : List Gen) : Desc := ⟨0, 2, 6, [3, 3], g⟩
    ((d []).rank = (d []).ext.length ∧ [2, 1].length = (d []).rank ∧ (d []).gens = [])
    ∧ (let x : Desc := ⟨0, 3, 6, [4, 4, 4], [⟨0, false, [0, 1, 2]⟩]⟩
      x.rank = 3 ∧ x.ext = [4, 4, 4] ∧ x.gens = [⟨0, false, [0, 1, 2]⟩] ∧ [3, 1, 3] ∈ [[1, 3, 3], [1, 3, 3], [3, 1, 3]])
    ∧ (d [⟨3, true, [1]⟩]).gens = [⟨3, true, [1]⟩] ∧ (d [⟨3, true, [0]⟩, ⟨3, false, [1]⟩]).gens = [⟨3, true, [0]⟩, ⟨3, false, [1]⟩]
    ∧ (d []).rank = 2 ∧ (d []).ext = [3, 3] ∧ (d [⟨0, false, [0, 1]⟩]).gens = [⟨0, false, [0, 1]⟩]
    ∧ (d [⟨3, true, [0]⟩]).gens = [⟨3, true, [0]⟩] := by decide

theorem test_witness_DescriptorsAreChecked :
    (work {}).OwnAllowed engLsu false 4194240 64
    ∧ ((flying {} (.descr 1 (symDesc 6))).core 0).op 7 = some (flown (.descr 1 (symDesc 6)))
    ∧ descOk (symDesc 6) = true ∧ descOk (BitVec.ofNat 512 1) = false ∧ BitVec.ofNat 512 1 ≠ 0 :=
  ⟨⟨holds_all _ rfl _ _, undeclared _ rfl _ _ _ _ _⟩, by decide +kernel, by decide +kernel, by decide +kernel, by decide +kernel⟩

theorem test_witness_OrbitWordsRead :
    let s := shaped (symDesc 6) (Regs.ws {} 2 (2 ^ 21 + 1))
    let d := descOf (s.oreg 1)
    let tup := s.tuple d 2 2
    d.rank = 2 ∧ TupleInside d tup
    ∧ (∀ r c t, r < 128 → c < d.perLane → WindowTuple d tup r c t → TupleInside d t → (d.orbitRep t).sign ≠ 0 →
      s.OwnAllowed engLsu false (d.base + (d.orbitRep t).off * d.size) d.size)
    ∧ s.me.snap = none ∧ (descOf ((work {}).oreg 1)).rank = 0 ∧ d.extent 0 ≤ ((shaped (symDesc 6) (Regs.ws {} 2 2)).tuple d 2 2).getD 0 0 := by
  intro s d tup
  refine ⟨by decide +kernel, ?_, fun _ _ _ _ _ _ _ _ => ⟨holds_all _ rfl _ _, undeclared _ rfl _ _ _ _ _⟩, rfl,
    by decide +kernel, by decide +kernel⟩
  show ∀ k, k < d.rank → _
  rw [show d.rank = 2 by decide +kernel]
  decide +kernel

theorem test_witness_OrbitWordsStore :
    let s := shaped (symDesc 6) (Regs.ws {} 2 1)
    let z := shaped (asymDesc 6) (Regs.ws {} 2 (2 ^ 21 + 1))
    let d := descOf (s.oreg 1)
    let q := descOf (z.oreg 1)
    s.canon = true ∧ d.rank = 2 ∧ (d.orbitRep (s.tuple d 2 2)).sign ≠ 0 ∧ (∀ lo n, s.OwnAllowed engLsu true lo n)
    ∧ (∀ lo n, s.OwnAllowed engLsu false lo n)
    ∧ (q.orbitRep (z.tuple q 2 2)).sign = 0 ∧ zeroElem q.fmt (8 * q.size) ((z.rs 0).toNat % 2 ^ (8 * q.size)) = true
    ∧ zeroElem q.fmt (8 * q.size) ((z.rs 2).toNat % 2 ^ (8 * q.size)) = false ∧ z.me.snap = none
    ∧ (∀ p ∈ d.window (s.tuple d 0 0), d.canonical (s.tuple d 0 0) p = true ∨ s.chkOk d (s.tuple d 0 0) s.src.t[0] p = true) := by
  intro s z d q
  exact ⟨rfl, by decide +kernel, by decide +kernel, fun _ _ => ⟨holds_all _ rfl _ _, undeclared _ rfl _ _ _ _ _⟩,
    fun _ _ => ⟨holds_all _ rfl _ _, undeclared _ rfl _ _ _ _ _⟩, by decide +kernel, by decide +kernel, by decide +kernel, rfl,
    by decide +kernel⟩

/-- A tile that breaks the symmetry: element (1, 0) of the 2 by 2 tensor differs from element (0, 1). -/
theorem test_witness_OrbitWordsStore_chk :
    let s := shaped (symDesc 6) (Regs.wt {} 0 (BitVec.ofNat 16384 (2 ^ 128)))
    let d := descOf (s.oreg 1)
    ∃ l p l', d.window (s.tuple d 0 0) = l ++ p :: l'
      ∧ (∀ q ∈ l, d.canonical (s.tuple d 0 0) q = true ∨ s.chkOk d (s.tuple d 0 0) s.src.t[0] q = true)
      ∧ d.canonical (s.tuple d 0 0) p = false ∧ s.chkOk d (s.tuple d 0 0) s.src.t[0] p = false := by
  intro s d
  exact ⟨(d.window (s.tuple d 0 0)).take 2, (d.window (s.tuple d 0 0)).getD 2 ((0, 0), ⟨[], 0, 0, 0⟩), (d.window (s.tuple d 0 0)).drop 3,
    by decide +kernel, by decide +kernel, by decide +kernel, by decide +kernel⟩

theorem test_witness_OrbitsExpand :
    let s := shaped (symDesc 6) (Regs.ws {} 2 4194302)
    let d := descOf (s.oreg 1)
    let n := d.ext.foldl (· * ·) 1 * d.size
    d.rank = 2 ∧ ((s.rs 0).toNat + 64 * (1 : BitVec 20).toNat) % 2 ^ 22 + n ≤ 2 ^ 22
    ∧ d.base + d.packed * d.size ≤ 64 ∧ (∀ wr lo k, s.OwnAllowed engCpy wr lo k) ∧ s.me.snap = none
    ∧ 2 ^ 22 < (s.rs 2).toNat % 2 ^ 22 + n ∧ (0 + n ≤ 2 ^ 22 ∧ 0 < n ∧ d.base ≤ 0 ∧ 0 < d.base + d.packed * d.size) := by
  intro s d n
  exact ⟨by decide +kernel, by decide +kernel, by decide +kernel,
    fun _ _ _ => ⟨holds_all _ rfl _ _, undeclared _ rfl _ _ _ _ _⟩, rfl, by decide +kernel, by decide +kernel⟩

/-! ### Vectors -/

theorem no_phase (s : State) (h : s.rows = []) : s.NoTransfer := by
  intro p hp; simp [State.row, h, aget] at hp

theorem some_of_any {α : Type} {o : Option α} {p : α → Prop} [DecidablePred p] (h : (o.any fun x => decide (p x)) = true) :
    ∃ x, o = some x ∧ p x := by
  cases o with
  | none => simp at h
  | some x => exact ⟨x, rfl, by simpa using h⟩

def plain : VMod := ⟨0, .rne⟩

theorem test_witness_VectorWordsComputeElements :
    let s := having (Regs.wv {} 2 5)
    s.NoTransfer ∧ ∃ x, vecOf s (.vadd 1 2 2 .i32 plain) = some x
      ∧ x.2.2.1 = 32 ∧ flagsOf s.src x.2.1 x.2.2.1 x.2.2.2.2 &&& tenOf s.src.fpctl = 0 :=
  ⟨no_phase _ rfl, some_of_any (by decide +kernel)⟩

theorem test_witness_VectorWordsReduce :
    let s := having {}
    let r : Regs := {}
    s.NoTransfer ∧ tenOf r.fpctl = 0 ∧ s.src = r ∧ (3 : Fin 4).val * (64 * (mxOf .e4m3).width) + 64 * (mxOf .e4m3).width ≤ 2048 :=
  ⟨no_phase _ rfl, by decide +kernel, rfl, by decide⟩

/-- Infinity less infinity, with NV enabled. -/
theorem test_witness_VectorWordsTrap :
    let s := having (Regs.wv { fpctl := BitVec.ofNat 16 (2 ^ 16 - 8) } 2 0x7F800000)
    s.me.snap = none ∧ s.NoTransfer ∧ (∃ x, vecOf s (.vsub 1 2 2 .f32 plain) = some x
      ∧ x.2.2.1 = 32 ∧ flagsOf s.src x.2.1 x.2.2.1 x.2.2.2.2 &&& tenOf s.src.fpctl ≠ 0)
    ∧ ({ s with rows := [(0, { phase := some ⟨0, 0, [0]⟩ })] } : State).inTransfer = true :=
  ⟨rfl, no_phase _ rfl, some_of_any (by decide +kernel), by decide +kernel⟩

theorem test_witness_ExactValuesConvertExactly :
    0x3F800000 < fF32.signBit ∧ fF32.val false 0x3F800000 = .fin false (2 ^ 23) (-23) ∧ 2 ^ fF32.m ≤ 2 ^ 23 := by decide +kernel

/-! ### The matrix array and asynchronous operations -/

/-- Context 0 holds core 0's array. -/
def arrayed (a : Arr) (c : Ctx := {}) : State := busy { ctxs := #v[c, {}, {}, {}], arr := { a with owner := some 0 } }

theorem arrayed_mine (a : Arr) (c : Ctx) (h : a.shadow = none) : (arrayed a c).ArrayMine :=
  ⟨rfl, no_phase _ rfl, h⟩

theorem own (s : State) (h : s.rows = []) (hs : s.me.strict = false) (e : Nat) (w : Bool) (lo n : Nat) : s.OwnAllowed e w lo n :=
  ⟨holds_all s h lo n, undeclared s hs e w none lo n⟩

/-- A group of whole numbers, ready. -/
def wholeGroup (ready : Option (BitVec 16)) (auto : Option Window) : Group :=
  { id := 5, ready, a := 1, b := 1, af := .i8, bf := .i8, mx := false, rowScale := 0, colScale := 0, daz := false, lanes := 16
    kpos := 0, padK := none, mul := none, auto }

theorem test_witness_ArrayChangesHands :
    let f := work {}
    let o := busy { ctxs := #v[{}, {}, {}, {}], arr := { owner := some 3 } }
    let w := busy { arr := { opens := 1 } }
    (w.NoTransfer ∧ w.myCore.arr.owner = none ∧ w.cycle < w.myCore.arr.opens ∧ w.me.snap = none)
    ∧ f.NoTransfer ∧ f.myCore.arr.owner = none ∧ f.myCore.arr.opens ≤ f.cycle ∧ (∀ i, i ≠ f.cix → ∀ p, (f.ctx f.cur i).park = some p → p.why ≠ .mown)
    ∧ o.NoTransfer ∧ o.myCore.arr.owner = some 3 ∧ 3 ≠ o.cix ∧ o.me.snap = none
    ∧ (arrayed {}).ArrayMine ∧ (arrayed {}).NoTransfer ∧ (arrayed {}).myCore.piped = false ∧ (arrayed {}).NoSqld
    ∧ (arrayed {}).me.snap = none ∧ (arrayed { drains := [(1, 0)] }).ArrayMine ∧ (arrayed { drains := [(1, 0)] }).myCore.piped = true := by
  intro f o w
  refine ⟨⟨no_phase _ rfl, rfl, by decide, rfl⟩, no_phase _ rfl, rfl, by decide, ?_, no_phase _ rfl, rfl, by decide, rfl, arrayed_mine _ _ rfl, no_phase _ rfl, rfl,
    fun o ho => (by cases ho), rfl, arrayed_mine _ _ rfl, rfl⟩
  intro i _ p hp
  have : ∀ i, (f.ctx f.cur i).park = none := by decide
  rw [this i] at hp; cases hp

theorem test_witness_ArrayIsConfigured :
    let s := arrayed { queue := [(2, some 0)] } { regs := Regs.wo (Regs.wo {} 1 (symDesc 10)) 2 (symDesc 3) }
    s.ArrayMine ∧ s.myCore.piped = false ∧ pairOk .e4m3 .e5m2 .f32 = true ∧ s.myCore.arr.free ≤ s.cycle
    ∧ (∀ d, s.myCore.arr.oc = some d → drainOk .f32 (mfmtOfCode (descOf d).fmt) = true)
    ∧ (s.myCore.arr.mul = true → (mulMatch s.myCore.arr.oa s.myCore.arr.ob).isSome = true)
    ∧ (descOf (s.oreg 1)).rank ≠ 0 ∧ (mulMatch (some (s.oreg 1)) (some (s.oreg 1))).isSome = true
    ∧ drainOk s.myCore.arr.acc (mfmtOfCode (descOf (s.oreg 1)).fmt) = true
    ∧ (∀ g ∈ (descOf (s.oreg 1)).gens, g.axes = [0, 1]
        ∧ provenKind ((some 1 : Option (Fin 8)) == some 1) (some (s.oreg 1)) (some (s.oreg 1)) = some g.kind)
    ∧ s.myCore.arr.queue = (2, some 0) :: [] := by
  intro s
  exact ⟨arrayed_mine _ _ rfl, by decide +kernel, by decide, by decide, fun d h => (by cases h), fun h => (by cases h),
    by decide +kernel, by decide +kernel, by decide +kernel, by decide +kernel, rfl⟩

theorem test_witness_BeatsFormGroups :
    let s := arrayed { queue := [(2, some 0)] }
    let p := arrayed { pending := [wholeGroup none none] }
    s.ArrayMine ∧ s.NoAcopyIn ∧ s.myCore.arr.free ≤ s.cycle ∧ s.myCore.arr.queue = (2, some 0) :: []
    ∧ ∃ g ∈ (p.core 0).arr.pending, g.id = 5 ∧ g.ready = none := by
  refine ⟨arrayed_mine _ _ rfl, fun o ho => ?_, by decide, rfl, ⟨wholeGroup none none, ?_, rfl, rfl⟩⟩
  · simp [arrayed, busy, State.myCore, State.core, aget] at ho
  · simp [arrayed, busy, State.core, aget]

theorem test_witness_FoldsWriteTheirWindow :
    let w : Window := ⟨0, 0, 128, 64, none, none⟩
    let s := arrayed { pending := [wholeGroup (some 0) (some w)], folds := [⟨9, 6, [], 0, 0⟩] }
    s.ArrayMine ∧ s.NoAcopyIn ∧ s.canon = true ∧ s.myCore.arr.Masked
    ∧ (s.core 0).arr.pending.find? (fun g => g.id == 5) = some (wholeGroup (some 0) (some w))
    ∧ (s.core 0).arr.folds.find? (fun f => f.id == 9) = some ⟨9, 6, [], 0, 0⟩
    ∧ (arrayed {}).myCore.arr.pending.filter (fun g => g.ready.isSome) = [] := by
  intro w s
  refine ⟨arrayed_mine _ _ rfl, fun o ho => ?_, rfl, ⟨by decide, by decide⟩, rfl, rfl, rfl⟩
  simp [s, arrayed, busy, State.myCore, State.core, aget] at ho

theorem test_witness_IntegerGroupsAreDotProducts :
    let g := wholeGroup none none
    (g.af = .i8 ∧ g.bf = g.af ∧ g.mx = false ∧ g.padK = none ∧ g.mul = none) ∧ g.dot 0 0 = 1 ∧ g.dot 1 0 = 0
    ∧ (0 : Nat) < 2 ^ 32 ∧ (1 * 2 ^ 31 : Nat) = (2147483648 : Int).natAbs := by decide +kernel

theorem test_witness_DrainsReadTheVisibleRow :
    let s := arrayed { drains := [(1, 0)] }
    s.ArrayMine ∧ s.NoAcopyIn ∧ drainOk s.myCore.arr.acc .f32 = true
    ∧ (s.core 0).arr.drains.find? (fun d => d.1 == 1) = some (1, 0) := by
  refine ⟨arrayed_mine _ _ rfl, fun o ho => ?_, rfl, by decide⟩
  simp [arrayed, busy, State.myCore, State.core, aget] at ho

theorem test_witness_ArrayWordsTrap :
    let s := work {}
    let t : State := { arrayed {} { task := true } with rows := [(0, { phase := some ⟨0, 0, [0]⟩ })] }
    let h := arrayed { shadow := some ⟨0, []⟩ }
    let q : State := busy { ctxs := #v[{}, {}, {}, {}], arr := { owner := some 0 }, ops := [flown (.load (.scale 0) [])] }
    (h.myCore.arr.owner = some h.cix ∧ h.NoTransfer ∧ h.myCore.arr.shadow ≠ none) ∧ (arrayed {}).NoSqld
    ∧ (q.ArrayMine ∧ q.myCore.arr.queue = [] ∧ q.myCore.arr.free ≤ q.cycle ∧ ¬ q.NoSqld)
    ∧ s.me.snap = none ∧ s.myCore.arr.owner ≠ some s.cix ∧ t.myCore.arr.owner = some t.cix ∧ t.inTransfer = true
    ∧ (arrayed {}).ArrayMine ∧ (arrayed {}).myCore.piped = false ∧ pairOk .i8 .i16 .i32 = false
    ∧ drainOk (arrayed {}).myCore.arr.acc .f64 = false ∧ (arrayed {}).myCore.arr.queue = []
    ∧ (arrayed {}).myCore.arr.free ≤ (arrayed {}).cycle :=
  ⟨⟨rfl, no_phase _ rfl, by decide⟩, fun o ho => (by cases ho), ⟨⟨rfl, no_phase _ rfl, rfl⟩, rfl, by decide, fun h =>
    h (flown (.load (.scale 0) [])) (List.mem_singleton.2 rfl) rfl 0 [] rfl⟩, rfl, by decide, rfl, by decide +kernel, arrayed_mine _ _ rfl, rfl, by decide, by decide, rfl, by decide⟩

theorem test_witness_CopiesIssue :
    let s := arrayed {} { regs := Regs.wh (Regs.ws (Regs.ws (Regs.ws {} 1 63) 2 (2 ^ 32 + 2 ^ 48)) 3 (2 + 2 ^ 16 * 2 + 2 ^ 32 * 2 + 2 ^ 48 * 2)) 2 allHandle }
    (∀ e w lo n, s.OwnAllowed e w lo n) ∧ s.RangesFree 2 ∧ s.HandleAllowed 2 0 true ∧ s.HandleAllowed 2 0 false
    ∧ 4096 ≤ pageBytes (Handle.psize (s.hreg 2)) ∧ (s.rs 1).toNat < 64
    ∧ (s.rs 0).toNat % 2 ^ 22 + sideSpan 2 2 2 ≤ 2 ^ 22 ∧ (s.rs 0).toNat % 4096 + sideSpan 2 2 2 ≤ 4096
    ∧ s.RowsAllowed true 0 2 2 2 ∧ s.RowsAllowed false 0 2 2 2
    ∧ s.myCore.arr.owner = some s.cix ∧ (s.rs 2).toNat / 2 ^ 32 % 2 ^ 10 = 1 ∧ (s.rs 2).toNat / 2 ^ 48 % 2 ^ 10 = 1
    ∧ ((s.rs 2).toNat / 2 ^ 9 % 2 ^ 7 = 0 ∧ (s.rs 2).toNat / 2 ^ 25 % 2 ^ 7 = 0 ∧ (s.rs 2).toNat / 2 ^ 42 % 2 ^ 6 = 0
      ∧ (s.rs 2).toNat / 2 ^ 58 = 0) ∧ s.NoAcopyIn ∧ ∀ i, s.foldsInto i (awinOf (s.rs 2)).cells = false := by
  intro s
  have o := own s rfl rfl
  refine ⟨o, by unfold State.RangesFree; decide, by unfold State.HandleAllowed; decide +kernel,
    by unfold State.HandleAllowed; decide +kernel, by decide +kernel, by decide, by decide, by decide, fun _ _ _ => o .., fun _ _ _ => o ..,
    rfl, by decide, by decide, by decide, fun p hp => ?_, by decide +kernel⟩
  simp [s, arrayed, busy, State.myCore, State.core, aget] at hp

theorem test_witness_CopiesRetire :
    let c := OpWhat.copy [(.known 1, .scr 0 5), (.place (.mem 9), .lid 0 3)]
    let a := OpWhat.cellsIn [(0, 1), (1, 2)]
    let h : Held := ⟨[7], 8, 0, [(64, 1)], some (8, 1, true), 0, false⟩
    let s : State := { cores := [(0, { ops := [flown c], held := [h] })] }
    let u : Ctx := { undo := some ({} : State).takeUndo }
    (((flying u c).core 0).op 7 = some (flown c) ∧ (flying u c).opHeld 0 (flown c) = true)
    ∧ ((flying {} c).opHeld 0 (flown c) = false ∧ (flying {} a).opHeld 0 (flown a) = false)
    ∧ (flying {} c).canon = true ∧ ((flying {} c).core 0).op 7 = some (flown c)
    ∧ (∀ x ∈ ((flying {} c).core 0).held, x.freedBy 7 (flying {} c).cycle = false)
    ∧ ([(.scr 0 5), (.lid 0 3)] : List Loc).Nodup ∧ ((flying {} a).core 0).op 7 = some (flown a) ∧ ([0, 1] : List Nat).Nodup
    ∧ (s.core 0).op 7 = some (flown c) ∧ ((s.core 0).held.filter fun h => h.freedBy 7 s.cycle) = [h] ∧ (h.bytes.map (·.1)).Nodup := by
  decide +kernel

/-- A gather of two elements on die 0. -/
def gathering (c : Nat) : GatherOp :=
  { tag := 4, core := 0, ctx := 0, op := 7, vf := 0, scat := false, sz := 0, base := 0, idx := [0, 2 ^ 56], data := [], dst := 0
    next := c, parked := 0, wrote := [], stalled := [] }
def parkedAt (popped : Bool) (replay : Option (Nat × Bool)) : ColEnt :=
  { seq := 3, va := 0, pos := 0, tag := 4, vf := 0, core := 0, ctx := 0, scat := false, sz := 0, code := 1, popped, replay }
/-- Die 0 serves a gather, with entries in its colander. -/
def serving (c : Nat) (es : List ColEnt) : State :=
  { mapped { ops := [flown (.elements 4)] } with dies := [(0, { colander := es, gathers := [gathering c] })] }

theorem serving_at (c : Nat) (es : List ColEnt) : ElementAt (serving c es) (gathering c) 0 0x200000 := by
  have p : Paged (serving c es) 0 := ⟨fun _ _ _ => rfl, ⟨_, rfl, rfl, rfl, rfl⟩, ⟨rfl, rfl⟩, .inl rfl⟩
  exact ⟨by decide, _, walk_page p (by decide), fun h => (by cases h), fun h => absurd h.1 (by decide), by decide⟩

theorem test_witness_GathersServeEveryElement :
    let s := work { regs := Regs.wh {} 2 allHandle }
    let u : State := { mapped { ctxs := #v[{ undo := some ({} : State).takeUndo }, {}, {}, {}] } with
      dies := [(0, { gathers := [gathering 0] })] }
    let full : State := serving 1 (List.replicate 4096 (parkedAt false none))
    let g : GatherOp := { gathering 2 with stalled := [(1, 3)] }
    let waits (es : List ColEnt) : State := { serving 2 es with dies := [(0, { colander := es, gathers := [g] })] }
    ((u.die 0).gather 4 = some (gathering 0) ∧ u.gatherHeld (gathering 0) = true ∧ (gathering 0).stalled = [])
    ∧ (∀ es, ((waits es).die 0).gather 4 = some g ∧ g.idx.length ≤ g.next ∧ g.stalled = (1, 3) :: [] ∧ (waits es).gatherHeld g = false)
    ∧ ((serving 0 []).gatherHeld (gathering 0) = false ∧ ((serving 0 []).die 0).serveFree ≤ (serving 0 []).cycle)
    ∧ (ElementFaults full (gathering 1) (2 ^ 56) 3 ∧ 4096 ≤ (full.die 0).colander.length)
    ∧ (Handle.valid (s.hreg 2) = true ∧ Handle.canW (s.hreg 2) = true ∧ (∀ e w lo n, s.OwnAllowed e w lo n) ∧ s.RangesFree 2
      ∧ (s.die (dieOf s.cur)).colander.length < 4096)
    ∧ (serving 0 []).canon = true ∧ ((serving 0 []).die 0).gather 4 = some (gathering 0)
    ∧ ElementAt (serving 0 []) (gathering 0) 0 0x200000
    ∧ ElementFaults (serving 1 []) (gathering 1) (2 ^ 56) 3
    ∧ ((serving 2 []).core 0).op 7 = some (flown (.elements 4)) ∧ (gathering 2).idx.length ≤ (gathering 2).next := by
  intro s u full g waits
  exact ⟨⟨rfl, by decide, rfl⟩, fun es => ⟨rfl, by decide, rfl, rfl⟩, ⟨by decide, by decide⟩, ⟨.inl ⟨rfl, by decide⟩, by decide +kernel⟩,
    ⟨by decide +kernel, by decide +kernel, own s rfl rfl, by unfold State.RangesFree; decide, by decide⟩, by decide +kernel, rfl, serving_at 0 [],
    .inl ⟨rfl, by decide⟩, rfl, by decide⟩

theorem test_witness_ParkedElementsReplay :
    let s : State := { work { vf := 64 } with dies := [(0, { colander := [parkedAt false none] })] }
    let q : State := { busy { ctxs := #v[{ vf := 64 }, {}, {}, {}], scr := [(12, 4)] } with
      dies := [(0, { colander := [parkedAt true none] })] }
    let e := parkedAt true (some (9, false))
    s.me.vf = 64 ∧ s.canon = true ∧ NextToPop (s.die 0) (parkedAt false none) ∧ (∀ e w lo n, s.OwnAllowed e w lo n)
    ∧ (work {}).me.vf ≠ 64 ∧ (work {}).me.snap = none ∧ (∀ e ∈ (q.die 0).colander, e.popped = true)
    ∧ (leVal (q.scrBytes q.cur 8 4) = 0 ∧ leVal (q.scrBytes q.cur 12 4) = (parkedAt true none).tag.toNat)
    ∧ (∀ x ∈ (s.die 0).colander, x.popped = false)
    ∧ (serving 2 [e]).canon = true ∧ e ∈ ((serving 2 [e]).die 0).colander
    ∧ ((serving 2 [e]).die 0).colander.Pairwise (fun x y => x.seq ≠ y.seq) ∧ e.replay = some (9, false)
    ∧ ((serving 2 [e]).die 0).gather e.tag.toNat = some (gathering 2)
    ∧ ElementAt (serving 2 [e]) (gathering 2) e.va.toNat 0x200000
    ∧ (∀ y ∈ ((serving 2 [e]).die 0).colander, ∀ j b, y.replay = some (j, b) → 9 ≤ j)
    ∧ ¬ ReplayWaits ((serving 2 [e]).die 0) e
    ∧ (let g := { gathering 2 with scat := true, idx := [0, 0], wrote := [(1, 0x200000)] }
      g.Overtaken 0 0x200000 ∧ ¬ g.Overtaken 1 0x200000) := by
  intro s q e
  refine ⟨rfl, rfl, ⟨[], [], rfl, by simp, rfl⟩, own s rfl rfl, by decide, rfl, by decide, by decide +kernel, by decide,
    by decide +kernel, by decide, by decide, rfl, rfl, serving_at 2 [e], ?_, ?_, ?_, ?_⟩
  · intro y hy j b h
    simp [serving, State.die, aget] at hy
    subst hy; simp [e, parkedAt] at h; omega
  · rintro ⟨l, x, l', l'', h, -⟩
    have := congrArg List.length h
    simp [serving, State.die, aget] at this
    omega
  · exact ⟨1, by decide, by simp⟩
  · rintro ⟨k, h1, h2⟩
    simp at h2
    omega

/-! ### Walkers -/

/-- Context 0 waits for a walker operation, over a page with some bytes. -/
def walking (w : OpWhat) (c : Ctx := {}) (m : Cells 8 := []) : State :=
  { mapped { ctxs := #v[c, {}, {}, {}], ops := [flown w] } with mem := tables ++ m }

theorem listed_below {x : Nat} : ∀ {l r : Cells 8}, (∀ e ∈ r, x < e.1) → cget (l ++ r) x = cget l x
  | [], [], _ => rfl
  | [], (k, v) :: t, h => by
    have := h (k, v) (by simp)
    have h2 : k ≠ x := by simp at this; omega
    simp at this
    simp [cget, h2, this]
  | (k, v) :: t, r, h => by
    simp only [List.cons_append, cget, listed_below (l := t) h]

theorem walking_paged (w : OpWhat) (c : Ctx) (m : Cells 8) (h : ∀ e ∈ m, 0x5000 ≤ e.1) : Paged (walking w c m) 0 :=
  ⟨fun _ _ ha => listed_below fun e he => Nat.lt_of_lt_of_le ha (h e he), ⟨_, rfl, rfl, rfl, rfl⟩, ⟨rfl, rfl⟩, .inl rfl⟩

theorem ok_nil {r : Except WErr (List Nat)} (h : (match r with | .ok l => l == [] | .error _ => false) = true) : r = .ok [] := by
  cases r with
  | error e => simp at h
  | ok l => simp at h; rw [h]

/-- A sparse vector of one element, whose bitmaps are at 0 and clear (R194). -/
def sparseBytes : List Byte := leBytes 64 (2 + 10 * 2 ^ 8 + 2 ^ 16 + 2 ^ 64)
def sparseVec : Sparse := ⟨2, 1, [1], 0, [], 0⟩

theorem test_witness_WalkerWordsIssue :
    let c : Cutter := { isOpen := true, bud := 1 }
    let s := work { regs := (((Regs.wf {} 1 { isOpen := true }).wq 2 { isOpen := true }).wk 3 c).wk 1 c }
    (∀ e w lo n, s.OwnAllowed e w lo n)
    ∧ ((∀ k, 25 ≤ k → k < 32 → s.getLoc (.scr s.cur (0 + k)) = 0) ∧ s.getLoc (.scr s.cur 24) = 0 ∧ s.scr64 s.cur 16 = 0)
    ∧ (busy { scr := [(25, 1)] }).getLoc (.scr 0 25) ≠ 0
    ∧ s.src.f[(1 : Fin 8)].isOpen = true ∧ s.src.f[(0 : Fin 8)].isOpen = false
    ∧ s.src.q[(2 : Fin 8)].isOpen = true ∧ s.src.q[(0 : Fin 8)].isOpen = false
    ∧ s.src.k[(3 : Fin 4)].isOpen = true ∧ s.src.k[(3 : Fin 4)].bud ≠ 0 ∧ s.src.k[(0 : Fin 4)].isOpen = false
    ∧ (walking .settled { launchp := 64 } [(0x200074, 9)]).cutbud ≠ 0 ∧ s.me.snap = none
    ∧ (let l : Leaf := { pageLeaf with lcv := 1 }
      let b : State := { walking .settled with vfs := [(0, { pageVf with job := some { pageJob with lts := [(0, l)] } })] }
      let y : Stream := { slen := 2, chunk := 4, isOpen := true }
      0 < min y.chunk.toNat (y.slen.toNat - y.spos.toNat) ∧ ∀ k, k < 2 →
        b.xlate b.me.vf ((y.sbase + y.spos).toNat + k) = some l ∧ lcBound (b.lcOf b.cur l) = some 900) := by
  intro c s
  exact ⟨own s rfl rfl, by decide +kernel, by decide, by decide, by decide, by decide, by decide, by decide, by decide,
    by decide, by decide +kernel, rfl, by decide +kernel⟩

theorem test_witness_WalkersRetire :
    let f : Fibre := { isOpen := true, len := 1, csr := true }
    let s := walking (.fadv 3 1 2 3) { regs := Regs.wf {} 1 f }
    let o := walking (.fopen true 3 1 0 0 0 false)
    let b := walking (.fopen true 3 1 0 (2 ^ 56 - 4) 0 false)
    let r := walking (.fopen true 3 1 0 0 64 true) {} [(0x200040, 1)]
    let q := walking (.snext 1 2) { regs := Regs.wq {} 2 { slen := 4, chunk := 4, isOpen := true } }
    (∃ x, o.WalkerReads (o.ctx 0 0).vf (0 : Word).toNat 8 x) ∧ b.WalkerBreach 0 (2 ^ 56 - 4 : Word).toNat 8 0
    ∧ (∃ x, r.WalkerReads (r.ctx 0 0).vf (64 : Word).toNat 16 x ∧ leVal (x.drop 8) < leVal (x.take 8))
    ∧ (∃ x, o.WalkerReads (o.ctx 0 0).vf (64 : Word).toNat 16 x ∧ leVal (x.take 8) ≤ leVal (x.drop 8))
    ∧ ((s.core 0).op 7 = some (flown (.fadv 3 1 2 3)) ∧ f.pos.toNat < f.len.toNat ∧ f.csr = true
      ∧ (∃ x, s.WalkerReads 0 (f.cbase + 4 * f.pos).toNat 4 x)
      ∧ ∃ x, s.WalkerReads 0 (.ofNat 64 (f.vbase.toNat + f.pos.toNat * 2 ^ (3 : Fin 4).val) : Word).toNat (2 ^ (3 : Fin 4).val) x)
    ∧ CoordinateIs 4 0 2 ∧ (q.core 0).op 7 = some (flown (.snext 1 2)) ∧ (∃ x, q.WalkerReads 0 0 4 x)
    ∧ ∀ (s : State) (w : OpWhat), s.under 0 (flown w).old = s := by
  intro f s o b r q
  have p (w c m) (h : ∀ e ∈ m, 0x5000 ≤ e.1) (va n) (hn : va + n ≤ 2 ^ 21) (h0 : 0 < n) :=
    page_reads (walking_paged w c m h) rfl va n hn h0
  exact ⟨⟨_, p _ _ _ (by simp) _ _ (by decide) (by decide)⟩, ⟨by decide, .inr (by decide +kernel), fun j hj => by omega⟩,
    ⟨_, p _ _ _ (by simp) _ _ (by decide) (by decide), by decide +kernel⟩,
    ⟨_, p _ _ _ (by simp) _ _ (by decide) (by decide), by decide +kernel⟩,
    ⟨rfl, by decide, rfl, ⟨_, p _ _ _ (by simp) _ _ (by decide) (by decide)⟩, ⟨_, p _ _ _ (by simp) _ _ (by decide) (by decide)⟩⟩,
    ⟨by decide, fun _ => by decide, fun h => by omega⟩, rfl, ⟨_, p _ _ _ (by simp) 0 4 (by decide) (by decide)⟩, fun _ _ => rfl⟩

theorem test_witness_SparseTensorsNameTheirNonZeros :
    sparseOf 64 sparseBytes = some sparseVec ∧ (mapped {}).nonZeros 0 sparseVec = .ok [] :=
  ⟨by decide +kernel, ok_nil (by decide +kernel)⟩

theorem test_witness_CuttersCutTheirTiles :
    let y : Cutter := { tdesc := 64, bud := 1, isOpen := true }
    let m : Cells 8 := [(0x200040, 2), (0x200041, 10), (0x200042, 1), (0x200048, 1), (0x200080, 2), (0x200081, 10),
      (0x200082, 1), (0x200088, 3)]
    let c : Ctx := { checks := [(0, 0xD538D200)], regs := (Regs.wk {} 1 y).wk 2 { y with split := true } }
    let s := walking (.cut false 1 1 0) c m
    let t := walking (.cutp false 1 1 2 0) c m
    let p (a : Word) := walking (.cutp false 1 1 2 0) { c with regs := c.regs.wk 2 { y with tdesc := a } } m
    let b := (List.range 64).map fun k => cget s.mem (0x200000 + 64 + k)
    sparseBytes.length = 64 ∧ (s.core 0).op 7 = some (flown (.cut false 1 1 0)) ∧ (t.core 0).op 7 = some (flown (.cutp false 1 1 2 0))
    ∧ s.WalkerReads 0 y.tdesc.toNat 64 b ∧ t.WalkerReads 0 y.tdesc.toNat 64 b ∧ sparseOf y.tdesc.toNat b = some sparseVec
    ∧ s.nonZeros 0 sparseVec = .ok [] ∧ y.bud ≠ 0 ∧ t.nonZeros 0 sparseVec = .ok [] ∧ sparseOf 65 b = none
    ∧ (let bn := (List.range 64).map fun k => cget (p 128).mem (0x200000 + 128 + k)
      ((p 128).ctx 0 0).regs.k[(2 : Fin 4)].tdesc = 128 ∧ (p 128).WalkerReads 0 64 64 b ∧ (p 128).WalkerReads 0 128 64 bn
      ∧ sparseOf 128 bn = some ⟨2, 1, [3], 0, [], 0⟩ ∧ sparseVec.ext0 ≠ (⟨2, 1, [3], 0, [], 0⟩ : Sparse).ext0)
    ∧ (let bn := (List.range 64).map fun k => cget (p 192).mem (0x200000 + 192 + k)
      (p 192).WalkerReads 0 64 64 b ∧ (p 192).WalkerReads 0 192 64 bn ∧ sparseOf 192 bn = none)
    ∧ (t.ctx 0 0).checks.find? (fun y => Code.cls y.2 == 5) = some (0, 0xD538D200)
    ∧ ∀ (s : State) (w : OpWhat), s.under 0 (flown w).old = s := by
  intro y m c s t p b
  exact ⟨by decide, rfl, rfl, page_reads (walking_paged _ _ _ (by decide)) rfl 64 64 (by decide) (by decide),
    page_reads (walking_paged _ _ _ (by decide)) rfl 64 64 (by decide) (by decide), by decide +kernel, ok_nil (by decide +kernel),
    by decide, ok_nil (by decide +kernel), by decide +kernel,
    ⟨by decide, page_reads (walking_paged _ _ _ (by decide)) rfl 64 64 (by decide) (by decide),
      page_reads (walking_paged _ _ _ (by decide)) rfl 128 64 (by decide) (by decide), by decide +kernel, by decide⟩,
    ⟨page_reads (walking_paged _ _ _ (by decide)) rfl 64 64 (by decide) (by decide),
      page_reads (walking_paged _ _ _ (by decide)) rfl 192 64 (by decide) (by decide), by decide +kernel⟩, by decide,
    fun _ _ => rfl⟩

/-! ### System words, barriers, strict mode -/

/-- The page's function with a job of some levels. -/
def jobbed (ls : List Level) (k : Core) : State :=
  { mapped k with vfs := [(0, { pageVf with job := some { pageJob with levels := ls } })] }
def twoLevels : List Level := [⟨1, 2, 3⟩, ⟨2, 1, 4⟩]
def one (c : Ctx) : Core := { ctxs := #v[c, {}, {}, {}] }

theorem test_witness_SystemWordsActOnTheirContext :
    let s := work { ld := 1, regs := Regs.ws (Regs.ws (Regs.ws {} 1 (2 * 2 ^ 60 + 4194303)) 2 (5 * 2 ^ 60)) 4 (4 * 2 ^ 60 + 64) }
    let c : State := { work { regs := Regs.ws {} 3 (3 * 2 ^ 60 + 255 * 2 ^ 32 + 7) } with
      colTab := [(255, ⟨7, 0, 0, 0, [], .posted, none, 0, false⟩)] }
    let m := mapped (one { jcbp := 2048, regs := Regs.ws {} 4 (4 * 2 ^ 60 + 64) })
    let w (v : Word) : State := { mapped (one { jcbp := 2048, regs := Regs.ws {} 1 v }) with rows := [(0, { holds := [(0, .transit 11)] })] }
    let is (v : Word) (kind a : Nat) : Prop := ((w v).rs 1).toNat / 2 ^ 60 = kind ∧ ((w v).rs 1).toNat / 2 ^ 56 % 16 = 0
      ∧ ((w v).rs 1).toNat % 2 ^ 56 = a
    (is 0x2000000000400000 2 (2 ^ 22) ∧ is 0x2000000000000007 2 7 ∧ ¬ (w 0x2000000000000007).HoldsRange 0 8
      ∧ is 0x3000010000000000 3 (2 ^ 40) ∧ is 0x3000000000000001 3 1 ∧ aget (w 0x3000000000000001).colTab 0 = none
      ∧ is 0x4000000000000001 4 1 ∧ (is 0x4000000000200000 4 (2 ^ 21) ∧ (w 0x4000000000200000).leased 0 (2 ^ 21) = false)
      ∧ is 0x4000000000000800 4 2048 ∧ (w 0x4000000000000800).leased 0 2048 = true ∧ 2048 = (w 0x4000000000000800).me.jcbp.toNat
      ∧ ((w 0x0100000000000000).rs 1).toNat / 2 ^ 56 % 16 ≠ 0)
    ∧ ¬ CounterWithin s.me.ld 0 ∧ CounterWithin s.me.ld 31 ∧ ¬ s.Stays ∧ (arrayed {}).Stays
    ∧ WaitObject s (s.rs 1) ∧ WaitObject c (c.rs 3) ∧ WaitObject m (m.rs 4) ∧ s.me.snap = none
    ∧ (s.rs 2).toNat / 2 ^ 60 ∉ [2, 3, 4] ∧ MtsLegal .fpctl (2 ^ 15 - 2 ^ 5 - 2 ^ 7 - 2 ^ 6 - 4) ∧ ¬ MtsLegal .fpctl 5 ∧ ¬ MtsLegal .cycle 0 := by
  intro s c m w is
  refine ⟨⟨by decide +kernel, by decide +kernel, fun h => ?_, by decide +kernel, by decide +kernel, by decide +kernel, by decide +kernel,
      ⟨by decide +kernel, by decide +kernel⟩, by decide +kernel, page_leased (s := w 0x4000000000000800) rfl (by decide +kernel), by decide, by decide +kernel⟩,
    by unfold CounterWithin; decide, .inl rfl, ?_, .inl rfl, ⟨by decide +kernel, .inl ⟨by decide +kernel, by decide +kernel, holds_all _ rfl _ _⟩⟩,
    ⟨by decide +kernel, .inr (.inl ⟨by decide +kernel, by decide +kernel, ⟨7, 0, 0, 0, [], .posted, none, 0, false⟩, by decide +kernel, by decide +kernel⟩)⟩,
    ⟨by decide +kernel, .inr (.inr ⟨by decide +kernel, by decide +kernel, page_leased (s := m) rfl (by decide +kernel), by decide +kernel⟩)⟩, rfl,
    by decide +kernel, by unfold MtsLegal; decide, by unfold MtsLegal; decide, fun h => h⟩
  · exact absurd (h 0 (by omega) (by omega)) (by decide)
  · rintro (h | h)
    · exact absurd h (by decide)
    · exact h rfl

theorem test_witness_TrapsAreTakenAndReturn :
    let h : Regs := { tvec := 4096 }
    let s := having { h with ecause := 0x81 }
    let g : Arr := { owner := some 0 }
    let u : Undo := { ({} : State).takeUndo with arr := g, events := [(1, .groupReady 0 5)] }
    let d := arrayed g { regs := h, undo := some u }
    let c := arrayed {} { regs := h }
    let e := arrayed {} { regs := h, entry := some u, shot := [(0, 4096)] }
    (e.me.undo = none ∧ e.me.entry = some u ∧ e.myCore.arr.owner = some e.cix ∧ ¬ EndsTask e.src .intDiv0 0
      ∧ ∃ x ∈ e.me.shot, Handle.meets allHandle x.1 x.2 = true) ∧
    (d.me.undo = some u ∧ ¬ EndsTask d.src .intDiv0 0 ∧ d.myCore.arr.owner = some d.cix ∧ u.arr.owner = some d.cix
      ∧ isArrayEvent d.cur (.groupReady 0 5) = true ∧ u.cycle < 1) ∧ (having h).me.undo = none ∧ (having h).me.entry = none
    ∧ (having h).me.snap = none ∧ EndsTask ({} : Regs) .intDiv0 0 ∧ ¬ EndsTask h .intDiv0 0 ∧ EndsTask h .leaseBreach 0
    ∧ EndsTask h .phaseEscape (3 * 2 ^ 32) ∧ s.src.ecause.getLsbD 7 = true ∧ (having h).src.ecause.getLsbD 7 = false
    ∧ c.Captured (1, .groupReady 0 5) ∧ ¬ c.Captured (0, .groupReady 0 5)
    ∧ ({ back := some (64, some 128) } : Ctx).back = some (64, some 128) := by
  intro h s g u d c e
  have goes : ¬ EndsTask h .intDiv0 0 := by
    rintro (x | x | x | ⟨x, -⟩)
    · exact absurd x (by decide)
    · exact absurd x (by decide)
    · cases x
    · cases x
  exact ⟨⟨rfl, rfl, rfl, goes, (0, 4096), by decide, by decide +kernel⟩, ⟨rfl, goes, rfl, rfl, rfl, by decide⟩, rfl, rfl, rfl, .inr (.inl rfl), goes, .inr (.inr (.inl rfl)), .inr (.inr (.inr ⟨rfl, by decide⟩)), by decide, by decide,
    ⟨rfl, by decide, rfl⟩, fun x => absurd x.2.1 (by decide), rfl⟩

theorem arrives (ls : List Level) (k : Core) (c : Ctx) (hk : k.ctxs = #v[c, {}, {}, {}]) (h : c.spwn = false) (hv : c.vf = 0)
    (hl : ls = twoLevels) (b : List Barrier) : ArrivesAt { jobbed ls k with bars := b } .row 0 0 := by
  subst hl
  have e : ({ jobbed twoLevels k with bars := b } : State).me = c := by
    simp [State.me, State.ctx, State.core, jobbed, mapped, aget, hk]
  have el : ({ jobbed twoLevels k with bars := b } : State).levels 0 = twoLevels := rfl
  refine ⟨by rw [e, hv, el]; rfl, by omega, by rw [e]; exact h, ?_⟩
  simp only [e, hv, el]
  exact ⟨3, ⟨1, 2, 3⟩, rfl, rfl, rfl, fun j m hj => by omega⟩

def barOf (who : List Nat) : Barrier := { key := ⟨0, 0, 0⟩, count := 2, who, tgt := 0 }

theorem test_witness_BarriersCountArrivals :
    let s (c : Ctx) (w : List Nat) : State := { jobbed twoLevels (one c) with bars := [barOf w] }
    let f (w : List Nat) := s { bara := [⟨4, 0, 5⟩] } w
    let g (w : List Nat) := s { wait := .arrival .row true false, checks := [(0, 0xE0640000)] } w
    let p (v : Vf) (b : List Barrier) : State :=
      { mapped {} with bars := b, vfs := [(0, { v with job := some { pageJob with levels := [⟨1, 2, 0⟩, ⟨2, 1, 4⟩] } })] }
    let e (n : Nat) : State := { jobbed twoLevels { one { wait := .arrival .row true false, bara := [⟨9 - n, 0, 5⟩]
                                                          entry := some { ({} : State).takeUndo with first := n } } with
      ops := [flown (.elements 4)] } with bars := [barOf [1]] }
    (∃ o ∈ (e 8).myCore.ops, o.ctx = 0 ∧ (∀ u, (e 8).me.entry = some u → o.id < u.first) ∧ ∃ tag, o.what = .elements tag)
    ∧ (¬ ∃ o ∈ (e 7).myCore.ops, o.ctx = 0 ∧ ∀ u, (e 7).me.entry = some u → o.id < u.first)
    ∧ (∃ o ∈ (e 1).myCore.ops, o.ctx = 0 ∧ o.id < 8 ∧ (e 1).me.bara = [⟨8, 0, 5⟩] ∧ ∃ tag, o.what = .elements tag)
    ∧ ArrivesAt (s {} []) .row 0 0 ∧ (s {} []).me.logical ∉ ((s {} []).pathBar 0).who
    ∧ (∀ p, ((s {} []).row (rowOf (s {} []).cur)).phase = some p → p.vf ≠ (s {} []).me.vf)
    ∧ (s {} [0]).me.logical ∈ ((s {} [0]).pathBar 0).who ∧ ((s {} [0]).pathBar 0).tgt = 0 ∧ (s {} [0]).me.snap = none
    ∧ (∀ tgt par, ¬ ArrivesAt (mapped (one {})) .row tgt par)
    ∧ ((f []).me.bara = [⟨4, 0, 5⟩] ∧ 0 + 2 = ((f []).levels 0).length) ∧ ¬ RefusesArrival (f [1]) 0 0 false
    ∧ ((f [1]).pathBar 0).Completes ∧ ¬ ((f []).pathBar 0).Completes ∧ RefusesArrival (f [0]) 0 0 false
    ∧ ArrivesAt (g [1]) .row 0 0 ∧ (g [1]).me.wait = .arrival .row true false
    ∧ ((g [1]).me.checks = [(0, 0xE0640000)] ∧ Code.cls 0xE0640000 = 6)
    ∧ (∀ o ∈ (g [1]).myCore.ops, ∀ tag, o.what ≠ .elements tag)
    ∧ SpikeFits (p pageVf []) (.arrive 0 0 0 0 false) ∧ SpikeFits (p { pageVf with pkgs := [1] } [barOf [0]]) (.flip 0 0 0)
    ∧ RefusesArrival (g [1]) 0 0 true
    ∧ ¬ RefusesArrival (g []) 0 0 true ∧ (∀ r, ((g []).row r).phase = none) := by
  intro s f g p e
  refine ⟨⟨flown (.elements 4), by decide, rfl, fun u h => (by cases h; decide), 4, rfl⟩, ?_,
    ⟨flown (.elements 4), by decide, rfl, by decide, rfl, 4, rfl⟩, arrives _ _ _ rfl rfl rfl rfl _, by decide +kernel, fun p h => (by cases h), by decide +kernel, by decide +kernel, rfl, ?_,
    ⟨rfl, by decide⟩, ?_, by unfold Barrier.Completes; decide +kernel, by unfold Barrier.Completes; decide +kernel, .inl (by decide +kernel), arrives _ _ _ rfl rfl rfl rfl _, rfl,
    ⟨rfl, by decide⟩, fun o ho => (by cases ho), ⟨by decide, by decide +kernel, by decide, by decide, by decide +kernel, by decide +kernel,
      by unfold Barrier.Completes; decide +kernel⟩, ⟨by decide, by decide +kernel, by decide +kernel⟩, ?_, ?_, fun r => rfl⟩
  · rintro ⟨o, ho, -, h⟩
    have : o = flown (.elements 4) := List.mem_singleton.1 ho
    have := h _ rfl
    subst o; exact absurd this (by decide)
  · intro tgt par h
    have := h.parent
    rw [show (mapped (one {})).levels (mapped (one {})).me.vf = [⟨1, 1, 4⟩] from rfl] at this
    simp at this
  · rintro (h | ⟨l, -, h1, -, h3⟩)
    · revert h; decide +kernel
    · obtain rfl : l = 0 := by omega
      exact h3 (by decide +kernel)
  · refine .inr ⟨0, by omega, by omega, by decide +kernel, by decide +kernel⟩
  · rintro (h | ⟨l, -, h1, h2, -⟩)
    · revert h; decide +kernel
    · obtain rfl : l = 0 := by omega
      exact h2 (by decide +kernel)

theorem test_witness_SkewersCarryOperands :
    let p : TransferPhase := ⟨0, 0, [0]⟩
    let s (w : Wait) : State := { work { task := true, wait := w } with rows := [(0, { phase := some p })], cycle := 5 }
    (s .none).PhaseContext p ∧ (s .none).cycle - p.start ≤ (5 : BitVec 21).toNat ∧ (4 : BitVec 21).toNat < (s .none).cycle - p.start
    ∧ (let l : State := { s .none with cores := [(0, { ctxs := #v[{ task := true, sb := [(.t 1, none)] }, {}, {}, {}] })] }
      l.PhaseContext p ∧ (5 : BitVec 21).toNat = l.cycle - p.start ∧ l.me.locked l.cycle (.t 1) = true)
    ∧ (s .none).me.locked (s .none).cycle (.t 1) = false
    ∧ (s .none).me.snap = none ∧ (∀ p, ¬ (work {}).PhaseContext p)
    ∧ (s (.transfer false true (.t 1) 5)).me.wait = .transfer false true (.t 1) 5
    ∧ (s (.transfer true true (.v 1) 4)).me.wait = .transfer true true (.v 1) 4 := by
  intro p s
  refine ⟨⟨by decide, by decide, by decide, by decide, by decide⟩, by decide, by decide, ⟨⟨by decide, by decide, by decide, by decide, by decide⟩, by decide, by decide⟩, by decide, rfl, ?_, rfl, rfl⟩
  rintro p ⟨h, -⟩; cases h

/-- An entry for the matrix engine's writes to bytes from start (R176). -/
def entry (eng start len : Nat) (wr : Bool) : Word :=
  BitVec.ofNat 64 (start + len * 2 ^ 32 + 15 * 2 ^ 25 + (if wr then 2 ^ 29 else 0) + eng * 2 ^ 61)

theorem test_witness_PhasesAndDigestsAreDeclared :
    let b (es : List Nat) : Cells 8 := csetN [] 0 ((es.length :: es).flatMap (leBytes 8))
    let s (es : List Word) (ld : Nat) (st : Bool) : State :=
      busy { ctxs := #v[{ strict := st, ld }, {}, {}, {}], scr := b (es.map (·.toNat)) }
    ((s [] 0 false).me.strict = false ∧ (s [] 0 false).me.snap = none) ∧ BlockHolds (s [] 0 true) 0 [] ∧ (s [] 0 true).me.strict = true
    ∧ NotCrowded [] ∧ (∀ i j, ¬ (s [] 0 true).FirstPair [] i j) ∧ (s [] 1 true).me.ld ≠ 0
    ∧ BlockHolds (s [1] 0 true) 0 [1] ∧ ¬ EntryLegal 1 := by
  intro b s
  refine ⟨⟨rfl, rfl⟩, ⟨by decide +kernel, ⟨by decide, holds_all _ rfl _ _⟩, fun k hk => by simp at hk⟩, rfl, fun _ _ => by simp, ?_,
    by decide, ⟨by decide +kernel, ⟨by decide, holds_all _ rfl _ _⟩, fun k hk => ?_⟩, ?_⟩
  · rintro i j ⟨-, ⟨⟨_, a, b, h, -⟩, -⟩ | ⟨-, ⟨a, b, h, -⟩, -⟩⟩ <;> simp at h
  · obtain rfl : k = 0 := by simp at hk; omega
    decide +kernel
  · intro h
    have := h.range.1
    revert this; decide +kernel

/-- A nest of one loop of 2 trips (R380). -/
def nestBlock : Block64 := BitVec.ofNat 512 (1 + 2 * 2 ^ 128)
/-- A nest filtered by the output descriptor of o1, of which no element is left out. -/
def outBlock : Block64 :=
  BitVec.ofNat 512 (2 + 2 ^ 16 + 2 ^ 17 + 2 ^ 28 + 2 ^ 40 + 2 ^ 128 + 2 ^ 160 + 2 ^ 320 + 2 ^ 352)

theorem test_witness_NestsYieldTheirTiles :
    let s (b : Block64) (r : Regs) (q : Option SeqSt) : State :=
      jobbed twoLevels { ctxs := #v[{ strict := true, regs := r, seq := q }, {}, {}, {}], scr := csetN [] 0 (toLe b) }
    let q : SeqSt := ⟨0, 0, 2, nestBlock, 0⟩
    let i := s nestBlock {} none
    let o := s outBlock (Regs.wo {} 1 (symDesc 10)) none
    let n := s outBlock {} none
    let d (s : State) : Block64 := .ofNat 512 (leVal (s.scrBytes s.cur 0 64))
    i.me.strict = true ∧ i.HoldsRange 0 64 ∧ DeclLegal (i.levels i.me.vf).length (d i) ∧ (d i).getLsbD 16 = false
    ∧ (tilesOf (d i) 0).length < 2 ^ 63 ∧ i.me.spwn = false ∧ i.me.snap = none
    ∧ DeclLegal 2 (d o) ∧ (d o).getLsbD 16 = true ∧ (descOf (o.src.o[(1 : Fin 8)])).rank ≠ 0 ∧ OutputLegal o.src.o[(1 : Fin 8)]
    ∧ (descOf (n.src.o[(1 : Fin 8)])).rank = 0
    ∧ (s 0 {} (some q)).me.seq = some q ∧ DeclLegal 2 q.decl ∧ (1 : Fin 32).val + blk q.decl 0 8 ≤ 32 ∧ q.pos < q.fin
    ∧ (tilesOf q.decl q.odesc)[q.pos]? = some [(0, 0)] ∧ i.me.seq = none ∧ ¬ DeclLegal 2 0 := by
  intro s q i o n d
  have legal (b : Block64) (h : (1 ≤ blk b 0 8 ∧ blk b 0 8 ≤ 6) ∧ blk b 8 8 < 2 ∧ (blk b 20 4 = 0 ∧ blk b 80 48 = 0 ∧ blk b 384 128 = 0)
      ∧ (if b.getLsbD 16 = true then blk b 27 1 = 0 ∧ blk b 31 1 = 0 ∧ blk b 24 3 < blk b 0 8 ∧ blk b 28 3 < blk b 0 8
          ∧ 1 ≤ blk b 320 32 ∧ 1 ≤ blk b 352 32 else blk b 24 8 = 0 ∧ blk b 320 64 = 0)
      ∧ (∀ j, j < blk b 0 8 → ∃ p, p < blk b 0 8 ∧ blk b (32 + 8 * p) 8 = j)
      ∧ ∀ p, p < 6 → blk b 0 8 ≤ p → blk b (32 + 8 * p) 8 = 0 ∧ blk b (128 + 32 * p) 32 = 0) : DeclLegal 2 b :=
    ⟨h.1, h.2.1, h.2.2.1, h.2.2.2.1, h.2.2.2.2.1, h.2.2.2.2.2⟩
  refine ⟨rfl, holds_all _ rfl _ _, legal _ (by decide +kernel), by decide +kernel, by decide +kernel, rfl, rfl, legal _ (by decide +kernel), by decide +kernel,
    by decide +kernel, .inr ⟨⟨0, false, [0, 1]⟩, by decide +kernel, rfl, .inl rfl⟩, by decide +kernel, rfl, legal _ (by decide +kernel), by decide +kernel, by decide, by decide +kernel, rfl, ?_⟩
  intro h
  exact absurd h.loops.1 (by decide +kernel)

theorem test_witness_JobsGrowAndTasksEnd :
    let r : Regs := Regs.ws (Regs.ws (Regs.ws {} 1 2048) 2 1) 3 4096
    let s := mapped (one { regs := r })
    let e (j a : Word) (k : Option Word) (p : Word) : State := mapped (one { raise := some (j, a, k), jcbp := p })
    let bare (k : Core) : State := { cores := [(0, k)], vfs := [(0, { pageVf with job := some { pageJob with lts := [] } })] }
    let o := bare (one { raise := some (2048, 1, none), jcbp := 2048, old := [(0, pageLeaf)] })
    let z (w : Option (BitVec 8)) (c : Ctx) (a : Arr) : State := { mapped { (one { c with task := true, jcbp := 2048, wait := .exiting w }) with
      arr := a } with todo := [0] }
    (s.vplace 0 2048 ≠ none ∧ s.vplace 0 s.me.jcbp.toNat ≠ none ∧ (bare (one {})).leased 0 2048 = true ∧ (bare (one {})).vplace 0 2048 = none)
    ∧ (o.me.raise = some (2048, 1, none) ∧ (o.under 0 o.me.old).LiesAt 0 2048 8 0x200800)
    ∧ (∀ w c a, c = {} ∨ c = { ({} : Ctx) with ld := 1 } → ((∀ x ∈ (z w c a).agenda, (z w c a).cycle < x.1) ∧ (z w c a).todo = 0 :: []
      ∧ (z w c a).releaseMove 0 = none ∧ ((z w c a).ctx 0 0).task = true ∧ ((z w c a).ctx 0 0).frozen = false
      ∧ ((z w c a).ctx 0 0).wait = .exiting w ∧ ((z w c a).core 0).arr = a))
    ∧ (∀ w, w = none ∨ w = some 7 → CanEnd (z w {} {}) 0 0 w ∧ (z w {} {}).vf 0 = some pageVf ∧ pageVf.job = some pageJob ∧ (z w {} {}).canon = true
      ∧ ((z w {} {}).under 0 ((z w {} {}).ctx 0 0).old).LiesAt 0 2048 64 0x200800
      ∧ ((z w {} {}).under 0 ((z w {} {}).ctx 0 0).old).TablesApart 0 (fun a => 0x200800 ≤ a ∧ a < 0x200800 + 64))
    ∧ (¬ CanEnd (z none { ld := 1 } {}) 0 0 none)
    ∧ ((s.rs 1).toNat % 64 = 0 ∧ (s.rs 2).toNat < 2 ^ 32 ∧ (s.rs 1).toNat < 2 ^ 56 ∧ s.leased s.me.vf (s.rs 1).toNat = true)
    ∧ ((s.rs 3).toNat % 64 = 0 ∧ s.leasedW s.me.vf (s.rs 3).toNat = true
      ∧ (leVal ((s.vread s.me.vf ((s.rs 3).toNat + 32) 4).getD [])).testBit 2 = false ∧ ¬ s.Outstanding .row)
    ∧ s.me.snap = none ∧ (s.rs 2).toNat % 64 ≠ 0 ∧ s.canon = true
    ∧ (e 2048 1 none 2048).me.raise = some (2048, 1, none) ∧ ((e 2048 1 none 2048).vread64 0 2064).getLsbD 0 = false
    ∧ ((e 2048 1 none 2048).vread64 0 2048).toNat + (1 : Word).toNat < 2 ^ 64 ∧ (e 2048 1 none 2048).LiesAt 0 2048 8 0x200800
    ∧ (2048 : Word) ≠ (e 2048 1 none 0).me.jcbp
    ∧ (e 2048 1 (some 4096) 2048).LiesAt 0 4096 64 0x201000 ∧ 0x200800 + 8 ≤ 0x201000
    ∧ (e 2048 1 (some 4096) 2048).TablesApart 0 (fun a => 0x200800 ≤ a ∧ a < 0x200808 ∨ 0x201000 ≤ a ∧ a < 0x201040) := by
  intro r s e bare o z
  have zp (w : Option (BitVec 8)) : Paged ((z w {} {}).under 0 ((z w {} {}).ctx 0 0).old) 0 :=
    ⟨fun _ _ _ => rfl, ⟨_, rfl, rfl, rfl, rfl⟩, ⟨rfl, rfl⟩, .inl rfl⟩
  refine ⟨⟨by decide +kernel, by decide +kernel, by decide +kernel, by decide +kernel⟩, ⟨rfl, by unfold State.LiesAt; decide +kernel⟩,
    fun w c a h => ⟨fun x hx => (by cases hx), rfl, rfl, rfl, by rcases h with rfl | rfl <;> rfl, rfl, rfl⟩,
    fun w hw => ⟨⟨⟨rfl, rfl, rfl, rfl⟩, ⟨fun x hx => (by cases hx), rfl, fun f hf => (by cases hf), fun e he => (by cases he)⟩,
        fun h => (by cases h), fun _ e he => (by cases he), fun _ => by rcases hw with rfl | rfl <;> decide +kernel⟩, rfl, rfl,
      by rcases hw with rfl | rfl <;> decide +kernel,
      page_lies (zp w) _ _ (by decide) (by decide), tables_apart (zp w) _ fun a ha => by omega⟩,
    fun h => absurd h.counters.1 (by decide), ?_⟩
  refine ⟨⟨by decide, by decide, by decide, page_leased (s := s) rfl (by decide)⟩, ⟨by decide, by decide +kernel, by decide +kernel, idle_outstanding _ rfl rfl _⟩,
    rfl, by decide, by decide +kernel, rfl, by decide +kernel, by decide +kernel, page_lies (mapped_paged _) _ _ (by decide) (by decide), by decide,
    page_lies (mapped_paged _) _ _ (by decide) (by decide), by decide, tables_apart (mapped_paged _) _ fun a ha => by omega⟩

/-! ### Tasks that leave and enter contexts -/

theorem get_above {x : Nat} : ∀ {l : Cells 8}, (∀ e ∈ l, e.1 < x) → cget l x = 0
  | [], _ => rfl
  | (k, v) :: t, h => by
    have h1 := h (k, v) (by simp)
    have h2 : k ≠ x := by simp at h1; omega
    have h3 : ¬ x < k := by simp at h1; omega
    simp only [cget, h2, h3, if_false]
    exact get_above fun e he => h e (by simp [he])

theorem zeros_above {c : Cells 8} {a : Nat} (h : ∀ e ∈ c, e.1 < a) : ∀ n k, a ≤ k → cgetN c k n = List.replicate n 0
  | 0, _, _ => rfl
  | n + 1, k, hk => by
    rw [cgetN, get_above fun e he => Nat.lt_of_lt_of_le (h e he) hk, zeros_above h n (k + 1) (by omega)]; rfl

/-- A suspended task's context, its record at 0x1000 and its save area at 0x10000. -/
def saved : Ctx := { savep := 0x10000, recp := 0x1000, pincore := 5 }
def noMasks : Masks := ⟨0, 0, 0⟩
def savedBytes (pin : Bool) : Cells 8 :=
  csetN (csetN [] 0x201000 (Ctx.recordBytes { saved with pin } 0 false noMasks 0 0x10000)) 0x210140 (sysImage saved.regs)
def savedEnt : PassEnt := ⟨0x1000, 0, 0, false, 0, none, 0⟩
/-- Core 0 has a function, and its row's pass has the task's record. -/
def resting (i : Ctx) (rel : List Released := []) (pin : Bool := false) : State :=
  { mapped { ctxs := #v[i, {}, {}, {}], vf := some 0, released := rel } with
    mem := tables ++ savedBytes pin, rows := [(0, { pass := [savedEnt] })] }

theorem resting_paged (i : Ctx) (rel pin) : Paged (resting i rel pin) 0 :=
  ⟨fun _ _ ha => listed_below fun e he => Nat.lt_of_lt_of_le ha
      ((by decide +kernel : ∀ pin, ∀ e ∈ savedBytes pin, 0x5000 ≤ e.1) pin e he),
    ⟨_, rfl, rfl, rfl, rfl⟩, ⟨rfl, rfl⟩, .inl rfl⟩

theorem resting_lies (i rel pin) (va n : Nat) : va + n ≤ 2 ^ 21 → 0 < n → (resting i rel pin).LiesAt 0 va n (0x200000 + va) :=
  page_lies (resting_paged i rel pin) va n

theorem resting_resumable (pin : Bool) :
    Resumable (resting {} [] pin) 0x210000 0x201000 savedEnt { saved with pin } 0 false noMasks 0 := by
  refine ⟨⟨resting_lies _ _ _ 0x10000 0xC800 (by decide) (by decide), (by decide : saved.savep.toNat + 0xC800 ≤ 2 ^ 56)⟩,
    ⟨resting_lies _ _ _ 0x1000 64 (by decide) (by decide), by decide⟩,
    fun n => ⟨fun h => page_leased (s := resting {} [] pin) rfl ?_, fun h => page_leased (s := resting {} [] pin) rfl ?_⟩, ?_, ?_, ?_, ?_, ?_⟩
  · have : savedEnt.recp.toNat = 0x1000 := rfl
    omega
  · have : saved.savep.toNat = 0x10000 := rfl
    show saved.savep.toNat + n < _
    omega
  · cases pin <;> decide +kernel
  · have : ∀ x ∈ places39, x.saved (noMasks.named false) = false := by decide +kernel
    intro x hx h; rw [this x hx] at h; cases h
  · cases pin <;> exact ⟨by decide +kernel, by decide +kernel⟩
  · exact zeros_above (a := 0x21A800) (by cases pin <;> decide +kernel) 8192 _ (by decide)
  · exact ⟨(by decide : 0 % 8 < 1), by decide, (by decide : saved.pincore < 2 ^ 9), by decide, by decide, by decide⟩

theorem test_witness_TasksSuspendAndResume :
    let s := resting { saved with wait := .suspend 0 }
    let g := resting {}
    let b := arrayed {} { wait := .suspend 0, bara := [⟨4, 0, 5⟩] }
    let l := resting { saved with wait := .suspend 0, landBar := [3] }
    ((l.ctx 0 0).wait = .suspend 0 ∧ ¬ l.StaysAt 0 0 ∧ (l.ctx 0 0).ld = 0 ∧ Settled l 0 0 ∧ (l.ctx 0 0).landBar ≠ [])
    ∧ (s.ctx 0 0).landBar = [] ∧ (b.StaysAt 0 0 ∧ (b.ctx 0 0).bara ≠ []) ∧ (arrayed {}).StaysAt 0 0 ∧ ((arrayed {}).ctx 0 0).bara = []
    ∧ (s.ctx 0 0).wait = .suspend 0 ∧ ¬ s.StaysAt 0 0 ∧ Settled s 0 0 ∧ s.canon = true
    ∧ SavesTo s (s.ctx 0 0) 0x210000 0x201000
    ∧ ((g.row (0 / 12)).pass = [] ++ savedEnt :: [] ∧ MayTake g 0 0 savedEnt
      ∧ (∀ x, ¬ (MayTake g 0 0 x ∧ x.since + 65536 ≤ g.cycle)) ∧ ∀ x, MayTake g 0 0 x → x = savedEnt)
    ∧ Resumable g 0x210000 0x201000 savedEnt saved 0 false noMasks 0 ∧ g.MayRunOn savedEnt saved 0 0
    ∧ Resumable (resting {} [] true) 0x210000 0x201000 savedEnt { saved with pin := true } 0 false noMasks 0
    ∧ ¬ (resting {} [] true).MayRunOn savedEnt { saved with pin := true } 0 0 := by
  intro s g b l
  have only : ∀ x, MayTake g 0 0 x → x = savedEnt := fun x h => by simpa [g, resting, State.row, aget] using h.1
  have stay : ¬ s.StaysAt 0 0 := by
    rintro (h | h)
    · exact absurd h (by decide)
    · exact h rfl
  refine ⟨⟨rfl, fun h => h.elim (fun h => absurd h (by decide)) fun h => h rfl, rfl,
      ⟨fun x hx => (by cases hx), rfl, fun f hf => (by cases hf), fun e he => (by cases he)⟩, by decide⟩, rfl,
    ⟨.inl rfl, by decide⟩, .inl rfl, rfl, rfl, stay,
    ⟨fun x hx => (by cases hx), rfl, fun f hf => (by cases hf), fun e he => (by cases he)⟩, by decide +kernel,
    ⟨resting_lies _ _ _ 0x10000 0xC800 (by decide) (by decide), resting_lies _ _ _ 0x1000 64 (by decide) (by decide), .inr (by decide),
      tables_apart (resting_paged _ _ _) _ fun a ha => by omega⟩,
    ⟨rfl, ⟨by decide, rfl, by decide, rfl, ?_, .inl rfl⟩, ?_, only⟩, resting_resumable false, .inr (.inl ⟨rfl, rfl⟩),
    resting_resumable true, ?_⟩
  · intro v hv
    have : g.vf savedEnt.vf = some pageVf := rfl
    rw [this] at hv; cases hv; rfl
  · rintro x ⟨hx, h⟩
    rw [only x hx] at h; exact absurd h (by decide)
  · rintro (⟨v, j, hv, hj, h⟩ | ⟨-, h⟩ | h)
    · have : (resting {} [] true).vf savedEnt.vf = some pageVf := rfl
      rw [this] at hv; cases hv
      have : pageVf.job = some pageJob := rfl
      rw [this] at hj; cases hj; cases h
    · cases h
    · exact absurd h (by decide)

theorem test_witness_TasksSuspendAndResume_pass :
    let f : State := { cycle := 65536, cores := [(0, { vf := some 0 })], rows := [(0, { pass := List.replicate 256 savedEnt })] }
    let r : State := { dies := [(0, { spilled := [(0, savedEnt)] })] }
    ((f.row 0).pass = [] ++ savedEnt :: List.replicate 255 savedEnt ∧ 256 ≤ (f.row 0).pass.length
      ∧ SpillsFrom [] savedEnt (List.replicate 255 savedEnt))
    ∧ MayTake f 0 0 savedEnt ∧ savedEnt.since + 65536 ≤ f.cycle
    ∧ (r.die (0 / 8)).spilled = [] ++ (0, savedEnt) :: [] ∧ (r.row 0).pass.length < 128
    ∧ (places39.any fun x => x.saved Masks.all) = true := by
  intro f r
  exact ⟨⟨by decide +kernel, by decide +kernel, fun x h => (by cases h), fun x h => by
    rw [List.eq_of_mem_replicate h]; unfold PassEnt.SpillsBefore; decide⟩, ⟨List.mem_replicate.2 ⟨by decide, rfl⟩, rfl, by decide, rfl, fun v hv => (by cases hv), .inl rfl⟩,
    by decide, rfl, by decide, by decide +kernel⟩

theorem test_witness_PreemptionStopsContexts :
    let c : Ctx := { saved with task := true, preq := true, regs := { safebnd := 1 } }
    let s : State := { resting c with cycle := 5000 }
    let h := arrayed {} { c with safeDue := true }
    let p := resting { saved with wait := .saving }
    let r : Released := ⟨savedEnt, 0, none, [3]⟩
    let far := flown (.fullEmpty true true 1 8 0 5 .sent)
    let v : Undo := { ({} : State).takeUndo with first := 7 }
    let x : Ctx := { c with entry := some v, safeDue := true }
    let q : State := { busy { ctxs := #v[{ x with wait := .reply, park := some ⟨.fullEmpty true true 1 1, 0⟩ }, {}, {}, {}], ops := [far] }
      with cycle := 5000 }
    let n : State := { busy { ctxs := #v[{ x with wait := .counters 0 0 0 0 }, {}, {}, {}], ops := [far] } with cycle := 5000 }
    let o (c : Ctx) (g : Option Nat) : State := { arrayed {} { c with wait := .counters 0 0 0 0, entry := g.map fun k =>
      { v with arr := { owner := some 0 }, cycle := k } } with cycle := 5000 }
    let l (c : Ctx) : State := { arrayed {} { c with last := some v } with cycle := 5000 }
    let w (k : Wait) : State := resting { saved with wait := k, landBar := [3] }
    (Unexecuted q 0 0 v ∧ Unexecuted n 0 0 v ∧ (q.core 0).arr.owner ≠ some 0 ∧ v.phase = none
      ∧ (q.ctx 0 0).regs.safebnd.toNat ≠ 2 ^ 32 - 1 ∧ (q.ctx 0 0).regs.safebnd.toNat < q.cycle - (q.ctx 0 0).safeAt
      ∧ (q.ctx 0 0).safeDue = true ∧ (q.ctx 0 0).delay = none)
    ∧ (∃ u, Unexecuted (o x (some 9)) 0 0 u ∧ ((o x (some 9)).core 0).arr.owner = some 0 ∧ u.arr.owner = some 0)
    ∧ (ActsOn (l x) 0 0 ∧ ((l x).ctx 0 0).last = some v ∧ (l x).StaysAt 0 0 ∧ ((l x).core 0).arr.shadow = none
      ∧ ((l x).ctx 0 0).regs.safebnd.toNat < (l x).cycle - ((l x).ctx 0 0).safeAt)
    ∧ (((w .saving).ctx 0 0).wait = .saving ∧ Settled (w .saving) 0 0 ∧ ((w .saving).ctx 0 0).landBar ≠ []) ∧
    (s.ctx 0 0).task = true ∧ (s.ctx 0 0).aged = false ∧ (h.ctx 0 0).last = none ∧ (s.ctx 0 0).lastIssue + 4096 ≤ s.cycle ∧ ActsOn s 0 0 ∧ ¬ s.StaysAt 0 0
    ∧ ((s.ctx 0 0).regs.safebnd.toNat ≠ 2 ^ 32 - 1 ∧ (s.ctx 0 0).regs.safebnd.toNat < s.cycle - (s.ctx 0 0).safeAt)
    ∧ ActsOn h 0 0 ∧ (h.ctx 0 0).safeDue = true ∧ (h.ctx 0 0).delay = none ∧ h.StaysAt 0 0 ∧ (h.core 0).arr.shadow = none
    ∧ (p.ctx 0 0).wait = .saving ∧ Settled p 0 0 ∧ (p.ctx 0 0).landBar = [] ∧ p.canon = true ∧ SavesTo p (p.ctx 0 0) 0x210000 0x201000
    ∧ ((resting {} [r]).core 0).released = [] ++ r :: [] ∧ (∀ n ∈ r.ops, ∀ o ∈ ((resting {} [r]).core 0).ops, o.id ≠ n) := by
  intro c s h p r far v x q n o l w
  have noPhase : ∀ t : State, t.rows = [] → ∀ p, (t.row (0 / 12)).phase = some p → ¬ (t.ctx 0 0).InPhase p := by
    intro t ht p hp; simp [State.row, ht, aget] at hp
  have stays : ∀ t : State, (t.core 0).arr.owner = none → (t.ctx 0 0).phase = none → ¬ t.StaysAt 0 0 := by
    rintro t h1 h2 (h | h)
    · rw [h1] at h; cases h
    · exact h h2
  have settled : ∀ t : State, (t.ctx 0 0).sb = [] → (t.ctx 0 0).bara = [] → (t.ctx 0 0).fences = [] → t.agenda = [] → Settled t 0 0 :=
    fun t h1 h2 h3 h4 => ⟨fun x hx => (by rw [h1] at hx; cases hx), h2, fun f hf => (by rw [h3] at hf; cases hf), fun e he => (by rw [h4] at he; cases he)⟩
  refine ⟨⟨⟨⟨⟨rfl, rfl, rfl⟩, rfl, noPhase _ rfl⟩, .inr ⟨rfl, _, _, _, _, _, rfl, rfl⟩, rfl⟩,
      ⟨⟨⟨rfl, rfl, rfl⟩, rfl, noPhase _ rfl⟩, .inl ⟨_, _, _, _, rfl⟩, rfl⟩, by decide, rfl, by decide, by decide, rfl, rfl⟩,
    ⟨_, ⟨⟨⟨rfl, rfl, rfl⟩, rfl, noPhase _ rfl⟩, .inl ⟨_, _, _, _, rfl⟩, rfl⟩, rfl, rfl⟩,
    ⟨⟨⟨⟨rfl, rfl, rfl⟩, rfl, noPhase _ rfl⟩, rfl⟩, rfl, .inl rfl, rfl, by decide⟩,
    ⟨rfl, settled _ rfl rfl rfl rfl, by decide⟩,
    rfl, rfl, rfl, by decide, ⟨⟨⟨rfl, rfl, rfl⟩, rfl, fun p hp => (by cases hp)⟩, rfl⟩, stays _ rfl rfl, ⟨by decide, by decide⟩,
    ⟨⟨⟨rfl, rfl, rfl⟩, rfl, fun p hp => (by cases hp)⟩, rfl⟩, rfl, rfl, .inl rfl, rfl, rfl,
    settled _ rfl rfl rfl rfl, rfl, by decide +kernel,
    ⟨resting_lies _ _ _ 0x10000 0xC800 (by decide) (by decide), resting_lies _ _ _ 0x1000 64 (by decide) (by decide), .inr (by decide),
      tables_apart (resting_paged _ _ _) _ fun a ha => by omega⟩, rfl, fun n _ o ho => (by cases ho)⟩

/-! ### The host, launches, collectives -/

/-- A start vector at 0, its launch record at 0x100, its lease table at 0x200, a bundle at 0x300, the JCB at 0x800 (R47,
R49, R53, R56, R157). -/
def launchBytes : Cells 8 :=
  csetN (csetN (csetN (csetN [] 0x200000 (leBytes 64 (0x100 + 2 ^ 64 + 0x300 * 2 ^ 128)))
    0x200100 (leBytes 256 (1 + 2 ^ 32 + 2 ^ 48 + 0x800 * 2 ^ 64 + 0x200 * 2 ^ 128 + 2 ^ 192 + (2 ^ 8 + 8 + 4) * 2 ^ 512)))
    0x200200 (leBytes 32 (4096 * 2 ^ 64 + 3 * 2 ^ 128))) 0x200300 (leBytes 4 (2 ^ 31))
def launchVf : Vf := { pageVf with job := none, lstat := 0xFF }
/-- A function whose launch is being checked. -/
def launching (v : Vf) : State := { mem := tables ++ launchBytes, vfs := [(0, v)] }

def findsLaunch (s : State) (v : Vf) : Bool := match s.launchCheck 0 v with
  | .inr (t, l) => l.place == [0] && l.head.jcb == 0x800 && l.lts == [(0, pageLeaf)] && decide (t.mem = s.mem)
      && l.vec.length == 1 && l.recs.length == 1 && taskSpots l.head.ls l.place == [(0, 0)] && units l.head.ls == 1
      && decide (t.vfs = s.vfs) && decide (t.cores = []) && decide (t.hostMem = []) && t.disabled.isEmpty && t.pkg == 0
  | .inl _ => false

theorem launching_accepted : ∃ t l, (launching launchVf).launchCheck 0 launchVf = .inr (t, l) ∧ l.place = [0] ∧ l.head.jcb = 0x800
    ∧ l.lts = [(0, pageLeaf)] ∧ t.mem = (launching launchVf).mem
    ∧ (l.vec.length = 1 ∧ l.recs.length = 1 ∧ taskSpots l.head.ls l.place = [(0, 0)] ∧ units l.head.ls = 1) ∧ t.vfs = (launching launchVf).vfs ∧ t.cores = []
    ∧ t.hostMem = [] ∧ t.disabled = [] ∧ t.pkg = 0 := by
  have h : findsLaunch (launching launchVf) launchVf = true := by decide +kernel
  unfold findsLaunch at h
  split at h
  · next t l e =>
    simp only [Bool.and_eq_true, beq_iff_eq, decide_eq_true_eq, List.isEmpty_iff] at h
    obtain ⟨⟨⟨⟨⟨⟨⟨⟨⟨⟨⟨⟨h1, h2⟩, h3⟩, h4⟩, k1⟩, k2⟩, k3⟩, k4⟩, h5⟩, h6⟩, h7⟩, h8⟩, h9⟩ := h
    exact ⟨t, l, e, h1, h2, h3, h4, ⟨k1, k2, k3, k4⟩, h5, h6, h7, h8, h9⟩
  · cases h

/-- The launch's function has its job, over these tables. -/
theorem joined_paged {t : State} {l : Launch} (hm : t.mem = (launching launchVf).mem) (hd : t.disabled = []) (hk : t.pkg = 0)
    (hl : l.lts = [(0, pageLeaf)]) : Paged (t.withJob 0 launchVf l.job) 0 := by
  have hv : (t.withJob 0 launchVf l.job).vf 0 = some { launchVf with job := some l.job } := by
    unfold State.vf State.withJob; exact aget_aset_self ..
  exact ⟨fun a _ ha => by
      show cget t.mem a = _
      rw [hm]
      exact listed_below fun e he => Nat.lt_of_lt_of_le ha ((by decide +kernel : ∀ e ∈ launchBytes, 0x5000 ≤ e.1) e he),
    ⟨_, hv, rfl, rfl, rfl⟩, ⟨hd, hk⟩, .inl (by unfold State.lts; rw [hv]; exact hl)⟩

theorem test_witness_HostReachesFunctions :
    let m := mapped {}
    let c : State := { m with vfs := [(0, { pageVf with lstat := 0xFF })] }
    (m.vf 0 = some pageVf ∧ m.up = true ∧ pageVf.lstat ≠ 0xFF ∧ m.canon = true)
    ∧ (c.vf 0 = some { pageVf with lstat := 0xFF } ∧ (8 : Word).toNat % 8 = 0 ∧ (9 : Word).toNat % 8 ≠ 0)
    ∧ ({ m with up := false } : State).up = false
    ∧ 0x038 ∉ [0x000, 0x018, 0x020, 0x028, 0x030, 0x048, 0x050, 0x058, 0x060, 0x068] ∧ [(1 : Byte)].length % 8 ≠ 0
    ∧ placesBy (m.walk 0) m.pkg.toNat 8 16 = some ((List.range 16).map (0x200008 + ·))
    ∧ placesBy (m.walk 0) m.pkg.toNat (2 ^ 21) 8 = none ∧ Allotted pageVf 0x200000 64
    ∧ ¬ Allotted pageVf (2 ^ 22) 1 ∧ (∀ r ∈ pageVf.allot, r.1 % 2 ^ 21 = 0 ∧ r.2 % 2 ^ 21 = 0) := by
  refine ⟨⟨rfl, rfl, by decide, by decide +kernel⟩, ⟨rfl, by decide, by decide⟩, rfl, by decide, by decide,
    page_places (fun _ h => walk_page (mapped_paged _) h) _ _ _ (by decide) (by decide), by decide +kernel,
    ⟨by decide, fun a h1 h2 => ⟨(0, 2 ^ 22), by decide, by omega, by omega⟩⟩, fun h => ?_, by decide⟩
  obtain ⟨r, hr, h1, h2⟩ := h.2 (2 ^ 22) (by omega) (by omega)
  simp [pageVf] at hr; subst hr; omega

theorem test_witness_LaunchesInstallAndComplete :
    let s := launching launchVf
    let j : Job := { pageJob with levels := [⟨3, 1, 3⟩, ⟨2, 1, 4⟩], ended := [((1, 0), 2), ((0, 0), 3)] }
    let j2 : Job := { pageJob with levels := [⟨3, 1, 3⟩, ⟨2, 1, 4⟩], ended := [((0, 0), 2)] }
    let bare : State := { mapped {} with mem := [], vfs := [(0, { pageVf with job := some { pageJob with lts := [] } })] }
    (bare.leased 0 pageJob.jcb.toNat = true ∧ bare.vplace 0 pageJob.jcb.toNat = none) ∧ launchVf.preempt = false
    ∧ s.vf 0 = some launchVf ∧ launchVf.lstat = 0xFF ∧ launchVf.job = none ∧ s.up = true
    ∧ (∃ t l, s.launchCheck 0 launchVf = .inr (t, l) ∧ l.place.Nodup ∧ (∀ c ∈ l.place, c < 384) ∧ t.canon = true
      ∧ (0 < units l.head.ls ∧ (taskSpots l.head.ls l.place)[0]? = some (0, 0) ∧ l.place[0]? = some 0 ∧ ∃ e r, l.vec[0]? = some e ∧ l.recs[0]? = some r)
      ∧ (t.withJob 0 launchVf l.job).LiesAt 0 l.head.jcb.toNat 64 0x200800
      ∧ (t.withJob 0 launchVf l.job).TablesApart 0 (fun a => 0x200800 ≤ a ∧ a < 0x200800 + 64))
    ∧ s.launchCheck 0 { launchVf with start := 1 } = .inl 6
    ∧ (j.levels[1]? = some ⟨2, 1, 4⟩ ∧ j.ended.lookup (0, 0) = some 3 ∧ j2.ended.lookup (0, 0) = some 2 ∧ j.levels[0]? = some ⟨3, 1, 3⟩
      ∧ j.ended.lookup (1, 0) = some 2)
    ∧ ((mapped {}).mem64 0x200800 = (mapped {}).mem64 (0x200800 + 8) ∧ (mapped {}).LiesAt 0 pageJob.jcb.toNat 64 0x200800)
    ∧ MayCreate {} 1 [0] [3] [(3, 5)] [(3, 0, 2 ^ 21)] := by
  intro s j j2 bare
  obtain ⟨t, l, e, hp, hj, hl, hm, ⟨k1, k2, k3, k4⟩, hv, hc, hh, hd, hk⟩ := launching_accepted
  refine ⟨⟨by decide +kernel, by decide +kernel⟩, rfl, rfl, rfl, rfl, rfl, ⟨t, l, e, by rw [hp]; decide, by rw [hp]; decide, ?_,
      ⟨by rw [k4]; decide, by rw [k3]; rfl, by rw [hp]; rfl, l.vec[0], l.recs[0], by simp, by simp⟩, ?_,
      tables_apart (joined_paged hm hd hk hl) _ fun a ha => by omega⟩, by decide +kernel, by decide, ⟨by decide +kernel,
      page_lies (mapped_paged _) 2048 64 (by decide) (by decide)⟩, ?_⟩
  · unfold State.canon; rw [hm, hc, hh]; decide +kernel
  · rw [hj]
    exact page_lies (joined_paged hm hd hk hl) 2048 64 (by decide) (by decide)
  · refine ⟨rfl, by decide, by decide, fun x hx => ?_, ⟨by decide, fun c hc => ?_⟩, by decide, by decide +kernel⟩
    · cases hx
    · simp at hc; subst hc
      exact ⟨by decide, by decide, fun o ho => by cases ho⟩

theorem test_witness_LaunchesInstallAndComplete_fetch :
    let x := mapped (one { task := true })
    let held (m : Cells 8) (p : List (Nat × Leaf)) : State :=
      { x with mem := m, vfs := [(0, { pageVf with job := some { pageJob with lts := p } })] }
    let none_ := held tables []
    let shut := held [(0x1001, 0x10), (0x1007, 0x80), (0x2001, 0x18), (0x2007, 0x80), (0x3001, 0x20), (0x3007, 0x80),
      (0x4002, 0x10), (0x4006, 0x10), (0x4007, 0xE0)] []
    let away : Leaf := { pageLeaf with fppn := 0x8000000000 }
    (x.ctx 0 0).task = true ∧ (x.ctx 0 0).badFetch = none ∧ (x.ctx 0 0).pktOf 0 = none ∧ x.leasedX 0 0 = true
    ∧ x.xlate 0 0 = some pageLeaf ∧ pageLeaf.x = true ∧ x.LiesAt 0 0 64 0x200000 ∧ x.leasedX 0 (2 ^ 21) = false
    ∧ (none_.leasedX 0 0 = true ∧ none_.xlate 0 0 = none ∧ none_.entryX 0 [0, 1, 2, 3, 4] 0x1000 = true)
    ∧ (shut.leasedX 0 0 = true ∧ shut.xlate 0 0 = none ∧ shut.entryX 0 [0, 1, 2, 3, 4] 0x1000 = false)
    ∧ (held tables [(0, { pageLeaf with x := false })]).xlate 0 0 = some { pageLeaf with x := false }
    ∧ (held tables [(0, away)]).xlate 0 0 = some away ∧ (held tables [(0, away)]).vplaces 0 0 64 = none := by
  intro x held none_ shut away
  exact ⟨rfl, rfl, rfl, by decide +kernel, xlate_page (mapped_paged _) (by decide), rfl,
    page_lies (mapped_paged _) 0 64 (by decide) (by decide), by decide +kernel, by decide +kernel, by decide +kernel, by decide +kernel,
    by decide +kernel, by decide +kernel⟩

/-- An all-reduce of one 32-bit integer over packages 0 and 1, the two members listed at 0x40 (R235). -/
def colDesc (flags members : Nat) : Block64 :=
  BitVec.ofNat 512 (12 * 2 ^ 16 + flags * 2 ^ 24 + members * 2 ^ 96 + 0x40 * 2 ^ 128 + 2 ^ 192 + 0x80 * 2 ^ 256 + 0x100 * 2 ^ 320)
def slotOf (flags members : Nat) (ms : List Nat) (st : CStage) (rank : Option Nat) (err : Nat) : CSlot :=
  ⟨7, 0, colDesc flags members, 0x200200, ms, st, rank, err, false⟩
def collecting (tab : List (Nat × CSlot)) (cs : List Coord) : State := { mapped {} with colTab := tab, coords := cs }

theorem legal_of {d : Block64} (h : blk d 0 8 ≤ 4 ∧ (6 ≤ blk d 16 8 ∧ blk d 16 8 ≤ 12) ∧
      (if blk d 0 8 < 2 then blk d 8 8 ≤ 5 ∧ (3 ≤ blk d 8 8 → fmtFloat (blk d 16 8) = false) else blk d 8 8 = 0) ∧
      blk d 24 8 < 2 ∧ (1 ≤ blk d 96 32 ∧ blk d 96 32 ≤ 2 ^ 17) ∧ (1 ≤ blk d 192 64 ∧ blk d 192 64 ≤ 2 ^ 32) ∧
      (if blk d 0 8 = 3 then blk d 384 32 < blk d 96 32 else blk d 384 32 = 0) ∧ blk d 416 32 = 0) : DescriptorLegal d :=
  ⟨h.1, h.2.1, h.2.2.1, h.2.2.2.1, h.2.2.2.2.1, h.2.2.2.2.2.1, h.2.2.2.2.2.2.1, h.2.2.2.2.2.2.2⟩

/-- Package 0 posts the descriptor at 0x200000. -/
def postBytes : Cells 8 := csetN (csetN [] 0x200000 (toLe (colDesc 0 2))) 0x200044 [1]
def posting (strict : Bool) : State :=
  { mapped (one { strict, regs := Regs.wh {} 2 (allHandle + BitVec.ofNat 128 (0x200 * 2 ^ 44)) }) with mem := tables ++ postBytes }

theorem posting_paged (st : Bool) : Paged (posting st) 0 :=
  ⟨fun _ _ ha => listed_below fun e he => Nat.lt_of_lt_of_le ha ((by decide +kernel : ∀ e ∈ postBytes, 0x5000 ≤ e.1) e he),
    ⟨_, rfl, rfl, rfl, rfl⟩, ⟨rfl, rfl⟩, .inl rfl⟩

theorem test_witness_CollectivesRunInRankOrder_post :
    let s := posting false
    let d := colDesc 0 2
    let full : State := { s with colTab := (List.range 256).map fun n => (n, slotOf 0 2 [] .posted none 0) }
    let from_ (at_ : Nat) : OpWhat := .post 1 ((List.range 64).map fun j => .place (.mem (at_ + j))) at_
    let block (at_ : Nat) : Block64 := .ofNat 512 (leVal (((List.range 64).map fun j => Src.place (.mem (at_ + j))).map s.getSrc))
    s.HandleAllowed 2 0 false ∧ Handle.place (s.hreg 2) 0 = 0x200000 ∧ ¬ s.Outstanding .pkg
    ∧ (.ofNat 512 (leVal (s.memBytes 0x200000 64)) : Block64) = d ∧ s.me.strict = false ∧ (posting true).me.strict = true
    ∧ (posting true).HandleAllowed 2 0 false ∧ ¬ (posting true).Outstanding .pkg
    ∧ ((flying {} (from_ 64)).core 0).op 7 = some (flown (from_ 64))
    ∧ (block 0x200000).getLsbD 24 = false ∧ (block 0x200041).getLsbD 24 = true ∧ (∀ n, n < 256 → aget full.colTab n ≠ none) ∧ aget s.colTab 0 = none
    ∧ PostError s 0 d [0, 1] 0 ∧ PostError s 0 0 [] 3 := by
  intro s d full from_ block
  have lies (va n) (hn : va + n ≤ 2 ^ 21) (h0 : 0 < n) : s.vplaces 0 va n ≠ none := by
    have h := page_lies (posting_paged false) va n hn h0
    unfold State.LiesAt at h
    show (posting false).vplaces 0 va n ≠ none
    rw [h]; simp
  refine ⟨⟨by decide +kernel, fun h => (by cases h), by decide +kernel⟩, by decide +kernel, idle_outstanding _ rfl rfl _,
    by decide +kernel, rfl, rfl, ⟨by decide +kernel, fun h => (by cases h), by decide +kernel⟩, idle_outstanding _ rfl rfl _, by decide,
    by decide +kernel, by decide +kernel, by decide +kernel, rfl, .inr ⟨legal_of (by decide +kernel), .inr ⟨⟨_, page_read (posting_paged false) _ _ (by decide +kernel)
      (by decide +kernel), by decide +kernel, by decide +kernel⟩, .inr (.inr ⟨⟨by decide, by decide⟩, ⟨lies _ _ (by decide +kernel) (by decide +kernel),
        lies _ _ (by decide +kernel) (by decide +kernel)⟩, rfl⟩)⟩⟩, .inl ⟨fun h => ?_, rfl, rfl⟩⟩
  exact absurd h.fmt.1 (by decide +kernel)

theorem test_witness_CollectivesRunInRankOrder :
    let d := colDesc 0 2
    let p (k : Nat) : Post := ⟨k, d, [0, 1]⟩
    let c (ps : List Post) (gs : List Nat) : Coord := ⟨0, 0, ps, gs⟩
    let w (st : CStage) : State := { work { regs := Regs.ws {} 1 7 } with colTab := [(0, slotOf 0 2 [0, 1] st (some 5) 0)] }
    let s (fl m : Nat) (ms : List Nat) (st : CStage) (err : Nat) : State := collecting [(0, slotOf fl m ms st (some 5) err)] []
    let two : State := collecting [(0, slotOf 0 2 [0, 1] .ticketed (some 5) 0), (1, slotOf 0 2 [0, 1] .ticketed (some 4) 0)] []
    ((w .done).rs 1).toNat = 7 ∧ (w .done).me.snap = none ∧ ((w .done).rs 2).toNat ≠ 7
    ∧ ((p 1).members ≠ [] ∧ (p 1).pkg ∈ (p 1).members ∧ (p 1).members.getD (blk d 64 32 % 2) 0 = (collecting [] []).pkg.toNat)
    ∧ Lacks (c [p 0] []) (p 1) ∧ AllAgree (c [p 0, p 1] [0]) ∧ ¬ AllAgree (c [p 0, ⟨1, colDesc 1 2, [0, 1]⟩] [])
    ∧ (1 < (c [p 0, p 1] [0]).members.length ∧ 1 ∉ (c [p 0, p 1] [0]).grants) ∧ OwnPosted (s 0 2 [0, 1] .posted 0) 0 0 0 (slotOf 0 2 [0, 1] .posted (some 5) 0)
    ∧ (∃ x ∈ (mapped {}).vfs, ∃ v, (mapped {}).vf x.1 = some v ∧ v.pkgs.head? = some (mapped {}).pkg.toNat)
    ∧ (∃ x ∈ two.colTab, x.2.stage = .ticketed ∧ x.2.desc.getLsbD 24 = false
        ∧ (two.vf x.2.vf).map (·.part) = (two.vf 0).map (·.part) ∧ x.2.rank.getD 0 < 5)
    ∧ DescriptorLegal (colDesc 0 1) ∧ [0].length = colM (colDesc 0 1) ∧ (s 0 1 [0] .started 0).canon = true
    ∧ (s 0 1 [0] .started 0).LiesAt 0 (blk (colDesc 0 1) 256 64) (colSrcN (colDesc 0 1) * colSize (colDesc 0 1)) 0x200080
    ∧ (s 0 1 [0] .started 0).LiesAt 0 (blk (colDesc 0 1) 320 64) (colDstN (colDesc 0 1) * colSize (colDesc 0 1)) 0x200100
    ∧ 0x200100 + colDstN (colDesc 0 1) * colSize (colDesc 0 1) ≤ 0x200200 + 56 ∧ coordOf (colDesc 0 2) [1, 2] ≠ (collecting [] []).pkg.toNat := by
  intro d p c w s two
  refine ⟨by decide, rfl, by decide, ⟨by decide, by decide, by decide +kernel⟩, ⟨by decide +kernel, by decide +kernel, .inr (by decide), by decide⟩,
    ⟨by decide, by decide, by decide +kernel⟩, fun h => ?_, ⟨by decide, by decide⟩, ⟨[], [], rfl, ⟨by decide +kernel, by decide +kernel, rfl⟩, by simp⟩,
    ⟨(0, pageVf), by decide, pageVf, rfl, rfl⟩, ⟨(1, slotOf 0 2 [0, 1] .ticketed (some 4) 0), by decide, rfl, by decide +kernel, rfl, by decide⟩,
    legal_of (by decide +kernel), by decide +kernel, by decide +kernel, ?_, ?_, by decide +kernel, by decide +kernel⟩
  · have := (h.2.2 (p 0) (by simp [c]) ⟨1, colDesc 1 2, [0, 1]⟩ (by simp [c])).2 (24, 8) (by simp)
    revert this; decide +kernel
  · have q : Paged (s 0 1 [0] .started 0) 0 := ⟨fun _ _ _ => rfl, ⟨_, rfl, rfl, rfl, rfl⟩, ⟨rfl, rfl⟩, .inl rfl⟩
    have := page_lies q (blk (colDesc 0 1) 256 64) (colSrcN (colDesc 0 1) * colSize (colDesc 0 1)) (by decide +kernel) (by decide +kernel)
    rwa [show 0x200000 + blk (colDesc 0 1) 256 64 = 0x200080 by decide +kernel] at this
  · have q : Paged (s 0 1 [0] .started 0) 0 := ⟨fun _ _ _ => rfl, ⟨_, rfl, rfl, rfl, rfl⟩, ⟨rfl, rfl⟩, .inl rfl⟩
    have := page_lies q (blk (colDesc 0 1) 320 64) (colDstN (colDesc 0 1) * colSize (colDesc 0 1)) (by decide +kernel) (by decide +kernel)
    rwa [show 0x200000 + blk (colDesc 0 1) 320 64 = 0x200100 by decide +kernel] at this

/-! ### The fabric -/

/-- A packet to core 1, whose router is 1. -/
def pk (i : Nat) (suspect : Bool) (reply : Option (Fin 5) := none) : Packet := ⟨i, .core 2, .core 1, 1, reply, suspect⟩
def routed (x : Router) (spoon : Option Nat) : State := { routers := [(0, x)], spoon, blkt := 5 }

theorem nearer_east (x : Router) (sp : Option Nat) (y : Nat) (h : Nearer (routed x sp) 0 (.core 1) y) : y = 1 := by
  obtain ⟨hp, n, q, he, hh⟩ := h
  have : y < 5 := by simpa [portsOf, hubRouter] using hp
  match y, this with
  | 0, _ | 3, _ => simp [neighbour, hubRouter, rRow, rPos] at he
  | 1, _ => rfl
  | 2, _ =>
    simp [neighbour, hubRouter, rRow] at he
    obtain ⟨rfl, rfl⟩ := he
    exact absurd (show 2 ≠ 4 ∧ ∃ a ∈ [1], ∀ b ∈ [1], meshHops 16 a < meshHops 0 b from hh) (by decide)
  | 4, _ => simp [neighbour, hubRouter, linkOf, rRow] at he

theorem test_witness_FabricAndPowerEventsAct :
    let full : Router := { inbufs := [((3, 0), pk 1 false)], timer := 7 }
    let one : Router := { inbufs := [((3, 0), pk 1 true)], st := .draining }
    let done : Router := { inbufs := [((3, 0), pk 1 false)], st := .draining }
    let v : Vf := { part := 3, cores := [0] }
    let p : State := { vfs := [(0, v)], hot := [4] }
    let due (n : Nat) : State := { p with resets := [(n, [0])] }
    let shut : State := { routed full none with routers := [(0, full), (1, { inbufs := [((3, 0), pk 2 false), ((3, 1), pk 3 false)] })] }
    ((due 0).resets = [(0, [0])] ∧ 0 ≤ (due 0).cycle ∧ (due 1).cycle < 1 ∧ [0].Nodup ∧ ∀ m ∈ [0], m < 64)
    ∧ Works (routed {} none) 0 ∧ Still (routed full none) 0
    ∧ (full.inbufs = [((3, 0), pk 1 false)] ∧ full.sink = [] ∧ TakesPort (routed full none) 0 (.core 1) 1 ∧ neighbour 0 1 = some (1, 3)
      ∧ 0 ∉ (routed full none).attached (.core 1) ∧ 1 ∈ (routed full none).attached (.core 1))
    ∧ (shut.outOpen 0 1 = true ∧ shut.freeBufs 0 1 = 0)
    ∧ ((routed full none).router 0).st = .normal ∧ (routed full none).blkt.toNat ≤ 7
    ∧ ((routed { full with st := .armed } none).router 0).st = .armed
    ∧ (one.inbufs = [] ++ ((3, 0), pk 1 true) :: [] ∧ (pk 1 true).suspect = true ∧ one.sink = [] ∧ one.sunk ≠ some 0
      ∧ ({ one with sunk := some 0 } : Router).sunk = some (routed one (some 0)).cycle)
    ∧ ((∀ b ∈ done.inbufs, b.2.suspect = false) ∧ ∀ k ∈ (routed done (some 0)).routers, ∀ z ∈ k.2.sink, z.2.id ∉ done.moved)
    ∧ (p.vfs.map (·.1)).Nodup ∧ Hit p (fun w => p.routerServes w 0 = true) 0 ∧ Works p (linkRouter 0)
    ∧ ((p.link 0).working = true ∧ (({ p with links := [(0, { up := 16 })] } : State).link 0).up = 16
      ∧ (({ p with links := [(0, { down := 16 })] } : State).link 0).down = 16) ∧ 3 ∉ p.hot ∧ 4 ∈ p.hot
    ∧ HarvestLegal [1] [2]
    ∧ (∀ k d, [4600, 360, 1140, 520, 380, 500][k]? = some d → d ≤ [4600, 360, 1140, 520, 380, 500].getD k 0)
    ∧ (∃ k d, [4600, 361, 0, 0, 0, 0][k]? = some d ∧ [4600, 360, 1140, 520, 380, 500].getD k 0 < d)
    ∧ (List.replicate 23 (40 : Nat)).length = 23 := by
  refine ⟨by decide, ⟨by decide, by decide⟩, ⟨by decide, by decide⟩, ⟨rfl, rfl, ⟨fun y h => ?_, ⟨by decide, 1, 3, by decide,
      (show 1 ≠ 4 ∧ ∃ a ∈ [1], ∀ b ∈ [1], meshHops 1 a < meshHops 0 b by decide)⟩, by decide, fun y h => ?_⟩,
      by decide, by decide, by decide⟩, by decide,
    rfl, by decide, rfl, ⟨rfl, rfl, rfl, by decide, rfl⟩, ⟨by decide, by decide⟩, by decide,
    ⟨by decide, { part := 3, cores := [0] }, 0, { part := 3, cores := [0] }, rfl, by decide, rfl, rfl, by decide⟩, ⟨by decide, by decide⟩,
    ⟨rfl, rfl, rfl⟩, by decide, by decide, ⟨⟨by decide, by decide, by decide⟩, ⟨by decide, by decide⟩, fun d p => ?_, fun d => ?_⟩,
    fun k d h => ?_, ⟨1, 361, rfl, by decide⟩, rfl⟩
  · rw [nearer_east _ _ y h]; decide
  · rw [nearer_east _ _ y h]; exact .inr ⟨rfl, Nat.le_refl _⟩
  · exact Nat.le_trans (List.length_filter_le _ _) (by decide)
  · exact Nat.le_trans (List.length_filter_le _ _) (by decide)
  · rw [List.getD_eq_getElem?_getD, h]; exact Nat.le_refl _

/-- Replies, delivery and space for them, what a cycle's end does, the firmware's settings. -/
theorem test_witness_FabricAndPowerEventsAct_cycles :
    let x : Router := { inbufs := [((3, 0), pk 1 false)], timer := 7 }
    let at_ (r : Option (Fin 5)) : State := { routers := [(1, { inbufs := [((3, 0), pk 1 false r)] })], awaited := [pk 1 false] }
    let asks (n : Nat) : State := { routed {} none with offers := [(0, pk 1 false (some 0))], awaited := List.replicate n (pk 9 false (some 0)) }
    let f : Firmware := ⟨84, 66, [(0x1000, [1])], 0x1000, 0⟩
    let m : State := { strands := [f], cores := [(84, { ctxs := #v[{}, {}, {}, { vf := 64, frozen := true }] })] }
    let e : State := { routed x (some 0) with blkts := [(1, 3)], offers := [(0, pk 2 false)] }
    let b : State := { routed { busy := [(4, 3)], st := .armed } none with blkts := [(2, 3)] }
    (∀ r, Works (at_ r) 1 ∧ Still (at_ r) 1 ∧ 1 ∈ (at_ r).attached (pk 1 false r).dst ∧ (at_ r).attached (pk 1 false r).src ≠ [])
    ∧ HasSpace (asks 0) (pk 1 false (some 0)) ∧ ¬ HasSpace (asks (max 1 Config.replySpace)) (pk 1 false (some 0))
    ∧ (m.strands = [f] ∧ f.core % 96 = 84 ∧ (m.ctx f.core 3).vf = 64 ∧ (m.ctx f.core 3).frozen = true)
    ∧ (e.blkts = [(1, 3)] ∧ 1 ≤ e.endCycle.cycle ∧ (∃ y ∈ e.endCycle.routers, y.2.inbufs ≠ []) ∧ (e.endCycle.offers ≠ []))
    ∧ ((∀ z ∈ b.blkts, b.endCycle.cycle < z.1)
      ∧ ∃ y ∈ b.endCycle.routers, y.2.st = .armed ∧ b.endCycle.spoon = none ∧ ∃ z ∈ y.2.busy, b.endCycle.cycle ≤ z.2)
    ∧ (({ limited := [1], hot := [2] } : State).withheld 0 = false ∧ (routed x none).spoon = none ∧ (routed x none).limited = []) := by
  intro x at_ asks f m e b
  refine ⟨fun r => ⟨⟨by decide, fun h => (by cases h)⟩, ⟨fun b h => (by cases h), fun o h => (by cases h)⟩, by revert r; decide, by revert r; decide⟩, ?_, ?_,
    ⟨rfl, by decide, rfl, rfl⟩, ⟨rfl, by decide +kernel, by decide +kernel, by decide +kernel⟩,
    ⟨by decide +kernel, by decide +kernel⟩, by decide +kernel, rfl, rfl⟩
  · show 0 < max 1 Config.replySpace
    omega
  · show ¬ ((List.replicate (max 1 Config.replySpace) (pk 9 false (some 0))).filter fun x => x.src == Endpoint.core 2).length < _
    rw [List.filter_replicate_of_pos (by decide), List.length_replicate]
    omega

/-- The sink lane, an endpoint's offer and a crossing packet: each case of a router that stands otherwise empty. -/
theorem test_witness_FabricAndPowerEventsAct_lanes :
    let home : Router := { sink := [(5, ⟨1, .core 1, .core 0, 0, some 0, true⟩)] }
    let away : Router := { sink := [(1, pk 1 true)] }
    let met : State := { routed away none with routers := [(0, away), (1, { sink := [(5, pk 2 true)] })] }
    let crossing : Router := { busy := [(1, 3)] }
    let offered : State := { routed {} none with offers := [(4, pk 2 false), (0, pk 1 false)] }
    (home.inbufs = [] ∧ home.sink = [(5, ⟨1, .core 1, .core 0, 0, some 0, true⟩)] ∧ 0 = (routed home none).sinkEnd 0 (.core 0))
    ∧ (away.sink = [(1, pk 1 true)] ∧ 0 ≠ (routed away none).sinkEnd 0 (.core 1) ∧ neighbour 0 1 = some (1, 3)
      ∧ (∀ y ∈ ((routed away none).router 1).sink, y.1 ≠ (routed away none).sinkPort 1 (.core 1))
      ∧ ∃ y ∈ (met.router 1).sink, y.1 = met.sinkPort 1 (.core 1))
    ∧ ((1, 3) ∈ crossing.busy ∧ (routed crossing none).cycle < 3 ∧ ∀ o ∈ (routed crossing none).offers, o.1 ≠ 0)
    ∧ (offered.offers = [(4, pk 2 false)] ++ (0, pk 1 false) :: [] ∧ (∀ o ∈ [(4, pk 2 false)], o.1 ≠ 0) ∧ offered.attached (.core 1) ≠ []) := by
  decide +kernel

/-! ### The step, the encoding and the invariant -/

def loaded : State := State.reset.loadWord 0x90061100

theorem test_witness_StepRunsTheDecodedInstruction :
    let s := loaded
    let b : Slot := ⟨0, 0x90061100, .add 3 1 2⟩
    let pkt := loadPacket 0x90061100
    let c := s.ctx 0 0
    let at_ : State := { s with todo := [], cur := 0, cix := 0 }
    let v : State := (at_.modCore 0 fun k => { k with rr := k.rr.set (Fin.ofNat 4 (s.effClass 0 0)) 0 }).modCtx 0 0
      fun c => { c with lastIssue := s.cycle, aged := false, park := none }
    (∀ e ∈ s.agenda, s.cycle < e.1) ∧ s.todo = 0 :: [] ∧ s.coreMove 0 = none ∧ s.withheld 0 = false
    ∧ (∀ j, j ≠ 0 → (s.ctx 0 j).task = false) ∧ c.between s.cycle = true ∧ c.packet = some (packetOf c.pc, pkt)
    ∧ pkt[wordIx c.pc]? = some 0x90061100 ∧ (0x90061100 : Code).getLsbD 31 = true ∧ decodeWord none 0x90061100 = .ok b.instr
    ∧ c.decodeBundle pkt = .ok [⟨b, 0⟩] ∧ c.treeLocked s.cycle [⟨b, 0⟩] = false
    ∧ at_.nowFor.free [⟨b, 0⟩] = true ∧ at_.nowFor.judgeWord b = .go ∧ v.nowFor.me.wait = .none ∧ v.nowFor.me.checks = []
    ∧ c.replay = false ∧ c.landFp = none ∧ c.landBar = [] ∧ c.badFetch = none ∧ c.pc.toNat % 4 = 0 ∧ c.delay = none
    ∧ (s.core 0).arr.owner ≠ some 0 := by decide +kernel

/-- Two contexts of a core are ready: one with a scalar word, one with a vector word. -/
def paired (w : Code) : State :=
  let c := loaded.ctx 0 0
  { loaded with cores := aset loaded.cores 0 { loaded.core 0 with
      ctxs := #v[c, { c with packet := some (packetOf c.pc, loadPacket w) }, {}, {}] } }

theorem test_witness_StepRunsTheDecodedInstruction_merged :
    let idle : State := { todo := [0] }
    let l : List (Fin 4 × Slot) := [(0, ⟨0, 0xA052A95D, .st 9 .i32 (.hnd 11 18 5)⟩), (1, ⟨0, 0xA0135945, .ld 9 .n16 (.buf 18 0x45)⟩)]
    let ready (s : State) : List (Fin 4) := [0, 1, 2, 3].filter fun j => (State.look { s with todo := [] } 0 j).ready
    (∀ w, w = 0xB0132DAC ∨ w = 0x90061100 → let s := paired w
      (∀ e ∈ s.agenda, s.cycle < e.1) ∧ s.todo = 0 :: [] ∧ s.coreMove 0 = none ∧ s.withheld 0 = false ∧ ready s = [0, 1]
        ∧ (∀ j, (s.ctx 0 j).replay = false)
        ∧ ((primaryOf (s.core 0).rr (s.effClass 0) (ready s)).map (·.1) = some 0)
        ∧ (mergeOk (s.core 0).entriesUsed (State.look { s with todo := [] } 0 0) (State.look { s with todo := [] } 0 1) = true
          ↔ w = 0xB0132DAC))
    ∧ (idle.coreMove 0 = none ∧ idle.withheld 0 = false ∧ ready idle = [])
    ∧ (∀ x ∈ l, State.farFe { loaded with cur := 0, cix := x.1 } x.2.instr = false ∧ Instr.isWait x.2.instr = false ∧ classOf x.2.code = 2) := by
  intro idle l ready
  refine ⟨fun w h => ?_, by decide +kernel, by decide +kernel⟩
  rcases h with rfl | rfl <;> exact ⟨by decide +kernel, by decide +kernel, by decide +kernel, by decide +kernel, by decide +kernel,
    by decide +kernel, by decide +kernel, by decide +kernel⟩

theorem test_witness_DecodingInvertsEncoding :
    Instr.isWord (.add 3 1 2) = true ∧ Instr.wf (.add 3 1 2) = true ∧ Instr.isWord (.packetRoute 0) = false
    ∧ decodeWord none 0x90061100 = .ok (.add 3 1 2) := by decide

theorem test_witness_StepKeepsMemoriesCanonical :
    loaded.canon = true ∧ (match step loaded with | .next t => (t.core 0).ctxs[0].regs.rs 3 | _ => 1) = 0 := by decide +kernel

/-! ### Words decode as the manual's formats say (R326, R336 to R349) -/

/-- Each word alone in its bundle decodes to its instruction. -/
def DecodesTo (l : List (Nat × Instr)) : Prop := ∀ x ∈ l, decodeTableWord 32 x.1 = some x.2
theorem test_decode_scl_1 : DecodesTo
    [(0x90132D80, .add 9 18 27),
     (0x90532D80, .sub 9 18 27),
     (0x90932D80, .mul 9 18 27),
     (0x91932D80, .and 9 18 27),
     (0x91D32D80, .or 9 18 27),
     (0x92132D80, .xor 9 18 27),
     (0x92532D80, .andn 9 18 27),
     (0x92932D80, .shl 9 18 27),
     (0x92D32D80, .shr 9 18 27),
     (0x93132D80, .sra 9 18 27),
     (0x90D32DC0, .mulh 9 18 27 true),
     (0x91132DC0, .div 9 18 27 true)] := by unfold DecodesTo; decide

theorem test_decode_scl_2 : DecodesTo
    [(0x91532DC0, .rem 9 18 27 true),
     (0x93532DC0, .min 9 18 27 true),
     (0x93932DC0, .max 9 18 27 true),
     (0x93D32000, .clz 9 18),
     (0x94132000, .popc 9 18),
     (0x94532801, .addi 9 18 0x3F801),
     (0x94928001, .li 9 0x3F8001),
     (0x94D27001, .lih 9 0x7001),
     (0x95254800, .mov (.b 5) (.s 18)),
     (0x955392D8, .sel 9 12 18 27),
     (0x95B25B90, .cmp 12 18 27 .gt true),
     (0x95F25501, .cmpi 12 18 .ge false 0x7F01)] := by unfold DecodesTo; decide

theorem test_decode_scl_3 : DecodesTo
    [(0x96316980, .plog 12 5 10 0x6),
     (0x98390001, .br true 12 0x7F0001),
     (0x98449237, .btree 1 2 4 8 13 3 0),
     (0x98A00001, .jmp 0xFE00001),
     (0x98EC0001, .call 5 0x1FC0001),
     (0x99300000, .ret 6),
     (0x996B0001, .setb 5 0x30001),
     (0x9992FF01, .loop 9 0xFF01),
     (0x99D35F01, .lpstg 9 5 0x1F01),
     (0x9A132D80, .bksel 9 18 27),
     (0x9FC00029, .nop 41)] := by unfold DecodesTo; decide

theorem test_decode_mem_1 : DecodesTo
    [(0xA0135945, .ld 9 .n16 (.buf 18 0x45)),
     (0xA052A95D, .st 9 .i32 (.hnd 11 18 5)),
     (0xA0920945, .ldv 9 (.scr 18 0x45)),
     (0xA0D21945, .stv 9 (.buf 18 0x45)),
     (0xA118295D, .ldt 12 (.hnd 11 18 5)),
     (0xA1580945, .stt 12 (.scr 18 0x45)),
     (0xA1B37955, .ldtx 12 27 true 18 2 0x15),
     (0xA1E9CA45, .lde true 9 true 18 0x245),
     (0xA2094A45, .ste 9 false 18 0x245),
     (0xA2694A45, .feset true 9 18 0x245),
     (0xA2801945, .sqld (.buf 18 0x45)),
     (0xA2F24000, .trans 12 18)] := by unfold DecodesTo; decide

theorem test_decode_mem_2 : DecodesTo
    [(0xA329C000, .htest true 9 12),
     (0xA3765005, .orbldD 5 18 0x1005),
     (0xA35965B0, .orbldTile 12 5 18 27),
     (0xA3965B48, .orbstScalar 5 18 27 9),
     (0xA3BB92D8, .orbstTile true 5 12 18 27),
     (0xA3D365B0, .orbofs 9 5 18 27),
     (0xA42CA005, .orbx 5 18 0x2005),
     (0xA4532DDD, .amo .max .i64 9 18 27 11),
     (0xA4952DDA, .cas .pair 10 18 27 11),
     (0xA4CE0508, .fence false .die 0x81 0x42),
     (0xA5280000, .drain .part),
     (0xA5520000, .publish 9)] := by unfold DecodesTo; decide

theorem test_decode_mem_3 : DecodesTo
    [(0xA5932000, .bgive 9 18),
     (0xA5D20000, .btake 9)] := by unfold DecodesTo; decide

theorem test_decode_vec_1 : DecodesTo
    [(0xB0132DAC, .vadd 9 18 27 .bf16 ⟨0, .dyn⟩),
     (0xB0532DAC, .vsub 9 18 27 .bf16 ⟨0, .dyn⟩),
     (0xB0932DAC, .vmul 9 18 27 .bf16 ⟨0, .dyn⟩),
     (0xB2932DAC, .vmin 9 18 27 .bf16 ⟨0, .dyn⟩),
     (0xB2D32DAC, .vmax 9 18 27 .bf16 ⟨0, .dyn⟩),
     (0xB0D32D96, .vfma 9 18 27 5 .f16 ⟨0, .dyn⟩),
     (0xB1132DA4, .vdiv 9 18 27 .f32 ⟨0, .dyn⟩),
     (0xB1532024, .vsqrt 9 18 .f32 ⟨0, .dyn⟩),
     (0xB1932024, .vrcp 9 18 .f32 ⟨0, .dyn⟩),
     (0xB1D32024, .vrsq 9 18 .f32 ⟨0, .dyn⟩),
     (0xB2132024, .vexp2 9 18 .f32 ⟨0, .dyn⟩),
     (0xB2532024, .vlog2 9 18 .f32 ⟨0, .dyn⟩)] := by unfold DecodesTo; decide

theorem test_decode_vec_2 : DecodesTo
    [(0xB3132004, .vabs 9 18 .i16 ⟨0, .dyn⟩),
     (0xB3532004, .vneg 9 18 .i16 ⟨0, .dyn⟩),
     (0xB3932DA8, .vclamp 9 18 27 .f16 ⟨0, .dyn⟩),
     (0xB3CB2D99, .vcmp 5 18 27 .n32 1 ⟨0, .dyn⟩),
     (0xB4132DA0, .vsel 9 18 27 .f64 ⟨0, .dyn⟩),
     (0xB44A2181, .vmlog 5 2 3 1),
     (0xB4932D8C, .vand 9 18 27 .i64 ⟨0, .dyn⟩),
     (0xB4D32D8C, .vor 9 18 27 .i64 ⟨0, .dyn⟩),
     (0xB5132D8C, .vxor 9 18 27 .i64 ⟨0, .dyn⟩),
     (0xB5532D8C, .vshl 9 18 27 .i64 ⟨0, .dyn⟩),
     (0xB5932D8C, .vshr 9 18 27 .i64 ⟨0, .dyn⟩),
     (0xB5D32D8C, .vsra 9 18 27 .i64 ⟨0, .dyn⟩)] := by unfold DecodesTo; decide

theorem test_decode_vec_more_1 : DecodesTo
    [(0xB61324AD, .vcvt 9 18 .f32 .bf16 1 ⟨0, .dyn⟩),
     (0xB6532DB3, .vqnt 9 18 27 .e4m3 3 ⟨0, .dyn⟩),
     (0xB6932DC1, .vdeq 9 18 27 .e2m1 1 ⟨0, .dyn⟩),
     (0xB6D32D8A, .vscan 9 18 27 .i32 .max ⟨0, .dyn⟩),
     (0xB7132DA5, .vred 9 18 27 .f32 .min ⟨0, .dyn⟩),
     (0xB7532D90, .vperm 9 18 27 .n8 ⟨0, .dyn⟩),
     (0xB7932D8C, .vbcast 9 18 27 .i64 ⟨0, .dyn⟩),
     (0xB7D32014, .vsplat 9 18 .n16 ⟨0, .dyn⟩),
     (0xB8132D80, .vext 9 18 27 .i8),
     (0xB8532D88, .vins 9 18 27 .i32),
     (0xB8932008, .vmov 9 18 .i32 ⟨0, .dyn⟩),
     (0xB8D20004, .viota 9 .i16 ⟨0, .dyn⟩)] := by unfold DecodesTo; decide

theorem test_decode_vec_more_2 : DecodesTo
    [(0xB9132D92, .vwadd 9 18 27 .n8 2 ⟨0, .dyn⟩),
     (0xB9532D92, .vwmul 9 18 27 .n8 2 ⟨0, .dyn⟩),
     (0xB9932D92, .vwmac 9 18 27 .n8 2 ⟨0, .dyn⟩)] := by unfold DecodesTo; decide

theorem test_decode_mtx_1 : DecodesTo
    [(0xC0000000, .mown),
     (0xC0400000, .mrel),
     (0xC08CD200, .mcfg .i8 .i8 .i32 false true),
     (0xC0BA1700, .mcfgOrb (some 5) none (some 3) true),
     (0xC0D32D80, .mmask 9 18 27),
     (0xC1300000, .mpush 12),
     (0xC150C100, .mshift 33 65),
     (0xC1AE4A45, .mbeat true false (some 12) 18 0x245),
     (0xC1C00000, .mscale),
     (0xC2180600, .macc 384 192),
     (0xC2320000, .maccReg 18),
     (0xC2500E00, .mzero 256 448)] := by unfold DecodesTo; decide

theorem test_decode_mtx_2 : DecodesTo
    [(0xC2720000, .mzeroReg 18),
     (0xC2AB1050, .mdrain .f32 12 0x105),
     (0xC29B3200, .mdrainReg .i8 12 18)] := by unfold DecodesTo; decide

theorem test_decode_asy_1 : DecodesTo
    [(0xD0165163, .cpy 5 18 0x45 0x23),
     (0xD056E545, .cpyToMemory 5 11 18 0x145),
     (0xD096E545, .cpyFromMemory 5 11 18 0x145),
     (0xD0EB96D2, .cpy2d .memScr 11 18 27 9),
     (0xD1132DAB, .cplid 9 18 27 5 3),
     (0xD1699445, .acopy true 9 18 0x445),
     (0xD22B92CE, .gath 2 11 18 5 9 6),
     (0xD26B92CE, .scat 2 11 18 5 9 6),
     (0xD2B59445, .fopen true 2 5 18 0x445),
     (0xD2EA9900, .fadv 2 5 9 18),
     (0xD3328000, .fend 12 5),
     (0xD3534000, .fpos 9 5)] := by unfold DecodesTo; decide

theorem test_decode_asy_2 : DecodesTo
    [(0xD3A80000, .fclose 5),
     (0xD3EA65B0, .sopen 5 9 18 27),
     (0xD4134000, .snext 9 5),
     (0xD4728000, .stend 12 5),
     (0xD4A80000, .sclose 5),
     (0xD4F94800, .cut true 12 2 18),
     (0xD538D200, .cutp true 12 1 2 18),
     (0xD554CA00, .cutb .elements 9 18 2),
     (0xD5B25005, .cqpop 12 18 0x1005),
     (0xD5F28005, .cqrpl true 18 0x8005),
     (0xD6394005, .xmit true (.v 18) 0x4005),
     (0xD6664005, .imsel true (.t 12) 0x4005)] := by unfold DecodesTo; decide

theorem test_decode_sys_1 : DecodesTo
    [(0xE021113E, .wait true 1 2 4 31),
     (0xE0640000, .bar true false .row),
     (0xE0820000, .bara .core),
     (0xE0DC0000, .barw true .sys),
     (0xE1130005, .phase 9 0x10005),
     (0xE1520000, .spawn 9),
     (0xE1800000, .yield),
     (0xE1D20000, .susp 9),
     (0xE2000000, .exit),
     (0xE2532000, .jcbadd 9 18),
     (0xE2800002, .prio 2),
     (0xE2C08005, .trap 0x8005)] := by unfold DecodesTo; decide

theorem test_decode_sys_2 : DecodesTo
    [(0xE3000000, .eret),
     (0xE3525800, .mfs 9 .coreid),
     (0xE3924000, .mts 9 .einfo),
     (0xE3D37285, .cpost 9 11 18 0x85),
     (0xE4132000, .cwait 9 18),
     (0xE4530005, .lninit 9 0x10005),
     (0xE4B24000, .lnext 12 18),
     (0xE4D30005, .dgst 9 0x10005)] := by unfold DecodesTo; decide

/-- R342, example 2, and R343's example: words whose header extends them. -/
theorem test_decode_extended :
    decodeWord (some 0b010010) (0x30000000 + 0x221A4) = .ok (.vadd 1 2 3 .f32 ⟨2, .rtz⟩)
    ∧ decodeWord (some 0b010110) (0x50000000 + 0x100040) = .ok (.cpy 4 0 0x101 0x180) := by decide

/-- Some words decode to nothing: a reserved class, a reserved opcode, a field that must be zero. -/
theorem test_decode_refuses : decodeTableWord 32 0xF0000000 = none ∧ decodeTableWord 32 0x9FC00069 = none
    ∧ decodeTableWord 32 0x90061101 = none ∧ decodeTableWord 32 0x80000001 = none := by decide

/-! ### Terms that no word encodes: one for each check of `legal` -/

theorem test_illformed_memory :
    Instr.wf (.amo .xor .f32 1 2 3 4) = false ∧ Instr.wf (.cas .pair 1 2 3 4) = false ∧ Instr.wf (.cas .pair 2 3 3 4) = false
    ∧ Instr.wf (.fence true .row 0xFF 1) = false ∧ Instr.wf (.fence true .row 1 0xFF) = false := by decide

theorem test_illformed_vector_arithmetic :
    Instr.wf (.vadd 1 2 3 .e4m3 ⟨0, .dyn⟩) = false ∧ Instr.wf (.vsub 1 2 3 .i32 ⟨0, .rtz⟩) = false
    ∧ Instr.wf (.vmul 1 2 3 .mi8 ⟨0, .dyn⟩) = false ∧ Instr.wf (.vdiv 1 2 3 .i32 ⟨0, .dyn⟩) = false
    ∧ Instr.wf (.vsqrt 1 2 .n8 ⟨0, .dyn⟩) = false ∧ Instr.wf (.vrcp 1 2 .i8 ⟨0, .dyn⟩) = false
    ∧ Instr.wf (.vrsq 1 2 .i8 ⟨0, .dyn⟩) = false ∧ Instr.wf (.vexp2 1 2 .i8 ⟨0, .dyn⟩) = false
    ∧ Instr.wf (.vlog2 1 2 .i8 ⟨0, .dyn⟩) = false ∧ Instr.wf (.vmin 1 2 3 .f32 ⟨0, .rup⟩) = false
    ∧ Instr.wf (.vmax 1 2 3 .e2m1 ⟨0, .dyn⟩) = false ∧ Instr.wf (.vclamp 1 2 3 .mi8 ⟨0, .dyn⟩) = false
    ∧ Instr.wf (.vabs 1 2 .f32 ⟨0, .rne⟩) = false ∧ Instr.wf (.vneg 1 2 .e5m2 ⟨0, .dyn⟩) = false
    ∧ Instr.wf (.vcmp 1 2 3 .i8 0 ⟨0, .dyn⟩) = false ∧ Instr.wf (.vcmp 1 2 3 .f32 0 ⟨0, .rdn⟩) = false := by decide

theorem test_illformed_vector_moves :
    Instr.wf (.vsel 1 2 3 .f32 ⟨0, .rna⟩) = false ∧ Instr.wf (.vperm 1 2 3 .f32 ⟨0, .rna⟩) = false
    ∧ Instr.wf (.vand 1 2 3 .f32 ⟨0, .rna⟩) = false ∧ Instr.wf (.vor 1 2 3 .f32 ⟨0, .rna⟩) = false
    ∧ Instr.wf (.vxor 1 2 3 .f32 ⟨0, .rna⟩) = false ∧ Instr.wf (.vmov 1 2 .f32 ⟨0, .rna⟩) = false
    ∧ Instr.wf (.vshl 1 2 3 .f32 ⟨0, .dyn⟩) = false ∧ Instr.wf (.vshr 1 2 3 .f32 ⟨0, .dyn⟩) = false
    ∧ Instr.wf (.vsra 1 2 3 .i32 ⟨0, .rne⟩) = false ∧ Instr.wf (.vbcast 1 2 3 .e3m2 ⟨0, .dyn⟩) = false
    ∧ Instr.wf (.vsplat 1 2 .f32 ⟨0, .rne⟩) = false ∧ Instr.wf (.vext 1 2 3 .e2m3) = false
    ∧ Instr.wf (.vins 1 2 3 .e2m1) = false ∧ Instr.wf (.viota 1 .f32 ⟨0, .dyn⟩) = false := by decide

theorem test_illformed_vector_conversions :
    Instr.wf (.vcvt 1 2 .i8 .i8 0 ⟨0, .dyn⟩) = false ∧ Instr.wf (.vcvt 1 2 .i8 .i64 0 ⟨0, .dyn⟩) = false
    ∧ Instr.wf (.vcvt 1 2 .i8 .i16 2 ⟨0, .dyn⟩) = false ∧ Instr.wf (.vcvt 1 2 .i8 .n8 0 ⟨0, .rne⟩) = false
    ∧ Instr.wf (.vqnt 1 2 3 .e4m3 0 ⟨1, .dyn⟩) = false ∧ Instr.wf (.vqnt 1 2 3 .f16 0 ⟨0, .dyn⟩) = false
    ∧ Instr.wf (.vdeq 1 2 3 .f32 0 ⟨0, .dyn⟩) = false ∧ Instr.wf (.vscan 1 2 3 .f32 .min ⟨0, .rne⟩) = false
    ∧ Instr.wf (.vred 1 2 3 .mi8 .add ⟨0, .dyn⟩) = false ∧ Instr.wf (.vwadd 1 2 3 .f32 0 ⟨0, .dyn⟩) = false
    ∧ Instr.wf (.vwmul 1 2 3 .i16 2 ⟨0, .dyn⟩) = false ∧ Instr.wf (.vwmac 1 2 3 .i16 1 ⟨0, .rne⟩) = false := by decide

theorem test_illformed_units_and_system :
    Instr.wf (.mcfg .i32 .i8 .i32 false false) = false ∧ Instr.wf (.mcfg .mi8 .i8 .i32 false false) = false
    ∧ Instr.wf (.mcfg .f32 .f32 .f32 true false) = false ∧ Instr.wf (.mcfg .f32 .f32 .f32 false true) = false
    ∧ Instr.wf (.mshift 5 4) = false ∧ Instr.wf (.cpy2d .scrScr 1 1 2 3) = false ∧ Instr.wf (.cut false 1 0 1) = false
    ∧ Instr.wf (.cutp false 1 0 0 1) = false ∧ Instr.wf (.bar false false .ctx) = false ∧ Instr.wf (.bar true false .die) = false
    ∧ Instr.wf (.bara .ctx) = false ∧ Instr.wf (.barw false .ctx) = false ∧ Instr.wf (.mts 1 .cycle) = false := by decide

/-! ### One step on a small state: the manual's worked examples -/

/-- What one word leaves, looked at. -/
def after {α : Type} [Inhabited α] (i : Instr) (s : State) (f : Regs → α) : α :=
  match exec i s with | .next t => f t.me.regs | _ => default
def vec (l : List Nat) : Vec := BitVec.ofNat 2048 (l.foldr (fun x n => x + 2 ^ 32 * n) 0)
def laneOf (r : Regs) (d : Fin 32) (i : Nat) : Nat := r.v[d].toNat / 2 ^ (32 * i) % 2 ^ 32

/-- R353: sums wrap. -/
theorem test_add_wraps : after (.add 1 1 2) (having ((({} : Regs).ws 1 0xFFFFFFFFFFFFFFFF).ws 2 3)) (·.rs 1) = 2 := by decide
/-- R10, R70: s0 stays zero. -/
theorem test_add_discards : after (.add 0 1 1) (having (({} : Regs).ws 1 5)) (·.rs 0) = 0 := by decide
/-- R379, example 9: the last of three lines. -/
theorem test_lih : after (.lih 1 0x2BCDEF) (having (({} : Regs).ws 1 0x48D159E26)) (·.rs 1) = 0x0123456789ABCDEF := by decide
/-- R399, example 2: NOT by a truth table. -/
theorem test_plog : after (.plog 3 1 1 0b0001) (having (({} : Regs).wp 1 true)) (·.rp 3) = false
    ∧ after (.plog 3 1 1 0b0001) (having {}) (·.rp 3) = true := by decide
/-- R258, example 2: INT_DIV0 with EINFO 0, the destination unchanged. -/
theorem test_div_zero : after (.div 1 2 3 false)
    (having { (({} : Regs).ws 1 9) with tvec := 64 }) (fun r => (r.rs 1, r.ecause, r.einfo)) = (9, 0x80 + 22, 0) := by decide
/-- R418, example 2. -/
theorem test_trap : after (.trap 7) (having { ({} : Regs) with tvec := 64 }) (fun r => (r.ecause, r.einfo)) = (0x99, 7) := by decide
/-- R103, example 3. -/
theorem test_vexp2 : after (.vexp2 1 2 .f32 ⟨0, .dyn⟩) (having (({} : Regs).wv 2 (vec [0x3F000000])))
    (fun r => (laneOf r 1 0, r.fpflg)) = (0x3FB504F3, 0x10) := by decide +kernel
/-- R424, example 4. -/
theorem test_viota : after (.viota 9 .i32 ⟨1, .dyn⟩) (having ((({} : Regs).wm 1 0b1010).wv 9 (vec [7, 7, 7, 7])))
    (fun r => [laneOf r 9 0, laneOf r 9 1, laneOf r 9 2, laneOf r 9 3]) = [7, 0, 7, 1] := by decide +kernel
/-- R425, example 5. -/
theorem test_vcmp : after (.vcmp 1 2 3 .f32 2 ⟨0, .dyn⟩) (having (({} : Regs).wv 2 (vec [0x7FC00000])))
    (fun r => (r.m[(1 : Fin 8)].getLsbD 0, r.fpflg)) = (false, 1) := by decide +kernel
/-- R428, example 6, over the first block. -/
theorem test_vqnt : after (.vqnt 4 3 7 .e4m3 0 ⟨0, .dyn⟩)
    (having (({} : Regs).wv 3 (vec ((List.range 32).map fun i => if i % 2 = 0 then 0x3F800000 else 0x40400000))))
    (fun r => (laneOf r 4 0, laneOf r 4 8, r.rs 7, r.fpflg)) = (0x7C707C70, 0, 0x78, 0) := by decide +kernel
/-- R430, example 8: the order of a reduction shows. -/
theorem test_vred : after (.vred 5 6 7 .f32 .add ⟨3, .dyn⟩)
    (having ((({} : Regs).wm 3 7).wv 6 (vec [0x4B800000, 0x3F800000, 0x3F800000])))
    (fun r => (laneOf r 5 0, laneOf r 5 1, r.fpflg)) = (0x4B800000, 0, 0x10)
  ∧ after (.vred 5 6 7 .f32 .add ⟨3, .dyn⟩)
    (having ((({} : Regs).wm 3 7).wv 6 (vec [0x3F800000, 0x3F800000, 0x4B800000])))
    (fun r => (laneOf r 5 0, r.fpflg)) = (0x4B800001, 0) := by decide +kernel
/-- R431, example 9: a lane gains a byte of the second quarter. -/
theorem test_vwadd : after (.vwadd 21 21 1 .n8 1 ⟨0, .dyn⟩)
    (having ((({} : Regs).wv 21 (vec [100])).wv 1 (BitVec.ofNat 2048 (0xC8 * 2 ^ 512)))) (laneOf · 21 0) = 300 := by decide +kernel
/-- R394, example 7. -/
theorem test_mshift :
    (match exec (.mshift 1 3) (busy { arr := { owner := some 0, latches := BitVec.ofNat 16384 (10 + 2 ^ 128 * 11 + 2 ^ 256 * 12 + 2 ^ 384 * 13 + 2 ^ 512 * 14) } }) with
      | .next t => t.myCore.arr.latches.toNat | _ => 0) = 13 + 2 ^ 128 * 10 + 2 ^ 256 * 11 + 2 ^ 384 * 12 + 2 ^ 512 * 14 := by decide +kernel
/-- R388, example 3: INT8 with FP32 is no pairing. -/
theorem test_mcfg_pairing :
    (match exec (.mcfg .i8 .i8 .f32 false false) (busy { ctxs := #v[{ regs := { tvec := 64 } }, {}, {}, {}], arr := { owner := some 0 } }) with
      | .next t => t.me.regs.ecause | _ => 0) = 0x80 + Cause.illMod.code := by decide

/-- R101, example 1: the four terms of an E4M3 group, truncated before the sum; the fold is exact. -/
def beat : Group :=
  ⟨0, none, BitVec.ofNat 16384 0x101F5858, BitVec.ofNat 8192 0x3838D858, .e4m3, .e4m3, false, 0, 0, false, 4, 0, none, none, none⟩
theorem test_group_sum : beat.sum 0 0 = (.val false 1 (-4), 0x10)
    ∧ foldSum .f32 false ⟨.rne, false, false⟩ 0 (beat.sum 0 0).1 = (0x3D800000, 0) := by decide +kernel
/-- R101, example 2: a group with no terms folds into a cell that holds −0. -/
theorem test_empty_group : ({ beat with lanes := 0 } : Group).sum 0 0 = (.zero false, 0)
    ∧ foldSum .f32 false ⟨.rne, false, false⟩ 0x80000000 (.zero false) = (0, 0)
    ∧ foldSum .f32 false ⟨.rdn, false, false⟩ 0x80000000 (.zero false) = (0x80000000, 0) := by decide +kernel
/-- R134, example 1, and R144, example 3: offsets, signs and multiplicities. -/
theorem test_orbits :
    let sym : Desc := ⟨0, 2, 7, [3, 3], [⟨0, false, [0, 1]⟩]⟩
    let asym : Desc := ⟨0, 2, 7, [3, 3], [⟨1, false, [0, 1]⟩]⟩
    let circ : Desc := ⟨0, 2, 7, [4, 4], [⟨2, false, [0, 1]⟩]⟩
    sym.packed = 6 ∧ sym.orbitRep [2, 1] = ⟨[1, 2], 1, 2, 4⟩ ∧ asym.packed = 3 ∧ asym.orbitRep [2, 0] = ⟨[0, 2], -1, 2, 1⟩
    ∧ (asym.orbitRep [1, 1]).sign = 0 ∧ circ.packed = 4 ∧ (circ.orbitRep [2, 3]).off = 1 ∧ (circ.orbitRep [3, 0]).off = 1 := by
  decide +kernel

end Sys2Proof.Tests
end

section
namespace Sys2Proof.Machine

/-! ### The array's events of a cycle and the contexts -/

/-- A context after events of the array: registers, their image, awaited registers and a landed trap may differ. -/
def Ctx.SameButLanded (c d : Ctx) : Prop :=
  { d with regs := c.regs, snap := c.snap, sb := c.sb, landFp := c.landFp } = c

theorem Ctx.SameButLanded.trans {c d e : Ctx} (h : c.SameButLanded d) (h' : d.SameButLanded e) : c.SameButLanded e :=
  Eq.trans (congrArg (fun x : Ctx => { x with regs := c.regs, snap := c.snap, sb := c.sb, landFp := c.landFp }) h' :) h

theorem Ctx.SameButLanded.task {c d : Ctx} (h : c.SameButLanded d) : d.task = c.task := (congrArg Ctx.task h :)
theorem Ctx.SameButLanded.strict {c d : Ctx} (h : c.SameButLanded d) : d.strict = c.strict := (congrArg Ctx.strict h :)
theorem Ctx.SameButLanded.lastIssue {c d : Ctx} (h : c.SameButLanded d) : d.lastIssue = c.lastIssue :=
  (congrArg Ctx.lastIssue h :)

theorem Ctx.land_sameButLanded (c : Ctx) (f : Regs → Regs) : c.SameButLanded (c.land f) := rfl

theorem Ctx.landArr_sameButLanded (c : Ctx) (f : Regs → Regs) : c.SameButLanded (c.landArr f) := by
  unfold Ctx.landArr
  generalize (c.undo.isSome || _) = b
  cases b
  · exact c.land_sameButLanded f
  · rfl

theorem Ctx.unlock_sameButLanded (c : Ctx) (r : RegName) : c.SameButLanded (c.unlock r) := rfl

theorem Ctx.landFlags_sameButLanded (c : Ctx) (fl : Flags) (ten : BitVec 7) : c.SameButLanded (c.landFlags fl ten) := by
  have h := c.landArr_sameButLanded fun r => r.orFlags fl
  simp only [Ctx.landFlags]
  split
  · exact h.trans rfl
  · exact h

/-- The clock, the executing context's name and every context, but for what lands in it, are as before. -/
structure ArrayMoved (s t : State) : Prop where
  rest : { t with cores := s.cores, agenda := s.agenda, nextOp := s.nextOp } = s
  ctx : ∀ k i, (s.ctx k i).SameButLanded (t.ctx k i)

theorem ArrayMoved.cycle {s t : State} (h : ArrayMoved s t) : t.cycle = s.cycle := (congrArg State.cycle h.rest :)
theorem ArrayMoved.cur {s t : State} (h : ArrayMoved s t) : t.cur = s.cur := (congrArg State.cur h.rest :)
theorem ArrayMoved.cix {s t : State} (h : ArrayMoved s t) : t.cix = s.cix := (congrArg State.cix h.rest :)

theorem ArrayMoved.me {s t : State} (h : ArrayMoved s t) : s.me.SameButLanded t.me := by
  unfold State.me; rw [h.cur, h.cix]; exact h.ctx ..

theorem arrayMoved_refl (s : State) : ArrayMoved s s := ⟨rfl, fun _ _ => rfl⟩

theorem ArrayMoved.trans {s t u : State} (h : ArrayMoved s t) (h' : ArrayMoved t u) : ArrayMoved s u where
  rest := (congrArg (fun x : State => { x with cores := s.cores, agenda := s.agenda, nextOp := s.nextOp }) h'.rest).trans h.rest
  ctx k i := (h.ctx k i).trans (h'.ctx k i)

/-- What the array's events change of the model's own lists touches no context. -/
theorem agenda_arrayMoved (s : State) (l : List (Nat × Instr)) (n : Nat) : ArrayMoved s { s with agenda := l, nextOp := n } :=
  ⟨rfl, fun _ _ => rfl⟩

/-- An update of a core's array and accumulator store. -/
theorem modCore_arrayMoved (s : State) (n : Nat) (a : Core → Arr) (m : Core → Cells 32) :
    ArrayMoved s (s.modCore n fun c => { c with arr := a c, acc := m c }) where
  rest := rfl
  ctx k i := by
    unfold State.ctx
    rw [State.core_modCore]
    split
    · next h => subst h; rfl
    · rfl

theorem modCtx_arrayMoved (s : State) (n : Nat) (j : Fin 4) (f : Ctx → Ctx) (hf : ∀ c : Ctx, c.SameButLanded (f c)) :
    ArrayMoved s (s.modCtx n j f) where
  rest := rfl
  ctx k i := by
    by_cases h : k ≠ n ∨ i ≠ j
    · rw [State.ctx_modCtx_ne s h]; rfl
    · obtain ⟨rfl, rfl⟩ : k = n ∧ i = j := by simpa using h
      rw [State.ctx_modCtx_self]; exact hf _

theorem recordFold_arrayMoved (s : State) (core f : Nat) (m : Cells 32) (cells : List Nat) (fl : Flags) (ten : BitVec 7) :
    ArrayMoved s (s.recordFold core f m cells fl ten) :=
  have h := modCore_arrayMoved s core (fun c => { c.arr with
    folds := c.arr.folds ++ [⟨s.nextOp, f + 6, cells.map fun a => (a, cget (s.core core).acc a), fl, ten⟩] }) fun _ => m
  ⟨h.rest, h.ctx⟩

theorem foldReady_arrayMoved (s : State) (core f : Nat) (fp : BitVec 16) (w : Window) :
    ArrayMoved s (s.foldReady core f fp w) := by
  unfold State.foldReady
  dsimp only
  split
  · exact arrayMoved_refl s
  · exact (modCore_arrayMoved s core ..).trans (recordFold_arrayMoved ..)

theorem execGroupReady_arrayMoved (k i : Nat) (s : State) : ∃ t, execGroupReady k i s = .next t ∧ ArrayMoved s t := by
  unfold execGroupReady
  dsimp only
  split
  · exact ⟨_, rfl, modCore_arrayMoved s k ..⟩
  · exact ⟨s, rfl, arrayMoved_refl s⟩

theorem execMbeatAFold_arrayMoved (k i : Nat) (s : State) : ∃ t, execMbeatAFold k i s = .next t ∧ ArrayMoved s t := by
  unfold execMbeatAFold
  split
  · split
    · exact ⟨_, rfl, foldReady_arrayMoved ..⟩
    · exact ⟨s, rfl, arrayMoved_refl s⟩
  · exact ⟨s, rfl, arrayMoved_refl s⟩

theorem execFoldRetire_arrayMoved (k i : Nat) (s : State) : ∃ t, execFoldRetire k i s = .next t ∧ ArrayMoved s t := by
  unfold execFoldRetire
  split
  · next fr _ =>
    refine ⟨_, rfl, ?_⟩
    split
    · exact (modCore_arrayMoved s k ..).trans (modCtx_arrayMoved _ _ _ _ fun c => c.landFlags_sameButLanded ..)
    · exact modCore_arrayMoved s k ..
  · exact ⟨s, rfl, arrayMoved_refl s⟩

theorem execMdrainRetire_arrayMoved (k : Nat) (x : Fin 4) (t : Fin 16) (v : Tile) (fl : BitVec 7) (s : State) :
    ∃ u, execMdrainRetire k x t v fl s = .next u ∧ ArrayMoved s u := by
  unfold execMdrainRetire
  split
  · exact ⟨s, rfl, arrayMoved_refl s⟩
  · exact ⟨_, rfl, (modCore_arrayMoved s k ..).trans (modCtx_arrayMoved _ _ _ _ fun c =>
      ((c.landArr_sameButLanded _).trans (Ctx.unlock_sameButLanded _ _)).trans (Ctx.landFlags_sameButLanded ..))⟩

theorem arrayEvent_arrayMoved (s : State) (e : Instr) : ArrayMoved s (s.arrayEvent e) := by
  have of (r : Res) : (∃ t, r = .next t ∧ ArrayMoved s t) → ArrayMoved s (match r with | .next t => t | _ => s) := by
    rintro ⟨t, rfl, h⟩; exact h
  unfold State.arrayEvent
  split
  · exact of _ (execGroupReady_arrayMoved ..)
  · exact of _ (execMbeatAFold_arrayMoved ..)
  · exact of _ (execFoldRetire_arrayMoved ..)
  · exact of _ (execMdrainRetire_arrayMoved ..)
  · exact arrayMoved_refl s

theorem foldl_arrayMoved {α : Type} (f : State → α → State) (hf : ∀ s x, ArrayMoved s (f s x)) :
    ∀ (l : List α) (s : State), ArrayMoved s (l.foldl f s)
  | [], s => arrayMoved_refl s
  | x :: l, s => (hf s x).trans (foldl_arrayMoved f hf l (f s x))

theorem arrayNow_arrayMoved (s : State) (core : Nat) : ArrayMoved s (s.arrayNow core) :=
  (agenda_arrayMoved s _ s.nextOp).trans (foldl_arrayMoved _ (fun s (e : Nat × Instr) => arrayEvent_arrayMoved s e.2) ..)

theorem nowFor_arrayMoved (s : State) : ArrayMoved s s.nowFor := by
  unfold State.nowFor
  split
  · exact arrayNow_arrayMoved ..
  · exact arrayMoved_refl s

theorem replayShadow_arrayMoved (s : State) (core t1 : Nat) : ArrayMoved s (s.replayShadow core t1) := by
  unfold State.replayShadow
  split
  · exact arrayMoved_refl s
  · exact (modCore_arrayMoved s core ..).trans
      (foldl_arrayMoved _ (fun s (e : Nat × Instr) => agenda_arrayMoved s (insertDue (t1 + e.1) e.2 s.agenda) s.nextOp) ..)

end Sys2Proof.Machine
end

section
namespace Sys2Proof.Machine

/-! ### Choosing contexts (R62) -/

/-- In a list whose keys rise, the first that meets a condition is the one of least key that does. -/
theorem find?_eq_some_iff_least {α : Type} (key : α → Nat) (f : α → Bool) (p : α) :
    ∀ {l : List α}, l.Pairwise (fun a b => key a < key b) →
      (l.find? f = some p ↔ p ∈ l ∧ f p = true ∧ ∀ j ∈ l, f j = true → key p ≤ key j)
  | [], _ => by simp
  | x :: l, h => by
    obtain ⟨hx, hl⟩ := List.pairwise_cons.mp h
    by_cases hf : f x = true
    · rw [List.find?_cons_of_pos hf, Option.some.injEq]
      constructor
      · rintro rfl
        refine ⟨List.mem_cons_self .., hf, fun j hj _ => ?_⟩
        rcases List.mem_cons.mp hj with rfl | hj
        · exact le_rfl
        · exact (hx j hj).le
      · rintro ⟨hp, -, hle⟩
        rcases List.mem_cons.mp hp with rfl | hp
        · rfl
        · exact absurd (hle x (List.mem_cons_self ..) hf) (hx p hp).not_ge
    · rw [List.find?_cons_of_neg hf, find?_eq_some_iff_least key f p hl]
      constructor
      · rintro ⟨hp, hfp, hle⟩
        refine ⟨List.mem_cons_of_mem _ hp, hfp, fun j hj hfj => ?_⟩
        rcases List.mem_cons.mp hj with rfl | hj
        · exact absurd hfj hf
        · exact hle j hj hfj
      · rintro ⟨hp, hfp, hle⟩
        rcases List.mem_cons.mp hp with rfl | hp
        · exact absurd hfp hf
        · exact ⟨hp, hfp, fun j hj => hle j (List.mem_cons_of_mem _ hj)⟩

/-- Round-robin goes through all contexts. -/
theorem mem_roundRobin : ∀ r j : Fin 4, j ∈ [r + 1, r + 2, r + 3, r] := by decide

/-- Round-robin takes the candidate that follows the pointer most closely, the pointer's own last. -/
theorem nextCtx_eq_some_iff (r p : Fin 4) (l : List (Fin 4)) :
    nextCtx r l = some p ↔ p ∈ l ∧ ∀ j ∈ l, (p - r - 1).val ≤ (j - r - 1).val := by
  have rising : ∀ r : Fin 4, [r + 1, r + 2, r + 3, r].Pairwise fun a b => (a - r - 1).val < (b - r - 1).val := by decide
  unfold nextCtx
  rw [find?_eq_some_iff_least (fun j : Fin 4 => (j - r - 1).val) _ p (rising r)]
  simp only [mem_roundRobin r, true_and, forall_const, List.contains_iff_mem]

/-- The second context is the first after the primary that may merge with it. -/
theorem secondOf_eq_some_iff (p q : Fin 4) (ok : Fin 4 → Bool) : secondOf p ok = some q ↔ q ≠ p ∧ ok q = true
    ∧ ∀ j, j ≠ p → ok j = true → (q - p).val ≤ (j - p).val := by
  have others : ∀ p j : Fin 4, j ∈ [p + 1, p + 2, p + 3] ↔ j ≠ p := by decide
  have rising : ∀ p : Fin 4, [p + 1, p + 2, p + 3].Pairwise fun a b => (a - p).val < (b - p).val := by decide
  unfold secondOf
  rw [find?_eq_some_iff_least (fun j : Fin 4 => (j - p).val) ok q (rising p)]
  simp only [others p]

/-- Nothing is chosen of nothing. -/
theorem nextCtx_eq_none_iff (r : Fin 4) (l : List (Fin 4)) : nextCtx r l = none ↔ l = [] := by
  unfold nextCtx
  rw [List.find?_eq_none, List.eq_nil_iff_forall_not_mem]
  simp only [mem_roundRobin r, List.contains_iff_mem, forall_const]

/-- In a falling list, what the first element gives that gives anything is what the greatest one gives. -/
theorem findSome?_eq_some_iff_greatest {β : Type} {n : Nat} (f : Fin n → Option β) (b : β) :
    ∀ {l : List (Fin n)}, l.Pairwise (fun x y => y < x) →
      (l.findSome? f = some b ↔ ∃ x ∈ l, f x = some b ∧ ∀ y ∈ l, x < y → f y = none)
  | [], _ => by simp
  | x :: l, h => by
    obtain ⟨hx, hl⟩ := List.pairwise_cons.mp h
    cases hf : f x with
    | some c =>
      rw [List.findSome?_cons_of_isSome (by rw [hf]; rfl), hf]
      constructor
      · intro hb
        refine ⟨x, List.mem_cons_self .., hf.trans hb, fun y hy hxy => ?_⟩
        rcases List.mem_cons.mp hy with rfl | hy
        · exact absurd hxy (lt_irrefl _)
        · exact absurd hxy (hx y hy).not_gt
      · rintro ⟨y, hy, hfy, hle⟩
        rcases List.mem_cons.mp hy with rfl | hy
        · exact hf.symm.trans hfy
        · exact absurd (hf.symm.trans (hle x (List.mem_cons_self ..) (hx y hy))) (by simp)
    | none =>
      rw [List.findSome?_cons_of_isNone (by rw [hf]; rfl), findSome?_eq_some_iff_greatest f b hl]
      constructor
      · rintro ⟨y, hy, hfy, hle⟩
        refine ⟨y, List.mem_cons_of_mem _ hy, hfy, fun z hz hyz => ?_⟩
        rcases List.mem_cons.mp hz with rfl | hz
        · exact hf
        · exact hle z hz hyz
      · rintro ⟨y, hy, hfy, hle⟩
        rcases List.mem_cons.mp hy with rfl | hy
        · exact absurd (hf.symm.trans hfy) (by simp)
        · exact ⟨y, hy, hfy, fun z hz => hle z (List.mem_cons_of_mem _ hz)⟩

/-- The primary context is of the highest class among the ready ones, by that class's round-robin (R62). -/
theorem primaryOf_eq_some_iff (rr : Vector (Fin 4) 4) (cls : Fin 4 → Nat) (ready : List (Fin 4)) (p k : Fin 4)
    (hc : ∀ j, cls j ≤ 3) :
    primaryOf rr cls ready = some (p, k) ↔ p ∈ ready ∧ cls p = k.val ∧ (∀ j ∈ ready, cls j ≤ cls p)
      ∧ ∀ j ∈ ready, cls j = cls p → (p - rr[k] - 1).val ≤ (j - rr[k] - 1).val := by
  have pick (x : Fin 4) : (nextCtx rr[x] (ready.filter fun i => cls i == x.val)).map (fun i => (i, x)) = some (p, k)
      ↔ x = k ∧ nextCtx rr[k] (ready.filter fun i => cls i == k.val) = some p := by
    constructor
    · intro h
      obtain ⟨i, hi, he⟩ := Option.map_eq_some_iff.mp h
      obtain ⟨rfl, rfl⟩ := Prod.mk.injEq .. ▸ he
      exact ⟨rfl, hi⟩
    · rintro ⟨rfl, h⟩; rw [h]; rfl
  have nobody (x : Fin 4) : (nextCtx rr[x] (ready.filter fun i => cls i == x.val)).map (fun i => (i, x)) = none
      ↔ ∀ j ∈ ready, cls j ≠ x.val := by
    rw [Option.map_eq_none_iff, nextCtx_eq_none_iff, List.filter_eq_nil_iff]
    simp only [beq_iff_eq, ne_eq]
  have every : ∀ x : Fin 4, x ∈ ([3, 2, 1, 0] : List (Fin 4)) := by decide
  unfold primaryOf
  rw [findSome?_eq_some_iff_greatest _ _ (by decide)]
  simp only [every, pick, nobody, true_and, forall_const]
  constructor
  · rintro ⟨x, ⟨rfl, hn⟩, hle⟩
    obtain ⟨hp, hl⟩ := (nextCtx_eq_some_iff ..).mp hn
    obtain ⟨hpr, hpx⟩ : p ∈ ready ∧ cls p = x.val := by simpa using hp
    refine ⟨hpr, hpx, fun j hj => ?_, fun j hj he => hl j (by simpa [hj] using he.trans hpx)⟩
    by_contra hlt
    exact hle ⟨cls j, Nat.lt_succ_of_le (hc j)⟩ (Fin.lt_def.mpr (hpx ▸ Nat.lt_of_not_le hlt)) j hj rfl
  · rintro ⟨hpr, hpk, hle, hl⟩
    refine ⟨k, ⟨rfl, (nextCtx_eq_some_iff ..).mpr ⟨by simp [hpr, hpk], fun j hj => ?_⟩⟩, fun y hy j hj he => ?_⟩
    · obtain ⟨hjr, hjk⟩ : j ∈ ready ∧ cls j = k.val := by simpa using hj
      exact hl j hjr (hjk.trans hpk.symm)
    · have := hle j hj
      have := Fin.lt_def.mp hy
      omega

theorem primaryOf_nil (rr : Vector (Fin 4) 4) (cls : Fin 4 → Nat) : primaryOf rr cls [] = none := by
  simp [primaryOf, nextCtx]

/-- Words of a class stand in a bundle. -/
theorem hasClass_iff (ws : List BWord) (k : Nat) : hasClass ws k = true ↔ ∃ w ∈ ws, classOf w.slot.code = k := by
  simp [hasClass]

theorem classOf_lt (w : Code) : classOf w < 8 := (fld w 28 3).isLt

/-- No class has words in both of two bundles. -/
theorem classes_apart_iff (a b : List BWord) : (List.range 8).all (fun k => !(hasClass a k && hasClass b k)) = true
    ↔ ∀ w ∈ a, ∀ z ∈ b, classOf w.slot.code ≠ classOf z.slot.code := by
  have hand (k : Nat) : (!(hasClass a k && hasClass b k)) = true
      ↔ ¬ ((∃ w ∈ a, classOf w.slot.code = k) ∧ ∃ z ∈ b, classOf z.slot.code = k) := by
    rw [← hasClass_iff, ← hasClass_iff, ← Bool.and_eq_true, Bool.not_eq_true', Bool.not_eq_true]
  simp only [List.all_eq_true, List.mem_range, hand]
  constructor
  · exact fun h w hw z hz he => h _ (classOf_lt w.slot.code) ⟨⟨w, hw, rfl⟩, z, hz, he.symm⟩
  · rintro h k - ⟨⟨w, hw, rfl⟩, z, hz, he⟩
    exact h w hw z hz he.symm

/-- The second bundle may merge with the first (R62, R173). -/
theorem mergeOk_iff (n : Nat) (a b : Look) : mergeOk n a b = true ↔ ∃ x wa la y wb lb, a = .bundle x wa la ∧ b = .bundle y wb lb
    ∧ (∀ w ∈ wa, ∀ z ∈ wb, classOf w.slot.code ≠ classOf z.slot.code) ∧ (∀ w ∈ wa ++ wb, Instr.isFence w.slot.instr = false)
    ∧ (∀ z ∈ wb, classOf z.slot.code ≠ 4) ∧ n + entriesOf la + entriesOf lb ≤ 16 := by
  have no_fence (wa wb : List BWord) : (!(wa ++ wb).any fun w => Instr.isFence w.slot.instr) = true
      ↔ ∀ w ∈ wa ++ wb, Instr.isFence w.slot.instr = false := by
    rw [Bool.not_eq_true', List.any_eq_false]
    simp only [Bool.not_eq_true]
  have no_mtx (wb : List BWord) : (!hasClass wb 4) = true ↔ ∀ z ∈ wb, classOf z.slot.code ≠ 4 := by
    rw [Bool.not_eq_true', ← Bool.not_eq_true, hasClass_iff]
    simp only [not_exists, not_and, ne_eq]
  constructor
  · intro h
    unfold mergeOk at h
    split at h
    · next x wa la y wb lb =>
      simp only [Bool.and_eq_true, classes_apart_iff, no_fence, no_mtx, decide_eq_true_eq] at h
      obtain ⟨⟨⟨hc, hf⟩, h4⟩, hn⟩ := h
      exact ⟨x, wa, la, y, wb, lb, rfl, rfl, hc, hf, h4, hn⟩
    · cases h
  · rintro ⟨x, wa, la, y, wb, lb, rfl, rfl, hc, hf, h4, hn⟩
    simp only [mergeOk, Bool.and_eq_true, classes_apart_iff, no_fence, no_mtx, decide_eq_true_eq]
    exact ⟨⟨⟨hc, hf⟩, h4⟩, hn⟩

/-! ### The order of words (R63) -/

theorem insertWord_perm (x : Fin 4 × Slot) : ∀ l, (insertWord x l).Perm (x :: l)
  | [] => List.Perm.refl _
  | y :: l => by
    unfold insertWord
    split
    · exact ((insertWord_perm x l).cons y).trans (List.Perm.swap ..)
    · exact List.Perm.refl _

/-- Words whose ranks do not fall. -/
def RankSorted (l : List (Fin 4 × Slot)) : Prop :=
  l.Pairwise fun x y => Instr.rank x.2.instr x.2.code ≤ Instr.rank y.2.instr y.2.code

theorem insertWord_sorted (x : Fin 4 × Slot) : ∀ l, RankSorted l → RankSorted (insertWord x l)
  | [], _ => List.pairwise_singleton ..
  | y :: l, h => by
    obtain ⟨hy, hl⟩ := List.pairwise_cons.mp h
    unfold insertWord
    split
    · next hyx =>
      refine List.pairwise_cons.mpr ⟨fun z hz => ?_, insertWord_sorted x l hl⟩
      rcases List.mem_cons.mp ((insertWord_perm x l).mem_iff.mp hz) with rfl | hz
      · exact hyx
      · exact hy z hz
    · next hyx =>
      refine List.pairwise_cons.mpr ⟨fun z hz => ?_, h⟩
      rcases List.mem_cons.mp hz with rfl | hz
      · omega
      · have := hy z hz; omega

theorem sortWords_spec (l : List (Fin 4 × Slot)) : (sortWords l).Perm l ∧ RankSorted (sortWords l) := by
  have fold : ∀ l acc : List (Fin 4 × Slot), RankSorted acc →
      (l.foldl (fun acc x => insertWord x acc) acc).Perm (l ++ acc)
        ∧ RankSorted (l.foldl (fun acc x => insertWord x acc) acc) := by
    intro l
    induction l with
    | nil => exact fun acc h => ⟨List.Perm.refl _, h⟩
    | cons x l ih =>
      intro acc h
      obtain ⟨hp, hs⟩ := ih _ (insertWord_sorted x acc h)
      exact ⟨hp.trans (((insertWord_perm x acc).append_left l).trans List.perm_middle), hs⟩
  simpa [sortWords] using fold l [] List.Pairwise.nil

/-- Where no word is far or waits, the words of a cycle perform by their ranks. -/
theorem ordered_eq_sortWords (s : State) (core : Nat) (l : List (Fin 4 × Slot))
    (hf : ∀ x ∈ l, State.farFe { s with cur := core, cix := x.1 } x.2.instr = false)
    (hw : ∀ x ∈ l, Instr.isWait x.2.instr = false) : s.ordered core l = sortWords l := by
  have early (x : Fin 4 × Slot) : (l.any fun y => y.1 == x.1 && Instr.isWait y.2.instr) = false := by
    simp only [List.any_eq_false]
    intro y hy
    simp [hw y hy]
  have no_far : l.filter (fun x => State.farFe { s with cur := core, cix := x.1 } x.2.instr) = [] :=
    List.filter_eq_nil_iff.mpr fun x hx => by simp [hf x hx]
  have all_near : l.filter (fun x => !State.farFe { s with cur := core, cix := x.1 } x.2.instr) = l :=
    List.filter_eq_self.mpr fun x hx => by simp [hf x hx]
  simp [State.ordered, early, no_far, all_near]


/-! ### A bundle of one word (R326 to R332) -/

theorem bundleTail_eq_nil {l : List Code} (h : ∀ v, l[0]? = some v → v.getLsbD 31 = true ∨ ∀ y ∈ l, y = 0) :
    bundleTail l = [] := by
  cases l with
  | nil => rfl
  | cons v t =>
    rcases h v rfl with hv | hv
    · simp [bundleTail, Code.starts, hv]
    · simp [bundleTail, hv v (List.mem_cons_self ..)]

theorem lowestTwice_eq_none {l : List Nat} (h : l.Nodup) : lowestTwice l = none := by
  induction l with
  | nil => rfl
  | cons k t ih =>
    obtain ⟨hk, ht⟩ := List.nodup_cons.mp h
    simp [lowestTwice, ih ht, hk]

theorem dupFault_single {nl : Nat} {w : BWord} (h : ((Instr.writes nl w.slot.instr).filterMap dupKey).Nodup) :
    dupFault nl [] [w] = none := by
  simp [dupFault, lowestTwice_eq_none h]

/-- A word of a class that no slot holds does not decode (R326). -/
theorem classOf_pos_of_decodeWord {x : Ext} {w : Code} {i : Instr} (h : decodeWord x w = .ok i) : 0 < classOf w := by
  rcases Nat.eq_zero_or_pos (classOf w) with h0 | h0
  · simp [decodeWord, h0] at h
  · exact h0

/-- A bundle of one word has no fault of framing: what follows it starts a bundle or is padding. -/
theorem bundleFault_single {w : Code} {after : List Code} (hc : 0 < classOf w)
    (h : ∀ v, after[0]? = some v → v.getLsbD 31 = true ∨ ∀ y ∈ after, y = 0) : bundleFault [w] after = none := by
  have hdr : headerOf [w] = none := by simp [headerOf, hc.ne']
  have pad : (after.headD 1 == 0 && after.any (· != 0)) = false := by
    cases after with
    | nil => rfl
    | cons v t =>
      rcases h v rfl with hv | hv
      · have : (v == 0) = false := beq_false_of_ne (by rintro rfl; simp at hv)
        simp only [List.headD_cons, this, Bool.false_and]
      · have : (v :: t).any (· != 0) = false := List.any_eq_false.mpr fun y hy => by simp [hv y hy]
        rw [this, Bool.and_false]
  have eret (hs : isEret w = true) : isTransfer w = false := by
    have hs : classOf w = 6 ∧ opOf w = 0x0C := by simpa [isEret] using hs
    simp [isTransfer, hs.1]
  have raws : rawWords [w] = [⟨0, w, 0, none⟩] := by simp [rawWords, hdr]
  simp only [bundleFault, raws, hdr, pad]
  cases he : isEret w
  · simp [he]
  · simp [eret he]

theorem decodeBundle_single {c : Ctx} {pkt : List Code} {w : Code} {i : Instr} (hw : pkt[wordIx c.pc]? = some w)
    (hn : ∀ v, pkt[wordIx c.pc + 1]? = some v → v.getLsbD 31 = true ∨ ∀ y ∈ pkt.drop (wordIx c.pc + 1), y = 0)
    (hd : decodeWord none w = .ok i) (hdup : ((Instr.writes c.nl i).filterMap dupKey).Nodup)
    (hl : ∀ p d, i = .lnext p d → c.lnextBad d = false) (hdel : c.delay = none) :
    c.decodeBundle pkt = .ok [⟨⟨0, w, i⟩, 0⟩] := by
  have hc := classOf_pos_of_decodeWord hd
  have after : ∀ v, (pkt.drop (wordIx c.pc + 1))[0]? = some v
      → v.getLsbD 31 = true ∨ ∀ y ∈ pkt.drop (wordIx c.pc + 1), y = 0 := by
    intro v hv; exact hn v (by simpa using hv)
  have bundle : bundleIn pkt c.pc = [w] := by
    obtain ⟨hlt, hget⟩ := List.getElem?_eq_some_iff.mp hw
    rw [bundleIn, List.drop_eq_getElem_cons hlt]
    simp only [hget, bundleTail_eq_nil after]
  have raws : rawWords [w] = [⟨0, w, 0, none⟩] := by simp [rawWords, headerOf, hc.ne']
  have words : decodeWords c [⟨0, w, 0, none⟩] = .ok [⟨⟨0, w, i⟩, 0⟩] := by
    rw [decodeWords, hd]
    dsimp only
    rw [if_neg]
    · rfl
    · rw [Bool.not_eq_true]
      split
      · exact hl _ _ rfl
      · rfl
  have delay : c.delayFault [⟨0, w, 0, none⟩] = none := by simp [Ctx.delayFault, hdel]
  have order : orderFault 0 [⟨0, w, 0, none⟩] = none := by simp [orderFault, hc.not_ge]
  simp only [Ctx.decodeBundle, bundle, raws, bundleFault_single hc after, order, words,
    dupFault_single (w := ⟨⟨0, w, i⟩, 0⟩) hdup, delay, List.length_singleton]

end Sys2Proof.Machine
end

section
namespace Sys2Proof.Machine

/-! ### Steps (log 4, log 5) -/

theorem step_of_due {s : State} {due : Nat} {e : Instr} {l : List (Nat × Instr)} (h : s.agenda = (due, e) :: l)
    (hd : due ≤ s.cycle) : step s = exec e { s with agenda := l } := by
  simp [step, h, hd]

theorem step_of_nothing_due {s : State} (h : ∀ e ∈ s.agenda, s.cycle < e.1) : step s = s.work := by
  unfold step
  split
  · rfl
  · next due e l he =>
    rw [if_neg]
    exact Nat.not_le.mpr (h (due, e) (by rw [he]; exact List.mem_cons_self ..))

/-- A core without a move, whose cycle is not withheld, has its issue stage. -/
theorem step_of_issue {s : State} {core : Nat} {rest : List Nat} (h : ∀ e ∈ s.agenda, s.cycle < e.1)
    (ht : s.todo = core :: rest) (hm : s.coreMove core = none) (hw : s.withheld core = false) :
    step s = State.issueCore { s with todo := rest } core := by
  have hw : State.withheld { s with todo := rest } core = false := hw
  rw [step_of_nothing_due h, State.work, ht]
  simp only [hm, hw, Bool.false_eq_true, if_false]

/-! ### What the issue stage finds -/

/-- A context without a replay to start, or without a task, is looked at as it stands. -/
theorem startReplay_eq_self {s : State} {core : Nat} {i : Fin 4}
    (h : (s.ctx core i).replay = false ∨ (s.ctx core i).task = false) : s.startReplay core i = s := by
  unfold State.startReplay
  rcases h with h | h <;> simp [h, Ctx.between]

theorem primed_eq_self {s : State} {core : Nat} {i : Fin 4} (h : (s.ctx core i).replay = false) : s.primed core i = s := by
  simp [State.primed, h]

theorem primed_task (s : State) (core : Nat) (i : Fin 4) : ((s.primed core i).ctx core i).task = (s.ctx core i).task := by
  unfold State.primed
  split
  · rw [State.ctx_modCtx_self]
    split
    · exact ((replayShadow_arrayMoved s core s.cycle).ctx core i).task
    · rfl
  · rfl

/-- A context without a task has no bundle. -/
theorem look_of_idle {s : State} {core : Nat} {i : Fin 4} (h : (s.ctx core i).task = false) : s.look core i = .no := by
  have ht : (State.nowFor { s.primed core i with cur := core, cix := i }).me.task = false :=
    (nowFor_arrayMoved _).me.task.trans ((primed_task s core i).trans h :)
  simp [State.look, State.lookNow, Ctx.between, ht]

/-- A bundle of one word that is free to issue and may go. -/
theorem look_of_word {s : State} {core : Nat} {i : Fin 4} {pkt : List Code} {b : Slot} {now : State}
    (hr : (s.ctx core i).replay = false) (hnow : now = State.nowFor { s with cur := core, cix := i })
    (hbt : now.me.between s.cycle = true) (hfp : now.me.landFp = none) (hbar : now.me.landBar = [])
    (hbad : now.me.badFetch = none) (hpkt : now.me.packet = some (packetOf now.me.pc, pkt))
    (hpc : now.me.pc.toNat % 4 = 0) (hst : (pkt.getD (wordIx now.me.pc) 0).getLsbD 31 = true)
    (hdec : now.me.decodeBundle pkt = .ok [⟨b, 0⟩]) (htree : now.me.treeLocked s.cycle [⟨b, 0⟩] = false)
    (hfree : now.free [⟨b, 0⟩] = true) (hgo : now.judgeWord b = .go) :
    s.look core i = .bundle .go [⟨b, 0⟩] [⟨b, 0⟩] := by
  have hcyc : now.cycle = s.cycle := by rw [hnow]; exact (nowFor_arrayMoved _).cycle
  have words : now.me.nextWords = some (.ok [⟨b, 0⟩]) := by
    simp only [Ctx.nextWords, hfp, hbar, hbad, Ctx.pktOf, hpkt, if_true, Option.map_some, Code.starts, hst, hpc, hdec,
      Bool.true_and, BEq.rfl]
  have live : now.liveWords [⟨b, 0⟩] = [⟨b, 0⟩] := by simp [State.liveWords]
  have go : bundleVerdict [Verdict.go] = .go := rfl
  rw [State.look, primed_eq_self hr, State.lookNow, ← hnow]
  simp only [hcyc, hbt, words, htree, live, hfree, List.map_singleton, hgo, go, Bool.not_true, Bool.false_eq_true, if_false, if_true]

/-! ### Classes -/

theorem ownClass_le (c : Ctx) : c.ownClass ≤ 3 := by
  unfold Ctx.ownClass
  split
  · exact le_rfl
  · exact Nat.le_of_lt_succ c.regs.cls.isLt

theorem topClass_le {n : Nat} {l : List Nat} (h : ∀ x ∈ l, x ≤ n) : topClass l ≤ n := by
  have fold : ∀ (l : List Nat) (m : Nat), m ≤ n → (∀ x ∈ l, x ≤ n) → l.foldl max m ≤ n := by
    intro l
    induction l with
    | nil => exact fun m hm _ => hm
    | cons x l ih =>
      exact fun m hm hl => ih _ (max_le hm (hl x (List.mem_cons_self ..))) fun y hy => hl y (List.mem_cons_of_mem _ hy)
  exact fold l 0 (Nat.zero_le n) h

theorem waitClasses_le (s : State) (k : BarKey) : ∀ x ∈ s.waitClasses k, x ≤ 3 := by
  intro x hx
  obtain ⟨⟨n, c⟩, -, hx⟩ := List.mem_flatMap.mp hx
  obtain ⟨y, -, hy⟩ := List.mem_filterMap.mp hx
  split at hy
  · split at hy
    · exact Option.some.inj hy ▸ ownClass_le y
    · cases hy
  · cases hy

theorem inherited_le (s : State) (vf i : Nat) : s.inherited vf i ≤ 3 := by
  unfold State.inherited
  dsimp only
  split
  · exact Nat.zero_le _
  · split
    · exact Nat.zero_le _
    · refine topClass_le fun x hx => ?_
      obtain ⟨l, -, hx⟩ := List.mem_flatMap.mp hx
      exact waitClasses_le s _ x hx

theorem effClass_le (s : State) (core : Nat) (i : Fin 4) : s.effClass core i ≤ 3 := by
  refine max_le (ownClass_le _) ?_
  split
  · exact Nat.zero_le _
  · exact inherited_le ..

/-! ### Marks -/

/-- Marking changes nothing of a core but its contexts. -/
theorem mark_core_rest (s : State) (core : Nat) (i : Fin 4) (l : Look) (k : Nat) :
    { (s.mark core i l).core k with ctxs := (s.core k).ctxs } = s.core k := by
  have aging : { (match execAgingPromotion core i s with | .next t => t | _ => s : State).core k with
      ctxs := (s.core k).ctxs } = s.core k := by
    unfold execAgingPromotion
    dsimp only
    split
    · next h =>
      split at h
      · cases h; exact State.core_modCtx_rest ..
      · cases h; rfl
    · rfl
  unfold State.mark
  split
  · exact State.core_modCtx_rest ..
  · rfl
  · exact aging

theorem foldl_mark_core_rest (core : Nat) (look : Fin 4 → Look) (k : Nat) : ∀ (l : List (Fin 4)) (s : State),
    { (l.foldl (fun t j => t.mark core j (look j)) s).core k with ctxs := (s.core k).ctxs } = s.core k
  | [], _ => rfl
  | j :: l, s => Eq.trans (congrArg (fun c : Core => { c with ctxs := (s.core k).ctxs })
      (foldl_mark_core_rest core look k l (s.mark core j (look j))) :) (mark_core_rest s core j (look j) k)

/-- One cycle of the issue stage of a core where no replay starts. -/
theorem issueCore_eq {s : State} {core : Nat} (h : ∀ i, (s.ctx core i).replay = false ∨ (s.ctx core i).task = false)
    {m : State} (hm : m = allCtx.foldl (fun t j => t.mark core j (s.look core j)) s) :
    let chosen := primaryOf (s.core core).rr (m.effClass core) (allCtx.filter fun j => (s.look core j).ready)
    (chosen = none → s.issueCore core = .next m)
    ∧ ∀ p k, chosen = some (p, k) → s.issueCore core
      = (m.modCore core fun c => { c with rr := c.rr.set k p }).issueAll core (p, s.look core p)
          ((secondOf p fun y => mergeOk (s.core core).entriesUsed (s.look core p) (s.look core y)).map fun y =>
            (y, s.look core y)) := by
  have start : allCtx.foldl (fun s i => s.startReplay core i) s = s := by
    simp only [allCtx, List.foldl_cons, List.foldl_nil, startReplay_eq_self (h _)]
  have rest := foldl_mark_core_rest core (s.look core) core allCtx s
  rw [← hm] at rest
  have rr : (m.core core).rr = (s.core core).rr := (congrArg Core.rr rest :)
  have used (f : Vector (Fin 4) 4 → Vector (Fin 4) 4) :
      ((m.modCore core fun c => { c with rr := f c.rr }).core core).entriesUsed = (s.core core).entriesUsed := by
    rw [State.core_modCore_self]
    exact (congrArg Core.entriesUsed rest :)
  unfold State.issueCore
  simp only [start, Fin.getElem_fin, Vector.getElem_ofFn, Fin.eta, ← hm, rr]
  refine ⟨fun hp => by simp only [hp], fun p k hp => ?_⟩
  simp only [hp, used fun v => v.set k p]

end Sys2Proof.Machine
end

section
namespace Sys2Proof.Machine

/-! ### The bundle of a context that issues alone -/

theorem modCtx_modCtx (s : State) (n : Nat) (i : Fin 4) (f g : Ctx → Ctx) :
    (s.modCtx n i f).modCtx n i g = s.modCtx n i fun c => g (f c) := by
  unfold State.modCtx
  rw [modCore_modCore]
  congr 1
  funext c
  simp [Core.setCtx]

theorem modMe_modMe (s : State) (f g : Ctx → Ctx) : (s.modMe f).modMe g = s.modMe fun c => g (f c) :=
  modCtx_modCtx ..

theorem modMe_congr {s : State} {f g : Ctx → Ctx} (h : f s.me = g s.me) : s.modMe f = s.modMe g := by
  unfold State.modMe State.modCtx State.modCore
  exact congrArg (fun c => s.setCore s.cur ((s.core s.cur).setCtx s.cix c)) h

/-- Where all contexts but one have nothing to issue, only that one is marked. -/
theorem foldl_mark_alone {s : State} {core : Nat} {i : Fin 4} {look : Fin 4 → Look} (h : ∀ j, j ≠ i → look j = .no) :
    allCtx.foldl (fun t j => t.mark core j (look j)) s = s.mark core i (look i) := by
  have other (t : State) (j : Fin 4) (hj : ¬ (j == i) = true) : t.mark core j (look j) = t := by
    rw [h j (by simpa using hj)]; rfl
  have skip : ∀ (l : List (Fin 4)) (t : State), l.foldl (fun t j => t.mark core j (look j)) t
      = (l.filter (· == i)).foldl (fun t j => t.mark core j (look j)) t := by
    intro l
    induction l with
    | nil => exact fun _ => rfl
    | cons j l ih =>
      intro t
      by_cases hj : (j == i) = true
      · rw [List.filter_cons, if_pos hj, List.foldl_cons, List.foldl_cons, ih]
      · rw [List.filter_cons, if_neg hj, List.foldl_cons, other t j hj, ih]
  have self : ∀ i : Fin 4, allCtx.filter (· == i) = [i] := by decide
  rw [skip, self, List.foldl_cons, List.foldl_nil]

/-- A context with a bundle that may issue is aged where it has not issued for 4,096 cycles (R61). -/
theorem mark_bundle (s : State) (core : Nat) (i : Fin 4) (v : Verdict) (a l : List BWord) (ht : (s.ctx core i).task = true) :
    ((s.ctx core i).lastIssue + 4096 ≤ s.cycle
        ∧ s.mark core i (.bundle v a l) = s.modCtx core i fun c => { c with aged := true })
      ∨ (((s.ctx core i).lastIssue + 4096 ≤ s.cycle → (s.ctx core i).aged = true) ∧ s.mark core i (.bundle v a l) = s) := by
  unfold State.mark execAgingPromotion
  by_cases h : ((s.ctx core i).task && !(s.ctx core i).aged && decide ((s.ctx core i).lastIssue + 4096 ≤ s.cycle)) = true
  · simp only [h, if_true]
    simp only [Bool.and_eq_true, decide_eq_true_eq] at h
    exact .inl ⟨h.2, trivial⟩
  · simp only [h, if_false, Bool.false_eq_true]
    refine .inr ⟨fun hc => ?_, trivial⟩
    simpa [ht, hc] using h

theorem effClass_of_aged {s : State} {core : Nat} {i : Fin 4} (h : (s.ctx core i).aged = true) : s.effClass core i = 3 := by
  refine le_antisymm (effClass_le s core i) (le_max_of_le_left ?_)
  rw [Ctx.ownClass, h]; rfl

/-- The class at which a marked context issues next (R59, R61). -/
theorem effClass_mark_bundle (s : State) (core : Nat) (i : Fin 4) (v : Verdict) (a l : List BWord)
    (ht : (s.ctx core i).task = true) :
    (s.mark core i (.bundle v a l)).effClass core i
      = if (s.ctx core i).lastIssue + 4096 ≤ s.cycle then 3 else s.effClass core i := by
  rcases mark_bundle s core i v a l ht with ⟨hc, hm⟩ | ⟨hc, hm⟩ <;> rw [hm]
  · rw [if_pos hc]
    exact effClass_of_aged (by rw [State.ctx_modCtx_self])
  · split
    · next h => exact effClass_of_aged (hc h)
    · rfl

theorem begin_modCore (s : State) (core : Nat) (i : Fin 4) (f : Core → Core) :
    (s.modCore core f).begin core i = State.modCore { s with cur := core, cix := i } core fun c =>
      (f c).setCtx i { (f c).ctxs[i] with lastIssue := s.cycle, aged := false, park := none } :=
  modCore_modCore { s with cur := core, cix := i } core f fun c =>
    c.setCtx i { c.ctxs[i] with lastIssue := s.cycle, aged := false, park := none }

/-- An issuing context's mark is gone. -/
theorem begin_mark_bundle (s : State) (core : Nat) (i : Fin 4) (v : Verdict) (a l : List BWord) (k : Fin 4)
    (ht : (s.ctx core i).task = true) :
    ((s.mark core i (.bundle v a l)).modCore core fun c => { c with rr := c.rr.set k i }).begin core i
      = State.begin (s.modCore core fun c => { c with rr := c.rr.set k i }) core i := by
  rcases mark_bundle s core i v a l ht with ⟨-, hm⟩ | ⟨-, hm⟩ <;> rw [hm]
  rw [State.modCtx, modCore_modCore, begin_modCore, begin_modCore]
  refine congrArg (State.modCore _ core) (funext fun c => ?_)
  simp [Core.setCtx]

/-! ### A bundle of one word -/

/-- A word at another core's controller does not stand behind a WAIT. -/
theorem stands_of_farFe {s : State} {i : Instr} (h : s.farFe i = true) : Instr.stands i = false := by
  unfold State.farFe at h
  split at h
  · rfl
  · rfl
  · cases h

theorem ordered_single (s : State) (core : Nat) (x : Fin 4 × Slot) : s.ordered core [x] = [x] := by
  have late := @stands_of_farFe { s with cur := core, cix := x.1 } x.2.instr
  unfold State.ordered
  simp only [List.filter_cons, List.filter_nil, List.any_cons, List.any_nil, BEq.rfl, Bool.true_and, Bool.or_false]
  cases hf : State.farFe { s with cur := core, cix := x.1 } x.2.instr
  · cases Instr.stands x.2.instr && Instr.isWait x.2.instr <;> rfl
  · rw [late hf]; rfl

/-- A word with a retirement check comes with its effect, or does not stay behind a check (R245). -/
theorem checked_cases {i : Instr} {strict : Bool} (h : Instr.checked i strict = true) : Instr.lastCheck i strict = true
    ∨ Instr.lastCheck i strict = false ∧ Instr.stays i = false ∧ ∀ s : State, s.farFe i = false := by
  unfold Instr.checked at h
  split at h
  case h_6 => exact .inl h
  all_goals exact .inr ⟨rfl, rfl, fun _ => rfl⟩

/-- A word whose bundle does not wait, and which alone of its bundle may have a check, does not stay behind. -/
theorem defers_eq_false {s : State} {i : Instr} (hw : s.me.wait = .none) (hc : s.me.checks = [])
    (hu : s.me.undo.isSome = Instr.checked i s.me.strict) : s.defers i = false := by
  unfold State.defers
  cases h : s.me.undo with
  | none => simp only [hw]
  | some u =>
    rw [h] at hu
    rcases checked_cases hu.symm with hl | ⟨hl, hst, hf⟩
    · simp only [hl, if_true, hc, List.isEmpty_nil, Bool.not_true]
    · simp only [hl, hst, hf, Bool.false_and, Bool.or_false, Bool.false_eq_true, if_false]

theorem self_named {s : State} {core : Nat} {i : Fin 4} (hc : s.cur = core) (hi : s.cix = i) :
    ({ s with cur := core, cix := i } : State) = s := by subst hc hi; rfl

theorem runWords_single (s : State) (core : Nat) (i : Fin 4) (b : Slot) (hc : s.cur = core) (hi : s.cix = i)
    (hd : s.defers b.instr = false) :
    s.runWords core [(i, b)] = exec b.instr (s.modMe fun c => { c with word := (b.ix, b.code) }) := by
  rw [State.runWords, self_named hc hi, State.runWord, hd]
  simp only [Bool.false_eq_true, if_false]
  split
  · next t h => rw [h]; rfl
  · rfl

theorem nowSeen_cur (s : State) : s.nowSeen.cur = s.cur := (nowFor_arrayMoved _).cur
theorem nowSeen_cix (s : State) : s.nowSeen.cix = s.cix := (nowFor_arrayMoved _).cix
theorem nowSeen_strict (s : State) : s.nowSeen.me.strict = s.me.strict := by
  unfold State.nowSeen
  dsimp only
  rw [State.me_modMe]
  have := (nowFor_arrayMoved (s.modMe fun c => { c with regs := { c.regs with fpflg := 0 } })).me.strict
  rw [State.me_modMe] at this
  exact this

/-- Where the array is another context's, a bundle that issues finds the flags as they were. -/
theorem nowSeen_of_no_array {s : State} (h : s.myCore.arr.owner ≠ some s.cix) :
    s.nowSeen = s.modMe fun c => { c with landed := 0 } := by
  have hold : State.holdsArr (s.modMe fun c => { c with regs := { c.regs with fpflg := 0 } }) = false := by
    have : (s.modMe fun c => { c with regs := { c.regs with fpflg := 0 } }).myCore.arr = s.myCore.arr :=
      (congrArg Core.arr (State.core_modCtx_rest s s.cur s.cur s.cix _) :)
    simp only [State.holdsArr, this]
    simpa using h
  have snap : s.me.snap.map (fun r => { r with fpflg := s.me.src.fpflg }) = s.me.snap := by
    cases hs : s.me.snap with
    | none => rfl
    | some r => simp [Ctx.src, hs]
  unfold State.nowSeen State.nowFor
  simp only [hold, Bool.false_and, Bool.false_eq_true, if_false, modMe_modMe]
  refine modMe_congr ?_
  simp only [snap]
  rw [show s.me.regs.fpflg ||| 0 = s.me.regs.fpflg from BitVec.or_zero]

/-- What a bundle of one word that issues alone leads to, once its word has run. -/
def closing (core : Nat) (i : Fin 4) : Res → Res
  | .next t => .next (State.closeBundle { t with cur := core, cix := i }).keepLast
  | r => r

/-- A bundle that issues has its image of the registers, and what it puts back where it turns out not to have executed;
v is the state in which it issues. -/
def State.entered (v : State) (held : Bool) : State :=
  v.nowSeen.modMe fun c => { c with
    snap := some { c.regs with fpflg := v.takeUndo.fpflg }
    undo := if held then some v.takeUndo else none
    entry := some v.takeUndo, prior := c.last }

/-- A bundle of one word that issues alone is that word's meaning in the state that it enters. -/
theorem issueAll_word {s v : State} {core : Nat} {i : Fin 4} {b : Slot} (hv : s.begin core i = v)
    (hr : (v.ctx core i).replay = false) (hw : v.nowSeen.me.wait = .none) (hc : v.nowSeen.me.checks = []) :
    s.issueAll core (i, .bundle .go [⟨b, 0⟩] [⟨b, 0⟩]) none = closing core i
      (exec b.instr ((v.entered (Instr.checked b.instr v.me.strict)).modMe fun c => { c with word := (b.ix, b.code) })) := by
  have hcur : v.cur = core := by rw [← hv]; rfl
  have hcix : v.cix = i := by rw [← hv]; rfl
  have enter : s.enter core i (.bundle .go [⟨b, 0⟩] [⟨b, 0⟩])
      = (.next (v.entered (Instr.checked b.instr v.me.strict)), [(i, b)]) := by
    rw [State.enter, hv]
    simp only [primed_eq_self hr, List.any_cons, List.any_nil, Bool.or_false, List.map_singleton]
    rfl
  have defer : (v.entered (Instr.checked b.instr v.me.strict)).defers b.instr = false := by
    refine defers_eq_false ?_ ?_ ?_
    · rw [State.entered, State.me_modMe]; exact hw
    · rw [State.entered, State.me_modMe]; exact hc
    · simp only [State.entered, State.me_modMe, nowSeen_strict]
      cases Instr.checked b.instr v.me.strict <;> rfl
  rw [State.issueAll, enter]
  simp only [ordered_single]
  rw [runWords_single (v.entered _) core i b ((nowSeen_cur v).trans hcur) ((nowSeen_cix v).trans hcix) defer]
  cases exec b.instr _ <;> rfl

end Sys2Proof.Machine
end

section
namespace Sys2Proof.Machine

/-- A bundle of one word at the program counter of the only context with a task that may issue: the step is its word's
meaning in the state that it enters, and the bundle's end. -/
theorem step_of_word {s : State} {core : Nat} {rest : List Nat} {ix : Fin 4} {b : Slot} {v : State} {cls : Nat}
    (hdue : ∀ e ∈ s.agenda, s.cycle < e.1) (htodo : s.todo = core :: rest) (hmove : s.coreMove core = none)
    (hheld : s.withheld core = false) (hidle : ∀ j, j ≠ ix → (s.ctx core j).task = false)
    (htask : (s.ctx core ix).task = true) (hreplay : (s.ctx core ix).replay = false)
    (hlook : State.look { s with todo := rest } core ix = .bundle .go [⟨b, 0⟩] [⟨b, 0⟩])
    (hcls : cls = if (s.ctx core ix).lastIssue + 4096 ≤ s.cycle then 3 else s.effClass core ix)
    (hv : v = (State.modCore { s with todo := rest, cur := core, cix := ix } core fun k => { k with
        rr := k.rr.set (Fin.ofNat 4 cls) ix }).modCtx core ix fun c => { c with lastIssue := s.cycle, aged := false, park := none })
    (hw : v.nowSeen.me.wait = .none) (hc : v.nowSeen.me.checks = []) :
    step s = closing core ix
      (exec b.instr ((v.entered (Instr.checked b.instr v.me.strict)).modMe fun c => { c with word := (b.ix, b.code) })) := by
  rw [step_of_issue hdue htodo hmove hheld]
  generalize ht : ({ s with todo := rest } : State) = t at hlook
  have look_other (j : Fin 4) (hj : j ≠ ix) : t.look core j = .no := look_of_idle (by rw [← ht]; exact hidle j hj)
  have htask' : (t.ctx core ix).task = true := by rw [← ht]; exact htask
  have still (j : Fin 4) : (t.ctx core j).replay = false ∨ (t.ctx core j).task = false := by
    rw [← ht]
    by_cases hj : j = ix
    · exact .inl (hj ▸ hreplay)
    · exact .inr (hidle j hj)
  have marked : t.mark core ix (t.look core ix) = allCtx.foldl (fun u j => u.mark core j (t.look core j)) t :=
    (foldl_mark_alone (look := t.look core) look_other).symm
  have only : ∀ j, (t.look core j).ready = true ↔ j = ix := by
    intro j
    by_cases hj : j = ix
    · subst hj; rw [hlook]; simp [Look.ready]
    · rw [look_other j hj]; simp [Look.ready, hj]
  have ready : allCtx.filter (fun j => (t.look core j).ready) = [ix] := by
    have self : ∀ i : Fin 4, allCtx.filter (· == i) = [i] := by decide
    rw [← self ix]
    exact List.filter_congr fun j _ => Bool.eq_iff_iff.mpr ((only j).trans beq_iff_eq.symm)
  have marked_class : (t.mark core ix (t.look core ix)).effClass core ix = cls := by
    rw [hlook, effClass_mark_bundle _ _ _ _ _ _ htask', ← ht, hcls]; rfl
  have chosen := (primaryOf_eq_some_iff (t.core core).rr ((t.mark core ix (t.look core ix)).effClass core) [ix] ix
    (Fin.ofNat 4 ((t.mark core ix (t.look core ix)).effClass core ix)) fun j => effClass_le _ core j).mpr
      ⟨by simp, (Nat.mod_eq_of_lt (Nat.lt_succ_of_le (effClass_le ..))).symm, by simp, by simp⟩
  have second : secondOf ix (fun y => mergeOk (t.core core).entriesUsed (t.look core ix) (t.look core y)) = none := by
    refine Option.eq_none_iff_forall_ne_some.mpr fun q hq => ?_
    obtain ⟨hne, hok, -⟩ := (secondOf_eq_some_iff ..).mp hq
    obtain ⟨x, wa, la, y, wb, lb, -, hb, -⟩ := (mergeOk_iff ..).mp hok
    rw [look_other q hne] at hb
    cases hb
  rw [(issueCore_eq still marked).2 ix _ (by rw [ready]; exact chosen), second, hlook, Option.map_none]
  refine issueAll_word ?_ ?_ hw hc
  · rw [begin_mark_bundle _ _ _ _ _ _ _ htask', hv, ← hlook, marked_class, ← ht]; rfl
  · rw [hv, State.ctx_modCtx_self]
    show ((State.modCore _ core _).ctx core ix).replay = false
    rw [State.ctx, State.core_modCore_self]
    exact hreplay

end Sys2Proof.Machine

open Sys2Proof Sys2Proof.Machine

/-- Settles O56, clause by clause: a due event, the decoding of a bundle of one word, the step of a word that issues alone,
the issue stage of several contexts, the choice of the primary and of the second context, merging, and the order in which
the words of a cycle perform. -/
theorem stepRunsTheDecodedInstruction : Obligations.StepRunsTheDecodedInstruction := by
  unfold Obligations.StepRunsTheDecodedInstruction
  refine ⟨fun s due e l => step_of_due, fun c pkt w i hw _ hn hd hdup hl hdel => decodeBundle_single hw hn hd hdup hl hdel,
    ?_, ?_, primaryOf_eq_some_iff, secondOf_eq_some_iff, mergeOk_iff, ?_⟩
  · intro s core rest ix pkt b at_ now c hdue htodo hmove hheld hidle hreplay hbt hfp hbar hbad hpkt hpc hst hdec htree
      hfree hgo cls v found go hw hc u
    have look := look_of_word (s := { s with todo := rest }) hreplay (show now = _ from rfl) hbt hfp hbar hbad hpkt hpc hst
      hdec htree hfree hgo
    have same : (s.ctx core ix).SameButLanded c := (nowFor_arrayMoved at_).me
    have htask : (s.ctx core ix).task = true := by
      rw [← same.task]
      simp only [Ctx.between, Bool.and_eq_true] at hbt
      exact hbt.1.1.1.1.1.1
    refine ⟨fun ho => nowSeen_of_no_array ?_, ?_⟩
    · have arr : v.myCore.arr = (s.core core).arr :=
        (congrArg Core.arr (State.core_modCtx_rest _ core core ix _) :).trans (congrArg Core.arr (State.core_modCore_self at_ core _) :)
      rw [arr]
      exact ho
    · have enters : (v.entered (Instr.checked b.instr v.me.strict)).modMe (fun c => { c with word := (b.ix, b.code) }) = u :=
        congrArg (fun t : State => t.modMe fun c => { c with word := (b.ix, b.code) })
          (self_named (s := v.entered _) (nowSeen_cur v) (nowSeen_cix v)).symm
      refine (step_of_word (v := v) hdue htodo hmove hheld hidle htask hreplay look (cls := cls) (by rw [← same.lastIssue]) rfl hw
        hc).trans ?_
      rw [enters]
      cases exec b.instr u <;> rfl
  · intro s core rest at_ look m ready hdue htodo hmove hheld hreplay
    have issue := issueCore_eq (s := at_) (core := core) (fun i => .inl (hreplay i)) (show m = _ from rfl)
    rw [step_of_issue hdue htodo hmove hheld]
    refine ⟨fun hr => issue.1 ?_, issue.2⟩
    exact (congrArg (primaryOf (at_.core core).rr (m.effClass core)) hr).trans (primaryOf_nil ..)
  · intro s core l loads stores h
    have hload (x) (hx : x ∈ l) (hl : loads x) : Instr.rank x.2.instr x.2.code = 4 := by
      have hc := (h x hx).2.2 hl
      dsimp only [loads] at hl
      split at hl
      case h_5 => cases hl
      all_goals
        next hi =>
          rw [hi]
          delta Instr.rank
          dsimp only
          rw [hc]
          rfl
    have hstore (x) (hs : stores x) : Instr.rank x.2.instr x.2.code = 8 := by
      dsimp only [stores] at hs
      split at hs
      case h_4 => cases hs
      all_goals
        next hi => rw [hi]; rfl
    obtain ⟨hperm, hsorted⟩ := sortWords_spec l
    rw [ordered_eq_sortWords s core l (fun x hx => (h x hx).1) fun x hx => (h x hx).2.1]
    refine ⟨hperm, hsorted.imp_of_mem fun hx hy hle hs hl => ?_⟩
    rw [hload _ (hperm.mem_iff.mp hy) hl, hstore _ hs] at hle
    omega
end

section
namespace Sys2Proof.Machine

/-! ### A job whose lease ends within its job control block

R157 gives leases in units of 4,096 bytes, and the checks of a launch see to that (R54); the statement about the completion
of a job is about every state, also one whose job has a lease that no launch could give it. The block then lies at its
places as LiesAt says, which translates its first byte alone, and yet STATUS, translated on its own, has no place. -/

/-- The page of address 0, in frame 0. -/
def cutLeaf : Leaf := { slot := 0, fppn := 0, psz := 0, w := true, x := false, cow := false, lcv := 0, acl := 0, home := 0 }

/-- A job about to complete, with its JCB at address 0: the 16 bytes of EXPECT and DONE are leased, STATUS is not. -/
def cutJob : Job :=
  { lrec := 0, jcb := 0, levels := [], leases := [⟨0, 16, true, false⟩], lts := [(0, cutLeaf)], livep := 0, liven := 0
    imgbase := 0, strict := false, place := [], spawned := 0, ended := [], hashes := [], broken := false, finishing := true }

/-- Its function, whose tables map nothing. -/
def cutVf : Vf := { job := some cutJob }

def cutState : State := { vfs := [(0, cutVf)] }

/-- The leased bytes are translated as the lease translation store holds their page, and no other address is, whatever
memory holds. -/
theorem xlate_cutState (m : Cells 8) (va : Nat) :
    ({ cutState with mem := m } : State).xlate 0 va = if va < 16 then pageIn cutJob.lts va else none := by
  have leased : ({ cutState with mem := m } : State).leased 0 va = decide (va < 16) := by
    by_cases h : va < 16 <;> simp [State.leased, State.leasesAt, State.vf, cutState, cutVf, cutJob, aget, h]
  have unmapped : ({ cutState with mem := m } : State).walk 0 va = none := by
    have nowhere : inAllot [] 0 4096 = false := by decide
    simp [State.walk, State.vf, cutState, cutVf, aget, State.walkFrom, allotOf, nowhere]
  rw [State.xlate, leased, unmapped]
  by_cases h : va < 16 <;> simp [h, State.lts, State.vf, cutState, cutVf, aget]

theorem cutState_tablesApart (w : Nat → Prop) : cutState.TablesApart 0 w := fun m va _ =>
  (xlate_cutState m va).trans (xlate_cutState [] va).symm

/-- The block's places are those of its first byte's page. -/
theorem cutState_liesAt : cutState.LiesAt 0 cutJob.jcb.toNat 64 0 := by
  unfold State.LiesAt
  decide +kernel

/-- STATUS has no place, and the completion leaves it as it was. -/
theorem jobCompletion_cutState {t : State} (h : exec (.jobCompletion 0) cutState = .next t) : t.mem = [] := by
  have no_place : cutState.vplaces 0 16 8 = none := by decide +kernel
  have unchanged : cutState.finishJcb 0 cutJob = cutState := by
    simp [State.finishJcb, State.vput, State.vwrite, cutJob, no_place]
  have mapped : cutState.blockMapped 0 cutJob.jcb = true := by decide +kernel
  have completes : exec (.jobCompletion 0) cutState = execJobCompletion 0 cutState := rfl
  have found : cutState.vf 0 = some cutVf := rfl
  have held : cutVf.job = some cutJob := rfl
  have finishing : cutJob.finishing = true := rfl
  rw [completes, execJobCompletion] at h
  simp only [found, held, mapped, unchanged, finishing, Bool.not_true, Bool.true_or, Bool.false_eq_true, if_false, if_true] at h
  cases h
  rfl

end Sys2Proof.Machine

open Sys2Proof Sys2Proof.Machine

/-- Refutes O53, in its clause on JOB_COMPLETION: in a state whose job has a lease that ends at byte 16 of its JCB, which the
statement's hypotheses allow, the completion cannot write STATUS, whose complete bit the statement has set. A hypothesis
that leases keep to units of 4,096 bytes (R157) would exclude such states. -/
theorem not_launchesInstallAndComplete : ¬ Obligations.LaunchesInstallAndComplete := by
  unfold Obligations.LaunchesInstallAndComplete
  rintro ⟨-, jobs, -⟩
  obtain ⟨-, -, complete⟩ := jobs cutState 0 cutVf cutJob 0 0 rfl rfl
  obtain ⟨t, ht, -, -, -, status, -⟩ := complete 0 (by decide) cutState_liesAt (cutState_tablesApart _) (.inl rfl)
  have clear : t.mem64 (0 + 16) = 0 := by
    unfold State.mem64 State.memBytes
    rw [jobCompletion_cutState ht]
    rfl
  exact absurd (clear.symm.trans status) (by decide)
end

section
namespace Sys2Proof.Machine

/-! ### Bucket tables (R68, R69) -/

/-- A range of which a longer one is held. -/
theorem holdsRange_mono {s : State} {lo len len' : Nat} (h : s.HoldsRange lo len) (hle : len' ≤ len) :
    s.HoldsRange lo len' :=
  fun o h1 h2 => h o h1 (by omega)

theorem bitsOf_eq (e : Word) (lo n : Nat) : bitsOf e lo n = e.toNat / 2 ^ lo % 2 ^ n := by
  unfold bitsOf
  rw [BitVec.extractLsb'_toNat, Nat.shiftRight_eq_div_pow]

/-- Sizes that ascend, each compared with the one before it. -/
theorem ascending_iff (f : Nat → Nat) (n : Nat) :
    (((List.range n).map f).zip ((List.range n).map f).tail).any (fun p => decide (p.2 ≤ p.1)) = false
      ↔ ∀ k, k + 1 < n → f k < f (k + 1) := by
  have pairs (a b : Nat) : (a, b) ∈ ((List.range n).map f).zip ((List.range n).map f).tail
      ↔ ∃ k, k + 1 < n ∧ f k = a ∧ f (k + 1) = b := by
    rw [List.mem_iff_getElem?]
    refine exists_congr fun k => ?_
    by_cases hk : k + 1 < n
    · simp [List.getElem?_zip_eq_some, hk, Nat.lt_of_succ_lt hk]
    · simp [List.getElem?_zip_eq_some, hk]
  simp only [List.any_eq_false, Prod.forall, pairs, decide_eq_true_eq, not_le]
  exact ⟨fun h k hk => h _ _ ⟨k, hk, rfl, rfl⟩, fun h a b ⟨k, hk, ha, hb⟩ => ha ▸ hb ▸ h k hk⟩

/-- A header's fields and the word that they make. -/
theorem header_fields_iff (h : Word) (n axis : Nat) (hn : n ≤ 16) (ha : axis < 4) :
    h = BitVec.ofNat 64 (n + 2 ^ 8 * axis) ↔ bitsOf h 0 8 = n ∧ bitsOf h 8 2 = axis ∧ bitsOf h 10 54 = 0 := by
  have hl := h.isLt
  simp only [bitsOf_eq, BitVec.toNat_eq, BitVec.toNat_ofNat]
  omega

/-- The condition under which a table is none, as the model tests it. -/
def State.tableBad (s : State) (o : Nat) : Bool :=
  let h := s.tableWord o 0
  let n := bitsOf h 0 8
  let es := (List.range n).map fun k => (s.tableWord o (1 + 2 * k), s.tableWord o (2 + 2 * k))
  let sizes := es.map fun e => bitsOf e.1 0 32
  n == 0 || decide (16 < n) || bitsOf h 10 54 != 0 || es.any (fun e => bitsOf e.1 32 32 != 0)
    || (sizes.zip sizes.tail).any (fun p => decide (p.2 ≤ p.1))

theorem bitsOf_low {e : Word} (h : e.toNat < 2 ^ 32) : bitsOf e 0 32 = e.toNat := by
  rw [bitsOf_eq]; omega

theorem high_clear_iff (e : Word) : bitsOf e 32 32 = 0 ↔ e.toNat < 2 ^ 32 := by
  have := e.isLt
  rw [bitsOf_eq]; omega

/-- A table keeps to its layout exactly where the model takes it for one. -/
theorem tableLegal_iff (s : State) (o n axis : Nat) : TableLegal s o n axis
    ↔ s.tableBad o = false ∧ n = bitsOf (s.tableWord o 0) 0 8 ∧ axis = bitsOf (s.tableWord o 0) 8 2 := by
  have parts : s.tableBad o = false ↔ (1 ≤ bitsOf (s.tableWord o 0) 0 8 ∧ bitsOf (s.tableWord o 0) 0 8 ≤ 16)
      ∧ bitsOf (s.tableWord o 0) 10 54 = 0
      ∧ (∀ k, k < bitsOf (s.tableWord o 0) 0 8 → (s.tableWord o (1 + 2 * k)).toNat < 2 ^ 32)
      ∧ ∀ k, k + 1 < bitsOf (s.tableWord o 0) 0 8 →
        bitsOf (s.tableWord o (1 + 2 * k)) 0 32 < bitsOf (s.tableWord o (1 + 2 * (k + 1))) 0 32 := by
    unfold State.tableBad
    simp only [Bool.or_eq_false_iff, List.map_map, Function.comp_def, ascending_iff]
    simp only [beq_eq_false_iff_ne, decide_eq_false_iff_not, bne_eq_false_iff_eq, List.any_eq_false, List.mem_map,
      List.mem_range, bne_iff_ne, forall_exists_index, and_imp, forall_apply_eq_imp_iff₂, ne_eq, high_clear_iff,
      Nat.one_le_iff_ne_zero, not_lt, not_le, and_assoc]
  rw [parts]
  constructor
  · rintro ⟨⟨h1, h16, ha⟩, hh, hs, hasc⟩
    obtain ⟨rfl, rfl, hz⟩ := (header_fields_iff _ _ _ h16 ha).mp hh
    refine ⟨⟨⟨h1, h16⟩, hz, hs, fun k hk => ?_⟩, rfl, rfl⟩
    rw [bitsOf_low (hs k (by omega)), bitsOf_low (hs (k + 1) hk), show 1 + 2 * (k + 1) = 3 + 2 * k by omega]
    exact hasc k hk
  · rintro ⟨⟨⟨h1, h16⟩, hz, hs, hasc⟩, rfl, rfl⟩
    have ha : bitsOf (s.tableWord o 0) 8 2 < 4 := by rw [bitsOf_eq]; omega
    refine ⟨⟨h1, h16, ha⟩, (header_fields_iff _ _ _ h16 ha).mpr ⟨rfl, rfl, hz⟩, hs, fun k hk => ?_⟩
    have := hasc k hk
    rwa [bitsOf_low (hs k (by omega)), bitsOf_low (hs (k + 1) hk), show 1 + 2 * (k + 1) = 3 + 2 * k by omega] at this

/-- Whether an entry of a table reaches a dimension, as the model tests it. -/
def State.reaches (s : State) (o d k : Nat) : Bool := decide (d ≤ bitsOf (s.tableWord o (1 + 2 * k)) 0 32)

/-- The model's search for a bucket: the first entry that reaches the dimension. -/
theorem bucket_eq (s : State) (o d : Nat) : s.bucket o d = if s.tableBad o = true then .bad
    else (((List.range (bitsOf (s.tableWord o 0) 0 8)).find? (s.reaches o d)).map fun k =>
      .pick (bitsOf (s.tableWord o (1 + 2 * k)) 0 32) (s.tableWord o (2 + 2 * k)) (bitsOf (s.tableWord o 0) 8 2)).getD
        .above := by
  unfold State.bucket State.tableBad State.reaches
  simp only [List.find?_map, Function.comp_def]
  split
  · rfl
  · generalize List.find? _ _ = first
    cases first <;> rfl

/-- What is no table is taken for none. -/
theorem bucket_bad {s : State} {o : Nat} (h : ∀ n axis, ¬ TableLegal s o n axis) (d : Nat) : s.bucket o d = .bad := by
  have : s.tableBad o = true := by
    by_contra hb
    exact h _ _ ((tableLegal_iff s o _ _).mpr ⟨by simpa using hb, rfl, rfl⟩)
  rw [bucket_eq, if_pos this]

section
variable {s : State} {o n axis : Nat} (h : TableLegal s o n axis)
include h

/-- Of a table the first entry is taken whose size reaches the dimension. -/
theorem bucket_pick {d k : Nat} (hk : k < n) (hlow : ∀ j, j < k → (s.tableWord o (1 + 2 * j)).toNat < d)
    (hd : d ≤ (s.tableWord o (1 + 2 * k)).toNat) :
    s.bucket o d = .pick (s.tableWord o (1 + 2 * k)).toNat (s.tableWord o (2 + 2 * k)) axis := by
  obtain ⟨hb, hn, ha⟩ := (tableLegal_iff ..).mp h
  have size (j : Nat) (hj : j < n) := bitsOf_low (h.sizes j hj)
  have first : (List.range n).find? (s.reaches o d) = some k := by
    rw [List.find?_range_eq_some]
    refine ⟨by simpa [State.reaches, size k hk] using hd, by simpa using hk, fun j hj => ?_⟩
    simpa [State.reaches, size j (hj.trans hk)] using hlow j hj
  rw [bucket_eq, hb, ← hn, first, ← ha, ← size k hk]
  rfl

/-- No entry of a table reaches the dimension. -/
theorem bucket_above {d : Nat} (hlow : ∀ k, k < n → (s.tableWord o (1 + 2 * k)).toNat < d) :
    s.bucket o d = .above := by
  obtain ⟨hb, hn, -⟩ := (tableLegal_iff ..).mp h
  have none : (List.range n).find? (s.reaches o d) = none := by
    rw [List.find?_range_eq_none]
    intro k hk
    simpa [State.reaches, bitsOf_low (h.sizes k hk)] using hlow k hk
  rw [bucket_eq, hb, ← hn, none]
  rfl

end

/-- What a table leaves to the context: the excess, where to go on after the delay bundle, the padding. -/
def Ctx.selected (d : Fin 32) (v sched : Word) (pad : Option (Nat × Nat)) (c : Ctx) : Ctx :=
  { c with regs := c.regs.ws d v, xfer := some (sched, true), bksel := none, pad }

/-- A change of the executing context leaves the core's units. -/
theorem modMe_units (s : State) (f : Ctx → Ctx) : UnitsKept s (s.modMe f) := by
  unfold UnitsKept
  rw [show (s.modMe f).core s.cur = _ from State.core_modCore_self ..]
  rfl

theorem modMe_selected (s : State) (d : Fin 32) (v sched : Word) (pad : Option (Nat × Nat)) :
    ((s.putS d v).transfer sched true).modMe (fun c => { c with bksel := none, pad })
      = s.modMe (Ctx.selected d v sched pad) := by
  unfold State.transfer State.putS State.wr
  rw [if_pos (.inl le_rfl), modMe_modMe, modMe_modMe]
  rfl

section
variable {s : State} {d : Fin 32} {dim x pc : Word} (hb : s.me.bksel = some (d, dim, x, pc))
  (hh : s.HoldsRange (bkselOff x) (min (8 + 16 * bitsOf (s.tableWord (bkselOff x) 0) 0 8) (2 ^ 22 - bkselOff x)))
include hb hh

/-- The read of a table in a buffer that the core holds: what its words say decides. -/
theorem bkselTableRead_bad (h : s.bucket (bkselOff x) dim.toNat = .bad) :
    exec (.bkselTableRead s.cur s.cix) s = .next (s.checkDone 1 (some (.bkselRange, 1))) := by
  have hb : (s.ctx s.cur s.cix).bksel = some (d, dim, x, pc) := hb
  show execBkselTableRead s.cur s.cix s = _
  unfold execBkselTableRead
  rw [hb]
  simp only [(ownHeld_eq_go s).mpr hh, h]

theorem bkselTableRead_above (h : s.bucket (bkselOff x) dim.toNat = .above) :
    exec (.bkselTableRead s.cur s.cix) s = .next (s.checkDone 1 (some (.bkselRange, 0))) := by
  have hb : (s.ctx s.cur s.cix).bksel = some (d, dim, x, pc) := hb
  show execBkselTableRead s.cur s.cix s = _
  unfold execBkselTableRead
  rw [hb]
  simp only [(ownHeld_eq_go s).mpr hh, h]

theorem bkselTableRead_pick {b axis : Nat} {sched : Word}
    (h : s.bucket (bkselOff x) dim.toNat = .pick b sched axis) :
    exec (.bkselTableRead s.cur s.cix) s =
      if axis < 3 ∧ s.myCore.arr.owner ≠ some s.cix then .next (s.checkDone 1 (some (.mtxNotOwned, s.ownerOf)))
      else .next ((s.modMe (Ctx.selected d (BitVec.ofNat 64 b - dim) sched
        (if axis < 3 then some (axis, dim.toNat) else none))).checkDone 1 none) := by
  have hb : (s.ctx s.cur s.cix).bksel = some (d, dim, x, pc) := hb
  show execBkselTableRead s.cur s.cix s = _
  unfold execBkselTableRead
  rw [hb]
  simp only [(ownHeld_eq_go s).mpr hh, h, modMe_selected]
  refine if_congr ?_ rfl rfl
  rw [Bool.and_eq_true, decide_eq_true_eq, Bool.not_eq_true', ← Bool.not_eq_true, holdsArr_iff]

end

end Sys2Proof.Machine

open Sys2Proof Sys2Proof.Machine

/-- Settles O5: BKSEL's issue, and its table read by what the table is (R68, R69, R358). -/
theorem bucketsSelectTheirSchedule : Obligations.BucketsSelectTheirSchedule := by
  unfold Obligations.BucketsSelectTheirSchedule
  refine ⟨fun s d a x hx => ?_, fun s d dim x pc hb =>
    ⟨fun n axis ht hx => ⟨fun k hk hlow hd => ?_, fun hlow => ?_⟩, fun ht hx => ?_⟩⟩
  · have go : s.ownHeld (bkselOff (s.rs x)) 8 = .go := (ownHeld_eq_go s).mpr hx
    refine ⟨_, (show exec (.bksel d a x) s = execBksel d a x s from rfl).trans
      (by rw [execBksel, go, guard_go]), ?_, rfl, ?_⟩
    · have := (modMe_contextOnly s fun c => { c with
        bksel := some (d, s.rs a, s.rs x, c.pc), wait := .reply, checks := c.checks ++ [c.word] }).alone
      exact ⟨this.package, this.cores, this.others⟩
    · rw [State.me_schedule, State.me_modMe]
  · have count := ((tableLegal_iff ..).mp ht).2.1
    rw [bkselTableRead_pick hb (count ▸ hx) (bucket_pick ht hk hlow hd)]
    split
    · rfl
    · have only := modMe_contextOnly s (Ctx.selected d
        (BitVec.ofNat 64 (s.tableWord (bkselOff x) (1 + 2 * k)).toNat - dim)
        (s.tableWord (bkselOff x) (2 + 2 * k)) (if axis < 3 then some (axis, dim.toNat) else none))
      refine ⟨_, rfl, only.alone, ?_, ?_⟩
      · exact modMe_units s _
      · rw [State.me_modMe]
        exact ⟨s.me.regs.keeps_ws d _, by simp [Ctx.selected], rfl, rfl, rfl, rfl⟩
  · have count := ((tableLegal_iff ..).mp ht).2.1
    exact bkselTableRead_above hb (count ▸ hx) (bucket_above ht hlow)
  · exact bkselTableRead_bad hb (holdsRange_mono hx (Nat.min_le_right ..)) (bucket_bad ht _)
end

section
namespace Sys2Proof.Machine

/-! ### Blocks, save areas and records of which a lease holds only a part

R157 gives leases in units of 4,096 bytes. The statements on the end of a task, on suspension and on forced pre-emption
are about every state, also one whose job has leases that no launch could give it. LiesAt translates the first byte of a
range and each multiple of 4,096; a write within the range translates its own first byte, and is lost where that has no
lease. -/

/-- Where a function's tables map nothing, the leases alone give an address a page. -/
theorem xlate_untabled {s : State} {j : Job} (h : s.vfs = [(0, { job := some j })]) (va : Nat) :
    s.xlate 0 va = if j.leases.any (fun l => decide (l.start ≤ va) && decide (va < l.start + l.len)) = true
      then pageIn j.lts va else none := by
  have leased : s.leased 0 va = j.leases.any fun l => decide (l.start ≤ va) && decide (va < l.start + l.len) := by
    rw [Bool.eq_iff_iff]
    simp [State.leased, State.leasesAt, State.vf, h, aget]
  have nowhere : inAllot [] 0 4096 = false := by decide
  have unmapped : s.walk 0 va = none := by
    simp [State.walk, State.vf, h, aget, State.walkFrom, allotOf, nowhere]
  have held : s.lts 0 = j.lts := by simp [State.lts, State.vf, h, aget]
  rw [State.xlate, leased, unmapped, held]
  rfl

/-- What a function translates without tables does not depend on memory. -/
theorem tablesApart_untabled {s : State} {j : Job} (h : s.vfs = [(0, { job := some j })]) (w : Nat → Prop) :
    s.TablesApart 0 w := fun m va _ =>
  (xlate_untabled (s := { s with mem := m }) h va).trans (xlate_untabled h va).symm

/-- A task of the job of cutJob that ends by a trap. -/
def cutEnd : State :=
  { cutState with todo := [0], cores := [(0, { ctxs := #v[{ task := true, wait := .exiting (some 7) }, {}, {}, {}] })] }

/-- STATUS after a step. -/
def statusAfter (s : State) : Word :=
  match step s with
  | .next t => t.mem64 16
  | _ => 1

/-- The end of the task has nothing to wait for. -/
theorem cutEnd_canEnd : CanEnd cutEnd 0 0 (some 7) where
  counters := ⟨rfl, rfl, rfl, rfl⟩
  settled := ⟨fun x hx => (by cases hx), rfl, fun f hf => (by cases hf), fun e he => (by cases he)⟩
  array := fun h => (by cases h)
  digest := fun h => (by cases h)
  block := fun _ => (by decide +kernel)

/-- STATUS has no lease, and the end of the task is not recorded in it. -/
theorem cutEnd_status {t : State} (h : step cutEnd = .next t) : t.mem64 16 = 0 := by
  have status : statusAfter cutEnd = 0 := by decide +kernel
  rw [statusAfter, h] at status
  exact status

end Sys2Proof.Machine

open Sys2Proof Sys2Proof.Machine

/-- Refutes O49, in its clause on the end of a task: in a state whose job has a lease that ends at byte 16 of its JCB,
which the statement's hypotheses allow, the end by a trap cannot write STATUS, whose broken bit the statement has set. A
hypothesis that leases keep to units of 4,096 bytes (R157) would exclude such states. -/
theorem not_jobsGrowAndTasksEnd : ¬ Obligations.JobsGrowAndTasksEnd := by
  unfold Obligations.JobsGrowAndTasksEnd
  rintro ⟨-, -, ends⟩
  obtain ⟨-, ended⟩ := ends cutEnd 0 [] 0 (some 7) (fun e he => (by cases he)) rfl rfl
    (fun j hj => absurd hj (by omega)) rfl rfl rfl
  obtain ⟨-, recorded⟩ := ended fun h => (by cases h)
  obtain ⟨t, ht, after⟩ := recorded cutVf cutJob 0 cutEnd_canEnd rfl rfl (by decide +kernel)
    (by unfold State.LiesAt; decide +kernel) (tablesApart_untabled rfl _)
  have broken := (after.status 7 rfl).broken
  rw [cutEnd_status ht] at broken
  exact absurd broken (by decide)
end

section
namespace Sys2Proof.Machine

/-! ### A save area of which a lease leaves out the system registers -/

/-- The page of the first 2 MiB, in the first frames. -/
def hollowLeaf : Leaf := { cutLeaf with psz := 2 }

/-- A job without live masks, of whose save area at 0 and record at 0xD000 all is leased but the bytes 0x140 to 0x17F. -/
def hollowJob : Job :=
  { cutJob with
    leases := [⟨0, 0x140, true, false⟩, ⟨0x180, 0xDE80, true, false⟩]
    lts := [(0, hollowLeaf)]
    finishing := false }

/-- Whether that job leases an address. -/
def solid (va : Nat) : Bool := decide (va < 0x140) || (decide (0x180 ≤ va) && decide (va < 0xE000))

/-- A state with that job, in whose memory the byte 0x150, the first of SAFEBND's image, is zero. -/
structure Hollow (s : State) : Prop where
  job : s.vfs = [(0, { job := some hollowJob })]
  canon : Memory.wf s.mem = true
  clear : cget s.mem 0x150 = 0

theorem hollowLeaf_place (k : Nat) {va : Nat} (h : va < 2 ^ 21) :
    (if hollowLeaf.reachable k = true then some (hollowLeaf.place va) else none) = some va := by
  have leaf : hollowLeaf.frame = 0 ∧ pageBytes hollowLeaf.psize = 2 ^ 21 ∧ isRemote 0 = false := by decide
  have near : isRemote (0 + va) = false := by unfold isRemote remoteBase; exact decide_eq_false (by omega)
  unfold Leaf.reachable Leaf.place globalAddr
  rw [leaf.1, leaf.2.1, leaf.2.2, Nat.mod_eq_of_lt h, near]
  simp

/-- A leased byte lies at the place of its own address. -/
theorem placeBy_hollow {s : State} (h : s.vfs = [(0, { job := some hollowJob })]) (va : Nat) :
    placeBy (s.xlate 0) s.pkg.toNat va = if solid va = true then some va else none := by
  have leased : (hollowJob.leases.any fun l => decide (l.start ≤ va) && decide (va < l.start + l.len)) = solid va := by
    simp [hollowJob, solid]
  rw [placeBy, xlate_untabled h, leased]
  cases hv : solid va with
  | false => rfl
  | true =>
    have low : va < 2 ^ 21 := by
      simp only [solid, Bool.or_eq_true, Bool.and_eq_true, decide_eq_true_eq] at hv
      omega
    have page : pageIn hollowJob.lts va = some hollowLeaf := by
      have size : pageBytes hollowLeaf.psize = 2 ^ 21 := by decide
      simp only [pageIn, hollowJob, size, List.find?_cons, Nat.zero_le, low, Nat.zero_add, decide_true, Bool.and_self]
      rfl
    simp only [page, if_true]
    exact hollowLeaf_place _ low

section
variable {tr : Nat → Option Leaf} {k : Nat}

/-- Where every byte with a place lies at its address, so does every range with places. -/
theorem placesGo_own {f : Nat → Bool} (own : ∀ a, placeBy tr k a = if f a = true then some a else none) :
    ∀ {n va : Nat} {ps : List Nat}, placesGo tr k n va (some va) = some ps → ps = (List.range n).map (va + ·)
  | 0, _, _, h => by cases h; rfl
  | n + 1, va, ps, h => by
    unfold placesGo at h
    by_cases start : va % 4096 = 0 ∧ f va = false
    · simp [start, own] at h
    · have here : (if va % 4096 = 0 then placeBy tr k va else some va) = some va := by
        rw [own]
        split
        · next h0 => rw [if_pos (by simpa [h0] using start)]
        · rfl
      simp only [here, Option.map_eq_some_iff] at h
      obtain ⟨qs, hq, rfl⟩ := h
      rw [placesGo_own own hq, List.range_succ_eq_map]
      simp [Function.comp_def, Nat.add_assoc, Nat.add_comm 1]

/-- A range lies from its address where its pages' first bytes have places. -/
theorem placesGo_all : ∀ {n va : Nat},
    (∀ a, a % 4096 = 0 → va ≤ a → a < va + n → placeBy tr k a = some a) →
    placesGo tr k n va (some va) = some ((List.range n).map (va + ·))
  | 0, _, _ => rfl
  | n + 1, va, h => by
    have here : (if va % 4096 = 0 then placeBy tr k va else some va) = some va := by
      split
      · next h0 => exact h va h0 le_rfl (by omega)
      · rfl
    unfold placesGo
    simp only [here]
    rw [placesGo_all fun a h0 h1 h2 => h a h0 (by omega) (by omega), List.range_succ_eq_map]
    simp [Function.comp_def, Nat.add_assoc, Nat.add_comm 1]

end

/-- A byte that is not among those written. -/
theorem cget_foldl_cset_out {w a : Nat} : ∀ (l : List (Nat × BitVec w)) {c : Cells w}, Memory.wf c = true →
    (∀ x ∈ l, x.1 ≠ a) → cget (l.foldl (fun m x => cset m x.1 x.2) c) a = cget c a
  | [], _, _, _ => rfl
  | x :: l, c, hc, h => by
    rw [List.foldl_cons, cget_foldl_cset_out l (wf_cset _ _ hc) fun y hy => h y (.tail _ hy)]
    exact cget_cset_ne (fun e => h x (.head _) e.symm) x.2 hc

section
variable {s : State} (h : Hollow s)
include h

theorem Hollow.lies {va n : Nat} (hv : solid va = true) (hn : va + n ≤ 0xE000) : s.LiesAt 0 va n va := by
  have own := placeBy_hollow h.job
  unfold State.LiesAt State.vplaces placesBy
  rw [own, if_pos hv]
  refine placesGo_all fun a h0 h1 h2 => ?_
  rw [own, if_pos]
  simp only [solid, Bool.or_eq_true, Bool.and_eq_true, decide_eq_true_eq]
  omega

/-- A write elsewhere, and one that begins in the gap of the leases, leave SAFEBND's byte zero. -/
theorem Hollow.vput {va : Nat} {b : List Byte}
    (hv : va + b.length ≤ 0x150 ∨ 0x150 < va ∨ solid va = false) : Hollow (s.vput 0 va b) := by
  have own := placeBy_hollow h.job
  unfold State.vput State.vwrite
  cases places : s.vplaces 0 va b.length with
  | none => exact h
  | some ps =>
    have outside : ∀ x ∈ ps.zip b, x.1 ≠ 0x150 := by
      intro x hx
      unfold State.vplaces placesBy at places
      rw [own] at places
      cases gap : solid va with
      | false =>
        rw [gap] at places
        cases hb : b.length with
        | zero =>
          rw [List.length_eq_zero_iff.mp hb] at hx
          simp at hx
        | succ n =>
          rw [hb] at places
          simp [placesGo, own, gap] at places
      | true =>
        rw [gap, if_pos rfl] at places
        have := (List.of_mem_zip hx).1
        rw [placesGo_own own places] at this
        simp only [List.mem_map, List.mem_range] at this
        obtain ⟨j, hj, hx⟩ := this
        simp only [gap, Bool.true_eq_false, or_false] at hv
        omega
    exact ⟨h.job, wf_foldl _ (fun c x hc => wf_cset _ _ hc) _ h.canon,
      (cget_foldl_cset_out _ h.canon outside).trans h.clear⟩

end

/-- The image of a fresh register lies below SAFEBND's byte or above it. -/
def Place39.apart (x : Place39) : Bool := decide (x.off + (x.image {}).length ≤ 0x150) || decide (0x150 < x.off)

theorem places39_apart : places39.all Place39.apart = true := by decide +kernel

/-- So the images of fresh registers leave that byte zero. -/
theorem Hollow.putImages {l : List Place39} (hl : ∀ x ∈ l, x.apart = true) {s : State} (h : Hollow s) :
    Hollow (l.foldl (fun t x => t.vput 0 (0 + x.off) (x.image {})) s) := by
  induction l generalizing s with
  | nil => exact h
  | cons x l ih =>
    have hx := hl x (.head _)
    simp only [Place39.apart, Bool.or_eq_true, decide_eq_true_eq] at hx
    exact ih (fun y hy => hl y (.tail _ hy)) (h.vput (by omega))

/-- A context with fresh registers that saves to 0 and 0xD000 leaves that byte zero: its system registers are lost. -/
theorem Hollow.writeRecord {s : State} (h : Hollow s) {core : Nat} {i : Fin 4} (vf : (s.ctx core i).vf = 0)
    (regs : (s.ctx core i).regs = {}) (places : (s.ctx core i).recp = 0xD000 ∧ (s.ctx core i).savep = 0)
    (full : Bool) (m : Masks) (w : Word) (d : Option Word) : Hollow (s.writeRecord core i full m w d).2 := by
  obtain ⟨recp, savep⟩ := places
  have old : ((0xD000 : Word) == 0) = false := by decide
  unfold State.writeRecord
  simp only [vf, regs, recp, savep, old, Bool.false_eq_true, if_false, show (0 : Word).toNat = 0 from rfl]
  have images := h.putImages (l := places39.filter fun p => p.saved m) fun x hx =>
    List.all_eq_true.mp places39_apart x (List.mem_filter.mp hx).1
  have system {t : State} (ht : Hollow t) : Hollow (t.vput 0 (0 + 0x140) (sysImage {})) :=
    ht.vput (.inr (.inr (by decide)))
  have above {t : State} (ht : Hollow t) (va : Nat) (hv : 0x150 < va) (b : List Byte) : Hollow (t.vput 0 va b) :=
    ht.vput (.inr (.inl hv))
  split
  · exact above (above (system (above images _ (by decide) _)) _ (by decide) _) _ (by decide) _
  · exact above (above (system images) _ (by decide) _) _ (by decide) _

/-- A task with fresh registers that leaves its context. -/
def leaving (w : Wait) : State :=
  { vfs := [(0, { job := some hollowJob })]
    cores := [(0, { ctxs := #v[{ task := true, wait := w, recp := 0xD000 }, {}, {}, {}] })] }

theorem leaving_hollow (w : Wait) : Hollow (leaving w) := ⟨rfl, rfl, rfl⟩

theorem leaving_savesTo (w : Wait) : SavesTo (leaving w) ((leaving w).ctx 0 0) 0 0xD000 where
  area := (leaving_hollow w).lies (va := 0) (by decide) (by decide)
  record := (leaving_hollow w).lies (va := 0xD000) (by decide) (by decide)
  apart := .inl (by decide)
  tables := tablesApart_untabled rfl _

theorem leaving_settled (w : Wait) : Settled (leaving w) 0 0 :=
  ⟨fun x hx => (by cases hx), rfl, fun f hf => (by cases hf), fun e he => (by cases he)⟩

/-- Memory in which SAFEBND's byte is zero holds no image of fresh system registers. -/
theorem not_savedAt_of_clear {t : State} (h : cget t.mem 0x150 = 0) {q : Nat} {c : Ctx} {core : Nat} {full : Bool}
    {k : Masks} {w : Word} (hc : c.regs = {}) : ¬ SavedAt t 0 q c core full k w := fun saved => by
  have byte := get_cgetN t.mem 0 64 0x140 0x10 (by decide)
  rw [show cgetN t.mem 0x140 64 = _ from saved.system, hc, h] at byte
  exact absurd byte (by decide)

theorem mem_modCore (s : State) (n : Nat) (f : Core → Core) : (s.modCore n f).mem = s.mem := rfl

theorem mem_freeCtx (s : State) (core : Nat) (i : Fin 4) : (s.freeCtx core i).mem = s.mem := rfl

/-- A record that enters a pass leaves memory as it is. -/
theorem mem_enqueue (s : State) (last : Nat) (e : PassEnt) : (s.enqueue last e).mem = s.mem := by
  have spilled (r : Nat) : (s.spill r).mem = s.mem := by unfold State.spill; split <;> rfl
  show State.mem (if 256 ≤ (s.row (rowOf (e.home last))).pass.length then _ else _) = s.mem
  split
  · exact spilled _
  · rfl

section
variable {s : State} {core : Nat} {i : Fin 4} (clear : (s.ctx core i).landBar = [])
include clear

/-- A suspension that leaves its context writes the record and puts it to sleep (R41). -/
theorem suspension_leaves {w : Word} (hw : (s.ctx core i).wait = .suspend w) (quiet : s.canSuspend core i = true)
    (leaves : s.staysAt core i = false) :
    let live := s.liveMasks (s.ctx core i).vf (s.ctx core i).suspendAt
    let written := s.writeRecord core i live.isNone (live.getD Masks.all) w none
    exec (.suspension core i) s = .next ((written.2.freeCtx core i).putToSleep core
      ((s.ctx core i).passEnt core written.1 written.2.cycle) w (s.ctx core i).suspendBar) := by
  refine (show exec (.suspension core i) s = execSuspension core i s from rfl).trans ?_
  unfold execSuspension
  simp only [hw, quiet, leaves, clear, List.isEmpty_nil, Bool.not_true, Bool.or_self, Bool.false_eq_true, if_false]

/-- A forced save writes every register and leaves the record to its operations (R255, R256). -/
theorem forcedSave_leaves (hw : (s.ctx core i).wait = .saving) (settled : s.settled core i = true) :
    ∃ t obj d, exec (.forcedPreemptionSave core i) s = .next t
      ∧ t.mem = (s.writeRecord core i true Masks.all obj d).2.mem := by
  have made : exec (.forcedPreemptionSave core i) s = execForcedPreemptionSave core i s := rfl
  unfold execForcedPreemptionSave at made
  simp only [hw, settled, clear, beq_self_eq_true, List.isEmpty_nil, Bool.not_true, Bool.and_self, Bool.and_false,
    Bool.false_eq_true, if_false, if_true] at made
  exact ⟨_, (s.ctx core i).preemptObj, (s.ctx core i).delay.map (s.ctx core i).resolved, made,
    by rw [mem_freeCtx, mem_modCore]⟩

end

/-- A record that is put to sleep leaves memory as it is. -/
theorem mem_putToSleep (s : State) (core : Nat) (e : PassEnt) (w : Word) (bar : Option (BarKey × Nat)) :
    (s.putToSleep core e w bar).mem = s.mem := by
  unfold State.putToSleep
  split
  · exact mem_enqueue ..
  · rfl

/-- The task's record, whatever of it is written, leaves SAFEBND's byte zero. -/
theorem leaving_clear (w : Wait) (full : Bool) (m : Masks) (obj : Word) (d : Option Word) :
    cget ((leaving w).writeRecord 0 0 full m obj d).2.mem 0x150 = 0 :=
  ((leaving_hollow w).writeRecord rfl rfl ⟨rfl, rfl⟩ full m obj d).clear

/-- After the suspension SAFEBND's byte is zero. -/
theorem suspension_clear {t : State} (h : exec (.suspension 0 0) (leaving (.suspend 0)) = .next t) :
    cget t.mem 0x150 = 0 := by
  have made := suspension_leaves (s := leaving (.suspend 0)) (core := 0) (i := 0) rfl rfl
    (by decide +kernel) (by decide +kernel)
  rw [← Host.Outcome.next.inj (made.symm.trans h), mem_putToSleep, mem_freeCtx]
  exact leaving_clear ..

/-- After the forced save it is zero as well. -/
theorem forcedSave_clear {t : State} (h : exec (.forcedPreemptionSave 0 0) (leaving .saving) = .next t) :
    cget t.mem 0x150 = 0 := by
  obtain ⟨t', obj, d, made, mem⟩ := forcedSave_leaves (s := leaving .saving) (core := 0) (i := 0) rfl rfl
    (by decide +kernel)
  rw [← Host.Outcome.next.inj (made.symm.trans h), mem]
  exact leaving_clear ..

/-- The task neither holds the array nor has a phase open. -/
theorem leaving_leaves (w : Wait) : ¬ (leaving w).StaysAt 0 0 := by
  rintro (h | h)
  · cases h
  · exact h rfl

end Sys2Proof.Machine

open Sys2Proof Sys2Proof.Machine

/-- Refutes O50, in its clause on a suspension that leaves its context: in a state whose job's leases leave out the bytes
0x140 to 0x17F of the save area, which the statement's hypotheses allow, the system registers are lost, which the
statement has saved. A hypothesis that leases keep to units of 4,096 bytes (R157) would exclude such states. -/
theorem not_tasksSuspendAndResume : ¬ Obligations.TasksSuspendAndResume := by
  unfold Obligations.TasksSuspendAndResume
  rintro ⟨suspends, -⟩
  obtain ⟨-, -, saves⟩ := suspends (leaving (.suspend 0)) 0 0 0 rfl
  obtain ⟨t, e, ht, -, -, -, -, -, -, -, -, saved, -⟩ := saves 0 0xD000 (leaving_leaves _)
    ⟨⟨rfl, rfl, rfl, rfl⟩, leaving_settled _⟩ rfl (by decide +kernel) (leaving_savesTo _)
  exact not_savedAt_of_clear (suspension_clear ht) rfl saved

/-- Refutes O51, in its clause on the save of a forced pre-emption: in the same state, but for the wait, the system
registers are lost, which the statement has saved. The same hypothesis on leases (R157) would exclude it. -/
theorem not_preemptionStopsContexts : ¬ Obligations.PreemptionStopsContexts := by
  unfold Obligations.PreemptionStopsContexts
  rintro ⟨-, saves, -⟩
  obtain ⟨-, saves⟩ := saves (leaving .saving) 0 0 0 0xD000 rfl (leaving_settled _)
  obtain ⟨t, e, ht, -, -, -, -, -, -, -, -, -, -, saved, -⟩ := saves rfl (by decide +kernel) (leaving_savesTo _)
  exact not_savedAt_of_clear (forcedSave_clear ht) rfl saved
end

section
namespace Sys2Proof.Machine

/-! ### Indices of loops, as lists -/

/-- The combinations of some loops have one index for each, in the loops' order. -/
theorem keys_of_mem_combinations {trip : Nat → Nat} : ∀ {l : List Nat} {ix : List (Nat × Nat)},
    ix ∈ combinations trip l → ix.map Prod.fst = l
  | [], ix, h => by cases List.mem_singleton.mp h; rfl
  | j :: t, ix, h => by
    obtain ⟨v, -, h⟩ := List.mem_flatMap.mp h
    obtain ⟨ix', h', rfl⟩ := List.mem_map.mp h
    rw [List.map_cons, keys_of_mem_combinations h']

/-- Only the trips of the loops themselves count. -/
theorem combinations_congr {f g : Nat → Nat} : ∀ {l : List Nat}, (∀ j ∈ l, f j = g j) →
    combinations f l = combinations g l
  | [], _ => rfl
  | j :: t, h => by
    rw [combinations, combinations, h j (.head _), combinations_congr fun k hk => h k (.tail _ hk)]

theorem lookup_eq_none_of_not_mem {j : Nat} {ix : List (Nat × Nat)} (h : j ∉ ix.map Prod.fst) :
    ix.lookup j = none := by
  rw [List.lookup_eq_none_iff]
  intro p hp
  have : j ≠ p.1 := fun e => h (e ▸ List.mem_map_of_mem hp)
  simpa using this

/-- Where in a list of indices a loop stands does not matter, if it stands there once. -/
theorem lookup_insert {j v : Nat} {ix fixed : List (Nat × Nat)} (h : j ∉ ix.map Prod.fst) (k : Nat) :
    (ix ++ (j, v) :: fixed).lookup k = ((j, v) :: ix ++ fixed).lookup k := by
  rw [List.cons_append, List.lookup_append, List.lookup_cons, List.lookup_cons, List.lookup_append]
  by_cases hk : k = j
  · subst hk
    simp [lookup_eq_none_of_not_mem h]
  · have : (k == j) = false := by simpa using hk
    simp [this]

/-! ### Sums -/

theorem sumTo_eq (k : Nat) (f : Nat → Nat) : sumTo k f = ∑ i ∈ Finset.range k, f i := by
  unfold sumTo
  induction k with
  | zero => rfl
  | succ k ih => rw [List.range_succ, List.foldl_append, ih, Finset.sum_range_succ]; rfl

theorem sum_map_range (k : Nat) (f : Nat → Nat) : ((List.range k).map f).sum = ∑ i ∈ Finset.range k, f i := by
  rw [← sumTo_eq, sumTo, List.sum_eq_foldl, List.foldl_map]

/-! ### Counting the tiles of a nest (R151, R381) -/

/-- What R380 has of a nest: a permutation of its loops, and with an output filter two of them and the sizes of a tile. -/
structure Nest.Sound (n : Nest) : Prop where
  perm : n.perm.Nodup
  loops : n.oe = true → n.orow ∈ n.perm ∧ n.ocol ∈ n.perm
  sizes : n.oe = true → 1 ≤ n.tm ∧ 1 ≤ n.tn

/-- The count of a row, and of a column, is that of the tiles which pass. -/
theorem Nest.inRow_eq (n : Nest) (h : 1 ≤ n.tn) (a : Nat) :
    n.inRow a = ∑ b ∈ Finset.range (n.trip n.ocol), if n.passes a b = true then 1 else 0 := by
  rw [← Finset.card_filter]
  unfold Nest.inRow Nest.passes
  split
  · have tiles : ((Finset.range (n.trip n.ocol)).filter fun b => decide (a * n.tm ≤ (b + 1) * n.tn - 1) = true)
        = Finset.Ico (a * n.tm / n.tn) (n.trip n.ocol) := by
      ext b
      have : a * n.tm ≤ (b + 1) * n.tn - 1 ↔ a * n.tm / n.tn ≤ b := by
        have below : a * n.tm / n.tn < b + 1 ↔ a * n.tm < (b + 1) * n.tn := Nat.div_lt_iff_lt_mul h
        have : 0 < (b + 1) * n.tn := Nat.mul_pos b.succ_pos h
        omega
      simp only [Finset.mem_filter, Finset.mem_range, Finset.mem_Ico, decide_eq_true_eq, this]
      exact and_comm
    rw [tiles, Nat.card_Ico]
  · by_cases ha : a = 0 <;> simp [ha]
  · simp

theorem Nest.inCol_eq (n : Nest) (h : 1 ≤ n.tm) (b : Nat) :
    n.inCol b = ∑ a ∈ Finset.range (n.trip n.orow), if n.passes a b = true then 1 else 0 := by
  rw [← Finset.card_filter]
  unfold Nest.inCol Nest.passes
  split
  · have tiles : ((Finset.range (n.trip n.orow)).filter fun a => decide (a * n.tm ≤ (b + 1) * n.tn - 1) = true)
        = Finset.range (min (n.trip n.orow) (((b + 1) * n.tn - 1) / n.tm + 1)) := by
      ext a
      simp only [Finset.mem_filter, Finset.mem_range, decide_eq_true_eq, lt_min_iff, Nat.lt_succ_iff,
        Nat.le_div_iff_mul_le h]
    rw [tiles, Finset.card_range]
  · have tiles : ((Finset.range (n.trip n.orow)).filter fun a => (a == 0) = true)
        = Finset.range (min (n.trip n.orow) 1) := by
      ext a
      simp only [Finset.mem_filter, Finset.mem_range, beq_iff_eq, lt_min_iff, Nat.lt_one_iff]
    rw [tiles, Finset.card_range]
  · simp

/-- A loop of the output fixed, one index after another. -/
theorem Nest.pairs_both (n : Nest) (h : n.orow = n.ocol) :
    n.pairs none none = ∑ v ∈ Finset.range (n.trip n.orow), n.pairs (some v) (some v) := by
  unfold Nest.pairs
  rw [if_pos h, sumTo_eq]

theorem Nest.pairs_row (n : Nest) (hs : 1 ≤ n.tm) (h : n.orow ≠ n.ocol) (b : Option Nat) :
    n.pairs none b = ∑ v ∈ Finset.range (n.trip n.orow), n.pairs (some v) b := by
  cases b with
  | none => simp only [Nest.pairs, if_neg h, sumTo_eq]
  | some b => exact n.inCol_eq hs b

theorem Nest.pairs_col (n : Nest) (hs : 1 ≤ n.tm ∧ 1 ≤ n.tn) (h : n.orow ≠ n.ocol) (a : Option Nat) :
    n.pairs a none = ∑ v ∈ Finset.range (n.trip n.ocol), n.pairs a (some v) := by
  cases a with
  | none =>
    simp only [Nest.pairs, if_neg h, sumTo_eq, n.inRow_eq hs.2, n.inCol_eq hs.1]
    exact Finset.sum_comm
  | some a => exact n.inRow_eq hs.2 a

/-- A loop that the output filter reads. -/
def Nest.isOut (n : Nest) (j : Nat) : Bool := n.oe && (j == n.orow || j == n.ocol)

/-- The test of a combination by the output filter, where it has one (R151). -/
def Nest.tile (n : Nest) (ix : List (Nat × Nat)) : Bool :=
  !n.oe || n.passes ((ix.lookup n.orow).getD 0) ((ix.lookup n.ocol).getD 0)

/-- The tiles in which some loops have given indices: those of the remaining loops, in the nest's order. -/
def Nest.completions (n : Nest) (rest : List Nat) (fixed : List (Nat × Nat)) : List (List (Nat × Nat)) :=
  (combinations n.trip rest).filter fun ix => n.tile (ix ++ fixed)

/-- The loops that remain are the inner ones, and the others have indices. -/
def Nest.Remains (n : Nest) (rest : List Nat) (fixed : List (Nat × Nat)) : Prop :=
  ∃ outer, n.perm = outer ++ rest ∧ ∀ j, (fixed.lookup j).isSome = true ↔ j ∈ outer

/-- The count of those tiles by the loops that remain. -/
def Nest.remaining (n : Nest) (rest : List Nat) (fixed : List (Nat × Nat)) : Nat :=
  ((rest.filter fun j => !n.isOut j).map n.trip).prod
    * if n.oe then n.pairs (fixed.lookup n.orow) (fixed.lookup n.ocol) else 1

theorem lookup_cons_ne {j k v : Nat} {fixed : List (Nat × Nat)} (h : k ≠ j) :
    ((j, v) :: fixed).lookup k = fixed.lookup k := by
  rw [List.lookup_cons, beq_eq_false_iff_ne.mpr h]

section
variable {n : Nest}

theorem Nest.remains_nil : n.Remains n.perm [] := ⟨[], rfl, fun j => by simp⟩

theorem Nest.Remains.cons {j : Nat} {t : List Nat} {fixed : List (Nat × Nat)} (h : n.Remains (j :: t) fixed) (v : Nat) :
    n.Remains t ((j, v) :: fixed) := by
  obtain ⟨outer, perm, keys⟩ := h
  refine ⟨outer ++ [j], by rw [perm, List.append_cons], fun k => ?_⟩
  by_cases hk : k = j
  · subst hk; simp
  · rw [lookup_cons_ne hk, keys, List.mem_append, List.mem_singleton]
    simp [hk]

/-- A fixed index is of a loop that does not remain. -/
theorem Nest.Remains.lookup_none {rest : List Nat} {fixed : List (Nat × Nat)} (h : n.Remains rest fixed)
    (hn : n.perm.Nodup) {j : Nat} (hj : j ∈ rest) : fixed.lookup j = none := by
  obtain ⟨outer, perm, keys⟩ := h
  rw [perm, List.nodup_append] at hn
  rw [← Option.not_isSome_iff_eq_none, keys]
  exact fun ho => hn.2.2 j ho j hj rfl

theorem Nest.Remains.nodup {j : Nat} {t : List Nat} {fixed : List (Nat × Nat)} (h : n.Remains (j :: t) fixed)
    (hn : n.perm.Nodup) : j ∉ t := by
  obtain ⟨outer, perm, -⟩ := h
  rw [perm, List.nodup_append, List.nodup_cons] at hn
  exact hn.2.1.1

/-- The model's count of tiles is that of the loops that remain. -/
theorem Nest.tiles_eq_remaining {rest : List Nat} {fixed : List (Nat × Nat)} (h : n.Remains rest fixed)
    (hn : n.perm.Nodup) : n.tiles fixed = n.remaining rest fixed := by
  have free : (n.perm.filter fun j => (fixed.lookup j).isNone && !n.isOut j) = rest.filter fun j => !n.isOut j := by
    obtain ⟨outer, perm, keys⟩ := id h
    have none : outer.filter (fun j => (fixed.lookup j).isNone && !n.isOut j) = [] := by
      rw [List.filter_eq_nil_iff]
      intro j hj
      rw [Option.isNone_eq_false_iff.mpr ((keys j).mpr hj)]
      simp
    rw [perm, List.filter_append, none, List.nil_append]
    refine List.filter_congr fun j hj => ?_
    rw [h.lookup_none hn hj]
    rfl
  have product (l : List Nat) : l.foldl (fun p j => p * n.trip j) 1 = (l.map n.trip).prod := by
    rw [List.prod_eq_foldl, List.foldl_map]
  unfold Nest.tiles Nest.remaining
  simp only [show (fun j => (fixed.lookup j).isNone && !(n.oe && (j == n.orow || j == n.ocol))) = fun j =>
    (fixed.lookup j).isNone && !n.isOut j from rfl, free, product]
  split
  · rfl
  · rw [Nat.mul_one]

/-- The index of a loop that the filter does not read does not change the count. -/
theorem Nest.remaining_fix {j : Nat} (out : n.isOut j = false) (rest : List Nat) (fixed : List (Nat × Nat)) (v : Nat) :
    n.remaining rest ((j, v) :: fixed) = n.remaining rest fixed := by
  unfold Nest.remaining
  refine congrArg _ (if_ctx_congr Iff.rfl (fun oe => ?_) fun _ => rfl)
  simp only [Nest.isOut, oe, Bool.true_and, Bool.or_eq_false_iff, beq_eq_false_iff_ne] at out
  rw [lookup_cons_ne out.1.symm, lookup_cons_ne out.2.symm]

/-- The tiles are counted by the outermost loop that remains. -/
theorem Nest.Sound.remaining_cons (hn : n.Sound) {j : Nat} {t : List Nat} {fixed : List (Nat × Nat)}
    (h : n.Remains (j :: t) fixed) :
    n.remaining (j :: t) fixed = ∑ v ∈ Finset.range (n.trip j), n.remaining t ((j, v) :: fixed) := by
  have none := h.lookup_none hn.perm (.head _)
  cases out : n.isOut j with
  | false =>
    simp only [n.remaining_fix out, Finset.sum_const, Finset.card_range, smul_eq_mul]
    simp only [Nest.remaining, List.filter_cons, out, Bool.not_false, if_true, List.map_cons, List.prod_cons,
      Nat.mul_assoc]
  | true =>
    have pairs : n.pairs (fixed.lookup n.orow) (fixed.lookup n.ocol)
        = ∑ v ∈ Finset.range (n.trip j),
          n.pairs (((j, v) :: fixed).lookup n.orow) (((j, v) :: fixed).lookup n.ocol) := by
      simp only [Nest.isOut, Bool.and_eq_true, Bool.or_eq_true, beq_iff_eq] at out
      obtain ⟨oe, loop⟩ := out
      have sizes := hn.sizes oe
      by_cases same : n.orow = n.ocol
      · obtain rfl : j = n.orow := loop.elim id fun e => e.trans same.symm
        simp only [← same, none, List.lookup_cons_self]
        exact n.pairs_both same
      · rcases loop with rfl | rfl
        · simp only [none, List.lookup_cons_self, lookup_cons_ne (Ne.symm same)]
          exact n.pairs_row sizes.1 same _
        · simp only [none, List.lookup_cons_self, lookup_cons_ne same]
          exact n.pairs_col sizes same _
    have oe : n.oe = true := (Bool.and_eq_true_iff.mp out).1
    simp only [Nest.remaining, oe, if_true, List.filter_cons, out, Bool.not_true, Bool.false_eq_true, if_false,
      ← Finset.mul_sum, pairs]

/-- The tiles in which an outermost loop is fixed too, one index after another. -/
theorem Nest.completions_cons {j : Nat} {t : List Nat} (hj : j ∉ t) (fixed : List (Nat × Nat)) :
    n.completions (j :: t) fixed
      = (List.range (n.trip j)).flatMap fun v => (n.completions t ((j, v) :: fixed)).map fun ix => (j, v) :: ix := by
  unfold Nest.completions
  rw [combinations, List.filter_flatMap]
  refine List.flatMap_congr fun v _ => ?_
  rw [List.filter_map]
  refine congrArg (List.map _) (List.filter_congr fun ix hix => ?_)
  have keys : j ∉ ix.map Prod.fst := by rwa [keys_of_mem_combinations hix]
  simp only [Function.comp_apply, Nest.tile, lookup_insert keys]

/-- Where every loop has an index, the combination is one tile or none. -/
theorem Nest.Sound.completions_nil (hn : n.Sound) {fixed : List (Nat × Nat)} (h : n.Remains [] fixed) :
    (n.completions [] fixed).length = n.remaining [] fixed := by
  obtain ⟨outer, perm, keys⟩ := h
  rw [List.append_nil] at perm
  unfold Nest.completions Nest.remaining Nest.tile
  cases oe : n.oe with
  | false => simp [combinations]
  | true =>
    obtain ⟨row, col⟩ := hn.loops oe
    obtain ⟨a, ha⟩ := Option.isSome_iff_exists.mp ((keys _).mpr (perm ▸ row))
    obtain ⟨b, hb⟩ := Option.isSome_iff_exists.mp ((keys _).mpr (perm ▸ col))
    cases pass : n.passes a b <;> simp [combinations, ha, hb, Nest.pairs, pass]

/-- The model's count is the number of the tiles (R381). -/
theorem Nest.Sound.length_completions (hn : n.Sound) : ∀ {rest : List Nat} {fixed : List (Nat × Nat)},
    n.Remains rest fixed → (n.completions rest fixed).length = n.tiles fixed
  | [], fixed, h => (hn.completions_nil h).trans (n.tiles_eq_remaining h hn.perm).symm
  | j :: t, fixed, h => by
    have inner (v : Nat) : (n.completions t ((j, v) :: fixed)).length = n.remaining t ((j, v) :: fixed) :=
      (hn.length_completions (h.cons v)).trans (n.tiles_eq_remaining (h.cons v) hn.perm)
    rw [n.tiles_eq_remaining h hn.perm, hn.remaining_cons h, n.completions_cons (h.nodup hn.perm), List.length_flatMap,
      ← sum_map_range]
    simp only [List.length_map, inner]

end

/-! ### The tile of a rank (R67) -/

/-- In a list of blocks, the place of a rank is found by passing over one block after another. -/
theorem Nest.digit_spec {α : Type} {n : Nest} {fixed : List (Nat × Nat)} {j : Nat} {block : Nat → List α}
    (hl : ∀ v, (block v).length = n.tiles ((j, v) :: fixed)) {y : α} : ∀ (k v r : Nat),
    ((List.range' v k).flatMap block)[r]? = some y →
      (block (n.digit fixed j k v r).1)[(n.digit fixed j k v r).2]? = some y
  | 0, _, _, h => by simp at h
  | k + 1, v, r, h => by
    rw [List.range'_succ, List.flatMap_cons] at h
    unfold Nest.digit
    simp only [← hl]
    split
    · next inside => rwa [List.getElem?_append_left inside] at h
    · next beyond =>
      rw [List.getElem?_append_right (Nat.not_lt.mp beyond)] at h
      exact digit_spec hl k (v + 1) _ h

/-- Where all blocks have one length, division finds it. -/
theorem getElem?_flatMap_of_length {α : Type} {c : Nat} {block : Nat → List α} (hl : ∀ v, (block v).length = c)
    {y : α} : ∀ (k v r : Nat), ((List.range' v k).flatMap block)[r]? = some y → (block (v + r / c))[r % c]? = some y
  | 0, _, _, h => by simp at h
  | k + 1, v, r, h => by
    rw [List.range'_succ, List.flatMap_cons] at h
    by_cases inside : r < c
    · rw [List.getElem?_append_left (by rwa [hl])] at h
      rwa [Nat.div_eq_of_lt inside, Nat.mod_eq_of_lt inside]
    · have beyond : c ≤ r := Nat.not_lt.mp inside
      rw [List.getElem?_append_right (by rwa [hl]), hl] at h
      rcases Nat.eq_zero_or_pos c with rfl | hc
      · simp [fun x => List.length_eq_zero_iff.mp (hl x)] at h
      rw [Nat.mod_eq_sub_mod beyond, Nat.div_eq_sub_div hc beyond, Nat.add_comm _ 1, ← Nat.add_assoc]
      exact getElem?_flatMap_of_length hl k (v + 1) _ h

/-- A rank's indices are those of the tile at its place. -/
theorem Nest.Sound.lookup_decode {n : Nest} (hn : n.Sound) :
    ∀ {rest : List Nat} {fixed ix : List (Nat × Nat)} {r : Nat}, n.Remains rest fixed → (n.completions rest fixed)[r]? = some ix →
      ∀ k, (n.decode rest fixed r).lookup k = (ix ++ fixed).lookup k
  | [], fixed, ix, r, _, h, k => by
    have : ix ∈ n.completions [] fixed := List.mem_of_getElem? h
    obtain rfl : ix = [] := List.mem_singleton.mp (List.mem_filter.mp this).1
    rfl
  | j :: t, fixed, ix, r, h, hr, k => by
    have hj := h.nodup hn.perm
    have inner {v r' : Nat} (hv : ((n.completions t ((j, v) :: fixed)).map fun ix => (j, v) :: ix)[r']? = some ix) :
        (n.decode t ((j, v) :: fixed) r').lookup k = (ix ++ fixed).lookup k := by
      rw [List.getElem?_map, Option.map_eq_some_iff] at hv
      obtain ⟨ix', hix, rfl⟩ := hv
      have keys := keys_of_mem_combinations (List.mem_filter.mp (List.mem_of_getElem? hix)).1
      rw [hn.lookup_decode (h.cons v) hix, lookup_insert (keys ▸ hj)]
    have count (v : Nat) : ((n.completions t ((j, v) :: fixed)).map fun ix => (j, v) :: ix).length
        = n.tiles ((j, v) :: fixed) := by rw [List.length_map, hn.length_completions (h.cons v)]
    rw [n.completions_cons hj, List.range_eq_range'] at hr
    unfold Nest.decode
    cases out : n.isOut j with
    | true => exact (if_pos out).symm ▸ inner (digit_spec count _ _ _ hr)
    | false =>
      have alike (v : Nat) : n.tiles ((j, v) :: fixed) = n.tiles ((j, 0) :: fixed) := by
        rw [n.tiles_eq_remaining (h.cons v) hn.perm, n.tiles_eq_remaining (h.cons 0) hn.perm, n.remaining_fix out,
          n.remaining_fix out]
      have := getElem?_flatMap_of_length (fun v => (count v).trans (alike v)) _ _ _ hr
      rw [Nat.zero_add] at this
      exact (if_neg (Bool.eq_false_iff.mp out)).symm ▸ inner this

/-! ### Ranks among all combinations -/

/-- The number of the combinations is the product of the trips. -/
theorem length_combinations (trip : Nat → Nat) : ∀ l : List Nat, (combinations trip l).length = (l.map trip).prod
  | [] => rfl
  | j :: t => by simp [combinations, length_combinations trip t]

/-- The model's place of a combination is its rank among all. -/
theorem foldl_ordinal {trip : Nat → Nat} : ∀ {l : List Nat} {ix : List (Nat × Nat)} {r : Nat} (f : Nat → Option Nat)
    (t₀ : Nat), l.Nodup → (combinations trip l)[r]? = some ix → (∀ j ∈ l, f j = ix.lookup j) →
      l.foldl (fun t j => t * trip j + (f j).getD 0) t₀ = t₀ * (l.map trip).prod + r
  | [], ix, r, f, t₀, _, h, _ => by
    cases r <;> simp [combinations] at h ⊢
  | j :: t, ix, r, f, t₀, hl, h, hf => by
    obtain ⟨hj, ht⟩ := List.nodup_cons.mp hl
    rw [combinations, List.range_eq_range'] at h
    have place := getElem?_flatMap_of_length (c := (t.map trip).prod)
      (block := fun v => (combinations trip t).map fun ix => (j, v) :: ix)
      (fun v => by rw [List.length_map, length_combinations]) _ _ _ h
    rw [Nat.zero_add, List.getElem?_map, Option.map_eq_some_iff] at place
    obtain ⟨ix', hix, rfl⟩ := place
    have here : f j = some (r / (t.map trip).prod) := by rw [hf j (.head _), List.lookup_cons_self]
    have inner (k : Nat) (hk : k ∈ t) : f k = ix'.lookup k := by
      rw [hf k (.tail _ hk), lookup_cons_ne (fun e => hj (e ▸ hk) : k ≠ j)]
    rw [List.foldl_cons, foldl_ordinal f _ ht hix inner, here, List.map_cons, List.prod_cons, Option.getD_some,
      Nat.add_mul, Nat.mul_assoc, Nat.add_assoc, Nat.div_add_mod']

/-- Without an output filter every combination is a tile, and a rank is its own place. -/
theorem Nest.Sound.ordinal_decode {n : Nest} (hn : n.Sound) (oe : n.oe = false) {r : Nat} {ix : List (Nat × Nat)}
    (h : (n.completions n.perm [])[r]? = some ix) : n.ordinal (n.decode n.perm [] r) = r := by
  have all : n.completions n.perm [] = combinations n.trip n.perm := by
    unfold Nest.completions Nest.tile
    rw [oe]
    exact List.filter_true _
  have := hn.lookup_decode n.remains_nil h
  rw [all] at h
  unfold Nest.ordinal
  rw [foldl_ordinal (fun j => (n.decode n.perm [] r).lookup j) 0 hn.perm h fun j _ => by rw [this, List.append_nil],
    Nat.zero_mul, Nat.zero_add]

/-! ### Declared nests (R380, R381) -/

/-- The model's test of a block is the table of R380. -/
theorem declOk_iff (n : Nat) (d : Block64) : declOk n d = true ↔ DeclLegal n d := by
  have output : (if declOe d then blk d 27 1 == 0 && blk d 31 1 == 0 && decide (blk d 24 3 < declNl d)
        && decide (blk d 28 3 < declNl d) && decide (1 ≤ blk d 320 32) && decide (1 ≤ blk d 352 32)
      else blk d 24 8 == 0 && blk d 320 64 == 0) = true
      ↔ if d.getLsbD 16 = true then blk d 27 1 = 0 ∧ blk d 31 1 = 0 ∧ blk d 24 3 < declNl d ∧ blk d 28 3 < declNl d
        ∧ 1 ≤ blk d 320 32 ∧ 1 ≤ blk d 352 32 else blk d 24 8 = 0 ∧ blk d 320 64 = 0 := by
    unfold declOe
    split <;> simp only [Bool.and_eq_true, beq_iff_eq, decide_eq_true_eq, and_assoc]
  have perm : (List.range (declNl d)).all (fun j => (declPerm d).contains j) = true
      ↔ ∀ j, j < declNl d → ∃ p, p < declNl d ∧ blk d (32 + 8 * p) 8 = j := by
    simp [declPerm]
  have rest : (List.range 6).all (fun p => decide (p < declNl d)
        || (blk d (32 + 8 * p) 8 == 0 && blk d (128 + 32 * p) 32 == 0)) = true
      ↔ ∀ p, p < 6 → declNl d ≤ p → blk d (32 + 8 * p) 8 = 0 ∧ blk d (128 + 32 * p) 32 = 0 := by
    simp only [List.all_eq_true, List.mem_range, Bool.or_eq_true, decide_eq_true_eq, Bool.and_eq_true, beq_iff_eq,
      or_iff_not_imp_left, not_lt]
  unfold declOk
  simp only [Bool.and_eq_true, output, perm, rest, decide_eq_true_eq, beq_iff_eq]
  constructor
  · rintro ⟨⟨⟨⟨⟨⟨⟨⟨h1, h6⟩, level⟩, z1⟩, output⟩, perm⟩, rest⟩, z2⟩, z3⟩
    exact ⟨⟨h1, h6⟩, level, ⟨z1, z2, z3⟩, output, perm, rest⟩
  · rintro ⟨⟨h1, h6⟩, level, ⟨z1, z2, z3⟩, output, perm, rest⟩
    exact ⟨⟨⟨⟨⟨⟨⟨⟨h1, h6⟩, level⟩, z1⟩, output⟩, perm⟩, rest⟩, z2⟩, z3⟩

/-- The loops of a legal block, in their order, are all its loops, each once. -/
theorem DeclLegal.declPerm_perm {n : Nat} {d : Block64} (h : DeclLegal n d) :
    (declPerm d).Perm (List.range (declNl d)) := by
  have all : List.range (declNl d) ⊆ declPerm d := fun j hj => by
    obtain ⟨p, hp, e⟩ := h.perm j (List.mem_range.mp hj)
    exact List.mem_map.mpr ⟨p, List.mem_range.mpr hp, e⟩
  exact ((List.subperm_of_subset List.nodup_range all).perm_of_length_le (by simp [declPerm])).symm

theorem DeclLegal.mem_declPerm {n : Nat} {d : Block64} (h : DeclLegal n d) {j : Nat} :
    j ∈ declPerm d ↔ j < declNl d := by
  rw [h.declPerm_perm.mem_iff, List.mem_range]

/-- The filter of an output descriptor that R381 admits, and of no other. -/
theorem outFilter_isSome (out : Block64) : (outFilter out).isSome = true ↔ OutputLegal out := by
  unfold outFilter OutputLegal
  split
  · next h => simp [h]
  · next g h =>
    simp only [h, reduceCtorEq, List.cons.injEq, and_true, exists_eq_left', false_or]
    by_cases axes : g.axes = [0, 1]
    · simp only [axes, true_and, if_true]
      split <;> simp_all
    · simp [axes]
  · next h1 h2 =>
    refine ⟨fun h => (by cases h), ?_⟩
    rintro (h | ⟨g, h, -⟩)
    · exact (h1 h).elim
    · exact (h2 g h).elim

/-- The filter of no generator, and of one that R381 admits. -/
theorem outFilter_of_gens {out : Block64} :
    ((descOf out).gens = [] → outFilter out = some 0)
      ∧ ∀ g, (descOf out).gens = [g] → g.axes = [0, 1] →
        (g.kind = 0 → outFilter out = some 1) ∧ (g.kind = 2 → outFilter out = some 2) := by
  unfold outFilter
  refine ⟨fun h => by rw [h], fun g h axes => ⟨fun kind => ?_, fun kind => ?_⟩⟩ <;>
    simp only [h, axes, kind, if_true]

section
variable {n : Nat} {d out : Block64} (h : DeclLegal n d)
include h

theorem DeclLegal.filtered (oe : d.getLsbD 16 = true) :
    (blk d 24 3 < declNl d ∧ blk d 28 3 < declNl d) ∧ 1 ≤ blk d 320 32 ∧ 1 ≤ blk d 352 32 := by
  have output := h.output
  rw [if_pos oe] at output
  obtain ⟨-, -, row, col, tm, tn⟩ := output
  exact ⟨⟨row, col⟩, tm, tn⟩

theorem DeclLegal.sound : (nestOf d out).Sound where
  perm := h.declPerm_perm.nodup_iff.mpr List.nodup_range
  loops := fun oe => ⟨h.mem_declPerm.mpr (h.filtered oe).1.1, h.mem_declPerm.mpr (h.filtered oe).1.2⟩
  sizes := fun oe => (h.filtered oe).2

theorem DeclLegal.trip {j : Nat} (hj : j ∈ declPerm d) : (nestOf d out).trip j = blk d (128 + 32 * j) 32 := by
  have := h.mem_declPerm.mp hj
  simp [Nest.trip, nestOf, declTrips, this]

/-- The model's test of a combination is that of R151. -/
theorem DeclLegal.isTile_eq (ho : d.getLsbD 16 = true → OutputLegal out) (ix : List (Nat × Nat)) :
    IsTile d out ix = (nestOf d out).tile ix := by
  have plain : (nestOf d out).oe = d.getLsbD 16 := rfl
  unfold IsTile Nest.tile Nest.passes
  rw [plain]
  cases oe : d.getLsbD 16 with
  | false => rfl
  | true =>
    have kind : (nestOf d out).kind = (outFilter out).getD 0 := rfl
    rcases ho oe with gens | ⟨g, gens, axes, sym | circ⟩
    · simp only [kind, outFilter_of_gens.1 gens, gens, Option.getD_some]
    · have tn : 1 ≤ blk d 352 32 := (h.filtered oe).2.2
      have last (a b : Nat) : a < (b + 1) * blk d 352 32 ↔ a ≤ (b + 1) * blk d 352 32 - 1 := by
        have : 0 < (b + 1) * blk d 352 32 := Nat.mul_pos b.succ_pos tn
        omega
      simp only [kind, (outFilter_of_gens.2 g gens axes).1 sym, gens, Option.getD_some, sym, if_true, last]
      rfl
    · simp only [kind, (outFilter_of_gens.2 g gens axes).2 circ, gens, Option.getD_some, circ]
      rfl

/-- The tiles of a legal nest are those that the model counts, in its order. -/
theorem DeclLegal.tilesOf_eq (ho : d.getLsbD 16 = true → OutputLegal out) :
    tilesOf d out = (nestOf d out).completions (nestOf d out).perm [] := by
  have trips : combinations (fun j => blk d (128 + 32 * j) 32) (declPerm d)
      = combinations (nestOf d out).trip (declPerm d) :=
    combinations_congr fun j hj => (h.trip hj).symm
  refine (congrArg (List.filter (IsTile d out)) trips).trans (List.filter_congr fun ix _ => ?_)
  rw [List.append_nil, h.isTile_eq ho]

theorem DeclLegal.length_tilesOf (ho : d.getLsbD 16 = true → OutputLegal out) :
    (tilesOf d out).length = (nestOf d out).tiles [] := by
  rw [h.tilesOf_eq ho]
  exact h.sound.length_completions Nest.remains_nil

end

end Sys2Proof.Machine
end

section
namespace Sys2Proof.Machine

/-! ### Several results of one word -/

/-- What the executing context is in does not change. -/
theorem Alone.fixed {s t : State} (h : Alone s t) : t.cur = s.cur ∧ t.cix = s.cix ∧ t.cycle = s.cycle :=
  ⟨(congrArg State.cur h.package :), (congrArg State.cix h.package :), (congrArg State.cycle h.package :)⟩

/-- Lists that agree under a test agree under a stricter one. -/
theorem filter_eq_of_imp {α : Type} {p q : α → Bool} (h : ∀ x, p x = true → q x = true) {a b : List α}
    (hq : a.filter q = b.filter q) : a.filter p = b.filter p := by
  have stricter (l : List α) : (l.filter q).filter p = l.filter p := by
    rw [List.filter_filter]
    refine List.filter_congr fun x _ => ?_
    cases hp : p x with
    | false => rfl
    | true => exact h x hp
  rw [← stricter a, hq, stricter b]

theorem RegisterStep.refl (s : State) (lat : Nat) : RegisterStep s s [] lat 0 where
  alone := alone_refl s
  core := rfl
  numbers := ⟨rfl, rfl⟩
  agenda := rfl
  ctx := rfl
  regs := s.me.regs.keeps_refl _
  awaited := fun c r _ => by simp

/-- Results of one latency, one after another. -/
theorem RegisterStep.trans {s t u : State} {l l' l'' : List RegName} {lat : Nat} {fl fl' : Flags}
    (h : RegisterStep s t l lat fl) (h' : RegisterStep t u l' lat fl') (hl : ∀ x, x ∈ l'' ↔ x ∈ l ∨ x ∈ l') :
    RegisterStep s u l'' lat (fl ||| fl') := by
  obtain ⟨hcur, hcix, hcycle⟩ := h.alone.fixed
  have both (r : RegName) : l''.contains r = (l.contains r || l'.contains r) := by
    rw [Bool.eq_iff_iff, Bool.or_eq_true]
    simpa using hl r
  have mark (e : Nat × Instr) : s.isMark l'' e = (s.isMark l e || t.isMark l' e) := by
    unfold State.isMark
    split
    · rw [both, hcur, hcix, Bool.and_or_distrib_left]
    · rfl
  have unmarked (e : Nat × Instr) (he : (!s.isMark l'' e) = true) : (!s.isMark l e) = true ∧ (!t.isMark l' e) = true := by
    simpa [mark] using he
  exact {
    alone := by
      refine ⟨?_, fun k hk => ?_, fun j hj => ?_⟩
      · have h1 := h.alone.package; have h2 := h'.alone.package
        rw [← h1, ← h2]
      · rw [h'.alone.cores k (hcur ▸ hk), h.alone.cores k hk]
      · rw [← h.alone.others j hj, ← hcur]
        exact h'.alone.others j (hcix ▸ hj)
    core := by
      have := h'.core
      rw [hcur] at this
      exact (congrArg (fun c : Core => { c with ctxs := (s.core s.cur).ctxs }) this).trans h.core
    numbers := ⟨h'.numbers.1.trans h.numbers.1, h'.numbers.2.trans h.numbers.2⟩
    agenda := (filter_eq_of_imp (fun e he => (unmarked e he).2) h'.agenda).trans
      (filter_eq_of_imp (fun e he => (unmarked e he).1) h.agenda)
    ctx := (congrArg (fun c : Ctx => { c with regs := s.me.regs, sb := s.me.sb }) h'.ctx).trans h.ctx
    regs := (h.regs.mono fun x hx => (hl x).mpr (.inl hx)).trans (h'.regs.mono fun x hx => (hl x).mpr (.inr hx))
    awaited := fun c r hc => by
      rw [h'.awaited c r (hcycle ▸ hc), h.awaited c r hc, both, hcycle, Bool.or_assoc, Bool.and_or_distrib_right] }

/-- A predicate result that is ready some cycles later (R362, R70). -/
theorem putP_readyIn_step (s : State) (d : Fin 16) (v : Bool) (lat : Nat) :
    RegisterStep s (if d = 0 then s.putP d v else (s.putP d v).readyIn (.p d) lat) (pDest d) lat 0 := by
  have hk := s.me.regs.keeps_wp d v
  split
  · next h =>
    subst h
    have w := putP_step s 0 v
    exact ⟨w.alone, w.core, w.numbers, w.agenda, w.ctx, w.regs, fun c r hc => by simpa [pDest] using w.awaited c r hc⟩
  · next h =>
    have : pDest d = [.p d] := by simp [pDest, h]
    rw [this] at hk ⊢
    exact wr_readyIn_step s _ _ _ hk

/-- Scalar results, one for each of some numbers. -/
def State.putAll (s : State) (d : Nat → Fin 32) (v : Nat → Word) (lat : Nat) (l : List Nat) : State :=
  l.foldl (fun s j => s.putS (d j) (v j) lat) s

section
variable {d : Nat → Fin 32} {v : Nat → Word} {lat : Nat} (hlat : 1 ≤ lat)
include hlat

theorem putAll_step : ∀ (l : List Nat) (s : State),
    RegisterStep s (s.putAll d v lat l) (l.flatMap fun j => sDest (d j)) lat 0
  | [], s => .refl s lat
  | j :: t, s => (putS_step s (d j) (v j) lat hlat).trans (putAll_step t _) fun x => by
      rw [List.flatMap_cons, List.mem_append]

/-- Each is in its register, where no two go to one. -/
theorem putAll_value : ∀ {l : List Nat} {s : State}, (l.map d).Nodup → ∀ j ∈ l, d j ≠ 0 →
    (s.putAll d v lat l).me.regs.rs (d j) = v j
  | k :: t, s, hn, j, hj, h0 => by
    obtain ⟨hk, ht⟩ := List.nodup_cons.mp hn
    rcases List.mem_cons.mp hj with rfl | hj
    · have kept := (putAll_step (d := d) (v := v) hlat t (s.putS (d j) (v j) lat)).regs.s (d j) fun h => by
        obtain ⟨m, hm, hx⟩ := List.mem_flatMap.mp h
        unfold sDest at hx
        split at hx
        · cases hx
        · exact hk (List.mem_map.mpr ⟨m, hm, by simpa using (List.mem_singleton.mp hx).symm⟩)
      exact kept.trans ((putS_value ..).trans (if_neg h0))
    · exact putAll_value ht j hj h0

end

end Sys2Proof.Machine
end

section
namespace Sys2Proof.Machine

/-! ### LNINIT (R67, R381) -/

theorem lninitOff_eq (s : State) (x : Fin 32) (imm : BitVec 17) :
    s.lninitOff x imm = ((s.rs x).toNat + 8 * imm.toNat) % 2 ^ 22 / 64 * 64 := by
  rw [State.lninitOff, State.scrOff, alignDown_mod _ _ _ (by decide), Nat.mul_comm imm.toNat]

/-- What a block and its output register decide (R381). -/
def State.nestOk (s : State) (d : Block64) : Verdict :=
  if !declOk (s.levels s.me.vf).length d then s.illMod
  else if !declOe d then s.illModIf (decide (2 ^ 63 ≤ (nestOf d (s.oreg (declOreg d))).tiles []))
  else (s.orbitOk (declOreg d)).and
    (if (outFilter (s.oreg (declOreg d))).isNone then s.illMod
    else s.illModIf (decide (2 ^ 63 ≤ (nestOf d (s.oreg (declOreg d))).tiles [])))

/-- In strict mode, with the block in a buffer that the core holds, they decide. -/
theorem lninitOk_eq {s : State} {x : Fin 32} {imm : BitVec 17} (strict : s.me.strict = true)
    {o : Nat} (ho : s.lninitOff x imm = o) (held : s.HoldsRange o 64) : s.lninitOk x imm = s.nestOk (s.declAt o) := by
  subst ho
  have mode : s.illModIf (!s.me.strict) = .go := (illModIf_eq_go s).mpr (by rw [strict]; rfl)
  unfold State.lninitOk State.nestOk
  simp only [mode, (ownHeld_eq_go s).mpr held, Verdict.go_and]

theorem lninitOk_not_strict {s : State} {x : Fin 32} {imm : BitVec 17} (h : s.me.strict = false) :
    s.lninitOk x imm = s.illMod := by
  unfold State.lninitOk
  simp only [h, Bool.not_false]
  rfl

section
variable {s : State} {d : Block64}

/-- A block that breaks the table of R380. -/
theorem nestOk_illegal (h : ¬ DeclLegal (s.levels s.me.vf).length d) : s.nestOk d = s.illMod := by
  have bad : declOk (s.levels s.me.vf).length d = false := Bool.eq_false_iff.mpr fun ok => h ((declOk_iff _ _).mp ok)
  rw [State.nestOk, bad]
  rfl

section
variable (legal : DeclLegal (s.levels s.me.vf).length d)
include legal

/-- A filter whose register describes no tensor. -/
theorem nestOk_empty (oe : d.getLsbD 16 = true) (rank : (descOf (s.oreg (declOreg d))).rank = 0) :
    s.nestOk d = .trap .orbitRange 2 := by
  have filters : declOe d = true := oe
  rw [State.nestOk, (declOk_iff _ _).mpr legal, filters, State.orbitOk, rank]
  rfl

/-- A legal block of fewer than 2^63 tiles passes. -/
theorem nestOk_go (output : d.getLsbD 16 = true → (descOf (s.oreg (declOreg d))).rank ≠ 0
      ∧ OutputLegal (s.oreg (declOreg d)))
    (few : (nestOf d (s.oreg (declOreg d))).tiles [] < 2 ^ 63) : s.nestOk d = .go := by
  have count : s.illModIf (decide (2 ^ 63 ≤ (nestOf d (s.oreg (declOreg d))).tiles [])) = .go :=
    (illModIf_eq_go s).mpr (decide_eq_false (Nat.not_le.mpr few))
  rw [State.nestOk, (declOk_iff _ _).mpr legal, count]
  cases oe : declOe d with
  | false => rfl
  | true =>
    obtain ⟨rank, admitted⟩ := output oe
    have filter := Option.isNone_eq_false_iff.mpr ((outFilter_isSome _).mpr admitted)
    have tensor : s.orbitOk (declOreg d) = .go := trapIf_eq_go.mpr (beq_eq_false_iff_ne.mpr rank)
    rw [filter, tensor]
    rfl

end

end

/-- LNINIT whose checks pass opens the nest, with the share of a task that has a logical index. -/
theorem lninit_opens {s : State} {x : Fin 32} {imm : BitVec 17} {o : Nat} (ho : s.lninitOff x imm = o)
    (go : s.lninitOk x imm = .go) (spwn : s.me.spwn = false) :
    let d := s.declAt o
    let out := s.oreg (declOreg d)
    let n := units ((s.levels s.me.vf).drop (blk d 8 8 + 1))
    let t := (nestOf d out).tiles []
    exec (.lninit x imm) s = .next (s.modMe fun c => { c with
      seq := some ⟨o, t * (s.me.logical % n) / n, t * (s.me.logical % n + 1) / n, d, out⟩ }) := by
  subst ho
  refine (show exec (.lninit x imm) s = execLninit x imm s from rfl).trans ?_
  unfold execLninit
  rw [go, guard_go]
  simp only [State.nestShare, spwn, Bool.false_eq_true, if_false]

/-- A word on its own whose check leads to a trap. -/
theorem guard_traps {s : State} (alone : s.me.snap = none) {v : Verdict} {c : Cause} {i : Word} (h : v = .trap c i)
    (k : State → State) : s.guard v k = .next (s.takeTrap c i) := by
  subst h
  exact guard_alone s alone (fun e => (by cases e)) k

/-- LNINIT on its own whose check does not pass. -/
theorem lninit_traps {s : State} {x : Fin 32} {imm : BitVec 17} {c : Cause} {i : Word} (alone : s.me.snap = none)
    (h : s.lninitOk x imm = .trap c i) : exec (.lninit x imm) s = .next (s.takeTrap c i) :=
  (show exec (.lninit x imm) s = execLninit x imm s from rfl).trans (guard_traps alone h _)

/-! ### LNEXT (R67, R381) -/

/-- Combinations that are passed before the tile of a rank. -/
def Nest.passedBefore (n : Nest) (r : Nat) : Nat :=
  if r = 0 then n.ordinal (n.decode n.perm [] r)
  else n.ordinal (n.decode n.perm [] r) - (n.ordinal (n.decode n.perm [] (r - 1)) + 1)

/-- Without an output filter none is. -/
theorem Nest.Sound.passedBefore_eq {n : Nest} (hn : n.Sound) (oe : n.oe = false) {r : Nat}
    (h : r < (n.completions n.perm []).length) : n.passedBefore r = 0 := by
  have place {k : Nat} (hk : k ≤ r) : n.ordinal (n.decode n.perm [] k) = k :=
    hn.ordinal_decode oe (List.getElem?_eq_getElem (Nat.lt_of_le_of_lt hk h))
  unfold Nest.passedBefore
  split
  · next h0 => rw [place le_rfl, h0]
  · rw [place le_rfl, place (Nat.sub_le ..)]
    omega

/-- The nest of the loop sequencer, and the latency of its next tile. -/
def SeqSt.nest (q : SeqSt) : Nest := nestOf q.decl q.odesc
def SeqSt.lat (q : SeqSt) : Nat := 2 + q.nest.passedBefore q.pos

/-- The index of a loop in the next tile. -/
def SeqSt.index (q : SeqSt) (j : Nat) : Nat := ((q.nest.decode q.nest.perm [] q.pos).lookup j).getD 0

/-- LNEXT's writes to the registers of the loops, the first of which is given. -/
def State.indices (s : State) (d : Fin 32) (q : SeqSt) : State :=
  s.putAll (fun j => Fin.ofNat 32 (d.val + j)) (fun j => .ofNat 64 (q.index j)) q.lat (List.range (declNl q.decl))

/-- LNEXT's effect where a tile is left. -/
def State.yields (s : State) (p : Fin 16) (d : Fin 32) (q : SeqSt) : State :=
  let t := ((s.indices d q).putP p true).modMe fun c => { c with seq := some { q with pos := q.pos + 1 } }
  if p = 0 then t else t.readyIn (.p p) q.lat

section
variable {s : State} {q : SeqSt} {d : Fin 32} (strict : s.me.strict = true) (hq : s.me.seq = some q)
  (fits : d.val + declNl q.decl ≤ 32)
include strict hq fits

theorem lnextOk_go : s.lnextOk d = .go := by
  have bad : s.me.lnextBad d = false := by
    unfold Ctx.lnextBad
    rw [hq]
    exact decide_eq_false (Nat.not_lt.mpr fits)
  rw [State.lnextOk, illModIf_eq_go, strict, bad]
  rfl

theorem lnext_yields (p : Fin 16) (h : q.pos < q.fin) : exec (.lnext p d) s = .next (s.yields p d q) := by
  refine (show exec (.lnext p d) s = execLnext p d s from rfl).trans ?_
  unfold execLnext
  rw [lnextOk_go strict hq fits, guard_go]
  simp only [hq, h, if_true]
  rfl

theorem lnext_ends (p : Fin 16) (h : q.fin ≤ q.pos) :
    exec (.lnext p d) s = .next (if p = 0 then s.putP p false else (s.putP p false).readyIn (.p p) 2) := by
  refine (show exec (.lnext p d) s = execLnext p d s from rfl).trans ?_
  unfold execLnext
  rw [lnextOk_go strict hq fits, guard_go]
  simp only [hq, Nat.not_lt.mpr h, if_false]

end

/-- LNEXT on its own without a nest, or not in strict mode. -/
theorem lnext_traps {s : State} {p : Fin 16} {d : Fin 32} (alone : s.me.snap = none)
    (h : s.me.strict = false ∨ s.me.seq = none) :
    exec (.lnext p d) s = .next (s.takeTrap .illMod (layoutW s.me.word.1 s.me.word.2)) := by
  have bad : s.lnextOk d = s.illMod := by
    unfold State.lnextOk Ctx.lnextBad
    rcases h with h | h <;> simp [h, State.illModIf]
  exact (show exec (.lnext p d) s = execLnext p d s from rfl).trans (guard_traps alone bad _)

/-- A change of the nest beside a predicate result, taken back. -/
theorem putP_nest_back (s : State) (p : Fin 16) (v : Bool) (q : Option SeqSt) :
    ((s.putP p v).modMe fun c => { c with seq := q }).modMe (fun c => { c with seq := s.me.seq }) = s.putP p v := by
  unfold State.putP State.wr
  rw [modMe_modMe, modMe_modMe]
  exact modMe_congr rfl

theorem putP_readyIn_nest_back (s : State) (p : Fin 16) (v : Bool) (q : Option SeqSt) (r : RegName) (lat : Nat) :
    (((s.putP p v).modMe fun c => { c with seq := q }).readyIn r lat).modMe (fun c => { c with seq := s.me.seq })
      = (s.putP p v).readyIn r lat := by
  have commutes (t : State) (n : Nat) (e : Instr) (f : Ctx → Ctx) :
      (t.schedule n e).modMe f = (t.modMe f).schedule n e := rfl
  have lock : ((((s.putP p v).modMe fun c => { c with seq := q }).modMe fun c => c.lock r (some (s.cycle + lat))).modMe
      fun c => { c with seq := s.me.seq }) = (s.putP p v).modMe fun c => c.lock r (some (s.cycle + lat)) := by
    unfold State.putP State.wr
    rw [modMe_modMe, modMe_modMe, modMe_modMe, modMe_modMe]
    exact modMe_congr rfl
  exact (commutes ..).trans
    (congrArg (fun t : State => t.schedule (s.cycle + lat) (.destinationReady s.cur s.cix r)) lock)

theorem putP_readyIn_value (s : State) (p : Fin 16) (v : Bool) (lat : Nat) :
    (if p = 0 then s.putP p v else (s.putP p v).readyIn (.p p) lat).me.regs.rp p = (p == 0 || v) := by
  split
  · exact putP_value ..
  · rw [← putP_value (s := s)]
    simp [State.readyIn, Ctx.lock]

section
variable (s : State) (p : Fin 16) (d : Fin 32) (q : SeqSt)

theorem indices_step : RegisterStep s (s.indices d q)
    ((List.range (declNl q.decl)).flatMap fun j => sDest (Fin.ofNat 32 (d.val + j))) q.lat 0 :=
  putAll_step (Nat.le_add_right_of_le (by decide)) _ s

/-- Each loop's index is in its register. -/
theorem indices_value {j : Nat} (fits : d.val + declNl q.decl ≤ 32) (hj : j < declNl q.decl)
    (h0 : Fin.ofNat 32 (d.val + j) ≠ 0) :
    (s.indices d q).me.regs.rs (Fin.ofNat 32 (d.val + j)) = .ofNat 64 (q.index j) := by
  have apart : ((List.range (declNl q.decl)).map fun j => (Fin.ofNat 32 (d.val + j) : Fin 32)).Nodup := by
    refine List.nodup_range.map_on fun j hj k hk e => ?_
    have := congrArg Fin.val e
    simp only [Fin.ofNat] at this
    rw [List.mem_range] at hj hk
    omega
  exact putAll_value (Nat.le_add_right_of_le (by decide)) apart j (List.mem_range.mpr hj) h0

/-- But for the nest, LNEXT is its writes. -/
theorem yields_nest_back : ((s.yields p d q).modMe fun c => { c with seq := s.me.seq })
    = if p = 0 then (s.indices d q).putP p true else ((s.indices d q).putP p true).readyIn (.p p) q.lat := by
  have kept : (s.indices d q).me.seq = s.me.seq := (congrArg Ctx.seq (indices_step s d q).ctx :)
  unfold State.yields
  rw [← kept]
  split
  · exact putP_nest_back ..
  · exact putP_readyIn_nest_back ..

theorem yields_step : RegisterStep s ((s.yields p d q).modMe fun c => { c with seq := s.me.seq })
    (pDest p ++ (List.range (declNl q.decl)).flatMap fun j => sDest (Fin.ofNat 32 (d.val + j))) q.lat 0 := by
  rw [yields_nest_back]
  exact (indices_step s d q).trans (putP_readyIn_step _ p true q.lat) fun x => by rw [List.mem_append, or_comm]

/-- The registers after LNEXT, and the nest. -/
theorem yields_me : (s.yields p d q).me.regs = ((s.indices d q).putP p true).me.regs
    ∧ (s.yields p d q).me.seq = some { q with pos := q.pos + 1 } := by
  unfold State.yields
  split <;> simp [State.readyIn, Ctx.lock]

theorem yields_rp : (s.yields p d q).me.regs.rp p = true := by
  rw [(yields_me s p d q).1, putP_value, Bool.or_true]

theorem yields_rs (x : Fin 32) : (s.yields p d q).me.regs.rs x = (s.indices d q).me.regs.rs x := by
  rw [(yields_me s p d q).1]
  exact (putP_step (s.indices d q) p true).regs.s x (by unfold pDest; split <;> simp)

end

/-- The model's indices are those of the tile at its place. -/
theorem index_eq {q : SeqSt} {n : Nat} (legal : DeclLegal n q.decl)
    (output : q.decl.getLsbD 16 = true → OutputLegal q.odesc) {ix : List (Nat × Nat)}
    (hix : (tilesOf q.decl q.odesc)[q.pos]? = some ix) {j v : Nat} (hj : ix.lookup j = some v) :
    q.index j = v ∧ j < declNl q.decl := by
  rw [legal.tilesOf_eq output] at hix
  have loop : j ∈ ix.map Prod.fst := by
    by_contra h
    rw [lookup_eq_none_of_not_mem h] at hj
    cases hj
  rw [keys_of_mem_combinations (List.mem_filter.mp (List.mem_of_getElem? hix)).1] at loop
  refine ⟨?_, legal.mem_declPerm.mp loop⟩
  unfold SeqSt.index SeqSt.nest
  rw [(legal.sound (out := q.odesc)).lookup_decode Nest.remains_nil hix, List.append_nil, hj]
  rfl

/-- Without an output filter a tile is ready after 2 cycles. -/
theorem lat_eq {q : SeqSt} {n : Nat} (legal : DeclLegal n q.decl) (oe : q.decl.getLsbD 16 = false)
    (h : q.pos < (tilesOf q.decl q.odesc).length) : q.lat = 2 := by
  rw [legal.tilesOf_eq fun e => absurd (oe.symm.trans e) (by decide)] at h
  unfold SeqSt.lat SeqSt.nest
  rw [(legal.sound (out := q.odesc)).passedBefore_eq oe h]

end Sys2Proof.Machine

open Sys2Proof Sys2Proof.Machine

/-- Settles O48: LNINIT's checks and the task's share, and the tile that LNEXT yields, by the ranks of tiles
(R67, R381). -/
theorem nestsYieldTheirTiles : Obligations.NestsYieldTheirTiles := by
  unfold Obligations.NestsYieldTheirTiles
  refine ⟨fun s x imm => ⟨fun strict held => ?_, fun strict alone => ?_⟩, fun s p d =>
    ⟨fun q n strict hq legal fits output => ⟨fun ix pos hix => ?_, fun done => ?_⟩, fun alone bad => ?_⟩⟩
  · have ho := lninitOff_eq s x imm
    have decides := lninitOk_eq strict ho held
    refine ⟨fun legal output few spwn => ?_, fun alone illegal => ?_, fun alone legal oe rank => ?_⟩
    · have count := legal.length_tilesOf fun oe => (output oe).2
      have go := decides.trans (nestOk_go legal output (count ▸ few))
      exact ⟨_, lninit_opens ho go spwn, modMe_contextOnly s _, by rw [State.me_modMe, count]; rfl⟩
    · exact lninit_traps alone (decides.trans (nestOk_illegal illegal))
    · exact lninit_traps alone (decides.trans (nestOk_empty legal oe rank))
  · exact lninit_traps alone (lninitOk_not_strict strict)
  · refine ⟨_, q.lat, lnext_yields strict hq fits p pos, Nat.le_add_right .., fun oe => ?_, yields_step s p d q,
      (yields_me s p d q).2, yields_rp s p d q, fun j v hj h0 => ?_⟩
    · exact lat_eq legal oe (List.getElem?_eq_some_iff.mp hix).1
    · obtain ⟨value, loop⟩ := index_eq legal output hix hj
      rw [yields_rs, indices_value s d q fits loop h0, value]
  · refine ⟨_, lnext_ends strict hq fits p done, putP_readyIn_step s p false 2, ?_⟩
    rw [putP_readyIn_value, Bool.or_false, beq_iff_eq]
  · exact lnext_traps alone bad
end

section
namespace Sys2Proof.Machine

/-! ### Masked words -/

/-- The low bits masked away: alignment down to a power of two. -/
theorem toNat_and_not_low (v : Word) (n : Nat) : (v &&& ~~~(.ofNat 64 (2 ^ n - 1))).toNat = v.toNat / 2 ^ n * 2 ^ n := by
  refine Nat.eq_of_testBit_eq fun i => ?_
  rw [BitVec.testBit_toNat, BitVec.getLsbD_and, BitVec.getLsbD_not, BitVec.getLsbD_ofNat, Nat.testBit_two_pow_sub_one,
    Nat.testBit_mul_two_pow, Nat.testBit_div_two_pow, BitVec.testBit_toNat]
  by_cases h : n ≤ i
  · by_cases hi : i < 64
    · simp [h, hi, Nat.not_lt.mpr h]
    · simp [h, hi, Nat.not_lt.mpr h, BitVec.getLsbD_of_ge v i (by omega)]
  · simp [h, Nat.lt_of_not_le h]

/-- A field of a number in its place. -/
theorem and_field (x n k : Nat) : x &&& (2 ^ n - 1) * 2 ^ k = x / 2 ^ k % 2 ^ n * 2 ^ k := by
  refine Nat.eq_of_testBit_eq fun i => ?_
  rw [Nat.testBit_and, Nat.testBit_mul_two_pow, Nat.testBit_two_pow_sub_one, Nat.testBit_mul_two_pow,
    Nat.testBit_mod_two_pow, Nat.testBit_div_two_pow]
  by_cases h : k ≤ i
  · simp [h, Bool.and_comm]
  · simp [h]

/-- The reserved fields of FPCTL are zero: bits 5 to 7 and bit 15 (R78). -/
theorem fpctlReserved_eq_zero_iff (v : Word) :
    v &&& 0x80E0 = 0 ↔ v.toNat / 2 ^ 5 % 2 ^ 3 = 0 ∧ v.toNat / 2 ^ 15 % 2 = 0 := by
  have mask : (0x80E0 : Word).toNat = (2 ^ 3 - 1) * 2 ^ 5 ||| (2 ^ 1 - 1) * 2 ^ 15 := by decide
  rw [← BitVec.toNat_inj, BitVec.toNat_and, mask, Nat.and_or_distrib_left, and_field, and_field,
    show (0 : Word).toNat = 0 from rfl, Nat.or_eq_zero_iff]
  omega

/-! ### Words that change their context alone -/

theorem contextOnly_refl (s : State) : ContextOnly s s := ⟨alone_refl s, rfl, rfl, rfl, rfl⟩

/-- A word whose effect is a change of its context. -/
theorem exec_modMe {i : Instr} {s : State} {f : Ctx → Ctx} (h : exec i s = .next (s.modMe f)) {c : Ctx} (hc : f s.me = c) :
    ∃ t, exec i s = .next t ∧ ContextOnly s t ∧ t.me = c :=
  ⟨_, h, modMe_contextOnly s f, (State.me_modMe s f).trans hc⟩

theorem stays_iff (s : State) : s.stays = true ↔ s.Stays := by
  simp [State.stays, State.staysAt, State.Stays, State.myCore, State.me, Option.isSome_iff_ne_none]

/-- A suspension asked for at the running bundle, for a wait object (R41, R43). -/
def State.asksSuspension (s : State) (wobj : Word) : State :=
  s.modMe fun c => { c with suspending := some wobj, suspendAt := c.pc }

/-! ### WAIT and YIELD (R174, R432, R433) -/

theorem within_iff (c : Ctx) (ld st cp tl : BitVec 5) : c.within ld st cp tl = true ↔
    CounterWithin c.ld ld ∧ CounterWithin c.st st ∧ CounterWithin c.cp cp ∧ CounterWithin c.tl tl := by
  simp [Ctx.within, CounterWithin, and_assoc]

/-- What WAIT does (R174, R432). -/
theorem exec_wait (sus : Bool) (ld st cp tl : BitVec 5) (s : State) : exec (.wait sus ld st cp tl) s
    = .next (if s.me.within ld st cp tl then s else if sus && !s.stays then s.asksSuspension 0
      else s.modMe fun c => { c with wait := .counters ld st cp tl }) := rfl

theorem wait_step (s : State) (sus : Bool) (ld st cp tl : BitVec 5) :
    let now : Prop := CounterWithin s.me.ld ld ∧ CounterWithin s.me.st st ∧ CounterWithin s.me.cp cp ∧ CounterWithin s.me.tl tl
    ∃ t, exec (.wait sus ld st cp tl) s = .next t ∧ ContextOnly s t
      ∧ (now → t = s)
      ∧ (¬ now → sus = true → ¬ s.Stays → t.me = { s.me with suspending := some 0, suspendAt := s.me.pc })
      ∧ (¬ now → sus = false ∨ s.Stays → t.me = { s.me with wait := .counters ld st cp tl }) := by
  intro now
  have within : s.me.within ld st cp tl = true ↔ now := within_iff ..
  have leaves : (sus && !s.stays) = true ↔ sus = true ∧ ¬ s.Stays := by
    rw [Bool.and_eq_true, Bool.not_eq_true', ← stays_iff, Bool.not_eq_true]
  rw [exec_wait]
  by_cases done : now
  · rw [if_pos (within.mpr done)]
    exact ⟨s, rfl, contextOnly_refl s, fun _ => rfl, fun h => absurd done h, fun h => absurd done h⟩
  · rw [if_neg (mt within.mp done)]
    by_cases out : sus = true ∧ ¬ s.Stays
    · rw [if_pos (leaves.mpr out)]
      exact ⟨_, rfl, modMe_contextOnly s _, fun h => absurd h done, fun _ _ _ => State.me_modMe ..,
        fun _ h => h.elim (fun h => absurd (h.symm.trans out.1) (by decide)) fun h => absurd h out.2⟩
    · rw [if_neg (mt leaves.mp out)]
      exact ⟨_, rfl, modMe_contextOnly s _, fun h => absurd h done, fun _ sus h => absurd ⟨sus, h⟩ out,
        fun _ _ => State.me_modMe ..⟩

theorem yield_step (s : State) : ∃ t, exec .yield s = .next t ∧ ContextOnly s t ∧ (s.Stays → t = s)
    ∧ (¬ s.Stays → t.me = { s.me with suspending := some 0, suspendAt := s.me.pc }) := by
  rw [show exec .yield s = .next (if s.stays then s else s.asksSuspension 0) from rfl]
  by_cases stays : s.Stays
  · rw [if_pos ((stays_iff s).mpr stays)]
    exact ⟨s, rfl, contextOnly_refl s, fun _ => rfl, fun h => absurd stays h⟩
  · rw [if_neg (mt (stays_iff s).mp stays)]
    exact ⟨_, rfl, modMe_contextOnly s _, fun h => absurd h stays, fun _ => State.me_modMe ..⟩

/-! ### SUSP (R414, R415) -/

section
variable {s : State} {w : Fin 32}

theorem suspKind_eq (v : Word) : bitsOf v 60 4 = v.toNat / 2 ^ 60 := by
  rw [bitsOf_eq]
  exact Nat.mod_eq_of_lt (by have := v.isLt; omega)

/-- The registered object of a full/empty word is aligned down to 8 bytes. -/
theorem suspWobj_eq (v : Word) :
    suspWobj v = if v.toNat / 2 ^ 60 = 2 then .ofNat 64 (v.toNat / 8 * 8) else v := by
  rw [suspWobj, suspKind_eq]
  refine if_congr Iff.rfl (BitVec.eq_of_toNat_eq ?_) rfl
  rw [BitVec.toNat_ofNat, Nat.mod_eq_of_lt (by have := v.isLt; omega)]
  exact toNat_and_not_low v 3

theorem suspZero_eq (v : Word) : bitsOf v 56 4 = v.toNat / 2 ^ 56 % 16 := bitsOf_eq ..

theorem suspAddr_eq (v : Word) : bitsOf v 0 56 = v.toNat % 2 ^ 56 := by rw [bitsOf_eq, Nat.pow_zero, Nat.div_one]

theorem toNat_ofNat_mod (n : Nat) : (BitVec.ofNat 64 (n % 2 ^ 56)).toNat = n % 2 ^ 56 := Nat.mod_eq_of_lt (by omega)

/-- A reserved field that is not zero, or a kind that R414 does not give. -/
theorem suspOk_reserved (h : ¬ (s.rs w).toNat / 2 ^ 56 % 16 = 0 ∨ (s.rs w).toNat / 2 ^ 60 ∉ [2, 3, 4]) :
    s.suspOk w = s.illMod := by
  simp only [State.suspOk, suspZero_eq, suspKind_eq]
  split
  · rfl
  · next clear =>
    have kind := h.resolve_left fun reserved => clear (bne_iff_ne.mpr reserved)
    split
    · next word => exact absurd (by rw [word]; decide) kind
    · next collective => exact absurd (by rw [collective]; decide) kind
    · next line => exact absurd (by rw [line]; decide) kind
    · rfl

section
variable (zero : (s.rs w).toNat / 2 ^ 56 % 16 = 0)
include zero

theorem suspOk_word (kind : (s.rs w).toNat / 2 ^ 60 = 2) :
    s.suspOk w = (s.illModIf (decide (2 ^ 22 ≤ (s.rs w).toNat % 2 ^ 56))).and
      (s.ownHeld ((s.rs w).toNat % 2 ^ 56 / 8 * 8) 8) := by
  simp only [State.suspOk, suspZero_eq, zero, suspKind_eq, kind, suspAddr_eq, alignDown, bne_self_eq_false,
    Bool.false_eq_true, if_false]

theorem suspOk_collective (kind : (s.rs w).toNat / 2 ^ 60 = 3) : s.suspOk w
    = s.illModIf (decide (2 ^ 40 ≤ (s.rs w).toNat % 2 ^ 56) || (s.tagged ((s.rs w).toNat % 2 ^ 56)).isNone) := by
  simp only [State.suspOk, suspZero_eq, zero, suspKind_eq, kind, suspAddr_eq, bne_self_eq_false,
    Bool.false_eq_true, if_false]

theorem suspOk_line (kind : (s.rs w).toNat / 2 ^ 60 = 4) :
    s.suspOk w = (s.illModIf ((s.rs w).toNat % 2 ^ 56 % 64 != 0)).and ((s.leaseOk ((s.rs w).toNat % 2 ^ 56)).and
      (s.illModIf (BitVec.ofNat 64 ((s.rs w).toNat % 2 ^ 56) == s.me.jcbp))) := by
  simp only [State.suspOk, suspZero_eq, zero, suspKind_eq, kind, suspAddr_eq, toNat_ofNat_mod, bne_self_eq_false,
    Bool.false_eq_true, if_false]

end
end

/-- A posting tag names an entry by its place and its serial number (R238). -/
theorem tagged_isNone_iff (s : State) (tag : Nat) : (s.tagged tag).isNone = true
    ↔ ∀ e, aget s.colTab (tag / 2 ^ 32) = some e → e.serial.toNat ≠ tag % 2 ^ 32 := by
  unfold State.tagged
  split
  · next e entry =>
    split
    · next serial => exact iff_of_false (by simp) fun h => h e entry serial
    · next other =>
      refine iff_of_true rfl fun e' named => ?_
      cases entry.symm.trans named
      exact other
  · next free => exact iff_of_true rfl fun e named => absurd (free.symm.trans named) (by simp)

/-- A word of 8 bytes lies in one buffer, which BUF_OWNER names where the core does not hold it (R166, R169). -/
theorem ownHeld_word {s : State} {o : Nat} (h : ¬ s.HoldsRange (o / 8 * 8) 8) :
    s.ownHeld (o / 8 * 8) 8 = .trap .bufOwner (ownerInfo 0 (stripOf s.cur) (o / 65536)) := by
  have one : (o / 8 * 8 + 8 - 1) / 65536 - o / 8 * 8 / 65536 + 1 = 1 := by omega
  have buffer : o / 8 * 8 / 65536 + 0 = o / 65536 := by omega
  have missing : s.holds s.cur (stripOf s.cur) (o / 65536) = false := by
    refine Bool.eq_false_iff.mpr fun held => h fun k lo hi => ?_
    rwa [show k / 65536 = o / 65536 by omega]
  unfold State.ownHeld
  simp only [one, List.range_one, List.map_cons, List.map_nil, buffer, List.find?_cons, missing]
  rfl

/-- The EINFO of the executing core's own buffer. -/
theorem ownerInfo_own {core b : Nat} (h : b < 64) : ownerInfo 0 (stripOf core) b = .ofNat 64 (stripOf core * 2 ^ 6 + b) := by
  have strip : stripOf core % 16 = stripOf core := Nat.mod_eq_of_lt (by unfold stripOf; omega)
  rw [ownerInfo, strip, Nat.mod_eq_of_lt h, Nat.zero_mul, Nat.zero_add]

theorem leaseOk_eq (s : State) {va : Nat} (h : va < 2 ^ 56) :
    s.leaseOk va = if s.leased s.me.vf va = true then .go else .trap .leaseBreach (.ofNat 64 va) := by
  have info : breachInfo 0 va = .ofNat 64 va := by rw [breachInfo, Nat.mod_eq_of_lt h, Nat.zero_mul, Nat.zero_add]
  rw [State.leaseOk, info, decide_eq_false (Nat.not_le.mpr h), Bool.false_or]
  cases s.leased s.me.vf va <;> rfl

theorem illModIf_true (s : State) : s.illModIf true = s.illMod := rfl

section
variable {s : State} {w : Fin 32}

theorem suspOk_go (h : WaitObject s (s.rs w)) : s.suspOk w = .go := by
  obtain ⟨zero, ⟨kind, place, held⟩ | ⟨kind, place, e, entry, serial⟩ | ⟨kind, line, leased, other⟩⟩ := h
  · rw [suspOk_word zero kind, Verdict.and_eq_go]
    exact ⟨(illModIf_eq_go s).mpr (decide_eq_false (Nat.not_le.mpr place)), (ownHeld_eq_go s).mpr held⟩
  · have named : (s.tagged ((s.rs w).toNat % 2 ^ 56)).isNone = false :=
      Bool.eq_false_iff.mpr fun none => (tagged_isNone_iff _ _).mp none e entry serial
    rw [suspOk_collective zero kind, illModIf_eq_go, named, Bool.or_false]
    exact decide_eq_false (Nat.not_le.mpr place)
  · have apart : (BitVec.ofNat 64 ((s.rs w).toNat % 2 ^ 56) == s.me.jcbp) = false := by
      refine beq_eq_false_iff_ne.mpr fun e => other ?_
      rw [← e]
      exact (Nat.mod_eq_of_lt (by omega)).symm
    rw [suspOk_line zero kind, leaseOk_eq s (Nat.mod_lt _ (by decide)), if_pos leased, apart, line]
    rfl

/-- SUSP on its own whose check leads to a trap. -/
theorem susp_traps {c : Cause} {i : Word} (alone : s.me.snap = none) (h : s.suspOk w = .trap c i) :
    exec (.susp w) s = .next (s.takeTrap c i) :=
  (show exec (.susp w) s = execSusp w s from rfl).trans (guard_traps alone h _)

/-- SUSP of a wait object that R414 allows. -/
theorem susp_asks (h : WaitObject s (s.rs w)) : exec (.susp w) s = .next (s.asksSuspension (suspWobj (s.rs w))) := by
  refine (show exec (.susp w) s = execSusp w s from rfl).trans ?_
  unfold execSusp
  rw [suspOk_go h, guard_go]
  rfl

section
variable (zero : (s.rs w).toNat / 2 ^ 56 % 16 = 0)
include zero

theorem suspOk_far_word (kind : (s.rs w).toNat / 2 ^ 60 = 2) (far : 2 ^ 22 ≤ (s.rs w).toNat % 2 ^ 56) :
    s.suspOk w = s.illMod := by
  rw [suspOk_word zero kind, decide_eq_true far]
  rfl

theorem suspOk_word_not_held (kind : (s.rs w).toNat / 2 ^ 60 = 2) (place : (s.rs w).toNat % 2 ^ 56 < 2 ^ 22)
    (h : ¬ s.HoldsRange ((s.rs w).toNat % 2 ^ 56 / 8 * 8) 8) :
    s.suspOk w = .trap .bufOwner (.ofNat 64 (stripOf s.cur * 2 ^ 6 + (s.rs w).toNat % 2 ^ 56 / 65536)) := by
  rw [suspOk_word zero kind, decide_eq_false (Nat.not_le.mpr place), ownHeld_word h, ownerInfo_own (by omega)]
  rfl

theorem suspOk_no_collective (kind : (s.rs w).toNat / 2 ^ 60 = 3) (h : 2 ^ 40 ≤ (s.rs w).toNat % 2 ^ 56
      ∨ ∀ e, aget s.colTab ((s.rs w).toNat % 2 ^ 56 / 2 ^ 32) = some e → e.serial.toNat ≠ (s.rs w).toNat % 2 ^ 56 % 2 ^ 32) :
    s.suspOk w = s.illMod := by
  have refused := h.imp decide_eq_true (tagged_isNone_iff s _).mpr
  rw [suspOk_collective zero kind, (Bool.or_eq_true _ _).mpr refused, illModIf_true]

theorem suspOk_within_line (kind : (s.rs w).toNat / 2 ^ 60 = 4) (h : (s.rs w).toNat % 2 ^ 56 % 64 ≠ 0) :
    s.suspOk w = s.illMod := by
  rw [suspOk_line zero kind, bne_iff_ne.mpr h]
  rfl

section
variable (kind : (s.rs w).toNat / 2 ^ 60 = 4) (line : (s.rs w).toNat % 2 ^ 56 % 64 = 0)
include kind line

theorem suspOk_not_leased (h : s.leased s.me.vf ((s.rs w).toNat % 2 ^ 56) = false) :
    s.suspOk w = .trap .leaseBreach (.ofNat 64 ((s.rs w).toNat % 2 ^ 56)) := by
  rw [suspOk_line zero kind, line, leaseOk_eq s (Nat.mod_lt _ (by decide)), h]
  rfl

theorem suspOk_own_jcb (leased : s.leased s.me.vf ((s.rs w).toNat % 2 ^ 56) = true)
    (h : (s.rs w).toNat % 2 ^ 56 = s.me.jcbp.toNat) : s.suspOk w = s.illMod := by
  rw [suspOk_line zero kind, line, leaseOk_eq s (Nat.mod_lt _ (by decide)), if_pos leased, h, BitVec.ofNat_toNat,
    BitVec.setWidth_eq, beq_self_eq_true]
  rfl

end
end
end

/-! ### MFS (R77, R79, R390) -/

/-- COREID's fields as digits of its value (R79). -/
theorem coreId_toNat {s : State} (h : s.cur < 384) :
    s.coreId.toNat = s.pkg.toNat * 2 ^ 32 + s.cur * 2 ^ 16 + s.cur / 96 * 2 ^ 7 + s.cur / 12 % 8 * 2 ^ 4 + s.cur % 12 := by
  have core : s.cur % 512 = s.cur := Nat.mod_eq_of_lt (by omega)
  have die : s.cur / 96 % 4 = s.cur / 96 := Nat.mod_eq_of_lt (by omega)
  rw [State.coreId, BitVec.toNat_ofNat, core, die]
  exact Nat.mod_eq_of_lt (by omega)

theorem coreId_isCoreId {s : State} (h : s.cur < 384) : IsCoreId s s.coreId := by
  have value := coreId_toNat h
  have fromCore : s.coreId.toNat / 2 ^ 16 = s.pkg.toNat * 2 ^ 16 + s.cur := by omega
  have fromDie : s.coreId.toNat / 2 ^ 7 = (s.pkg.toNat * 2 ^ 16 + s.cur) * 2 ^ 9 + s.cur / 96 := by omega
  have fromRow : s.coreId.toNat / 2 ^ 4 = ((s.pkg.toNat * 2 ^ 16 + s.cur) * 2 ^ 9 + s.cur / 96) * 2 ^ 3 + s.cur / 12 % 8 := by
    omega
  exact ⟨by omega, by omega, by omega, by omega, by omega⟩

theorem sysReg_reads (s : State) (r : SysReg) : SysReads s r (s.sysReg r) := by
  cases r with
  | nbv | launchp | jcbp | cycle => rfl
  | fpctl | fpflg | cls | safebnd | ecause => exact BitVec.toNat_setWidth_of_le (by decide)
  | tvec | epc | einfo | edelay => rfl
  | ctxid => exact Nat.mod_eq_of_lt (by omega)
  | coreid => exact coreId_isCoreId
  | strict => cases hs : s.me.strict <;> cases hp : s.me.phase <;> simp [SysReads, State.sysReg, hs, hp]

/-! ### MTS (R77, R78, R80, R390) -/

theorem mtsBad_eq_false_iff (r : SysReg) (v : Word) : mtsBad r v = false ↔ MtsLegal r v.toNat := by
  cases r with
  | fpctl =>
    simp only [mtsBad, MtsLegal, Bool.or_eq_false_iff, decide_eq_false_iff_not, bne_eq_false_iff_eq,
      fpctlReserved_eq_zero_iff, bitsOf_eq]
    omega
  | fpflg | safebnd | ecause => simp [mtsBad, MtsLegal]
  | tvec | epc | einfo | edelay | nbv | cls | ctxid | coreid | launchp | jcbp | strict | cycle => simp [mtsBad, MtsLegal]

section
variable (g : Regs) (r : SysReg) (v : Word) (landed : BitVec 7)

@[simp] theorem Regs.setSys_fpctl : (g.setSys r v landed).fpctl = if r = .fpctl then v.setWidth 16 else g.fpctl := by
  cases r <;> rfl
@[simp] theorem Regs.setSys_fpflg : (g.setSys r v landed).fpflg = if r = .fpflg then v.setWidth 7 ||| landed else g.fpflg := by
  cases r <;> rfl
@[simp] theorem Regs.setSys_safebnd : (g.setSys r v landed).safebnd = if r = .safebnd then v.setWidth 32 else g.safebnd := by
  cases r <;> rfl
@[simp] theorem Regs.setSys_tvec : (g.setSys r v landed).tvec = if r = .tvec then v &&& ~~~(3 : Word) else g.tvec := by
  cases r <;> rfl
@[simp] theorem Regs.setSys_epc : (g.setSys r v landed).epc = if r = .epc then v else g.epc := by
  cases r <;> rfl
@[simp] theorem Regs.setSys_ecause : (g.setSys r v landed).ecause = if r = .ecause then v.setWidth 8 else g.ecause := by
  cases r <;> rfl
@[simp] theorem Regs.setSys_einfo : (g.setSys r v landed).einfo = if r = .einfo then v else g.einfo := by
  cases r <;> rfl
@[simp] theorem Regs.setSys_edelay : (g.setSys r v landed).edelay = if r = .edelay then v else g.edelay := by
  cases r <;> rfl

/-- A write of a system register leaves all but the system registers. -/
theorem Regs.setSys_rest : { g.setSys r v landed with
      fpctl := g.fpctl, fpflg := g.fpflg, safebnd := g.safebnd, tvec := g.tvec, epc := g.epc, ecause := g.ecause
      einfo := g.einfo, edelay := g.edelay } = g := by
  cases r <;> rfl

theorem ownSys_setSys_ne {r r' : SysReg} (h : r' ≠ r) : ownSys (g.setSys r v landed) r' = ownSys g r' := by
  cases r' <;> simp [ownSys, h.symm]

/-- A register reads the legal value that was written to it. -/
theorem ownSys_setSys_self {r : SysReg} {v : Word} (h : MtsLegal r v.toNat) : ownSys (g.setSys r v landed) r
    = if r = .tvec then v.toNat / 4 * 4 else if r = .fpflg then v.toNat ||| landed.toNat else v.toNat := by
  cases r with
  | fpctl => exact Nat.mod_eq_of_lt (h.1.trans (by decide))
  | fpflg => exact congrArg (· ||| landed.toNat) (Nat.mod_eq_of_lt h)
  | safebnd | ecause => exact Nat.mod_eq_of_lt h
  | tvec => simpa [ownSys] using toNat_and_not_low v 2
  | epc | einfo | edelay => simp [ownSys]
  | nbv | cls | ctxid | coreid | launchp | jcbp | strict | cycle => exact h.elim

end

/-- MTS of a value that its register takes. -/
theorem mts_writes {s : State} {a : Fin 32} {r : SysReg} (h : MtsLegal r (s.rs a).toNat) :
    exec (.mts a r) s = .next (s.wr fun g => g.setSys r (s.rs a) s.me.landed) := by
  refine (show exec (.mts a r) s = execMts a r s from rfl).trans ?_
  unfold execMts
  rw [(illModIf_eq_go s).mpr ((mtsBad_eq_false_iff r _).mpr h), guard_go]

/-- What it leaves unchanged, and what every system register then reads. -/
theorem mts_step {s : State} {a : Fin 32} {r : SysReg} (legal : MtsLegal r (s.rs a).toNat) :
    ∃ t, exec (.mts a r) s = .next t ∧ ContextOnly s t ∧ { t.me with regs := s.me.regs } = s.me
      ∧ (∀ r', ownSys t.me.regs r' = if r' = r then (if r = .tvec then (s.rs a).toNat / 4 * 4
            else if r = .fpflg then (s.rs a).toNat ||| s.me.landed.toNat else (s.rs a).toNat)
          else ownSys s.me.regs r')
      ∧ { t.me.regs with
            fpctl := s.me.regs.fpctl, fpflg := s.me.regs.fpflg, safebnd := s.me.regs.safebnd, tvec := s.me.regs.tvec
            epc := s.me.regs.epc, ecause := s.me.regs.ecause, einfo := s.me.regs.einfo
            edelay := s.me.regs.edelay } = s.me.regs := by
  refine ⟨_, mts_writes legal, modMe_contextOnly s _, ?_, fun r' => ?_, ?_⟩
  · rw [State.me_wr]
  · rw [State.me_wr]
    split
    · next same => rw [same, ownSys_setSys_self _ _ legal]
    · next other => exact ownSys_setSys_ne _ _ _ other
  · rw [State.me_wr]
    exact Regs.setSys_rest ..

theorem mts_traps {s : State} {a : Fin 32} {r : SysReg} (alone : s.me.snap = none) (h : ¬ MtsLegal r (s.rs a).toNat) :
    exec (.mts a r) s = .next (s.takeTrap .illMod (layoutW s.me.word.1 s.me.word.2)) := by
  have bad : mtsBad r (s.rs a) = true := by rwa [← mtsBad_eq_false_iff, Bool.not_eq_false] at h
  refine (show exec (.mts a r) s = execMts a r s from rfl).trans (guard_traps alone ?_ _)
  rw [bad]
  rfl

end Sys2Proof.Machine

open Sys2Proof Sys2Proof.Machine

/-- Settles O43: the change that each system word makes to its context, or the trap that refuses its value. -/
theorem systemWordsActOnTheirContext : Obligations.SystemWordsActOnTheirContext := by
  unfold Obligations.SystemWordsActOnTheirContext
  intro s ill
  refine ⟨fun sus ld st cp tl => wait_step s sus ld st cp tl, yield_step s, exec_modMe rfl rfl, fun n => exec_modMe rfl rfl,
    fun w => ⟨fun object => ?_, fun alone => ?_⟩, fun r => ⟨fun d => ?_, fun a => ⟨mts_step, mts_traps⟩⟩⟩
  · obtain ⟨t, exec, only, me⟩ := exec_modMe (susp_asks object) rfl
    exact ⟨t, exec, only, by rw [me, suspWobj_eq]⟩
  · exact ⟨fun h => susp_traps alone (suspOk_reserved h), fun zero kind far => susp_traps alone (suspOk_far_word zero kind far),
      fun zero kind place h => susp_traps alone (suspOk_word_not_held zero kind place h),
      fun zero kind h => susp_traps alone (suspOk_no_collective zero kind h),
      fun zero kind h => susp_traps alone (suspOk_within_line zero kind h),
      fun zero kind line h => susp_traps alone (suspOk_not_leased zero kind line h),
      fun zero kind line leased h => susp_traps alone (suspOk_own_jcb zero kind line leased h)⟩
  · exact ⟨_, s.sysReg r, rfl, putS_step s d _ 1 (by decide), sysReg_reads s r, putS_value s d _ 1⟩
end

section
namespace Sys2Proof.Machine

/-! ### The state after reset (R266, R267) -/

/-- A map that gives every listed key the same value. -/
theorem aget_map_const {α : Type} (v : α) (k : Nat) :
    ∀ l : List Nat, aget (l.map fun n => (n, v)) k = if k ∈ l then some v else none
  | [] => rfl
  | n :: t => by
    simp only [List.map_cons, aget, aget_map_const v k t, List.mem_cons, eq_comm (a := n)]
    by_cases h : k = n <;> simp only [h, if_true, if_false, true_or, false_or]

/-- The service firmware has the core of strip 0 in row 7 of each die; every other core is as it was made. -/
theorem reset_core (k : Nat) : State.reset.core k = if k < 384 ∧ k % 96 = 84 then Core.service else {} := by
  have listed : k ∈ [84, 180, 276, 372] ↔ k < 384 ∧ k % 96 = 84 := by
    simp only [List.mem_cons, List.not_mem_nil, or_false]
    omega
  rw [State.core, State.reset, aget_map_const, if_congr listed rfl rfl]
  split <;> rfl

theorem service_task : ∀ i : Fin 4, (Core.service.ctxs[i]).task = true ↔ i = 3 := by decide

theorem reset_ctx_task (k : Nat) (i : Fin 4) : (State.reset.ctx k i).task = true ↔ k < 384 ∧ k % 96 = 84 ∧ i = 3 := by
  rw [State.ctx, reset_core, ← and_assoc]
  split
  · next service => rw [service_task, and_iff_right service]
  · next other =>
    have idle : (({} : Core).ctxs[i]).task = false := by simp
    rw [idle]
    exact ⟨fun h => (by cases h), fun h => absurd h.1 other⟩

/-- Its task is of the service function. -/
theorem reset_ctx_vf {k : Nat} {i : Fin 4} (h : (State.reset.ctx k i).task = true) : (State.reset.ctx k i).vf = 64 := by
  obtain ⟨die, service, rfl⟩ := (reset_ctx_task k i).mp h
  rw [State.ctx, reset_core, if_pos ⟨die, service⟩]
  rfl

theorem reset_vf (n : Nat) : State.reset.vf n ≠ none ↔ n = 64 := by
  rw [State.vf, State.reset, aget]
  split
  · next e => exact iff_of_true (by simp) e.symm
  · next e => exact iff_of_false (fun h => h rfl) (Ne.symm e)

/-- Every byte of memory, of a scratchpad and of a lid reads zero. -/
theorem reset_getLoc (l : Loc) : State.reset.getLoc l = 0 := by
  cases l with
  | mem a => rfl
  | scr n o | lid n o =>
    rw [State.getLoc, reset_core]
    split <;> rfl

/-! ### A task's registers at its start (R70, R77) -/

theorem freshCtx_regs (s : State) (vf i : Nat) : (s.freshCtx vf i).regs = {} := rfl

theorem rs_of_reset (k : Fin 32) : ({} : Regs).rs k = 0 := by simp [Regs.rs]

theorem rp_of_reset (k : Fin 16) : ({} : Regs).rp k = decide (k = 0) := by
  rw [Regs.rp, beq_eq_decide]
  simp

end Sys2Proof.Machine

open Sys2Proof Sys2Proof.Machine

/-- Settles O59: what the state after reset holds, by its cores and its one function, and the register values with which
a task starts. -/
theorem resetIsAsStated : Obligations.ResetIsAsStated := by
  unfold Obligations.ResetIsAsStated
  refine ⟨reset_canon, rfl, rfl, reset_vf, rfl, rfl, rfl, reset_ctx_task, fun k i => reset_ctx_vf, fun a => rfl,
    reset_getLoc, fun s n i => ?_⟩
  rw [freshCtx_regs]
  refine ⟨rs_of_reset, rp_of_reset, ?_⟩
  simp [Handle.valid]
end

section
namespace Sys2Proof.Machine

/-! ### The codes of finite values (R82) -/

theorem Fmt.signBit_eq {f : Fmt} (hf : f.m ≤ f.w - 1) : f.signBit = (f.eTop + 1) * 2 ^ f.m := by
  have : 0 < 2 ^ (f.w - 1 - f.m) := Nat.two_pow_pos _
  rw [Fmt.signBit, Fmt.eTop, Nat.sub_add_cancel this, ← pow_add, Nat.sub_add_cancel hf]

/-- A mantissa with the exponent of its least bit, as a code holds them: a subnormal one, or a normal one with its
exponent field. -/
inductive Fmt.Holds (f : Fmt) (c : Nat) : Nat → Int → Prop
  | subnormal (small : c < 2 ^ f.m) : f.Holds c c (f.emin - f.m)
  | normal (field : Nat) (frac : Nat) (pos : field ≠ 0) (small : frac < 2 ^ f.m) (code : c = field * 2 ^ f.m + frac) :
      f.Holds c (2 ^ f.m + frac) (field - f.bias - f.m)

/-- A positive code of a finite value holds it, and is not above the largest. -/
theorem Fmt.holds_of_val {f : Fmt} {c m : Nat} {e : Int} (hf : f.m ≤ f.w - 1) (hc : c < f.signBit)
    (h : f.val false c = .fin false m e) : f.Holds c m e ∧ c ≤ f.maxCode := by
  have field : c / 2 ^ f.m < f.eTop + 1 := by rwa [Nat.div_lt_iff_lt_mul (Nat.two_pow_pos _), ← signBit_eq hf]
  have frac : c % 2 ^ f.m < 2 ^ f.m := Nat.mod_lt _ (Nat.two_pow_pos _)
  have code : c = c / 2 ^ f.m * 2 ^ f.m + c % 2 ^ f.m := (Nat.div_add_mod' ..).symm
  simp only [Fmt.val, Nat.mod_eq_of_lt hc, Bool.false_and, Bool.false_eq_true, if_false] at h
  split at h
  · split at h <;> cases h
  next notTop =>
  split at h
  · cases h
  next notNan =>
  constructor
  · split at h
    · next zero =>
      have small : c < 2 ^ f.m := by rw [code, zero]; omega
      rw [Nat.mod_eq_of_lt small] at h
      obtain ⟨-, rfl, rfl⟩ := FV.fin.inj h
      exact .subnormal small
    · next pos =>
      obtain ⟨-, rfl, rfl⟩ := FV.fin.inj h
      exact .normal _ _ pos frac code
  · rw [Fmt.maxCode]
    split
    · next top =>
      have below : c / 2 ^ f.m < f.eTop := Nat.lt_of_le_of_ne (Nat.le_of_lt_succ field) fun e => notTop ⟨top, e⟩
      exact Nat.le_sub_one_of_lt ((Nat.div_lt_iff_lt_mul (Nat.two_pow_pos _)).1 below)
    · next top => have : c ≠ f.signBit - 1 := fun e => notNan ⟨top, e⟩; omega
    · exact Nat.le_sub_one_of_lt hc

theorem Fmt.Holds.packMag {f : Fmt} {c m : Nat} {e : Int} (h : f.Holds c m e) : packMag f m e = c := by
  cases h with
  | subnormal small => exact if_pos small
  | normal field frac pos small code =>
    have carry : ¬ 2 ^ f.m + frac = 2 ^ (f.m + 1) := by rw [pow_succ]; omega
    have exponent : ((field : Int) - f.bias - f.m + f.m + f.bias).toNat = field := by omega
    rw [Machine.packMag, if_neg (by omega), if_neg carry]
    simp only [exponent, Nat.add_sub_cancel_left, code]

theorem log2_normal {n frac : Nat} (small : frac < 2 ^ n) : Nat.log2 (2 ^ n + frac) = n := by
  have pos := Nat.two_pow_pos n
  rw [Nat.log2_eq_iff (by omega), pow_succ]
  omega

/-- The exponent of the least bit that a code can hold at a value's magnitude is that of its code (R93). -/
theorem Fmt.Holds.quantum {f : Fmt} {c m : Nat} {e : Int} (h : f.Holds c m e) (nz : m ≠ 0) :
    max (e + (Nat.log2 m : Int)) f.emin - f.m = e := by
  cases h with
  | subnormal small =>
    have := (Nat.log2_lt nz).2 small
    omega
  | normal field frac pos small code =>
    rw [log2_normal small, Fmt.emin]
    omega

/-- A normal value is at least the least one (R82). -/
theorem Fmt.Holds.emin_le {f : Fmt} {c m : Nat} {e : Int} (h : f.Holds c m e) (normal : 2 ^ f.m ≤ m) :
    f.emin ≤ e + (Nat.log2 m : Int) := by
  cases h with
  | subnormal small => omega
  | normal field frac pos small code =>
    rw [log2_normal small, Fmt.emin]
    omega

theorem Fmt.Holds.eq_zero {f : Fmt} {c : Nat} {e : Int} (h : f.Holds c 0 e) : c = 0 := by
  generalize hm : 0 = m at h
  cases h with
  | subnormal => rfl
  | normal => have := Nat.two_pow_pos f.m; omega

/-! ### Rounding a value that a code holds (R91, R93) -/

/-- Where nothing is cut off nothing is rounded up, in any mode. -/
theorem roundsUp_exact (rm : Rnd) (neg odd : Bool) {half : Nat} (nz : half ≠ 0) :
    roundsUp rm neg odd 0 half false = false := by
  cases rm <;> simp [roundsUp, Ne.symm nz]

theorem log2_mul_two_pow {n : Nat} (nz : n ≠ 0) (k : Nat) : Nat.log2 (n * 2 ^ k) = Nat.log2 n + k := by
  have := Nat.two_pow_pos k
  rw [Nat.log2_eq_iff (by positivity), pow_add, add_right_comm, pow_add]
  exact ⟨Nat.mul_le_mul_right _ (Nat.log2_self_le nz), Nat.mul_lt_mul_of_pos_right Nat.lt_log2_self this⟩

/-- A multiple of the quantum that is neither flushed nor too large is packed as it is (R93). -/
theorem roundTo_exact {f : Fmt} (env : Env) (neg : Bool) {n : Nat} {qe : Int} (k : Nat) (nz : n ≠ 0)
    (kept : (f.flush && env.ftz && decide (qe + (Nat.log2 n : Int) < f.emin)) = false)
    (quantum : max (qe + (Nat.log2 n : Int)) f.emin - f.m = qe) (fits : packMag f n qe ≤ f.maxCode) :
    roundTo f env neg (n * 2 ^ k) (qe - k) = (f.signed neg (packMag f n qe), 0) := by
  have lg : qe - k + (Nat.log2 (n * 2 ^ k) : Int) = qe + (Nat.log2 n : Int) := by rw [log2_mul_two_pow nz]; omega
  have sh : (qe - (qe - k)).toNat = k := by omega
  have up (odd : Bool) : (if k = 0 then false else roundsUp env.rm neg odd 0 (2 ^ k / 2) false) = false := by
    split
    · rfl
    · next pos =>
      refine roundsUp_exact _ _ _ ?_
      obtain ⟨j, rfl⟩ := Nat.exists_eq_succ_of_ne_zero pos
      simp [pow_succ]
  unfold roundTo
  rw [if_neg (by positivity)]
  simp only [lg, kept, quantum, sh, show qe - (k : Int) ≤ qe by omega, if_true, Nat.mul_mod_left,
    Bool.or_false, bne_self_eq_false, Bool.false_and, Bool.false_eq_true, if_false, Nat.shiftRight_eq_div_pow,
    Nat.mul_div_cancel _ (Nat.two_pow_pos k), up, Nat.not_lt.2 fits]
  simp

/-- The value that a code holds, however it is written, rounds to the code. -/
theorem roundTo_holds {f : Fmt} {env : Env} (neg : Bool) {c m : Nat} {e : Int} (k : Nat) (h : f.Holds c m e)
    (fits : c ≤ f.maxCode) (kept : f.flush = true → env.ftz = true → m = 0 ∨ 2 ^ f.m ≤ m) :
    roundTo f env neg (m * 2 ^ k) (e - k) = (f.signed neg c, 0) := by
  by_cases nz : m = 0
  · subst nz
    rw [h.eq_zero, roundTo, if_pos (Nat.zero_mul _)]
  · have kept : (f.flush && env.ftz && decide (e + (Nat.log2 m : Int) < f.emin)) = false := by
      rw [Bool.eq_false_iff]
      simp only [ne_eq, Bool.and_eq_true, decide_eq_true_eq, not_and, Int.not_lt, and_imp]
      exact fun flush ftz => h.emin_le ((kept flush ftz).resolve_left nz)
    have rounded := roundTo_exact env neg k nz kept (h.quantum nz) (by rwa [h.packMag])
    rwa [h.packMag] at rounded

/-! ### Conversions to integers (R96) -/

/-- A whole number is converted without rounding. -/
theorem toInt_whole (rm : Rnd) (neg : Bool) (m k : Nat) :
    toInt rm neg m k = ((if neg then -1 else 1 : Int) * (m * 2 ^ k : Nat), false) := by
  rw [toInt, if_pos (by omega), Int.toNat_natCast, Nat.shiftLeft_eq, sgn]
  cases neg <;> simp

end Sys2Proof.Machine

open Sys2Proof Sys2Proof.Machine

/-- Settles O27: a value that a code holds lies on the format's quanta, so that rounding cuts off nothing; a conversion to
an integer rounds no whole number. -/
theorem exactValuesConvertExactly : Obligations.ExactValuesConvertExactly := by
  unfold Obligations.ExactValuesConvertExactly
  refine ⟨fun f listed env neg c m e k positive value kept => ?_,
    fun w sg env _ => ⟨fun neg m k => ?_, fun neg => ?_, fun n q p => rfl⟩⟩
  · have wide : ∀ f ∈ [fF64, fF32, fF16, fBf16, fE5m2, fE4m3, fE3m2, fE2m3, fE2m1], f.m ≤ f.w - 1 := by decide
    obtain ⟨holds, fits⟩ := Fmt.holds_of_val (wide f listed) positive value
    exact roundTo_holds neg k holds fits kept
  · simp only [fpToInt, toInt_whole]
    cases sg <;> rfl
  · cases sg <;> rfl
end

section
namespace Sys2Proof.Machine

/-! ### Whole numbers in codes (R90) -/

/-- What a code of a type's width holds as an integer. -/
theorem codeInt_eq_elemNum {w c : Nat} (sg : Bool) (h : c < 2 ^ w) : codeInt w sg c = elemNum sg w c := by
  simp only [codeInt, elemNum, Nat.mod_eq_of_lt h, Bool.and_eq_true, decide_eq_true_eq]

/-- A whole number as a factor of a term. -/
def wholeVal (x : Int) : FV := .fin (decide (x < 0)) x.natAbs 0

theorem elemVal_whole {f : MFmt} (hf : f = .i8 ∨ f = .i16) (daz : Bool) {code : Nat} (h : code < 2 ^ elemBits f) :
    elemVal f daz code = wholeVal (elemNum true (elemBits f) code) := by
  rw [← codeInt_eq_elemNum true h]
  rcases hf with rfl | rfl <;> rfl

theorem laneElem_lt (f : MFmt) (lane : BitVec 128) (k : Nat) : laneElem f lane k < 2 ^ elemBits f := BitVec.isLt _

/-! ### Sums of finite terms (R98) -/

/-- A term whose factors and product are finite. -/
def Term.Finite (t : Term) : Prop := t.a.isNan = false ∧ t.b.isNan = false ∧ ∃ n m e, t.v = some (.fin n m e)

/-- A group of finite terms is summed by the adder of its format. -/
theorem Group.sum_finite {g : Group} {i j : Nat} (finite : ∀ t ∈ g.terms i j, t.Finite) (scaled : g.nanScale i j = false) :
    g.sum i j = sumTerms (adderC g.af) (nonZero (g.terms i j)) := by
  have nan : ((g.terms i j).any fun t => t.a.isNan || t.b.isNan) = false := by
    simp only [List.any_eq_false, Bool.or_eq_true, not_or, Bool.not_eq_true]
    exact fun t ht => ⟨(finite t ht).1, (finite t ht).2.1⟩
  have bad : ((g.terms i j).any fun t => !t.a.isNan && !t.b.isNan && t.v.isNone) = false := by
    simp only [List.any_eq_false]
    intro t ht
    obtain ⟨-, -, n, m, e, value⟩ := finite t ht
    simp [value]
  simp only [Group.sum, nan, bad, scaled, Bool.and_false, Bool.or_false, Bool.false_eq_true, if_false]
  split
  · next n rest infs =>
    obtain ⟨t, ht, infinite⟩ := List.mem_filterMap.1 (infs.symm ▸ List.mem_cons_self : n ∈ _)
    obtain ⟨-, -, _, _, _, value⟩ := finite t ht
    rw [value] at infinite
    cases infinite
  · rfl

/-- Terms of whole numbers, which have the exponent 0, are added as they are. -/
theorem sumTerms_whole {nz : List (Bool × Nat × Int)} (whole : ∀ t ∈ nz, t.2.2 = 0) :
    let v := (nz.map fun t => sgn t.1 t.2.1).sum
    ∃ c, sumTerms none nz = (if v = 0 then .zero c else .val (decide (v < 0)) v.natAbs 0, 0) := by
  cases nz with
  | nil => exact ⟨false, rfl⟩
  | cons t ts =>
    refine ⟨true, ?_⟩
    have least : ts.foldl (fun m x => min m x.2.2) t.2.2 = 0 := by
      rw [whole t List.mem_cons_self]
      have rest : ∀ x ∈ ts, x.2.2 = 0 := fun x hx => whole x (List.mem_cons_of_mem _ hx)
      clear whole
      induction ts with
      | nil => rfl
      | cons x ts ih => rw [List.foldl_cons, rest x List.mem_cons_self]; exact ih fun y hy => rest y (List.mem_cons_of_mem _ hy)
    have whole_ : (t :: ts).map (truncTerm 0) = (t :: ts).map fun x => (sgn x.1 x.2.1, false) := by
      refine List.map_congr_left fun x hx => ?_
      simp [truncTerm, whole x hx]
    have sum : ((t :: ts).map fun x => (sgn x.1 x.2.1, false)).foldl (fun s x => s + x.1) 0
        = ((t :: ts).map fun x => sgn x.1 x.2.1).sum := by
      rw [List.sum_eq_foldl, List.foldl_map, List.foldl_map]
    have kept : ((t :: ts).map fun x => (sgn x.1 x.2.1, false)).any (·.2) = false := by simp
    simp only [sumTerms, least, whole_, sum, kept, Bool.false_eq_true, if_false]
    split <;> rfl

/-! ### Groups of whole numbers -/

/-- The whole numbers that a group's cell multiplies, in pairs. -/
def Group.factors (g : Group) (i j : Nat) : List (Int × Int) :=
  (List.range (min g.lanes (groupSize g.af))).map fun k =>
    (elemNum true (elemBits g.af) (laneElem g.af (g.a.extractLsb' (128 * i) 128) k),
      elemNum true (elemBits g.bf) (laneElem g.bf (g.b.extractLsb' (128 * j) 128) k))

theorem Group.dot_eq (g : Group) (i j : Nat) : g.dot i j = ((g.factors i j).map fun p => p.1 * p.2).sum := by
  rw [Group.dot, Group.factors, List.map_map]; rfl

/-- The term of two whole numbers. -/
def wholeTerm (p : Int × Int) : Term :=
  ⟨wholeVal p.1, wholeVal p.2, some (.fin (decide (p.1 < 0) != decide (p.2 < 0)) (p.1.natAbs * p.2.natAbs) 0)⟩

theorem termOf_whole (p : Int × Int) : termOf (wholeVal p.1) (wholeVal p.2) 1 0 = wholeTerm p := by
  simp [termOf, wholeTerm, wholeVal, mulVal, FV.neg]

theorem wholeTerm_finite (p : Int × Int) : (wholeTerm p).Finite := ⟨rfl, rfl, _, _, _, rfl⟩

/-- A group without scales, padding or multiplicities has a term for each of its lanes. -/
theorem Group.terms_whole {g : Group} (i j : Nat) (ha : g.af = .i8 ∨ g.af = .i16) (hb : g.bf = g.af) (mx : g.mx = false)
    (padK : g.padK = none) (mul : g.mul = none) : g.terms i j = (g.factors i j).map wholeTerm := by
  simp only [Group.terms, Group.factors, mx, padK, mul, List.filter_true, List.map_map, Bool.false_eq_true, if_false]
  refine List.map_congr_left fun k _ => ?_
  rw [elemVal_whole ha _ (laneElem_lt ..), elemVal_whole (hb ▸ ha) _ (laneElem_lt ..)]
  exact termOf_whole (_, _)

theorem sgn_mul (x y : Int) : sgn (decide (x < 0) != decide (y < 0)) (x.natAbs * y.natAbs) = x * y := by
  rcases lt_or_ge x 0 with hx | hx <;> rcases lt_or_ge y 0 with hy | hy <;>
    simp [sgn, hx, hy, not_lt.2, abs_of_neg, abs_of_nonneg]

theorem nonZero_whole (l : List (Int × Int)) : (∀ t ∈ nonZero (l.map wholeTerm), t.2.2 = 0)
    ∧ ((nonZero (l.map wholeTerm)).map fun t => sgn t.1 t.2.1).sum = (l.map fun p => p.1 * p.2).sum := by
  induction l with
  | nil => exact ⟨fun t ht => (by cases ht), rfl⟩
  | cons p l ih =>
    obtain ⟨exps, sum⟩ := ih
    rw [List.map_cons, List.map_cons, List.sum_cons, ← sgn_mul, ← sum]
    by_cases zero : p.1.natAbs * p.2.natAbs = 0
    · have skip : nonZero (wholeTerm p :: l.map wholeTerm) = nonZero (l.map wholeTerm) := by
        simp [nonZero, wholeTerm, zero]
      rw [skip, zero]
      exact ⟨exps, by simp [sgn]⟩
    · have keep : nonZero (wholeTerm p :: l.map wholeTerm)
          = (decide (p.1 < 0) != decide (p.2 < 0), p.1.natAbs * p.2.natAbs, 0) :: nonZero (l.map wholeTerm) := by
        simp [nonZero, wholeTerm, zero]
      rw [keep]
      exact ⟨List.forall_mem_cons.2 ⟨rfl, exps⟩, by simp⟩

/-- The sum of a group of whole numbers is their dot product, exact (R98, R99). -/
theorem Group.sum_whole {g : Group} (i j : Nat) (ha : g.af = .i8 ∨ g.af = .i16) (hb : g.bf = g.af) (mx : g.mx = false)
    (padK : g.padK = none) (mul : g.mul = none) :
    ∃ c, g.sum i j = (if g.dot i j = 0 then .zero c else .val (decide (g.dot i j < 0)) (g.dot i j).natAbs 0, 0) := by
  have terms := g.terms_whole i j ha hb mx padK mul
  obtain ⟨whole, sum⟩ := nonZero_whole (g.factors i j)
  have adder : adderC g.af = none := by rcases ha with h | h <;> rw [h] <;> rfl
  rw [Group.sum_finite, terms, adder, Group.dot_eq, ← sum]
  · exact sumTerms_whole whole
  · rw [terms]
    intro t ht
    obtain ⟨p, -, rfl⟩ := List.mem_map.1 ht
    exact wholeTerm_finite p
  · rw [Group.nanScale, mx, Bool.false_and]

/-! ### Folds into INT32 (R100) -/

/-- What a sum adds to an INT32 cell. -/
def GSum.num : GSum → Int
  | .val n m e => sgn n (m <<< e.toNat)
  | _ => 0

theorem foldSum_int (sat : Bool) (env : Env) {code : Nat} (hc : code < 2 ^ 32) (x : GSum) :
    let z := elemNum true 32 code + x.num
    foldSum .i32 sat env code x = if -(2 ^ 31) ≤ z ∧ z < 2 ^ 31 then (wrapTo 32 z, 0)
      else (if sat = true then (if z < 0 then 2 ^ 31 else 2 ^ 31 - 1) else wrapTo 32 z, IOVF) := by
  intro z
  have fold : foldSum .i32 sat env code x = if z < -(2 ^ 31) ∨ 2 ^ 31 - 1 < z then
      (wrapTo 32 (if sat then (if z < -(2 ^ 31) then -(2 ^ 31) else 2 ^ 31 - 1) else z), IOVF) else (wrapTo 32 z, 0) := by
    simp only [z, ← codeInt_eq_elemNum true hc]
    cases x <;> rfl
  rw [fold]
  by_cases low : z < -(2 ^ 31)
  · have inside : ¬ (-(2 ^ 31) ≤ z ∧ z < 2 ^ 31) := by omega
    rw [if_pos (.inl low), if_neg inside, if_pos low, if_pos (show z < 0 by omega)]
    cases sat <;> rfl
  by_cases high : 2 ^ 31 - 1 < z
  · have inside : ¬ (-(2 ^ 31) ≤ z ∧ z < 2 ^ 31) := by omega
    rw [if_pos (.inr high), if_neg inside, if_neg low, if_neg (show ¬ z < 0 by omega)]
    cases sat <;> rfl
  · rw [if_neg (by omega), if_pos (by omega)]

theorem GSum.num_whole {x : GSum} {n : Int}
    (h : (n = 0 ∧ ∃ c, x = .zero c) ∨ ∃ m e : Nat, x = .val (decide (n < 0)) m e ∧ (m * 2 ^ e : Nat) = n.natAbs) :
    x.num = n := by
  obtain ⟨rfl, c, rfl⟩ | ⟨m, e, rfl, value⟩ := h
  · rfl
  · simp only [GSum.num, Int.toNat_natCast, Nat.shiftLeft_eq, value, sgn, decide_eq_true_eq]
    split <;> omega

end Sys2Proof.Machine

open Sys2Proof Sys2Proof.Machine

/-- Settles O32: terms of whole numbers have the exponent 0, so that the adder loses no bit of them; a fold into INT32
wraps or saturates where the sum leaves the range. -/
theorem integerGroupsAreDotProducts : Obligations.IntegerGroupsAreDotProducts := by
  unfold Obligations.IntegerGroupsAreDotProducts
  refine ⟨fun g i j ha hb mx padK mul => ?_, fun sat env code x n hc value => ?_⟩
  · obtain ⟨c, sum⟩ := g.sum_whole i j ha hb mx padK mul
    rw [sum]
    exact ⟨rfl, fun zero => ⟨c, if_pos zero⟩, fun nz => ⟨_, 0, if_neg nz, Nat.mul_one _⟩⟩
  · rw [← GSum.num_whole value]
    exact foldSum_int sat env hc x
end

section
namespace Sys2Proof.Machine

/-! ### What a vector word checks (R95, R229) -/

/-- The flags of a destination are those of its enabled elements. -/
theorem vmap_flags {r : Regs} {w : Nat} {msk : Fin 8} {d : Fin 32} {g f : Nat → Nat × Flags}
    (same : ∀ e, (g e).2 = (f e).2) : (r.vmap w msk d g).2 = flagsOf r msk w f := by
  simp only [Regs.vmap, flagsOf, vcount, List.foldl_map]
  congr 1
  funext fl e
  split
  · rw [same]
  · exact BitVec.or_zero

theorem vecWord_fp {s : State} {d : Fin 32} {r : Vec × Flags} {lat : Nat} (alone : s.me.snap = none) (free : s.NoTransfer)
    (enabled : r.2 &&& tenOf s.src.fpctl ≠ 0) :
    s.vecWord d r lat = .next (s.takeTrap .fpTrap (r.2.setWidth 64) r.2) := by
  have check : s.transferOk.and (s.fpOk r.2) = .fp r.2 := by
    rw [(transferOk_eq_go s).2 free, Verdict.go_and, State.fpOk, if_pos enabled]
  rw [State.vecWord, check, guard_alone s alone (fun e => by cases e)]
  rfl

theorem vecWord_inTransfer {s : State} {d : Fin 32} {r : Vec × Flags} {lat : Nat} (alone : s.me.snap = none)
    (phase : s.inTransfer = true) : s.vecWord d r lat = .next (s.takeTrap .illMod (layoutW s.me.word.1 s.me.word.2)) :=
  guard_traps alone (by rw [State.transferOk, if_pos phase]; rfl) _

/-! ### The words of R422 to R431 as one shape -/

/-- A word writes the elements of its destination, and raises for each the flags that the tables state. -/
def WritesElements (s : State) (r : Res) (x : Fin 32 × Fin 8 × Nat × Nat × (Nat → Nat × Flags)) : Prop :=
  let (d, msk, w, lat, f) := x
  ∃ g, r = s.vecWord d (s.src.vmap w msk d g) lat ∧ ∀ e, (g e).2 = (f e).2

theorem arith_writes {s : State} {r : Res} {d a b : Fin 32} {ty : VTy} {m : VMod} {il fl : Nat} {i : Int → Int → Int}
    {h : Fmt → Env → Nat → Nat → Nat × Flags} (meaning : r = s.arith d a b ty m il fl i h) :
    WritesElements s r (d, m.msk, ty.width, if ty.isInt then il else fl, fun e =>
      eitherOf ty (envOf s.src.fpctl m.rnd) i h (velem ty.width s.src.v[a] e) (velem ty.width s.src.v[b] e)) := by
  subst meaning
  unfold State.arith eitherOf
  split
  · exact ⟨_, rfl, fun e => rfl⟩
  · exact ⟨_, rfl, fun e => rfl⟩

/-- A clamped element raises the flags of its two steps. -/
theorem clampElem_flags (ty : VTy) (env : Env) (d a b : Nat) :
    (clampElem ty env d a b).2 =
      let x := eitherOf ty env max (fun f e => fpMinMax f e true) d a
      x.2 ||| (eitherOf ty env min (fun f e => fpMinMax f e false) x.1 b).2 := by
  unfold clampElem eitherOf
  split
  · exact BitVec.zero_or.symm
  · rfl

theorem widen_float {ty : VTy} (float : ty.isInt = false) (env : Env) (c : Nat) : widen ty env c = widened ty env c := by
  rw [widen, widened, float]; rfl

theorem widen_int_flags {ty : VTy} (int : ty.isInt = true) (env : Env) (c : Nat) : (widen ty env c).2 = 0 := by
  rw [widen, int]; rfl

theorem widened_int_flags {ty : VTy} (int : ty.isInt = true) (env : Env) (c : Nat) : (widened ty env c).2 = 0 := by
  rw [widened, int]; rfl

/-- The two scales of VDEQ's register (R428). -/
theorem bitsOf_scale (v : Word) (e : Nat) :
    bitsOf v (if e < 32 then 0 else 8) 8 = v.toNat / (if e < 32 then 1 else 256) % 256 := by
  rw [bitsOf_eq]
  split <;> rfl

/-- Every word of the tables has their shape. -/
theorem exec_writesElements {s : State} {i : Instr} {x : Fin 32 × Fin 8 × Nat × Nat × (Nat → Nat × Flags)}
    (h : vecOf s i = some x) : WritesElements s (exec i s) x := by
  unfold vecOf at h
  split at h
  all_goals cases h
  -- the words with an integer and a floating meaning
  case h_1 | h_2 | h_3 | h_4 | h_5 => exact arith_writes rfl
  -- VCLAMP
  case h_6 => exact ⟨_, rfl, fun e => clampElem_flags ..⟩
  -- VDEQ
  case h_30 =>
    refine ⟨_, rfl, fun e => ?_⟩
    simp only [bitsOf_scale, BitVec.extractLsb'_toNat, Nat.shiftRight_eq_div_pow]
    rfl
  -- the widening words
  case h_31 d a b ty q m | h_32 d a b ty q m | h_33 d a b ty q m =>
    refine ⟨_, rfl, fun e => ?_⟩
    cases kind : ty.isInt with
    | true => simp only [widen_int_flags kind, widened_int_flags kind, intElem, if_true, if_false, Bool.false_eq_true]
    | false => simp only [widen_float kind, State.env, if_false, Bool.false_eq_true]
  -- the words whose meaning is the table's
  all_goals exact ⟨_, rfl, fun e => rfl⟩

end Sys2Proof.Machine

open Sys2Proof Sys2Proof.Machine

/-- Settles O26: every word of the tables checks its phase and then its flags, and those are the enabled elements'. -/
theorem vectorWordsTrap : Obligations.VectorWordsTrap := by
  unfold Obligations.VectorWordsTrap
  intro s i d msk w lat f word _ alone
  obtain ⟨g, meaning, same⟩ := exec_writesElements word
  rw [meaning, ← vmap_flags (d := d) same]
  exact ⟨vecWord_fp alone, vecWord_inTransfer alone⟩
end

section
namespace Sys2Proof.Machine

/-! ### Codes in store cells (R111) -/

theorem accCode_cons (m : Cells 32) (c : Nat) (cs : List Nat) :
    accCode m (c :: cs) = (cget m c).toNat + 2 ^ 32 * accCode m cs := rfl

theorem accCode_congr {m m' : Cells 32} {cs : List Nat} (same : ∀ c ∈ cs, cget m' c = cget m c) :
    accCode m' cs = accCode m cs := by
  induction cs with
  | nil => rfl
  | cons c cs ih =>
    rw [accCode_cons, accCode_cons, same c List.mem_cons_self, ih fun x hx => same x (List.mem_cons_of_mem _ hx)]

/-- A code put into cells leaves every other cell alone. -/
theorem cget_putCode_ne {c : Nat} : ∀ {cs : List Nat} {m : Cells 32} (v : Nat), Memory.wf m = true → c ∉ cs →
    cget (putCode m cs v) c = cget m c
  | [], _, _, _, _ => rfl
  | x :: cs, m, v, wf, out => by
    obtain ⟨head, rest⟩ := List.ne_and_not_mem_of_not_mem_cons out
    rw [putCode, cget_putCode_ne _ (wf_cset x _ wf) rest, cget_cset_ne head _ wf]

/-- A code put into cells reads back, as far as they hold it. -/
theorem accCode_putCode : ∀ {cs : List Nat} {m : Cells 32} (v : Nat), Memory.wf m = true → cs.Nodup →
    accCode (putCode m cs v) cs = v % 2 ^ (32 * cs.length)
  | [], _, v, _, _ => (Nat.mod_one v).symm
  | x :: cs, m, v, wf, nodup => by
    obtain ⟨head, rest⟩ := List.nodup_cons.1 nodup
    rw [putCode, accCode_cons, accCode_putCode _ (wf_cset x _ wf) rest, cget_putCode_ne _ (wf_cset x _ wf) head,
      cget_cset_self x _ wf, BitVec.toNat_ofNat, List.length_cons, Nat.mul_succ, Nat.add_comm (32 * _), pow_add,
      Nat.mod_mul]

/-- Zeros put into cells one after another. -/
theorem putCode_zero : ∀ (cs : List Nat) (m : Cells 32), putCode m cs 0 = cs.foldl (fun m c => cset m c 0) m
  | [], _ => rfl
  | c :: cs, m => putCode_zero cs (cset m c 0)

/-! ### Cells rewritten one after another -/

/-- The cells that each x names are rewritten by f from what they hold, and the flags collected. -/
def rewriteCells {α : Type} (cells : α → List Nat) (f : α → Nat → Nat × Flags) (l : List α) (r : Cells 32 × Flags) :
    Cells 32 × Flags :=
  l.foldl (fun r x => (putCode r.1 (cells x) (f x (accCode r.1 (cells x))).1, r.2 ||| (f x (accCode r.1 (cells x))).2)) r

/-- Where no two meet, each is rewritten from what it held at first. -/
theorem rewriteCells_spec {α : Type} {cells : α → List Nat} {f : α → Nat → Nat × Flags} :
    ∀ {l : List α} {r : Cells 32 × Flags}, Memory.wf r.1 = true → (∀ x ∈ l, (cells x).Nodup) →
    l.Pairwise (fun x y => (cells x).Disjoint (cells y)) →
    (∀ x ∈ l, accCode (rewriteCells cells f l r).1 (cells x)
      = (f x (accCode r.1 (cells x))).1 % 2 ^ (32 * (cells x).length))
    ∧ (∀ c, (∀ x ∈ l, c ∉ cells x) → cget (rewriteCells cells f l r).1 c = cget r.1 c)
    ∧ ∀ b, (rewriteCells cells f l r).2.getLsbD b = true
        ↔ r.2.getLsbD b = true ∨ ∃ x ∈ l, (f x (accCode r.1 (cells x))).2.getLsbD b = true
  | [], r, _, _, _ => by simp [rewriteCells]
  | x :: l, (m, fl), wf, nodup, disjoint => by
    obtain ⟨first, rest⟩ := List.pairwise_cons.1 disjoint
    have nodupX := nodup x List.mem_cons_self
    set v := f x (accCode m (cells x))
    have wf' : Memory.wf (putCode m (cells x) v.1) = true := putCode_wf _ _ _ wf
    obtain ⟨values, frame, flags⟩ := rewriteCells_spec (f := f) (r := (putCode m (cells x) v.1, fl ||| v.2)) wf'
      (fun y hy => nodup y (List.mem_cons_of_mem _ hy)) rest
    have step : rewriteCells cells f (x :: l) (m, fl) = rewriteCells cells f l (putCode m (cells x) v.1, fl ||| v.2) :=
      rfl
    have before (y) (hy : y ∈ l) : accCode (putCode m (cells x) v.1) (cells y) = accCode m (cells y) :=
      accCode_congr fun c hc => cget_putCode_ne _ wf fun h => first y hy h hc
    rw [step]
    refine ⟨List.forall_mem_cons.2 ⟨?_, fun y hy => ?_⟩, fun c out => ?_, fun b => ?_⟩
    · rw [accCode_congr fun c hc => frame c fun y hy => first y hy hc, accCode_putCode _ wf nodupX]
    · rw [values y hy, before y hy]
    · obtain ⟨head, tail⟩ := List.forall_mem_cons.1 out
      rw [frame c tail, cget_putCode_ne _ wf head]
    · rw [flags, BitVec.getLsbD_or, Bool.or_eq_true, or_assoc, List.exists_mem_cons_iff]
      refine or_congr_right (or_congr_right ⟨?_, ?_⟩)
      · rintro ⟨y, hy, h⟩
        exact ⟨y, hy, before y hy ▸ h⟩
      · rintro ⟨y, hy, h⟩
        exact ⟨y, hy, (before y hy).symm ▸ h⟩

/-! ### The cells of a window (R111, R117) -/

theorem Window.mem_passed {w : Window} {acc : AFmt} {i j : Nat} : (i, j) ∈ w.passed acc ↔ i < w.rows ∧ j < w.cols
    ∧ (∀ d, w.padM = some d → w.row0 + i < d)
    ∧ ∀ d, w.padN = some d → (if acc = .f64 then w.col0 / 2 * 2 else w.col0) + j < d := by
  simp only [Window.passed, List.mem_flatMap, List.mem_map, List.mem_filter, List.mem_range, Prod.mk.injEq,
    exists_eq_right_right]
  rcases w.padM with _ | dM <;> rcases w.padN with _ | dN <;>
    simp only [reduceCtorEq, Option.some.injEq, forall_eq', false_imp_iff, implies_true, and_true, true_and,
      decide_eq_true_eq, and_assoc, and_left_comm, and_comm]

theorem mem_passed {a : Arr} {row col i j : Nat} : (i, j) ∈ (a.window row col).passed a.acc ↔ WritesCell a row col i j :=
  Window.mem_passed

theorem passed_nodup (w : Window) (acc : AFmt) : (w.passed acc).Nodup := by
  unfold Window.passed
  exact (List.nodup_range.filter _).product (List.nodup_range.filter _)

theorem cells_eq (a : Arr) (row col : Nat) (ij : Nat × Nat) :
    (a.window row col).cells a.acc ij = storeCellsOf a.acc row col ij.1 ij.2 := by
  unfold Window.cells storeCellsOf
  cases a.acc <;> rfl

theorem storeCellsOf_nodup (acc : AFmt) (row col i j : Nat) : (storeCellsOf acc row col i j).Nodup := by
  cases acc <;> simp [storeCellsOf]
  omega

/-- Two cells of a window within the masks share no store cell (R111). -/
theorem storeCellsOf_disjoint {a : Arr} (masked : a.Masked) {row col : Nat} {x y : Nat × Nat}
    (hx : WritesCell a row col x.1 x.2) (hy : WritesCell a row col y.1 y.2) (ne : x ≠ y) :
    (storeCellsOf a.acc row col x.1 x.2).Disjoint (storeCellsOf a.acc row col y.1 y.2) := by
  obtain ⟨rows, cols⟩ := masked
  obtain ⟨rx, cx, -, -⟩ := hx
  obtain ⟨ry, cy, -, -⟩ := hy
  have ne : x.1 ≠ y.1 ∨ x.2 ≠ y.2 := by
    by_contra h
    push Not at h
    exact ne (Prod.ext h.1 h.2)
  intro c hc hc'
  unfold storeCellsOf at hc hc'
  split at hc
  · rw [if_pos (by assumption)] at hc'
    simp only [List.mem_cons, List.not_mem_nil, or_false] at hc hc'
    omega
  · rw [if_neg (by assumption)] at hc'
    simp only [List.mem_cons, List.not_mem_nil, or_false] at hc hc'
    omega

theorem accCode_storeCells (m : Cells 32) (acc : AFmt) (row col i j : Nat) :
    accCode m (storeCellsOf acc row col i j) = codeAt m (storeCellsOf acc row col i j) := by
  cases acc <;> simp [storeCellsOf, accCode, codeAt]

theorem storeCellsOf_bits (acc : AFmt) (row col i j : Nat) :
    2 ^ (32 * (storeCellsOf acc row col i j).length) = if acc = .f64 then 2 ^ 64 else 2 ^ 32 := by
  cases acc <;> rfl

/-- The cells of a window rewritten (R113): each from what it held, the others left, the flags those of all. -/
theorem rewriteWindow {a : Arr} (masked : a.Masked) {m : Cells 32} (wf : Memory.wf m = true) (row col : Nat)
    (f : Nat × Nat → Nat → Nat × Flags) :
    let r := rewriteCells ((a.window row col).cells a.acc) f ((a.window row col).passed a.acc) (m, 0)
    FoldedInto a m r.1 row col (fun i j code => (f (i, j) code).1)
      ∧ ∀ b, r.2.getLsbD b = true ↔ ∃ i j, WritesCell a row col i j
        ∧ (f (i, j) (codeAt m (storeCellsOf a.acc row col i j))).2.getLsbD b = true := by
  intro r
  have nodup (x : Nat × Nat) : ((a.window row col).cells a.acc x).Nodup := cells_eq .. ▸ storeCellsOf_nodup ..
  have disjoint : ((a.window row col).passed a.acc).Pairwise fun x y =>
      ((a.window row col).cells a.acc x).Disjoint ((a.window row col).cells a.acc y) :=
    (passed_nodup _ _).pairwise_of_forall_ne fun x hx y hy ne => by
      rw [cells_eq, cells_eq]
      exact storeCellsOf_disjoint masked (mem_passed.1 hx) (mem_passed.1 hy) ne
  obtain ⟨values, frame, flags⟩ := rewriteCells_spec (f := f) (r := (m, 0)) wf (fun x _ => nodup x) disjoint
  simp only [cells_eq, accCode_storeCells, storeCellsOf_bits] at values frame flags
  refine ⟨⟨fun i j h => values (i, j) (mem_passed.2 h),
    fun c out => frame c fun x hx => out _ _ (mem_passed.1 hx)⟩, fun b => ?_⟩
  have clear : (0 : Flags).getLsbD b = false := BitVec.getLsbD_zero
  rw [flags]
  simp only [clear, Prod.exists, mem_passed, Bool.false_eq_true, false_or]

end Sys2Proof.Machine
end

section
namespace Sys2Proof.Machine

/-! ### Folds as rewritten windows (R100, R113, R127) -/

/-- A window folded is its cells rewritten by the folds of the groups. -/
theorem foldWindow_eq (a : Arr) (env : Env) (gs : List Group) (w : Window) (m : Cells 32) :
    foldWindow a.acc a.sat env gs w m
      = rewriteCells (w.cells a.acc) (fun ij => foldedBy a env gs ij.1 ij.2) (w.passed a.acc) (m, 0) := rfl

/-- MZERO's writes as a window rewritten with zeros. -/
theorem zeroed_eq (w : Window) (acc : AFmt) (m : Cells 32) (fl : Flags) :
    (w.all acc).foldl (fun m c => cset m c 0) m
      = (rewriteCells (w.cells acc) (fun _ _ => (0, 0)) (w.passed acc) (m, fl)).1 := by
  unfold Window.all rewriteCells
  induction w.passed acc generalizing m fl with
  | nil => rfl
  | cons x l ih =>
    rw [List.flatMap_cons, List.foldl_append, List.foldl_cons, ← putCode_zero (w.cells acc x)]
    exact ih ..

/-! ### What recording a fold changes (R113, R116) -/

theorem ArrayEvent.trans {s t u : State} {core : Nat} (h : ArrayEvent s t core) (h' : ArrayEvent t u core) :
    ArrayEvent s u core where
  package :=
    (congrArg (fun x : State => { x with cores := s.cores, agenda := s.agenda, nextOp := s.nextOp }) h'.package).trans h.package
  others k hk := (h'.others k hk).trans (h.others k hk)
  core := (congrArg (fun x : Core => { x with arr := (s.core core).arr, acc := (s.core core).acc }) h'.core).trans h.core

/-- An update of a core's array and accumulator store alone. -/
theorem modCore_arrayEvent (s : State) (core : Nat) (a : Core → Arr) (m : Core → Cells 32) :
    ArrayEvent s (s.modCore core fun c => { c with arr := a c, acc := m c }) core where
  package := rfl
  others _ hk := State.core_modCore_ne s hk _
  core := by rw [State.core_modCore_self]

/-- The record of a fold that performs in cycle f. -/
def Core.foldRec (c : Core) (id f : Nat) (cells : List Nat) (fl ten : Flags) : FoldRec :=
  ⟨id, f + 6, cells.map fun a => (a, cget c.acc a), fl, ten⟩

section
variable (s : State) (core f : Nat) (m : Cells 32) (cells : List Nat) (fl ten : Flags)

theorem recordFold_arrayEvent : ArrayEvent s (s.recordFold core f m cells fl ten) core :=
  have h := modCore_arrayEvent s core (fun c => { c.arr with
    folds := c.arr.folds ++ [(s.core core).foldRec s.nextOp f cells fl ten] }) fun _ => m
  ⟨h.package, h.others, h.core⟩

theorem recordFold_core : (s.recordFold core f m cells fl ten).core core = { s.core core with
    acc := m, arr := { (s.core core).arr with
      folds := (s.core core).arr.folds ++ [(s.core core).foldRec s.nextOp f cells fl ten] } } :=
  (core_of_cores (b := s.setCore core _) rfl core).trans (State.core_setCore_self ..)

theorem recordFold_agenda :
    (s.recordFold core f m cells fl ten).agenda = insertDue (f + 7) (.foldRetire core s.nextOp) s.agenda := rfl

theorem recordFold_nextOp : (s.recordFold core f m cells fl ten).nextOp = s.nextOp + 1 := rfl

end

/-- The groups that can be folded (R112). -/
def Arr.ready (a : Arr) : List Group := a.pending.filter fun g => g.ready.isSome

/-- The window of a core folded under an FPCTL: the store after, and the flags. -/
def Core.folded (c : Core) (fp : BitVec 16) (w : Window) : Cells 32 × Flags :=
  foldWindow c.arr.acc c.arr.sat (envOf fp .dyn) c.arr.ready w c.acc

/-- A fold without ready groups does nothing (R386). -/
theorem foldReady_none {s : State} {core : Nat} (idle : (s.core core).arr.ready = []) (f : Nat) (fp : BitVec 16)
    (w : Window) : s.foldReady core f fp w = s := by
  unfold Arr.ready at idle
  simp only [State.foldReady, idle, List.isEmpty_nil, if_true]

section
variable {s : State} {core : Nat} (groups : (s.core core).arr.ready ≠ []) (f : Nat) (fp : BitVec 16) (w : Window)
include groups

theorem foldReady_eq : s.foldReady core f fp w =
    (s.modCore core fun c => { c with
      arr := { c.arr with pending := c.arr.pending.filter fun g => g.ready.isNone } }).recordFold core f
      ((s.core core).folded fp w).1 (w.all (s.core core).arr.acc) ((s.core core).folded fp w).2 (tenOf fp) := by
  have groups : ((s.core core).arr.pending.filter fun g => g.ready.isSome).isEmpty = false := by
    simpa [Arr.ready] using groups
  simp only [State.foldReady, groups, Bool.false_eq_true, if_false, State.core_modCore_self, Core.folded, Arr.ready]

theorem foldReady_arrayEvent : ArrayEvent s (s.foldReady core f fp w) core := by
  rw [foldReady_eq groups]
  exact (modCore_arrayEvent s core _ fun c => c.acc).trans (recordFold_arrayEvent ..)

theorem foldReady_core : (s.foldReady core f fp w).core core = { s.core core with
    acc := ((s.core core).folded fp w).1
    arr := { (s.core core).arr with
      pending := (s.core core).arr.pending.filter fun g => g.ready.isNone
      folds := (s.core core).arr.folds ++ [(s.core core).foldRec s.nextOp f (w.all (s.core core).arr.acc)
        ((s.core core).folded fp w).2 (tenOf fp)] } } := by
  rw [foldReady_eq groups, recordFold_core, State.core_modCore_self]
  rfl

theorem foldReady_agenda : (s.foldReady core f fp w).agenda = insertDue (f + 7) (.foldRetire core s.nextOp) s.agenda := by
  rw [foldReady_eq groups, recordFold_agenda]
  rfl

theorem foldReady_nextOp : (s.foldReady core f fp w).nextOp = s.nextOp + 1 := by
  rw [foldReady_eq groups, recordFold_nextOp]
  rfl

end

/-! ### The record of a window's cells (R113) -/

theorem foldRec_old {c : Core} {id f : Nat} {cells : List Nat} {fl ten : Flags} :
    ∀ e ∈ (c.foldRec id f cells fl ten).old, e.2 = cget c.acc e.1 := by
  intro e he
  obtain ⟨a, -, rfl⟩ := List.mem_map.1 he
  rfl

theorem foldRec_covers {a : Arr} {row col i j : Nat} (h : WritesCell a row col i j) {c : Core} {id f : Nat} {fl ten : Flags} :
    ∀ x ∈ storeCellsOf a.acc row col i j, ∃ v, (x, v) ∈ (c.foldRec id f ((a.window row col).all a.acc) fl ten).old := by
  intro x hx
  refine ⟨_, List.mem_map.2 ⟨x, List.mem_flatMap.2 ⟨(i, j), mem_passed.2 h, ?_⟩, rfl⟩⟩
  rwa [cells_eq]

/-! ### MACC and MZERO (R115, R386) -/

theorem acopyCells_nil {s : State} (h : s.NoAcopyIn) : s.myCore.acopyCells = [] := by
  refine List.flatMap_eq_nil_iff.2 fun o ho => ?_
  split
  · next cs e => exact absurd e (h o ho cs)
  · rfl

theorem foldOk_go {s : State} (h : s.NoAcopyIn) (w : Window) : s.foldOk w = .go := by
  rw [State.foldOk, waitIf_eq_go, acopyCells_nil h]
  rfl

theorem mzeroOk_go {s : State} (mine : s.ArrayMine) (free : s.NoAcopyIn) (row col : Nat) : s.mzeroOk row col = .go := by
  rw [State.mzeroOk, (mtxOk_eq_go s).2 mine, Verdict.go_and, foldOk_go free]

/-- A MACC waits for an ACOPY only where it finds a ready group. -/
theorem maccOk_go {s : State} (mine : s.ArrayMine)
    (free : (∃ g ∈ s.myCore.arr.pending, g.ready ≠ none) → s.NoAcopyIn) (row col : Nat) : s.maccOk row col = .go := by
  rw [State.maccOk, (mtxOk_eq_go s).2 mine, Verdict.go_and]
  split
  · next ready =>
    obtain ⟨g, hg, h⟩ := List.any_eq_true.1 ready
    exact foldOk_go (free ⟨g, hg, fun flight => by rw [flight] at h; cases h⟩) _
  · rfl

theorem winReg_eq (s : State) (x : Fin 32) : s.winReg x = ((s.rs x).toNat % 512, (s.rs x).toNat / 2 ^ 16 % 512) := by
  rw [State.winReg, bitsOf_eq, bitsOf_eq]
  simp

end Sys2Proof.Machine
end

section
namespace Sys2Proof.Machine

/-! ### The folds of MACC, MZERO and MBEAT.a -/

/-- A window folded (R100, R113, R116), in the masks and padding of an array. -/
theorem folded_spec {a : Arr} {c : Core} {row col : Nat} {w : Window} (masked : a.Masked) (wf : Memory.wf c.acc = true)
    (acc : c.arr.acc = a.acc) (sat : c.arr.sat = a.sat) (window : w = a.window row col) (fp : BitVec 16) :
    FoldedInto a c.acc (c.folded fp w).1 row col (fun i j code => (foldedBy a (envOf fp .dyn) c.arr.ready i j code).1)
      ∧ ∀ b, (c.folded fp w).2.getLsbD b = true ↔ ∃ i j, WritesCell a row col i j
        ∧ (foldedBy a (envOf fp .dyn) c.arr.ready i j
          (codeAt c.acc (storeCellsOf a.acc row col i j))).2.getLsbD b = true := by
  rw [Core.folded, acc, sat, foldWindow_eq, window]
  exact rewriteWindow masked wf row col fun ij => foldedBy a (envOf fp .dyn) c.arr.ready ij.1 ij.2

theorem canon_acc {s : State} (h : s.canon = true) (k : Nat) : Memory.wf (s.core k).acc = true :=
  (Core.canon_iff.1 (canon_core s h k)).2.2.2

/-- The executing core with WIN set. -/
def State.winSet (s : State) (row col : Nat) : State := s.modArr fun a => a.setWin row col

section
variable (s : State) (row col : Nat)

theorem winSet_arrayEvent : ArrayEvent s (s.winSet row col) s.cur :=
  modCore_arrayEvent s s.cur (fun c => c.arr.setWin row col) fun c => c.acc

theorem winSet_core : (s.winSet row col).core s.cur = { s.myCore with arr := s.myCore.arr.setWin row col } :=
  State.core_modCore_self ..

theorem macc_eq : s.macc row col = (s.winSet row col).foldReady s.cur s.cycle s.src.fpctl (s.myCore.arr.window row col) := rfl

/-- A MACC without ready groups sets WIN alone (R386). -/
theorem macc_none (idle : s.myCore.arr.ready = []) : s.macc row col = s.winSet row col := by
  rw [macc_eq]
  refine foldReady_none ?_ ..
  rw [winSet_core]
  exact idle

end

/-- What a word that folds into the window at (row, col) leaves: m is the store after, p are the groups that stay
pending, and the flags and trap enables are those of its record. -/
structure FoldsAt (s t : State) (row col : Nat) (m : Cells 32) (p : List Group) (fl ten : Flags) : Prop where
  event : ArrayEvent s t s.cur
  core : t.core s.cur = { s.myCore with
    acc := m
    arr := { s.myCore.arr with
      winRow := row, winCol := col, pending := p
      folds := s.myCore.arr.folds
        ++ [s.myCore.foldRec s.nextOp s.cycle ((s.myCore.arr.window row col).all s.myCore.arr.acc) fl ten] } }
  agenda : t.agenda = insertDue (s.cycle + 7) (.foldRetire s.cur s.nextOp) s.agenda
  number : t.nextOp = s.nextOp + 1

/-- An event of the executing core's array leaves that core the executing one. -/
theorem ArrayEvent.myCore {s t : State} (h : ArrayEvent s t s.cur) : t.myCore = t.core s.cur :=
  congrArg t.core (congrArg State.cur h.package :)

section
variable {s t : State} {row col : Nat} {m : Cells 32} {p : List Group} {fl ten : Flags} (h : FoldsAt s t row col m p fl ten)
include h

theorem FoldsAt.store : t.myCore.acc = m := congrArg Core.acc (h.event.myCore.trans h.core)

theorem FoldsAt.array : t.myCore.arr = { s.myCore.arr with
    winRow := row, winCol := col, pending := p
    folds := s.myCore.arr.folds
      ++ [s.myCore.foldRec s.nextOp s.cycle ((s.myCore.arr.window row col).all s.myCore.arr.acc) fl ten] } :=
  congrArg Core.arr (h.event.myCore.trans h.core)

theorem FoldsAt.winRow : (t.core s.cur).arr.winRow = row := congrArg (fun c => c.arr.winRow) h.core

theorem FoldsAt.winCol : (t.core s.cur).arr.winCol = col := congrArg (fun c => c.arr.winCol) h.core

end

/-- The executing core's window folded. -/
def State.foldedHere (s : State) (row col : Nat) : Cells 32 × Flags :=
  s.myCore.folded s.src.fpctl (s.myCore.arr.window row col)

theorem macc_folds {s : State} (row col : Nat) (groups : s.myCore.arr.ready ≠ []) :
    FoldsAt s (s.macc row col) row col (s.foldedHere row col).1
      (s.myCore.arr.pending.filter fun g => g.ready.isNone) (s.foldedHere row col).2 (tenOf s.src.fpctl) := by
  have groups : ((s.winSet row col).core s.cur).arr.ready ≠ [] := by rw [winSet_core]; exact groups
  let w := s.myCore.arr.window row col
  have core := foldReady_core groups s.cycle s.src.fpctl w
  rw [winSet_core] at core
  exact ⟨(winSet_arrayEvent s row col).trans (foldReady_arrayEvent groups ..), core,
    foldReady_agenda groups s.cycle s.src.fpctl w, foldReady_nextOp groups s.cycle s.src.fpctl w⟩

theorem mzero_folds (s : State) (row col : Nat) :
    FoldsAt s (s.mzero row col) row col
      (((s.myCore.arr.window row col).all s.myCore.arr.acc).foldl (fun m c => cset m c 0) s.myCore.acc)
      s.myCore.arr.pending 0 0 := by
  have core := recordFold_core (s.winSet row col) s.cur s.cycle
    (((s.myCore.arr.window row col).all s.myCore.arr.acc).foldl (fun m c => cset m c 0) s.myCore.acc)
    ((s.myCore.arr.window row col).all s.myCore.arr.acc) 0 0
  rw [winSet_core] at core
  exact ⟨(winSet_arrayEvent s row col).trans (recordFold_arrayEvent ..), core, rfl, rfl⟩

section
variable {s : State} (mine : s.ArrayMine)
include mine

theorem exec_mzero (free : s.NoAcopyIn) (row col : Fin 512) : exec (.mzero row col) s = .next (s.mzero row col) := by
  have meaning : exec (.mzero row col) s = execMzero row col s := rfl
  rw [meaning, execMzero, mzeroOk_go mine free, guard_go]

theorem exec_mzeroReg (free : s.NoAcopyIn) (x : Fin 32) :
    exec (.mzeroReg x) s = .next (s.mzero ((s.rs x).toNat % 512) ((s.rs x).toNat / 2 ^ 16 % 512)) := by
  have meaning : exec (.mzeroReg x) s = execMzeroReg x s := rfl
  rw [meaning, execMzeroReg, mzeroOk_go mine free, guard_go, winReg_eq]

variable (free : (∃ g ∈ s.myCore.arr.pending, g.ready ≠ none) → s.NoAcopyIn)
include free

theorem exec_macc (row col : Fin 512) : exec (.macc row col) s = .next (s.macc row col) := by
  have meaning : exec (.macc row col) s = execMacc row col s := rfl
  rw [meaning, execMacc, maccOk_go mine free, guard_go]

theorem exec_maccReg (x : Fin 32) :
    exec (.maccReg x) s = .next (s.macc ((s.rs x).toNat % 512) ((s.rs x).toNat / 2 ^ 16 % 512)) := by
  have meaning : exec (.maccReg x) s = execMaccReg x s := rfl
  rw [meaning, execMaccReg, maccOk_go mine free, guard_go, winReg_eq]

end

/-- A group that is found ready is among those that can be folded. -/
theorem ready_ne_nil {a : Arr} {g : Group} {p : Group → Bool} {fp : BitVec 16} (found : a.pending.find? p = some g)
    (ready : g.ready = some fp) : a.ready ≠ [] :=
  List.ne_nil_of_mem (List.mem_filter.2 ⟨List.mem_of_find?_eq_some found, by rw [ready]; rfl⟩)

/-- MBEAT_A_FOLD folds in the cycle before its own (R112, log 5). -/
theorem exec_mbeatAFold {s : State} {core id : Nat} {g : Group} {fp : BitVec 16} {w : Window}
    (found : (s.core core).arr.pending.find? (fun g => g.id == id) = some g) (ready : g.ready = some fp)
    (auto : g.auto = some w) : exec (.mbeatAFold core id) s = .next (s.foldReady core (s.cycle - 1) fp w) := by
  have meaning : exec (.mbeatAFold core id) s = execMbeatAFold core id s := rfl
  rw [meaning, execMbeatAFold, found]
  simp only [ready, auto]

/-! ### What lands when a fold retires (R95, R116) -/

theorem landArr_cases (c : Ctx) (f : Regs → Regs) :
    c.landArr f = if c.unsettled = true then { c with regs := f c.regs } else c.land f := rfl

theorem landArr_eq (c : Ctx) (f : Regs → Regs) :
    c.landArr f = { c with regs := f c.regs, snap := if c.unsettled = true then c.snap else c.snap.map f } := by
  rw [landArr_cases]
  split <;> rfl

theorem landFlags_eq (c : Ctx) (fl : Flags) (ten : BitVec 7) : c.landFlags fl ten =
    { c.landArr fun r => r.orFlags fl with
      landFp := if fl &&& ten = 0 then c.landFp else some (c.landFp.getD 0 ||| fl) } := by
  simp only [Ctx.landFlags, landArr_eq, ne_eq, ite_not]
  split <;> rfl

/-- Flags that land from the array reach the registers, and their image where no trap would undo them. -/
theorem arrayLanded_of_landFlags {s t : State} {core : Nat} {i : Fin 4} {fl : Flags} {ten : BitVec 7}
    (h : t.ctx core i = (s.ctx core i).landFlags fl ten) : ArrayLanded s t core i fun r r' => r.Keeps r' [] fl := by
  rw [ArrayLanded, LandedBut, h, landFlags_eq, landArr_eq]
  dsimp only
  refine ⟨Regs.keeps_orFlags .., ?_, fun r r' before after => ?_⟩
  · split <;> simp
  · rw [before] at after
    split at after
    · next undone =>
      cases after
      rw [if_pos undone]
    · next settled =>
      cases after
      rw [if_neg settled]
      exact Regs.keeps_orFlags ..

/-- A fold's record goes. -/
def State.dropFold (s : State) (core id : Nat) : State :=
  s.modCore core fun c => { c with arr := { c.arr with folds := c.arr.folds.filter fun f => f.id != id } }

theorem dropFold_arr (s : State) (core id : Nat) : ((s.dropFold core id).core core).arr =
    { (s.core core).arr with folds := (s.core core).arr.folds.filter fun f => f.id != id } :=
  congrArg Core.arr (State.core_modCore_self ..)

theorem dropFold_core_ne (s : State) {core k : Nat} (h : k ≠ core) (id : Nat) : (s.dropFold core id).core k = s.core k :=
  State.core_modCore_ne s h _

theorem dropFold_ctx (s : State) (core id : Nat) (j : Fin 4) : (s.dropFold core id).ctx core j = s.ctx core j := by
  rw [State.ctx, State.dropFold, State.core_modCore_self]
  rfl

theorem arr_modCtx (s : State) (n k : Nat) (i : Fin 4) (f : Ctx → Ctx) : ((s.modCtx n i f).core k).arr = (s.core k).arr :=
  (congrArg Core.arr (State.core_modCtx_rest s n k i f) :)

section
variable {s : State} {core id : Nat} {rec : FoldRec}
  (found : (s.core core).arr.folds.find? (fun f => f.id == id) = some rec)
include found

theorem foldRetire_free (free : (s.core core).arr.owner = none) :
    exec (.foldRetire core id) s = .next (s.dropFold core id) := by
  have meaning : exec (.foldRetire core id) s = execFoldRetire core id s := rfl
  rw [meaning, execFoldRetire, found]
  simp only [State.core_modCore_self, free]
  rfl

theorem foldRetire_held {o : Fin 4} (held : (s.core core).arr.owner = some o) : exec (.foldRetire core id) s =
    .next ((s.dropFold core id).modCtx core o fun c => c.landFlags rec.flags rec.ten) := by
  have meaning : exec (.foldRetire core id) s = execFoldRetire core id s := rfl
  rw [meaning, execFoldRetire, found]
  simp only [State.core_modCore_self, held]
  rfl

/-- FOLD_RETIRE of a fold that is recorded: its record goes, and its flags land in the holder of the array. -/
theorem foldRetire_lands : ∃ t, exec (.foldRetire core id) s = .next t ∧ { t with cores := s.cores } = s
    ∧ (t.core core).arr = { (s.core core).arr with folds := (s.core core).arr.folds.filter fun f => f.id != id }
    ∧ (∀ k, k ≠ core → t.core k = s.core k)
    ∧ ∀ j, t.ctx core j
      = if (s.core core).arr.owner = some j then (s.ctx core j).landFlags rec.flags rec.ten else s.ctx core j := by
  rcases Option.eq_none_or_eq_some (s.core core).arr.owner with free | ⟨o, held⟩
  · refine ⟨_, foldRetire_free found free, rfl, dropFold_arr .., fun k hk => dropFold_core_ne s hk id, fun j => ?_⟩
    rw [free, if_neg (fun e => by cases e), dropFold_ctx]
  · refine ⟨_, foldRetire_held found held, rfl, (arr_modCtx ..).trans (dropFold_arr ..), fun k hk => ?_, fun j => ?_⟩
    · rw [State.core_modCtx, if_neg hk, dropFold_core_ne s hk]
    · rw [held]
      split
      · next same =>
        cases same
        rw [State.ctx_modCtx_self, dropFold_ctx]
      · next other => rw [State.ctx_modCtx_ne _ (.inr fun e => other (congrArg some e.symm)), dropFold_ctx]

end

end Sys2Proof.Machine

open Sys2Proof Sys2Proof.Machine

/-- Settles O31: the masked cells of a window are distinct in the store, so that each is rewritten from what it held; MACC,
MZERO and MBEAT.a record such a rewriting as a fold, and FOLD_RETIRE lands its flags. -/
theorem foldsWriteTheirWindow : Obligations.FoldsWriteTheirWindow := by
  unfold Obligations.FoldsWriteTheirWindow
  refine ⟨fun s i row col zero mine free canon masked word => ?_, fun s core id g fp w canon found ready auto => ?_,
    fun s core id rec found => ?_⟩
  · have meaning : exec i s = .next (if zero = true then s.mzero row col else s.macc row col) := by
      split at word
      · obtain ⟨rfl, rfl, rfl⟩ := word
        exact exec_macc mine (fun h => free (.inr h)) _ _
      · obtain ⟨rfl, rfl, rfl⟩ := word
        exact exec_mzero mine (free (.inl rfl)) _ _
      · obtain ⟨rfl, rfl, rfl⟩ := word
        exact exec_maccReg mine (fun h => free (.inr h)) _
      · obtain ⟨rfl, rfl, rfl⟩ := word
        exact exec_mzeroReg mine (free (.inl rfl)) _
      · exact word.elim
    cases zero with
    | true =>
      rw [if_pos rfl] at meaning
      have folds := mzero_folds s row col
      obtain ⟨zeroed, -⟩ := rewriteWindow masked (canon_acc canon s.cur) row col fun _ _ => (0, 0)
      rw [← zeroed_eq] at zeroed
      refine ⟨_, meaning, folds.event, folds.winRow, folds.winCol, ?_⟩
      rw [if_neg (fun h => by cases h.1)]
      refine ⟨folds.store ▸ zeroed, folds.agenda, folds.number, _, folds.array, rfl, rfl,
        fun h => (by cases h), foldRec_old, fun i j h => foldRec_covers h, fun b => iff_of_false ?_ fun h => by cases h.1⟩
      exact fun h => Bool.false_ne_true (BitVec.getLsbD_zero.symm.trans h)
    | false =>
      rw [if_neg Bool.false_ne_true] at meaning
      by_cases groups : s.myCore.arr.ready = []
      · rw [macc_none s row col groups] at meaning
        have only : ((s.winSet row col).core s.cur).arr = s.myCore.arr.setWin row col :=
          congrArg Core.arr (winSet_core s row col)
        refine ⟨_, meaning, winSet_arrayEvent s row col, congrArg Arr.winRow only, congrArg Arr.winCol only, ?_⟩
        rw [if_pos ⟨rfl, groups⟩]
        exact ⟨(congrArg Core.acc (winSet_core s row col) :), rfl, rfl, only⟩
      · have folds := macc_folds row col groups
        obtain ⟨folded, flags⟩ := folded_spec (c := s.myCore) masked (canon_acc canon s.cur) rfl rfl rfl s.src.fpctl
        refine ⟨_, meaning, folds.event, folds.winRow, folds.winCol, ?_⟩
        rw [if_neg (fun h => groups h.2)]
        refine ⟨folds.store ▸ folded, folds.agenda, folds.number, _, folds.array, rfl, rfl, fun _ => rfl, foldRec_old,
          fun i j h => foldRec_covers h, fun b => ?_⟩
        exact (flags b).trans (and_iff_right rfl).symm
  · intro r masked gs
    have groups := ready_ne_nil found ready
    have folds := foldReady_core groups (s.cycle - 1) fp w
    obtain ⟨folded, -⟩ := folded_spec (c := s.core core) (row := w.row0) (col := w.col0) masked (canon_acc canon core)
      rfl rfl rfl fp
    refine ⟨_, exec_mbeatAFold found ready auto, foldReady_arrayEvent groups .., congrArg (fun c => c.arr.pending) folds, ?_,
      foldReady_agenda groups .., _, congrArg (fun c => c.arr.folds) folds, rfl, rfl⟩
    rw [folds]
    exact folded
  · obtain ⟨t, meaning, package, arr, others, ctx⟩ := foldRetire_lands found
    refine ⟨t, meaning, package, arr, others, fun j => ?_⟩
    have ctx := ctx j
    split at ctx
    · next holder =>
      rw [if_pos holder]
      exact ⟨arrayLanded_of_landFlags ctx, by rw [ctx, landFlags_eq]⟩
    · next other =>
      rw [if_neg other]
      exact ctx
end

section
namespace Sys2Proof.Machine

/-! ### What a word of the array finds at issue (R110, R118, R229, R385) -/

@[simp] theorem Verdict.and_go (a : Verdict) : a.and .go = a := by cases a <;> rfl

/-- A word on its own whose check waits parks its context. -/
theorem guard_waits {s : State} (alone : s.me.snap = none) {v : Verdict} {w : ParkWhy} (h : v = .wait w)
    (k : State → State) : s.guard v k = .next (s.modMe fun c => c.parkFor w s.cycle) := by
  subst h
  exact guard_alone s alone (fun e => by cases e) k

theorem transferOk_inTransfer {s : State} (h : s.inTransfer = true) : s.transferOk = s.illMod := if_pos h

section
variable {s : State}

theorem mtxOk_notOwned (h : s.myCore.arr.owner ≠ some s.cix) : s.mtxOk = .trap .mtxNotOwned s.ownerOf := by
  have held : s.holdsArr = false := Bool.eq_false_iff.2 (mt (holdsArr_iff s).1 h)
  rw [State.mtxOk, held]
  rfl

section
variable (held : s.myCore.arr.owner = some s.cix)
include held

theorem mtxOk_held : s.mtxOk = s.transferOk.and (s.illModIf s.myCore.arr.shadow.isSome) := by
  rw [State.mtxOk, (holdsArr_iff s).2 held]
  rfl

theorem mtxOk_inTransfer (h : s.inTransfer = true) : s.mtxOk = s.illMod := by
  rw [mtxOk_held held, transferOk_inTransfer h]
  rfl

theorem mtxOk_shadow (free : s.NoTransfer) (h : s.myCore.arr.shadow ≠ none) : s.mtxOk = s.illMod := by
  rw [mtxOk_held held, (transferOk_eq_go s).2 free, Option.isSome_iff_ne_none.2 h]
  rfl

end

/-- MOWN traps in a phase context, and with its holder's shadow buffer full (R229, R254). -/
theorem mownOk_illMod (h : s.inTransfer = true
      ∨ s.NoTransfer ∧ s.myCore.arr.owner = some s.cix ∧ s.myCore.arr.shadow ≠ none) :
    s.mownOk = s.illMod := by
  rcases h with phase | ⟨free, held, shadow⟩
  · rw [State.mownOk, transferOk_inTransfer phase]
    rfl
  · rw [State.mownOk, (transferOk_eq_go s).2 free, (holdsArr_iff s).2 held, Option.isSome_iff_ne_none.2 shadow]
    rfl

theorem sqldOut_eq_false_iff : s.myCore.sqldOut s.cix = false ↔ s.NoSqld := by
  simp only [Core.sqldOut, List.any_eq_false, Bool.and_eq_true, beq_iff_eq, not_and, Bool.not_eq_true]
  refine forall₃_congr fun o _ _ => ?_
  split
  · next n src what => simp [what]
  · next other => exact iff_of_true rfl fun n src what => other n src what

theorem arrFree_go (h : s.myCore.arr.free ≤ s.cycle) : s.arrFree = .go :=
  (waitIf_eq_go).2 (decide_eq_false (Nat.not_lt.2 h))

theorem popOk_go {slot : Nat} {e : BitVec 1536} {q : List (Nat × Option (BitVec 1536))}
    (h : s.myCore.arr.queue = (slot, some e) :: q) : s.popOk = .go := by rw [State.popOk, h]

section
variable (empty : s.myCore.arr.queue = [])
include empty

theorem popOk_imbalance (quiet : s.NoSqld) : s.popOk = .trap .scaleImbalance 0 := by
  rw [State.popOk, empty, sqldOut_eq_false_iff.2 quiet]
  rfl

theorem popOk_wait (loading : ¬ s.NoSqld) : s.popOk = .wait .other := by
  rw [State.popOk, empty, Bool.of_not_eq_false (mt sqldOut_eq_false_iff.1 loading)]
  rfl

end

end

/-! ### The words of the array as one shape -/

section
variable (s : State)

theorem exec_mown : exec .mown s = execMown s := rfl
theorem exec_mrel : exec .mrel s = execMrel s := rfl
theorem exec_mcfg (a b : MFmt) (acc : AFmt) (mx sat : Bool) : exec (.mcfg a b acc mx sat) s = execMcfg a b acc mx sat s := rfl
theorem exec_mcfgOrb (oa ob oc : Option (Fin 8)) (mul : Bool) :
    exec (.mcfgOrb oa ob oc mul) s = execMcfgOrb oa ob oc mul s := rfl
theorem exec_mmask (a b c : Fin 32) : exec (.mmask a b c) s = execMmask a b c s := rfl
theorem exec_mpush (x : Fin 16) : exec (.mpush x) s = execMpush x s := rfl
theorem exec_mshift (k n1 : Fin 128) : exec (.mshift k n1) s = execMshift k n1 s := rfl
theorem exec_mscale : exec .mscale s = execMscale s := rfl
theorem exec_mbeat (fold pop : Bool) (x : Option (Fin 16)) (y : Fin 32) (imm : BitVec 16) :
    exec (.mbeat fold pop x y imm) s = execMbeat fold pop x y imm s := rfl
theorem exec_mdrain (f : MFmt) (x : Fin 16) (row : Fin 512) : exec (.mdrain f x row) s = execMdrain f x row s := rfl
theorem exec_mdrainReg (f : MFmt) (x : Fin 16) (y : Fin 32) : exec (.mdrainReg f x y) s = execMdrainReg f x y s := rfl

end

/-- The words of the array but MOWN (R385). -/
def ArrayWord : Instr → Prop
  | .mrel | .mcfg .. | .mcfgOrb .. | .mmask .. | .mpush _ | .mshift .. | .mbeat .. | .mscale | .macc .. | .maccReg _
  | .mzero .. | .mzeroReg _ | .mdrain .. | .mdrainReg .. => True
  | _ => False

/-- Each asks first whether the array is its context's to use. -/
theorem exec_arrayWord {i : Instr} (word : ArrayWord i) (s : State) :
    ∃ v k, exec i s = s.guard (s.mtxOk.and v) k := by
  cases i
  case mrel => exact ⟨_, _, exec_mrel s⟩
  case mcfg => exact ⟨_, _, exec_mcfg ..⟩
  case mcfgOrb => exact ⟨_, _, exec_mcfgOrb ..⟩
  case mmask => exact ⟨.go, _, by rw [Verdict.and_go]; exact exec_mmask ..⟩
  case mpush => exact ⟨_, _, exec_mpush ..⟩
  case mshift => exact ⟨_, _, exec_mshift ..⟩
  case mbeat => exact ⟨_, _, exec_mbeat ..⟩
  case mscale => exact ⟨_, _, exec_mscale s⟩
  case macc row col => exact ⟨_, _, show exec (.macc row col) s = execMacc row col s from rfl⟩
  case maccReg x => exact ⟨_, _, show exec (.maccReg x) s = execMaccReg x s from rfl⟩
  case mzero row col => exact ⟨_, _, show exec (.mzero row col) s = execMzero row col s from rfl⟩
  case mzeroReg x => exact ⟨_, _, show exec (.mzeroReg x) s = execMzeroReg x s from rfl⟩
  case mdrain => exact ⟨_, _, exec_mdrain ..⟩
  case mdrainReg => exact ⟨_, _, exec_mdrainReg ..⟩
  all_goals exact False.elim word

/-- The words that pop the scale queue find a queue to pop, where the array is theirs and not occupied (R118, R125). -/
theorem exec_pops {s : State} (mine : s.ArrayMine) (free : s.myCore.arr.free ≤ s.cycle) {i : Instr}
    (word : i = .mscale ∨ ∃ fold x y imm, i = .mbeat fold true x y imm) : ∃ v k, exec i s = s.guard (s.popOk.and v) k := by
  rcases word with rfl | ⟨fold, x, y, imm, rfl⟩
  · rw [exec_mscale, execMscale, (mtxOk_eq_go s).2 mine, arrFree_go free, Verdict.go_and, Verdict.go_and]
    exact ⟨.go, _, by rw [Verdict.and_go]⟩
  · rw [exec_mbeat, execMbeat, State.mbeatOk, (mtxOk_eq_go s).2 mine, arrFree_go free, Verdict.go_and, Verdict.go_and,
      if_pos rfl]
    exact ⟨_, _, rfl⟩

end Sys2Proof.Machine

open Sys2Proof Sys2Proof.Machine

/-- Settles O34: every word of the array but MOWN asks first who holds it and whether it can be used; what the holder's
words find next are their formats and the queue. -/
theorem arrayWordsTrap : Obligations.ArrayWordsTrap := by
  unfold Obligations.ArrayWordsTrap
  intro s i alone
  refine ⟨fun word => ?_, fun h => ?_, fun mine => ⟨fun a b acc mx sat empty bad => ?_, fun f x row bad => ?_,
    fun empty free i word => ?_⟩⟩
  · obtain ⟨v, k, meaning⟩ := exec_arrayWord word s
    refine ⟨fun other => ?_, fun held phase => ?_, fun held free shadow => ?_⟩
    · rw [meaning, mtxOk_notOwned other]
      exact guard_traps alone rfl _
    · rw [meaning, mtxOk_inTransfer held phase]
      exact guard_traps alone rfl _
    · rw [meaning, mtxOk_shadow held free shadow]
      exact guard_traps alone rfl _
  · rw [exec_mown]
    exact guard_traps alone (mownOk_illMod h) _
  · rw [exec_mcfg]
    refine guard_traps alone ?_ _
    rw [State.mcfgOk, (mtxOk_eq_go s).2 mine, empty, bad]
    rfl
  · rw [exec_mdrain]
    refine guard_traps alone ?_ _
    rw [State.mdrainOk, (mtxOk_eq_go s).2 mine, bad]
    rfl
  · obtain ⟨v, k, meaning⟩ := exec_pops mine free word
    refine ⟨fun quiet => ?_, fun loading => ?_⟩
    · rw [meaning, popOk_imbalance empty quiet]
      exact guard_traps alone rfl _
    · rw [meaning, popOk_wait empty loading]
      exact guard_waits alone rfl _

end

section
namespace Sys2Proof.Machine

/-! ### Steps of the array alone -/

theorem modArr_arrayStep (s : State) (f : Arr → Arr) : ArrayStep s (s.modArr f) (f s.myCore.arr) where
  package := rfl
  others _ hk := State.core_modCore_ne s hk _
  core := State.core_modCore_self ..

/-! ### MOWN and MREL (R109, R110, R393) -/

section
variable {s : State}

/-- No context parked for the array comes first where none is parked for it. -/
theorem mownBefore_none (h : ∀ i, i ≠ s.cix → ∀ p, (s.ctx s.cur i).park = some p → p.why ≠ .mown) :
    s.mownBefore = false := by
  refine List.any_eq_false.2 fun i _ => ?_
  rw [Bool.not_eq_true, Bool.and_eq_false_imp]
  intro ne
  split
  · next p park =>
    have why : (p.why == .mown) = false := beq_eq_false_iff_ne.2 (h i (bne_iff_ne.1 ne) p park)
    rw [why, Bool.false_and]
  · rfl

theorem mownOk_free (free : s.NoTransfer) (owner : s.myCore.arr.owner = none) :
    s.mownOk = waitIf (decide (s.cycle < s.myCore.arr.opens) || s.mownBefore) .mown := by
  have held : s.holdsArr = false := by rw [State.holdsArr, owner]; rfl
  rw [State.mownOk, (transferOk_eq_go s).2 free, held, owner]
  rfl

theorem mownOk_held (free : s.NoTransfer) (owner : s.myCore.arr.owner = some s.cix) (shadow : s.myCore.arr.shadow = none) :
    s.mownOk = .go := by
  rw [State.mownOk, (transferOk_eq_go s).2 free, (holdsArr_iff s).2 owner, shadow]
  rfl

theorem mownOk_other (free : s.NoTransfer) {j : Fin 4} (owner : s.myCore.arr.owner = some j) (other : j ≠ s.cix) :
    s.mownOk = .wait .mown := by
  have held : s.holdsArr = false :=
    Bool.eq_false_iff.2 fun h => other (Option.some.inj (owner.symm.trans ((holdsArr_iff s).1 h)))
  rw [State.mownOk, (transferOk_eq_go s).2 free, held, owner]
  rfl

/-- The array as MOWN hands it to a context (R109): it stays occupied for as long as it was. -/
def Arr.fresh (i : Fin 4) (free : Nat) : Arr := { ({} : Arr) with owner := some i, free }

theorem mown_takes (free : s.NoTransfer) (owner : s.myCore.arr.owner = none) (opens : s.myCore.arr.opens ≤ s.cycle)
    (first : ∀ i, i ≠ s.cix → ∀ p, (s.ctx s.cur i).park = some p → p.why ≠ .mown) :
    exec .mown s = .next (s.modArr fun a => Arr.fresh s.cix a.free) := by
  have go : s.mownOk = .go := by
    rw [mownOk_free free owner, mownBefore_none first, decide_eq_false (Nat.not_lt.2 opens)]
    rfl
  have held : s.holdsArr = false := by rw [State.holdsArr, owner]; rfl
  rw [exec_mown, execMown, go, guard_go, held]
  rfl

theorem mown_again (free : s.NoTransfer) (owner : s.myCore.arr.owner = some s.cix) (shadow : s.myCore.arr.shadow = none) :
    exec .mown s = .next s := by
  rw [exec_mown, execMown, mownOk_held free owner shadow, guard_go, (holdsArr_iff s).2 owner, if_pos rfl]

theorem mown_parks (alone : s.me.snap = none) (h : s.mownOk = .wait .mown) :
    exec .mown s = .next (s.modMe fun c => c.parkFor .mown s.cycle) := by
  rw [exec_mown]
  exact guard_waits alone h _

/-- A scale of 1 in every lane (R85, R109). -/
theorem unit_scales : (∀ k, k < 128 → ({} : Arr).rowScale.extractLsb' (8 * k) 8 = 0x7F)
    ∧ ∀ k, k < 64 → ({} : Arr).colScale.extractLsb' (8 * k) 8 = 0x7F := by decide +kernel

theorem mrelOk_mine (mine : s.ArrayMine) : s.mrelOk = waitIf (s.myCore.piped || s.myCore.sqldOut s.cix) := by
  rw [State.mrelOk, (mtxOk_eq_go s).2 mine, Verdict.go_and]

theorem mrel_frees (mine : s.ArrayMine) (empty : s.myCore.piped = false) (quiet : s.NoSqld) :
    exec .mrel s = .next (s.modArr fun a => a.release s.cycle) := by
  rw [exec_mrel, execMrel, mrelOk_mine mine, empty, sqldOut_eq_false_iff.2 quiet]
  exact guard_go ..

theorem mrel_waits (mine : s.ArrayMine) (alone : s.me.snap = none) (h : s.myCore.piped = true ∨ ¬ s.NoSqld) :
    exec .mrel s = .next (s.modMe fun c => c.parkFor .other s.cycle) := by
  have busy : (s.myCore.piped || s.myCore.sqldOut s.cix) = true := by
    rw [Bool.or_eq_true]
    exact h.imp_right fun loading => Bool.of_not_eq_false (mt sqldOut_eq_false_iff.1 loading)
  rw [exec_mrel]
  exact guard_waits alone (by rw [mrelOk_mine mine, busy]; rfl) _

end

end Sys2Proof.Machine

open Sys2Proof Sys2Proof.Machine

/-- Settles O28: what MOWN and MREL do by who holds the array, and by what of it is still on its way. -/
theorem arrayChangesHands : Obligations.ArrayChangesHands := by
  unfold Obligations.ArrayChangesHands
  intro s free
  refine ⟨fun owner opens first => ?_, fun owner shadow => mown_again free owner shadow, fun busy alone => ?_,
    fun mine => ⟨fun empty quiet => ⟨_, mrel_frees mine empty quiet, modArr_arrayStep ..⟩,
      fun alone busy => mrel_waits mine alone busy⟩⟩
  · exact ⟨_, _, mown_takes free owner opens first, modArr_arrayStep .., rfl, ⟨rfl, rfl, rfl, rfl, rfl⟩,
      ⟨rfl, rfl, rfl, rfl⟩, rfl, rfl, rfl, rfl, rfl, rfl, rfl, ⟨rfl, rfl, rfl, rfl⟩, rfl, unit_scales⟩
  · rcases busy with ⟨j, owner, other⟩ | ⟨owner, closed⟩
    · exact mown_parks alone (mownOk_other free owner other)
    · exact mown_parks alone (by rw [mownOk_free free owner, decide_eq_true closed]; rfl)

end

section
namespace Sys2Proof.Machine

/-! ### Packed elements -/

theorem packElems_cons (w x : Nat) (l : List Nat) : packElems w (x :: l) = x % 2 ^ w + packElems w l * 2 ^ w := rfl

theorem packElems_lt (w : Nat) (l : List Nat) : packElems w l < 2 ^ (w * l.length) := by
  induction l with
  | nil => exact Nat.two_pow_pos _
  | cons x l ih =>
    rw [packElems_cons, List.length_cons, Nat.mul_succ, Nat.pow_add]
    have low : x % 2 ^ w < 2 ^ w := Nat.mod_lt _ (Nat.two_pow_pos w)
    calc x % 2 ^ w + packElems w l * 2 ^ w < (packElems w l + 1) * 2 ^ w := by rw [Nat.add_one_mul]; omega
      _ ≤ 2 ^ (w * l.length) * 2 ^ w := Nat.mul_le_mul_right _ ih

/-- Element e of packed elements. -/
theorem packElems_elem (w : Nat) : ∀ (l : List Nat) (e : Nat), packElems w l / 2 ^ (w * e) % 2 ^ w = l.getD e 0 % 2 ^ w
  | [], e => by simp [packElems]
  | x :: l, 0 => by
    rw [packElems_cons, Nat.mul_zero, Nat.pow_zero, Nat.div_one, Nat.add_mul_mod_self_right, Nat.mod_mod]
    rfl
  | x :: l, e + 1 => by
    have low : x % 2 ^ w / 2 ^ w = 0 := Nat.div_eq_of_lt (Nat.mod_lt _ (Nat.two_pow_pos w))
    rw [packElems_cons, Nat.mul_succ, Nat.add_comm (w * e), Nat.pow_add, ← Nat.div_div_eq_div_mul,
      Nat.add_mul_div_right _ _ (Nat.two_pow_pos w), low, Nat.zero_add, packElems_elem w l e]
    rfl

theorem toNat_packElems {w n : Nat} {l : List Nat} (fits : w * l.length ≤ n) :
    (BitVec.ofNat n (packElems w l)).toNat = packElems w l :=
  Nat.mod_eq_of_lt ((packElems_lt w l).trans_le (Nat.pow_le_pow_right (by decide) fits))

/-! ### Latches (R123, R124) -/

/-- Row i of a tile: the 16 bytes of a latch. -/
def rowOfTile (t : Tile) (i : Nat) : BitVec 128 := t.extractLsb' (128 * i) 128

/-- A masked row takes zeros (R123). -/
theorem push_row (a : Arr) (t : Tile) {i : Nat} (hi : i < 128) :
    rowOfTile (a.push t).latches i = if i < a.rows then rowOfTile t i else 0 := by
  have bit (j : Nat) : (a.push t).latches.getLsbD j
      = (decide (j < 16384) && (decide (j < 128 * min 128 a.rows) && t.getLsbD j)) := by
    simp only [Arr.push, BitVec.getLsbD_ofNat, Nat.testBit_mod_two_pow]
    rfl
  refine BitVec.eq_of_getLsbD_eq fun j hj => ?_
  unfold rowOfTile
  split
  · next passed =>
    have inside : 128 * i + j < 128 * min 128 a.rows := by omega
    have tile : 128 * i + j < 16384 := by omega
    rw [BitVec.getLsbD_extractLsb', BitVec.getLsbD_extractLsb', bit, decide_eq_true inside, decide_eq_true tile]
    rfl
  · next masked =>
    have outside : ¬ 128 * i + j < 128 * min 128 a.rows := by omega
    rw [BitVec.getLsbD_extractLsb', bit, decide_eq_false outside, Bool.false_and, Bool.and_false, Bool.and_false]
    exact BitVec.getLsbD_zero.symm

theorem rotate_eq (t : Tile) (k n : Nat) : rotate t k n = BitVec.ofNat 16384 (packElems 128 ((List.range 128).map fun i =>
    (rowOfTile t (if i < n then (i + n - k) % n else i)).toNat)) := by
  have step (i v : Nat) : (if i < n then (rowOfTile t ((i + n - k) % n)).toNat else (rowOfTile t i).toNat) + 2 ^ 128 * v
      = (rowOfTile t (if i < n then (i + n - k) % n else i)).toNat % 2 ^ 128 + v * 2 ^ 128 := by
    rw [Nat.mod_eq_of_lt (BitVec.isLt _), Nat.mul_comm, apply_ite (fun j => (rowOfTile t j).toNat)]
  rw [packElems, List.foldr_map]
  exact congrArg (fun f => BitVec.ofNat 16384 ((List.range 128).foldr f 0)) (funext₂ step)

/-- Latches rotate (R124). -/
theorem rotate_row (t : Tile) (k n : Nat) {i : Nat} (hi : i < 128) :
    rowOfTile (rotate t k n) i = rowOfTile t (if i < n then (i + n - k) % n else i) := by
  apply BitVec.eq_of_toNat_eq
  rw [rowOfTile, BitVec.extractLsb'_toNat, Nat.shiftRight_eq_div_pow, rotate_eq, toNat_packElems (by simp), packElems_elem]
  rw [List.getD_eq_getElem _ _ (by simpa using hi), List.getElem_map, List.getElem_range, Nat.mod_eq_of_lt (BitVec.isLt _)]

/-- The oldest entry of the scale queue goes into the scale latches (R118). -/
theorem pop_eq {a : Arr} {slot : Nat} {e : BitVec 1536} {q : List (Nat × Option (BitVec 1536))}
    (h : a.queue = (slot, some e) :: q) :
    a.pop = { a with queue := q, rowScale := e.extractLsb' 0 1024, colScale := e.extractLsb' 1024 512 } := by
  rw [Arr.pop, h]

/-! ### The words of the configuration (R108, R117, R122, R148 to R150) -/

theorem outOk_go {acc : AFmt} {oc : Option Block64}
    (h : ∀ d, oc = some d → drainOk acc (mfmtOfCode (descOf d).fmt) = true) : outOk acc oc = .go := by
  cases oc with
  | none => rfl
  | some d => rw [outOk, h d rfl]; rfl

theorem mulOk_go {mul : Bool} {a b : Option Block64} (h : mul = true → (mulMatch a b).isSome = true) :
    mulOk mul a b = .go := by
  rw [mulOk, trapIf_eq_go, Bool.and_eq_false_imp]
  exact fun on => by rw [Option.isNone_eq_false_iff]; exact h on

theorem boundOk_go {s : State} {o : Option (Fin 8)} (h : ∀ n, o = some n → (descOf (s.oreg n)).rank ≠ 0) :
    s.boundOk o = .go := by
  cases o with
  | none => rfl
  | some n => exact trapIf_eq_go.2 (beq_eq_false_iff_ne.2 (h n rfl))

theorem provenOk_go {same : Bool} {a b c : Option Block64}
    (h : ∀ d, c = some d → ∀ g ∈ (descOf d).gens, g.axes = [0, 1] ∧ provenKind same a b = some g.kind) :
    provenOk same a b c = .go := by
  cases c with
  | none => rfl
  | some d =>
    refine trapIf_eq_go.2 (List.any_eq_false.2 fun g hg => ?_)
    obtain ⟨axes, kind⟩ := h d rfl g hg
    simp [axes, kind]

section
variable {s : State} (mine : s.ArrayMine)
include mine

theorem mcfg_configures {a b : MFmt} {acc : AFmt} (mx sat : Bool) (empty : s.myCore.piped = false) (pair : pairOk a b acc = true)
    (out : ∀ d, s.myCore.arr.oc = some d → drainOk acc (mfmtOfCode (descOf d).fmt) = true)
    (mul : s.myCore.arr.mul = true → (mulMatch s.myCore.arr.oa s.myCore.arr.ob).isSome = true) :
    exec (.mcfg a b acc mx sat) s
      = .next (s.modArr fun r => { r with af := a, bf := b, acc, mx, sat, pending := [], kpos := 0 }) := by
  have go : s.mcfgOk a b acc = .go := by
    rw [State.mcfgOk, (mtxOk_eq_go s).2 mine, empty, pair, outOk_go out, mulOk_go mul]
    rfl
  rw [exec_mcfg, execMcfg, go, guard_go]

theorem mcfgOrb_binds {oa ob oc : Option (Fin 8)} {mul : Bool} (empty : s.myCore.piped = false)
    (ranks : ∀ o ∈ [oa, ob, oc], ∀ n, o = some n → (descOf (s.oreg n)).rank ≠ 0)
    (matching : mul = true → (mulMatch (oa.map s.oreg) (ob.map s.oreg)).isSome = true)
    (out : ∀ n, oc = some n → drainOk s.myCore.arr.acc (mfmtOfCode (descOf (s.oreg n)).fmt) = true
      ∧ ∀ g ∈ (descOf (s.oreg n)).gens, g.axes = [0, 1]
          ∧ provenKind (oa == ob) (oa.map s.oreg) (ob.map s.oreg) = some g.kind) :
    exec (.mcfgOrb oa ob oc mul) s = .next (s.modArr fun r =>
      { r with oa := oa.map s.oreg, ob := ob.map s.oreg, oc := oc.map s.oreg, mul, pending := [], kpos := 0 }) := by
  have bound (d : Block64) (h : s.bound oc = some d) : ∃ n, oc = some n ∧ s.oreg n = d := Option.map_eq_some_iff.1 h
  have matched : mulOk mul (s.bound oa) (s.bound ob) = .go := mulOk_go matching
  have proven : provenOk (oa == ob) (s.bound oa) (s.bound ob) (s.bound oc) = .go := provenOk_go fun d h => by
    obtain ⟨n, rfl, rfl⟩ := bound d h
    exact (out n rfl).2
  have drains : outOk s.myCore.arr.acc (s.bound oc) = .go := outOk_go fun d h => by
    obtain ⟨n, rfl, rfl⟩ := bound d h
    exact (out n rfl).1
  have go : s.mcfgOrbOk oa ob oc mul = .go := by
    rw [State.mcfgOrbOk, (mtxOk_eq_go s).2 mine, empty, boundOk_go (ranks oa (by simp)), boundOk_go (ranks ob (by simp)),
      boundOk_go (ranks oc (by simp)), matched, proven, drains]
    rfl
  rw [exec_mcfgOrb, execMcfgOrb, go, guard_go]
  rfl

theorem mmask_masks (a b c : Fin 32) : exec (.mmask a b c) s = .next (s.modArr fun r =>
    { r with rows := min 128 (s.rs a).toNat, cols := min 64 (s.rs b).toNat, lanes := (s.rs c).toNat
             padM := none, padN := none, padK := none }) := by
  rw [exec_mmask, execMmask, (mtxOk_eq_go s).2 mine, guard_go]

variable (free : s.myCore.arr.free ≤ s.cycle)
include free

theorem arrayOk_go (v : Verdict) : s.mtxOk.and (s.arrFree.and v) = v := by
  rw [(mtxOk_eq_go s).2 mine, arrFree_go free, Verdict.go_and, Verdict.go_and]

theorem mpush_loads (x : Fin 16) :
    exec (.mpush x) s = .next (s.modArr fun a => { a.push s.src.t[x] with free := s.cycle + 1 }) := by
  rw [exec_mpush, execMpush, ← Verdict.and_go s.arrFree, arrayOk_go mine free, guard_go]

theorem mshift_rotates (k n1 : Fin 128) : exec (.mshift k n1) s
    = .next (s.modArr fun a => { a with latches := rotate a.latches k.val (n1.val + 1), free := s.cycle + 1 }) := by
  rw [exec_mshift, execMshift, ← Verdict.and_go s.arrFree, arrayOk_go mine free, guard_go]

theorem mscale_pops {slot : Nat} {e : BitVec 1536} {q : List (Nat × Option (BitVec 1536))}
    (queue : s.myCore.arr.queue = (slot, some e) :: q) :
    exec .mscale s = .next (s.modArr fun a => { a.pop with free := s.cycle + 1 }) := by
  rw [exec_mscale, execMscale, arrayOk_go mine free, popOk_go queue, guard_go]

end

end Sys2Proof.Machine

open Sys2Proof Sys2Proof.Machine

/-- Settles O29: each word's check goes, and it changes the array alone; a tile's rows and the latches' rotation are read
back row by row. -/
theorem arrayIsConfigured : Obligations.ArrayIsConfigured := by
  unfold Obligations.ArrayIsConfigured
  intro s mine r
  refine ⟨fun a b acc mx sat empty pair out mul => ⟨_, mcfg_configures mine mx sat empty pair out mul, modArr_arrayStep ..⟩,
    fun oa ob oc mul empty ranks matching out => ⟨_, mcfgOrb_binds mine empty ranks matching out, modArr_arrayStep ..⟩,
    fun a b c => ⟨_, mmask_masks mine a b c, modArr_arrayStep ..⟩,
    fun free => ⟨fun x => ?_, fun k n1 _ => ?_, fun slot e q queue => ?_⟩⟩
  · exact ⟨_, _, mpush_loads mine free x, modArr_arrayStep .., fun i hi => push_row r _ hi⟩
  · exact ⟨_, _, mshift_rotates mine free k n1, modArr_arrayStep .., fun i hi => rotate_row r.latches k _ hi⟩
  · have step := modArr_arrayStep s fun a => { a.pop with free := s.cycle + 1 }
    rw [pop_eq queue] at step
    exact ⟨_, mscale_pops mine free queue, step⟩

end

section
namespace Sys2Proof.Machine

/-! ### What a step of the array leaves -/

theorem arrayStep_refl (s : State) : ArrayStep s s s.myCore.arr := ⟨rfl, fun _ _ => rfl, rfl⟩

section
variable {s t : State} {a : Arr} (h : ArrayStep s t a)
include h

theorem ArrayStep.cur : t.cur = s.cur := (congrArg State.cur h.package :)
theorem ArrayStep.cix : t.cix = s.cix := (congrArg State.cix h.package :)
theorem ArrayStep.cycle : t.cycle = s.cycle := (congrArg State.cycle h.package :)
theorem ArrayStep.agenda : t.agenda = s.agenda := (congrArg State.agenda h.package :)
theorem ArrayStep.nextOp : t.nextOp = s.nextOp := (congrArg State.nextOp h.package :)

theorem ArrayStep.myCore : t.myCore = { s.myCore with arr := a } := (congrArg t.core h.cur).trans h.core

theorem ArrayStep.ctx (k : Nat) (j : Fin 4) : t.ctx k j = s.ctx k j := by
  unfold State.ctx
  by_cases hk : k = s.cur
  · subst hk
    rw [h.core]
  · rw [h.others k hk]

theorem ArrayStep.me : t.me = s.me := by
  rw [State.me, h.ctx, h.cur, h.cix]
  rfl

theorem ArrayStep.src : t.src = s.src := congrArg Ctx.src h.me

theorem ArrayStep.modArr (f : Arr → Arr) : ArrayStep s (t.modArr f) (f a) where
  package := h.package
  others k hk := (State.core_modCore_ne t (fun e => hk (e.trans h.cur)) _).trans (h.others k hk)
  core := by
    rw [← h.cur, (modArr_arrayStep t f).core, h.cur, h.core, h.myCore]

end

/-! ### What MBEAT does before its beat (R118, R123, R125) -/

/-- The array with the scale queue popped, and its latches loaded from a tile. -/
def Arr.fed (a : Arr) (pop : Bool) (t : Option Tile) : Arr :=
  let a := if pop then a.pop else a
  match t with
  | some t => a.push t
  | none => a

/-- The same of the executing core's array. -/
def State.fed (s : State) (pop : Bool) (x : Option (Fin 16)) : State :=
  let s' := if pop then s.modArr Arr.pop else s
  match x with
  | some x => s'.modArr fun a => a.push s.src.t[x]
  | none => s'

theorem fed_arrayStep (s : State) (pop : Bool) (x : Option (Fin 16)) :
    ArrayStep s (s.fed pop x) (s.myCore.arr.fed pop (x.map fun n => s.src.t[n])) := by
  have popped : ArrayStep s (if pop then s.modArr Arr.pop else s) (if pop then s.myCore.arr.pop else s.myCore.arr) := by
    cases pop with
    | true => exact modArr_arrayStep s _
    | false => exact arrayStep_refl s
  cases x with
  | none => exact popped
  | some n => exact popped.modArr fun a => a.push s.src.t[n]

/-- A queue and scales are what a pop, if there is one, leaves of an array's (R118). -/
def Arr.Popped (a : Arr) (pop : Bool) (q : List (Nat × Option (BitVec 1536))) (rs : BitVec 1024) (cs : BitVec 512) : Prop :=
  if pop = true then ∃ slot e, a.queue = (slot, some e) :: q ∧ rs = e.extractLsb' 0 1024 ∧ cs = e.extractLsb' 1024 512
  else q = a.queue ∧ rs = a.rowScale ∧ cs = a.colScale

theorem popped_spec {a : Arr} {pop : Bool} (filled : pop = true → ∃ slot e q, a.queue = (slot, some e) :: q) :
    ∃ q rs cs, (if pop then a.pop else a) = { a with queue := q, rowScale := rs, colScale := cs } ∧ a.Popped pop q rs cs := by
  cases pop with
  | true =>
    obtain ⟨slot, e, q, queue⟩ := filled rfl
    exact ⟨q, _, _, pop_eq queue, slot, e, queue, rfl, rfl⟩
  | false => exact ⟨_, _, _, rfl, rfl, rfl, rfl⟩

/-- Of an array that is fed, the queue with the scales, and the latches differ. -/
theorem fed_spec {a : Arr} {pop : Bool} (filled : pop = true → ∃ slot e q, a.queue = (slot, some e) :: q) (t : Option Tile) :
    ∃ q rs cs l, a.fed pop t = { a with queue := q, rowScale := rs, colScale := cs, latches := l }
      ∧ a.Popped pop q rs cs
      ∧ (∀ v, t = some v → ∀ i, i < 128 → rowOfTile l i = if i < a.rows then rowOfTile v i else 0)
      ∧ (t = none → l = a.latches) := by
  obtain ⟨q, rs, cs, form, entry⟩ := popped_spec filled
  unfold Arr.fed
  rw [form]
  cases t with
  | none => exact ⟨q, rs, cs, a.latches, rfl, entry, fun v h => (by cases h), fun _ => rfl⟩
  | some v =>
    refine ⟨q, rs, cs, (a.push v).latches, rfl, entry, fun u h i hi => ?_, fun h => by cases h⟩
    cases h
    exact push_row a v hi

/-! ### A beat (R107, R112, R387) -/

/-- The group that a beat forms. -/
def State.beatGroup (s : State) (fold : Bool) (l : Nat) : Group :=
  let a := s.myCore.arr
  { id := s.nextOp, ready := none, a := a.latches, b := s.lidRead l, af := a.af, bf := a.bf, mx := a.mx
    rowScale := a.rowScale, colScale := a.colScale, daz := s.src.fpctl.getLsbD 4
    lanes := a.lanes, kpos := a.kpos, padK := a.padK
    mul := if a.mul then mulMatch a.oa a.ob else none
    auto := if s.autoFold fold then some (a.window a.winRow a.winCol) else none }

/-- The array with a group formed by a beat in a cycle. -/
def Arr.beaten (a : Arr) (g : Group) (cyc : Nat) : Arr :=
  { a with pending := a.pending ++ [g], free := cyc + beatLen a.af, kpos := a.kpos + groupSize a.af }

theorem lidRead_column (s : State) (l : Nat) {j k : Nat} (hj : j < 64) (hk : k < 16) :
    (s.lidRead l).extractLsb' (8 * (16 * j + k)) 8 = cget s.myCore.lid (j * 2 ^ 18 + l / 16 * 16 + k) := by
  have column (j : Nat) : (cgetN s.myCore.lid (j * 2 ^ 18 + l / 16 * 16) 16).length = 16 := length_cgetN ..
  have length : ((List.range 64).flatMap fun j => cgetN s.myCore.lid (j * 2 ^ 18 + l / 16 * 16) 16).length = 16 * 64 := by
    rw [length_flatMap_const _ 16 _ fun j _ => column j, List.length_range]
  refine (byteOf_ofLe _ _ (by rw [length]; omega) (by omega)).trans ?_
  rw [← List.getD_eq_getElem _ 0, getD_flatMap _ 16 0 _ (fun j _ => column j) j k (by simpa using hj) hk, List.getElem_range,
    get_cgetN _ _ _ _ _ hk]

theorem beatGroup_groupOf (s : State) (fold : Bool) (l : Nat) : GroupOf s s.myCore.arr l fold (s.beatGroup fold l) where
  id := rfl
  flight := rfl
  rows := rfl
  columns _ _ hj hk := lidRead_column s l hj hk
  formats := ⟨rfl, rfl, rfl⟩
  scales := ⟨rfl, rfl⟩
  daz := rfl
  lanes := ⟨rfl, rfl, rfl⟩
  mul := rfl
  auto := by simp [State.beatGroup, State.autoFold, Arr.window]

/-- A group formed after a step of the array takes the rest of its operands from the state before. -/
theorem GroupOf.of_arrayStep {s t : State} {a : Arr} {l : Nat} {fold : Bool} {g : Group} (step : ArrayStep s t a)
    (h : GroupOf t t.myCore.arr l fold g) : GroupOf s a l fold g := by
  have arr : t.myCore.arr = a := congrArg Core.arr step.myCore
  have lid : t.myCore.lid = s.myCore.lid := (congrArg Core.lid step.myCore :)
  rw [arr] at h
  exact { h with
    id := h.id.trans step.nextOp
    columns := fun j k hj hk => lid ▸ h.columns j k hj hk
    daz := step.src ▸ h.daz }

theorem beat_eq (s : State) (fold : Bool) (l : Nat) : s.beat fold l =
    { s.modArr fun a => a.beaten (s.beatGroup fold l) s.cycle with
      nextOp := s.nextOp + 1
      agenda := (if (s.beatGroup fold l).auto.isSome then
          insertDue (s.cycle + beatLen s.myCore.arr.af + 3) (.mbeatAFold s.cur s.nextOp) else id)
        (insertDue (s.cycle + beatLen s.myCore.arr.af + 3) (.groupReady s.cur s.nextOp) s.agenda) } := by
  unfold State.beat State.beatGroup
  cases s.autoFold fold <;> rfl

theorem mbeat_beats {s : State} (mine : s.ArrayMine) (acopy : s.NoAcopyIn) (free : s.myCore.arr.free ≤ s.cycle)
    {pop : Bool} (filled : pop = true → ∃ slot e q, s.myCore.arr.queue = (slot, some e) :: q)
    (fold : Bool) (x : Option (Fin 16)) (y : Fin 32) (imm : BitVec 16) :
    exec (.mbeat fold pop x y imm) s = .next ((s.fed pop x).beat fold (s.lidAddr y imm)) := by
  have queue : (if pop = true then s.popOk else .go) = .go := by
    split
    · next on =>
      obtain ⟨slot, e, q, queue⟩ := filled on
      exact popOk_go queue
    · rfl
  have go : s.mbeatOk fold pop = .go := by
    rw [State.mbeatOk, arrayOk_go mine free, queue, foldOk_go acopy, ite_self]
    rfl
  rw [exec_mbeat, execMbeat, go, guard_go]
  rfl

/-- GROUP_READY: a group on its way can be folded, under the FPCTL of the holder (R112, R386). -/
theorem exec_groupReady {s : State} {core id : Nat} (flight : ∃ g ∈ (s.core core).arr.pending, g.id = id ∧ g.ready = none) :
    ∃ fp, (∀ o, (s.core core).arr.owner = some o → fp = (s.ctx core o).regs.fpctl)
      ∧ exec (.groupReady core id) s = .next (s.modCore core fun c => { c with arr := { c.arr with
          pending := c.arr.pending.map fun g => if g.id = id then { g with ready := some fp } else g } }) := by
  have meaning : exec (.groupReady core id) s = execGroupReady core id s := rfl
  have found : ((s.core core).arr.pending.any fun g => g.id == id && g.ready.isNone) = true := by
    obtain ⟨g, hg, rfl, ready⟩ := flight
    exact List.any_eq_true.2 ⟨g, hg, by rw [ready, beq_self_eq_true]; rfl⟩
  rw [meaning]
  simp only [execGroupReady, found, if_true]
  refine ⟨_, fun o owner => ?_, rfl⟩
  rw [owner]
  rfl

end Sys2Proof.Machine

open Sys2Proof Sys2Proof.Machine

/-- Settles O30: the array is fed by a step of its own, and the beat then forms its group of what stands in it. -/
theorem beatsFormGroups : Obligations.BeatsFormGroups := by
  unfold Obligations.BeatsFormGroups
  refine ⟨fun s fold pop x y imm mine acopy => ?_, fun s core id flight => ?_⟩
  · intro r l b free filled
    obtain ⟨q, rs, cs, lt, form, entry, loaded, kept⟩ := fed_spec filled (x.map fun n => s.src.t[n])
    have fed := fed_arrayStep s pop x
    have meaning : exec (.mbeat fold pop x y imm) s = .next ((s.fed pop x).beat fold l) :=
      mbeat_beats mine acopy free filled fold x y imm
    rw [beat_eq] at meaning
    rw [form] at fed
    generalize s.fed pop x = p at fed meaning
    have beaten := fed.modArr fun a => a.beaten (p.beatGroup fold l) p.cycle
    have group := (beatGroup_groupOf p fold l).of_arrayStep fed
    refine ⟨_, _, p.beatGroup fold l, meaning, ?_, ?_, fun k hk => ?_, beaten.core, entry, ?_, ?_, ?_, ?_⟩
    · exact congrArg (fun u : State => { u with agenda := s.agenda, nextOp := s.nextOp }) beaten.package
    · exact congrArg (· + 1) fed.nextOp
    · exact beaten.others k hk
    · cases x with
      | none => exact kept rfl
      | some n => exact loaded _ rfl
    · rw [fed.cycle]
      rfl
    · exact ⟨group.id, group.flight, group.rows, group.columns, group.formats, group.scales, group.daz, group.lanes, group.mul,
        group.auto⟩
    · have af : p.myCore.arr.af = r.af := congrArg (fun c => c.arr.af) fed.myCore
      simp only [fed.cycle, fed.cur, fed.nextOp, fed.agenda, af]
      rfl
  · obtain ⟨fp, holder, meaning⟩ := exec_groupReady flight
    exact ⟨_, meaning, rfl, fun k hk => State.core_modCore_ne s hk _, fp, holder, State.core_modCore_self ..⟩

end

section
namespace Sys2Proof.Machine

/-! ### The row that MDRAIN takes (R113, R128) -/

/-- What a cell shows: what the oldest fold that is not visible and writes it found there, else what it holds (R113). -/
theorem seen_eq (c : Core) (cyc cell : Nat) : c.seen cyc cell =
    match (c.arr.folds.filter fun f => cyc < f.vis).filterMap (fun f => (f.old.find? fun e => e.1 == cell).map (·.2)) with
    | v :: _ => v
    | [] => cget c.acc cell := by
  rw [Core.seen, ← List.head?_filterMap]
  cases List.filterMap _ (c.arr.folds.filter fun f => decide (cyc < f.vis)) <;> rfl

/-- The code of value v of a store row as it is visible. -/
def State.drainCode (s : State) (row v : Nat) : Nat :=
  if s.myCore.arr.acc = .f64 then (s.myCore.seen s.cycle (row * 512 + 2 * v)).toNat
    + 2 ^ 32 * (s.myCore.seen s.cycle (row * 512 + 2 * v + 1)).toNat
  else (s.myCore.seen s.cycle (row * 512 + v)).toNat

theorem foldr_drainCells (s : State) (row v : Nat) : (drainCells s.myCore.arr.acc row v).foldr
    (fun c x => (s.myCore.seen s.cycle c).toNat + 2 ^ 32 * x) 0 = s.drainCode row v := by
  unfold State.drainCode
  cases s.myCore.arr.acc <;> rfl

/-- Value v of a row as MDRAIN converts it. -/
def State.drainedVal (s : State) (f : MFmt) (row v : Nat) : Nat × Flags :=
  drainVal s.myCore.arr.acc f (envOf s.src.fpctl .dyn) (s.drainCode row v)

theorem drainTile_eq (s : State) (f : MFmt) (row : Nat) : s.drainTile f row =
    (.ofNat 16384 (packElems (elemBits f) ((List.range (drainCount s.myCore.arr.acc)).map fun v => (s.drainedVal f row v).1)),
      (List.range (drainCount s.myCore.arr.acc)).foldl (fun fl v => fl ||| (s.drainedVal f row v).2) 0) := by
  simp only [State.drainTile, foldr_drainCells, List.map_map, List.foldl_map]
  rfl

theorem drainCount_eq (acc : AFmt) : drainCount acc = if acc = .f64 then 256 else 512 := by cases acc <;> rfl

/-- A row that can be drained to a format fits a tile. -/
theorem elemBits_mul_drainCount_le {acc : AFmt} {f : MFmt} (ok : drainOk acc f = true) :
    elemBits f * drainCount acc ≤ 16384 := by
  revert ok
  cases acc <;> cases f <;> decide

/-- A flag is among flags that are ORed when one of them has it. -/
theorem getLsbD_foldl_or {α : Type} (f : α → Flags) (b : Nat) : ∀ (l : List α) (fl : Flags),
    (l.foldl (fun fl x => fl ||| f x) fl).getLsbD b = true ↔ fl.getLsbD b = true ∨ ∃ x ∈ l, (f x).getLsbD b = true
  | [], fl => by simp
  | x :: l, fl => by
    rw [List.foldl_cons, getLsbD_foldl_or f b l, BitVec.getLsbD_or, Bool.or_eq_true, or_assoc, List.exists_mem_cons_iff]

section
variable {s : State} {f : MFmt} (ok : drainOk s.myCore.arr.acc f = true) (row : Nat)

theorem drainTile_flags (b : Nat) : (s.drainTile f row).2.getLsbD b = true
    ↔ ∃ v, v < drainCount s.myCore.arr.acc ∧ (s.drainedVal f row v).2.getLsbD b = true := by
  have clear : (0 : Flags).getLsbD b = false := BitVec.getLsbD_zero
  rw [drainTile_eq, getLsbD_foldl_or, clear]
  simp only [List.mem_range, Bool.false_eq_true, false_or]

include ok

theorem drainTile_toNat : (s.drainTile f row).1.toNat
    = packElems (elemBits f) ((List.range (drainCount s.myCore.arr.acc)).map fun v => (s.drainedVal f row v).1) := by
  rw [drainTile_eq, toNat_packElems]
  rw [List.length_map, List.length_range]
  exact elemBits_mul_drainCount_le ok

theorem drainTile_value {v : Nat} (hv : v < drainCount s.myCore.arr.acc) :
    (s.drainTile f row).1.toNat / 2 ^ (elemBits f * v) % 2 ^ elemBits f = (s.drainedVal f row v).1 % 2 ^ elemBits f := by
  rw [drainTile_toNat ok, packElems_elem, List.getD_eq_getElem _ _ (by simpa using hv), List.getElem_map, List.getElem_range]

theorem drainTile_rest {b : Nat} (hb : elemBits f * drainCount s.myCore.arr.acc ≤ b) :
    (s.drainTile f row).1.getLsbD b = false := by
  have low := packElems_lt (elemBits f) ((List.range (drainCount s.myCore.arr.acc)).map fun v => (s.drainedVal f row v).1)
  rw [List.length_map, List.length_range] at low
  rw [BitVec.getLsbD, drainTile_toNat ok]
  exact Nat.testBit_lt_two_pow (low.trans_le (Nat.pow_le_pow_right (by decide) hb))

end

/-! ### MDRAIN's issue (R128, R389) -/

/-- MDRAIN is outstanding for a tile under the trap enables of its issue. -/
def Arr.draining (a : Arr) (x : Fin 16) (ten : BitVec 7) : Arr := { a with drains := a.drains ++ [(x, ten)] }

theorem mdrain_eq (s : State) (f : MFmt) (x : Fin 16) (row : Nat) : s.mdrain f x row =
    ((s.modArr fun a => a.draining x (tenOf s.src.fpctl)).modMe fun c => c.lock (.t x) none).schedule (s.cycle + 5)
      (.mdrainRetire s.cur s.cix x (s.drainTile f row).1 (s.drainTile f row).2) := rfl

theorem mdrainOk_go {s : State} (mine : s.ArrayMine) (acopy : s.NoAcopyIn) {f : MFmt}
    (ok : drainOk s.myCore.arr.acc f = true) (row : Nat) : s.mdrainOk f row = .go := by
  have apart : meets ((List.range 512).map fun c => row * 512 + c) [] = false := List.any_eq_false.2 fun c _ => by simp
  rw [State.mdrainOk, (mtxOk_eq_go s).2 mine, ok, acopyCells_nil acopy, apart]
  rfl

theorem mdrain_issues {s : State} (mine : s.ArrayMine) (acopy : s.NoAcopyIn) {f : MFmt}
    (ok : drainOk s.myCore.arr.acc f = true) {x : Fin 16} {row : Nat} {i : Instr}
    (word : (∃ r : Fin 512, i = .mdrain f x r ∧ row = r.val) ∨ ∃ y, i = .mdrainReg f x y ∧ row = (s.rs y).toNat % 512) :
    exec i s = .next (s.mdrain f x row) := by
  rcases word with ⟨r, rfl, rfl⟩ | ⟨y, rfl, rfl⟩
  · rw [exec_mdrain, execMdrain, mdrainOk_go mine acopy ok, guard_go]
  · have field : bitsOf (s.rs y) 0 9 = (s.rs y).toNat % 512 := (bitsOf_eq ..).trans (by norm_num)
    rw [exec_mdrainReg, execMdrainReg, mdrainOk_go mine acopy ok, guard_go, field]

/-- A step of the array, and then a change of the executing context. -/
theorem ArrayStep.modMe_core {s t : State} {a : Arr} (h : ArrayStep s t a) (f : Ctx → Ctx) :
    { (t.modMe f).core s.cur with ctxs := s.myCore.ctxs } = { s.core s.cur with arr := a } := by
  have ctxs : (t.core s.cur).ctxs = s.myCore.ctxs := (congrArg Core.ctxs h.core :)
  rw [← ctxs, ← h.core]
  exact State.core_modCtx_rest ..

/-! ### MDRAIN_RETIRE (R95, R113, R116) -/

/-- What an MDRAIN's tile and flags make of registers. -/
def Regs.drainedTo (x : Fin 16) (tile : Tile) (fl : Flags) (r : Regs) : Regs := (r.wt x tile).orFlags fl

theorem Regs.drainedTo_keeps (x : Fin 16) (tile : Tile) (fl : Flags) (r : Regs) :
    r.Keeps (r.drainedTo x tile fl) [.t x] fl ∧ (r.drainedTo x tile fl).t[x] = tile := by
  have keeps := (r.keeps_wt x tile).trans ((r.wt x tile).keeps_orFlags [.t x] fl)
  have clear : 0 ||| fl = fl := BitVec.zero_or
  rw [clear] at keeps
  exact ⟨keeps, r.wt_self x tile⟩

/-- A context with an MDRAIN landed. -/
def Ctx.drainLanded (c : Ctx) (x : Fin 16) (tile : Tile) (fl : Flags) (ten : BitVec 7) : Ctx :=
  ((c.landArr fun r => r.wt x tile).unlock (.t x)).landFlags fl ten

theorem drainLanded_eq (c : Ctx) (x : Fin 16) (tile : Tile) (fl : Flags) (ten : BitVec 7) : c.drainLanded x tile fl ten =
    { c with
      regs := c.regs.drainedTo x tile fl
      snap := if c.unsettled = true then c.snap else c.snap.map (Regs.drainedTo x tile fl)
      sb := c.sb.filter (·.1 != .t x)
      landFp := if fl &&& ten = 0 then c.landFp else some (c.landFp.getD 0 ||| fl) } := by
  have same : ((c.landArr fun r => r.wt x tile).unlock (.t x)).unsettled = c.unsettled := by
    rw [landArr_eq]
    rfl
  rw [Ctx.drainLanded, landFlags_eq, landArr_eq (Ctx.unlock ..), same, landArr_eq c]
  cases c.unsettled with
  | true => rfl
  | false => cases c.snap <;> rfl

theorem arrayLanded_of_drainLanded {s t : State} {core : Nat} {i : Fin 4} {x : Fin 16} {tile : Tile} {fl : Flags}
    {ten : BitVec 7} (h : t.ctx core i = (s.ctx core i).drainLanded x tile fl ten) :
    ArrayLanded s t core i fun r r' => r.Keeps r' [.t x] fl ∧ r'.t[x] = tile := by
  rw [ArrayLanded, LandedBut, h, drainLanded_eq]
  refine ⟨Regs.drainedTo_keeps .., ?_, fun r r' before after => ?_⟩
  · split <;> simp
  · dsimp only at after
    rw [before] at after
    split at after
    · next undone =>
      cases after
      rw [if_pos undone]
    · next settled =>
      cases after
      rw [if_neg settled]
      exact Regs.drainedTo_keeps ..

theorem drainLanded_locked (c : Ctx) (x : Fin 16) (tile : Tile) (fl : Flags) (ten : BitVec 7) (cyc : Nat) (r : RegName) :
    (c.drainLanded x tile fl ten).locked cyc r = (r != .t x && c.locked cyc r) := by
  have unlocked := any_unlocked [.t x] r (fun t => match t with | none => true | some n => decide (cyc < n)) c.sb
  have single (y : RegName) : [RegName.t x].contains y = (y == .t x) := by
    rw [List.contains_cons, List.contains_nil, Bool.or_false]
  simp only [single] at unlocked
  rw [drainLanded_eq]
  exact unlocked

/-- An MDRAIN is outstanding for a tile no longer. -/
def State.dropDrain (s : State) (core : Nat) (x : Fin 16) : State :=
  s.modCore core fun c => { c with arr := { c.arr with drains := c.arr.drains.filter fun d => d.1 != x } }

theorem dropDrain_ctx (s : State) (core : Nat) (x : Fin 16) (k : Nat) (j : Fin 4) : (s.dropDrain core x).ctx k j = s.ctx k j := by
  unfold State.ctx State.dropDrain
  by_cases hk : k = core
  · subst hk
    rw [State.core_modCore_self]
  · rw [State.core_modCore_ne s hk]

theorem exec_mdrainRetire {s : State} {core : Nat} {x : Fin 16} {ten : BitVec 7}
    (found : (s.core core).arr.drains.find? (fun d => d.1 == x) = some (x, ten)) (i : Fin 4) (tile : Tile) (fl : Flags) :
    exec (.mdrainRetire core i x tile fl) s
      = .next ((s.dropDrain core x).modCtx core i fun c => c.drainLanded x tile fl ten) := by
  have meaning : exec (.mdrainRetire core i x tile fl) s = execMdrainRetire core i x tile fl s := rfl
  rw [meaning, execMdrainRetire, found]
  rfl

end Sys2Proof.Machine

open Sys2Proof Sys2Proof.Machine

/-- Settles O33: the tile is the row's values packed as they show at issue; MDRAIN_RETIRE writes it and lands its flags. -/
theorem drainsReadTheVisibleRow : Obligations.DrainsReadTheVisibleRow := by
  unfold Obligations.DrainsReadTheVisibleRow
  refine ⟨fun s f x row i mine acopy ok word => ?_, seen_eq, fun s core i x tile fl ten found => ?_⟩
  · intro acc n value
    have count : drainCount s.myCore.arr.acc = n := drainCount_eq acc
    have issued := modArr_arrayStep s fun a => a.draining x (tenOf s.src.fpctl)
    have context := modMe_contextOnly (s.modArr fun a => a.draining x (tenOf s.src.fpctl)) fun c => c.lock (.t x) none
    have me : (s.mdrain f x row).me = s.me.lock (.t x) none := by
      rw [mdrain_eq, State.me_schedule, State.me_modMe, issued.me]
    refine ⟨_, _, _, (mdrain_issues mine acopy ok word).trans rfl, rfl, fun k hk => ?_, fun j hj => ?_,
      issued.modMe_core fun c => c.lock (.t x) none, ?_, fun c r => ?_, rfl, fun v hv => ?_, fun b hb => ?_, fun b => ?_⟩
    · exact (context.alone.cores k hk).trans (issued.others k hk)
    · exact (context.alone.others j hj).trans (issued.ctx ..)
    · rw [me]
      rfl
    · rw [me, Ctx.locked_lock, Bool.and_true, Bool.or_comm, Bool.beq_comm]
    · exact drainTile_value ok row (count ▸ hv)
    · exact drainTile_rest ok row (count ▸ hb)
    · rw [← count]
      exact drainTile_flags row b
  · have ctx : ((s.dropDrain core x).modCtx core i fun c => c.drainLanded x tile fl ten).ctx core i
        = (s.ctx core i).drainLanded x tile fl ten := by rw [State.ctx_modCtx_self, dropDrain_ctx]
    refine ⟨_, exec_mdrainRetire found i tile fl, rfl, fun k j other => ?_, ?_, arrayLanded_of_drainLanded ctx,
      fun c r => ?_, ?_⟩
    · rw [State.ctx_modCtx_ne _ other, dropDrain_ctx]
    · rw [arr_modCtx]
      exact congrArg Core.arr (State.core_modCore_self ..)
    · rw [ctx, drainLanded_locked]
    · rw [ctx, drainLanded_eq]

end

section
namespace Sys2Proof.Machine

/-! ### What SQLD finds at issue (R118, R410) -/

/-- The 192 bytes of an SQLD may be read (R410). -/
def State.SqldAllowed (s : State) (a : Addr) : Prop :=
  match a with
  | .scr x i => s.scrOff x (i.toNat * 64) 64 + 192 ≤ 2 ^ 22
      ∧ s.OwnAllowed engLsu false (s.scrOff x (i.toNat * 64) 64) 192
  | .buf x i => i.toNat * 64 % 65536 + 192 ≤ 65536 ∧ s.BufAllowed x engLsu false (i.toNat * 64 % 65536) 192
  | .hnd n x i => s.pageOff n x (i.toNat * 64) 64 + 192 ≤ pageBytes (Handle.psize (s.hreg n))
      ∧ s.HandleAllowed n (s.pageOff n x (i.toNat * 64) 64) false

theorem alignDown_mul (i n : Nat) (h : 0 < n) : alignDown (i * n) n = i * n := by
  rw [alignDown, Nat.mul_div_cancel _ h]

/-- A buffer operand ends within its buffer, whether the buffer is the core's own or another's. -/
theorem pastEnd_buf {s : State} {x : Fin 32} {off n : Nat} (i : BitVec 13) (fits : off % 65536 + n ≤ 65536)
    (unit : alignDown off 64 = off) : s.pastEnd (s.bufPlace x off 64) (.buf x i) n = false := by
  have within : ¬ 65536 < (bufNum (s.rs x) * 65536 + alignDown off 64 % 65536) % 65536 + n := by
    rw [unit, Nat.mul_add_mod_self_right, Nat.mod_mod]
    omega
  unfold State.bufPlace
  dsimp only
  split
  · exact decide_eq_false within
  · exact decide_eq_false within

theorem sqldOk_go {s : State} {a : Addr} (held : s.myCore.arr.owner = some s.cix) (room : s.myCore.arr.queue.length < 64)
    (allowed : s.SqldAllowed a) : s.sqldOk a = .go := by
  have places : decide (64 ≤ s.myCore.arr.queue.length) = false := decide_eq_false (Nat.not_le.2 room)
  cases a with
  | scr x i =>
    obtain ⟨fits, access⟩ := allowed
    have ends : s.pastEnd (s.place (.scr x i) 64 64) (.scr x i) 192 = false := decide_eq_false (Nat.not_lt.2 fits)
    rw [State.sqldOk, (holdsArr_iff s).2 held, places, ends, (ownOk_eq_go s).2 access]
    rfl
  | buf x i =>
    obtain ⟨fits, access⟩ := allowed
    have unit := alignDown_mul i.toNat 64 (by decide)
    have ends : s.pastEnd (s.place (.buf x i) 64 64) (.buf x i) 192 = false := pastEnd_buf i fits unit
    rw [State.sqldOk, (holdsArr_iff s).2 held, places, ends, unit, (bufOk_eq_go s).2 access]
    rfl
  | hnd n x i =>
    obtain ⟨fits, access⟩ := allowed
    have ends : s.pastEnd (s.place (.hnd n x i) 64 64) (.hnd n x i) 192 = false := decide_eq_false (Nat.not_lt.2 fits)
    rw [State.sqldOk, (holdsArr_iff s).2 held, places, ends, (handleOk_eq_go s).2 access]
    rfl

/-! ### What SQLD issues (R411) -/

/-- The sources of an SQLD's bytes. -/
def State.sqldSrc (s : State) (p : Place) : List Src :=
  match p with
  | .here off => (s.scrBytes s.cur off 192).map Src.known
  | .there core off => bufSrc core off 192
  | .mem h off => s.memSrc (Handle.place (s.hreg h) off) 192

/-- The bound of an SQLD's latency: that of the latency class of its handle. -/
def State.sqldBound (s : State) (a : Addr) : Option Nat :=
  match a with
  | .hnd n _ _ => lcBound (Handle.lc (s.hreg n))
  | _ => none

/-- The place is another core's buffer. -/
def Place.isBuffer : Place → Bool
  | .there .. => true
  | _ => false

/-- The youngest place of the scale queue reserved for an operation. -/
def Arr.reserve (a : Arr) (slot : Nat) : Arr := { a with queue := a.queue ++ [(slot, none)] }

theorem exec_sqld {s : State} {a : Addr} (go : s.sqldOk a = .go) : exec (.sqld a) s =
    .next ((s.modArr fun r => r.reserve s.nextOp).loadFar (.scale s.nextOp) (s.sqldSrc (s.place a 64 64))
      (s.cycle + s.latency (s.sqldBound a)) (s.place a 64 64).isBuffer) := by
  have meaning : exec (.sqld a) s = execSqld a s := rfl
  rw [meaning, execSqld, go, guard_go]
  rfl

theorem sqldBound_latency_pos (s : State) (a : Addr) : 1 ≤ s.latency (s.sqldBound a) := by
  refine latency_pos s _ fun n bound => ?_
  cases a with
  | hnd h x i => exact lcBound_pos _ n bound
  | scr x i => cases bound
  | buf x i => cases bound

theorem sqldSrc_length (s : State) (p : Place) : (s.sqldSrc p).length = 192 := by
  cases p with
  | here off => rw [State.sqldSrc, List.length_map, State.scrBytes, length_cgetN]
  | there core off => rw [State.sqldSrc, bufSrc, List.length_map, List.length_range]
  | mem h off => rw [State.sqldSrc, State.memSrc, List.length_map, List.length_range]

theorem getElem?_cgetN {w : Nat} (c : Cells w) {n a j : Nat} (h : j < n) : (cgetN c a n)[j]? = some (cget c (a + j)) := by
  have inside : j < (cgetN c a n).length := by rwa [length_cgetN]
  rw [List.getElem?_eq_getElem inside, ← List.getD_eq_getElem _ 0 inside, get_cgetN c 0 n a j h]

/-- Byte k of an SQLD: known at issue where it is local or stands in the store queue (R186, R411). -/
theorem sqldSrc_byte (s : State) (p : Place) {k : Nat} (hk : k < 192) : (s.sqldSrc p)[k]? = some (match p with
    | .here off => .known (s.getLoc (.scr s.cur (off + k)))
    | .there core off => .place (.scr core (off + k))
    | .mem h off => match queued s.sent (Handle.place (s.hreg h) off + k) with
      | some b => .known b
      | none => .place (.mem (Handle.place (s.hreg h) off + k))) := by
  cases p with
  | here off =>
    rw [State.sqldSrc, List.getElem?_map, State.scrBytes, getElem?_cgetN _ hk]
    rfl
  | there core off =>
    rw [State.sqldSrc, bufSrc, List.getElem?_map, List.getElem?_range hk]
    rfl
  | mem h off =>
    rw [State.sqldSrc, State.memSrc, List.getElem?_map, List.getElem?_range hk]
    rfl

/-! ### A load issued behind a step of the array -/

theorem ArrayStep.sameBytes {s t : State} {a : Arr} (h : ArrayStep s t a) : SameBytes s t := by
  have core (k : Nat) : { t.core k with arr := (s.core k).arr } = s.core k := by
    by_cases hk : k = s.cur
    · subst hk
      rw [h.core]
    · rw [h.others k hk]
  intro l
  cases l with
  | mem p => exact congrArg (fun m => cget m p) (congrArg State.mem h.package :)
  | scr n o => exact congrArg (fun m => cget m o) (congrArg Core.scr (core n) :)
  | lid n o => exact congrArg (fun m => cget m o) (congrArg Core.lid (core n) :)

section
variable (s : State) (f : Arr → Arr) (dst : LoadTo) (src : List Src) (due : Nat) (buf : Bool)

theorem modArr_loadFar_bytes : SameBytes s ((s.modArr f).loadFar dst src due buf) := fun l =>
  (dropDelay_getLoc _ l).trans ((issueOp_bytes _ _ _ _ _ _ _ _ l).trans ((modArr_arrayStep s f).sameBytes l))

theorem modArr_loadFar_core :
    { ((s.modArr f).loadFar dst src due buf).core s.cur with ctxs := s.myCore.ctxs, ops := s.myCore.ops }
      = { s.myCore with arr := f s.myCore.arr } := by
  have step := modArr_arrayStep s f
  have units := (loadFar_step (s.modArr f) dst src due buf).1
  unfold UnitsKept at units
  rw [step.cur, step.core] at units
  exact units

theorem modArr_loadFar_step : OperationStep s ((s.modArr f).loadFar dst src due buf) (loadOp s dst (.load dst src)) s.me.regs
    s.me.wait due ((if buf then Instr.remoteBufferAccess else Instr.loadWriteback) s.cur s.nextOp) := by
  have step := (modMyCore_issueOp_step s (fun c => { c with arr := f c.arr }) (fun _ => rfl) (fun _ => rfl) (some .ld) kLd []
    dst.locks (.load dst src) due (if buf then .remoteBufferAccess s.cur else .loadWriteback s.cur)).dropDelay
  cases buf <;> exact step

end

end Sys2Proof.Machine

open Sys2Proof Sys2Proof.Machine

/-- Settles O12: the place is reserved by a step of the array, and the load is issued behind it. -/
theorem scaleLoadsReserveTheirPlace : Obligations.ScaleLoadsReserveTheirPlace := by
  unfold Obligations.ScaleLoadsReserveTheirPlace
  intro s a held room allowed
  have step := modArr_loadFar_step s (fun r => r.reserve s.nextOp) (.scale s.nextOp) (s.sqldSrc (s.place a 64 64))
    (s.cycle + s.latency (s.sqldBound a)) (s.place a 64 64).isBuffer
  refine ⟨_, s.sqldSrc (s.place a 64 64), _, exec_sqld (sqldOk_go held room allowed),
    modArr_loadFar_bytes s _ _ _ _ _, Nat.lt_add_of_pos_right (sqldBound_latency_pos s a), modArr_loadFar_core ..,
    ?_, sqldSrc_length .., fun k hk => sqldSrc_byte s _ hk⟩
  generalize s.place a 64 64 = p at step ⊢
  cases p <;> exact step

end

section
namespace Sys2Proof.Machine

/-! ### Packed offsets of elements (R134, R143) -/

theorem foldl_mul (ns : List Nat) (a : Nat) : ns.foldl (· * ·) a = a * ns.foldl (· * ·) 1 := by
  have moved : ns.foldl (· * ·) (a * 1) = a * ns.foldl (· * ·) 1 := List.foldl_assoc
  rwa [Nat.mul_one] at moved

/-- The packed offset of a tuple under its counts is its place in row-major order. -/
theorem foldl_horner : ∀ {ns xs : List Nat} (o : Nat), ns.length = xs.length →
    (ns.zip xs).foldl (fun o f => o * f.1 + f.2) o = o * ns.foldl (· * ·) 1 + rowMajor ns xs
  | [], [], o, _ => by simp [rowMajor]
  | n :: ns, x :: xs, o, h => by
    rw [List.zip_cons_cons, List.foldl_cons, foldl_horner _ (Nat.succ.inj h), List.foldl_cons, foldl_mul ns (1 * n), rowMajor]
    ring

/-- The axes of a tensor without generators are its packed factors. -/
theorem filterMap_axes (ns xs : List Nat) (h : ns.length = xs.length) :
    ((List.range ns.length).filterMap fun a => some (ns.getD a 0, xs.getD a 0)) = ns.zip xs := by
  refine (congrFun (List.filterMap_eq_map (f := fun a => (ns.getD a 0, xs.getD a 0))) _).trans ?_
  refine List.ext_getElem (by simp [h]) fun k hk hk' => ?_
  rw [List.length_map, List.length_range] at hk
  simp [hk, h ▸ hk]

/-- Without generators every tuple stands for itself. -/
theorem orbitRep_of_no_gens {d : Desc} {t : List Nat} (rank : d.rank = d.ext.length) (len : t.length = d.rank)
    (gens : d.gens = []) : d.orbitRep t = ⟨t, 1, 1, rowMajor d.ext t⟩ := by
  have same : d.ext.length = t.length := (len.trans rank).symm
  have off := foldl_horner 0 same
  rw [Nat.zero_mul, Nat.zero_add, ← filterMap_axes _ _ same, ← rank] at off
  simp only [Desc.orbitRep, gens, List.map_nil, List.foldl_nil, List.any_nil, List.find?_nil, Bool.false_eq_true, if_false]
  exact congrArg (Rep.mk t 1 1) off

/-! ### The rows of R133 -/

theorem sortUp_eq_insertionSort : ∀ l : List Nat, sortUp l = l.insertionSort (· ≤ ·)
  | [] => rfl
  | x :: t => by
    have insert : ∀ l : List Nat, insertUp x l = l.orderedInsert (· ≤ ·) x := fun l => by
      induction l with
      | nil => rfl
      | cons y l ih => rw [insertUp, ih, List.orderedInsert_cons]
    rw [sortUp, sortUp_eq_insertionSort t, insert, List.insertionSort_cons]

/-- An ascending list is the sorted one of each of its orderings. -/
theorem sortUp_eq_of_perm {l m : List Nat} (perm : l.Perm m) (sorted : m.Pairwise (· ≤ ·)) : sortUp l = m := by
  rw [sortUp_eq_insertionSort]
  exact ((List.perm_insertionSort _ l).trans perm).eq_of_pairwise' (List.pairwise_insertionSort _ l) sorted

theorem sortUp_pair (i j : Nat) : sortUp [i, j] = [min i j, max i j] := by
  rcases Nat.le_total i j with h | h
  · rw [min_eq_left h, max_eq_right h]
    exact sortUp_eq_of_perm (.refl _) (by simpa using h)
  · rw [min_eq_right h, max_eq_left h]
    exact sortUp_eq_of_perm (.swap ..) (by simpa using h)

theorem orderings_pair (i j : Nat) : orderings [i, j] = if i = j then 1 else 2 := by
  by_cases h : i = j
  · subst h
    simp [orderings, fact, List.range_succ, List.eraseDups_cons]
  · simp [orderings, fact, List.range_succ, List.eraseDups_cons, h, Ne.symm h]

theorem orderings_triple (i j k : Nat) :
    orderings [i, j, k] = if i = j ∧ j = k then 1 else if i = j ∨ j = k ∨ i = k then 3 else 6 := by
  by_cases hij : i = j
  · subst hij
    by_cases hik : i = k
    · subst hik
      simp [orderings, fact, List.range_succ, List.eraseDups_cons]
    · simp [orderings, fact, List.range_succ, List.eraseDups_cons, hik, Ne.symm hik]
  · by_cases hjk : j = k
    · subst hjk
      simp [orderings, fact, List.range_succ, List.eraseDups_cons, hij, Ne.symm hij]
    · by_cases hik : i = k
      · subst hik
        simp [orderings, fact, List.range_succ, List.eraseDups_cons, hij, Ne.symm hij]
      · simp [orderings, fact, List.range_succ, List.eraseDups_cons, hij, Ne.symm hij, hjk, Ne.symm hjk, hik,
          Ne.symm hik]

theorem binom_one (c : Nat) : binom c 1 = c := by simp [binom]
theorem binom_two (c : Nat) : binom c 2 = c * (c - 1) / 2 := by simp [binom, List.range_succ]
theorem binom_three (c : Nat) : binom c 3 = c * (c - 1) * (c - 2) / 6 := by simp [binom, List.range_succ]

/-! ### One generator -/

section
variable {d : Desc} {g : Gen} {i j v size : Nat} {neg zero : Bool}

/-- The sign of a representative. -/
def repSign (zero neg : Bool) : Int := if zero then 0 else if neg then -1 else 1

/-- A matrix whose only generator names both axes. -/
theorem orbitRep_of_both {a b : Nat} (rank : d.rank = 2) (gens : d.gens = [g]) (axes : g.axes = [0, 1])
    (map : d.mapGen g [i, j] = ⟨[a, b], neg, size, zero, v⟩) :
    d.orbitRep [i, j] = ⟨[a, b], repSign zero neg, size, if zero then 0 else v⟩ := by
  simp [Desc.orbitRep, gens, map, axes, rank, List.range_succ, putAxes, repSign]

/-- A matrix whose only generator names its rows. -/
theorem orbitRep_of_rows {a : Nat} (rank : d.rank = 2) (gens : d.gens = [g]) (axes : g.axes = [0])
    (map : d.mapGen g [i, j] = ⟨[a, j], neg, size, zero, v⟩) :
    d.orbitRep [i, j] = ⟨[a, j], repSign zero neg, size, if zero then 0 else v * d.extent 1 + j⟩ := by
  simp [Desc.orbitRep, gens, map, axes, rank, List.range_succ, putAxes, repSign]

/-- A matrix whose only generator names its columns. -/
theorem orbitRep_of_columns {b : Nat} (rank : d.rank = 2) (gens : d.gens = [g]) (axes : g.axes = [1])
    (map : d.mapGen g [i, j] = ⟨[i, b], neg, size, zero, v⟩) :
    d.orbitRep [i, j] = ⟨[i, b], repSign zero neg, size, if zero then 0 else i * d.genCount g + v⟩ := by
  simp [Desc.orbitRep, gens, map, axes, rank, List.range_succ, putAxes, repSign]

/-- A matrix with a generator for its rows and one for its columns. -/
theorem orbitRep_of_two {g' : Gen} {a b v' size' : Nat} {neg' zero' : Bool} (rank : d.rank = 2) (gens : d.gens = [g, g'])
    (axes : g.axes = [0]) (axes' : g'.axes = [1]) (map : d.mapGen g [i, j] = ⟨[a, j], neg, size, zero, v⟩)
    (map' : d.mapGen g' [i, j] = ⟨[i, b], neg', size', zero', v'⟩) :
    d.orbitRep [i, j] = ⟨[a, b], repSign (zero || zero') (neg != neg'), size * size',
      if zero || zero' then 0 else v * d.genCount g' + v'⟩ := by
  simp [Desc.orbitRep, gens, map, map', axes, axes', rank, List.range_succ, putAxes, repSign]

/-- A tensor of rank 3 whose only generator names every axis. -/
theorem orbitRep_of_all {k a b c : Nat} (rank : d.rank = 3) (gens : d.gens = [g]) (axes : g.axes = [0, 1, 2])
    (map : d.mapGen g [i, j, k] = ⟨[a, b, c], neg, size, zero, v⟩) :
    d.orbitRep [i, j, k] = ⟨[a, b, c], repSign zero neg, size, if zero then 0 else v⟩ := by
  simp [Desc.orbitRep, gens, map, axes, rank, List.range_succ, putAxes, repSign]

end

section
variable (d : Desc) (i j : Nat)

theorem mapGen_sym : d.mapGen ⟨0, false, [0, 1]⟩ [i, j]
    = ⟨[min i j, max i j], false, if i = j then 1 else 2, false, min i j + max i j * (max i j + 1) / 2⟩ := by
  have value : colexRank false [min i j, max i j] = min i j + (max i j + 1) * max i j / 2 := by
    simp [colexRank, binom_one, binom_two]
  rw [Nat.mul_comm] at value
  simp [Desc.mapGen, sortUp_pair, orderings_pair, putAxes, value]

theorem mapGen_asym : d.mapGen ⟨1, false, [0, 1]⟩ [i, j]
    = ⟨[min i j, max i j], decide (j < i), if i = j then 1 else 2, decide (i = j), min i j + max i j * (max i j - 1) / 2⟩ := by
  have value : colexRank true [min i j, max i j] = min i j + max i j * (max i j - 1) / 2 := by
    simp [colexRank, binom_one, binom_two]
  have odd : (inversions [i, j] % 2 == 1) = decide (j < i) := by
    by_cases h : j < i <;> simp [inversions, h]
  have twin : hasTwin [i, j] = decide (i = j) := by simp [hasTwin]
  simp [Desc.mapGen, sortUp_pair, orderings_pair, putAxes, value, odd, twin]

theorem mapGen_circ : d.mapGen ⟨2, false, [0, 1]⟩ [i, j]
    = ⟨[0, (j + d.extent 0 - i) % d.extent 0], false, d.extent 0, false, (j + d.extent 0 - i) % d.extent 0⟩ := rfl

/-- REFL on an axis: the index or its mirror image (R133). -/
theorem mapGen_refl (neg : Bool) (a : Nat) (idx : List Nat) : d.mapGen ⟨3, neg, [a]⟩ idx =
    let x := idx.getD a 0
    let y := d.extent a - 1 - x
    ⟨idx.set a (min x y), neg && decide (y < x), if x = y then 1 else 2, neg && decide (x = y), min x y⟩ := by
  simp [Desc.mapGen, putAxes, Bool.beq_eq_decide_eq]

/-- The orderings of three values. -/
theorem perm_triple {i j k : Nat} {t : List Nat} : t.Perm [i, j, k] ↔
    t ∈ [[i, j, k], [i, k, j], [j, i, k], [j, k, i], [k, i, j], [k, j, i]] := by
  rw [← List.mem_permutations']
  simp only [List.permutations', List.permutations'Aux, List.flatMap_cons, List.flatMap_nil, List.map_cons, List.map_nil,
    List.append_nil, List.cons_append, List.nil_append, List.mem_cons, List.not_mem_nil, or_false]
  tauto

theorem orderings_of_perm {i j k : Nat} {t : List Nat} (perm : t.Perm [i, j, k]) (hij : i ≤ j) (hjk : j ≤ k) :
    orderings t = if i = j ∧ j = k then 1 else if i = j ∨ j = k then 3 else 6 := by
  obtain ⟨a, b, c, rfl⟩ := List.length_eq_three.1 perm.length_eq
  have values := perm_triple.1 perm
  simp only [List.mem_cons, List.cons.injEq, and_true, List.not_mem_nil, or_false] at values
  have all : (a = b ∧ b = c) = (i = j ∧ j = k) := propext (by omega)
  have two : (a = b ∨ b = c ∨ a = c) = (i = j ∨ j = k) := propext (by omega)
  simp only [orderings_triple, all, two]

/-- SYM on three axes puts their indices in ascending order (R133). -/
theorem mapGen_sym_all {i j k : Nat} {t : List Nat} (perm : t.Perm [i, j, k]) (hij : i ≤ j) (hjk : j ≤ k) :
    d.mapGen ⟨0, false, [0, 1, 2]⟩ t = ⟨[i, j, k], false, if i = j ∧ j = k then 1 else if i = j ∨ j = k then 3 else 6, false,
      i + j * (j + 1) / 2 + k * (k + 1) * (k + 2) / 6⟩ := by
  have sorted : sortUp t = [i, j, k] := sortUp_eq_of_perm perm (by simp; omega)
  have value : colexRank false [i, j, k] = i + j * (j + 1) / 2 + k * (k + 1) * (k + 2) / 6 := by
    have two : (j + 1) * j = j * (j + 1) := by ring
    have three : (k + 2) * (k + 1) * k = k * (k + 1) * (k + 2) := by ring
    simp [colexRank, binom_one, binom_two, binom_three, two, three]
  have size := orderings_of_perm perm hij hjk
  obtain ⟨a, b, c, rfl⟩ := List.length_eq_three.1 perm.length_eq
  simp [Desc.mapGen, putAxes, sorted, size, value]

/-- The sign of ASYM, which is 0 on the diagonal. -/
theorem repSign_twins : repSign (decide (i = j)) (decide (j < i)) = if i = j then 0 else if i < j then 1 else -1 := by
  rcases Nat.lt_trichotomy i j with h | h | h
  · simp [repSign, h, h.ne, h.le]
  · simp [repSign, h]
  · simp [repSign, h, h.ne', h.le]

/-- The sign of a REFL whose middle is zero where it negates. -/
theorem repSign_refl (neg : Bool) (x y : Nat) : repSign (neg && decide (x = y)) (neg && decide (y < x))
    = if neg = true ∧ x = y then 0 else if neg = true ∧ y < x then -1 else 1 := by
  simp [repSign]

/-- The sign of two generators is the product of theirs (R134). -/
theorem repSign_product (zero zero' neg neg' : Bool) : repSign (zero || zero') (neg != neg')
    = if zero = true ∨ zero' = true then 0 else if neg = true ↔ neg' = true then 1 else -1 := by
  cases neg <;> cases neg' <;> simp [repSign]

end
end Sys2Proof.Machine

open Sys2Proof Sys2Proof.Machine

/-- Settles O19: the row of R133 for each generator, and what orbit_rep makes of one generator or two on the axes that they
name; a tensor without generators is packed in row-major order. -/
theorem orbitsOfMatrices : Obligations.OrbitsOfMatrices := by
  unfold Obligations.OrbitsOfMatrices
  refine ⟨fun d t rank len gens => orbitRep_of_no_gens rank len gens, fun d n i j k t rank ext gens hij hjk hk mem => ?_,
    fun d n m i j rank ext hi hj => ?_⟩
  · have perm := perm_triple.2 mem
    obtain ⟨a, b, c, rfl⟩ := List.length_eq_three.1 perm.length_eq
    exact orbitRep_of_all rank gens rfl (mapGen_sym_all d perm hij hjk)
  · have rows : d.extent 0 = n := by rw [Desc.extent, ext]; rfl
    have cols : d.extent 1 = m := by rw [Desc.extent, ext]; rfl
    refine ⟨fun square gens => ?_, fun square gens => ?_, fun square gens => ?_, fun neg gens => ?_, fun a b gens => ?_,
      fun neg gens => ?_⟩
    · exact orbitRep_of_both rank gens rfl (mapGen_sym d i j)
    · rw [orbitRep_of_both rank gens rfl (mapGen_asym d i j), repSign_twins]
      simp
    · rw [← rows]
      exact orbitRep_of_both rank gens rfl (mapGen_circ d i j)
    · have count : d.genCount ⟨3, neg, [1]⟩ = (m + 1) / 2 := by rw [← cols]; rfl
      have map := mapGen_refl d neg 1 [i, j]
      rw [cols] at map
      rw [orbitRep_of_columns rank gens rfl map, count, repSign_refl]
      simp
    · have map := mapGen_refl d a 0 [i, j]
      have map' := mapGen_refl d b 1 [i, j]
      rw [rows] at map
      rw [cols] at map'
      have count : d.genCount ⟨3, b, [1]⟩ = (m + 1) / 2 := by rw [← cols]; rfl
      rw [orbitRep_of_two rank gens rfl rfl map map', count]
      rw [repSign_product]
      simp
    · have map := mapGen_refl d neg 0 [i, j]
      rw [rows] at map
      rw [orbitRep_of_rows rank gens rfl map, cols, repSign_refl]
      simp

end

section
namespace Sys2Proof.Machine

/-! ### Generator words (R131, R132) -/

/-- Bits lo up to lo + n of a number are clear. -/
theorem div_mod_eq_zero_iff (w lo n : Nat) : w / 2 ^ lo % 2 ^ n = 0 ↔ ∀ b, lo ≤ b → b < lo + n → w.testBit b = false := by
  constructor
  · intro h b hlo hn
    have bit := Nat.testBit_mod_two_pow (w / 2 ^ lo) n (b - lo)
    rw [h, Nat.zero_testBit, Nat.testBit_div_two_pow, Nat.sub_add_cancel hlo, decide_eq_true (by omega : b - lo < n)] at bit
    exact bit.symm
  · intro h
    refine Nat.eq_of_testBit_eq fun k => ?_
    rw [Nat.testBit_mod_two_pow, Nat.testBit_div_two_pow, Nat.zero_testBit]
    by_cases hk : k < n
    · rw [h (k + lo) (by omega) (by omega), Bool.and_false]
    · rw [decide_eq_false hk, Bool.false_and]

theorem genOf_axes_length_le (w : Nat) : (genOf w).axes.length ≤ 6 :=
  (List.length_filter_le ..).trans (List.length_range ..).le

/-- How many axes a kind of generator names. -/
theorem axisCount_iff {kind k : Nat} (hk : k ≤ 6) :
    (match kind with
      | 0 | 1 => decide (2 ≤ k)
      | 2 => k == 2
      | _ => k == 1) = true
      ↔ k ∈ if kind < 2 then [2, 3, 4, 5, 6] else if kind = 2 then [2] else [1] := by
  rcases kind with _ | _ | _ | kind
  · simp; omega
  · simp; omega
  · simp
  · simp

theorem extent_descOf (b : Block64) {a : Nat} (ha : a < blk b 32 8) (rank : blk b 32 8 ≤ 6) :
    (descOf b).extent a = blk b (64 + 32 * a) 32 := by
  have : a < min (blk b 32 8) 6 := by omega
  simp [Desc.extent, descOf, this]

theorem genOk_iff (b : Block64) (rank : blk b 32 8 ≤ 6) (w : Nat) :
    (descOf b).genOk w = true ↔ GenLegal (blk b 32 8) (fun a => blk b (64 + 32 * a) 32) w := by
  have reserved := div_mod_eq_zero_iff w 6 23
  have count := axisCount_iff (kind := w / 2 ^ 30 % 4) (genOf_axes_length_le w)
  have neg : (w / 2 ^ 30 % 4 == 3 || !w.testBit 29) = true ↔ (w.testBit 29 = true → w / 2 ^ 30 % 4 = 3) := by
    cases w.testBit 29 <;> simp
  have short (n : Nat) : (w / 2 ^ 30 % 4 != 1 || decide ((genOf w).axes.length ≤ n)) = true
      ↔ (w / 2 ^ 30 % 4 = 1 → (genOf w).axes.length ≤ n) := by
    simp [imp_iff_not_or]
  have inside : (∀ a ∈ (genOf w).axes, a < blk b 32 8) → ∀ a ∈ (genOf w).axes,
      (descOf b).extent a = blk b (64 + 32 * a) 32 := fun h a ha => extent_descOf b (h a ha) rank
  have meaning : (descOf b).genOk w = true ↔ w / 2 ^ 6 % 2 ^ 23 = 0 ∧ (w.testBit 29 = true → w / 2 ^ 30 % 4 = 3)
      ∧ ((genOf w).axes.length ∈ if w / 2 ^ 30 % 4 < 2 then [2, 3, 4, 5, 6] else if w / 2 ^ 30 % 4 = 2 then [2] else [1])
      ∧ (∀ a ∈ (genOf w).axes, a < blk b 32 8)
      ∧ (∀ a ∈ (genOf w).axes, (descOf b).extent a = (descOf b).extent ((genOf w).axes.headD 0))
      ∧ (w / 2 ^ 30 % 4 = 1 → (genOf w).axes.length ≤ (descOf b).extent ((genOf w).axes.headD 0)) := by
    rw [← neg, ← count, ← short]
    simp only [Desc.genOk, Bool.and_eq_true, List.all_eq_true, decide_eq_true_eq, beq_iff_eq, and_assoc]
    rfl
  rw [meaning, reserved]
  have named (h : (genOf w).axes.length ∈ if w / 2 ^ 30 % 4 < 2 then [2, 3, 4, 5, 6]
      else if w / 2 ^ 30 % 4 = 2 then [2] else [1]) : (genOf w).axes.headD 0 ∈ (genOf w).axes := by
    cases axes : (genOf w).axes with
    | nil => rw [axes] at h; split_ifs at h <;> simp at h
    | cons a l => exact List.mem_cons_self
  constructor
  · rintro ⟨h1, h2, h3, h4, h5, h6⟩
    have head := inside h4 _ (named h3)
    exact ⟨h1, h2, h3, fun a ha => ⟨h4 a ha, by rw [← inside h4 a ha, h5 a ha, head]⟩, fun k => head ▸ h6 k⟩
  · rintro ⟨h1, h2, h3, h4, h5⟩
    have below : ∀ a ∈ (genOf w).axes, a < blk b 32 8 := fun a ha => (h4 a ha).1
    have head := inside below _ (named h3)
    exact ⟨h1, h2, h3, below, fun a ha => by rw [inside below a ha, (h4 a ha).2, head], fun k => head.symm ▸ h5 k⟩

/-! ### Descriptors (R130, R132) -/

theorem disjointAxes_iff : ∀ l : List Gen, disjointAxes l = true ↔ l.Pairwise fun g h => ∀ a ∈ g.axes, a ∉ h.axes
  | [] => by simp [disjointAxes]
  | g :: l => by
    simp only [disjointAxes, Bool.and_eq_true, disjointAxes_iff l, List.pairwise_cons, List.all_eq_true, Bool.not_eq_true',
      List.contains_eq_mem, decide_eq_false_iff_not]

theorem length_filter_le_one_iff {α : Type} (p : α → Bool) : ∀ l : List α,
    (l.filter p).length ≤ 1 ↔ l.Pairwise fun x y => ¬ (p x = true ∧ p y = true)
  | [] => by simp
  | x :: l => by
    rw [List.pairwise_cons, ← length_filter_le_one_iff p l]
    cases h : p x with
    | false => simp [h]
    | true =>
      have none : (l.filter p).length = 0 ↔ ∀ y ∈ l, ¬ p y = true := by
        rw [List.length_eq_zero_iff, List.filter_eq_nil_iff]
      simp only [List.filter_cons, h, if_true, List.length_cons, true_and, ← none]
      omega

/-- A relation between the elements that a function gives, in order. -/
theorem pairwise_map_range {α : Type} {R : α → α → Prop} (f : Nat → α) (n : Nat) :
    ((List.range n).map f).Pairwise R ↔ ∀ i j, i < j → j < n → R (f i) (f j) := by
  rw [List.pairwise_map, List.pairwise_iff_getElem]
  simp only [List.length_range, List.getElem_range]
  exact ⟨fun h i j hij hj => h i j (by omega) hj hij, fun h i j _ hj hij => h i j hij hj⟩

theorem fmtSize_isSome_iff (c : Nat) : (fmtSize c).isSome = true ↔ c ∈ [3, 4, 6, 7, 8, 9, 10, 11, 12] := by
  unfold fmtSize
  split <;> simp_all

theorem descOk_iff (b : Block64) : descOk b = true ↔ DescLegal b := by
  have gens (few : blk b 48 8 ≤ 3) : (descOf b).gens = (List.range (blk b 48 8)).map fun n => genOf (blk b (256 + 32 * n) 32) := by
    rw [descOf, Nat.min_eq_left few]
  have extent (n : Nat) : (if n < (descOf b).rank then decide (1 ≤ blk b (64 + 32 * n) 32) && decide (blk b (64 + 32 * n) 32 ≤ 2097152)
      else blk b (64 + 32 * n) 32 == 0) = true
      ↔ if n < blk b 32 8 then 1 ≤ blk b (64 + 32 * n) 32 ∧ blk b (64 + 32 * n) 32 ≤ 2097152 else blk b (64 + 32 * n) 32 = 0 := by
    change (if n < blk b 32 8 then _ else _) = true ↔ _
    split <;> simp
  have word (rank : blk b 32 8 ≤ 6) (n : Nat) : (if n < blk b 48 8 then (descOf b).genOk (blk b (256 + 32 * n) 32)
      else blk b (256 + 32 * n) 32 == 0) = true
      ↔ if n < blk b 48 8 then GenLegal (blk b 32 8) (fun a => blk b (64 + 32 * a) 32) (blk b (256 + 32 * n) 32)
        else blk b (256 + 32 * n) 32 = 0 := by
    rw [← genOk_iff b rank]
    split <;> simp
  simp only [descOk, Bool.and_eq_true, List.all_eq_true, List.mem_range, decide_eq_true_eq, beq_iff_eq, and_assoc,
    fmtSize_isSome_iff, disjointAxes_iff, length_filter_le_one_iff, extent]
  constructor
  · rintro ⟨rank, rank', fmt, few, zero, zero', extents, words, disjoint, circ, place⟩
    rw [gens few, pairwise_map_range] at disjoint circ
    exact ⟨⟨rank, rank'⟩, fmt, few, ⟨zero, zero'⟩, extents, fun n hn => (word rank' n).1 (words n hn),
      fun m n a hmn hn => disjoint m n hmn hn a, circ, place⟩
  · rintro ⟨⟨rank, rank'⟩, fmt, few, ⟨zero, zero'⟩, extents, words, disjoint, circ, place⟩
    rw [gens few, pairwise_map_range, pairwise_map_range]
    exact ⟨rank, rank', fmt, few, zero, zero', extents, fun n hn => (word rank' n).2 (words n hn),
      fun m n hmn hn a => disjoint m n a hmn hn, circ, place⟩

end Sys2Proof.Machine
end

section
namespace Sys2Proof.Machine

/-! ### What the orbit unit and the address unit change -/

/-- A change of a core's orbit unit, scratchpad port, scratchpad bytes and held writes alone. -/
def OrbitChange (f : Core → Core) : Prop := ∀ c, { f c with
  scr := c.scr, held := c.held, orbFree := c.orbFree, portFree := c.portFree } = c

theorem OrbitChange.ctxs {f : Core → Core} (h : OrbitChange f) (c : Core) : (f c).ctxs = c.ctxs := (congrArg Core.ctxs (h c) :)
theorem OrbitChange.ops {f : Core → Core} (h : OrbitChange f) (c : Core) : (f c).ops = c.ops := (congrArg Core.ops (h c) :)
theorem OrbitChange.lid {f : Core → Core} (h : OrbitChange f) (c : Core) : (f c).lid = c.lid := (congrArg Core.lid (h c) :)

theorem OrbitChange.comp {f g : Core → Core} (hf : OrbitChange f) (hg : OrbitChange g) : OrbitChange fun c => g (f c) := fun c => by
  have e := congrArg (fun x : Core => { x with
    scr := c.scr, held := c.held, orbFree := c.orbFree, portFree := c.portFree }) (hg (f c))
  exact e.trans (hf c)

/-- The unit is busy up to a cycle. -/
def Core.busy (c : Core) (til : Nat) : Core := { c with orbFree := til }

theorem busy_orbitChange (til : Nat) : OrbitChange fun c => c.busy til := fun _ => rfl

theorem useUnit_eq (s : State) (n : Nat) (hn : 1 ≤ n) : s.useUnit n = s.modMyCore fun c => c.busy (s.cycle + n) := by
  rw [State.useUnit, Nat.max_eq_right hn]
  rfl

/-- The core of an operation issued behind a change of it. -/
theorem modMyCore_issued {s u : State} {f : Core → Core} (h : UnitsKept (s.modMyCore f) u) :
    { u.core s.cur with ctxs := (f (s.core s.cur)).ctxs, ops := (f (s.core s.cur)).ops } = f (s.core s.cur) := by
  have core : (s.modMyCore f).core s.cur = f (s.core s.cur) := State.core_modCore_self ..
  rw [UnitsKept, State.modMyCore_cur, core] at h
  exact h

section
variable {s : State} {f : Core → Core} (hf : OrbitChange f)
include hf

theorem OrbitChange.ctx (k : Nat) (j : Fin 4) : (s.modMyCore f).ctx k j = s.ctx k j := by
  have ctxs : ((s.modMyCore f).core k).ctxs = (s.core k).ctxs := by
    rw [State.modMyCore, State.core_modCore]
    split
    · next h => rw [hf.ctxs, h]
    · rfl
  exact congrArg (fun x : Vector Ctx 4 => x[j]) ctxs

theorem OrbitChange.me : (s.modMyCore f).me = s.me := hf.ctx s.cur s.cix

theorem OrbitChange.alone {u : State} (h : Alone (s.modMyCore f) u) : Alone s u where
  package := congrArg (fun p : State => { p with cores := s.cores }) h.package
  cores := fun k hk => (h.cores k hk).trans (State.core_modCore_ne s hk f)
  others := fun j hj => (h.others j hj).trans (hf.ctx s.cur j)

/-- An operation issued behind such a change. -/
theorem OrbitChange.issue {u : State} {op : Op} {r : Regs} {w : Wait} {due : Nat} {ev : Instr}
    (h : OperationStep (s.modMyCore f) u op r w due ev) : OperationStep s u op r w due ev where
  alone := hf.alone h.alone
  number := h.number
  agenda := h.agenda
  ops := h.ops.trans (congrArg (· ++ [op]) ((congrArg Core.ops (State.core_modCore_self s s.cur f)).trans (hf.ops _)))
  regs := h.regs
  counters := fun k => by rw [h.counters, hf.me]
  ctx := by
    have kept := h.ctx
    rw [hf.me] at kept
    exact kept
  waits := h.waits
  awaited := fun c x => by rw [h.awaited, hf.me]

theorem OrbitChange.units {u : State} (h : UnitsKept (s.modMyCore f) u) : UnitsKeptButOrbit s u := by
  have issued := congrArg (fun c : Core => { c with
    ctxs := (s.core s.cur).ctxs, ops := (s.core s.cur).ops, scr := (s.core s.cur).scr, held := (s.core s.cur).held
    orbFree := (s.core s.cur).orbFree, portFree := (s.core s.cur).portFree }) (modMyCore_issued h)
  have changed := congrArg (fun c : Core => { c with ctxs := (s.core s.cur).ctxs, ops := (s.core s.cur).ops }) (hf (s.core s.cur))
  exact issued.trans changed

theorem OrbitChange.getLoc (scr : ∀ c, (f c).scr = c.scr) : SameBytes s (s.modMyCore f) := by
  have core (k : Nat) : ((s.modMyCore f).core k).scr = (s.core k).scr ∧ ((s.modMyCore f).core k).lid = (s.core k).lid := by
    rw [State.modMyCore, State.core_modCore]
    split
    · next h => rw [scr, hf.lid, h]; exact ⟨rfl, rfl⟩
    · exact ⟨rfl, rfl⟩
  intro l
  cases l with
  | mem a => rfl
  | scr n o => exact congrArg (fun m => cget m o) (core n).1
  | lid n o => exact congrArg (fun m => cget m o) (core n).2

end

/-! ### ORBLD.d (R140) -/

section
variable (s : State) (o : Fin 8) (x : Fin 32) (imm : BitVec 19)

theorem orbOff_eq : s.orbOff x imm.toNat = ((s.rs x).toNat + 64 * imm.toNat) % 2 ^ 22 / 64 * 64 := by
  rw [State.orbOff, State.scrOff, alignDown_mod _ 64 _ (by decide), Nat.mul_comm imm.toNat]

/-- The state that ORBLD.d leaves, but for its wait. -/
def State.descrIssued (s : State) (o : Fin 8) (off : Nat) : State :=
  (s.modMyCore fun c => c.busy (s.cycle + 1)).issueOp (some .ld) kLd [] [.o o] (.descr o (ofLe 512 (s.scrBytes s.cur off 64)))
    (s.cycle + 12) (.loadWriteback s.cur)

theorem exec_orbldD (allowed : s.OwnAllowed engLsu false (s.orbOff x imm.toNat) 64) :
    exec (.orbldD o x imm) s = .next (s.descrIssued o (s.orbOff x imm.toNat)).asks := by
  have meaning : exec (.orbldD o x imm) s = execOrbldD o x imm s := rfl
  rw [meaning, execOrbldD, (ownOk_eq_go s).2 allowed, guard_go]
  dsimp only
  rw [useUnit_eq s 1 le_rfl]
  rfl

end

/-! ### The check of a descriptor (R140, R245) -/

theorem landOp_eq (c : Ctx) (id : Nat) (f : Regs → Regs) :
    c.landOp id f = { c with regs := f c.regs, snap := if c.running id then c.snap else c.snap.map f } := by
  unfold Ctx.landOp
  split
  · rfl
  · rfl

/-- An operation's context once it has retired. -/
def State.retiredFor (s : State) (core : Nat) (op : Op) : State := { s.retireOp core op with cur := core, cix := op.ctx }

theorem retiredFor_me (s : State) (core : Nat) (op : Op) : (s.retiredFor core op).me = (s.ctx core op.ctx).retired op :=
  retireOp_ctx s core op

theorem retiredFor_ops (s : State) (core : Nat) (op : Op) :
    ((s.retiredFor core op).core core).ops = (s.core core).ops.filter fun o => o.id != op.id := (retireOp_retired s core op).ops

theorem retiredFor_bytes (s : State) (core : Nat) (op : Op) : SameBytes s (s.retiredFor core op) := fun l => by
  rw [← retireOp_bytes s core op l]
  cases l <;> rfl

theorem modMe_bytes (s : State) (f : Ctx → Ctx) : SameBytes s (s.modMe f) := by
  have core (k : Nat) : ((s.modMe f).core k).scr = (s.core k).scr ∧ ((s.modMe f).core k).lid = (s.core k).lid := by
    rw [State.modMe, State.core_modCtx]
    split
    · next h => rw [h]; exact ⟨rfl, rfl⟩
    · exact ⟨rfl, rfl⟩
  intro l
  cases l with
  | mem a => rfl
  | scr n o => exact congrArg (fun m => cget m o) (core n).1
  | lid n o => exact congrArg (fun m => cget m o) (core n).2

theorem Ctx.retired_running (c : Ctx) (op : Op) (id : Nat) : (c.retired op).running id = c.running id := by
  have entry : (c.retired op).entry = c.entry := (congrArg Ctx.entry (c.retired_rest op) :)
  rw [Ctx.running, entry]
  rfl

/-- What an operation writes as it retires has landed. -/
theorem opLanded_of_landOp {s t : State} {core : Nat} {op : Op} {f : Regs → Regs} {shows : Regs → Regs → Prop}
    (h : t.ctx core op.ctx = ((s.ctx core op.ctx).retired op).landOp op.id f) (hf : ∀ r, shows r (f r)) :
    OpLanded s t core op shows := by
  rw [OpLanded, LandedBut, h, landOp_eq, Ctx.retired_running, Ctx.retired_regs, Ctx.retired_snap]
  refine ⟨hf _, ?_, fun r r' before after => ?_⟩
  · dsimp only
    split <;> simp
  · dsimp only at after
    rw [before] at after
    split at after
    · next undone =>
      cases after
      rw [if_pos undone]
    · next settled =>
      cases after
      rw [if_neg settled]
      exact hf r

/-- An operation that writes no register leaves them. -/
theorem opLanded_of_retired {s t : State} {core : Nat} {op : Op} (h : t.ctx core op.ctx = (s.ctx core op.ctx).retired op) :
    OpLanded s t core op fun r r' => r' = r := by
  rw [OpLanded, LandedBut, h, Ctx.retired_regs, Ctx.retired_snap]
  refine ⟨rfl, rfl, fun r r' before after => ?_⟩
  rw [before] at after
  cases after
  exact ite_self _ ▸ rfl

theorem ctr_landOp (c : Ctx) (id : Nat) (f : Regs → Regs) (k : Ctr) : (c.landOp id f).ctr k = c.ctr k := by
  rw [landOp_eq]
  cases k <;> rfl

section
variable {s : State} {core id : Nat} {op : Op} {o : Fin 8} {b : Block64} (found : (s.core core).op id = some op)
  (what : op.what = .descr o b)
include found what

theorem exec_loadWriteback_descr : exec (.loadWriteback core id) s = .next (s.landDescr core op o b) := by
  have meaning : exec (.loadWriteback core id) s = execLoadWriteback core id s := rfl
  rw [meaning, execLoadWriteback, found]
  dsimp only
  rw [what]

end

theorem descr_lands_iff (b : Block64) : (b = 0 || descOk b) = true ↔ b = 0 ∨ DescLegal b := by
  rw [Bool.or_eq_true, decide_eq_true_eq, descOk_iff]

theorem landDescr_legal {s : State} {core : Nat} {op : Op} {o : Fin 8} {b : Block64} (h : b = 0 ∨ DescLegal b) :
    s.landDescr core op o b = ((s.retiredFor core op).modMe fun c => c.landOp op.id fun r => r.wo o b).checkDone 2 none := by
  rw [State.landDescr, if_pos ((descr_lands_iff b).2 h)]
  rfl

theorem landDescr_malformed {s : State} {core : Nat} {op : Op} {o : Fin 8} {b : Block64} (h : ¬ (b = 0 ∨ DescLegal b)) :
    s.landDescr core op o b = (s.retiredFor core op).checkDone 2 (some (.orbitRange, 1)) := by
  rw [State.landDescr, if_neg (mt (descr_lands_iff b).1 h)]
  rfl

end Sys2Proof.Machine

open Sys2Proof Sys2Proof.Machine

/-- Settles O20: the checks of a descriptor are R130 to R132, clause by clause; ORBLD.d reads its block at issue, and what
LOAD_WRITEBACK finds of it lands or fails the check. -/
theorem descriptorsAreChecked : Obligations.DescriptorsAreChecked := by
  unfold Obligations.DescriptorsAreChecked
  refine ⟨descOk_iff, fun s o x imm => ?_, fun s core id op o b found what => ?_⟩
  · rw [← orbOff_eq]
    intro off allowed
    have change := busy_orbitChange (s.cycle + 1)
    refine ⟨_, exec_orbldD s o x imm allowed, change.units (issueOp_units ..), fun l => ?_, ?_,
      modMyCore_issueOp_step s _ change.ctxs change.ops ..⟩
    · exact (issueOp_bytes _ _ _ _ _ _ _ _ l).trans (change.getLoc (fun _ => rfl) l)
    · exact congrArg Core.orbFree (modMyCore_issued (issueOp_units ..))
  · rw [exec_loadWriteback_descr found what]
    by_cases legal : b = 0 ∨ DescLegal b
    · refine ⟨(s.retiredFor core op).modMe fun c => c.landOp op.id fun r => r.wo o b, rfl, rfl, ?_,
        fun l => (modMe_bytes _ _ l).trans (retiredFor_bytes s core op l), fun k => ?_,
        fun _ => ⟨congrArg Host.Outcome.next (landDescr_legal legal), ?_⟩, fun h => absurd legal h⟩
      · have kept := State.core_modCtx_rest (s.retiredFor core op) core core op.ctx fun c => c.landOp op.id fun r => r.wo o b
        exact (congrArg Core.ops kept).trans (retiredFor_ops s core op)
      · rw [State.me_modMe, ctr_landOp, retiredFor_me, Ctx.retired_ctr]
      · exact opLanded_of_landOp ((State.me_modMe ..).trans (by rw [retiredFor_me])) fun r => ⟨r.keeps_wo o b, r.wo_self o b⟩
    · refine ⟨s.retiredFor core op, rfl, rfl, retiredFor_ops s core op, retiredFor_bytes s core op, fun k => ?_,
        fun h => absurd h legal, fun _ => ⟨congrArg Host.Outcome.next (landDescr_malformed legal), ?_⟩⟩
      · rw [retiredFor_me, Ctx.retired_ctr]
      · exact opLanded_of_retired (retiredFor_me s core op)

end

section
namespace Sys2Proof.Machine

/-! ### Sizes, tuples and windows (R130, R135, R137) -/

theorem Desc.size_cases (d : Desc) : d.size = 1 ∨ d.size = 2 ∨ d.size = 4 ∨ d.size = 8 := by
  unfold Desc.size fmtSize
  split <;> simp

theorem Desc.size_pos (d : Desc) : 0 < d.size := by
  rcases d.size_cases with h | h | h | h <;> omega

/-- A lane of 16 bytes is full of elements. -/
theorem Desc.size_mul_perLane (d : Desc) : d.size * d.perLane = 16 := by
  unfold Desc.perLane
  rcases d.size_cases with h | h | h | h <;> rw [h]

theorem Desc.perLane_pos (d : Desc) : 0 < d.perLane :=
  Nat.pos_of_ne_zero fun h => by
    have full := d.size_mul_perLane
    rw [h] at full
    omega

theorem length_ext_descOf (b : Block64) : (descOf b).ext.length = min (descOf b).rank 6 := by
  simp [descOf]

theorem length_tuple (s : State) (d : Desc) (x y : Fin 32) : (s.tuple d x y).length = min d.rank 6 := by
  simp [State.tuple]

/-- A tensor of which some tuple is inside has at most six axes. -/
theorem TupleInside.rank_le {b : Block64} {t : List Nat} (h : TupleInside (descOf b) t) : (descOf b).rank ≤ 6 := by
  by_contra above
  have beyond : (descOf b).ext.length ≤ 6 := (length_ext_descOf b).le.trans (Nat.min_le_right ..)
  have none : (descOf b).extent 6 = 0 := List.getD_eq_default _ _ beyond
  have := h 6 (by omega)
  omega

section
variable {d : Desc} {t : List Nat} (ext : d.ext.length = d.rank) (len : t.length = d.rank)
include ext len

theorem getElem?_zip_ext {k : Nat} (hk : k < d.rank) : (t.zip d.ext)[k]? = some (t.getD k 0, d.extent k) := by
  have ht : k < t.length := len ▸ hk
  have he : k < d.ext.length := ext ▸ hk
  rw [List.getElem?_zip_eq_some, Desc.extent, List.getD_eq_getElem _ _ ht, List.getD_eq_getElem _ _ he]
  exact ⟨List.getElem?_eq_getElem ht, List.getElem?_eq_getElem he⟩

theorem length_zip_ext : (t.zip d.ext).length = d.rank := by
  rw [List.length_zip, ext, len, Nat.min_self]

theorem inside_iff : d.inside t = true ↔ TupleInside d t := by
  rw [Desc.inside, List.all_eq_true, List.forall_mem_iff_getElem]
  simp only [length_zip_ext ext len, decide_eq_true_eq]
  refine forall₂_congr fun k hk => ?_
  have element := getElem?_zip_ext ext len hk
  rw [List.getElem?_eq_getElem (by rwa [length_zip_ext ext len])] at element
  rw [Option.some.inj element]

/-- R141, R144: a tuple inside the extents goes. -/
theorem rangeOk_go (inside : TupleInside d t) : d.rangeOk t = .go := by
  have none : ((t.zip d.ext).findIdx? fun (x, n) => decide (n ≤ x)) = none := by
    rw [List.findIdx?_eq_none_iff]
    intro x hx
    have below := List.all_eq_true.1 ((inside_iff ext len).2 inside) x hx
    simpa using below
  rw [Desc.rangeOk, none]

/-- Of several axes out of range the lowest is reported (log 92). -/
theorem rangeOk_trap {k : Nat} (hk : k < d.rank) (below : ∀ j, j < k → t.getD j 0 < d.extent j) (out : d.extent k ≤ t.getD k 0) :
    d.rangeOk t = .trap .orbitRange (orbitInfo 3 k) := by
  have found : ((t.zip d.ext).findIdx? fun (x, n) => decide (n ≤ x)) = some k := by
    have element {j : Nat} (hj : j < d.rank) : (t.zip d.ext)[j]'(by rwa [length_zip_ext ext len]) = (t.getD j 0, d.extent j) := by
      have element := getElem?_zip_ext ext len hj
      rw [List.getElem?_eq_getElem (by rwa [length_zip_ext ext len])] at element
      exact Option.some.inj element
    rw [List.findIdx?_eq_some_iff_getElem]
    refine ⟨by rwa [length_zip_ext ext len], ?_, fun j hj => ?_⟩
    · rw [element hk]
      exact decide_eq_true out
    · rw [element (hj.trans hk)]
      simpa using below j hj
  rw [Desc.rangeOk, found]

end

/-- A position has one tuple at most. -/
theorem WindowTuple.unique {d : Desc} {orig t u : List Nat} {r c : Nat} (ht : WindowTuple d orig r c t)
    (hu : WindowTuple d orig r c u) : t = u := by
  refine List.ext_getElem (ht.1.trans hu.1.symm) fun k hk hk' => ?_
  rw [← List.getD_eq_getElem _ 0 hk, ← List.getD_eq_getElem _ 0 hk', ht.2.2 k (ht.1 ▸ hk), hu.2.2 k (ht.1 ▸ hk)]

/-- The tuple at a position, in the terms of R137. -/
theorem posTuple_eq_some_iff {d : Desc} {orig t : List Nat} (len : orig.length = d.rank) (r c : Nat) :
    d.posTuple orig r c = some t ↔ WindowTuple d orig r c t := by
  have moved : (d.rank = 1 → r = 0) → ∃ u, d.posTuple orig r c = some u ∧ WindowTuple d orig r c u := fun lane => by
    unfold Desc.posTuple WindowTuple
    by_cases one : d.rank = 1
    · obtain ⟨x, rfl⟩ := List.length_eq_one_iff.1 (len.trans one)
      refine ⟨[x + c], by simp [one, lane one], by simp [one], lane, fun k hk => ?_⟩
      obtain rfl : k = 0 := by omega
      simp [one]
    · refine ⟨_, if_neg one, by rw [List.length_set, List.length_set, len], lane, fun k hk => ?_⟩
      simp only [List.getD_eq_getElem?_getD, List.getElem?_set, List.length_set]
      rcases Nat.lt_trichotomy (k + 2) d.rank with h | h | h
      · rw [if_neg (by omega), if_neg (by omega), if_neg (by omega), if_neg (by omega), Nat.add_zero]
      · obtain rfl : k = d.rank - 2 := by omega
        rw [if_neg (by omega), if_pos rfl, if_pos (by omega), if_neg (by omega), if_pos h]
        rfl
      · obtain rfl : k = d.rank - 1 := by omega
        rw [if_pos rfl, if_pos (by omega), if_pos (by omega)]
        rfl
  constructor
  · intro h
    have lane : d.rank = 1 → r = 0 := fun one => by
      by_contra off
      simp [Desc.posTuple, one, off] at h
    obtain ⟨u, hu, window⟩ := moved lane
    rw [hu] at h
    exact Option.some.inj h ▸ window
  · intro h
    obtain ⟨u, hu, window⟩ := moved h.2.1
    rw [hu, window.unique h]

theorem orbitRep_sign (d : Desc) (t : List Nat) : (d.orbitRep t).sign = 0 ∨ (d.orbitRep t).sign = 1 ∨ (d.orbitRep t).sign = -1 := by
  unfold Desc.orbitRep
  dsimp only
  split
  · exact .inl rfl
  · split
    · exact .inr (.inr rfl)
    · exact .inr (.inl rfl)

/-! ### The checks of orbit words (R146, R147) -/

@[simp] theorem Verdict.trap_and (c : Cause) (i : Word) (v : Verdict) : (Verdict.trap c i).and v = .trap c i := rfl

theorem firstBad_go {f : Nat → Verdict} : ∀ {l : List Nat}, (∀ p ∈ l, f p = .go) → firstBad l f = .go
  | [], _ => rfl
  | p :: l, h => by
    have rest : firstBad l f = .go := firstBad_go fun q hq => h q (List.mem_cons_of_mem p hq)
    rw [firstBad, List.foldl_cons]
    dsimp only
    rw [h p List.mem_cons_self]
    exact rest

section
variable {s : State} {eng size : Nat} {rd wr : List Nat}

theorem elemsOk_go (reads : ∀ p ∈ rd, s.OwnAllowed eng false p size) (writes : ∀ p ∈ wr, s.OwnAllowed eng true p size) :
    s.elemsOk eng size rd wr = .go := by
  have held : firstBad (rd ++ wr) (fun p => s.ownHeld p size) = .go := firstBad_go fun p hp =>
    (ownHeld_eq_go s).2 ((List.mem_append.1 hp).elim (fun h => (reads p h).1) fun h => (writes p h).1)
  have read : firstBad rd (fun p => s.escape eng false none p size) = .go := firstBad_go fun p hp =>
    (escape_eq_go s).2 (reads p hp).2
  have written : firstBad wr (fun p => s.escape eng true none p size) = .go := firstBad_go fun p hp =>
    (escape_eq_go s).2 (writes p hp).2
  rw [State.elemsOk, held, read, written]
  rfl

theorem orbitOk_go {o : Fin 8} (rank : (descOf (s.oreg o)).rank ≠ 0) : s.orbitOk o = .go :=
  trapIf_eq_go.2 (beq_eq_false_iff_ne.2 rank)

theorem orbitOk_trap {o : Fin 8} (rank : (descOf (s.oreg o)).rank = 0) : s.orbitOk o = .trap .orbitRange 2 := by
  rw [State.orbitOk, rank]
  rfl

end
end Sys2Proof.Machine
end

section
namespace Sys2Proof.Machine

/-! ### The tile of a window (R137, R142) -/

/-- The positions of a window, numbered row by row. -/
theorem positions_eq (d : Desc) :
    d.positions = (List.range (128 * d.perLane)).map fun k => (k / d.perLane, k % d.perLane) := by
  unfold Desc.positions
  generalize d.perLane = e at *
  generalize 128 = m
  induction m with
  | zero => simp
  | succ m ih =>
    rw [List.range_succ, List.flatMap_append, ih, Nat.succ_mul, List.range_add, List.map_append, List.map_map]
    rw [List.flatMap_singleton]
    refine congrArg _ (List.map_congr_left fun c hc => ?_)
    have below : c < e := List.mem_range.1 hc
    have pos : 0 < e := by omega
    simp only [Function.comp_apply, Nat.mul_comm m e, Nat.mul_add_div pos, Nat.div_eq_of_lt below,
      Nat.add_zero, Nat.mul_add_mod, Nat.mod_eq_of_lt below]

theorem packElems_append (w x : Nat) : ∀ l : List Nat,
    packElems w (l ++ [x]) = packElems w l + x % 2 ^ w * 2 ^ (w * l.length)
  | [] => by simp [packElems]
  | y :: l => by
    rw [List.cons_append, packElems_cons, packElems_append w x l, packElems_cons, List.length_cons, Nat.mul_succ, Nat.pow_add]
    ring

/-- Elements added at their places are packed. -/
theorem foldl_packElems (w : Nat) {f : Nat → Nat} (fits : ∀ k, f k < 2 ^ w) : ∀ n : Nat,
    (List.range n).foldl (fun acc k => acc + f k * 2 ^ (w * k)) 0 = packElems w ((List.range n).map f)
  | 0 => rfl
  | n + 1 => by
    rw [List.range_succ, List.foldl_append, foldl_packElems w fits n, List.map_append, List.map_singleton, packElems_append,
      Nat.mod_eq_of_lt (fits n), List.length_map, List.length_range]
    rfl

section
variable (s : State) (d : Desc) (orig : List Nat)

/-- What ORBLD writes at a position of its tile (R142). -/
def State.windowElem (r c : Nat) : Nat :=
  match d.posTuple orig r c with
  | some t => if d.inside t then s.orbitElem d (d.orbitRep t) else 0
  | none => 0

theorem leVal_scrBytes_lt (core off n : Nat) : leVal (s.scrBytes core off n) < 2 ^ (8 * n) := by
  have bound := leVal_lt (s.scrBytes core off n)
  rwa [State.scrBytes, length_cgetN] at bound

theorem negElem_lt (fmt : Nat) {w v : Nat} (hw : 0 < w) (hv : v < 2 ^ w) : negElem fmt w v < 2 ^ w := by
  unfold negElem
  split
  · exact Nat.xor_lt_two_pow hv (Nat.pow_lt_pow_right (by decide) (by omega))
  · exact Nat.mod_lt _ (Nat.two_pow_pos w)

theorem orbitElem_lt (r : Rep) : s.orbitElem d r < 2 ^ (8 * d.size) := by
  have stored : s.packedElem d r.off < 2 ^ (8 * d.size) := leVal_scrBytes_lt ..
  unfold State.orbitElem
  split
  · exact Nat.two_pow_pos _
  · dsimp only
    split
    · exact negElem_lt _ (Nat.mul_pos (by decide) d.size_pos) stored
    · exact stored

theorem windowElem_lt (r c : Nat) : s.windowElem d orig r c < 2 ^ (8 * d.size) := by
  unfold State.windowElem
  split
  · split
    · exact orbitElem_lt ..
    · exact Nat.two_pow_pos _
  · exact Nat.two_pow_pos _

/-- The bit of element c of lane r. -/
theorem elem_place (d : Desc) (r c : Nat) : 128 * r + 8 * d.size * c = 8 * d.size * (r * d.perLane + c) := by
  have full := d.size_mul_perLane
  calc 128 * r + 8 * d.size * c = 8 * (d.size * d.perLane) * r + 8 * d.size * c := by rw [full]
    _ = 8 * d.size * (r * d.perLane + c) := by ring

/-- The window's elements, added at their places. -/
theorem foldl_window : (d.window orig).foldl (fun acc (p, r) => acc + s.orbitElem d r * 2 ^ (128 * p.1 + 8 * d.size * p.2)) 0
    = packElems (8 * d.size) ((List.range (128 * d.perLane)).map fun k => s.windowElem d orig (k / d.perLane) (k % d.perLane)) := by
  rw [← foldl_packElems _ (fun k => windowElem_lt ..), Desc.window, List.foldl_filterMap, positions_eq, List.foldl_map]
  congr 1
  funext acc k
  have place := elem_place d (k / d.perLane) (k % d.perLane)
  rw [Nat.div_add_mod' k] at place
  unfold State.windowElem
  dsimp only
  cases d.posTuple orig (k / d.perLane) (k % d.perLane) with
  | none => simp
  | some t =>
    by_cases inside : d.inside t = true
    · simp [inside, place]
    · simp [inside]

theorem orbldTile_elem (a b : Fin 32) {r c : Nat} (hr : r < 128) (hc : c < d.perLane) :
    d.tileElem (s.orbldTile d a b) r c = s.windowElem d (s.tuple d a b) r c := by
  have full := d.size_mul_perLane
  have index : r * d.perLane + c < 128 * d.perLane := by
    calc r * d.perLane + c < (r + 1) * d.perLane := by rw [Nat.succ_mul]; omega
      _ ≤ 128 * d.perLane := Nat.mul_le_mul_right _ hr
  have fits : 8 * d.size * (128 * d.perLane) = 16384 := by
    calc 8 * d.size * (128 * d.perLane) = 1024 * (d.size * d.perLane) := by ring
      _ = 16384 := by rw [full]
  have lane : (r * d.perLane + c) / d.perLane = r := by
    rw [Nat.mul_comm, Nat.mul_add_div d.perLane_pos, Nat.div_eq_of_lt hc, Nat.add_zero]
  have element : (r * d.perLane + c) % d.perLane = c := by
    rw [Nat.mul_comm, Nat.mul_add_mod, Nat.mod_eq_of_lt hc]
  rw [Desc.tileElem, State.orbldTile, foldl_window, BitVec.extractLsb'_toNat, Nat.shiftRight_eq_div_pow,
    toNat_packElems (by rw [List.length_map, List.length_range, fits]), elem_place, packElems_elem,
    List.getD_eq_getElem _ _ (by simpa using index), List.getElem_map, List.getElem_range, lane, element,
    Nat.mod_eq_of_lt (windowElem_lt ..)]

end

section
variable {s : State} {d : Desc} {orig : List Nat} (ext : d.ext.length = d.rank) (len : orig.length = d.rank) {r c : Nat}
include ext len

theorem windowElem_inside {t : List Nat} (window : WindowTuple d orig r c t) (inside : TupleInside d t) :
    s.windowElem d orig r c = orbitValue s d t := by
  rw [State.windowElem, (posTuple_eq_some_iff len r c).2 window]
  dsimp only
  rw [if_pos ((inside_iff ext window.1).2 inside)]
  rfl

theorem windowElem_outside (out : ∀ t, WindowTuple d orig r c t → ¬ TupleInside d t) : s.windowElem d orig r c = 0 := by
  unfold State.windowElem
  cases found : d.posTuple orig r c with
  | none => rfl
  | some t =>
    have window := (posTuple_eq_some_iff len r c).1 found
    exact if_neg (mt (inside_iff ext window.1).1 (out t window))

/-- A window holds the positions of its tuples inside the extents. -/
theorem mem_window {x : (Nat × Nat) × Rep} (hx : x ∈ d.window orig) : ∃ t, x.1.1 < 128 ∧ x.1.2 < d.perLane
    ∧ WindowTuple d orig x.1.1 x.1.2 t ∧ TupleInside d t ∧ x.2 = d.orbitRep t := by
  rw [Desc.window, List.mem_filterMap] at hx
  obtain ⟨⟨r, c⟩, place, found⟩ := hx
  dsimp only at found
  cases tuple : d.posTuple orig r c with
  | none =>
    rw [tuple] at found
    exact absurd found (by simp)
  | some t =>
    rw [tuple, Option.ite_none_right_eq_some, Option.some.injEq] at found
    obtain ⟨inside, rfl⟩ := found
    have window := (posTuple_eq_some_iff len r c).1 tuple
    obtain ⟨r', hr, c', hc, e⟩ : ∃ r', r' < 128 ∧ ∃ c', c' < d.perLane ∧ (r', c') = (r, c) := by
      simpa [Desc.positions] using place
    cases e
    exact ⟨t, hr, hc, window, (inside_iff ext window.1).1 inside, rfl⟩

end

/-! ### ORBLD, tile form (R135, R142) -/

section
variable {s : State} {o : Fin 8} {a b : Fin 32} {d : Desc} (desc : descOf (s.oreg o) = d)

/-- ORBLD may read its window's elements. -/
def State.WindowAllowed (s : State) (d : Desc) (orig : List Nat) : Prop :=
  ∀ r c t, r < 128 → c < d.perLane → WindowTuple d orig r c t → TupleInside d t → (d.orbitRep t).sign ≠ 0 →
    s.OwnAllowed engLsu false (d.base + (d.orbitRep t).off * d.size) d.size

theorem orbldReads_allowed (ext : d.ext.length = d.rank) (len : (s.tuple d a b).length = d.rank)
    (allowed : s.WindowAllowed d (s.tuple d a b)) {p : Nat} (hp : p ∈ s.orbldReads d a b) :
    s.OwnAllowed engLsu false p d.size := by
  rw [State.orbldReads, List.mem_filterMap] at hp
  obtain ⟨x, hx, found⟩ := hp
  dsimp only at found
  rw [Option.ite_none_left_eq_some, Option.some.injEq] at found
  obtain ⟨sign, rfl⟩ := found
  obtain ⟨t, hr, hc, window, inside, rep⟩ := mem_window ext len hx
  rw [rep] at sign ⊢
  exact allowed _ _ t hr hc window inside sign

include desc

theorem orbldOk_go (rank : d.rank ≠ 0) (few : d.rank ≤ 6) (allowed : s.WindowAllowed d (s.tuple d a b)) :
    s.orbldOk o a b = .go := by
  subst desc
  have ext := (length_ext_descOf (s.oreg o)).trans (Nat.min_eq_left few)
  have len := (length_tuple s (descOf (s.oreg o)) a b).trans (Nat.min_eq_left few)
  rw [State.orbldOk, orbitOk_go rank, Verdict.go_and]
  exact elemsOk_go (fun p => orbldReads_allowed ext len allowed) fun p hp => absurd hp List.not_mem_nil

/-- The state that ORBLD leaves: its tile written, and awaited while its bytes pass. -/
def State.windowLoaded (s : State) (x : Fin 16) (tile : Tile) (n : Nat) : State :=
  ((s.modMyCore fun c => c.busy (s.cycle + n)).wr fun r => r.wt x tile).issueOp (some .ld) kLd [] [.t x] .settled
    (s.cycle + 12 + n) (.loadWriteback s.cur)

theorem exec_orbldTile (x : Fin 16) (go : s.orbldOk o a b = .go) :
    exec (.orbldTile x o a b) s = .next (s.windowLoaded x (s.orbldTile d a b) (8 * d.perLane)) := by
  subst desc
  have meaning : exec (.orbldTile x o a b) s = execOrbldTile x o a b s := rfl
  have busy : 1 ≤ 8 * (descOf (s.oreg o)).perLane := by have := (descOf (s.oreg o)).perLane_pos; omega
  rw [meaning, execOrbldTile, go, guard_go]
  dsimp only
  rw [useUnit_eq s _ busy]
  rfl

omit desc in
theorem orbldTile_traps {x : Fin 16} {c : Cause} {i : Word} (alone : s.me.snap = none) (h : s.orbldOk o a b = .trap c i) :
    exec (.orbldTile x o a b) s = .next (s.takeTrap c i) :=
  (show exec (.orbldTile x o a b) s = execOrbldTile x o a b s from rfl).trans (guard_traps alone h _)

omit desc in
theorem windowLoaded_step (s : State) (x : Fin 16) (tile : Tile) (n : Nat) :
    UnitsKeptButOrbit s (s.windowLoaded x tile n) ∧ SameBytes s (s.windowLoaded x tile n)
      ∧ OperationStep s (s.windowLoaded x tile n) (loadOp s (.t x) .settled) (s.me.regs.wt x tile) s.me.wait (s.cycle + 12 + n)
          (.loadWriteback s.cur s.nextOp) := by
  have change := busy_orbitChange (s.cycle + n)
  have units := (wr_units (s.modMyCore fun c => c.busy (s.cycle + n)) fun r => r.wt x tile).trans
    (issueOp_units _ (some .ld) kLd [] [.t x] .settled (s.cycle + 12 + n) (.loadWriteback s.cur)) rfl
  have step := wr_issueOp_step (s.modMyCore fun c => c.busy (s.cycle + n)) (fun r => r.wt x tile) (some .ld) kLd [] [.t x] .settled
    (s.cycle + 12 + n) (.loadWriteback s.cur)
  rw [change.me] at step
  refine ⟨change.units units, fun l => ?_, change.issue step⟩
  exact (issueOp_bytes _ _ _ _ _ _ _ _ l).trans ((modMe_bytes _ _ l).trans (change.getLoc (fun _ => rfl) l))

end

/-! ### ORBOFS (R135, R141) -/

/-- What ORBOFS writes of a representative (R141). -/
def orbofsWord (r : Rep) : Word := .ofNat 64 (r.mult % 2 ^ 30 * 2 ^ 34 + signCode r.sign * 2 ^ 32 + r.off)

theorem signCode_eq (d : Desc) (t : List Nat) : signCode (d.orbitRep t).sign
    = if (d.orbitRep t).sign = 0 then 0 else if (d.orbitRep t).sign = 1 then 1 else 3 := by
  rcases orbitRep_sign d t with h | h | h <;> rw [h] <;> rfl

section
variable {s : State} {o : Fin 8} {a b : Fin 32} {d : Desc} (desc : descOf (s.oreg o) = d)
include desc

theorem orbofsOk_go (rank : d.rank ≠ 0) (inside : TupleInside d (s.tuple d a b)) : s.orbofsOk o a b = .go := by
  subst desc
  have few := inside.rank_le
  rw [State.orbofsOk, orbitOk_go rank, Verdict.go_and]
  exact rangeOk_go ((length_ext_descOf _).trans (Nat.min_eq_left few)) ((length_tuple ..).trans (Nat.min_eq_left few)) inside

theorem exec_orbofs (x : Fin 32) (go : s.orbofsOk o a b = .go) : exec (.orbofs x o a b) s
    = .next ((s.modMyCore fun c => c.busy (s.cycle + 1)).putS x (orbofsWord (d.orbitRep (s.tuple d a b))) 3) := by
  subst desc
  have meaning : exec (.orbofs x o a b) s = execOrbofs x o a b s := rfl
  rw [meaning, execOrbofs, go, guard_go]
  dsimp only
  rw [useUnit_eq s 1 le_rfl]
  rfl

omit desc in
theorem orbofs_traps {x : Fin 32} {c : Cause} {i : Word} (alone : s.me.snap = none) (h : s.orbofsOk o a b = .trap c i) :
    exec (.orbofs x o a b) s = .next (s.takeTrap c i) :=
  (show exec (.orbofs x o a b) s = execOrbofs x o a b s from rfl).trans (guard_traps alone h _)

end

/-- A word that writes registers writes no byte. -/
theorem RegisterStep.sameBytes {s t : State} {but : List RegName} {lat : Nat} {fl : Flags} (h : RegisterStep s t but lat fl) :
    SameBytes s t := by
  have core (k : Nat) : { t.core k with ctxs := (s.core k).ctxs } = s.core k := by
    by_cases hk : k = s.cur
    · subst hk
      exact h.core
    · rw [h.alone.cores k hk]
  intro l
  cases l with
  | mem p => exact congrArg (fun m => cget m p) (congrArg State.mem h.alone.package :)
  | scr n o => exact congrArg (fun m => cget m o) (congrArg Core.scr (core n) :)
  | lid n o => exact congrArg (fun m => cget m o) (congrArg Core.lid (core n) :)

/-- A word that writes registers changes no unit. -/
theorem RegisterStep.units {s t : State} {but : List RegName} {lat : Nat} {fl : Flags} (h : RegisterStep s t but lat fl) :
    UnitsKept s t := by
  have core := congrArg (fun c : Core => { c with ops := (s.core s.cur).ops }) h.core
  exact core

end Sys2Proof.Machine

open Sys2Proof Sys2Proof.Machine

/-- Settles O21: ORBOFS's word is the tuple's representative; ORBLD packs the elements of its window at their places, each read
as its orbit stores it. -/
theorem orbitWordsRead : Obligations.OrbitWordsRead := by
  unfold Obligations.OrbitWordsRead
  intro s o a b d tup
  refine ⟨fun x rank inside => ?_, fun x rank few allowed => ?_, fun alone => ⟨fun rank => ⟨fun x => ?_, fun x => ?_⟩,
    fun x k hk few below out => ?_⟩⟩
  · have change := busy_orbitChange (s.cycle + 1)
    have step := putS_step (s.modMyCore fun c => c.busy (s.cycle + 1)) x (orbofsWord (d.orbitRep tup)) 3 (by decide)
    have context := step.ctx
    have awaited := step.awaited
    have regs := step.regs
    rw [change.me] at context awaited regs
    refine ⟨_, exec_orbofs rfl x (orbofsOk_go rfl rank inside), change.alone step.alone, change.units step.units,
      fun l => (step.sameBytes l).trans (change.getLoc (fun _ => rfl) l), regs, ?_, context, awaited, ?_⟩
    · exact (congrArg Core.ops step.core).trans ((congrArg Core.ops (State.core_modCore_self ..)).trans (change.ops _))
    · rw [putS_value, orbofsWord, signCode_eq]
  · have ext := (length_ext_descOf (s.oreg o)).trans (Nat.min_eq_left few)
    have len := (length_tuple s d a b).trans (Nat.min_eq_left few)
    obtain ⟨units, bytes, step⟩ := windowLoaded_step s x (s.orbldTile d a b) (8 * d.perLane)
    refine ⟨_, _, exec_orbldTile rfl x (orbldOk_go rfl rank few allowed), units, bytes, step, s.me.regs.keeps_wt x _,
      fun r c hr hc => ?_⟩
    rw [Regs.wt_self, orbldTile_elem s d a b hr hc]
    exact ⟨fun t window inside => windowElem_inside ext len window inside, windowElem_outside ext len⟩
  · exact orbofs_traps alone (by rw [State.orbofsOk, orbitOk_trap rank, Verdict.trap_and])
  · exact orbldTile_traps alone (by rw [State.orbldOk, orbitOk_trap rank, Verdict.trap_and])
  · have ext := (length_ext_descOf (s.oreg o)).trans (Nat.min_eq_left few)
    have len := (length_tuple s d a b).trans (Nat.min_eq_left few)
    have info : orbitInfo 3 k = .ofNat 64 (16 * k + 3) := by
      rw [orbitInfo, Nat.mod_eq_of_lt (by omega : k < 16), Nat.mul_comm]
    refine orbofs_traps alone ?_
    rw [State.orbofsOk, orbitOk_go (Nat.ne_zero_of_lt hk), Verdict.go_and, rangeOk_trap ext len hk below out, info]

end

section
namespace Sys2Proof.Machine

/-! ### All tuples of a tensor in row-major order (R143) -/

theorem length_allTuples : ∀ ns : List Nat, (allTuples ns).length = ns.foldl (· * ·) 1
  | [] => rfl
  | n :: ns => by
    rw [allTuples, length_flatMap_const _ (ns.foldl (· * ·) 1) _ (fun x _ => by rw [List.length_map, length_allTuples ns]),
      List.length_range, List.foldl_cons, foldl_mul ns (1 * n), Nat.one_mul, Nat.mul_comm]

/-- Every index of a tuple is below its extent. -/
def TupleIn (ns t : List Nat) : Prop := List.Forall₂ (fun x n => x < n) t ns

theorem tupleIn_iff {d : Desc} {t : List Nat} (ext : d.ext.length = d.rank) :
    TupleIn d.ext t ↔ t.length = d.rank ∧ TupleInside d t := by
  rw [TupleIn, List.forall₂_iff_get, ← ext]
  refine and_congr_right fun len => ⟨fun h k hk => ?_, fun h k ht he => ?_⟩
  · have he : k < d.ext.length := ext ▸ hk
    have below := h k (len ▸ he) he
    rwa [Desc.extent, List.getD_eq_getElem _ _ (len ▸ he), List.getD_eq_getElem _ _ he]
  · have below := h k (ext ▸ he)
    rwa [Desc.extent, List.getD_eq_getElem _ _ ht, List.getD_eq_getElem _ _ he] at below

theorem mem_allTuples : ∀ {ns t : List Nat}, t ∈ allTuples ns ↔ TupleIn ns t
  | [], t => by simp [allTuples, TupleIn]
  | n :: ns, [] => by simp [allTuples, TupleIn]
  | n :: ns, x :: t => by
    have ih := mem_allTuples (ns := ns) (t := t)
    unfold TupleIn at ih ⊢
    simp [allTuples, ih]

/-- A tuple inside stands at its row-major place. -/
theorem allTuples_rowMajor : ∀ {ns t : List Nat}, TupleIn ns t →
    rowMajor ns t < (allTuples ns).length ∧ (allTuples ns).getD (rowMajor ns t) [] = t
  | [], t, h => by
    obtain rfl := List.forall₂_nil_right_iff.1 h
    exact ⟨Nat.one_pos, rfl⟩
  | n :: ns, [], h => nomatch h
  | n :: ns, x :: t, h => by
    obtain ⟨hx, ht⟩ := List.forall₂_cons.1 h
    obtain ⟨inside, element⟩ := allTuples_rowMajor ht
    have block (y : Nat) : ((allTuples ns).map (y :: ·)).length = (allTuples ns).length := List.length_map ..
    have place : rowMajor (n :: ns) (x :: t) = (allTuples ns).length * x + rowMajor ns t := by
      rw [rowMajor, length_allTuples, Nat.mul_comm]
    have length : (allTuples (n :: ns)).length = (allTuples ns).length * n := by
      rw [allTuples, length_flatMap_const _ _ _ fun y _ => block y, List.length_range]
    rw [place, length]
    constructor
    · calc (allTuples ns).length * x + rowMajor ns t < (allTuples ns).length * (x + 1) := by rw [Nat.mul_succ]; omega
        _ ≤ (allTuples ns).length * n := Nat.mul_le_mul_left _ hx
    · rw [allTuples, getD_flatMap _ _ _ _ (fun y _ => block y) x _ (by simpa using hx) inside, List.getElem_range]
      rw [List.getD_eq_getElem _ _ inside] at element
      rw [List.getD_eq_getElem _ _ (by rwa [block]), List.getElem_map, element]

/-! ### ORBX's bytes (R143) -/

section
variable (s : State) (d : Desc)

/-- The bytes of the whole tensor in general storage. -/
def State.expandedBytes : List Byte := (allTuples d.ext).flatMap fun t => leBytes d.size (s.orbitElem d (d.orbitRep t))

theorem length_expandedBytes : (s.expandedBytes d).length = d.total * d.size := by
  rw [State.expandedBytes, length_flatMap_const _ _ _ fun t _ => length_leBytes .., length_allTuples, Nat.mul_comm]
  rfl

/-- ORBX's moves: each byte to its place. -/
def State.expansion (dst : Nat) : List (Src × Loc) :=
  (s.expandedBytes d).zipIdx.map fun (b, k) => (.known b, .scr s.cur (dst + k))

theorem length_expansion (dst : Nat) : (s.expansion d dst).length = d.total * d.size := by
  rw [State.expansion, List.length_map, List.length_zipIdx, length_expandedBytes]

/-- Byte k of a tuple's element (R142, R143). -/
theorem expansion_byte (dst : Nat) {t : List Nat} (inside : TupleIn d.ext t) {k : Nat} (hk : k < d.size) :
    (s.expansion d dst)[rowMajor d.ext t * d.size + k]? = some (.known (.ofNat 8 (orbitValue s d t / 256 ^ k)),
      .scr s.cur (dst + rowMajor d.ext t * d.size + k)) := by
  obtain ⟨below, element⟩ := allTuples_rowMajor inside
  rw [List.getD_eq_getElem _ _ below] at element
  have index : rowMajor d.ext t * d.size + k < (s.expandedBytes d).length := by
    rw [length_expandedBytes, Desc.total, ← length_allTuples]
    calc rowMajor d.ext t * d.size + k < (rowMajor d.ext t + 1) * d.size := by rw [Nat.succ_mul]; omega
      _ ≤ (allTuples d.ext).length * d.size := Nat.mul_le_mul_right _ below
  have byte : (s.expandedBytes d)[rowMajor d.ext t * d.size + k]? = some (.ofNat 8 (orbitValue s d t / 256 ^ k)) := by
    rw [List.getElem?_eq_getElem index, ← List.getD_eq_getElem _ 0 index, Nat.mul_comm, State.expandedBytes,
      getD_flatMap _ d.size 0 _ (fun t _ => length_leBytes ..) _ _ below hk, element,
      List.getD_eq_getElem _ _ (by rwa [length_leBytes]), leBytes_get _ _ _ hk]
    rfl
  rw [State.expansion, List.getElem?_map, List.getElem?_zipIdx, byte, Nat.add_assoc]
  simp

end

/-! ### ORBX's checks (R143, R146, R397) -/

theorem overlap_of_shared {a b c d k : Nat} (ha : a ≤ k) (hb : k < b) (hc : c ≤ k) (hd : k < d) : overlap a b c d = true :=
  decide_eq_true (by omega)

theorem overlap_eq_false_iff (a b c d : Nat) : overlap a b c d = false ↔ min b d ≤ max a c := by
  rw [overlap, decide_eq_false_iff_not, Nat.not_lt]

section
variable {s : State} {o : Fin 8} {x : Fin 32} {imm : BitVec 20}

/-- ORBX may read every element that its tensor stores. -/
def State.TensorAllowed (s : State) (d : Desc) : Prop :=
  ∀ t, t.length = d.rank → TupleInside d t → (d.orbitRep t).sign ≠ 0 →
    s.OwnAllowed engCpy false (d.base + (d.orbitRep t).off * d.size) d.size

theorem allReads_allowed {d : Desc} (ext : d.ext.length = d.rank) (allowed : s.TensorAllowed d) {p : Nat}
    (hp : p ∈ d.allReads) : s.OwnAllowed engCpy false p d.size := by
  rw [Desc.allReads, List.mem_filterMap] at hp
  obtain ⟨r, hr, found⟩ := hp
  obtain ⟨t, ht, rfl⟩ := List.mem_map.1 hr
  obtain ⟨len, inside⟩ := (tupleIn_iff ext).1 (mem_allTuples.1 ht)
  rw [Option.ite_none_left_eq_some, Option.some.injEq] at found
  obtain ⟨sign, rfl⟩ := found
  exact allowed t len inside sign

variable {d : Desc} (desc : descOf (s.oreg o) = d)
include desc

theorem orbxOk_go (rank : d.rank ≠ 0) (few : d.rank ≤ 6) (fits : s.orbxDst x imm + d.total * d.size ≤ 2 ^ 22)
    (apart : s.orbxDst x imm + d.total * d.size ≤ d.base ∨ d.base + d.packed * d.size ≤ s.orbxDst x imm)
    (reads : s.TensorAllowed d) (writes : s.OwnAllowed engCpy true (s.orbxDst x imm) (d.total * d.size)) :
    s.orbxOk o x imm = .go := by
  subst desc
  have ext := (length_ext_descOf (s.oreg o)).trans (Nat.min_eq_left few)
  unfold State.orbxOk
  dsimp only
  simp only [Verdict.and_eq_go, trapIf_eq_go, ownHeld_eq_go, escape_eq_go]
  refine ⟨orbitOk_go rank, ?_, ?_, firstBad_go fun p hp => ?_, writes.1, firstBad_go fun p hp => ?_, writes.2⟩
  · exact decide_eq_false (by omega)
  · rw [overlap_eq_false_iff]
    omega
  · exact (ownHeld_eq_go s).2 (allReads_allowed ext reads hp).1
  · exact (escape_eq_go s).2 (allReads_allowed ext reads hp).2

theorem orbxOk_beyond (rank : d.rank ≠ 0) (past : 2 ^ 22 < s.orbxDst x imm + d.total * d.size) :
    s.orbxOk o x imm = .trap .orbitRange 4 := by
  subst desc
  have bad : pastScr (s.orbxDst x imm) ((descOf (s.oreg o)).total * (descOf (s.oreg o)).size) = true := decide_eq_true past
  unfold State.orbxOk
  dsimp only
  rw [orbitOk_go rank, bad]
  rfl

theorem orbxOk_meets (rank : d.rank ≠ 0) (fits : s.orbxDst x imm + d.total * d.size ≤ 2 ^ 22)
    (meets : overlap (s.orbxDst x imm) (s.orbxDst x imm + d.total * d.size) d.base (d.base + d.packed * d.size) = true) :
    s.orbxOk o x imm = .trap .orbitRange 5 := by
  subst desc
  have good : pastScr (s.orbxDst x imm) ((descOf (s.oreg o)).total * (descOf (s.oreg o)).size) = false :=
    decide_eq_false (by omega)
  unfold State.orbxOk
  dsimp only
  rw [orbitOk_go rank, good, meets]
  rfl

/-- The state that ORBX leaves when it issues. -/
def State.expands (s : State) (d : Desc) (dst : Nat) : State :=
  (s.modMyCore fun c => c.busy (s.cycle + max 1 ((d.total + 15) / 16))).issueOp (some .tl) 12 [⟨dst, dst + d.total * d.size, true⟩] []
    (.copy (s.expansion d dst)) (s.cycle + 12 + (d.total + 15) / 16) (.asyncRetire s.cur)

theorem exec_orbx (go : s.orbxOk o x imm = .go) : exec (.orbx o x imm) s = .next (s.expands d (s.orbxDst x imm)) := by
  subst desc
  have meaning : exec (.orbx o x imm) s = execOrbx o x imm s := rfl
  rw [meaning, execOrbx, go, guard_go, State.expands, ← length_expandedBytes s]
  rfl

omit desc in
theorem orbx_traps {c : Cause} {i : Word} (alone : s.me.snap = none) (h : s.orbxOk o x imm = .trap c i) :
    exec (.orbx o x imm) s = .next (s.takeTrap c i) :=
  (show exec (.orbx o x imm) s = execOrbx o x imm s from rfl).trans (guard_traps alone h _)

end
end Sys2Proof.Machine

open Sys2Proof Sys2Proof.Machine

/-- Settles O23: a tuple inside the extents stands at its row-major place among all tuples, and the bytes of its element at as
many elements' bytes; ORBX's checks go in the order of log 93. -/
theorem orbitsExpand : Obligations.OrbitsExpand := by
  unfold Obligations.OrbitsExpand
  intro s o x imm d dst n rank few
  have ext := (length_ext_descOf (s.oreg o)).trans (Nat.min_eq_left few)
  refine ⟨fun fits apart reads writes => ?_, fun alone past => orbx_traps alone (orbxOk_beyond rfl rank past),
    fun alone fits meets => orbx_traps alone (orbxOk_meets rfl rank fits ?_)⟩
  · have change := busy_orbitChange (s.cycle + max 1 ((d.total + 15) / 16))
    refine ⟨_, s.expansion d dst, exec_orbx rfl (orbxOk_go rfl rank few fits apart reads writes), change.units (issueOp_units ..),
      fun l => (issueOp_bytes _ _ _ _ _ _ _ _ l).trans (change.getLoc (fun _ => rfl) l),
      modMyCore_issueOp_step s _ change.ctxs change.ops .., length_expansion s d dst, fun t k len inside hk => ?_⟩
    exact expansion_byte s d dst ((tupleIn_iff ext).2 ⟨len, inside⟩) hk
  · obtain ⟨k, low, high, low', high'⟩ := meets
    exact overlap_of_shared low high low' high'

end

section
namespace Sys2Proof.Machine

/-! ### Writes to the own scratchpad, one byte after another -/

section
variable {s : State} {f : Core → Core} (hf : OrbitChange f)
include hf

/-- Beyond the own scratchpad no byte differs. -/
theorem OrbitChange.getLoc_other (l : Loc) (hl : ∀ a, l ≠ .scr s.cur a) : (s.modMyCore f).getLoc l = s.getLoc l := by
  cases l with
  | mem a => rfl
  | scr n a =>
    have away : n ≠ s.cur := fun e => hl a (e ▸ rfl)
    exact congrArg (fun c : Core => cget c.scr a) (State.core_modCore_ne s away f)
  | lid n a =>
    refine congrArg (fun m => cget m a) ?_
    by_cases here : n = s.cur
    · subst here
      exact (congrArg Core.lid (State.core_modCore_self s s.cur f)).trans (hf.lid _)
    · exact congrArg Core.lid (State.core_modCore_ne s here f)

end

/-- A byte that is written reads as the last write of it. -/
theorem cget_foldl_cset_mem {w a : Nat} : ∀ {bs : List (Nat × BitVec w)} {m : Cells w}, Memory.wf m = true →
    (∃ b ∈ bs, b.1 = a) → (a, cget (bs.foldl (fun m b => cset m b.1 b.2) m) a) ∈ bs
  | [], _, _, ⟨_, h, _⟩ => absurd h List.not_mem_nil
  | (k, v) :: bs, m, wf, h => by
    rw [List.foldl_cons]
    by_cases later : ∃ b ∈ bs, b.1 = a
    · exact List.mem_cons_of_mem _ (cget_foldl_cset_mem (wf_cset k v wf) later)
    · obtain ⟨b, hb, rfl⟩ := h
      obtain rfl : b = (k, v) := (List.mem_cons.1 hb).resolve_right fun hb => later ⟨b, hb, rfl⟩
      rw [cget_foldl_cset_out bs (wf_cset k v wf) fun b hb e => later ⟨b, hb, e⟩, cget_cset_self _ _ wf]
      exact List.mem_cons_self

/-- No operation in flight and no pending check holds a write of some bytes back (R182, R245). -/
def State.FreeFor (s : State) (bs : List (Nat × Byte)) : Prop :=
  s.me.undo = none ∧ ∀ o ∈ s.myCore.ops, ∀ r ∈ o.ranges, ∀ b ∈ bs, ¬ (r.lo ≤ b.1 ∧ b.1 < r.hi)

/-- Writes without a full/empty bit change their core alone. -/
theorem writeCells_change (s : State) (bs : List (Nat × Byte)) :
    ∃ f : Core → Core, s.writeCells bs none = s.modMyCore f ∧ OrbitChange f := by
  obtain ⟨h, -, mark, -, -, -, change⟩ := writeCells_eq s bs none
  refine ⟨_, change, fun c => ?_⟩
  have fe : (match h.mark with | some (w, n, full) => csetN c.fe w (List.replicate n (if full then 1 else 0)) | none => c.fe)
      = c.fe := by rw [mark]
  split
  · exact congrArg (fun m : Cells 1 => { c with fe := m }) fe
  · rfl

/-- Writes without a full/empty bit: performed in order, or held as one (R182, R245). -/
theorem writeCells_spec (s : State) (bs : List (Nat × Byte)) (canon : s.canon = true) :
    (∀ l, (∀ e ∈ bs, l ≠ .scr s.cur e.1) → (s.writeCells bs none).getLoc l = s.getLoc l)
      ∧ (¬ s.FreeFor bs → SameBytes s (s.writeCells bs none)
          ∧ ∃ h, (s.writeCells bs none).myCore.held = s.myCore.held ++ [h] ∧ h.store = s.nextOp)
      ∧ (s.FreeFor bs → ∀ e ∈ bs, (e.1, (s.writeCells bs none).getLoc (.scr s.cur e.1)) ∈ bs) := by
  obtain ⟨f, hf, change⟩ := writeCells_change s bs
  obtain ⟨h, bytes, -, store, -, free, meaning⟩ := writeCells_eq s bs none
  have wf := canon_scr s canon s.cur
  have core : (s.writeCells bs none).core s.cur
      = if h.free s.cycle then s.myCore.putHeld h else { s.myCore with held := s.myCore.held ++ [h] } := by
    rw [meaning]
    exact State.core_modCore_self ..
  have other : ∀ l, (∀ a, l ≠ .scr s.cur a) → (s.writeCells bs none).getLoc l = s.getLoc l := hf ▸ change.getLoc_other
  by_cases all : s.FreeFor bs
  · rw [if_pos (free.2 all)] at core
    have cell (a : Nat) : (s.writeCells bs none).getLoc (.scr s.cur a)
        = cget (bs.foldl (fun m b => cset m b.1 b.2) s.myCore.scr) a := by
      refine (congrArg (fun c : Core => cget c.scr a) core).trans ?_
      rw [← bytes]
      rfl
    refine ⟨fun l hl => ?_, fun taken => absurd all taken, fun _ e he => ?_⟩
    · by_cases here : ∃ a, l = .scr s.cur a
      · obtain ⟨a, rfl⟩ := here
        rw [cell]
        exact cget_foldl_cset_out bs wf fun e he same => hl e he (congrArg _ same.symm)
      · exact other l fun a same => here ⟨a, same⟩
    · rw [cell]
      exact cget_foldl_cset_mem wf ⟨e, he, rfl⟩
  · rw [if_neg (mt free.1 all)] at core
    have same : SameBytes s (s.writeCells bs none) := fun l => by
      by_cases here : ∃ a, l = .scr s.cur a
      · obtain ⟨a, rfl⟩ := here
        exact congrArg (fun m => cget m a) (congrArg Core.scr core :)
      · exact other l fun a e => here ⟨a, e⟩
    exact ⟨fun l _ => same l, fun _ => ⟨same, h, congrArg Core.held core, store⟩, fun free => absurd free all⟩

theorem modMyCore_modMyCore (s : State) (f g : Core → Core) : (s.modMyCore f).modMyCore g = s.modMyCore fun c => g (f c) :=
  modCore_modCore s s.cur f g

/-- A store that has its bytes written, behind a change of the core (R396). -/
def State.storeIssued (s : State) (f : Core → Core) (due : Nat) : State :=
  (s.modMyCore f).issueOp (some .st) kSt [] [] .settled due (.storePerform s.cur)

section
variable {s : State} {f : Core → Core} (due : Nat)

theorem storeIssued_core : { (s.storeIssued f due).core s.cur with
    ctxs := (f (s.core s.cur)).ctxs, ops := (f (s.core s.cur)).ops } = f (s.core s.cur) :=
  modMyCore_issued (issueOp_units ..)

theorem storeIssued_bytes : SameBytes (s.modMyCore f) (s.storeIssued f due) := fun l => issueOp_bytes _ _ _ _ _ _ _ _ l

section
variable {g : Core → Core}

theorem storeIssued_held (hg : ∀ c, (g c).held = c.held) :
    (s.storeIssued (fun c => g (f c)) due).myCore.held = (s.modMyCore f).myCore.held := by
  have core := congrArg Core.held (storeIssued_core (s := s) (f := fun c => g (f c)) due)
  exact (core.trans (hg _)).trans (congrArg Core.held (State.core_modCore_self s s.cur f)).symm

/-- A change of the core that leaves its scratchpad, and the issue of a store, leave every byte. -/
theorem storeIssued_behind (hg : OrbitChange g) (scr : ∀ c, (g c).scr = c.scr) :
    SameBytes (s.modMyCore f) (s.storeIssued (fun c => g (f c)) due) := fun l => by
  have same := hg.getLoc (s := s.modMyCore f) scr l
  rw [modMyCore_modMyCore] at same
  exact (storeIssued_bytes due l).trans same

end

variable (hf : OrbitChange f)
include hf

theorem storeIssued_units : UnitsKeptButOrbit s (s.storeIssued f due) := hf.units (issueOp_units ..)

theorem storeIssued_step : OperationStep s (s.storeIssued f due) (storeOp s .settled) s.me.regs s.me.wait due
    (.storePerform s.cur s.nextOp) := modMyCore_issueOp_step s f hf.ctxs hf.ops ..

end

/-! ### Scalar ORBST (R144) -/

theorem ScrWritten.of_same {s t u : State} {off : Nat} {b : List Byte} (h : ScrWritten s t off b) (bytes : SameBytes t u)
    (held : u.myCore.held = t.myCore.held) : ScrWritten s u off b := by
  obtain ⟨out, free, kept⟩ := h
  refine ⟨fun l hl => (bytes l).trans (out l hl), fun none => ?_, fun taken => ?_⟩
  · obtain ⟨same, written⟩ := free none
    exact ⟨held.trans same, fun k hk => (bytes _).trans (written k hk)⟩
  · obtain ⟨same, h, more⟩ := kept taken
    exact ⟨fun l => (bytes l).trans (same l), h, by rw [held]; exact more⟩

section
variable {s : State} {o : Fin 8} {a b v : Fin 32} {d : Desc} (desc : descOf (s.oreg o) = d)
include desc

theorem orbstScalarOk_eq (rank : d.rank ≠ 0) (inside : TupleInside d (s.tuple d a b)) : s.orbstScalarOk o a b v =
    if (d.orbitRep (s.tuple d a b)).sign = 0 then
      trapIf (!zeroElem d.fmt (8 * d.size) (s.orbstVal d v)) .symBreak 0
    else s.ownOk engLsu true (d.at (d.orbitRep (s.tuple d a b)).off) d.size := by
  subst desc
  have few := inside.rank_le
  have range := rangeOk_go ((length_ext_descOf _).trans (Nat.min_eq_left few)) ((length_tuple ..).trans (Nat.min_eq_left few)) inside
  unfold State.orbstScalarOk
  dsimp only
  rw [orbitOk_go rank, Verdict.go_and, range, Verdict.go_and]
  rfl

theorem exec_orbstScalar_zero (go : s.orbstScalarOk o a b v = .go) (sign : (d.orbitRep (s.tuple d a b)).sign = 0) :
    exec (.orbstScalar o a b v) s = .next (s.storeIssued (fun c => c.busy (s.cycle + 1)) (s.cycle + 1)) := by
  subst desc
  have meaning : exec (.orbstScalar o a b v) s = execOrbstScalar o a b v s := rfl
  rw [meaning, execOrbstScalar, go, guard_go]
  dsimp only
  rw [if_pos sign, useUnit_eq s 1 le_rfl]
  rfl

/-- The value that a scalar ORBST stores: negated where the sign is −1. -/
def State.orbstStored (s : State) (d : Desc) (v : Fin 32) (r : Rep) : Nat :=
  if r.sign = -1 then negElem d.fmt (8 * d.size) (s.orbstVal d v) else s.orbstVal d v

theorem exec_orbstScalar_stores (go : s.orbstScalarOk o a b v = .go) (sign : (d.orbitRep (s.tuple d a b)).sign ≠ 0)
    {f : Core → Core} (change : s.storeHere (d.at (d.orbitRep (s.tuple d a b)).off)
      (leBytes d.size (s.orbstStored d v (d.orbitRep (s.tuple d a b)))) none = s.modMyCore f) :
    exec (.orbstScalar o a b v) s = .next (s.storeIssued (fun c => (f c).busy (s.cycle + 1)) (s.cycle + 1)) := by
  subst desc
  have meaning : exec (.orbstScalar o a b v) s = execOrbstScalar o a b v s := rfl
  have store : s.writeCells ((descOf (s.oreg o)).elemBytes ((descOf (s.oreg o)).orbitRep (s.tuple (descOf (s.oreg o)) a b)).off
      (s.orbstStored (descOf (s.oreg o)) v ((descOf (s.oreg o)).orbitRep (s.tuple (descOf (s.oreg o)) a b)))) none
      = s.modMyCore f := change
  unfold State.orbstStored at store
  rw [meaning, execOrbstScalar, go, guard_go]
  dsimp only
  rw [if_neg sign, store, useUnit_eq _ 1 le_rfl, modMyCore_modMyCore]
  rfl

omit desc in
theorem orbstScalar_traps {c : Cause} {i : Word} (alone : s.me.snap = none) (h : s.orbstScalarOk o a b v = .trap c i) :
    exec (.orbstScalar o a b v) s = .next (s.takeTrap c i) :=
  (show exec (.orbstScalar o a b v) s = execOrbstScalar o a b v s from rfl).trans (guard_traps alone h _)

end

/-! ### Tile ORBST (R145, R396) -/

section
variable {s : State} {chk : Bool} {o : Fin 8} {x : Fin 16} {a b : Fin 32} {d : Desc} (desc : descOf (s.oreg o) = d)
include desc

/-- The bytes that a tile ORBST writes: those of its canonical elements. -/
def State.orbstBytes (s : State) (d : Desc) (x : Fin 16) (a b : Fin 32) : List (Nat × Byte) :=
  (s.orbstWrites d a b).flatMap fun p => d.elemBytes p.2.off (d.tileElem s.src.t[x] p.1.1 p.1.2)

omit desc in
/-- Bytes of an element at its packed place (R136). -/
theorem mem_elemBytes {off v : Nat} {e : Nat × Byte} : e ∈ d.elemBytes off v ↔
    ∃ k, k < d.size ∧ e = (d.at off + k, .ofNat 8 (v / 256 ^ k)) := by
  simp only [Desc.elemBytes, List.mem_map, Prod.exists, List.mem_zipIdx_iff_getElem?, List.getElem?_eq_some_iff, length_leBytes]
  constructor
  · rintro ⟨byte, k, ⟨hk, h⟩, rfl⟩
    exact ⟨k, hk, by rw [← h, leBytes_get _ _ _ hk]⟩
  · rintro ⟨k, hk, rfl⟩
    exact ⟨_, k, ⟨hk, leBytes_get _ _ _ hk⟩, rfl⟩

theorem orbstTileOk_eq (rank : d.rank ≠ 0) (writes : ∀ p ∈ s.orbstWrites d a b, s.OwnAllowed engLsu true (d.at p.2.off) d.size)
    (reads : ∀ p ∈ s.orbstReads d chk a b, s.OwnAllowed engLsu false p d.size) :
    s.orbstTileOk chk o x a b = if chk then s.chkTile d (s.tuple d a b) s.src.t[x] else .go := by
  subst desc
  have elements := elemsOk_go (wr := (s.orbstWrites (descOf (s.oreg o)) a b).map fun p => (descOf (s.oreg o)).at p.2.off) reads
    fun q hq => by
      obtain ⟨p, hp, rfl⟩ := List.mem_map.1 hq
      exact writes p hp
  unfold State.orbstTileOk
  dsimp only
  rw [orbitOk_go rank, Verdict.go_and, elements, Verdict.go_and]

omit desc in
theorem chkTile_go {orig : List Nat} {t : Tile} (h : ∀ p ∈ d.window orig, d.canonical orig p = true ∨ s.chkOk d orig t p = true) :
    s.chkTile d orig t = .go := by
  have none : (d.window orig).find? (fun p => !d.canonical orig p && !s.chkOk d orig t p) = none := by
    rw [List.find?_eq_none]
    intro p hp
    rcases h p hp with h | h <;> simp [h]
  rw [State.chkTile, none]

omit desc in
theorem chkTile_traps {orig : List Nat} {t : Tile} {l l' : List ((Nat × Nat) × Rep)} {p : (Nat × Nat) × Rep}
    (window : d.window orig = l ++ p :: l') (before : ∀ q ∈ l, d.canonical orig q = true ∨ s.chkOk d orig t q = true)
    (other : d.canonical orig p = false) (differs : s.chkOk d orig t p = false) :
    s.chkTile d orig t = .trap .symBreak (symInfo 1 p.1.1 p.1.2) := by
  have found : (d.window orig).find? (fun p => !d.canonical orig p && !s.chkOk d orig t p) = some p := by
    rw [List.find?_eq_some_iff_append]
    refine ⟨by rw [other, differs]; rfl, l, l', window, fun q hq => ?_⟩
    rcases before q hq with h | h <;> simp [h]
  rw [State.chkTile, found]

/-- What a tile ORBST does to its core besides its writes: the unit and the port are busy (R396). -/
def Core.portBusy (c : Core) (unit port : Nat) : Core := { c with orbFree := unit, portFree := port }

omit desc in
theorem portBusy_orbitChange (unit port : Nat) : OrbitChange fun c => c.portBusy unit port := fun _ => rfl

theorem exec_orbstTile (go : s.orbstTileOk chk o x a b = .go) {f : Core → Core}
    (change : s.writeCells (s.orbstBytes d x a b) none = s.modMyCore f) : exec (.orbstTile chk o x a b) s
      = .next (s.storeIssued (fun c => (f c).portBusy (s.cycle + 8 * d.perLane) (s.cycle + 16 * d.perLane + 12))
          (s.cycle + 16 * d.perLane + 12)) := by
  subst desc
  have meaning : exec (.orbstTile chk o x a b) s = execOrbstTile chk o x a b s := rfl
  have busy : 1 ≤ 8 * (descOf (s.oreg o)).perLane := by have := (descOf (s.oreg o)).perLane_pos; omega
  have twice : 2 * (8 * (descOf (s.oreg o)).perLane) = 16 * (descOf (s.oreg o)).perLane := by omega
  unfold State.orbstBytes at change
  rw [meaning, execOrbstTile, go, guard_go]
  dsimp only
  rw [change, modMyCore_modMyCore, useUnit_eq _ _ busy, modMyCore_modMyCore, twice]
  rfl

omit desc in
theorem orbstTile_traps {c : Cause} {i : Word} (alone : s.me.snap = none) (h : s.orbstTileOk chk o x a b = .trap c i) :
    exec (.orbstTile chk o x a b) s = .next (s.takeTrap c i) :=
  (show exec (.orbstTile chk o x a b) s = execOrbstTile chk o x a b s from rfl).trans (guard_traps alone h _)

omit desc in
theorem noneHolds_iff (lo len : Nat) : s.NoneHolds lo len ↔ s.me.undo = none ∧ ∀ o ∈ s.myCore.ops, ∀ r ∈ o.ranges, ∀ k, k < len →
    ¬ (r.lo ≤ lo + k ∧ lo + k < r.hi) := by
  rw [State.NoneHolds]
  refine and_congr_right fun _ => forall₄_congr fun o _ r _ => ?_
  rw [overlap_eq_false_iff]
  constructor
  · intro apart k hk meets
    omega
  · intro free
    by_contra meets
    exact free (max r.lo lo - lo) (by omega) (by omega)

omit desc in
theorem freeFor_orbstBytes (h : s.FreeFor (s.orbstBytes d x a b)) : ∀ p ∈ s.orbstWrites d a b, s.NoneHolds (d.at p.2.off) d.size := by
  obtain ⟨undo, free⟩ := h
  refine fun p hp => (noneHolds_iff ..).2 ⟨undo, fun o ho r hr k hk => ?_⟩
  exact free o ho r hr (d.at p.2.off + k, _) (List.mem_flatMap.2 ⟨p, hp, mem_elemBytes.2 ⟨k, hk, rfl⟩⟩)

omit desc in
theorem freeFor_of_noneHolds {p : (Nat × Nat) × Rep} (some : p ∈ s.orbstWrites d a b)
    (h : ∀ p ∈ s.orbstWrites d a b, s.NoneHolds (d.at p.2.off) d.size) : s.FreeFor (s.orbstBytes d x a b) := by
  refine ⟨(h p some).1, fun o ho r hr e he => ?_⟩
  obtain ⟨q, hq, he⟩ := List.mem_flatMap.1 he
  obtain ⟨k, hk, rfl⟩ := mem_elemBytes.1 he
  exact ((noneHolds_iff ..).1 (h q hq)).2 o ho r hr k hk

omit desc in
/-- What a tile ORBST writes: each canonical element at its place, at once or held as one (R145, R182). -/
def TileWritten (s t : State) (d : Desc) (x : Fin 16) (a b : Fin 32) : Prop :=
  (∀ l, (∀ p ∈ s.orbstWrites d a b, ∀ k, k < d.size → l ≠ .scr s.cur (d.at p.2.off + k)) → t.getLoc l = s.getLoc l)
    ∧ (¬ (∀ p ∈ s.orbstWrites d a b, s.NoneHolds (d.at p.2.off) d.size) → SameBytes s t
        ∧ ∃ h, t.myCore.held = s.myCore.held ++ [h] ∧ h.store = s.nextOp)
    ∧ ((∀ p ∈ s.orbstWrites d a b, s.NoneHolds (d.at p.2.off) d.size) →
        ∀ p ∈ s.orbstWrites d a b, ∀ k, k < d.size → ∃ q ∈ s.orbstWrites d a b, ∃ j, j < d.size
          ∧ d.at q.2.off + j = d.at p.2.off + k
          ∧ t.getLoc (.scr s.cur (d.at p.2.off + k)) = .ofNat 8 (d.tileElem s.src.t[x] q.1.1 q.1.2 / 256 ^ j))

omit desc in
theorem tileWritten_of_same {t : State} (canon : s.canon = true)
    (bytes : SameBytes (s.writeCells (s.orbstBytes d x a b) none) t)
    (held : t.myCore.held = (s.writeCells (s.orbstBytes d x a b) none).myCore.held) : TileWritten s t d x a b := by
  obtain ⟨out, kept, performed⟩ := writeCells_spec s (s.orbstBytes d x a b) canon
  refine ⟨fun l hl => (bytes l).trans (out l fun e he => ?_), fun taken => ?_, fun free p hp k hk => ?_⟩
  · obtain ⟨p, hp, he⟩ := List.mem_flatMap.1 he
    obtain ⟨k, hk, rfl⟩ := mem_elemBytes.1 he
    exact hl p hp k hk
  · obtain ⟨same, h, more, store⟩ := kept fun free => taken (freeFor_orbstBytes free)
    exact ⟨fun l => (bytes l).trans (same l), h, held.trans more, store⟩
  · have mem := performed (freeFor_of_noneHolds hp free) (d.at p.2.off + k, _)
      (List.mem_flatMap.2 ⟨p, hp, mem_elemBytes.2 ⟨k, hk, rfl⟩⟩)
    obtain ⟨q, hq, mem⟩ := List.mem_flatMap.1 mem
    obtain ⟨j, hj, e⟩ := mem_elemBytes.1 mem
    obtain ⟨place, value⟩ := Prod.mk.inj e
    exact ⟨q, hq, j, hj, place.symm, (bytes _).trans value⟩

end
end Sys2Proof.Machine

open Sys2Proof Sys2Proof.Machine

/-- Settles O22: a store's bytes go as writes of the own scratchpad do, performed or held as one, and the operation is issued
behind them; .chk finds the first position of the window that is not canonical and differs. -/
theorem orbitWordsStore : Obligations.OrbitWordsStore := by
  unfold Obligations.OrbitWordsStore
  intro s o a b canon d tup
  refine ⟨fun v => ?_, fun x chk rank writes reads => ⟨fun check => ?_, fun on alone l p l' window before other differs => ?_⟩⟩
  · intro r x rank inside
    refine ⟨fun sign allowed => ?_, fun sign zero => ?_, fun sign other alone => ?_⟩
    · have go : s.orbstScalarOk o a b v = .go := by
        rw [orbstScalarOk_eq rfl rank inside, if_neg sign]
        exact (ownOk_eq_go s).2 allowed
      have written := storeHere_written s (d.at r.off) (leBytes d.size (s.orbstStored d v r)) none canon
      obtain ⟨f, hf, change⟩ := writeCells_change s (d.elemBytes r.off (s.orbstStored d v r))
      have store : s.storeHere (d.at r.off) (leBytes d.size (s.orbstStored d v r)) none = s.modMyCore f := hf
      rw [store] at written
      have busy := busy_orbitChange (s.cycle + 1)
      have bytes := storeIssued_behind (s := s) (f := f) (s.cycle + 1) busy fun _ => rfl
      have held := storeIssued_held (s := s) (f := f) (s.cycle + 1) (g := fun c => c.busy (s.cycle + 1)) fun _ => rfl
      exact ⟨_, exec_orbstScalar_stores rfl go sign store, storeIssued_units _ (change.comp busy),
        congrArg Core.orbFree (storeIssued_core _), storeIssued_step _ (change.comp busy), written.of_same bytes held⟩
    · have go : s.orbstScalarOk o a b v = .go := by
        rw [orbstScalarOk_eq rfl rank inside, if_pos sign]
        exact trapIf_eq_go.2 (by rw [Bool.not_eq_false']; exact zero)
      have busy := busy_orbitChange (s.cycle + 1)
      exact ⟨_, exec_orbstScalar_zero rfl go sign, storeIssued_units _ busy,
        fun l => (storeIssued_bytes _ l).trans (busy.getLoc (fun _ => rfl) l), storeIssued_step _ busy⟩
    · refine orbstScalar_traps alone ?_
      have bad : (!zeroElem d.fmt (8 * d.size) (s.orbstVal d v)) = true := by rw [Bool.not_eq_true']; exact other
      rw [orbstScalarOk_eq rfl rank inside, if_pos sign, bad]
      rfl
  · have go : s.orbstTileOk chk o x a b = .go := by
      rw [orbstTileOk_eq rfl rank writes reads]
      split
      · next on => exact chkTile_go (check on)
      · rfl
    obtain ⟨f, hf, change⟩ := writeCells_change s (s.orbstBytes d x a b)
    have busy := portBusy_orbitChange (s.cycle + 8 * d.perLane) (s.cycle + 16 * d.perLane + 12)
    have bytes := storeIssued_behind (s := s) (f := f) (s.cycle + 16 * d.perLane + 12) busy fun _ => rfl
    have held := storeIssued_held (s := s) (f := f) (s.cycle + 16 * d.perLane + 12)
      (g := fun c => c.portBusy (s.cycle + 8 * d.perLane) (s.cycle + 16 * d.perLane + 12)) fun _ => rfl
    rw [← hf] at bytes held
    exact ⟨_, exec_orbstTile rfl go hf, storeIssued_units _ (change.comp busy), congrArg Core.orbFree (storeIssued_core _),
      congrArg Core.portFree (storeIssued_core _), storeIssued_step _ (change.comp busy), tileWritten_of_same canon bytes held⟩
  · refine orbstTile_traps alone ?_
    rw [orbstTileOk_eq rfl rank writes reads, if_pos on, chkTile_traps window before other differs]
    rfl

end
